-- ==== Sys2Proof/Syntax.lean ====
section
/-! DEFINITION. The commands of the block: one constructor of `Instr` for each row of the opcode table, with its
operands. Operand fields carry the names and widths of the encoding tables (12 and 13). Instructions name the
physical core that issues them. -/

namespace Sys2Proof

/-- Operands of the two-operand scalar operations; `ext` is the extension word of the form with X = 1 (12 R277). -/
structure Alu where
  sD  : BitVec 5
  sA  : BitVec 5
  sB  : BitVec 5
  ext : Option W64
  deriving DecidableEq, Repr

/-- The engines with an issue queue (04 R74, 10 R223). -/
inductive Engine where
  | matrix | vector | dma | nearMem | pages | coll
  deriving DecidableEq, Repr

structure MxWld where
  aW   : BitVec 4
  wfmt : BitVec 4
  sfmt : BitVec 4
  kx   : BitVec 9
  nx   : BitVec 8
  sS   : BitVec 5
  fq   : BitVec 5
  da   : Bool
  deriving DecidableEq, Repr

structure MxRun where
  aA   : BitVec 4
  sfmt : BitVec 4
  mq   : BitVec 10
  sS   : BitVec 5
  sC   : BitVec 5
  kx   : BitVec 9
  wa   : Bool
  aB   : BitVec 4
  bfmt : BitVec 4
  dop  : Bool
  da   : Bool
  deriving DecidableEq, Repr

structure MxDrain where
  sC : BitVec 5
  rq : BitVec 6
  pt : Bool
  cq : BitVec 2
  deriving DecidableEq, Repr

structure MxNmv where
  sW   : BitVec 5
  wfmt : BitVec 4
  sK   : BitVec 5
  sN   : BitVec 5
  sP   : BitVec 5
  aX   : BitVec 4
  sV   : BitVec 5
  vfmt : BitVec 4
  vq   : BitVec 3
  aR   : BitVec 4
  da   : Bool
  deriving DecidableEq, Repr

structure VxEp where
  xs   : BitVec 3
  ni   : BitVec 3
  no   : Bool
  i0   : BitVec 4
  i1   : BitVec 4
  i2   : BitVec 4
  i3   : BitVec 4
  o0   : BitVec 4
  o1   : BitVec 4
  msk  : BitVec 4
  mz   : Bool
  f0   : BitVec 4
  f1   : BitVec 4
  f2   : BitVec 4
  f3   : BitVec 4
  fo0  : BitVec 4
  fo1  : BitVec 4
  rnd  : BitVec 2
  sat  : Bool
  draw : BitVec 8
  sL   : BitVec 5
  tq   : BitVec 3
  ti   : Bool
  bm0  : Bool
  bm1  : Bool
  deriving DecidableEq, Repr

structure VxRed where
  aI   : BitVec 4
  ifmt : BitVec 4
  aO   : BitVec 4
  rop  : BitVec 2
  sG   : BitVec 5
  msk  : BitVec 4
  tq   : Bool
  ti   : Bool
  deriving DecidableEq, Repr

structure AtQk where
  aQ   : BitVec 4
  qfmt : BitVec 4
  aK   : BitVec 4
  kfmt : BitVec 4
  aL   : BitVec 4
  sE   : BitVec 5
  sF   : BitVec 5
  sJ   : BitVec 5
  sT   : BitVec 5
  sB   : BitVec 5
  mq   : BitVec 10
  gl   : BitVec 3
  dc   : BitVec 4
  da   : Bool
  deriving DecidableEq, Repr

structure AtSm where
  aS   : BitVec 4
  aP   : BitVec 4
  aL   : BitVec 4
  aT   : BitVec 4
  sE   : BitVec 5
  sF   : BitVec 5
  sJ   : BitVec 5
  sT   : BitVec 5
  sQ   : BitVec 5
  mq   : BitVec 10
  gl   : BitVec 3
  dc   : BitVec 4
  pfmt : BitVec 4
  mask : BitVec 2
  sW   : BitVec 5
  ofmt : BitVec 4
  rnd  : BitVec 2
  sat  : Bool
  om   : Bool
  lse  : Bool
  aX   : BitVec 4
  aO   : BitVec 4
  deriving DecidableEq, Repr

structure AtPv where
  aP   : BitVec 4
  pfmt : BitVec 4
  aV   : BitVec 4
  vfmt : BitVec 4
  aL   : BitVec 4
  aS   : BitVec 4
  sF   : BitVec 5
  sJ   : BitVec 5
  sO   : BitVec 5
  mq   : BitVec 10
  dc   : BitVec 4
  da   : Bool
  deriving DecidableEq, Repr

structure AtDec where
  aQ   : BitVec 4
  qfmt : BitVec 4
  aG   : BitVec 4
  aT   : BitVec 4
  aO   : BitVec 4
  sN   : BitVec 5
  sH   : BitVec 5
  sLEN : BitVec 5
  sQ   : BitVec 5
  sW   : BitVec 5
  qq   : BitVec 3
  dc   : BitVec 4
  hq   : BitVec 6
  pfmt : BitVec 4
  mask : BitVec 2
  ofmt : BitVec 4
  rnd  : BitVec 2
  sat  : Bool
  om   : Bool
  lse  : Bool
  aX   : BitVec 4
  aS   : BitVec 4
  da   : Bool
  deriving DecidableEq, Repr

structure DmCopy where
  aS : BitVec 4
  sO : BitVec 5
  aD : BitVec 4
  sP : BitVec 5
  sB : BitVec 5
  sN : BitVec 5
  sT : BitVec 5
  sU : BitVec 5
  deriving DecidableEq, Repr

structure DmXpose where
  aS : BitVec 4
  sO : BitVec 5
  aD : BitVec 4
  sP : BitVec 5
  ew : BitVec 2
  sN : BitVec 5
  sC : BitVec 5
  sT : BitVec 5
  sU : BitVec 5
  deriving DecidableEq, Repr

structure DmGather where
  aD : BitVec 4
  aS : BitVec 4
  aI : BitVec 4
  sN : BitVec 5
  sB : BitVec 5
  sT : BitVec 5
  deriving DecidableEq, Repr

structure DmExpand where
  aS   : BitVec 4
  efmt : BitVec 4
  aD   : BitVec 4
  dfmt : BitVec 4
  aC   : BitVec 4
  sN   : BitVec 5
  rnd  : BitVec 2
  sat  : Bool
  da   : Bool
  deriving DecidableEq, Repr

structure DmPack where
  aS   : BitVec 4
  sfmt : BitVec 4
  aD   : BitVec 4
  sN   : BitVec 5
  slot : BitVec 4
  deriving DecidableEq, Repr

structure DmAtom where
  aop : BitVec 3
  sz  : Bool
  aT  : BitVec 4
  sO  : BitVec 5
  aV  : BitVec 4
  aC  : BitVec 4
  aR  : BitVec 4
  ret : Bool
  sE  : BitVec 5
  deriving DecidableEq, Repr

structure SyWait where
  sD   : BitVec 5
  sS   : BitVec 5
  sV   : BitVec 5
  sT   : BitVec 5
  cond : Bool
  ft   : Bool
  deriving DecidableEq, Repr

structure ClPut where
  aS  : BitVec 4
  sL  : BitVec 5
  jg  : BitVec 8
  sM  : BitVec 5
  sA  : BitVec 5
  fin : Bool
  sg  : Bool
  sG  : BitVec 5
  deriving DecidableEq, Repr

structure ClReduce where
  rop  : BitVec 2
  ifmt : BitVec 4
  ofmt : BitVec 4
  aS   : BitVec 4
  aD   : BitVec 4
  sN   : BitVec 5
  jg   : BitVec 8
  ord  : Bool
  sat  : Bool
  deriving DecidableEq, Repr

structure DbWatch where
  aS  : BitVec 4
  fmt : BitVec 4
  sN  : BitVec 5
  sL  : BitVec 5
  wm  : Bool
  wid : BitVec 8
  aD  : BitVec 4
  wd  : Bool
  deriving DecidableEq, Repr

/-- A waiting unit of the signal store: a core's `sy.wait` or a context's WAIT record (14 R345). -/
inductive Waiter where
  | core (c : Fin 264)
  | ctx (n : Fin 4096)
  deriving DecidableEq, Repr

/-- The 64-byte submission record as the dispatcher read it (17 R424); `unread` marks one that it could not read. -/
structure SubRec where
  opcode    : BitVec 8
  phase     : BitVec 8
  ctx       : BitVec 16
  flags     : BitVec 32
  op0       : W64
  op1       : W64
  deadline  : W64
  layerBase : BitVec 16
  rsv22     : BitVec 48
  tag       : W64
  rsv30     : BitVec 128
  unread    : Bool
  deriving DecidableEq, Repr

/-- A flit's trailer without its CRC (16 R384): link sequence number, ACK, NAK, and returned credits with their channel. -/
structure Trailer where
  lseq    : BitVec 12
  ack     : BitVec 12
  nak     : Bool
  chan    : BitVec 3
  credits : BitVec 4
  deriving DecidableEq, Repr

/-- A flit: header A, header B, payload, the payload granules whose code is uncorrectable or poisoned, and the trailer
(16 R382 to R384, 19 R464). `peer` is the address of the remote interface that a frame came from, in the Ethernet modes
(16 R385). `first` marks the first flit of a PUT's message: the receiver knows when every byte has come, and the spec does
not say by what (DESIGN CHOICE, log 157). -/
structure Flit where
  dst     : BitVec 12
  src     : BitVec 12
  jobTag  : BitVec 8
  epoch   : BitVec 8
  score   : BitVec 8
  fin     : Bool
  last    : Bool
  hdrB    : W64
  payload : List Byte
  badG    : List Nat
  first   : Bool
  peer    : BitVec 48
  iface   : Fin 8
  tr      : Trailer
  deriving DecidableEq, Repr

/-- The update that a signal store applies: its place among those under way, and whether the store finds an uncorrectable
syndrome in its object (14 R344, 19 R461). -/
structure StoreUpd where
  index   : Nat
  damaged : Bool
  deriving DecidableEq, Repr

/-- Where a flit comes in (16 R384, R385): the port and, in the Ethernet modes, the remote and the local interface. -/
structure PathEnd where
  port  : Fin 18
  peer  : BitVec 48
  iface : Fin 8
  deriving DecidableEq, Repr

/-- The link sequence number, ACK and NAK of a received trailer (16 R384). -/
structure LinkAck where
  lseq : BitVec 12
  ack  : BitVec 12
  nak  : Bool
  deriving DecidableEq, Repr

/-- A received flit of which only the trailer acts (16 R383, R384). -/
structure BareFlit where
  came : PathEnd
  tr   : Trailer
  deriving DecidableEq, Repr

/-- Why a received Ethernet frame is dropped (16 R380). -/
inductive FrameFault where
  | etherType | partialFlits | badFcs
  deriving DecidableEq, Repr

/-- A received Ethernet frame that is dropped (16 R380). -/
structure BadFrame where
  port : Fin 18
  why  : FrameFault
  deriving DecidableEq, Repr

/-- The rails with a fast current limiter (18 R448). -/
inductive Rail where
  | region (r : Fin 4)
  | stack (s : Fin 16)
  deriving DecidableEq, Repr

/-- The PLLs that stop when idle (18 R433). -/
inductive Pll where
  | region (r : Fin 4)
  | fabric
  deriving DecidableEq, Repr

/-- What patrol scrub finds in the row it reads (10 R233, R234). -/
structure ScrubFinding where
  granule       : Nat
  uncorrectable : Bool
  deriving DecidableEq, Repr

/-- The core faults of 01 R19. -/
inductive FaultCause where
  | residue | watchdog | uncorrectable
  deriving DecidableEq, Repr

/-- The causes that start module recovery (20 R483, LAST_CAUSE). -/
inductive RecoveryCause where
  | host | fatal | management | restart
  deriving DecidableEq, Repr

/-- The stages of 23 R527. -/
inductive StartStage where
  | boot | rails | timebase | stks | cores | links | final
  deriving DecidableEq, Repr

/-- How a start-up stage ends (23 R527, R529, R533, R535): done with the physical cores that failed their test, or a
failure. -/
inductive StageResult where
  | done (failedCores : List Nat)
  | imagesBad
  | railBad
  | stackBad
  | fabricBad
  deriving DecidableEq, Repr

/-- The path of an MCTP message (22 R517, R522). -/
inductive Path where
  | sideband | mailbox | vdm
  deriving DecidableEq, Repr

inductive ClaimOp where
  | claim | release | force
  deriving DecidableEq, Repr

/-- Where the J9 test access port goes (23 R536, R537). -/
inductive TapTarget where
  | testLogicReset
  | bypass | idcode | sample | extest | clamp | highz
  deriving DecidableEq, Repr

/-- The commands of spec/opcode_table.json, one constructor for each row, in the table's order. -/
inductive Instr where
  /-- SQ_HALT (R76). -/
  | sqHalt (c : Fin 264)
  /-- SQ_LI (R275). -/
  | sqLi (c : Fin 264) (sD : BitVec 5) (imm : W64)
  /-- SQ_ADD (R277). -/
  | sqAdd (c : Fin 264) (f : Alu)
  /-- SQ_SUB (R277). -/
  | sqSub (c : Fin 264) (f : Alu)
  /-- SQ_MUL (R277). -/
  | sqMul (c : Fin 264) (f : Alu)
  /-- SQ_AND (R277). -/
  | sqAnd (c : Fin 264) (f : Alu)
  /-- SQ_OR (R277). -/
  | sqOr (c : Fin 264) (f : Alu)
  /-- SQ_XOR (R277). -/
  | sqXor (c : Fin 264) (f : Alu)
  /-- SQ_SHL (R277). -/
  | sqShl (c : Fin 264) (f : Alu)
  /-- SQ_SHR (R277). -/
  | sqShr (c : Fin 264) (f : Alu)
  /-- SQ_SRA (R277). -/
  | sqSra (c : Fin 264) (f : Alu)
  /-- SQ_MIN (R277). -/
  | sqMin (c : Fin 264) (f : Alu)
  /-- SQ_MAX (R277). -/
  | sqMax (c : Fin 264) (f : Alu)
  /-- SQ_CMP (R277). -/
  | sqCmp (c : Fin 264) (f : Alu) (cond : BitVec 3)
  /-- SQ_LD (R278). -/
  | sqLd (c : Fin 264) (sD : BitVec 5) (aS : BitVec 4) (sO : BitVec 5)
  /-- SQ_ST (R278). -/
  | sqSt (c : Fin 264) (aS : BitVec 4) (sO sV : BitVec 5)
  /-- SQ_DESC (R281). -/
  | sqDesc (c : Fin 264) (aD : BitVec 4) (sB sE : BitVec 5)
  /-- SQ_RDS (R70). -/
  | sqRds (c : Fin 264) (sD : BitVec 5) (index : BitVec 8)
  /-- SQ_WRS (R70). -/
  | sqWrs (c : Fin 264) (index : BitVec 8) (sS : BitVec 5)
  /-- SQ_BR (R279). -/
  | sqBr (c : Fin 264) (cond : BitVec 3) (sA sB : BitVec 5) (ofs : BitVec 32)
  /-- SQ_LOOP (R280). -/
  | sqLoop (c : Fin 264) (lN : BitVec 2) (sC : BitVec 5) (body : BitVec 16)
  /-- SQ_MARK (R87). -/
  | sqMark (c : Fin 264) (layer op : BitVec 16)
  /-- SQ_DEADLINE (R83). -/
  | sqDeadline (c : Fin 264) (sS : BitVec 5)
  /-- SQ_PHASE (R88). -/
  | sqPhase (c : Fin 264) (phase : BitVec 3)
  /-- SQ_YIELD (R89). -/
  | sqYield (c : Fin 264)
  /-- SQ_LIVE (R92). -/
  | sqLive (c : Fin 264) (index : BitVec 12)
  /-- SQ_ICINV (R251). -/
  | sqIcinv (c : Fin 264) (aS : BitVec 4) (sO sL : BitVec 5)
  /-- INSTRUCTION_START (R79). -/
  | instructionStart (c : Fin 264) (e : Engine)
  /-- MX_FORM (R99). -/
  | mxForm (c : Fin 264) (form : BitVec 2)
  /-- MX_WLD (R100). -/
  | mxWld (c : Fin 264) (f : MxWld)
  /-- MX_SWAP (R105). -/
  | mxSwap (c : Fin 264)
  /-- MX_RUN (R107). -/
  | mxRun (c : Fin 264) (f : MxRun)
  /-- MX_DRAIN (R111). -/
  | mxDrain (c : Fin 264) (f : MxDrain)
  /-- MX_NMV (R218). -/
  | mxNmv (c : Fin 264) (f : MxNmv)
  /-- WELL_SLOT (R227). -/
  | wellSlot (st : Fin 16)
  /-- VX_SETVL (R121). -/
  | vxSetvl (c : Fin 264) (sD sS : BitVec 5)
  /-- VX_SETM (R128). -/
  | vxSetm (c : Fin 264) (mD : BitVec 3) (sS : BitVec 5)
  /-- VX_EP (R134). -/
  | vxEp (c : Fin 264) (f : VxEp)
  /-- VX_RED (R140). -/
  | vxRed (c : Fin 264) (f : VxRed)
  /-- XP_DEF (R130). -/
  | xpDef (c : Fin 264) (xN : BitVec 3) (aS : BitVec 4) (sO : BitVec 5)
  /-- AT_QK (R174). -/
  | atQk (c : Fin 264) (f : AtQk)
  /-- AT_SM_INIT (R176). -/
  | atSmInit (c : Fin 264) (f : AtSm)
  /-- AT_SM_UPDATE (R177). -/
  | atSmUpdate (c : Fin 264) (f : AtSm)
  /-- AT_SM_FINAL (R182). -/
  | atSmFinal (c : Fin 264) (f : AtSm)
  /-- AT_SM_MERGE (R183). -/
  | atSmMerge (c : Fin 264) (f : AtSm)
  /-- AT_PV (R180). -/
  | atPv (c : Fin 264) (f : AtPv)
  /-- AT_DEC (R224). -/
  | atDec (c : Fin 264) (f : AtDec)
  /-- AT_PAGE_ALLOC (R194). -/
  | atPageAlloc (c : Fin 264) (aA aR aO : BitVec 4)
  /-- AT_PAGE_FREE (R194). -/
  | atPageFree (c : Fin 264) (aA aR aO : BitVec 4)
  /-- AT_PAGE_FORK (R194). -/
  | atPageFork (c : Fin 264) (aA aR aO : BitVec 4)
  /-- AT_PAGE_PREP (R194). -/
  | atPagePrep (c : Fin 264) (aA aR aO : BitVec 4)
  /-- AT_PAGE_LOOKUP (R200). -/
  | atPageLookup (c : Fin 264) (aA aR aO : BitVec 4)
  /-- AT_PAGE_INSERT (R201). -/
  | atPageInsert (c : Fin 264) (aA aR aO : BitVec 4)
  /-- RN_KEY (R297). -/
  | rnKey (c : Fin 264) (sS : BitVec 5)
  /-- RN_STREAM (R297). -/
  | rnStream (c : Fin 264) (mode : BitVec 1) (sS : BitVec 5)
  /-- RN_DRAW (R297). -/
  | rnDraw (c : Fin 264) (aD : BitVec 4) (wq : BitVec 2) (draw : BitVec 8) (sL : BitVec 5)
  /-- DM_COPY (R303). -/
  | dmCopy (c : Fin 264) (f : DmCopy)
  /-- DM_XPOSE (R305). -/
  | dmXpose (c : Fin 264) (f : DmXpose)
  /-- DM_GATHER (R306). -/
  | dmGather (c : Fin 264) (f : DmGather)
  /-- DM_EXPAND (R307). -/
  | dmExpand (c : Fin 264) (f : DmExpand)
  /-- DM_PACK (R307). -/
  | dmPack (c : Fin 264) (f : DmPack)
  /-- DM_TBL_CORE (R163). -/
  | dmTblCore (c : Fin 264) (aS : BitVec 4) (sO : BitVec 5) (slot : BitVec 4)
  /-- DM_TBL_STACK (R165). -/
  | dmTblStack (c : Fin 264) (aS : BitVec 4) (sO : BitVec 5) (slot : BitVec 4) (st : Fin 16)
  /-- TABLE_BANK_SWITCH (R163). -/
  | tableBankSwitch (c : Fin 264) (x : Fin 2)
  /-- TABLE_LOAD_RELEASE (R163). -/
  | tableLoadRelease (c : Fin 264) (x : Fin 2)
  /-- ERG_BLOCK_DECODE (R156). -/
  | ergBlockDecode (c : Fin 264) (x : Fin 2)
  /-- DM_ATOM (R261). -/
  | dmAtom (c : Fin 264) (f : DmAtom)
  /-- SY_SIG (R314). -/
  | sySig (c : Fin 264) (sS sV : BitVec 5)
  /-- SY_SET (R314). -/
  | sySet (c : Fin 264) (sS sV : BitVec 5)
  /-- SIGNAL_UPDATE_APPLY (R344). -/
  | signalUpdateApply (r : Fin 4) (k : StoreUpd)
  /-- SY_WAIT (R315). -/
  | syWait (c : Fin 264) (f : SyWait)
  /-- SY_WAIT_TIMEOUT (R315). -/
  | syWaitTimeout (w : Waiter)
  /-- SY_QPUT (R317). -/
  | syQput (c : Fin 264) (sQ : BitVec 5) (aS : BitVec 4) (sL : BitVec 5)
  /-- SY_QPUT_RESUME (R335). -/
  | syQputResume (c : Fin 264)
  /-- SY_QGET (R317). -/
  | syQget (c : Fin 264) (sD sQ : BitVec 5) (aD : BitVec 4) (sM : BitVec 5)
  /-- SY_QGET_RESUME (R335). -/
  | syQgetResume (c : Fin 264)
  /-- SY_QCNT (R336). -/
  | syQcnt (c : Fin 264) (sD sQ : BitVec 5)
  /-- CL_PUT (R320). -/
  | clPut (c : Fin 264) (f : ClPut)
  /-- CL_REDUCE (R321). -/
  | clReduce (c : Fin 264) (f : ClReduce)
  /-- CL_STEP (R322). -/
  | clStep (c : Fin 264) (sS sW : BitVec 5)
  /-- CL_TIMESYNC (R323). -/
  | clTimesync (c : Fin 264) (sD : BitVec 5) (jg : BitVec 8)
  /-- DB_WATCH (R326). -/
  | dbWatch (c : Fin 264) (f : DbWatch)
  /-- DB_EVENT (R327). -/
  | dbEvent (c : Fin 264) (code : BitVec 16) (sS : BitVec 5)
  /-- SCOREBOARD_WATCHDOG_EXPIRY (R82). -/
  | scoreboardWatchdogExpiry (c : Fin 264)
  /-- DOORBELL_SUBMISSION_TAIL (R423). -/
  | doorbellSubmissionTail (fn : Fin 256) (ctx : Fin 4096) (index : BitVec 16)
  /-- DOORBELL_COMPLETION_HEAD (R429). -/
  | doorbellCompletionHead (fn : Fin 256) (ctx : Fin 4096) (index : BitVec 16)
  /-- RUN (R425). -/
  | run (ctx : Fin 4096) (rec : SubRec)
  /-- SIGNAL (R425). -/
  | signal (ctx : Fin 4096) (rec : SubRec)
  /-- WAIT (R425). -/
  | wait (ctx : Fin 4096) (rec : SubRec)
  /-- RESET_CONTEXT (R426). -/
  | resetContext (ctx : Fin 4096) (rec : SubRec)
  /-- TIMESYNC (R425). -/
  | timesync (ctx : Fin 4096) (rec : SubRec)
  /-- DISPATCH_SELECTION (R359). -/
  | dispatchSelection (p : Fin 256)
  /-- CONTEXT_START (R76). -/
  | contextStart (ctx : Fin 4096)
  /-- CONTEXT_SAVE_DONE (R368). -/
  | contextSaveDone (ctx : Fin 4096)
  /-- CONTEXT_RESTORE_DONE (R368). -/
  | contextRestoreDone (ctx : Fin 4096)
  /-- DEADLINE_EXPIRY (R362). -/
  | deadlineExpiry (ctx : Fin 4096)
  /-- IMPLICIT_DEADLINE_EXPIRY (R365). -/
  | implicitDeadlineExpiry (ctx : Fin 4096)
  /-- PART_CREATE (R417). -/
  | partCreate (p : Fin 256)
  /-- PART_RELEASE (R353). -/
  | partRelease (p : Fin 256)
  /-- PART_RELEASE_STEP_DONE (R353). -/
  | partReleaseStepDone (p : Fin 256)
  /-- MEMORY_ZEROING_DONE (R236). -/
  | memoryZeroingDone (st : Fin 16) (p : Fin 256)
  /-- XLAT_UPDATE (R417). -/
  | xlatUpdate (p : Fin 256) (arg0 arg1 : W64)
  /-- XLAT_UPDATE_COMPLETE (R246). -/
  | xlatUpdateComplete
  /-- CACHE_CLEAR (R209). -/
  | cacheClear (p : Fin 256)
  /-- CORE_SET_ASSIGN (R417). -/
  | coreSetAssign (p : Fin 256) (arg0 : W64)
  /-- CORE_SET_REMOVE (R417). -/
  | coreSetRemove (p : Fin 256) (arg0 : W64)
  /-- CORE_SCRUB_DONE (R352). -/
  | coreScrubDone (c : Fin 264)
  /-- CTX_ASSIGN (R422). -/
  | ctxAssign (ctx : Fin 4096) (p : Fin 256) (arg0 : W64)
  /-- CTX_FREE (R417). -/
  | ctxFree (ctx : Fin 4096)
  /-- KEY_APPLY (R421). -/
  | keyApply (p : Fin 256)
  /-- REGISTER_WRITE (R414). -/
  | registerWrite (fn : Fin 256) (off size : Nat) (v : W64) (poisoned : Bool)
  /-- REGISTER_READ_TIMEOUT (R414). -/
  | registerReadTimeout (fn : Fin 256) (off : Nat) (bar2 : Bool)
  /-- BAR2_READ (R413). -/
  | bar2Read (fn : Fin 256) (off len : Nat)
  /-- BAR2_WRITE (R413). -/
  | bar2Write (fn : Fin 256) (off : Nat) (data : List Byte) (poisoned : Bool)
  /-- ERR_TAIL_WRITE (R472). -/
  | errTailWrite (v : W64)
  /-- QUEUE_ENABLE (R342). -/
  | queueEnable (r : Fin 4) (q : Fin 4096) (v : W64)
  /-- QUEUE_DISABLE (R339). -/
  | queueDisable (r : Fin 4) (q : Fin 4096)
  /-- QUEUE_FLUSH (R338). -/
  | queueFlush (r : Fin 4) (q : Fin 4096)
  /-- QUEUE_FLUSH_DONE (R338). -/
  | queueFlushDone (r : Fin 4) (q : Fin 4096)
  /-- SIG_OBJ_ADD (R346). -/
  | sigObjAdd (p : Fin 256) (r : Fin 4) (i : Fin 16384) (v : W32)
  /-- SIG_OBJ_SET (R346). -/
  | sigObjSet (p : Fin 256) (r : Fin 4) (i : Fin 16384) (v : W32)
  /-- STK_SLOT_MAP_WRITE (R228). -/
  | stkSlotMapWrite (st : Fin 16) (i : Fin 8) (v : W64)
  /-- JOB_APPLY (R389). -/
  | jobApply (p : Fin 256)
  /-- JOB_UNBIND (R389). -/
  | jobUnbind (p : Fin 256)
  /-- LNK_MODE_WRITE (R379). -/
  | lnkModeWrite (port : Fin 18) (v : W64)
  /-- SELFTEST (R470). -/
  | selftest (c : Fin 264)
  /-- SELFTEST_DONE (R470). -/
  | selftestDone (c : Fin 264) (pass : Bool)
  /-- RECOVERY_START_WRITE (R483). -/
  | recoveryStartWrite
  /-- RESTART (R453). -/
  | restart (byPerst : Bool)
  /-- TRACE_ENABLE (R502). -/
  | traceEnable
  /-- TRACE_SNAP (R502). -/
  | traceSnap (ty : BitVec 3) (unit : BitVec 9)
  /-- TRACE_BUF_WRITE (R502). -/
  | traceBufWrite (v : W64)
  /-- CLAIM_SUPERVISOR (R524). -/
  | claimSupervisor (res : BitVec 8)
  /-- RELEASE_SUPERVISOR (R524). -/
  | releaseSupervisor (res : BitVec 8)
  /-- MBOX_GO (R522). -/
  | mboxGo
  /-- TIMER_FIRE (R525). -/
  | timerFire (i : Fin 8)
  /-- FUNCTION_LEVEL_RESET (R410). -/
  | functionLevelReset (fn : Fin 256)
  /-- PERST_N_ASSERT (R544). -/
  | perstNAssert
  /-- PERST_N_DEASSERT (R530). -/
  | perstNDeassert
  /-- PUT (R392). -/
  | put (port : Fin 18) (f : Flit)
  /-- FIN_WRITE_RELEASE (R267). -/
  | finWriteRelease (p : Fin 256) (src : Fin 4096) (score : Fin 256)
  /-- SIG (R392). -/
  | sig (port : Fin 18) (f : Flit)
  /-- LANDED (R392). -/
  | landed (port : Fin 18) (f : Flit)
  /-- RED (R396). -/
  | red (port : Fin 18) (f : Flit)
  /-- RED_RESULT (R395). -/
  | redResult (port : Fin 18) (f : Flit)
  /-- REDUCTION_WINDOW_EXPIRY (R399). -/
  | reductionWindowExpiry (port : Fin 18) (k : Nat)
  /-- STEP_RETRY (R400). -/
  | stepRetry (port : Fin 18) (f : Flit)
  /-- RESET_NOTICE (R403). -/
  | resetNotice (port : Fin 18) (f : Flit)
  /-- JOIN (R405). -/
  | join (port : Fin 18) (f : Flit)
  /-- PEER_DOWN (R403). -/
  | peerDown (port : Fin 18) (f : Flit)
  /-- TIMESYNC_REQUEST (R401). -/
  | timesyncRequest (port : Fin 18) (f : Flit) (t2 t3 : W64)
  /-- TIMESYNC_RESPONSE (R401). -/
  | timesyncResponse (port : Fin 18) (f : Flit) (t4 : W64)
  /-- TIMESYNC_NEIGHBOUR_TIMEOUT (R323). -/
  | timesyncNeighbourTimeout (port : Fin 18)
  /-- NAK (R385). -/
  | nak (e : PathEnd) (ack : BitVec 12)
  /-- FLIT_CRC_FAIL (R385). -/
  | flitCrcFail (e : PathEnd)
  /-- LINK_RETRAIN_DONE (R386). -/
  | linkRetrainDone (port : Fin 18) (lanes : Fin 9)
  /-- LANE_ALIGNMENT_LOSS (R403). -/
  | laneAlignmentLoss (port : Fin 18)
  /-- MEMBER_LOST (R406). -/
  | memberLost (p : Fin 256) (rank : Fin 4096)
  /-- PAUSE_FRAME (R380). -/
  | pauseFrame (port : Fin 18)
  /-- PFC_FRAME (R380). -/
  | pfcFrame (port : Fin 18) (prio : BitVec 3) (pause : Bool)
  /-- CAP_LOOP_EVALUATION (R445). -/
  | capLoopEvaluation (pIn pUp : Nat)
  /-- ENERGY_RECONCILE (R455). -/
  | energyReconcile (measured modelled : Nat)
  /-- REGION_POINT_STEP (R440). -/
  | regionPointStep (r : Fin 4)
  /-- FAST_LIMIT (R448). -/
  | fastLimit (rail : Rail)
  /-- DROOP_DETECT (R442). -/
  | droopDetect (c : Fin 264)
  /-- DROOP_END (R442). -/
  | droopEnd (c : Fin 264)
  /-- DROOP_QUIET_END (R443). -/
  | droopQuietEnd (r : Fin 4)
  /-- THROTTLE_N_ASSERT (R449). -/
  | throttleNAssert
  /-- THROTTLE_N_RELEASE (R449). -/
  | throttleNRelease
  /-- THERMAL_SAMPLE (R450). -/
  | thermalSample (r : Fin 4) (temp : Nat)
  /-- STACK_THERMAL_STEP (R239). -/
  | stackThermalStep (st : Fin 16) (temp : Nat)
  /-- FLOW_LOSS_ASSERT (R452). -/
  | flowLossAssert
  /-- FLOW_LOSS_RELEASE (R451). -/
  | flowLossRelease
  /-- INPUT_VOLTAGE_TRIP (R547). -/
  | inputVoltageTrip
  /-- INPUT_LOSS (R548). -/
  | inputLoss
  /-- INPUT_OVERCURRENT (R548). -/
  | inputOvercurrent
  /-- POWER_GOOD (R526). -/
  | powerGood (moduleId : BitVec 3)
  /-- PLL_IDLE_STOP (R433). -/
  | pllIdleStop (pll : Pll)
  /-- WAKE_DONE (R434). -/
  | wakeDone (pll : Pll)
  /-- SELF_REFRESH_ENTRY (R237). -/
  | selfRefreshEntry (st : Fin 16)
  /-- STACK_WAKE_DONE (R237). -/
  | stackWakeDone (st : Fin 16)
  /-- STACK_POINT_CHANGE (R238). -/
  | stackPointChange (st : Fin 16)
  /-- PATROL_SCRUB (R234). -/
  | patrolScrub (st : Fin 16) (found : List ScrubFinding)
  /-- BANK_RETIRE_COPY_DONE (R235). -/
  | bankRetireCopyDone (st : Fin 16)
  /-- CORE_FENCE (R467). -/
  | coreFence (c : Fin 264) (cause : FaultCause)
  /-- CE_LIMIT_FENCE (R465). -/
  | ceLimitFence (c : Fin 264)
  /-- HANG_TEST (R477). -/
  | hangTest
  /-- PROGRESS_WINDOW_EXPIRY (R479). -/
  | progressWindowExpiry (ctx : Fin 4096)
  /-- CONTEXT_RESET_DONE (R481). -/
  | contextResetDone (ctx : Fin 4096)
  /-- MODULE_RECOVERY (R483). -/
  | moduleRecovery (cause : RecoveryCause)
  /-- RECOVERY_STAGE_DONE (R483). -/
  | recoveryStageDone
  /-- CRASH_DUMP (R488). -/
  | crashDump (silent : List Nat)
  /-- START_STAGE_DONE (R527). -/
  | startStageDone (stage : StartStage) (res : StageResult)
  /-- LOCKSTEP_MISMATCH (R510). -/
  | lockstepMismatch
  /-- FIRMWARE_BOOT (R514). -/
  | firmwareBoot (okA okB : Bool)
  /-- SECURITY_VERSION_RAISE (R515). -/
  | securityVersionRaise
  /-- SENSOR_SAMPLE (R511). -/
  | sensorSample (id : Nat) (reading : Option Int)
  /-- SET_ENDPOINT_ID (R518). -/
  | setEndpointId (via : Path) (eid : BitVec 8)
  /-- GET_ENDPOINT_ID (R518). -/
  | getEndpointId (via : Path)
  /-- GET_MCTP_VERSION_SUPPORT (R518). -/
  | getMctpVersionSupport (via : Path)
  /-- GET_MESSAGE_TYPE_SUPPORT (R518). -/
  | getMessageTypeSupport (via : Path)
  /-- GET_VENDOR_DEFINED_MESSAGE_SUPPORT (R518). -/
  | getVendorDefinedMessageSupport (via : Path)
  /-- PLDM_DISCOVERY (R518). -/
  | pldmDiscovery (via : Path) (cmd : BitVec 8)
  /-- GET_SENSOR_READING (R518). -/
  | getSensorReading (via : Path) (id : BitVec 16)
  /-- GET_SENSOR_THRESHOLDS (R518). -/
  | getSensorThresholds (via : Path) (id : BitVec 16)
  /-- GET_PDR (R518). -/
  | getPdr (via : Path) (id : BitVec 16)
  /-- REQUEST_UPDATE (R516). -/
  | requestUpdate (via : Path)
  /-- GET_FIRMWARE_PARAMETERS (R516). -/
  | getFirmwareParameters (via : Path)
  /-- PASS_COMPONENT_TABLE (R516). -/
  | passComponentTable (via : Path)
  /-- UPDATE_COMPONENT (R516). -/
  | updateComponent (via : Path)
  /-- REQUEST_FIRMWARE_DATA (R516). -/
  | requestFirmwareData (via : Path) (off : Nat) (data : List Byte)
  /-- TRANSFER_COMPLETE (R516). -/
  | transferComplete (via : Path)
  /-- VERIFY_COMPLETE (R516). -/
  | verifyComplete (via : Path) (sigOk : Bool) (version : Nat)
  /-- APPLY_COMPLETE (R516). -/
  | applyComplete (via : Path)
  /-- ACTIVATE_FIRMWARE (R516). -/
  | activateFirmware (via : Path)
  /-- GET_STATUS (R516). -/
  | getStatus (via : Path)
  /-- CANCEL_UPDATE (R516). -/
  | cancelUpdate (via : Path)
  /-- GET_VERSION (R519). -/
  | getVersion (via : Path)
  /-- GET_CAPABILITIES (R519). -/
  | getCapabilities (via : Path)
  /-- NEGOTIATE_ALGORITHMS (R519). -/
  | negotiateAlgorithms (via : Path)
  /-- GET_DIGESTS (R519). -/
  | getDigests (via : Path)
  /-- GET_CERTIFICATE (R519). -/
  | getCertificate (via : Path) (slot : BitVec 8) (off len : BitVec 16)
  /-- CHALLENGE (R519). -/
  | challenge (via : Path) (slot : BitVec 8) (nonce : BitVec 256)
  /-- GET_MEASUREMENTS (R519). -/
  | getMeasurements (via : Path) (index : BitVec 8)
  /-- REG_READ (R520). -/
  | regRead (via : Path) (off : Nat)
  /-- REG_WRITE (R520). -/
  | regWrite (via : Path) (off : Nat) (v : W64)
  /-- ALARM_READ (R520). -/
  | alarmRead (via : Path)
  /-- LOG_READ (R520). -/
  | logRead (via : Path) (off len : Nat)
  /-- DUMP_READ (R520). -/
  | dumpRead (via : Path) (index piece : Nat)
  /-- RECOVER (R520). -/
  | recover (via : Path)
  /-- CLAIM (R524). -/
  | claim (via : Path) (res : BitVec 8) (op : ClaimOp)
  /-- STATUS (R520). -/
  | status (via : Path)
  /-- MCTP_MESSAGE_TIMEOUT (R517). -/
  | mctpMessageTimeout (via : Path)
  /-- I3C_SCL_LOW_TIMEOUT (R541). -/
  | i3cSclLowTimeout
  /-- SIDEBAND_REGISTER_TIMEOUT (R521). -/
  | sidebandRegisterTimeout (via : Path) (off : Nat)
  /-- TAG_RELEASE (R80). -/
  | tagRelease (c : Fin 264) (tag : Nat)
  /-- INSTRUCTION_COMPLETE (R76). -/
  | instructionComplete (c : Fin 264) (id : Nat)
  /-- INPUT_RANGE_RETURN (R529). -/
  | inputRangeReturn
  /-- INPUT_SWITCH_CLOSE (R548). -/
  | inputSwitchClose
  /-- TAP_STATE_CHANGE (R537). -/
  | tapStateChange (target : TapTarget)
  /-- SETDASA (R517). -/
  | setdasa
  /-- ENTDAA (R517). -/
  | entdaa (addr : BitVec 7)
  /-- UNSUPPORTED_MCTP_MESSAGE (R518). -/
  | unsupportedMctpMessage (vdmFromVf : Bool)
  /-- IDLE (R384). -/
  | idle (e : PathEnd) (ack : LinkAck) (chan : BitVec 3) (credits : BitVec 4)
  /-- RESERVED_TYPE_FLIT (R383). -/
  | reservedTypeFlit (f : BareFlit)
  /-- FOREIGN_ETHERTYPE_FRAME (R380). -/
  | foreignEthertypeFrame (f : BadFrame)
  deriving DecidableEq, Repr

end Sys2Proof
end

