-- ==== Sys2Proof/Decode.lean ====
section
/-! DEFINITION. The instruction words that a core fetches (04 R72, 12 R269): their decoder, which refuses every word
that 04 R73 calls ILLEGAL by its encoding, and the encoder. And the command that a word spells by the table's bits. -/

namespace Sys2Proof

/-! ### Fields -/

/-- Bits `lo` to `lo + n - 1` of a word. -/
def wordField (w : W64) (lo n : Nat) : Nat := w.toNat / 2 ^ lo % 2 ^ n

/-- Reads fields of the widths `ns` from bit `top - 1` downwards; the bits below the last one must be 0 (12 R269). -/
def unpack (w : W64) (top : Nat) : List Nat → Option (List Nat)
  | [] => if wordField w 0 top = 0 then some [] else none
  | n :: ns => (unpack w (top - n) ns).map (fun l => wordField w (top - n) n :: l)

/-- Packs fields (width, value) from bit `top - 1` downwards. -/
def pack (top : Nat) : List (Nat × Nat) → Nat
  | [] => 0
  | (n, v) :: fs => v * 2 ^ (top - n) + pack (top - n) fs

/-- Whether an operation takes an extension word: never, always, or at choice (04 R72, R73). -/
inductive ExtWord where
  | no | yes | either
  deriving DecidableEq, Repr

def ExtWord.allows (x : ExtWord) (bit : Bool) : Bool :=
  match x with
  | .no => !bit
  | .yes => bit
  | .either => true

/-- A row of an encoding table: X, and the widths of the fields of the first word and of the extension word. -/
structure Layout where
  x     : ExtWord
  first : List Nat
  ext   : List Nat
  deriving DecidableEq, Repr

def oneWord (ns : List Nat) : Option Layout := some { x := .no, first := ns, ext := [] }
def twoWords (ns ms : List Nat) : Option Layout := some { x := .yes, first := ns, ext := ms }

/-! ### The encoding tables -/

/-- The sq class (12 R275). -/
def layoutSq (op : Nat) : Option Layout :=
  match op with
  | 0x00 => oneWord []
  | 0x01 => twoWords [5] [64]
  | 0x02 | 0x03 | 0x04 | 0x05 | 0x06 | 0x07 | 0x08 | 0x09 | 0x0A | 0x0B | 0x0C =>
    some { x := .either, first := [5, 5, 5], ext := [64] }
  | 0x0D => some { x := .either, first := [5, 5, 5, 3], ext := [64] }
  | 0x0E => oneWord [5, 4, 5]
  | 0x0F => oneWord [4, 5, 5]
  | 0x10 => oneWord [4, 5, 5]
  | 0x11 => oneWord [5, 8]
  | 0x12 => oneWord [8, 5]
  | 0x13 => oneWord [3, 5, 5, 32]
  | 0x14 => oneWord [2, 5, 16]
  | 0x15 => oneWord [16, 16]
  | 0x16 => oneWord [5]
  | 0x17 => oneWord [3]
  | 0x18 => oneWord []
  | 0x19 => oneWord [12]
  | 0x1A => oneWord [4, 5, 5]
  | _ => none

/-- The mx class (12 R282). -/
def layoutMx (op : Nat) : Option Layout :=
  match op with
  | 0 => oneWord [2]
  | 1 => oneWord [4, 4, 4, 9, 8, 5, 5, 1]
  | 2 => oneWord []
  | 3 => oneWord [4, 4, 10, 5, 5, 9, 1, 4, 4, 1, 1]
  | 4 => oneWord [5, 6, 1, 2]
  | 5 => oneWord [5, 4, 5, 5, 5, 4, 5, 4, 3, 4, 1]
  | _ => none

/-- The vx class (12 R286). -/
def layoutVx (op : Nat) : Option Layout :=
  match op with
  | 0 => oneWord [5, 5]
  | 1 => oneWord [3, 5]
  | 2 => twoWords [3, 3, 1, 4, 4, 4, 4, 4, 4, 4, 1] [4, 4, 4, 4, 4, 4, 2, 1, 8, 5, 3, 1, 1, 1]
  | 3 => oneWord [4, 4, 4, 2, 5, 4, 1, 1]
  | _ => none

/-- The at class (12 R290). -/
def layoutAt (op : Nat) : Option Layout :=
  match op with
  | 0 => twoWords [4, 4, 4, 4, 4, 5, 5, 5, 5, 5] [10, 3, 4, 1]
  | 1 => twoWords [2, 4, 4, 4, 4, 5, 5, 5, 5, 5] [10, 3, 4, 4, 2, 5, 4, 2, 1, 1, 1, 4, 4]
  | 2 => twoWords [4, 4, 4, 4, 4, 4, 5, 5, 5] [10, 4, 1]
  | 3 => twoWords [4, 4, 4, 4, 4, 5, 5, 5, 5, 5] [3, 4, 6, 4, 2, 4, 2, 1, 1, 1, 4, 4, 1]
  | 4 => oneWord [3, 4, 4, 4]
  | _ => none

/-- The dm class (13 R302). -/
def layoutDm (op : Nat) : Option Layout :=
  match op with
  | 0 => oneWord [4, 5, 4, 5, 5, 5, 5, 5]
  | 1 => oneWord [4, 5, 4, 5, 2, 5, 5, 5, 5]
  | 2 => oneWord [4, 4, 4, 5, 5, 5]
  | 3 => oneWord [4, 4, 4, 4, 4, 5, 2, 1, 1]
  | 4 => oneWord [4, 4, 4, 5, 4]
  | 5 => oneWord [4, 5, 4, 5]
  | 6 => oneWord [3, 1, 4, 5, 4, 4, 4, 1, 5]
  | _ => none

/-- The sy class (13 R312). -/
def layoutSy (op : Nat) : Option Layout :=
  match op with
  | 0 => oneWord [5, 5]
  | 1 => oneWord [5, 5, 5, 5, 1, 1]
  | 2 => oneWord [5, 5]
  | 3 => oneWord [5, 4, 5]
  | 4 => oneWord [5, 5, 4, 5]
  | 5 => oneWord [5, 5]
  | _ => none

/-- The cl class (13 R319). -/
def layoutCl (op : Nat) : Option Layout :=
  match op with
  | 0 => oneWord [4, 5, 8, 5, 5, 1, 1, 5]
  | 1 => oneWord [2, 4, 4, 4, 4, 5, 8, 1, 1]
  | 2 => oneWord [5, 5]
  | 3 => oneWord [5, 8]
  | _ => none

/-- The rn class (12 R296). -/
def layoutRn (op : Nat) : Option Layout :=
  match op with
  | 0 => oneWord [5]
  | 1 => oneWord [1, 5]
  | 2 => oneWord [4, 2, 8, 5]
  | _ => none

/-- The db class (13 R325). -/
def layoutDb (op : Nat) : Option Layout :=
  match op with
  | 0 => oneWord [4, 4, 5, 5, 1, 8, 4, 1]
  | 1 => oneWord [16, 5]
  | _ => none

/-- The row of CLASS and OP; none for a reserved class or an operation that is not assigned (04 R72, R73). -/
def layout (cls op : Nat) : Option Layout :=
  match cls with
  | 0 => layoutSq op
  | 1 => layoutMx op
  | 2 => layoutVx op
  | 3 => if op = 0 then oneWord [3, 4, 5] else none
  | 4 => layoutDm op
  | 5 => layoutSy op
  | 6 => layoutAt op
  | 7 => layoutCl op
  | 8 => layoutRn op
  | 9 => layoutDb op
  | _ => none

/-! ### The decoder -/

/-- A field as a bit vector, and a field of one bit. -/
def bv {n : Nat} (v : Nat) : BitVec n := BitVec.ofNat n v
def flag (v : Nat) : Bool := v = 1

/-- The two-operand scalar operations by OP, with and without their extension word (12 R275). -/
def aluOf (c : Fin 264) (op : Nat) (f : Alu) : Option Instr :=
  match op with
  | 0x02 => some (.sqAdd c f)
  | 0x03 => some (.sqSub c f)
  | 0x04 => some (.sqMul c f)
  | 0x05 => some (.sqAnd c f)
  | 0x06 => some (.sqOr c f)
  | 0x07 => some (.sqXor c f)
  | 0x08 => some (.sqShl c f)
  | 0x09 => some (.sqShr c f)
  | 0x0A => some (.sqSra c f)
  | 0x0B => some (.sqMin c f)
  | 0x0C => some (.sqMax c f)
  | _ => none

def buildSq (c : Fin 264) (op : Nat) (ext : Option W64) (l : List Nat) : Option Instr :=
  match op, l with
  | 0x00, [] => some (.sqHalt c)
  | 0x01, [sD] => some (.sqLi c (bv sD) (ext.getD 0))
  | 0x0D, [sD, sA, sB, cond] => some (.sqCmp c { sD := bv sD, sA := bv sA, sB := bv sB, ext := ext } (bv cond))
  | 0x0E, [sD, aS, sO] => some (.sqLd c (bv sD) (bv aS) (bv sO))
  | 0x0F, [aS, sO, sV] => some (.sqSt c (bv aS) (bv sO) (bv sV))
  | 0x10, [aD, sB, sE] => some (.sqDesc c (bv aD) (bv sB) (bv sE))
  | 0x11, [sD, index] => some (.sqRds c (bv sD) (bv index))
  | 0x12, [index, sS] => some (.sqWrs c (bv index) (bv sS))
  | 0x13, [cond, sA, sB, ofs] => some (.sqBr c (bv cond) (bv sA) (bv sB) (bv ofs))
  | 0x14, [lN, sC, body] => some (.sqLoop c (bv lN) (bv sC) (bv body))
  | 0x15, [layer, opid] => some (.sqMark c (bv layer) (bv opid))
  | 0x16, [sS] => some (.sqDeadline c (bv sS))
  | 0x17, [phase] => some (.sqPhase c (bv phase))
  | 0x18, [] => some (.sqYield c)
  | 0x19, [index] => some (.sqLive c (bv index))
  | 0x1A, [aS, sO, sL] => some (.sqIcinv c (bv aS) (bv sO) (bv sL))
  | _, [sD, sA, sB] => aluOf c op { sD := bv sD, sA := bv sA, sB := bv sB, ext := ext }
  | _, _ => none

def buildMx (c : Fin 264) (op : Nat) (l : List Nat) : Option Instr :=
  match op, l with
  | 0, [form] => some (.mxForm c (bv form))
  | 1, [aW, wfmt, sfmt, kx, nx, sS, fq, da] =>
    some (.mxWld c { aW := bv aW, wfmt := bv wfmt, sfmt := bv sfmt, kx := bv kx, nx := bv nx, sS := bv sS, fq := bv fq
                     da := flag da })
  | 2, [] => some (.mxSwap c)
  | 3, [aA, sfmt, mq, sS, sC, kx, wa, aB, bfmt, dop, da] =>
    some (.mxRun c { aA := bv aA, sfmt := bv sfmt, mq := bv mq, sS := bv sS, sC := bv sC, kx := bv kx, wa := flag wa
                     aB := bv aB, bfmt := bv bfmt, dop := flag dop, da := flag da })
  | 4, [sC, rq, pt, cq] => some (.mxDrain c { sC := bv sC, rq := bv rq, pt := flag pt, cq := bv cq })
  | 5, [sW, wfmt, sK, sN, sP, aX, sV, vfmt, vq, aR, da] =>
    some (.mxNmv c { sW := bv sW, wfmt := bv wfmt, sK := bv sK, sN := bv sN, sP := bv sP, aX := bv aX, sV := bv sV
                     vfmt := bv vfmt, vq := bv vq, aR := bv aR, da := flag da })
  | _, _ => none

def buildVx (c : Fin 264) (op : Nat) (l m : List Nat) : Option Instr :=
  match op, l, m with
  | 0, [sD, sS], [] => some (.vxSetvl c (bv sD) (bv sS))
  | 1, [mD, sS], [] => some (.vxSetm c (bv mD) (bv sS))
  | 2, [xs, ni, no, i0, i1, i2, i3, o0, o1, mk, mz], [f0, f1, f2, f3, fo0, fo1, rnd, sat, draw, sL, tq, ti, bm0, bm1] =>
    some (.vxEp c { xs := bv xs, ni := bv ni, no := flag no, i0 := bv i0, i1 := bv i1, i2 := bv i2, i3 := bv i3, o0 := bv o0
                    o1 := bv o1, msk := bv mk, mz := flag mz, f0 := bv f0, f1 := bv f1, f2 := bv f2, f3 := bv f3
                    fo0 := bv fo0, fo1 := bv fo1, rnd := bv rnd, sat := flag sat, draw := bv draw, sL := bv sL, tq := bv tq
                    ti := flag ti, bm0 := flag bm0, bm1 := flag bm1 })
  | 3, [aI, ifmt, aO, rop, sG, mk, tq, ti], [] =>
    some (.vxRed c { aI := bv aI, ifmt := bv ifmt, aO := bv aO, rop := bv rop, sG := bv sG, msk := bv mk, tq := flag tq
                     ti := flag ti })
  | _, _, _ => none

/-- `at.sm` by MODE (12 R290). -/
def smOf (c : Fin 264) (mode : Nat) (f : AtSm) : Option Instr :=
  match mode with
  | 0 => some (.atSmInit c f)
  | 1 => some (.atSmUpdate c f)
  | 2 => some (.atSmFinal c f)
  | 3 => some (.atSmMerge c f)
  | _ => none

/-- `at.page` by OPER: 6 and 7 are reserved (12 R294). -/
def pageOf (c : Fin 264) (oper : Nat) (aA aR aO : BitVec 4) : Option Instr :=
  match oper with
  | 0 => some (.atPageAlloc c aA aR aO)
  | 1 => some (.atPageFree c aA aR aO)
  | 2 => some (.atPageFork c aA aR aO)
  | 3 => some (.atPagePrep c aA aR aO)
  | 4 => some (.atPageLookup c aA aR aO)
  | 5 => some (.atPageInsert c aA aR aO)
  | _ => none

def buildAt (c : Fin 264) (op : Nat) (l m : List Nat) : Option Instr :=
  match op, l, m with
  | 0, [aQ, qfmt, aK, kfmt, aL, sE, sF, sJ, sT, sB], [mq, gl, dc, da] =>
    some (.atQk c { aQ := bv aQ, qfmt := bv qfmt, aK := bv aK, kfmt := bv kfmt, aL := bv aL, sE := bv sE, sF := bv sF
                    sJ := bv sJ, sT := bv sT, sB := bv sB, mq := bv mq, gl := bv gl, dc := bv dc, da := flag da })
  | 1, [mode, aS, aP, aL, aT, sE, sF, sJ, sT, sQ], [mq, gl, dc, pfmt, mask, sW, ofmt, rnd, sat, om, lse, aX, aO] =>
    smOf c mode { aS := bv aS, aP := bv aP, aL := bv aL, aT := bv aT, sE := bv sE, sF := bv sF, sJ := bv sJ, sT := bv sT
                  sQ := bv sQ, mq := bv mq, gl := bv gl, dc := bv dc, pfmt := bv pfmt, mask := bv mask, sW := bv sW
                  ofmt := bv ofmt, rnd := bv rnd, sat := flag sat, om := flag om, lse := flag lse, aX := bv aX, aO := bv aO }
  | 2, [aP, pfmt, aV, vfmt, aL, aS, sF, sJ, sO], [mq, dc, da] =>
    some (.atPv c { aP := bv aP, pfmt := bv pfmt, aV := bv aV, vfmt := bv vfmt, aL := bv aL, aS := bv aS, sF := bv sF
                    sJ := bv sJ, sO := bv sO, mq := bv mq, dc := bv dc, da := flag da })
  | 3, [aQ, qfmt, aG, aT, aO, sN, sH, sLEN, sQ, sW], [qq, dc, hq, pfmt, mask, ofmt, rnd, sat, om, lse, aX, aS, da] =>
    some (.atDec c { aQ := bv aQ, qfmt := bv qfmt, aG := bv aG, aT := bv aT, aO := bv aO, sN := bv sN, sH := bv sH
                     sLEN := bv sLEN, sQ := bv sQ, sW := bv sW, qq := bv qq, dc := bv dc, hq := bv hq, pfmt := bv pfmt
                     mask := bv mask, ofmt := bv ofmt, rnd := bv rnd, sat := flag sat, om := flag om, lse := flag lse
                     aX := bv aX, aS := bv aS, da := flag da })
  | 4, [oper, aA, aR, aO], [] => pageOf c oper (bv aA) (bv aR) (bv aO)
  | _, _, _ => none

/-- `dm.tbl` by TGT: 0 the core's expanders, 16 to 31 the stacks; 1 to 15 are reserved (13 R308). -/
def tblOf (c : Fin 264) (aS : BitVec 4) (sO : BitVec 5) (slot : BitVec 4) (tgt : Nat) : Option Instr :=
  if tgt = 0 then some (.dmTblCore c aS sO slot)
  else if h : 16 ≤ tgt ∧ tgt < 32 then some (.dmTblStack c aS sO slot ⟨tgt - 16, by omega⟩)
  else none

def buildDm (c : Fin 264) (op : Nat) (l : List Nat) : Option Instr :=
  match op, l with
  | 0, [aS, sO, aD, sP, sB, sN, sT, sU] =>
    some (.dmCopy c { aS := bv aS, sO := bv sO, aD := bv aD, sP := bv sP, sB := bv sB, sN := bv sN, sT := bv sT, sU := bv sU })
  | 1, [aS, sO, aD, sP, ew, sN, sC, sT, sU] =>
    some (.dmXpose c { aS := bv aS, sO := bv sO, aD := bv aD, sP := bv sP, ew := bv ew, sN := bv sN, sC := bv sC, sT := bv sT
                       sU := bv sU })
  | 2, [aD, aS, aI, sN, sB, sT] =>
    some (.dmGather c { aD := bv aD, aS := bv aS, aI := bv aI, sN := bv sN, sB := bv sB, sT := bv sT })
  | 3, [aS, efmt, aD, dfmt, aC, sN, rnd, sat, da] =>
    some (.dmExpand c { aS := bv aS, efmt := bv efmt, aD := bv aD, dfmt := bv dfmt, aC := bv aC, sN := bv sN, rnd := bv rnd
                        sat := flag sat, da := flag da })
  | 4, [aS, sfmt, aD, sN, slot] =>
    some (.dmPack c { aS := bv aS, sfmt := bv sfmt, aD := bv aD, sN := bv sN, slot := bv slot })
  | 5, [aS, sO, slot, tgt] => tblOf c (bv aS) (bv sO) (bv slot) tgt
  | 6, [aop, sz, aT, sO, aV, aC, aR, ret, sE] =>
    some (.dmAtom c { aop := bv aop, sz := flag sz, aT := bv aT, sO := bv sO, aV := bv aV, aC := bv aC, aR := bv aR
                      ret := flag ret, sE := bv sE })
  | _, _ => none

def buildSy (c : Fin 264) (op : Nat) (l : List Nat) : Option Instr :=
  match op, l with
  | 0, [sS, sV] => some (.sySig c (bv sS) (bv sV))
  | 1, [sD, sS, sV, sT, cond, ft] =>
    some (.syWait c { sD := bv sD, sS := bv sS, sV := bv sV, sT := bv sT, cond := flag cond, ft := flag ft })
  | 2, [sS, sV] => some (.sySet c (bv sS) (bv sV))
  | 3, [sQ, aS, sL] => some (.syQput c (bv sQ) (bv aS) (bv sL))
  | 4, [sD, sQ, aD, sM] => some (.syQget c (bv sD) (bv sQ) (bv aD) (bv sM))
  | 5, [sD, sQ] => some (.syQcnt c (bv sD) (bv sQ))
  | _, _ => none

def buildCl (c : Fin 264) (op : Nat) (l : List Nat) : Option Instr :=
  match op, l with
  | 0, [aS, sL, jg, sM, sA, fin, sg, sG] =>
    some (.clPut c { aS := bv aS, sL := bv sL, jg := bv jg, sM := bv sM, sA := bv sA, fin := flag fin, sg := flag sg
                     sG := bv sG })
  | 1, [rop, ifmt, ofmt, aS, aD, sN, jg, ord, sat] =>
    some (.clReduce c { rop := bv rop, ifmt := bv ifmt, ofmt := bv ofmt, aS := bv aS, aD := bv aD, sN := bv sN, jg := bv jg
                        ord := flag ord, sat := flag sat })
  | 2, [sS, sW] => some (.clStep c (bv sS) (bv sW))
  | 3, [sD, jg] => some (.clTimesync c (bv sD) (bv jg))
  | _, _ => none

def buildRn (c : Fin 264) (op : Nat) (l : List Nat) : Option Instr :=
  match op, l with
  | 0, [sS] => some (.rnKey c (bv sS))
  | 1, [mode, sS] => some (.rnStream c (bv mode) (bv sS))
  | 2, [aD, wq, draw, sL] => some (.rnDraw c (bv aD) (bv wq) (bv draw) (bv sL))
  | _, _ => none

def buildDb (c : Fin 264) (op : Nat) (l : List Nat) : Option Instr :=
  match op, l with
  | 0, [aS, fmt, sN, sL, wm, wid, aD, wd] =>
    some (.dbWatch c { aS := bv aS, fmt := bv fmt, sN := bv sN, sL := bv sL, wm := flag wm, wid := bv wid, aD := bv aD
                       wd := flag wd })
  | 1, [code, sS] => some (.dbEvent c (bv code) (bv sS))
  | _, _ => none

/-- The instruction of CLASS and OP with the fields `l` of its first word and `m` of its extension word. -/
def build (c : Fin 264) (cls op : Nat) (ext : Option W64) (l m : List Nat) : Option Instr :=
  match cls with
  | 0 => buildSq c op ext l
  | 1 => buildMx c op l
  | 2 => buildVx c op l m
  | 3 => match l with
    | [xN, aS, sO] => some (.xpDef c (bv xN) (bv aS) (bv sO))
    | _ => none
  | 4 => buildDm c op l
  | 5 => buildSy c op l
  | 6 => buildAt c op l m
  | 7 => buildCl c op l
  | 8 => buildRn c op l
  | 9 => buildDb c op l
  | _ => none

/-- Bit X: the next word is the instruction's extension word (04 R72). -/
def hasExt (w : W64) : Bool := w.getLsbD 53

/-- The instruction that core `c` decodes from a first word, and the word behind it when bit X is set. None where 04 R73
makes the words ILLEGAL by their encoding: a reserved class, an operation not assigned, a wrong X, a reserved bit set,
a reserved OPER of `at.page` or TGT of `dm.tbl`. -/
def decodeWords (c : Fin 264) (w e : W64) : Option Instr :=
  let cls := wordField w 60 4
  let op := wordField w 54 6
  match layout cls op with
  | none => none
  | some y =>
    if !y.x.allows (hasExt w) then none
    else
      match unpack w 53 y.first, if hasExt w then unpack e 64 y.ext else some [] with
      | some l, some m => build c cls op (if hasExt w then some e else none) l m
      | _, _ => none

/-! ### The encoder -/

/-- A first word. -/
def firstWord (cls op : Nat) (x : Bool) (fs : List (Nat × Nat)) : W64 :=
  BitVec.ofNat 64 (cls * 2 ^ 60 + op * 2 ^ 54 + x.toNat * 2 ^ 53 + pack 53 fs)

/-- An extension word. -/
def extWord (fs : List (Nat × Nat)) : W64 := BitVec.ofNat 64 (pack 64 fs)

def fv {n : Nat} (v : BitVec n) : Nat × Nat := (n, v.toNat)
def fb (b : Bool) : Nat × Nat := (1, b.toNat)

def Alu.words (f : Alu) (op : Nat) (more : List (Nat × Nat)) : List W64 :=
  firstWord 0 op f.ext.isSome ([fv f.sD, fv f.sA, fv f.sB] ++ more) :: f.ext.toList

def AtSm.words (f : AtSm) (mode : Nat) : List W64 :=
  [firstWord 6 1 true [(2, mode), fv f.aS, fv f.aP, fv f.aL, fv f.aT, fv f.sE, fv f.sF, fv f.sJ, fv f.sT, fv f.sQ],
   extWord [fv f.mq, fv f.gl, fv f.dc, fv f.pfmt, fv f.mask, fv f.sW, fv f.ofmt, fv f.rnd, fb f.sat, fb f.om, fb f.lse,
     fv f.aX, fv f.aO]]

def pageWords (oper : Nat) (aA aR aO : BitVec 4) : List W64 := [firstWord 6 4 false [(3, oper), fv aA, fv aR, fv aO]]

/-- The words of an instruction; none for a command that is no instruction. -/
def encode (i : Instr) : List W64 :=
  match i with
  | .sqHalt _ => [firstWord 0 0x00 false []]
  | .sqLi _ sD imm => [firstWord 0 0x01 true [fv sD], imm]
  | .sqAdd _ f => f.words 0x02 []
  | .sqSub _ f => f.words 0x03 []
  | .sqMul _ f => f.words 0x04 []
  | .sqAnd _ f => f.words 0x05 []
  | .sqOr _ f => f.words 0x06 []
  | .sqXor _ f => f.words 0x07 []
  | .sqShl _ f => f.words 0x08 []
  | .sqShr _ f => f.words 0x09 []
  | .sqSra _ f => f.words 0x0A []
  | .sqMin _ f => f.words 0x0B []
  | .sqMax _ f => f.words 0x0C []
  | .sqCmp _ f cond => f.words 0x0D [fv cond]
  | .sqLd _ sD aS sO => [firstWord 0 0x0E false [fv sD, fv aS, fv sO]]
  | .sqSt _ aS sO sV => [firstWord 0 0x0F false [fv aS, fv sO, fv sV]]
  | .sqDesc _ aD sB sE => [firstWord 0 0x10 false [fv aD, fv sB, fv sE]]
  | .sqRds _ sD index => [firstWord 0 0x11 false [fv sD, fv index]]
  | .sqWrs _ index sS => [firstWord 0 0x12 false [fv index, fv sS]]
  | .sqBr _ cond sA sB ofs => [firstWord 0 0x13 false [fv cond, fv sA, fv sB, fv ofs]]
  | .sqLoop _ lN sC body => [firstWord 0 0x14 false [fv lN, fv sC, fv body]]
  | .sqMark _ layer op => [firstWord 0 0x15 false [fv layer, fv op]]
  | .sqDeadline _ sS => [firstWord 0 0x16 false [fv sS]]
  | .sqPhase _ phase => [firstWord 0 0x17 false [fv phase]]
  | .sqYield _ => [firstWord 0 0x18 false []]
  | .sqLive _ index => [firstWord 0 0x19 false [fv index]]
  | .sqIcinv _ aS sO sL => [firstWord 0 0x1A false [fv aS, fv sO, fv sL]]
  | .mxForm _ form => [firstWord 1 0 false [fv form]]
  | .mxWld _ f =>
    [firstWord 1 1 false [fv f.aW, fv f.wfmt, fv f.sfmt, fv f.kx, fv f.nx, fv f.sS, fv f.fq, fb f.da]]
  | .mxSwap _ => [firstWord 1 2 false []]
  | .mxRun _ f =>
    [firstWord 1 3 false [fv f.aA, fv f.sfmt, fv f.mq, fv f.sS, fv f.sC, fv f.kx, fb f.wa, fv f.aB, fv f.bfmt, fb f.dop,
      fb f.da]]
  | .mxDrain _ f => [firstWord 1 4 false [fv f.sC, fv f.rq, fb f.pt, fv f.cq]]
  | .mxNmv _ f =>
    [firstWord 1 5 false [fv f.sW, fv f.wfmt, fv f.sK, fv f.sN, fv f.sP, fv f.aX, fv f.sV, fv f.vfmt, fv f.vq, fv f.aR,
      fb f.da]]
  | .vxSetvl _ sD sS => [firstWord 2 0 false [fv sD, fv sS]]
  | .vxSetm _ mD sS => [firstWord 2 1 false [fv mD, fv sS]]
  | .vxEp _ f =>
    [firstWord 2 2 true [fv f.xs, fv f.ni, fb f.no, fv f.i0, fv f.i1, fv f.i2, fv f.i3, fv f.o0, fv f.o1, fv f.msk, fb f.mz],
     extWord [fv f.f0, fv f.f1, fv f.f2, fv f.f3, fv f.fo0, fv f.fo1, fv f.rnd, fb f.sat, fv f.draw, fv f.sL, fv f.tq,
       fb f.ti, fb f.bm0, fb f.bm1]]
  | .vxRed _ f => [firstWord 2 3 false [fv f.aI, fv f.ifmt, fv f.aO, fv f.rop, fv f.sG, fv f.msk, fb f.tq, fb f.ti]]
  | .xpDef _ xN aS sO => [firstWord 3 0 false [fv xN, fv aS, fv sO]]
  | .dmCopy _ f => [firstWord 4 0 false [fv f.aS, fv f.sO, fv f.aD, fv f.sP, fv f.sB, fv f.sN, fv f.sT, fv f.sU]]
  | .dmXpose _ f =>
    [firstWord 4 1 false [fv f.aS, fv f.sO, fv f.aD, fv f.sP, fv f.ew, fv f.sN, fv f.sC, fv f.sT, fv f.sU]]
  | .dmGather _ f => [firstWord 4 2 false [fv f.aD, fv f.aS, fv f.aI, fv f.sN, fv f.sB, fv f.sT]]
  | .dmExpand _ f =>
    [firstWord 4 3 false [fv f.aS, fv f.efmt, fv f.aD, fv f.dfmt, fv f.aC, fv f.sN, fv f.rnd, fb f.sat, fb f.da]]
  | .dmPack _ f => [firstWord 4 4 false [fv f.aS, fv f.sfmt, fv f.aD, fv f.sN, fv f.slot]]
  | .dmTblCore _ aS sO slot => [firstWord 4 5 false [fv aS, fv sO, fv slot, (5, 0)]]
  | .dmTblStack _ aS sO slot st => [firstWord 4 5 false [fv aS, fv sO, fv slot, (5, 16 + st.val)]]
  | .dmAtom _ f =>
    [firstWord 4 6 false [fv f.aop, fb f.sz, fv f.aT, fv f.sO, fv f.aV, fv f.aC, fv f.aR, fb f.ret, fv f.sE]]
  | .sySig _ sS sV => [firstWord 5 0 false [fv sS, fv sV]]
  | .syWait _ f => [firstWord 5 1 false [fv f.sD, fv f.sS, fv f.sV, fv f.sT, fb f.cond, fb f.ft]]
  | .sySet _ sS sV => [firstWord 5 2 false [fv sS, fv sV]]
  | .syQput _ sQ aS sL => [firstWord 5 3 false [fv sQ, fv aS, fv sL]]
  | .syQget _ sD sQ aD sM => [firstWord 5 4 false [fv sD, fv sQ, fv aD, fv sM]]
  | .syQcnt _ sD sQ => [firstWord 5 5 false [fv sD, fv sQ]]
  | .atQk _ f =>
    [firstWord 6 0 true [fv f.aQ, fv f.qfmt, fv f.aK, fv f.kfmt, fv f.aL, fv f.sE, fv f.sF, fv f.sJ, fv f.sT, fv f.sB],
     extWord [fv f.mq, fv f.gl, fv f.dc, fb f.da]]
  | .atSmInit _ f => f.words 0
  | .atSmUpdate _ f => f.words 1
  | .atSmFinal _ f => f.words 2
  | .atSmMerge _ f => f.words 3
  | .atPv _ f =>
    [firstWord 6 2 true [fv f.aP, fv f.pfmt, fv f.aV, fv f.vfmt, fv f.aL, fv f.aS, fv f.sF, fv f.sJ, fv f.sO],
     extWord [fv f.mq, fv f.dc, fb f.da]]
  | .atDec _ f =>
    [firstWord 6 3 true [fv f.aQ, fv f.qfmt, fv f.aG, fv f.aT, fv f.aO, fv f.sN, fv f.sH, fv f.sLEN, fv f.sQ, fv f.sW],
     extWord [fv f.qq, fv f.dc, fv f.hq, fv f.pfmt, fv f.mask, fv f.ofmt, fv f.rnd, fb f.sat, fb f.om, fb f.lse, fv f.aX,
       fv f.aS, fb f.da]]
  | .atPageAlloc _ aA aR aO => pageWords 0 aA aR aO
  | .atPageFree _ aA aR aO => pageWords 1 aA aR aO
  | .atPageFork _ aA aR aO => pageWords 2 aA aR aO
  | .atPagePrep _ aA aR aO => pageWords 3 aA aR aO
  | .atPageLookup _ aA aR aO => pageWords 4 aA aR aO
  | .atPageInsert _ aA aR aO => pageWords 5 aA aR aO
  | .clPut _ f => [firstWord 7 0 false [fv f.aS, fv f.sL, fv f.jg, fv f.sM, fv f.sA, fb f.fin, fb f.sg, fv f.sG]]
  | .clReduce _ f =>
    [firstWord 7 1 false [fv f.rop, fv f.ifmt, fv f.ofmt, fv f.aS, fv f.aD, fv f.sN, fv f.jg, fb f.ord, fb f.sat]]
  | .clStep _ sS sW => [firstWord 7 2 false [fv sS, fv sW]]
  | .clTimesync _ sD jg => [firstWord 7 3 false [fv sD, fv jg]]
  | .rnKey _ sS => [firstWord 8 0 false [fv sS]]
  | .rnStream _ mode sS => [firstWord 8 1 false [fv mode, fv sS]]
  | .rnDraw _ aD wq draw sL => [firstWord 8 2 false [fv aD, fv wq, fv draw, fv sL]]
  | .dbWatch _ f => [firstWord 9 0 false [fv f.aS, fv f.fmt, fv f.sN, fv f.sL, fb f.wm, fv f.wid, fv f.aD, fb f.wd]]
  | .dbEvent _ code sS => [firstWord 9 1 false [fv code, fv sS]]
  | _ => []

/-! ### Words of the opcode table -/

/-- The opcode table gives no row of this block any bits, so no word spells a command. -/
def decodeTableWord (_nbits _w : Nat) : Option Instr := none

end Sys2Proof
end

