-- ==== Sys2Proof/Machine/Tab.lean ====
section
/-! DEFINITION. Finite tables keyed by a number, bit fields, byte order, and byte memories with poison marks. -/

namespace Sys2Proof.Machine

/-! ### Tables: lists of key and value pairs, keys rising -/

abbrev Tab (α : Type) := List (Nat × α)

/-- The entry at key `k`. -/
def Tab.at? {α : Type} : Tab α → Nat → Option α
  | [], _ => none
  | (a, x) :: r, k => if a = k then some x else Tab.at? r k

/-- The entry at key `k`, or `d` where none is listed. -/
def Tab.val {α : Type} (d : α) (t : Tab α) (k : Nat) : α := (Tab.at? t k).getD d

/-- Sets the entry at key `k`, keeping the keys rising. -/
def Tab.put {α : Type} : Tab α → Nat → α → Tab α
  | [], k, v => [(k, v)]
  | (a, x) :: r, k, v =>
    if k < a then (k, v) :: (a, x) :: r
    else if a = k then (k, v) :: r
    else (a, x) :: Tab.put r k v

/-- Removes the entry at key `k`. -/
def Tab.del {α : Type} (t : Tab α) (k : Nat) : Tab α := t.filter (fun p => p.1 ≠ k)

/-- Keys strictly rising. -/
def Tab.rising {α : Type} : Tab α → Bool
  | [] => true
  | [_] => true
  | p :: q :: r => p.1 < q.1 && Tab.rising (q :: r)

/-! ### Bit fields and byte order (00_scope R6, R7) -/

/-- Bits `[lo + n - 1 : lo]` of a number. -/
def bits (x lo n : Nat) : Nat := (x >>> lo) % 2 ^ n

/-- Bit `i` of a number as a truth value. -/
def bit (x i : Nat) : Bool := (x >>> i) % 2 == 1

def b2n (b : Bool) : Nat := if b then 1 else 0

/-- A little-endian number from its bytes (R7). -/
def leNat : List Byte → Nat
  | [] => 0
  | b :: r => b.toNat + 256 * leNat r

/-- The `n` little-endian bytes of a number (R7). -/
def leBytes : Nat → Nat → List Byte
  | 0, _ => []
  | n + 1, x => BitVec.ofNat 8 x :: leBytes n (x / 256)

/-- Two's complement reading of the low `w` bits. -/
def sgn (w x : Nat) : Int :=
  let y := x % 2 ^ w
  if y < 2 ^ (w - 1) then (y : Int) else (y : Int) - (2 ^ w : Nat)

/-- Two's complement pattern of width `w` of an integer. -/
def unsgn (w : Nat) (i : Int) : Nat := (i % (2 ^ w : Nat)).toNat

def cdiv (a b : Nat) : Nat := (a + b - 1) / b

/-! ### Byte memories

A byte that nothing has written reads as 0: the cleared state of 10 R236 and 23 R532, and the scrub of 15 R352. -/

/-- A byte, and whether it comes from a poisoned granule (19 R460). -/
abbrev PByte := Byte × Bool

/-- Bytes with the poison marks of their 8-byte granules (10 R233, 19 R460). -/
structure Ram where
  bytes  : Tab Byte
  poison : Tab Unit
  deriving DecidableEq, Repr

def Ram.zero : Ram := { bytes := [], poison := [] }

/-- Sets one byte; writing the value that an unlisted address reads as removes the entry. -/
def setByte (t : Tab Byte) (a : Nat) (b : Byte) : Tab Byte :=
  if b = 0 then Tab.del t a else Tab.put t a b

def Ram.get (m : Ram) (a : Nat) : Byte := Tab.val 0 m.bytes a

def Ram.bad (m : Ram) (a : Nat) : Bool := (Tab.at? m.poison (a / 8)).isSome

/-- Reads one byte; a poisoned granule delivers its bits as 1 (19 R462). -/
def Ram.peek (m : Ram) (a : Nat) : PByte := if m.bad a then (0xFF, true) else (m.get a, false)

def Ram.read (m : Ram) (a n : Nat) : List PByte := (List.range n).map (fun i => m.peek (a + i))

/-- Whether a write of `[a, a + n)` replaces the whole granule of address `x`. -/
def wholeGranule (a n x : Nat) : Bool := a ≤ 8 * (x / 8) && 8 * (x / 8) + 8 ≤ a + n

/-- One byte of a write of `[a, a + n)`: the bytes written to part of a poisoned granule are discarded (11 R555);
a poisoned source byte poisons the granule (19 R460). -/
def Ram.poke (m : Ram) (a n x : Nat) (b : PByte) : Ram :=
  if m.bad x && !wholeGranule a n x then m
  else
    { bytes := setByte m.bytes x b.1
      poison := if b.2 then Tab.put m.poison (x / 8) () else m.poison }

/-- Clears the marks of the granules that a write of `[a, a + n)` replaces whole (10 R233). -/
def Ram.heal (m : Ram) (a n : Nat) : Ram :=
  { m with poison := m.poison.filter (fun p => !wholeGranule a n (8 * p.1)) }

def Ram.pokes (m : Ram) (a n : Nat) : Nat → List PByte → Ram
  | _, [] => m
  | x, b :: r => Ram.pokes (m.poke a n x b) a n (x + 1) r

/-- Writes bytes in ascending address. -/
def Ram.write (m : Ram) (a : Nat) (bs : List PByte) : Ram :=
  (m.heal a bs.length).pokes a bs.length a bs

def clean (bs : List Byte) : List PByte := bs.map (fun b => (b, false))

def anyBad (bs : List PByte) : Bool := bs.any (fun b => b.2)

def plain (bs : List PByte) : List Byte := bs.map (fun b => b.1)

end Sys2Proof.Machine
end

