-- ==== Sys2Proof/Machine/Fp.lean ====
section
/-! DEFINITION. Exact binary values, their rounding, and FP32 arithmetic (02 R25 to R45). -/

namespace Sys2Proof.Machine

/-- The four arithmetic flags of 02 R38. -/
structure Flags where
  intSat  : Bool
  fpOvf   : Bool
  cvtSat  : Bool
  invalid : Bool
  deriving DecidableEq, Repr

def Flags.none : Flags := { intSat := false, fpOvf := false, cvtSat := false, invalid := false }

/-- Flags are sticky: joining two sets of events (02 R38). -/
def Flags.join (f g : Flags) : Flags :=
  { intSat := f.intSat || g.intSat, fpOvf := f.fpOvf || g.fpOvf
    cvtSat := f.cvtSat || g.cvtSat, invalid := f.invalid || g.invalid }

def Flags.ovf : Flags := { Flags.none with fpOvf := true }
def Flags.inv : Flags := { Flags.none with invalid := true }
def Flags.sat : Flags := { Flags.none with cvtSat := true }
def Flags.isat : Flags := { Flags.none with intSat := true }

/-- A result with the flag events that produced it. -/
structure Fl (α : Type) where
  v : α
  f : Flags
  deriving DecidableEq, Repr

def Fl.pure {α : Type} (a : α) : Fl α := { v := a, f := Flags.none }

def Fl.bind {α β : Type} (a : Fl α) (k : α → Fl β) : Fl β :=
  { v := (k a.v).v, f := a.f.join (k a.v).f }

/-- An exact value: NaN, an infinity, or (-1)^neg × m × 2^e. -/
inductive Fp where
  | nan
  | inf (neg : Bool)
  | fin (neg : Bool) (m : Nat) (e : Int)
  deriving DecidableEq, Repr

def Fp.zero (neg : Bool) : Fp := .fin neg 0 0

def Fp.isNan : Fp → Bool
  | .nan => true
  | _ => false

def Fp.isInf : Fp → Bool
  | .inf _ => true
  | _ => false

def Fp.isZero : Fp → Bool
  | .fin _ m _ => m == 0
  | _ => false

def Fp.neg? : Fp → Bool
  | .nan => false
  | .inf s => s
  | .fin s _ _ => s

def Fp.flip : Fp → Fp
  | .nan => .nan
  | .inf s => .inf (!s)
  | .fin s m e => .fin (!s) m e

def Fp.mag : Fp → Fp
  | .nan => .nan
  | .inf _ => .inf false
  | .fin _ m e => .fin false m e

/-- Multiplication by 2^k, exact with an unbounded exponent (02 R41). -/
def Fp.scale (x : Fp) (k : Int) : Fp :=
  match x with
  | .nan => .nan
  | .inf s => .inf s
  | .fin s m e => .fin s m (e + k)

def Fp.ofInt (i : Int) : Fp := .fin (i < 0) i.natAbs 0

/-- The exact product, whose zero takes the exclusive-OR of the signs (02 R29). -/
def Fp.mul : Fp → Fp → Fp
  | .nan, _ => .nan
  | _, .nan => .nan
  | .inf s, .inf t => .inf (s != t)
  | .inf s, .fin t m _ => if m = 0 then .nan else .inf (s != t)
  | .fin s m _, .inf t => if m = 0 then .nan else .inf (s != t)
  | .fin s m e, .fin t n f => if m = 0 || n = 0 then .fin (s != t) 0 0 else .fin (s != t) (m * n) (e + f)

def signed (s : Bool) (m : Nat) : Int := if s then -(m : Int) else m

/-- `m × 2^k` for an exponent that is not negative, floored otherwise. -/
def shiftInt (m : Nat) (k : Int) : Nat := if 0 ≤ k then m <<< k.toNat else m >>> (-k).toNat

/-- The exact sum; a zero sum is +0 unless both terms are -0 (02 R29). -/
def Fp.add : Fp → Fp → Fp
  | .nan, _ => .nan
  | _, .nan => .nan
  | .inf s, .inf t => if s = t then .inf s else .nan
  | .inf s, _ => .inf s
  | _, .inf t => .inf t
  | .fin s m e, .fin t n f =>
    let q := min e f
    let v := signed s (shiftInt m (e - q)) + signed t (shiftInt n (f - q))
    if v = 0 then .fin (s && t && m = 0 && n = 0) 0 0 else .fin (v < 0) v.natAbs q

/-- floor(log2 |x|) of a nonzero finite value. -/
def Fp.log2 : Fp → Int
  | .fin _ m e => (Nat.log2 m : Int) + e
  | _ => 0

/-- Order of two values that are not NaN; -0 and +0 compare equal. -/
def Fp.lt : Fp → Fp → Bool
  | .nan, _ => false
  | _, .nan => false
  | .inf s, .inf t => s && !t
  | .inf s, .fin _ _ _ => s
  | .fin _ _ _, .inf t => !t
  | .fin s m e, .fin t n f =>
    let q := min e f
    signed s (shiftInt m (e - q)) < signed t (shiftInt n (f - q))

def Fp.eq (a b : Fp) : Bool := !a.isNan && !b.isNan && !a.lt b && !b.lt a

/-- IEEE 754-2019 maximum (02 R31): NaN when either is NaN, -0 below +0. -/
def Fp.max (a b : Fp) : Fp :=
  if a.isNan || b.isNan then .nan
  else if a.lt b then b else if b.lt a then a
  else if a.neg? then b else a

def Fp.min (a b : Fp) : Fp :=
  if a.isNan || b.isNan then .nan
  else if a.lt b then a else if b.lt a then b
  else if a.neg? then a else b

/-- The rounding modes of 02 R36; `st u` is stochastic with the random bits `u` (02 R37). -/
inductive Round where
  | rne
  | rtz
  | st (r u : Nat)
  deriving DecidableEq, Repr

/-- Whether the magnitude rounds up, from the discarded `d` bits `rem` and the parity of the kept part. -/
def Round.up (rd : Round) (d rem kept : Nat) : Bool :=
  match rd with
  | .rne => 2 * rem > 2 ^ d || (2 * rem == 2 ^ d && kept % 2 == 1)
  | .rtz => false
  | .st r u => rem != 0 && (if r ≤ d then rem >>> (d - r) else rem <<< (r - d)) ≥ u

/-- `m × 2^e` rounded to a multiple of 2^q: the multiple. -/
def roundAt (rd : Round) (m : Nat) (e q : Int) : Nat :=
  if q ≤ e then m <<< (e - q).toNat
  else
    let d := (q - e).toNat
    let t := m >>> d
    let rem := m % 2 ^ d
    if rd.up d rem t then t + 1 else t

/-- A binary format: fraction bits, exponent bits, bias, largest finite significand and its step exponent,
whether it has infinities (02 R25). -/
structure Flt where
  fb   : Nat
  eb   : Nat
  bias : Nat
  maxM : Nat
  maxQ : Int
  infs : Bool
  nanc : Nat
  deriving DecidableEq, Repr

def fFP32 : Flt := { fb := 23, eb := 8, bias := 127, maxM := 0xFFFFFF, maxQ := 104, infs := true, nanc := 0x7FC00000 }
def fBF16 : Flt := { fb := 7, eb := 8, bias := 127, maxM := 0xFF, maxQ := 120, infs := true, nanc := 0x7FC0 }
def fFP16 : Flt := { fb := 10, eb := 5, bias := 15, maxM := 0x7FF, maxQ := 5, infs := true, nanc := 0x7E00 }
def fE4M3 : Flt := { fb := 3, eb := 4, bias := 7, maxM := 14, maxQ := 5, infs := false, nanc := 0x7F }
def fE5M2 : Flt := { fb := 2, eb := 5, bias := 15, maxM := 7, maxQ := 13, infs := true, nanc := 0x7E }
/-- E2M1 has neither infinity nor NaN. -/
def fE2M1 : Flt := { fb := 1, eb := 2, bias := 1, maxM := 3, maxQ := 1, infs := false, nanc := 0 }

def Flt.emin (f : Flt) : Int := 1 - (f.bias : Int)
def Flt.signBit (f : Flt) : Nat := 2 ^ (f.eb + f.fb)
def Flt.infc (f : Flt) : Nat := (2 ^ f.eb - 1) * 2 ^ f.fb
def Flt.maxc (f : Flt) : Nat := (f.maxQ + f.fb + f.bias).toNat * 2 ^ f.fb + f.maxM - 2 ^ f.fb

/-- Decodes an encoding of the format (02 R25, R26, R30). -/
def Flt.dec (f : Flt) (c : Nat) : Fp :=
  let s := c / f.signBit % 2 == 1
  let ex := c / 2 ^ f.fb % 2 ^ f.eb
  let fr := c % 2 ^ f.fb
  if f.infs && ex == 2 ^ f.eb - 1 then (if fr == 0 then .inf s else .nan)
  else if f == fE4M3 && c % 0x80 == 0x7F then .nan
  else if ex == 0 then .fin s fr (f.emin - f.fb)
  else .fin s (2 ^ f.fb + fr) ((ex : Int) - f.bias - f.fb)

def Flt.withSign (f : Flt) (s : Bool) (c : Nat) : Nat := if s then f.signBit + c else c

/-- The rounded significand and step exponent of a nonzero finite magnitude (02 R32): precision of the format,
unbounded above, gradual below. -/
def Flt.step (f : Flt) (m : Nat) (e : Int) : Int := max ((Nat.log2 m : Int) + e - f.fb) (f.emin - f.fb)

def Flt.over (f : Flt) (n : Nat) (q : Int) : Bool := f.maxQ ≤ q && n <<< (q - f.maxQ).toNat > f.maxM

/-- The encoding of `n × 2^q` with n at most 2^(fb+1). -/
def Flt.pack (f : Flt) (n : Nat) (q : Int) : Nat := (q + f.fb + f.bias).toNat * 2 ^ f.fb + n - 2 ^ f.fb

/-- FP32 by RNE with FP_OVF when a finite value becomes infinite (02 R32, R38). -/
def toF32 (x : Fp) : Fl W32 :=
  match x with
  | .nan => .pure (BitVec.ofNat 32 fFP32.nanc)
  | .inf s => .pure (BitVec.ofNat 32 (fFP32.withSign s fFP32.infc))
  | .fin s m e =>
    if m = 0 then .pure (BitVec.ofNat 32 (fFP32.withSign s 0))
    else
      let q := fFP32.step m e
      let n := roundAt .rne m e q
      if fFP32.over n q then { v := BitVec.ofNat 32 (fFP32.withSign s fFP32.infc), f := Flags.ovf }
      else .pure (BitVec.ofNat 32 (fFP32.withSign s (fFP32.pack n q)))

def ofF32 (c : W32) : Fp := fFP32.dec c.toNat

/-- INVALID when a NaN comes from operands that hold none (02 R38). -/
def nanFlag (ops : List Fp) (r : Fp) : Flags :=
  if r.isNan && !ops.any Fp.isNan then Flags.inv else Flags.none

def f32op (ops : List Fp) (r : Fp) : Fl W32 :=
  let x := toF32 r
  { v := x.v, f := x.f.join (nanFlag ops r) }

/-- FP32 addition, multiplication and fused multiply-add, each rounded once by RNE (02 R45). -/
def fadd (a b : W32) : Fl W32 := f32op [ofF32 a, ofF32 b] ((ofF32 a).add (ofF32 b))
def fsub (a b : W32) : Fl W32 := f32op [ofF32 a, ofF32 b] ((ofF32 a).add (ofF32 b).flip)
def fmul (a b : W32) : Fl W32 := f32op [ofF32 a, ofF32 b] ((ofF32 a).mul (ofF32 b))
def ffma (a b c : W32) : Fl W32 :=
  f32op [ofF32 a, ofF32 b, ofF32 c] (((ofF32 a).mul (ofF32 b)).add (ofF32 c))
def fmax (a b : W32) : W32 := (toF32 ((ofF32 a).max (ofF32 b))).v
def fmin (a b : W32) : W32 := (toF32 ((ofF32 a).min (ofF32 b))).v
def fabs (a : W32) : W32 := (toF32 (ofF32 a).mag).v
def fneg (a : W32) : W32 := (toF32 (ofF32 a).flip).v
def flt (a b : W32) : Bool := (ofF32 a).lt (ofF32 b)
def feq (a b : W32) : Bool := (ofF32 a).eq (ofF32 b)
def fle (a b : W32) : Bool := flt a b || feq a b

def fOne : W32 := 0x3F800000
def fNegInf : W32 := 0xFF800000
def fPosInf : W32 := 0x7F800000
def fNaN : W32 := 0x7FC00000

/-- Saturating 32-bit addition (02 R44). -/
def satInt (i : Int) : Fl Int :=
  if i < -2147483648 then { v := -2147483648, f := Flags.isat }
  else if i > 2147483647 then { v := 2147483647, f := Flags.isat }
  else .pure i

def i32 (c : W32) : Int := sgn 32 c.toNat
def ofI32 (i : Int) : W32 := BitVec.ofNat 32 (unsgn 32 i)

def satAdd (a b : W32) : Fl W32 :=
  let r := satInt (i32 a + i32 b)
  { v := ofI32 r.v, f := r.f }

/-! ### The defined dot product (02 R41 to R44) -/

/-- The products of the operand pairs, exact (02 R42). -/
def products (ps : List (Fp × Fp)) : List Fp := ps.map (fun p => p.1.mul p.2)

/-- The sum of the 48-bit window set by the largest product (02 R42). -/
def windowSum (E : Int) : List Fp → Int
  | [] => 0
  | .fin s m e :: r => signed s (shiftInt m (e + 47 - E)) + windowSum E r
  | _ :: r => windowSum E r

def maxLog2 : List Fp → Option Int
  | [] => none
  | x :: r =>
    if x.isZero then maxLog2 r
    else match maxLog2 r with
      | none => some x.log2
      | some k => some (max x.log2 k)

/-- One cell column's contribution s (02 R42). -/
def column (ps : List (Fp × Fp)) : Fl W32 :=
  let p := products ps
  let nanIn := ps.any (fun x => x.1.isNan || x.2.isNan)
  let pinf := p.any (fun x => x.isInf && !x.neg?)
  let ninf := p.any (fun x => x.isInf && x.neg?)
  if nanIn then .pure fNaN
  else if p.any Fp.isNan || (pinf && ninf) then { v := fNaN, f := Flags.inv }
  else if pinf then .pure fPosInf
  else if ninf then .pure fNegInf
  else match maxLog2 p with
    | none => .pure (if p.all Fp.neg? then 0x80000000 else 0)
    | some E =>
      let S := windowSum E p
      toF32 (.fin (S < 0) S.natAbs (E - 47))

/-- The integer column sum, exact (02 R44). -/
def intColumn (ps : List (Int × Int)) : Int := ps.foldl (fun a p => a + p.1 * p.2) 0

end Sys2Proof.Machine
end

