-- ==== Sys2Proof/Machine/Formats.lean ====
section
/-! DEFINITION. Format codes, element encodings and conversions (02 R24 to R37). -/

namespace Sys2Proof.Machine

/-! ### Format codes (02 R24) -/

def fmtReserved (f : Nat) : Bool := f == 0xE || f == 0xF || f ≥ 16
def fmtIsMx (f : Nat) : Bool := f == 5 || f == 13
def fmtIsErg (f : Nat) : Bool := 9 ≤ f && f ≤ 12
def fmtIsInt (f : Nat) : Bool := 6 ≤ f && f ≤ 8
/-- Codes accepted as a tensor operand or result: 0x0 to 0x8 and 0xD. -/
def fmtTensor (f : Nat) : Bool := f ≤ 8 || f == 13

/-- Element width in bits; an Erg value counts as its FP8 E4M3 value. -/
def fmtBits (f : Nat) : Nat :=
  match f with
  | 0 => 32 | 1 => 16 | 2 => 16 | 3 => 8 | 4 => 8 | 5 => 4 | 6 => 8 | 7 => 4 | 8 => 2 | _ => 8

def fmtFlt (f : Nat) : Flt :=
  match f with
  | 0 => fFP32 | 1 => fBF16 | 2 => fFP16 | 4 => fE5M2 | 5 => fE2M1 | _ => fE4M3

/-- The tiers of 02 R39, widest first. -/
inductive Tier where
  | t32 | t16 | t8 | t4 | t2
  deriving DecidableEq, Repr

def Tier.rank : Tier → Nat
  | .t32 => 4 | .t16 => 3 | .t8 => 2 | .t4 => 1 | .t2 => 0

def fmtTier (f : Nat) : Tier :=
  match f with
  | 0 => .t32 | 1 => .t16 | 2 => .t16 | 5 => .t4 | 7 => .t4 | 8 => .t2 | _ => .t8

/-- The tier of the wider operand (02 R39). -/
def tierOf (a b : Nat) : Tier := if (fmtTier a).rank ≥ (fmtTier b).rank then fmtTier a else fmtTier b

/-- Products per column per pass (02 R40). -/
def Tier.n : Tier → Nat
  | .t32 => 16 | .t16 => 16 | .t8 => 32 | .t4 => 64 | .t2 => 128

/-- The integer path takes two integer operands (02 R39). -/
def intPath (a b : Nat) : Bool := fmtIsInt a && fmtIsInt b

/-! ### Elements (02 R26, R27) -/

/-- The value of an integer code; the T2 code 0b10 reads as 0. -/
def intDec (f c : Nat) : Int :=
  match f with
  | 6 => sgn 8 c
  | 7 => sgn 4 c
  | _ => if c % 4 = 1 then 1 else if c % 4 = 3 then -1 else 0

def intEnc (f : Nat) (i : Int) : Nat := unsgn (fmtBits f) i

def intMin (f : Nat) : Int := match f with | 6 => -128 | 7 => -8 | _ => -1
def intMax (f : Nat) : Int := match f with | 6 => 127 | 7 => 7 | _ => 1

/-- The exact value of an element code, without a block scale. -/
def elemFp (f c : Nat) : Fp := if fmtIsInt f then Fp.ofInt (intDec f c) else (fmtFlt f).dec c

/-- An element with its E8M0 block scale applied exactly (02 R26, R35, R41). -/
def scaledFp (f c : Nat) (s : Nat) : Fp :=
  if s = 255 then .nan else (elemFp f c).scale ((s : Int) - 127)

/-- Element `e` of width `w` bits in packed bytes: its code, and whether a byte of it is poisoned (02 R27). -/
def elemAt (w : Nat) (bs : List PByte) (e : Nat) : Nat × Bool :=
  if w < 8 then
    let b := bs.getD (e * w / 8) (0, false)
    (bits b.1.toNat (e * w % 8) w, b.2)
  else
    let k := w / 8
    let xs := (bs.drop (e * k)).take k
    (leNat (plain xs), anyBad xs)

/-- Bytes that `n` elements of width `w` bits occupy. -/
def spanBytes (w n : Nat) : Nat := cdiv (n * w) 8

def chunks {α : Type} (k : Nat) : Nat → List α → List (List α)
  | 0, _ => []
  | n + 1, l => if l.isEmpty then [] else l.take k :: chunks k n (l.drop k)

/-- One byte from sub-byte codes, the places beyond them kept from the old byte. -/
def packByte (w : Nat) (old : Nat) (cs : List (Nat × Bool)) : PByte :=
  let v := (cs.mapIdx (fun i c => (c.1 % 2 ^ w) <<< (i * w))).foldl (· + ·) 0
  let k := cs.length * w
  (BitVec.ofNat 8 (v + (old >>> k) <<< k), cs.any (fun c => c.2))

/-- Packs codes of width `w` over the old bytes of the range (02 R27). -/
def packElems (w : Nat) (old : List PByte) (cs : List (Nat × Bool)) : List PByte :=
  if w < 8 then
    (chunks (8 / w) cs.length cs).mapIdx (fun i g => packByte w (old.getD i (0, false)).1.toNat g)
  else
    (cs.map (fun c => (leBytes (w / 8) c.1).map (fun b => (b, c.2)))).flatten

/-! ### Widening to the 32-bit element value (06 R123, 02 R32) -/

/-- A stream element as its 32-bit value: floats as FP32, integers by sign extension. -/
def widen (f c : Nat) (scale : Nat) : Fl W32 :=
  if fmtIsInt f then .pure (ofI32 (intDec f c))
  else if fmtIsMx f then toF32 (scaledFp f c scale)
  else toF32 (elemFp f c)

/-! ### Conversions to a destination format (02 R32 to R37) -/

/-- The random bits a stochastic rounding to the destination takes (02 R37). -/
def stBits (f : Nat) : Nat := if f == 5 || f == 7 || f == 8 then 3 else 4

/-- What an overflow gives (02 R33): `elem` is true for an element of an MX block. -/
def overCode (g : Flt) (rd : Round) (sat elem neg : Bool) : Nat :=
  if g.infs then (match rd with
    | .rtz => g.withSign neg g.maxc
    | _ => g.withSign neg g.infc)
  else if elem || sat || g.eb == 2 then g.withSign neg g.maxc
  else g.nanc

/-- The flags of an overflow (02 R32, R38): FP_OVF for FP32; every other format CVT_SAT, with FP_OVF where the result is
an infinity. -/
def overFlags (g : Flt) (rd : Round) : Flags :=
  if g = fFP32 then Flags.ovf
  else if g.infs && rd ≠ .rtz then Flags.sat.join Flags.ovf
  else Flags.sat

/-- A value to a floating-point format (02 R32, R33, R36). -/
def toFlt (g : Flt) (rd : Round) (sat elem : Bool) (x : Fp) : Fl Nat :=
  match x with
  | .nan => .pure g.nanc
  | .inf s =>
    if g = fFP32 then .pure (g.withSign s g.infc)
    else if g.infs then { v := g.withSign s g.infc, f := Flags.sat }
    else { v := overCode g .rne sat elem s, f := Flags.sat }
  | .fin s m e =>
    if m = 0 then .pure (g.withSign s 0)
    else
      let q := g.step m e
      let n := roundAt rd m e q
      if g.over n q then { v := overCode g rd sat elem s, f := overFlags g rd }
      else .pure (g.withSign s (g.pack n q))

/-- A value to an integer format (02 R34). -/
def toInt (f : Nat) (rd : Round) (x : Fp) : Fl Nat :=
  match x with
  | .nan => { v := 0, f := Flags.inv }
  | .inf s => { v := intEnc f (if s then intMin f else intMax f), f := Flags.sat }
  | .fin s m e =>
    let i := signed s (roundAt rd m e 0)
    if i < intMin f then { v := intEnc f (intMin f), f := Flags.sat }
    else if i > intMax f then { v := intEnc f (intMax f), f := Flags.sat }
    else .pure (intEnc f i)

/-- The final conversion to a destination format other than an MX format. -/
def convert (f : Nat) (rd : Round) (sat : Bool) (x : Fp) : Fl Nat :=
  if fmtIsInt f then toInt f rd x else toFlt (fmtFlt f) rd sat false x

/-- floor(log2) of the largest magnitude among finite values, none when all are zero. -/
def amaxLog2 (xs : List Fp) : Option Int := maxLog2 xs

def clampInt (lo hi x : Int) : Int := if x < lo then lo else if x > hi then hi else x

/-- The block exponent X of 02 R35 step 3 for a given element emax. -/
def blockExp (emax : Int) (xs : List Fp) : Int :=
  match amaxLog2 xs with
  | none => -127
  | some l => clampInt (-127) 127 (l - emax)

/-- The scale byte and the elements of one MX block (02 R35); `rds` gives each element's rounding. -/
def mxBlock (f : Nat) (xs : List (Fp × Round)) : Nat × Fl (List Nat) :=
  let vs := xs.map (fun p => p.1)
  if vs.any (fun x => x.isNan || x.isInf) then
    (255, { v := vs.map (fun _ => 0), f := if vs.any Fp.isInf then Flags.sat else Flags.none })
  else
    let X := blockExp (if f == 5 then 2 else 8) vs
    let cs := xs.map (fun p => toFlt (fmtFlt f) p.2 true true (p.1.scale (-X)))
    ((X + 127).toNat, { v := cs.map (fun c => c.v), f := cs.foldl (fun a c => a.join c.f) Flags.none })

end Sys2Proof.Machine
end

