-- ==== Sys2Proof/Config.lean ====
section
/-! DEFINITION. What an implementation fixes, and the free values: constants without a body, of which nothing can be
proved. Each is named in the assumption log. -/

namespace Sys2Proof

/-- One half of a partition's key pair: generated by Belvedere, or given by host software (10 R231, R232, 17 R421).
A generated half is a number that no other generation gives. -/
inductive KeyHalf where
  | generated (n : Nat)
  | given (k : BitVec 256)
  deriving DecidableEq, Repr

/-- The data key and the tweak key of a partition (10 R231). -/
structure Key where
  data  : KeyHalf
  tweak : KeyHalf
  deriving DecidableEq, Repr

/-- Where stored or moving data can be damaged (19 R458): a granule of stack memory, a granule of a region pool's cell, a
signal object, the next granule that a stack interface, a region's mesh or a die's connection carries. -/
inductive Spot where
  | mem (granule : Nat)
  | cell (region no index : Nat)
  | sig (region obj : Nat)
  | iface (stack : Nat)
  | mesh (region : Nat)
  | die (region : Nat)
  deriving DecidableEq, Repr

/-- The damage, if any, that arises in a tick, for draw `n`: where, and which bits of the 72-bit codeword (19 R458). -/
opaque Config.strike (n : Nat) : Option (Spot × BitVec 72)

/-- How many bytes a crash dump of this content has as Belvedere reads it out, and byte `i` of it: the spec gives what a dump
holds, and not its layout (20 R488, R489). -/
opaque Config.dumpSize (dump : List Nat) : Nat
opaque Config.dumpByte (dump : List Nat) (i : Nat) : Byte

/-- The physical cores that fail the reduced self-test of a module recovery, for draw `n` (20 R483, 23 R535). -/
opaque Config.reducedFails (n : Nat) : List Nat

/-- The bits of a generated half of a key pair (10 R232). -/
opaque Config.keyBits (n : Nat) : BitVec 256

/-- The bytes of an entry of the persistent log, by its kind, and of a crash dump: the spec gives only those of an error
record (21 R507, 22 R512). -/
opaque Config.logBytes (kind : Nat) : Nat

/-- The nanoseconds that a die's interpolated DEVTIME lies past the latest tick, for draw `n` (01 R17). -/
opaque Config.interpolated (n : Nat) : Fin 40

/-- A value that the spec leaves open, for draw `n`. -/
opaque Config.freeWord (n : Nat) : W64

/-- Element `d` of the partial O row that `at.dec` returns for a row `r` that no key of its page list reached, with the
bytes of the list and the positions of the rows: the spec states none (08 R184). -/
opaque Config.unreachedO (list : List Byte) (pos : List Nat) (r d : Nat) : BitVec 32

/-- A byte of an answer whose layout another standard gives, for draw `n` and byte `i`. -/
opaque Config.freeByte (n i : Nat) : Byte

/-- The column of a data position for which the procedure of 19 R459 finds no value. -/
opaque Config.openColumn (p : Nat) : Byte

/-- The initial and the final value of a flit's CRC (16 R384). -/
opaque Config.crcInit : BitVec 32
opaque Config.crcFinal : BitVec 32

/-- The module's base MAC address in the fuses (16 R380, 22 R509). -/
opaque Config.baseMac : BitVec 48

/-- A firmware image: the bytes of its header, and what a header gives: security version number, length of the image, signing
public key and signature. The spec gives the header no layout (22 R513). -/
opaque Config.headerLen : Nat
opaque Config.imageVersion (header : List Byte) : Nat
opaque Config.imageLength (header : List Byte) : Nat
opaque Config.imageKey (header : List Byte) : List Byte
opaque Config.imageSig (header : List Byte) : Nat × Nat

/-- A byte of the flash slot as the module is delivered (22 R509). -/
opaque Config.flashByte (second : Bool) (i : Nat) : Byte

/-- The fuses: the image key hash, the device identity key, and the spare map, calibration and MAC as a measurement reads
them; and the boot ROM (22 R509, R519). -/
opaque Config.keyHash : List Byte
opaque Config.deviceKey : BitVec 384
opaque Config.fuseBytes : List Byte
opaque Config.romByte (i : Nat) : Byte

/-- The coefficient in picojoules of an activity class at an operating point, by class × 8 + point; of the static class, per
microsecond (18 R454). -/
opaque Config.coefficient (key : Nat) : Nat

/-- The fused silicon stepping of DEV_ID (17). -/
opaque Config.stepping : Byte

/-- The rows of a stack that patrol scrub reads, and the bank of a row: the spec gives neither a row's size nor its
place in the address (10 R210, R234, R235). -/
opaque Config.rows : Nat
opaque Config.bankOf (row : Nat) : Nat

end Sys2Proof
end

