-- ==== Sys2Proof/Machine/Granule.lean ====
section
/-! DEFINITION. The granule code of 19 R458 to R460, and what it makes of damage. -/

namespace Sys2Proof.Machine

/-! ### The granule code (19 R459, R460) -/

/-- The columns fixed so far, by position. -/
abbrev Columns := Tab Nat

def Columns.singles (h : Columns) : List Nat := h.map (fun p => p.2)

/-- The XORs of two adjacent positions. -/
def Columns.pairs (h : Columns) : List Nat :=
  h.filterMap (fun p => (Tab.at? h (p.1 + 1)).map (fun y => p.2 ^^^ y))

/-- The XORs of two positions that are not adjacent. -/
def Columns.apart (h : Columns) : List Nat :=
  (h.map (fun p => (h.filter (fun q => p.1 + 1 < q.1)).map (fun q => p.2 ^^^ q.2))).flatten

/-- The XORs of three consecutive positions. -/
def Columns.triples (h : Columns) : List Nat :=
  h.filterMap (fun p =>
    match Tab.at? h (p.1 + 1), Tab.at? h (p.1 + 2) with
    | some y, some z => some (p.2 ^^^ y ^^^ z)
    | _, _ => none)

/-- The conditions of R459. -/
def Columns.good (h : Columns) : Bool :=
  let vs := h.singles ++ h.pairs
  vs.eraseDups.length = vs.length && vs.all (fun v => v ≠ 0 && v ≠ 0xFF)
    && (h.apart ++ h.triples).all (fun v => v ≠ 0 && !vs.contains v)

def checkColumns : Columns := (List.range 8).map (fun j => (64 + j, 2 ^ j))

def oddWeight (v : Nat) : Bool := ((List.range 8).filter (fun i => bit v i)).length % 2 = 1

/-- The column of data position `p` over those fixed before it. The procedure finds none from position 10 on: such a
column is a free value (log 79). -/
def nextColumn (h : Columns) (p : Nat) : Nat :=
  (((List.range 256).drop 3).find? (fun v => oddWeight v && Columns.good (Tab.put h p v))).getD (Config.openColumn p).toNat

/-- The columns of the 72 positions. -/
def columns : Columns := (List.range 64).foldl (fun h p => Tab.put h p (nextColumn h p)) checkColumns

/-- The XOR of the columns of the positions whose bits are set. -/
def columnSum (w : Nat) : Nat := columns.foldl (fun a p => if bit w p.1 then a ^^^ p.2 else a) 0

/-- The check bits of 64 data bits. -/
def checkBits (d : W64) : Byte := BitVec.ofNat 8 (columnSum d.toNat)

/-- What a 72-bit codeword, check bits on top, turns out to be. -/
inductive Codeword where
  | clean (d : W64)
  | corrected (d : W64)
  | poison
  | uncorrectable
  deriving DecidableEq, Repr

/-- The positions whose inversion corrects a syndrome: one, or two adjacent ones. -/
def correction (syn : Nat) : Option (List Nat) :=
  match columns.find? (fun p => p.2 = syn) with
  | some p => some [p.1]
  | none => (columns.find? (fun p => (Tab.at? columns (p.1 + 1)).any (fun y => p.2 ^^^ y = syn))).map (fun p => [p.1, p.1 + 1])

def Codeword.of (d : W64) (k : Byte) : Codeword :=
  let syn := (checkBits d ^^^ k).toNat
  if syn = 0 then .clean d
  else if syn = 0xFF then .poison
  else match correction syn with
    | some ps => .corrected (ps.foldl (fun v p => if p < 64 then v ^^^ BitVec.ofNat 64 (2 ^ p) else v) d)
    | none => .uncorrectable

/-- A granule as it is stored and sent, check bits on top; a poisoned one has data of all ones and inverted check bits. -/
def granuleWord (d : W64) (bad : Bool) : Nat :=
  if bad then 2 ^ 64 - 1 + (checkBits (BitVec.ofNat 64 (2 ^ 64 - 1)) ^^^ 0xFF).toNat * 2 ^ 64
  else d.toNat + (checkBits d).toNat * 2 ^ 64

/-! ### Granules with damage (19 R458 to R461) -/

/-- The syndrome of a granule whose stored bits differ from its encoding in `flips`. -/
def syndromeOf (flips : BitVec 72) : Nat := columnSum flips.toNat

/-- What a reader makes of the granule that held `d`, with some of its 72 bits inverted. -/
def struck (d : W64) (flips : BitVec 72) : Codeword :=
  let v := granuleWord d false ^^^ flips.toNat
  Codeword.of (BitVec.ofNat 64 v) (BitVec.ofNat 8 (v / 2 ^ 64))

/-- The position of a corrected bit: the lower one of a pair. -/
def fixedAt (flips : BitVec 72) : Nat := ((correction (syndromeOf flips)).getD []).headD 0xFF

/-- The syndromes that neither are clean or poison nor are corrected. -/
def uncorrectables : List Nat := (List.range 255).filter (fun y => y ≠ 0 && (correction y).isNone)

/-- An uncorrectable syndrome, which draw `v` chooses. -/
def someUncorrectable (v : Nat) : Nat := uncorrectables.getD (v % uncorrectables.length) 0

/-- A position and the syndrome of a corrected error at it, of one bit or of two adjacent ones, which draw `v` chooses. -/
def someCorrected (v : Nat) : Nat × Nat :=
  let p := v / 2 % 72
  let one := Tab.val 0 columns p
  if bit v 0 && p < 71 then (p, one ^^^ Tab.val 0 columns (p + 1)) else (p, one)

end Sys2Proof.Machine
end

