-- ==== Sys2Proof/Machine/Erg.lean ====
section
/-! DEFINITION. Erg blocks and decoding tables (07 R143 to R161). -/

namespace Sys2Proof.Machine

/-! ### Decoding tables (07 R146 to R148) -/

/-- A decoding table: the 64 entries of its image, in order; absent entries are 0. -/
abbrev Image := List Nat

/-- The table with every entry absent (07 R162). -/
def Image.absent : Image := []

def Image.entry (t : Image) (e : Nat) : Nat := t.getD e 0

def entPresent (x : Nat) : Bool := bit x 12
def entLen (x : Nat) : Nat := bits x 8 4
def entValue (x : Nat) : Nat := bits x 0 8

/-- The image of a 128-byte table (07 R146). -/
def Image.ofBytes (bs : List Byte) : Image :=
  (List.range 64).map (fun e => leNat ((bs.drop (2 * e)).take 2))

def kraft (t : Image) : Nat :=
  (t.map (fun x => if entPresent x && entLen x ≠ 0 then 2 ^ (10 - entLen x) else 0)).foldl (· + ·) 0

/-- Validation of a table image (07 R148). -/
def Image.valid (t : Image) : Bool :=
  t.all (fun x =>
    bits x 13 3 == 0
      && !(entLen x != 0 && !entPresent x)
      && entLen x ≤ 10
      && !(entPresent x && (entValue x == 0x7F || entValue x == 0xFF))
      && (entPresent x || entValue x == 0))
    && kraft t ≤ 1024

/-- A code word: its length, its bits and its entry number. -/
structure CodeWord where
  len  : Nat
  code : Nat
  ent  : Nat
  deriving DecidableEq, Repr

/-- The entries of one length, in ascending entry number (07 R147). -/
def codesOfLen (t : Image) (len first : Nat) : List CodeWord :=
  let es := (List.range 64).filter (fun e => entPresent (t.entry e) && entLen (t.entry e) == len)
  es.mapIdx (fun i e => { len := len, code := first + i, ent := e })

/-- Canonical assignment from the lengths (07 R147). -/
def codeWordsFrom (t : Image) : Nat → Nat → Nat → List CodeWord
  | 0, _, _ => []
  | n + 1, len, first =>
    let cs := codesOfLen t len first
    cs ++ codeWordsFrom t n (len + 1) ((first + cs.length) * 2)

def codeWords (t : Image) : List CodeWord := codeWordsFrom t 10 1 0

/-! ### Blocks (07 R143 to R145, R149 to R152) -/

def ergValues (f : Nat) : Nat := match f with | 9 => 240 | 10 => 160 | _ => 120
def ergSyms (f : Nat) : Nat := ergValues f / 4
def ergWidth (f : Nat) : Nat := match f with | 9 => 2 | 10 => 3 | _ => 4

structure Block where
  scale   : Nat
  slot    : Nat
  mode    : Nat
  check   : Nat
  payload : Nat
  deriving DecidableEq, Repr

def Block.ofBytes (bs : List Byte) : Block :=
  let x := leNat bs
  { scale := bits x 0 8, slot := bits x 8 4, mode := bits x 12 4, check := bits x 16 16, payload := bits x 32 480 }

/-- The bits of sub-stream `i` in ascending bit number (07 R145). -/
def Block.sub (b : Block) (i : Nat) : List Bool :=
  (List.range 120).map (fun k => bit b.payload (120 * i + k))

def crcStep (crc : Nat) (b : Bool) : Nat :=
  let f := bit crc 15 != b
  let c := crc * 2 % 65536
  if f then c ^^^ 0x8BB7 else c

/-- The check value over the 496 message bits, started from the format code (07 R152). -/
def Block.crc (b : Block) (f : Nat) : Nat :=
  let head := b.scale + b.slot * 256 + b.mode * 4096
  let c := (List.range 16).foldl (fun c i => crcStep c (bit head i)) f
  (List.range 480).foldl (fun c i => crcStep c (bit b.payload i)) c

/-- Why a sub-stream or block fails: the cause codes of 07 R151. -/
inductive SubOut where
  | ok (ents : List Nat)
  | fail (cause : Nat)
  deriving DecidableEq, Repr

/-- What reading one code gives. -/
inductive CodeOut where
  | sym (ent : Nat) (rest : List Bool)
  | unassigned
  | overrun
  deriving DecidableEq, Repr

def isPrefix (cw : CodeWord) (len v : Nat) : Bool := len < cw.len && cw.code >>> (cw.len - len) == v

/-- Reads one code, leading bit first. Bits that no assigned code begins with are unassigned; running out of bits
inside a code is an overrun (07 R151). -/
def readCode (cws : List CodeWord) : List Bool → Nat → Nat → CodeOut
  | [], _, _ => .overrun
  | b :: r, len, v =>
    let len := len + 1
    let v := 2 * v + b2n b
    match cws.find? (fun c => c.len == len && c.code == v) with
    | some c => .sym c.ent r
    | none => if cws.any (fun c => isPrefix c len v) then readCode cws r len v else .unassigned

def readCodes (cws : List CodeWord) : Nat → List Bool → List Nat → SubOut
  | 0, rest, acc => if rest.any (fun b => b) then .fail 4 else .ok acc.reverse
  | n + 1, bs, acc =>
    match readCode cws bs 0 0 with
    | .sym e r => readCodes cws n r (e :: acc)
    | .unassigned => .fail 2
    | .overrun => .fail 3

def msbNat (bs : List Bool) : Nat := bs.foldl (fun a b => 2 * a + b2n b) 0

def readFlat (t : Image) (w : Nat) : Nat → List Bool → List Nat → SubOut
  | 0, _, acc => .ok acc.reverse
  | n + 1, bs, acc =>
    let e := msbNat (bs.take w)
    if entPresent (t.entry e) then readFlat t w n (bs.drop w) (e :: acc) else .fail 2

def decodeSub (t : Image) (f mode : Nat) (bs : List Bool) : SubOut :=
  if mode = 1 then readFlat t (ergWidth f) (ergSyms f) bs []
  else if mode = 2 then readCodes (codeWords t) (ergSyms f) bs []
  else if bs.any (fun b => b) then .fail 4 else .ok []

/-- A decoded block: its values as FP8 E4M3 codes with the scale, or the failing check. -/
inductive BlockOut where
  | vals (scale : Nat) (vs : List Nat)
  | bad (cause sub : Nat)
  deriving DecidableEq, Repr

def failCause : SubOut → Option Nat
  | .ok _ => none
  | .fail c => some c

/-- The lowest cause among the sub-streams and the lowest-numbered sub-stream that shows it. -/
def worstSub : List SubOut → Nat → Option (Nat × Nat)
  | [], _ => none
  | x :: r, i =>
    match failCause x, worstSub r (i + 1) with
    | none, y => y
    | some c, none => some (c, i)
    | some c, some (d, j) => if c ≤ d then some (c, i) else some (d, j)

def subEnts : SubOut → List Nat
  | .ok l => l
  | .fail _ => []

/-- Value w is symbol w div 4 of sub-stream w mod 4 (07 R145). -/
def weave (subs : List (List Nat)) (n : Nat) : List Nat :=
  (List.range n).map (fun w => (subs.getD (w % 4) []).getD (w / 4) 0)

/-- Decodes and checks one block with the table `t` of its slot (07 R149, R151). A cause that no sub-stream shows names
sub-stream 0 (DESIGN CHOICE, log 168). -/
def decodeBlock (t : Image) (f : Nat) (b : Block) : BlockOut :=
  if b.mode ≥ 3 || (b.mode = 2 && f = 12) then .bad 1 0
  else
    let subs := (List.range 4).map (fun i => decodeSub t f b.mode (b.sub i))
    match worstSub subs 0 with
    | some (c, i) => .bad c i
    | none =>
      if b.crc f ≠ b.check then .bad 5 0
      else if b.mode = 0 then .vals b.scale (List.replicate (ergValues f) 0)
      else .vals b.scale ((weave (subs.map subEnts) (ergValues f)).map (fun e => entValue (t.entry e)))

/-- The values of a block as the reader sees them: E4M3 code and scale; NaN for a failing block (07 R153). -/
def BlockOut.values (f : Nat) : BlockOut → List (Nat × Nat)
  | .vals s vs => vs.map (fun v => (v, s))
  | .bad _ _ => List.replicate (ergValues f) (0x7F, 127)

/-! ### Packing (07 R161) -/

def tableVals (t : Image) : List Fp := (List.range 16).map (fun e => fE4M3.dec (entValue (t.entry e)))

/-- Entries 0 to 15 all present and at least one nonzero (07 R161). -/
def packable (t : Image) : Bool :=
  (List.range 16).all (fun e => entPresent (t.entry e)) && (tableVals t).any (fun x => !x.isZero)

/-- Whether |x - a| is strictly smaller than |x - b|. -/
def closer (x a b : Fp) : Bool := ((x.add a.flip).mag).lt ((x.add b.flip).mag)

/-- The index of the nearest entry; a tie goes to the lower index. -/
def nearest (x : Fp) : List Fp → Nat → Nat → Fp → Nat
  | [], _, best, _ => best
  | y :: r, i, best, bv => if closer x y bv then nearest x r (i + 1) i y else nearest x r (i + 1) best bv

def nearestIdx (t : Image) (x : Fp) : Nat :=
  match tableVals t with
  | [] => 0
  | y :: r => nearest x r 1 0 y

/-- The 512-bit number of a flat Erg-K4 block of 120 indices. -/
def flatBlock (scale slot : Nat) (idx : List Nat) : Nat :=
  let sub (i : Nat) : List Bool :=
    ((List.range 30).map (fun k =>
      let v := idx.getD (4 * k + i) 0
      [bit v 3, bit v 2, bit v 1, bit v 0])).flatten
  let pay := ((List.range 4).map (fun i => sub i)).flatten
  let payload := (pay.mapIdx (fun i b => b2n b <<< i)).foldl (· + ·) 0
  let b : Block := { scale := scale, slot := slot, mode := 1, check := 0, payload := payload }
  scale + slot * 256 + 4096 + b.crc 12 * 65536 + payload * 2 ^ 32

/-- Packs 120 values into a flat Erg-K4 block with its flags (07 R161). -/
def packBlock (t : Image) (slot : Nat) (xs : List Fp) : Fl (List Byte) :=
  if xs.any (fun x => x.isNan || x.isInf) then
    { v := leBytes 64 (flatBlock 255 slot []), f := if xs.any Fp.isInf then Flags.sat else Flags.none }
  else
    let emax := match maxLog2 (tableVals t) with | some l => l | none => 0
    let X := blockExp emax xs
    .pure (leBytes 64 (flatBlock (X + 127).toNat slot (xs.map (fun x => nearestIdx t (x.scale (-X))))))

end Sys2Proof.Machine
end

