-- ==== Sys2Proof/Machine/State.lean ====
section
/-! DEFINITION. The state of the block, as plain data; why a step can stop; and the state after reset. INVENTORY.md
lists every field with the rule that names it and its reset value. -/

namespace Sys2Proof.Machine

/-- No command of this block ends in a fault: the spec gives every command an effect. The type has no value. -/
inductive Fault where
  deriving DecidableEq, Repr

/-- Why a step is refused. -/
inductive Refusal where
  /-- The command has no meaning yet: raised by its arm of `exec` and by nothing else; safe, because the machine
  stops. -/
  | notModelled (mnemonic : String)
  deriving DecidableEq, Repr

/-! ### One core's running context -/

/-- A loop record (12 R280): counter, byte offset of the first body word, E. -/
structure LoopRec where
  ctr  : Nat
  body : Nat
  fin  : Nat
  deriving DecidableEq, Repr

/-- The live-map entry that `sq.live` selected (04 R92): index, accumulator extent, scratchpad ranges. -/
structure LiveSel where
  index  : Nat
  accExt : Nat
  ranges : List (Nat × Nat)
  deriving DecidableEq, Repr

/-- What an instruction can read when it issues (12 R271), what a save holds and what a group captures (04 R67, R86). -/
structure Regs where
  s     : Tab W64
  a     : Tab (W64 × W64)
  l     : Tab W32
  vl    : W32
  vlReq : W64
  m     : Tab W64
  flags : Flags
  key   : W64
  lane  : Bool
  step  : W32
  seq   : W32
  layer : W16
  op    : W16
  phase : BitVec 3
  live  : Option LiveSel
  loops : List LoopRec
  xs    : Tab (List PByte)
  pc    : Nat
  deriving DecidableEq, Repr

/-- A scoreboard tag: 256-byte granules `lo` to `hi - 1`, direction, holder (04 R78). -/
structure Tag where
  no    : Nat
  lo    : Nat
  hi    : Nat
  write : Bool
  owner : Nat
  deriving DecidableEq, Repr

/-- An instruction that has issued to an engine, with the registers it read (04 R74, 12 R271). -/
structure Issued where
  id    : Nat
  group : Nat
  eng   : Engine
  instr : Instr
  regs  : Regs
  /-- The memories outside the own scratchpad that it accesses, as a mask (11 R252, R253). -/
  stks : Nat
  /-- How many instructions that end a continuation the core had issued before it (07 R159). -/
  brk : Nat
  /-- The core's open step at its issue: STEP[23:0] and REPEAT (16 R394). -/
  step : Option (Nat × Nat)
  deriving DecidableEq, Repr

/-- A queued or running `cl.reduce` of this core until every element of its result has landed (16 R395). -/
structure OwnRed where
  id    : Nat
  jg    : Nat
  kidx  : Nat
  step  : Nat
  rep   : Nat
  n     : Nat
  ofmt  : Nat
  dst   : Nat
  /-- The memories outside the own scratchpad that the result lies in, as a mask (11 R253). -/
  stks  : Nat
  /-- Shards that have not landed whole, with the elements still to land. -/
  left  : List (Nat × Nat)
  /-- The results that have come, with their addresses: they land together, so that a step repeat finds an input in
  the same range unchanged (13 R321). -/
  got   : List (Nat × List Byte)
  deriving DecidableEq, Repr

/-- The captured state of a group opening or a `cl.step` marker (04 R86, 13 R322, 19 R466): registers, then the
current image and generation of each expander slot, numbered expander × 16 + slot. -/
structure Capture where
  regs   : Regs
  tables : List (Nat × Image × Nat)
  deriving DecidableEq, Repr

/-- What holds the issue of every later instruction. -/
inductive Hold where
  | clear
  /-- `sy.wait` (13 R315): destination, object (none for a foreign handle), target, EQ, expiry tick, FT, and the tick at
  which the instruction executed. -/
  | wait (sD : BitVec 5) (obj : Option (Nat × Nat)) (target : W32) (eq : Bool) (expiry : Option Nat) (ft : Bool) (since : Nat)
  /-- `sy.qput` (13 R317): region, queue, scratchpad address, bytes, cells sent. -/
  | qput (r q va len sent : Nat)
  /-- `sy.qget`: destination register, region, queue, scratchpad address, most bytes, cells of the packet written. -/
  | qget (sD : BitVec 5) (r q va most got : Nat)
  /-- `cl.timesync` (13 R323): destination register, ports still awaited, neighbours measured. -/
  | timesync (sD : BitVec 5) (left : List Nat) (done : Nat)
  deriving DecidableEq, Repr

/-- One bank of the weight latches of all 16 cells (05 R96, R100): element codes in place, their scales, format, tier
and path. `none` for an empty bank. -/
structure Latch where
  fmt    : Nat
  tier   : Tier
  int    : Bool
  codes  : Tab Nat
  scales : Tab Nat
  deriving DecidableEq, Repr

/-- A tile of 16 rows by 64 columns (05 R111). -/
structure Tile where
  int  : Bool
  vals : List W32
  deriving DecidableEq, Repr

/-- A tile that a drain has still to read: the drain's instruction, the first of its entries, the row pitch (05 R111). -/
structure DrainTile where
  id    : Nat
  first : Nat
  pitch : Nat
  deriving DecidableEq, Repr

/-- A table slot: two banks, which is current, and the generation (07 R162). -/
structure TblSlot where
  bankA : Image
  bankB : Image
  cur   : Bool
  gen   : Nat
  deriving DecidableEq, Repr

/-- A `dm.tbl` inside an expander (07 R163): held while the other bank is pinned, else written and waiting to become
current. -/
structure TblLoad where
  slot  : Nat
  image : Image
  held  : Bool
  id    : Nat
  deriving DecidableEq, Repr

/-- A block in an expander queue or on its way into it (only 16, in the stream queue 4, are inside at once): what it decodes to, its address, and the bank it pins (07 R156, R162). -/
structure Blk where
  id    : Nat
  addr  : Nat
  slot  : Nat
  gen   : Nat
  pin   : Option Bool
  out   : BlockOut
  bad   : Bool
  da    : Bool
  layer : W16
  op    : W16
  deriving DecidableEq, Repr

structure Expander where
  slots  : Tab TblSlot
  queue  : List Blk
  stream : List Blk
  load   : Option TblLoad
  deriving DecidableEq, Repr

/-- The value after the core's previous Erg `mx.wld` (07 R159): block address, value number, format, and what the
block shared with a continuation holds. -/
structure ErgPos where
  /-- The load's instruction id. -/
  id   : Nat
  addr : Nat
  val  : Nat
  fmt  : Nat
  out  : BlockOut
  brk  : Nat
  deriving DecidableEq, Repr

/-- The open step of a core (13 R322): number, window, KIDX per job group, captured state. -/
structure OpenStep where
  num    : W32
  window : W32
  kidx   : Tab Nat
  rep    : Nat
  cap    : Capture
  lanes  : List Nat
  /-- The id of the first instruction after the marker. -/
  mark   : Nat
  /-- JOIN-caused retries received since the last one acted on: sending rank, job group and KIDX packed (16 R400,
  R407). -/
  joins  : List Nat
  /-- The REPEATs whose STEP_RETRY has been acted on (16 R400). -/
  acted  : List Nat
  /-- The repeats made for JOINs, counted on from the partition's count of JOINs as the step opened (16 R407). -/
  joined : Nat
  deriving DecidableEq, Repr

/-- A core's running context: everything that a save covers (04 R90, 15 R369, R370). -/
structure Exec where
  regs     : Regs
  groupNo  : Nat
  sp       : Ram
  acc      : Tab W32
  /-- By accumulator entry: the id of the run that last wrote it, times 2, plus 1 for the integer path (05 R111). -/
  accBy    : Tab Nat
  form     : Nat
  bankA    : Option Latch
  bankB    : Option Latch
  active   : Bool
  tileQ    : List Tile
  /-- Tiles of drains that wait for room in the queue: their accumulator entries have not been read (05 R112, R113). -/
  drains   : List DrainTile
  /-- Tiles that the oldest vector instruction has taken from the queue while it waits for the rest (06 R124). -/
  taken    : List Tile
  ex       : Tab Expander
  /-- The table shadow of the save area: the images that the context's completed `dm.tbl` loaded, by slot (07 R164). -/
  shadow   : Tab Image
  tags     : List Tag
  nextTag  : Nat
  nextId   : Nat
  /-- Instructions issued that end a continuation (07 R159). -/
  breaks   : Nat
  queue    : List Issued
  inflight : List Issued
  hold     : Hold
  /-- The expiry tick of a `sy.wait` that a save interrupted, for its execution after the restore (13 R316). -/
  savedE   : Option Nat
  /-- The tick from which the scoreboard watchdog counts (04 R82). -/
  watch    : Nat
  /-- `cl.put` writes whose bytes have not all been sent: instruction, destination rank, MSGSEQ (13 R320). -/
  puts     : List (Nat × Nat × Nat)
  reds     : List OwnRed
  step     : Option OpenStep
  cap      : Option Capture
  setvl    : Option Regs
  ergPos   : Option ErgPos
  /-- The ids of the `at.dec` after the last Erg load whose pages held Erg blocks (07 R159). -/
  decs     : List Nat
  /-- The tick at which an instruction of this core last completed (20 R479). -/
  progress : Nat
  deriving DecidableEq, Repr

/-! ### Physical cores -/

/-- STATE of CORE_STATUS (19 R474). -/
inductive CoreSt where
  | active | spare | fenced | testing | failed
  deriving DecidableEq, Repr

/-- What the sequencer does (04 R76, R89). -/
inductive RunSt where
  | idle | running | stopped | halted
  deriving DecidableEq, Repr

/-- An event of a ring: event word and stamp word (21 R492). -/
abbrev Ev := W64 × W64

structure PCore where
  st      : CoreSt
  logical : Nat
  ue      : Nat
  ce      : Nat
  result  : Nat
  scrub   : Bool
  /-- A fence on CE_LIMIT, or a test of an ACTIVE core, that waits for the context to stop (19 R465, R470). -/
  moveOut : Option Bool
  inPlace : Bool
  /-- A test that follows the fence on CE_LIMIT (19 R470). -/
  testNext : Bool
  /-- Corrected errors by millisecond, of the last 1,000 ms (19 R465). -/
  ceWin   : List (Nat × Nat)
  ring    : List Ev
  ctx     : Option Nat
  run     : RunSt
  cache   : List (Nat × Nat × List PByte)
  stretch : Bool
  x       : Exec
  deriving DecidableEq, Repr

/-! ### Contexts -/

/-- The states of 15 R354. -/
inductive CtxSt where
  | free | idle | ready | running | stopping | saving | saved | restoring
  deriving DecidableEq, Repr

/-- Group g of a context (04 R83, R84, 15 R358). `opened` and `closed` hold ranks. -/
structure Group where
  deadline : Nat
  implicit : Bool
  opened   : List Nat
  closed   : List Nat
  missed   : Bool
  since    : Nat
  deriving DecidableEq, Repr

/-- An accepted submission record (15 R357). -/
structure Acc where
  sub  : SubRec
  tick : Nat
  /-- The deadline of this RUN expired while it waited behind other records (15 R362). -/
  missed : Bool
  /-- The energy attributed to the context at the acceptance, in femtojoules (18 R456). -/
  energy : Nat
  deriving DecidableEq, Repr

/-- The RUN that a context executes (04 R91, R94, 15 R358, 17 R427). -/
structure Run where
  sub      : SubRec
  tick     : Nat
  energy   : Nat
  deadline : Nat
  implicit : Bool
  missed   : Bool
  status   : Nat
  formats  : Nat
  code     : Nat
  codeSize : Nat
  liveMap  : Nat
  liveSize : Nat
  started  : Bool
  groups   : Tab Group
  deriving DecidableEq, Repr

/-- One core's saved image (04 R90, 15 R369). -/
structure SavedCore where
  x      : Exec
  ranges : List (Nat × Nat)
  accExt : Nat
  run    : RunSt
  vlmax  : Nat
  lanes  : List Nat
  /-- The image was replaced by its capture slot, so the open group restarts (19 R469). -/
  fenced : Bool
  deriving DecidableEq, Repr

/-- What a context keeps on a core from one RUN to the next (02 R38, 03 R58, 04 R70). -/
structure Kept where
  flags : Flags
  key   : W64
  lane  : Bool
  step  : W32
  seq   : W32
  deriving DecidableEq, Repr

structure Ctx where
  st       : CtxSt
  part     : Nat
  cores    : List Nat
  saveBase : Nat
  sqBase   : Nat
  cqBase   : Nat
  sqLog2   : Nat
  vector   : Nat
  irqMode  : Nat
  policy   : Nat
  head     : Nat
  tail     : Nat
  cqIndex  : Nat
  cqHead   : Nat
  cqPhase  : Bool
  reserved : Nat
  accepted : List Acc
  /-- How many of the accepted records a reset in progress ends (17 R426, 20 R482). -/
  resetCut : Nat
  run      : Option Run
  /-- A WAIT record in the signal store (14 R345): object, target, EQ, expiry. -/
  hostWait : Option (Option (Nat × Nat) × W32 × Bool × Option Nat)
  /-- A TIMESYNC record in progress: ports awaited, neighbours measured. -/
  hostSync : Option (List Nat × Nat)
  selected : Bool
  preempt  : Bool
  resetting : Bool
  restart  : Bool
  saved    : Tab SavedCore
  /-- By logical core. -/
  kept     : Tab Kept
  prefs    : Tab Nat
  progEn   : Bool
  progWin  : Nat
  progTick : Nat
  counters : Tab W64
  /-- Activity attributed to the context, by class × 8 + operating point (18 R454, R455). -/
  acts     : Tab Nat
  usedCl   : Bool
  deriving DecidableEq, Repr

/-! ### Partitions and jobs -/

/-- STATE of PART_MEM (17). -/
inductive PartSt where
  | unused | active | releasing | released
  deriving DecidableEq, Repr

/-- A job group (16 R388): members in group-rank order, own index, REDUCE_PORT. -/
structure JobGroup where
  members : List Nat
  index   : Nat
  port    : Nat
  deriving DecidableEq, Repr

/-- What a module holds of another member (16 R403 to R406). -/
structure Member where
  epoch : Nat
  dead  : Option Nat
  lost  : Bool
  deriving DecidableEq, Repr

structure Job where
  size    : Nat
  rank    : Nat
  tag     : Nat
  epoch   : Nat
  spray   : Bool
  adapt   : Bool
  window  : Nat
  rejoin  : Nat
  groups  : Tab JobGroup
  routes  : Tab Nat
  /-- Destination MAC addresses by rank (R388). -/
  macs    : Tab Nat
  members : Tab Member
  deriving DecidableEq, Repr

/-- The writes of one source core that have landed (16 R392): every lower number, and numbers landed ahead. -/
structure Landed where
  next  : Nat
  ahead : List Nat
  deriving DecidableEq, Repr

/-- A remote write that is arriving (11 R265, R267, 16 R392): source rank, source core, MSGSEQ, FIN, where it begins and
ends once its first and last flits have come, the bytes that have come, and those of a FIN write, which are held. -/
structure Inbound where
  src   : Nat
  score : Nat
  seq   : Nat
  fin   : Bool
  first : Option Nat
  stop  : Option Nat
  n     : Nat
  bytes : List (Nat × List PByte)
  deriving DecidableEq, Repr

structure Part where
  st        : PartSt
  mapped    : Nat
  key       : Key
  salt      : W64
  release   : Nat
  zeroing   : List Nat
  lastAlloc : Nat
  job       : Option Job
  landed    : Tab Landed
  held      : List Inbound
  earlySig  : List (Nat × Nat × Nat × Nat)
  /-- The reductions that the module has started within an open step, by step number and job group (16 R394). -/
  stepReds  : Tab (Tab Nat)
  /-- JOINs accepted from members of the job's groups (16 R405, R407). -/
  joins     : Nat
  /-- MSGSEQ and the count of writes not acknowledged, by source core × 4,096 + destination rank (16 R392). -/
  msgseq    : Tab Nat
  unacked   : Tab Nat
  wells     : Tab TblSlot
  counters  : Tab W64
  /-- The sum of its contexts' activity since power-on, and its energy when the partition was created, in femtojoules
  (18 R456). -/
  acts      : Tab Nat
  energy0   : Nat
  violations : Nat
  violLog   : Nat × Nat
  traceCarry : Nat
  deriving DecidableEq, Repr

/-! ### Regions, stks, ports -/

/-- A signal update that has been issued and not applied (13 R314, 14 R344): region object, value, set or add, the
physical core that made it. -/
structure Upd where
  obj  : Nat
  val  : W32
  set  : Bool
  core : Option Nat
  /-- The id of the sy instruction; its release waits for accesses of lower id on that core (11 R256). An update
  from a SIGNAL record has 1 while the record waits for it, else 0. -/
  id   : Nat
  ctx  : Nat
  /-- It has left its source for the store: its release conditions are met (11 R256). -/
  sent : Bool
  deriving DecidableEq, Repr

/-- A cell of a region's pool that a queue holds (14 R329, R332): its number, its 256 bytes, how many of them the packet
uses, whether a packet begins in it, the end-of-packet mark and the ABORTED mark. -/
structure QCell where
  no      : Nat
  first   : Bool
  data    : List PByte
  used    : Nat
  last    : Bool
  aborted : Bool
  deriving DecidableEq, Repr

/-- A queue (14 R330 to R342): the linked list of its cells, the oldest first. -/
structure Que where
  en      : Bool
  part    : Nat
  prod    : Nat
  cons    : Nat
  cap     : Nat
  cells   : List QCell
  /-- Cells at the head that have been consumed and that C does not count yet (R333, R337). -/
  owed    : Nat
  /-- Packets before the flush boundary, while a flush is requested (R338). -/
  flush   : Option Nat
  disable : Bool
  /-- The bound producer or consumer has left the partition: no core reaches that end until a new binding (R342). -/
  prodCut : Bool
  consCut : Bool
  w       : Nat
  c       : Nat
  wSeen   : Nat
  cSeen   : Nat
  deriving DecidableEq, Repr

structure Region where
  sig      : Tab W32
  sigBy    : Tab Nat
  updates  : List Upd
  /-- The latest tick in which an update was applied, the objects and contexts of those applied in it, and the objects
  found damaged in it (19 R461). -/
  sigTick  : Nat
  sigUpds  : List (Nat × Nat)
  sigGone  : List Nat
  queues   : Tab Que
  /-- The tick of the latest core fault here, and the highest core that faulted in it (19 R469). -/
  lastFault : Option (Nat × Nat)
  /-- The pool's free list: the cells that queues have returned, and the first of those that none has held (R329). -/
  freed    : List Nat
  virgin   : Nat
  ring     : List Ev
  droops   : W64
  meshBusy : W64
  /-- Operating point and throttle level in force (18 R439, R441). -/
  point    : Nat
  level    : Nat
  /-- The faster point to which the rail rises or has risen, whose clock change is still to come; whether the rail stands
  there; and the tick of the latest step (18 R440, R443). -/
  held     : Option Nat
  settled  : Bool
  stepTick : Nat
  /-- The cap loop's ceiling (18 R445), and the thermal ceiling and level with the ticks of their latest steps
  (18 R450). -/
  capPt    : Nat
  thermPt  : Nat
  thermLv  : Nat
  hotTick  : Nat
  coolTick : Option Nat
  fast     : Bool
  pll      : Bool
  waking   : Bool
  idleTick : Option Nat
  droopTick : Option Nat
  temp     : Nat
  deriving DecidableEq, Repr

/-- A request that a stack's wells hold (10 R223, R227): physical core, instruction id, partition, the wells that have
still to work for it, and the table banks that its blocks pin (07 R165), as slot and bank. -/
structure WellReq where
  core  : Nat
  id    : Nat
  part  : Nat
  wells : List Nat
  pins  : List (Nat × Bool)
  deriving DecidableEq, Repr

structure Stk where
  selfRef  : Bool
  waking   : Bool
  /-- Current point, the cap loop's ceiling, and the point of 10 R239 with its marks and ticks. -/
  wpoint   : Nat
  ceil     : Nat
  thermPt  : Nat
  throttle : Bool
  idleHot  : Bool
  hotTick  : Nat
  coolTick : Option Nat
  temp     : Nat
  /-- Every second slot idle by the fast current limiter (18 R448). -/
  fastIdle : Bool
  rows     : Nat
  banks    : Nat
  spares   : Nat
  /-- The slot map in force, the slot, and the round-robin pointer (10 R226, R227). -/
  mapNow   : Tab W64
  slot     : Nat
  ptr      : Nat
  reqs     : List WellReq
  /-- The row that patrol scrub reads next (10 R234). By row, the ticks of passes that corrected an error there; by
  bank, the rows with errors in this pass, and the rows retired; banks retired or being copied (10 R235). -/
  scrubRow : Nat
  rowErrs  : Tab (List Nat)
  passErrs : Tab (List Nat)
  rowsBank : Tab Nat
  gone     : List Nat
  copying  : List Nat
  idleTick : Nat
  ifBursts : W64
  wellBursts : W64
  deriving DecidableEq, Repr

/-- A flit of a contribution (16 R383): element offset in the shard, number of arrival, LAST, payload. -/
structure RedFlit where
  off   : Nat
  arr   : Nat
  last  : Bool
  bytes : List Byte
  deriving DecidableEq, Repr

/-- What a reduction unit holds of one member's contribution; `bad` marks one that is discarded (16 R396, 19 R464). -/
structure Contrib where
  member : Nat
  flits  : List RedFlit
  bad    : Bool
  deriving DecidableEq, Repr

/-- The parameters of a reduction, as this module's own `cl.reduce` gives them (13 R321, 16 R396). -/
structure RedSpec where
  n    : Nat
  rop  : Nat
  ifmt : Nat
  ofmt : Nat
  ord  : Bool
  sat  : Bool
  deriving DecidableEq, Repr

/-- A reduction in a port's unit (16 R394 to R399): window start and length, whether it is suspended, flits received,
chunks done. One that holds no contribution remembers the REPEAT that an abandoned one goes on with; its REPEAT is 4 when
none does. -/
structure Reduction where
  part   : Nat
  jg     : Nat
  kidx   : Nat
  step   : Nat
  rep    : Nat
  spec   : Option RedSpec
  start  : Nat
  length : Nat
  frozen : Bool
  got    : List Contrib
  seen   : Nat
  done   : List Nat
  deriving DecidableEq, Repr

/-- A flit in a replay buffer or waiting to be sent: type, channel, the partition it is sent for, and the path. -/
structure TxFlit where
  ty   : Nat
  chan : Nat
  part : Nat
  path : Nat
  flit : Flit
  deriving DecidableEq, Repr

/-- One end of a sequenced path (16 R384, R385): to the port at the other end of the cable, or in the Ethernet modes to
one remote interface. -/
structure Link where
  replay  : List TxFlit
  lseq    : Nat
  expect  : Nat
  nakAck  : Nat
  nakRun  : Nat
  /-- NAK is to be returned with the next flit. -/
  nak     : Bool
  credits : Tab Nat
  /-- Credits to return, by channel. -/
  owed    : Tab Nat
  /-- Credits of the reduction channel that the reduction unit of a port withholds, one entry for each (16 R397). -/
  withheld : List Nat
  deriving DecidableEq, Repr

/-- A round of a link port (15 R371): units used, reserved units used by partition, whether step 2 has begun, and the
partition that took the last unit of that step. -/
structure Turns where
  used   : Nat
  res    : Tab Nat
  shared : Bool
  last   : Nat
  deriving DecidableEq, Repr

structure Port where
  lanes    : Nat
  up       : Bool
  training : Bool
  crc      : Nat
  replays  : Nat
  tsValid  : Bool
  tsDelay  : Nat
  tsOffset : W32
  /-- The paths, by the address of the remote interface and the local interface; 0 for the one of a cable. -/
  links    : Tab Link
  waiting  : List TxFlit
  round    : Turns
  paused   : Bool
  reds     : List Reduction
  /-- A time exchange in progress: t1, and the tick from which its 10 ms count (16 R401, 13 R323). -/
  syncT1   : Option W64
  syncAt   : Nat
  discarded : Nat
  pauses   : Nat
  /-- Frames dropped: of another EtherType, with a part of a flit, with a bad FCS (16 R380). -/
  foreign  : Nat
  partials : Nat
  badFcs   : Nat
  txFlits  : W64
  rxFlits  : W64
  ring     : List Ev
  deriving DecidableEq, Repr

/-! ### Pages, errors, hangs -/

/-- An allocated page by its first frame: frames and share count (09 R193). -/
structure Frame where
  frames : Nat
  count  : Nat
  deriving DecidableEq, Repr

/-- A prefix-directory entry (09 R198): its way in its set, and the KiB that its record takes (R199). -/
structure DirEnt where
  way  : Nat
  hash : W64
  addr : Nat
  tick : Nat
  kib  : Nat
  deriving DecidableEq, Repr

/-- Damage that no read has met yet (19 R458). -/
structure Upset where
  spot  : Spot
  flips : BitVec 72
  deriving DecidableEq, Repr

/-- An error record (19 R473). -/
structure ErrRec where
  w0 : W64
  w1 : W64
  w2 : W64
  w3 : W64
  deriving DecidableEq, Repr

/-- The error ring (19 R472) with the counts of the second in progress and its coalesced excess (21 R506). -/
structure ErrRing where
  recs    : Tab ErrRec
  head    : Nat
  tail    : Nat
  dropped : Nat
  second  : Nat
  count   : Nat
  seen    : List (Nat × Nat × Nat)
  excess  : List ErrRec
  deriving DecidableEq, Repr

/-- The blocked units of the wait-for graph (20 R475, R490). -/
structure Node where
  core : Nat
  unit : Nat
  deriving DecidableEq, Repr

/-- An edge, with its WAIT code, its object and the tick at which it formed or last progressed (20 R475, R477). -/
structure Edge where
  src  : Node
  dst  : Node
  wait : Nat
  obj  : Nat
  tick : Nat
  mark : Nat
  deriving DecidableEq, Repr

structure Hang where
  reports : Nat
  last    : Nat
  slots   : Tab (List W64)
  edges   : List Edge
  deriving DecidableEq, Repr

/-! ### Belvedere -/

/-- An image slot of the flash (22 R509, R513, R514): it holds an image; its bytes as delivered are gone; consecutive boots
that failed; the bytes written since. -/
structure Slot where
  valid : Bool
  wiped : Bool
  fails : Nat
  data  : Tab Byte
  deriving DecidableEq, Repr

/-- The states of a firmware update (22 R516). -/
inductive UpdSt where
  | idle | learn | ready | download | verify | apply | activate
  deriving DecidableEq, Repr

/-- An alarm entry (21 R506): kind, unit, count, latest tick, unread. -/
structure Alarm where
  kind   : Nat
  unit   : Nat
  count  : Nat
  tick   : Nat
  unread : Bool
  deriving DecidableEq, Repr

/-- A crash dump (20 R488, R489): cause, tick, units read, the units that were unreachable. -/
structure Dump where
  cause  : Nat
  tick   : Nat
  units  : Nat
  silent : List Nat
  /-- What each unit that answered held, by its place in the order of reading. -/
  body   : List (Nat × List W64)
  deriving DecidableEq, Repr

/-- An entry of the persistent log (22 R512). -/
inductive LogEnt where
  | error (r : ErrRec)
  | violation (part ctx unit kind addr : Nat)
  | failedCore (c : Nat)
  | alarm (a : Alarm)
  | dump (d : Dump)
  | firmware (what slot : Nat)
  /-- A restart command before its conditions held (18 R453). -/
  | restartDiscarded
  /-- A claim that the management port has forced free (22 R524). -/
  | forcedRelease (res : Nat)
  deriving DecidableEq, Repr

/-- An entry with its tick, and how many of its bytes have still to be written (21 R507, 22 R512). -/
structure Logged where
  ent  : LogEnt
  tick : Nat
  left : Nat
  deriving DecidableEq, Repr

/-- A side-band or mailbox answer: message type, command, completion code, and the body's bytes. -/
structure Answer where
  ty   : Nat
  cmd  : Nat
  code : Nat
  body : List Byte
  deriving DecidableEq, Repr

structure Belv where
  slotA    : Slot
  slotB    : Slot
  activeB  : Bool
  running  : Bool
  /-- Both images failed: Belvedere stays in boot ROM (22 R514). -/
  rom      : Bool
  bootTick : Nat
  /-- The security version of the image that runs (22 R515). -/
  runVer   : Nat
  /-- An activated image has not booted yet (22 R516). -/
  newImage : Bool
  /-- A restart of the processor is still to be written to the log (22 R510). -/
  restarted : Bool
  minVer   : Nat
  /-- The SRAM of 2 MiB and the configuration store of 1 MiB (22 R509). -/
  sram     : Tab Byte
  store    : Tab Byte
  upd      : UpdSt
  log      : List Logged
  /-- Entries that wait for the log, and the bytes that the interval's entries and the management port's reads have
  taken (21 R507). -/
  logWait  : List Logged
  logUsed  : Nat
  logRead  : Nat
  alarms   : List Alarm
  dumps    : List Dump
  /-- Readings in thousandths of their unit (22 R511; DESIGN CHOICE, log 68). -/
  sensors  : Tab (Option Int)
  eid      : Nat
  dynAddr  : Option Nat
  /-- SPDM: version, capabilities and algorithms done (22 R519). -/
  spdm     : Nat
  claims   : Tab Nat
  claimRes : Nat
  claimId  : Nat
  mboxReq  : Tab Byte
  mboxRsp  : List Byte
  mboxLen  : Nat
  badLen   : Bool
  discarded : Nat
  answers  : List (Path × Answer)
  /-- Pulses given on each GPIO pin by timers: their number and the tick of the latest (22 R525). -/
  pulses   : Tab (Nat × Nat)
  tap      : TapTarget
  /-- EXTEST, CLAMP or HIGHZ has taken effect, and the TAP has not returned to Test-Logic-Reset (23 R537). -/
  tapHold  : Bool
  irqs     : Nat
  deriving DecidableEq, Repr

/-! ### Power and device -/

structure Pwr where
  /-- Steps that stage 3 of the cap loop has taken down: T is 8 minus this (18 R445). -/
  capT       : Nat
  unreach    : Bool
  evalTick   : Nat
  /-- PWR_ALARM's bits. -/
  alarm      : Nat
  stopped    : Bool
  brake      : Bool
  brakeTick  : Nat
  fabric     : Bool
  fabricWake : Bool
  fabricIdle : Option Nat
  pInput     : Nat
  unattr     : W64
  /-- The attributed energy up to the latest comparison with the input, in microjoules (18 R455). -/
  billed     : Nat
  capDowns   : W64
  deriving DecidableEq, Repr

/-- STATE of DEV_STATUS (17). -/
inductive DevSt where
  | starting | ready | recovering | powerStop
  deriving DecidableEq, Repr

structure Dev where
  st        : DevSt
  /-- The AON clock runs: the input has been good since its last loss (18 R430, 23 R526). -/
  aon       : Bool
  stage     : Nat
  stages    : List StartStage
  readyMs   : Nat
  portsUp   : Nat
  failed    : Nat
  bootSlot  : Nat
  t0        : Nat
  recStage  : Nat
  recCount  : Nat
  recCause  : Nat
  recStarts : List Nat
  recStart  : Bool
  /-- Context, record, DETAIL bits and ENERGY of the records that wait for the end of recovery (20 R486). -/
  unposted  : List (Nat × SubRec × Nat × Nat)
  perstN    : Bool
  flowN     : Bool
  throttleN : Bool
  pwrGood   : Bool
  moduleId  : Nat
  swClosed  : Bool
  inputOk   : Bool
  linkTrain : Bool
  linkUp    : Bool
  hcmdBusy  : Bool
  hcmdRej   : Bool
  hcmdWhy   : Nat
  xlatPart  : Option (Nat × Nat × List W64)
  records   : W64
  /-- The partition whose record the dispatcher read last (15 R357). -/
  lastPart  : Nat
  dumpHold  : Bool
  tracePend : Nat
  aer       : Nat
  /-- The configuration space of the PF and the VFs and their MSI-X tables, by function × 2^16 + offset; the vectors that
  host software has masked, and of these the ones that are pending (17 R409, R429, 20 R484). -/
  config    : Tab W64
  masked    : List Nat
  irqWaits  : List Nat
  deriving DecidableEq, Repr

/-! ### The whole block -/

structure State where
  pending : List Instr
  free    : Nat
  time    : Nat
  dev     : Dev
  pf      : Tab W64
  vf      : Tab W64
  owners  : Tab Nat
  cores   : Tab PCore
  ctxs    : Tab Ctx
  parts   : Tab Part
  regions : Tab Region
  stks  : Tab Stk
  ports   : Tab Port
  wellEv  : Tab (List Ev)
  mem     : Ram
  /-- Bits that storage holds otherwise than as they were written, until a read meets them (R233, R461; the model's own form). -/
  upsets  : List Upset
  unitKey : Tab Key
  frames  : Tab Frame
  dirs    : Tab (List DirEnt)
  err     : ErrRing
  hang    : Hang
  belv    : Belv
  pwr     : Pwr
  host    : Tab Byte
  msix    : List Nat
  rdata : List Byte
  deriving DecidableEq, Repr

/-! ### Reset values -/

def Regs.zero : Regs :=
  { s := [], a := [], l := [], vl := 0, vlReq := 0, m := [], flags := Flags.none, key := 0, lane := false, step := 0
    seq := 0, layer := 0, op := 0, phase := 0, live := none, loops := [], xs := [], pc := 0 }

def TblSlot.absent : TblSlot := { bankA := [], bankB := [], cur := false, gen := 0 }

def Expander.empty : Expander := { slots := [], queue := [], stream := [], load := none }

def Exec.zero : Exec :=
  { regs := Regs.zero, groupNo := 0, sp := Ram.zero, acc := [], accBy := [], form := 0, bankA := none, bankB := none
    active := false, tileQ := [], drains := [], taken := [], ex := [], shadow := [], tags := [], nextTag := 0, nextId := 0, breaks := 0, queue := []
    inflight := [], hold := .clear, savedE := none, watch := 0, puts := [], reds := [], step := none, cap := none, setvl := none, ergPos := none, decs := [], progress := 0 }

/-- A physical core after reset: the fuses make indices 64 and 65 of each region its spares (15 of 01_architecture;
DESIGN CHOICE, log 6). -/
def PCore.fused (c : Nat) : PCore :=
  { st := if c % 66 < 64 then .active else .spare, logical := if c % 66 < 64 then c / 66 * 64 + c % 66 else 0
    ue := 0, ce := 0, result := 0, scrub := false, moveOut := none, inPlace := false, testNext := false, ceWin := [], ring := []
    ctx := none, run := .idle, cache := [], stretch := false, x := Exec.zero }

def Ctx.fresh : Ctx :=
  { st := .free, part := 0, cores := [], saveBase := 0, sqBase := 0, cqBase := 0, sqLog2 := 0, vector := 0
    irqMode := 0, policy := 0, head := 0, tail := 0, cqIndex := 0, cqHead := 0, cqPhase := true, reserved := 0
    accepted := [], resetCut := 0, run := none, hostWait := none, hostSync := none, selected := false, preempt := false
    resetting := false, restart := false, saved := [], kept := [], prefs := [], progEn := false, progWin := 1000
    progTick := 0, counters := [], acts := [], usedCl := false }

def Key.initial (p : Nat) : Key := { data := .generated (2 * p), tweak := .generated (2 * p + 1) }

/-- A partition's record before its creation; partition 0 exists from reset (15 R348, R349). -/
def Part.fresh (p : Nat) : Part :=
  { st := if p = 0 then .active else .unused, mapped := 0, key := Key.initial p, salt := 0, release := 0
    zeroing := [], lastAlloc := 15, job := none, landed := [], held := [], earlySig := [], stepReds := [], joins := 0, msgseq := [], unacked := [], wells := [], counters := [], acts := [], energy0 := 0
    violations := 0, violLog := (0, 0), traceCarry := 0 }

def Que.fresh : Que :=
  { en := false, part := 0, prod := 0, cons := 0, cap := 0, cells := [], owed := 0, flush := none, disable := false, prodCut := false
    consCut := false, w := 0, c := 0, wSeen := 0, cSeen := 0 }

def Region.fresh : Region :=
  { sig := [], sigBy := [], updates := [], sigTick := 0, sigUpds := [], sigGone := [], queues := [], lastFault := none, freed := [], virgin := 0, ring := [], droops := 0, meshBusy := 0, point := 7
    level := 8, held := none, settled := false, stepTick := 0, capPt := 0, thermPt := 0, thermLv := 8, hotTick := 0, coolTick := none
    fast := false, pll := false, waking := false, idleTick := none, droopTick := none, temp := 0 }

def Stk.fresh : Stk :=
  { selfRef := false, waking := false, wpoint := 0, ceil := 0, thermPt := 0, throttle := false, idleHot := false
    hotTick := 0, coolTick := none, temp := 0, fastIdle := false, rows := 0, banks := 0, spares := 64, mapNow := []
    slot := 0, ptr := 0, reqs := [], scrubRow := 0, rowErrs := [], passErrs := [], rowsBank := [], gone := []
    copying := [], idleTick := 0, ifBursts := 0, wellBursts := 0 }

def Link.fresh : Link :=
  { replay := [], lseq := 0, expect := 0, nakAck := 0, nakRun := 0, nak := false, credits := [], owed := [], withheld := [] }

def Turns.fresh : Turns := { used := 0, res := [], shared := false, last := 0 }

def Port.fresh : Port :=
  { lanes := 0, up := false, training := false, crc := 0, replays := 0, tsValid := false, tsDelay := 0, tsOffset := 0
    links := [], waiting := [], round := Turns.fresh, paused := false
    reds := [], syncT1 := none, syncAt := 0, discarded := 0, pauses := 0, foreign := 0, partials := 0, badFcs := 0, txFlits := 0, rxFlits := 0, ring := [] }

def ErrRing.empty : ErrRing :=
  { recs := [], head := 0, tail := 0, dropped := 0, second := 0, count := 0, seen := [], excess := [] }

def Belv.fresh : Belv :=
  { slotA := { valid := true, wiped := false, fails := 0, data := [] }, slotB := { valid := true, wiped := false, fails := 0, data := [] }
    activeB := false, running := false, rom := false, bootTick := 0, runVer := 0, newImage := false, restarted := false, minVer := 0
    sram := [], store := [], upd := .idle
    log := [], logWait := [], logUsed := 0, logRead := 0, alarms := [], dumps := [], sensors := [], eid := 0, dynAddr := none, spdm := 0
    claims := [], claimRes := 0, claimId := 0, mboxReq := [], mboxRsp := [], mboxLen := 0, badLen := false
    discarded := 0, answers := [], pulses := [], tap := .testLogicReset, tapHold := false
    irqs := 0 }

def Pwr.fresh : Pwr :=
  { capT := 0, unreach := false, evalTick := 0, alarm := 0, stopped := false, brake := false, brakeTick := 0
    fabric := false, fabricWake := false, fabricIdle := none, pInput := 0, unattr := 0, billed := 0, capDowns := 0 }

def Dev.fresh : Dev :=
  { st := .starting, aon := false, stage := 0, stages := [], readyMs := 0, portsUp := 0, failed := 0, bootSlot := 0, t0 := 0
    recStage := 0, recCount := 0, recCause := 0, recStarts := [], recStart := false, unposted := [], perstN := false
    flowN := true, throttleN := true, pwrGood := false, moduleId := 0, swClosed := true, inputOk := false
    linkTrain := false, linkUp := false, hcmdBusy := false, hcmdRej := false, hcmdWhy := 0, xlatPart := none
    records := 0, lastPart := 255, dumpHold := false, tracePend := 0, aer := 0, config := [], masked := [], irqWaits := [] }

/-- The block right after reset: input present, before power good (23 R526). -/
def State.reset : State :=
  { pending := [], free := 0, time := 0, dev := Dev.fresh, pf := [], vf := [], owners := [], cores := [], ctxs := []
    parts := [], regions := [], stks := [], ports := [], wellEv := [], mem := Ram.zero, upsets := [], unitKey := [], frames := []
    dirs := [], err := ErrRing.empty, hang := { reports := 0, last := 0, slots := [], edges := [] }
    belv := Belv.fresh, pwr := Pwr.fresh, host := [], msix := [], rdata := [] }

end Sys2Proof.Machine
end

