-- ==== Sys2Proof/Machine/Xts.lean ====
section
/-! DEFINITION. AES-256-XTS, the encryption of stack data (10 R231): the cipher of FIPS 197 and the mode of IEEE 1619,
over lists of byte values. -/

namespace Sys2Proof.Machine

/-! ### The field of the cipher -/

/-- Doubles a byte modulo x^8 + x^4 + x^3 + x + 1. -/
def aesDouble (b : Nat) : Nat := if b < 128 then 2 * b else (2 * b) ^^^ 0x11B

/-- The product of two bytes, by the `n` low bits of the second. -/
def aesTimes (a : Nat) : Nat → Nat → Nat
  | 0, _ => 0
  | n + 1, b => (if b % 2 = 1 then a else 0) ^^^ aesTimes (aesDouble a) n (b / 2)

/-- The inverse of a byte, 0 for 0. -/
def aesInverse (a : Nat) : Nat := ((List.range 256).find? (fun x => aesTimes a 8 x = 1)).getD 0

def rotl8 (b n : Nat) : Nat := (b * 2 ^ n) % 256 + b / 2 ^ (8 - n)

def aesSub (b : Nat) : Nat :=
  let i := aesInverse b
  i ^^^ rotl8 i 1 ^^^ rotl8 i 2 ^^^ rotl8 i 3 ^^^ rotl8 i 4 ^^^ 0x63

def aesUnsub (b : Nat) : Nat := ((List.range 256).find? (fun x => aesSub x = b)).getD 0

/-! ### Rounds -/

def xorBytes (a b : List Nat) : List Nat := List.zipWith (fun x y => x ^^^ y) a b

/-- Row `r` of the block moves by `k r` columns. -/
def aesShift (k : Nat → Nat) (l : List Nat) : List Nat :=
  (List.range 16).map (fun i => l.getD ((i / 4 + k (i % 4)) % 4 * 4 + i % 4) 0)

/-- Multiplies each column by the circulant matrix with first row `m`. -/
def aesMix (m : List Nat) (l : List Nat) : List Nat :=
  (List.range 16).map (fun i => (List.range 4).foldl (fun a j =>
    a ^^^ aesTimes (l.getD (i / 4 * 4 + j) 0) 8 (m.getD ((j + 4 - i % 4) % 4) 0)) 0)

def aesKeyCore (rcon : Nat) (w : List Nat) : List Nat :=
  xorBytes ((w.drop 1 ++ w.take 1).map aesSub) [rcon, 0, 0, 0]

/-- Word `i` of the key schedule from the words before it. -/
def aesKeyWord (ws : List (List Nat)) (i : Nat) : List Nat :=
  let t := ws.getD (i - 1) []
  let t := if i % 8 = 0 then aesKeyCore (Nat.iterate aesDouble (i / 8 - 1) 1) t
    else if i % 8 = 4 then t.map aesSub else t
  xorBytes (ws.getD (i - 8) []) t

def groups4 (l : List Nat) : List (List Nat) := (List.range (l.length / 4)).map (fun i => (l.drop (4 * i)).take 4)

/-- The 15 round keys of a 32-byte key. -/
def aesKeys (key : List Nat) : List (List Nat) :=
  let ws := (List.range 52).foldl (fun ws i => ws ++ [aesKeyWord ws (i + 8)]) (groups4 key)
  (List.range 15).map (fun r => ((ws.drop (4 * r)).take 4).flatten)

def aesRound (l k : List Nat) : List Nat := xorBytes (aesMix [2, 3, 1, 1] (aesShift id (l.map aesSub))) k

def aesUnround (l k : List Nat) : List Nat :=
  (aesShift (fun r => 4 - r) (aesMix [14, 11, 13, 9] (xorBytes l k))).map aesUnsub

/-- Encrypts a block of 16 bytes. -/
def aesEncrypt (ks : List (List Nat)) (b : List Nat) : List Nat :=
  let l := ((ks.drop 1).take 13).foldl aesRound (xorBytes b (ks.getD 0 []))
  xorBytes (aesShift id (l.map aesSub)) (ks.getD 14 [])

def aesDecrypt (ks : List (List Nat)) (b : List Nat) : List Nat :=
  let l := (aesShift (fun r => 4 - r) (xorBytes b (ks.getD 14 []))).map aesUnsub
  xorBytes (((ks.drop 1).take 13).reverse.foldl aesUnround l) (ks.getD 0 [])

/-! ### The mode -/

/-- Bytes of a number, least significant first. -/
def numBytes (n v : Nat) : List Nat := (List.range n).map (fun i => v / 256 ^ i % 256)

def bytesNum (l : List Nat) : Nat := l.foldr (fun b a => b + 256 * a) 0

/-- The tweak of block `j` of a data unit. -/
def xtsTweak (t : Nat) : Nat → Nat
  | 0 => t
  | j + 1 =>
    let u := xtsTweak t j
    if u < 2 ^ 127 then 2 * u else (2 * u) % 2 ^ 128 ^^^ 0x87

/-- Runs `f` on each 16-byte block of a unit between the two additions of its tweak. -/
def xtsUnit (f : List Nat → List Nat) (t : Nat) (bs : List Nat) : List Nat :=
  ((List.range (bs.length / 16)).map (fun j =>
    let w := numBytes 16 (xtsTweak t j)
    xorBytes (f (xorBytes ((bs.drop (16 * j)).take 16) w)) w)).flatten

/-- The bytes of a half of a key pair: its words and their bytes are taken least significant first (17 R421; DEDUCED,
log 163). Those of a generated half are free. -/
def halfBytes (h : KeyHalf) : List Nat :=
  numBytes 32 (match h with
    | .generated n => (Config.keyBits n).toNat
    | .given k => k.toNat)

/-- The tweak of a unit: its number, encrypted under the tweak key. -/
def keyTweak (k : Key) (unit : Nat) : Nat := bytesNum (aesEncrypt (aesKeys (halfBytes k.tweak)) (numBytes 16 unit))

def keyEncrypt (k : Key) (unit : Nat) (bs : List Nat) : List Nat :=
  xtsUnit (aesEncrypt (aesKeys (halfBytes k.data))) (keyTweak k unit) bs

def keyDecrypt (k : Key) (unit : Nat) (bs : List Nat) : List Nat :=
  xtsUnit (aesDecrypt (aesKeys (halfBytes k.data))) (keyTweak k unit) bs

/-- Byte `i` of a 64-byte unit that the keys `writer` encrypted, as the keys `reader` decrypt it (10 R232). -/
def crossKey (writer reader : Key) (unit : Nat) (bytes : List Byte) (i : Nat) : Byte :=
  BitVec.ofNat 8 ((keyDecrypt reader unit (keyEncrypt writer unit (bytes.map BitVec.toNat))).getD i 0)

end Sys2Proof.Machine
end

