-- ==== Sys2Proof/Machine/Ops.lean ====
section
/-! DEFINITION. Named operations over the state: its parts, registers, stack memory under keys, translation,
violations, events, trace, error records and alarms. -/

namespace Sys2Proof.Machine

/-! ### Parts of the state -/

def State.core (s : State) (c : Nat) : PCore := (Tab.at? s.cores c).getD (PCore.fused c)
def State.setCore (s : State) (c : Nat) (p : PCore) : State := { s with cores := Tab.put s.cores c p }
def State.onCore (s : State) (c : Nat) (f : PCore → PCore) : State := s.setCore c (f (s.core c))
def State.ctx (s : State) (n : Nat) : Ctx := (Tab.at? s.ctxs n).getD Ctx.fresh
def State.setCtx (s : State) (n : Nat) (x : Ctx) : State := { s with ctxs := Tab.put s.ctxs n x }
def State.onCtx (s : State) (n : Nat) (f : Ctx → Ctx) : State := s.setCtx n (f (s.ctx n))
def State.part (s : State) (p : Nat) : Part := (Tab.at? s.parts p).getD (Part.fresh p)
def State.setPart (s : State) (p : Nat) (x : Part) : State := { s with parts := Tab.put s.parts p x }
def State.onPart (s : State) (p : Nat) (f : Part → Part) : State := s.setPart p (f (s.part p))
def State.region (s : State) (r : Nat) : Region := (Tab.at? s.regions r).getD Region.fresh
def State.setRegion (s : State) (r : Nat) (x : Region) : State := { s with regions := Tab.put s.regions r x }
def State.onRegion (s : State) (r : Nat) (f : Region → Region) : State := s.setRegion r (f (s.region r))
def State.stack (s : State) (k : Nat) : Stk := (Tab.at? s.stks k).getD Stk.fresh
def State.setStack (s : State) (k : Nat) (x : Stk) : State := { s with stks := Tab.put s.stks k x }
def State.onStack (s : State) (k : Nat) (f : Stk → Stk) : State := s.setStack k (f (s.stack k))
def State.port (s : State) (p : Nat) : Port := (Tab.at? s.ports p).getD Port.fresh
def State.setPort (s : State) (p : Nat) (x : Port) : State := { s with ports := Tab.put s.ports p x }
def State.onPort (s : State) (p : Nat) (f : Port → Port) : State := s.setPort p (f (s.port p))

/-- The running context's state on a physical core. -/
def State.x (s : State) (c : Nat) : Exec := (s.core c).x
def State.setX (s : State) (c : Nat) (x : Exec) : State := s.onCore c (fun p => { p with x := x })
def State.onX (s : State) (c : Nat) (f : Exec → Exec) : State := s.setX c (f (s.x c))
def State.regs (s : State) (c : Nat) : Regs := (s.x c).regs
def State.onRegs (s : State) (c : Nat) (f : Regs → Regs) : State :=
  s.onX c (fun x => { x with regs := f x.regs })

/-- A free value's number, and the state that has used it. -/
def State.drawn (s : State) : State := { s with free := s.free + 1 }

/-- DEVTIME interpolated to 1 ns (01 R17). -/
def State.nowNs (s : State) : Nat := s.time + (Config.interpolated s.free).val

/-- The next partition after `last` in round-robin order. -/
def nextAfter (last : Nat) (ps : List Nat) : Option Nat :=
  ((List.range 256).map (fun i => (last + 1 + i) % 256)).find? (fun p => ps.contains p)

/-- The physical core that serves a logical core (01 R15). -/
def State.phys (s : State) (l : Nat) : Option Nat :=
  (List.range 66).map (fun i => l / 64 * 66 + i)
    |>.find? (fun c => ((s.core c).st = .active || (s.core c).inPlace) && (s.core c).logical = l)

/-- The owner of a logical core (17, CORE_OWNER). -/
def State.owner (s : State) (l : Nat) : Option Nat := Tab.at? s.owners l

/-! ### Registers (00_scope R8; addresses of 17 R411, R412) -/

/-- The value after reset of a PF register that holds one. -/
def pfReset (off : Nat) : W64 :=
  if 0x4000 ≤ off && off < 0x8000 then
    (if off % 0x40 = 0 then 0x320040 else if off % 0x40 = 0x38 then 0x3FFF else 0)
  else if 0x10000 ≤ off && off < 0x19000 && off % 0x800 = 0 then 0x81
  else if 0x20000 ≤ off && off < 0x30000 && off % 0x1000 = 0 then 0xA0108
  else if 0x40000 ≤ off && off < 0x61000 && off % 0x200 = 0 then 0x4000
  else if off = 0x1300 then 100
  else if off = 0x20 then 2
  else if off = 0x300000 then 2
  else if off = 0x2000 then 2400
  else if off = 0x2008 then 0x6400
  else 0

def State.pfReg (s : State) (off : Nat) : W64 := (Tab.at? s.pf off).getD (pfReset off)
def State.setPf (s : State) (off : Nat) (v : W64) : State := { s with pf := Tab.put s.pf off v }
def State.vfReg (s : State) (fn off : Nat) : W64 := (Tab.at? s.vf (fn * 0x100000 + off)).getD 0
def State.setVf (s : State) (fn off : Nat) (v : W64) : State :=
  { s with vf := Tab.put s.vf (fn * 0x100000 + off) v }

/-- A field of a register's value. -/
def fld (v : W64) (lo n : Nat) : Nat := bits v.toNat lo n

/-- A register's value with one field replaced. -/
def setFld (v : W64) (lo n x : Nat) : W64 :=
  BitVec.ofNat 64 (v.toNat - (fld v lo n) * 2 ^ lo + (x % 2 ^ n) * 2 ^ lo)

/-- Register `i` of partition `p`'s record (17). -/
def partReg (p i : Nat) : Nat := 0x4000 + p * 0x40 + 8 * i
def State.partCtrl (s : State) (p : Nat) : W64 := s.pfReg (partReg p 0)
/-- The SEAL bit of a partition's record. -/
def State.sealBit (s : State) (p : Nat) : Bool := p ≠ 0 && (s.partCtrl p).getLsbD 0
/-- A sealed partition, while it exists; the record of an unused one seals nothing (10 R240). -/
def State.sealed (s : State) (p : Nat) : Bool :=
  s.sealBit p && ((s.part p).st = .active || (s.part p).st = .releasing)
/-- RES_SHARE, at most 32 (15 R348). -/
def State.resShare (s : State) (p : Nat) : Nat := min (fld (s.partCtrl p) 8 6) 32
def State.beHorizon (s : State) (p : Nat) : Nat :=
  let v := fld (s.partCtrl p) 16 10
  (if v = 0 then 1 else if v > 1000 then 1000 else v) * 1000000
def State.formats (s : State) (p : Nat) : Nat :=
  if p = 0 then 0x3FFF else fld (s.pfReg (partReg p 7)) 0 14

/-! ### The persistent log (21 R507, 22 R512) -/

/-- The order of service: alarm entries, error records, violation records, crash dumps. The firmware's own events come
before the dumps (DESIGN CHOICE, log 162). -/
def LogEnt.rank : LogEnt → Nat
  | .alarm _ => 0
  | .error _ => 1
  | .violation _ _ _ _ _ => 2
  | .dump _ => 4
  | _ => 3

def LogEnt.bytes : LogEnt → Nat
  | .error _ => 32
  | e => Config.logBytes e.rank

/-- What stays when older entries are replaced: the list of FAILED cores, and the dumps that are kept. -/
def LogEnt.stays (dumps : List Dump) : LogEnt → Bool
  | .failedCore _ => true
  | .dump d => dumps.contains d
  | _ => false

/-- Replaces the oldest entries, until `n` bytes have room. -/
def dropOldest (dumps : List Dump) : Nat → List Logged → List Logged
  | _, [] => []
  | n, x :: r =>
    if n = 0 then x :: r
    else if x.ent.stays dumps then x :: dropOldest dumps n r
    else dropOldest dumps (n - x.ent.bytes) r

/-- The log holds 64 MiB. -/
def trimLog (dumps : List Dump) (l : List Logged) : List Logged :=
  dropOldest dumps (l.foldl (fun a x => a + x.ent.bytes) 0 - 0x4000000) l

/-- Writes waiting entries with `n` bytes: those written, those that still wait, and the bytes left. -/
def serveLog : Nat → List Logged → List Logged × List Logged × Nat
  | n, [] => ([], [], n)
  | n, x :: r =>
    if x.left ≤ n then
      let q := serveLog (n - x.left) r
      ({ x with left := 0 } :: q.1, q.2)
    else ([], { x with left := x.left - n } :: r, 0)

def waitLog (x : Logged) : List Logged → List Logged
  | [] => [x]
  | y :: r => if x.ent.rank < y.ent.rank then x :: y :: r else y :: waitLog x r

/-- An entry joins those that wait; an alarm entry of a kind and unit that waits already gives way to its later self
(21 R506). -/
def joinLog (x : Logged) (l : List Logged) : List Logged :=
  match x.ent with
  | .alarm a =>
    let same (y : Logged) : Bool := match y.ent with
      | .alarm b => b.kind = a.kind && b.unit = a.unit
      | _ => false
    if l.any same then l.map (fun y => if same y then { y with ent := x.ent, tick := x.tick } else y) else waitLog x l
  | _ => waitLog x l

/-- Writes with what the interval of 10 ms has left: 40,000 bytes but for the fifth that is reserved for reads. -/
def Belv.writeLog (b : Belv) : Belv :=
  let q := serveLog (32000 - b.logUsed) b.logWait
  { b with log := trimLog b.dumps (b.log ++ q.1), logWait := q.2.1, logUsed := 32000 - q.2.2 }

/-- The interval ends: what the management port left of its share serves the entries that wait, and the next interval
begins (DESIGN CHOICE for the moment, log 162). -/
def Belv.nextInterval (b : Belv) : Belv :=
  let q := serveLog (8000 - b.logRead) b.logWait
  { b with log := trimLog b.dumps (b.log ++ q.1), logWait := q.2.1, logUsed := 0, logRead := 0 }.writeLog

/-- An entry for the persistent log: it waits for the end of the tick, where alarms go first (21 R508). -/
def Belv.logEntry (b : Belv) (e : LogEnt) (now : Nat) : Belv :=
  { b with logWait := joinLog { ent := e, tick := now, left := e.bytes } b.logWait }

/-- Cores join the list of FAILED cores. -/
def Belv.logFailed (b : Belv) (l : List Nat) (now : Nat) : Belv := l.foldl (fun b c => b.logEntry (.failedCore c) now) b

def State.logIn (s : State) (e : LogEnt) : State := { s with belv := s.belv.logEntry e s.time }

/-! ### Alarms and error records (19 R472, R473, 21 R506) -/

/-- One alarm entry for each kind and unit: a repeat counts up. -/
def alarmAdd (l : List Alarm) (kind unit tick : Nat) : List Alarm :=
  if l.any (fun a => a.kind = kind && a.unit = unit) then
    l.map (fun a => if a.kind = kind && a.unit = unit then { a with count := a.count + 1, tick := tick, unread := true } else a)
  else l ++ [{ kind := kind, unit := unit, count := 1, tick := tick, unread := true }]

/-- The alarm entry kind of a record of CLASS fatal (DESIGN CHOICE, log 52). -/
def alarmFatal : Nat := 8

/-- Keeps an alarm entry, for the log as it stands now. -/
def State.alarm (s : State) (kind unit : Nat) : State :=
  let l := alarmAdd s.belv.alarms kind unit s.time
  let s : State := { s with belv := { s.belv with alarms := l } }
  (l.filter (fun a => a.kind = kind && a.unit = unit)).head?.elim s (fun a => s.logIn (.alarm a))

/-- The fields of an error record (19 R473). -/
structure ErrIn where
  ty    : Nat
  cls   : Nat
  cause : Nat
  unit  : Nat
  part  : Nat
  aux   : Nat
  slot  : Nat
  ctx   : Option Nat
  layer : W16
  op    : W16
  addr  : Nat
  extra : Nat
  deriving DecidableEq, Repr

def ErrIn.plain (ty cls cause unit addr : Nat) : ErrIn :=
  { ty := ty, cls := cls, cause := cause, unit := unit, part := 0, aux := 0xFF, slot := 0, ctx := none, layer := 0
    op := 0, addr := addr, extra := 0 }

def ErrIn.words (e : ErrIn) (tick : Nat) : ErrRec :=
  { w0 := BitVec.ofNat 64 (e.ty + e.cls * 2 ^ 8 + e.slot * 2 ^ 10 + e.cause * 2 ^ 16 + e.unit * 2 ^ 24
      + e.part * 2 ^ 40 + e.aux * 2 ^ 48)
    w1 := BitVec.ofNat 64 (e.ctx.getD 0 + b2n e.ctx.isSome * 2 ^ 12 + e.layer.toNat * 2 ^ 16 + e.op.toNat * 2 ^ 32
      + 2 ^ 48)
    w2 := BitVec.ofNat 64 (e.addr % 2 ^ 48 + (e.extra % 2 ^ 16) * 2 ^ 48)
    w3 := BitVec.ofNat 64 tick }

/-- Whether two records name one unit and CAUSE. -/
def sameUnit (a b : ErrRec) : Bool :=
  fld a.w0 0 10 = fld b.w0 0 10 && fld a.w0 16 24 = fld b.w0 16 24

def excessAdd (l : List ErrRec) (r : ErrRec) : List ErrRec :=
  if l.any (sameUnit r) then
    l.map (fun a => if sameUnit r a then { a with w1 := setFld a.w1 48 16 (min (fld a.w1 48 16 + fld r.w1 48 16) 65535) } else a)
  else l ++ [r]

def ErrRing.full (e : ErrRing) : Bool := (e.head + 1) % 64 = e.tail

def ErrRing.push (e : ErrRing) (r : ErrRec) : ErrRing := { e with recs := Tab.put e.recs e.head r, head := (e.head + 1) % 64 }

/-- Writes a record into the ring; one that comes while the ring is full is counted, and joins the summaries (19 R472,
21 R506). Belvedere keeps a copy of each. -/
def State.pushRec (s : State) (r : ErrRec) : State :=
  let e := s.err
  let s := s.logIn (.error r)
  if e.full then
    { s with err := { e with dropped := min (e.dropped + 1) 0xFFFFFFFF, excess := excessAdd e.excess r } }
  else { s with err := e.push r }

/-- Summaries enter the ring; those that find it full wait for room. -/
def State.pushRecs (s : State) : List ErrRec → State
  | [] => s
  | r :: rs =>
    if s.err.full then { s with err := { s.err with excess := s.err.excess ++ r :: rs } }
    else (({ s with err := s.err.push r } : State).logIn (.error r)).pushRecs rs

/-- A new second writes the summaries of the excess of the last one (21 R506). -/
def State.errRoll (s : State) : State :=
  if s.err.second = s.time / 1000000000 then s
  else
    let x := s.err.excess
    let s := { s with err := { s.err with second := s.time / 1000000000, count := 0, seen := [], excess := [] } }
    s.pushRecs x

/-- Records an error within the rates of 21 R506; a fatal record is an alarm as well. -/
def State.logError (s : State) (e : ErrIn) : State :=
  let s := s.errRoll
  let r := e.words s.time
  let excess := if e.cls = 0 then s.err.seen.any (fun k => k = (e.ty, e.unit, e.cause)) else s.err.count ≥ 4096
  let s := if e.cls = 2 then s.alarm alarmFatal e.unit else s
  if excess then { s with err := { s.err with excess := excessAdd s.err.excess r } }
  else
    let s := { s with err := { s.err with
      count := if e.cls = 0 then s.err.count else s.err.count + 1
      seen := if e.cls = 0 then (e.ty, e.unit, e.cause) :: s.err.seen else s.err.seen } }
    s.pushRec r

/-- `n` corrected errors of one kind: one record at most in the second, and the rest in the summary of its excess
(21 R506). -/
def State.logCorrected (s : State) (e : ErrIn) (n : Nat) : State :=
  if n = 0 then s
  else
    let s := s.logError e
    if n = 1 then s
    else
      let r := e.words s.time
      { s with err := { s.err with excess := excessAdd s.err.excess { r with w1 := setFld r.w1 48 16 (min (n - 1) 65535) } } }

/-- A dropped write's record (19 R473, CAUSE 0x0E). -/
def State.writeDropped (s : State) (off : Nat) : State := s.logError (.plain 8 1 0x0E 0 off)

/-! ### Damage that a read meets (10 R233, 19 R458 to R461) -/

def regionOf (c : Nat) : Nat := c / 66

/-- The record of damage that a granule's check has found, corrected or not. -/
def State.damageRec (s : State) (ty unit addr : Nat) (u : Upset) (ok : Bool) : State :=
  s.logError { ErrIn.plain ty (b2n !ok) (if ok then 1 else 2) unit addr with
    aux := if ok then fixedAt u.flips else 0xFF, extra := syndromeOf u.flips }

def State.dropUpset (s : State) (u : Upset) : State := { s with upsets := s.upsets.erase u }

/-- The stack that holds a physical address (10 R211). -/
def stackOf (pa : Nat) : Nat := pa / 2 ^ 36 % 16

/-- What a read makes of a granule of stack memory with damage: corrected and written back, or marked poisoned (10 R233). -/
def State.settleGranule (s : State) (u : Upset) (g : Nat) : Codeword → State
  | .clean v => { s with mem := s.mem.write (8 * g) (clean (leBytes 8 v.toNat)) }
  | .corrected v =>
    ({ s with mem := s.mem.write (8 * g) (clean (leBytes 8 v.toNat)) } : State).damageRec 5 (stackOf (8 * g)) (8 * g) u true
  | .poison => { s with mem := s.mem.write (8 * g) (List.replicate 8 (0xFF, true)) }
  | .uncorrectable =>
    ({ s with mem := s.mem.write (8 * g) (List.replicate 8 (0xFF, true)) } : State).damageRec 5 (stackOf (8 * g)) (8 * g) u false

/-- A granule of stack memory with damage is read. -/
def State.meetGranule (s : State) (u : Upset) (g : Nat) : State :=
  let s := s.dropUpset u
  if s.mem.bad (8 * g) then s
  else s.settleGranule u g (struck (BitVec.ofNat 64 (leNat ((List.range 8).map (fun i => s.mem.get (8 * g + i))))) u.flips)

/-- The granule of stack memory that damage stands in. -/
def Upset.granule (u : Upset) : Option Nat :=
  match u.spot with
  | .mem g => some g
  | _ => none

def State.meetAll (s : State) : List Upset → State
  | [] => s
  | u :: r => (match u.granule with
      | some g => s.meetGranule u g
      | none => s).meetAll r

/-- Damage within `[a, a + n)` of stack memory. -/
def Upset.within (a n : Nat) (u : Upset) : Bool := u.granule.any (fun g => 8 * g < a + n && a < 8 * g + 8)

/-- A read of `[a, a + n)` of stack memory meets the damage there. -/
def State.meet (s : State) (a n : Nat) : State := s.meetAll (s.upsets.filter (Upset.within a n))

/-- A write of `[a, a + n)` replaces damage in whole granules, and meets it in a granule that it writes in part. -/
def State.overwrite (s : State) (a n : Nat) : State :=
  let whole (u : Upset) : Bool := u.granule.any (fun g => wholeGranule a n (8 * g))
  ({ s with upsets := s.upsets.filter (fun u => !whole u) } : State).meet a n

/-- An unresolved granule of `[a, a + n)` that a read would find uncorrectable. -/
def State.struckBad (s : State) (a n : Nat) : Bool :=
  (s.upsets.filter (Upset.within a n)).any (fun u => (correction (syndromeOf u.flips)).isNone && syndromeOf u.flips ≠ 0)

/-- The unit type and number that damage in flight is recorded under. -/
def Upset.unit (u : Upset) : Nat × Nat :=
  match u.spot with
  | .mem g => (5, stackOf (8 * g))
  | .cell r _ _ => (3, r)
  | .sig r _ => (3, r)
  | .iface k => (5, k)
  | .mesh r => (3, r)
  | .die r => (4, r)

/-- What the place that checks a granule makes of the `n` bytes of it from byte `o` on: corrected, or going on as poisoned
(19 R460, R461). -/
def settleBytes (o n : Nat) : Codeword → List PByte
  | .clean v => clean (((leBytes 8 v.toNat).drop o).take n)
  | .corrected v => clean (((leBytes 8 v.toNat).drop o).take n)
  | _ => List.replicate n (0xFF, true)

/-- A corrected granule is recorded for the unit where it was damaged. -/
def State.settleRec (s : State) (a : Nat) (u : Upset) : Codeword → State
  | .corrected _ => s.damageRec u.unit.1 u.unit.2 a u true
  | _ => s

/-- Damage meets the first granule of bytes at `a`. -/
def State.meetFirst (s : State) (a : Nat) (bs : List PByte) (u : Upset) : State × List PByte :=
  let s := s.dropUpset u
  let h := bs.take (8 - a % 8)
  if anyBad h then (s, bs)
  else
    let w := struck (BitVec.ofNat 64 (leNat (plain h) * 2 ^ (8 * (a % 8)))) u.flips
    (s.settleRec a u w, settleBytes (a % 8) h.length w ++ bs.drop h.length)

def State.meetEach (s : State) (a : Nat) (bs : List PByte) : List Upset → State × List PByte
  | [] => (s, bs)
  | u :: r => let q := s.meetFirst a bs u; q.1.meetEach a q.2 r

/-- A read of a signal object meets the damage in it: corrected, with its record, or uncorrectable, with its syndrome. -/
def State.meetSig (s : State) (r obj : Nat) : State × Option Nat :=
  match s.upsets.find? (fun u => u.spot = .sig r obj) with
  | none => (s, none)
  | some u =>
    let s := { s with upsets := s.upsets.filter (fun v => v.spot ≠ .sig r obj) }
    let y := syndromeOf u.flips
    if y = 0 then (s, none)
    else if (correction y).isSome then (s.damageRec 3 r 0 u true, none)
    else (s, some y)

/-- Bytes at `a` pass the places `ps`. -/
def State.carried (s : State) (a : Nat) (ps : List Spot) (bs : List PByte) : State × List PByte :=
  if bs.isEmpty then (s, bs) else s.meetEach a bs (s.upsets.filter (fun u => ps.contains u.spot))

/-- Damage arises, at most one in a tick (DESIGN CHOICE, log 175). -/
def State.strike (s : State) : State :=
  match Config.strike s.free with
  | some (p, f) => { s.drawn with upsets := s.upsets ++ [{ spot := p, flips := f }] }
  | none => s.drawn

/-! ### Stack memory under keys (10 R231, R232, R236) -/

def unitBytes (m : Ram) (u : Nat) : List Byte := (List.range 64).map (fun i => m.get (64 * u + i))

/-- One byte of stack memory as the keys `k` read it: cleared units read 0, units of other keys decrypt to unrelated
bytes, poisoned granules deliver 1 bits. -/
def State.readByte (s : State) (k : Key) (a : Nat) : PByte :=
  match Tab.at? s.unitKey (a / 64) with
  | none => if s.mem.bad a then (0xFF, true) else (0, false)
  | some w =>
    if s.mem.bad a then (0xFF, true)
    else if w = k then (s.mem.get a, false)
    else (crossKey w k (a / 64) (unitBytes s.mem (a / 64)) (a % 64), false)

def State.readPhys (s : State) (k : Key) (a n : Nat) : List PByte :=
  (List.range n).map (fun i => s.readByte k (a + i))

/-- The bytes of a unit that a partial write under other keys leaves: decrypted with the new keys; a poisoned granule stays
poisoned (10 R233). -/
def crossUnit (w k : Key) (m : Ram) (u : Nat) : List PByte :=
  (List.range 64).map (fun i =>
    if m.bad (64 * u + i) then (0xFF, true) else (crossKey w k u (unitBytes m u) i, false))

/-- Takes a unit over to the keys `k` before a write of `[a, a + n)`. -/
def State.rekey (s : State) (k : Key) (a n u : Nat) : State :=
  let s' := { s with unitKey := Tab.put s.unitKey u k }
  match Tab.at? s.unitKey u with
  | none => s'
  | some w =>
    if w = k || (a ≤ 64 * u && 64 * u + 64 ≤ a + n) then s'
    else { s' with mem := s.mem.write (64 * u) (crossUnit w k s.mem u) }

def State.rekeys (s : State) (k : Key) (a n : Nat) : List Nat → State
  | [] => s
  | i :: r => (s.rekey k a n (a / 64 + i)).rekeys k a n r

def State.writePhys (s : State) (k : Key) (a : Nat) (bs : List PByte) : State :=
  if bs.isEmpty then s
  else
    let n := bs.length
    let s := (s.overwrite a n).rekeys k a n (List.range ((a + n - 1) / 64 - a / 64 + 1))
    { s with mem := s.mem.write a bs }

/-- The cleared state (10 R236). -/
def State.clearUnit (s : State) (u : Nat) : State :=
  { s with mem := s.mem.write (64 * u) (List.replicate 64 (0, false)), unitKey := Tab.del s.unitKey u }

def State.supKey (s : State) : Key := (s.part 0).key

/-- A little-endian number in the supervisor's reserved area. -/
def State.supNat (s : State) (a n : Nat) : Nat := leNat (plain (s.readPhys s.supKey a n))

def State.supBad (s : State) (a n : Nat) : Bool := anyBad (s.readPhys s.supKey a n) || s.struckBad a n

/-- Whether `[a, a + n)` lies in the supervisor's reserved area (17 R416). -/
def State.inSup (s : State) (a n : Nat) : Bool :=
  let r := s.pfReg 0x10
  let base := fld r 21 19 * 0x200000
  base ≤ a && a + n ≤ base + fld r 40 20 * 0x200000

/-! ### Who makes an access, and translation (11 R243, R244, 15 R372) -/

/-- The maker of an access: partition, context, physical core, and the mark that its instruction issued under. `prog`
is false for host software, the prefix unit and trace, which the record area is open to (09 R192); `well` marks a
read by a stack's wells. -/
structure Who where
  part  : Nat
  ctx   : Option Nat
  core  : Option Nat
  layer : W16
  op    : W16
  prog  : Bool := true
  well  : Bool := false
  deriving DecidableEq, Repr

/-- The kinds of 15 R372. -/
inductive Viol where
  | untranslated | readOnly | foreignWindow | foreignHandle | poolOrMmio | reservedRegister | privilegedCounter
  | droppedDoorbell
  deriving DecidableEq, Repr

def Viol.code : Viol → Nat
  | .untranslated => 0 | .readOnly => 1 | .foreignWindow => 2 | .foreignHandle => 3 | .poolOrMmio => 4
  | .reservedRegister => 5 | .privilegedCounter => 6 | .droppedDoorbell => 7

/-- Counts a violation and logs it within 256 records a second (15 R373, 21 R506). -/
def State.violate (s : State) (p ctx unit : Nat) (v : Viol) (addr : Nat) : State :=
  let q := s.part p
  let now := s.time / 1000000000
  let n := if q.violLog.1 = now then q.violLog.2 else 0
  let s := s.setPart p { q with violations := min (q.violations + 1) 0xFFFFFFFF, violLog := (now, n + 1) }
  if n < 256 then
    s.logIn (.violation p ctx unit v.code addr)
  else s

def Who.unit (w : Who) : Nat := w.core.getD w.part

def State.violateBy (s : State) (w : Who) (v : Viol) (addr : Nat) : State :=
  s.violate w.part (w.ctx.getD 0) w.unit v addr

/-- Adds to counter `i` of a context (21 R495). -/
def State.count (s : State) (n i : Nat) (v : Nat) : State :=
  s.onCtx n (fun x => { x with counters := Tab.put x.counters i (Tab.val 0 x.counters i + BitVec.ofNat 64 v) })

/-- Adds to counter `i` of a partition (21 R496). -/
def State.countPart (s : State) (p i : Nat) (v : Nat) : State :=
  s.onPart p (fun x => { x with counters := Tab.put x.counters i (Tab.val 0 x.counters i + BitVec.ofNat 64 v) })

/-! ### Activity and energy (18 R454 to R456) -/

/-- The activity classes: matrix passes by tier, vector slots, expander blocks by mode, scratchpad bytes, DMA bytes, stack
bursts, well weights by tier, link flits, reduction elements, and the nanoseconds for which a core is held (DESIGN
CHOICE for the numbers, log 81). -/
def actPass (tier : Nat) : Nat := tier
def actSlot : Nat := 5
def actBlock (mode : Nat) : Nat := 6 + mode
def actSp : Nat := 10
def actDma : Nat := 11
def actBurst : Nat := 12
def actWell (tier : Nat) : Nat := 13 + tier
def actFlit : Nat := 18
def actElem : Nat := 19
def actHeld : Nat := 20

/-- The energy of counted activity in femtojoules: its counts times the coefficients of their points. -/
def spent (acts : Tab Nat) : Nat :=
  acts.foldl (fun a e => a + e.2 * Config.coefficient e.1 * (if e.1 / 8 = actHeld then 1 else 1000)) 0

/-- In microjoules, rounded down. -/
def microjoules (fj : Nat) : Nat := fj / 1000000000

def addAct (t : Tab Nat) (key n : Nat) : Tab Nat := Tab.put t key (Tab.val 0 t key + n)

/-- Activity of a unit at point `pt` is attributed to a context and its partition. -/
def State.act (s : State) (n cls pt k : Nat) : State :=
  (s.onCtx n (fun x => { x with acts := addAct x.acts (cls * 8 + pt) k })).onPart (s.ctx n).part
    (fun p => { p with acts := addAct p.acts (cls * 8 + pt) k })

/-- Activity of a core, at its region's point. -/
def State.actBy (s : State) (w : Who) (cls k : Nat) : State :=
  match w.ctx, w.core with
  | some n, some c => s.act n cls (s.region (regionOf c)).point k
  | _, _ => s

/-- What has been attributed to a context since it stood at `base`, in microjoules. -/
def State.energySince (s : State) (n base : Nat) : Nat := microjoules (spent (s.ctx n).acts - base)

/-- Sends an MSI-X message, or sets its Pending bit while host software masks it (17 R429). -/
def State.interrupt (s : State) (v : Nat) : State :=
  if s.dev.masked.contains v then { s with dev := { s.dev with irqWaits := v :: s.dev.irqWaits.filter (fun u => u ≠ v) } }
  else { s with msix := s.msix ++ [v] }

/-- Where a partition-virtual address leads. -/
inductive Where where
  | stack (pa : Nat)
  | window (core off : Nat)
  | miss (foreign : Bool)
  | poisoned
  | bad (v : Viol)
  deriving DecidableEq, Repr

def windowBase : Nat := 0x20000000000
def windowEnd : Nat := 0x20040000000
def spBytes : Nat := 0x400000

def State.xlatEntry (s : State) (p va : Nat) : Nat := fld (s.pfReg (partReg p 2)) 12 28 * 4096 + 8 * (va / 0x200000)

/-- Translation of an address below 0x0100_0000_0000 (11 R244). -/
def State.xlat (s : State) (p va : Nat) (write : Bool) : Where :=
  if p = 0 then .stack va
  else if va / 0x200000 ≥ fld (s.pfReg (partReg p 2)) 40 24 then .bad .untranslated
  else if s.supBad (s.xlatEntry p va) 8 then .poisoned
  else
    let e := s.supNat (s.xlatEntry p va) 8
    if !bit e 0 || bits e 2 19 ≠ 0 || bits e 40 24 ≠ 0 then .bad .untranslated
    else if write && !bit e 1 then .bad .readOnly
    else .stack (bits e 21 19 * 0x200000 + va % 0x200000)

/-- Whether a physical core runs work that a window access of `w` may reach: the issuing context, or for host and link
accesses some context of the partition (11 R248; DESIGN CHOICE for the latter, log 21). -/
def State.windowOpen (s : State) (w : Who) (c : Nat) : Bool :=
  match (s.core c).ctx with
  | none => false
  | some n =>
    ((s.ctx n).st = .running || (s.ctx n).st = .stopping)
      && (match w.ctx with
          | some m => m == n
          | none => (s.ctx n).part == w.part)

/-- An address of the partition's record area (09 R192, 17 PART_REC). -/
def State.inRecords (s : State) (p va : Nat) : Bool :=
  let r := s.pfReg (partReg p 4)
  fld r 0 27 ≤ va / 0x200000 && va / 0x200000 < fld r 0 27 + fld r 32 11

/-- Where an access leads; a well reaches stack memory alone (10 R222). -/
def State.locate (s : State) (w : Who) (va : Nat) (write : Bool) : Where :=
  if va < 0x10000000000 then
    if w.prog && s.inRecords w.part va then .bad .untranslated else s.xlat w.part va write
  else if w.well then .bad .untranslated
  else if windowBase ≤ va && va < windowEnd then
    let l := (va - windowBase) / spBytes
    match s.phys l with
    | some c =>
      if s.windowOpen w c then .window c ((va - windowBase) % spBytes)
      else .miss (s.owner l ≠ some w.part && s.owner l ≠ none)
    | none => .miss false
  else if (0x30000000000 ≤ va && va < 0x30004000000) || (0x40000000000 ≤ va && va < 0x40100000000) then
    .bad .poolOrMmio
  else .bad .untranslated

/-- The pieces of a range that translate apart: one for each 2 MiB page below 0x0100_0000_0000, and one for each 4 MiB
window above (11 R244, R247). -/
def pieces (va n : Nat) : List (Nat × Nat) :=
  let unit := if va < 0x10000000000 then 0x200000 else 0x400000
  if n = 0 then []
  else
    (List.range ((va + n - 1) / unit - va / unit + 1)).map (fun k =>
      let lo := max va ((va / unit + k) * unit)
      let hi := min (va + n) ((va / unit + k + 1) * unit)
      (lo, hi - lo))

/-- The count of a window miss and its violation (11 R248). -/
def State.missed (s : State) (w : Who) (foreign : Bool) (va : Nat) : State :=
  let s := match w.ctx with
    | some n => s.count n 12 1
    | none => s
  if foreign then s.violateBy w .foreignWindow va else s

/-- What a read or write of the memory side gives: the state, the bytes, and whether a poisoned translation entry
stopped it (19 R463). -/
structure Got where
  s    : State
  bs   : List PByte
  stop : Bool
  deriving DecidableEq, Repr

def zeros (n : Nat) : List PByte := List.replicate n (0, false)

def burstsOf (pa n : Nat) : W64 := BitVec.ofNat 64 (if n = 0 then 0 else (pa + n - 1) / 64 - pa / 64 + 1)

/-- The interface or the wells serve an access: its bursts of 64 B are counted, and a stack in self-refresh starts to
wake (10 R213, R237, 21 R498). -/
def State.touch (s : State) (w : Who) (pa n : Nat) : State :=
  let s := match w.ctx with
    | some x => s.act x actBurst (s.stack (stackOf pa)).wpoint (burstsOf pa n).toNat
    | none => s
  s.onStack (stackOf pa) (fun k => { k with
    idleTick := s.time, waking := k.waking || k.selfRef
    ifBursts := if w.well then k.ifBursts else k.ifBursts + burstsOf pa n
    wellBursts := if w.well then k.wellBursts + burstsOf pa n else k.wellBursts })

/-- The module itself accesses the supervisor's area. -/
def State.touchSup (s : State) (pa n : Nat) : State :=
  s.touch { part := 0, ctx := none, core := none, layer := 0, op := 0 } pa n

def State.wakeStacks (s : State) : List Nat → State
  | [] => s
  | k :: l => (s.onStack k (fun x => { x with waking := x.waking || x.selfRef })).wakeStacks l

/-- The stacks in self-refresh that the work leading from `s` to `t` requests. -/
def State.slept (s t : State) : List Nat :=
  (List.range 16).filter (fun k => (s.stack k).selfRef
    && ((t.stack k).ifBursts ≠ (s.stack k).ifBursts || (t.stack k).wellBursts ≠ (s.stack k).wellBursts))

/-- The work that leads from `s` to `t`; where it requests a stack in self-refresh, it waits, and the stack wakes
(10 R237). -/
def State.orWait (s t : State) : State := if (s.slept t).isEmpty then t else s.wakeStacks (s.slept t)

/-- What the bytes of an access to stack `k` pass: the stack's interface, and from a core its mesh and, on another die, the
die's connection. A well reads beside the interface (19 R458). -/
def wayTo (w : Who) (k : Nat) : List Spot :=
  if w.well then []
  else .iface k :: (match w.core with
    | some c => if regionOf c = k / 4 then [.mesh (k / 4)] else [.mesh (regionOf c), .mesh (k / 4), .die (k / 4)]
    | none => [.mesh (k / 4)])

/-- What the bytes of an access to the scratchpad window of core `t` pass. -/
def wayAcross (w : Who) (t : Nat) : List Spot :=
  match w.core with
  | some c => if regionOf c = regionOf t then [.mesh (regionOf t)] else [.mesh (regionOf c), .mesh (regionOf t), .die (regionOf t)]
  | none => [.mesh (regionOf t)]

def State.readPiece (s : State) (w : Who) (va n : Nat) : Got :=
  match s.locate w va false with
  | .stack pa =>
    let s := (s.meet pa n).touch w pa n
    let q := s.carried pa (wayTo w (stackOf pa)) (s.readPhys (s.part w.part).key pa n)
    { s := q.1, bs := q.2, stop := false }
  | .window c off =>
    let q := s.carried va (wayAcross w c) ((s.x c).sp.read off n)
    { s := q.1, bs := q.2, stop := false }
  | .miss f => { s := s.missed w f va, bs := zeros n, stop := false }
  | .poisoned => { s := s, bs := zeros n, stop := true }
  | .bad v => { s := s.violateBy w v va, bs := zeros n, stop := false }

def State.readPieces (s : State) (w : Who) : List (Nat × Nat) → Got
  | [] => { s := s, bs := [], stop := false }
  | (va, n) :: r =>
    let g := s.readPiece w va n
    let h := g.s.readPieces w r
    { s := h.s, bs := g.bs ++ h.bs, stop := g.stop || h.stop }

/-- A read of a partition-virtual range by the violation rules (15 R372), before any error is noted. -/
def State.readVirt (s : State) (w : Who) (va n : Nat) : Got := s.readPieces w (pieces va n)

def State.writePiece (s : State) (w : Who) (va : Nat) (bs : List PByte) : Got :=
  match s.locate w va true with
  | .stack pa =>
    let q := s.carried pa (wayTo w (stackOf pa)) bs
    { s := (q.1.touch w pa bs.length).writePhys (s.part w.part).key pa q.2, bs := [], stop := false }
  | .window c off =>
    let q := s.carried va (wayAcross w c) bs
    { s := q.1.onX c (fun x => { x with sp := x.sp.write off q.2 }), bs := [], stop := false }
  | .miss f => { s := s.missed w f va, bs := [], stop := false }
  | .poisoned => { s := s, bs := [], stop := true }
  | .bad v => { s := s.violateBy w v va, bs := [], stop := false }

def State.writePieces (s : State) (w : Who) : List (Nat × Nat) → List PByte → Got
  | [], _ => { s := s, bs := [], stop := false }
  | (va, n) :: r, bs =>
    let g := s.writePiece w va (bs.take n)
    let h := g.s.writePieces w r (bs.drop n)
    { h with stop := g.stop || h.stop }

/-- A write of a partition-virtual range in ascending address (15 R372). -/
def State.writeVirt (s : State) (w : Who) (va : Nat) (bs : List PByte) : Got :=
  s.writePieces w (pieces va bs.length) bs

/-! ### Trace (21 R499 to R503) -/

/-- A trace record before its stamp is corrected (21 R500). -/
structure TraceRec where
  ty    : Nat
  wm    : Bool
  src   : Nat
  part  : Nat
  id    : Nat
  ctx   : Nat
  time  : Nat
  layer : W16
  op    : W16
  data  : Nat
  l0    : Nat
  body  : List Byte
  deriving DecidableEq, Repr

/-- The stamp, and whether it is corrected (21 R501). -/
def State.stamp (s : State) (corr : Bool) (t : Nat) : Nat × Bool :=
  let r := s.pfReg 0x200028
  if corr && r.getLsbD 32 then (unsgn 64 ((t : Int) + sgn 32 r.toNat), true) else (t % 2 ^ 64, false)

/-- The 64 bytes of a record (21 R500). -/
def TraceRec.bytes (r : TraceRec) (st : Nat × Bool) : List Byte :=
  leBytes 1 r.ty ++ leBytes 1 (b2n st.2 + 2 * b2n r.wm) ++ leBytes 2 r.src ++ leBytes 1 r.part ++ leBytes 1 r.id
    ++ leBytes 2 r.ctx ++ leBytes 8 st.1 ++ leBytes 2 r.layer.toNat ++ leBytes 2 r.op.toNat ++ leBytes 4 r.data
    ++ leBytes 8 r.l0 ++ (r.body ++ List.replicate 32 0).take 32

def dropRec (n : Nat) : TraceRec :=
  { ty := 3, wm := false, src := 0, part := 0, id := 0, ctx := 0, time := 0, layer := 0, op := 0, data := n, l0 := 0
    body := [] }

/-- Whether a record of this type and kind passes a buffer's masks. -/
def traceWants (ctrl kinds : W64) (r : TraceRec) (force : Bool) : Bool :=
  force || (if r.ty = 2 then ctrl.getLsbD 2 else (fld kinds 0 64) >>> r.id % 2 == 1)

def satAdd32 (v : W64) (lo n : Nat) : W64 := setFld v lo 32 (min (fld v lo 32 + n) 0xFFFFFFFF)

/-- The slots of the module trace buffer. -/
def State.traceSlots (s : State) : Nat := fld (s.pfReg 0x200008) 44 20 * 64

/-- Places a record in the module trace buffer, where a slot is free and no crash dump reads it. -/
def State.tracePut (s : State) (r : TraceRec) : Option State :=
  let ptr := s.pfReg 0x200010
  let head := fld ptr 0 32
  if s.dev.dumpHold || (head + 1) % s.traceSlots = fld ptr 32 32 then none
  else
    let a := fld (s.pfReg 0x200008) 12 28 * 4096 + 64 * head
    let t := (s.touchSup a 64).writePhys s.supKey a (clean (r.bytes (s.stamp ((s.pfReg 0x200000).getLsbD 1) r.time)))
    some (t.setPf 0x200010 (setFld ptr 0 32 ((head + 1) % s.traceSlots)))

/-- Counts a record that the module trace buffer has no slot for. -/
def State.traceDrop (s : State) : State :=
  { s.setPf 0x200020 (satAdd32 (s.pfReg 0x200020) 32 1) with dev := { s.dev with tracePend := s.dev.tracePend + 1 } }

/-- Before a record, the drops that none tells of yet become one record of their own. -/
def State.traceCatch (s : State) : Option State :=
  if s.dev.tracePend = 0 then some s
  else (s.tracePut (dropRec s.dev.tracePend)).map (fun s => { s with dev := { s.dev with tracePend := 0 } })

/-- The module trace buffer runs while the supervisor holds its claim (21 R502). -/
def State.traceModule (s : State) (r : TraceRec) (force : Bool) : State :=
  let ctrl := s.pfReg 0x200000
  if !ctrl.getLsbD 0 || s.traceSlots = 0 || Tab.val 0 s.belv.claims 0 ≠ 1 || !traceWants ctrl (s.pfReg 0x200018) r force then s
  else
    match s.traceCatch with
    | none => s.traceDrop
    | some s => (s.tracePut r).getD s.traceDrop

def State.partSlots (s : State) (p : Nat) : Nat := fld (s.vfReg p 0x1F008) 44 20 * 64

/-- Places a record in a partition's own buffer. -/
def State.partPut (s : State) (p : Nat) (r : TraceRec) : Option State :=
  let ptr := s.vfReg p 0x1F010
  let head := fld ptr 0 32
  if (head + 1) % s.partSlots p = fld ptr 32 32 then none
  else
    let a := fld (s.vfReg p 0x1F008) 12 28 * 4096 + 64 * head
    let who : Who := { part := p, ctx := none, core := none, layer := r.layer, op := r.op, prog := false }
    let g := s.writeVirt who a (clean (r.bytes (s.stamp ((s.vfReg p 0x1F000).getLsbD 1) r.time)))
    some (g.s.setVf p 0x1F010 (setFld ptr 0 32 ((head + 1) % s.partSlots p)))

def State.partDrop (s : State) (p : Nat) : State :=
  (s.setVf p 0x1F020 (satAdd32 (s.vfReg p 0x1F020) 32 1)).onPart p (fun q => { q with traceCarry := q.traceCarry + 1 })

def State.partCatch (s : State) (p : Nat) : Option State :=
  if (s.part p).traceCarry = 0 then some s
  else (s.partPut p { dropRec (s.part p).traceCarry with part := p }).map (fun s => s.onPart p (fun q => { q with traceCarry := 0 }))

/-- A partition's own buffer (21 R503): never a record of another partition, nor one whose PART is 0. -/
def State.tracePart (s : State) (r : TraceRec) : State :=
  let p := r.part
  let ctrl := s.vfReg p 0x1F000
  if p = 0 || !ctrl.getLsbD 0 || s.partSlots p = 0 || !traceWants ctrl (s.vfReg p 0x1F018) r false then s
  else
    match s.partCatch p with
    | none => s.partDrop p
    | some s => (s.partPut p r).getD (s.partDrop p)

def State.trace (s : State) (r : TraceRec) : State := (s.traceModule r false).tracePart r

/-! ### Event rings (21 R491 to R493) -/

/-- A unit with an event ring. -/
inductive RingUnit where
  | core (c : Nat)
  | well (k : Nat)
  | port (p : Nat)
  | fabric (r : Nat)
  deriving DecidableEq, Repr

def RingUnit.source : RingUnit → Nat
  | .core c => c
  | .well k => k + 512
  | .port p => p + 1024
  | .fabric r => r + 1536

/-- A ring keeps the latest `cap` events. -/
def ringPush (cap : Nat) (l : List Ev) (e : Ev) : List Ev :=
  let l := l ++ [e]
  if l.length > cap then l.drop (l.length - cap) else l

def State.ringPut (s : State) (u : RingUnit) (e : Ev) : State :=
  match u with
  | .core c => s.onCore c (fun p => { p with ring := ringPush 256 p.ring e })
  | .well k => { s with wellEv := Tab.put s.wellEv k (ringPush 64 (Tab.val [] s.wellEv k) e) }
  | .port p => s.onPort p (fun q => { q with ring := ringPush 128 q.ring e })
  | .fabric r => s.onRegion r (fun q => { q with ring := ringPush 128 q.ring e })

/-- The work that an event concerns. -/
structure Work where
  part  : Nat
  ctx   : Nat
  layer : W16
  op    : W16
  deriving DecidableEq, Repr

def Work.none : Work := { part := 0, ctx := 0, layer := 0, op := 0 }

/-- Writes one event into a ring and offers it to the trace buffers. -/
def State.event (s : State) (u : RingUnit) (kind data : Nat) (w : Work) : State :=
  let t := s.nowNs
  let ev : Ev :=
    (BitVec.ofNat 64 (w.layer.toNat * 2 ^ 48 + w.op.toNat * 2 ^ 32 + data % 2 ^ 32),
     BitVec.ofNat 64 (kind * 2 ^ 58 + t % 2 ^ 58))
  let s := s.drawn.ringPut u ev
  s.trace { ty := 1, wm := false, src := u.source, part := w.part, id := kind, ctx := w.ctx, time := t % 2 ^ 58
            layer := w.layer, op := w.op, data := data % 2 ^ 32, l0 := 0, body := [] }

/-- The work of the context that a core runs, under its current mark. -/
def State.workOf (s : State) (c : Nat) : Work :=
  match (s.core c).ctx with
  | none => Work.none
  | some n => { part := (s.ctx n).part, ctx := n, layer := (s.regs c).layer, op := (s.regs c).op }

def State.coreEvent (s : State) (c kind data : Nat) : State := s.event (.core c) kind data (s.workOf c)

/-! ### Host writes (23 R531) -/

/-- A write outside DEV, PWR, ERR and MBOX acts only once STATE is READY (23 R531). -/
def State.whenReady (s : State) (k : State → State) : State := if s.dev.st = .ready then k s else s

/-! ### Reads that meet poison (19 R462) -/

/-- Sets status code `code` in the RUN that a context executes (17 R427, DETAIL). -/
def State.status (s : State) (n code : Nat) : State :=
  s.onCtx n (fun x => { x with run := x.run.map (fun r =>
    { r with status := if bit r.status code then r.status else r.status + 2 ^ code }) })

/-- The poisoned translation entry that stops an access, by its module physical address. -/
def State.stopAddr (s : State) (w : Who) (va n : Nat) : Nat :=
  s.xlatEntry w.part ((((pieces va n).map (fun k => k.1)).find? (fun a => s.locate w a false = .poisoned)).getD va)

/-- The module physical address of a byte that an access reached; a window is at its own address (11 R241). -/
def State.physAddr (s : State) (w : Who) (va : Nat) : Nat :=
  match s.locate w va false with
  | .stack pa => pa
  | _ => va

/-- The first poisoned granule of bytes that stand at `a`. -/
def badGranule (a : Nat) (bs : List PByte) : Nat := (a + bs.findIdx (fun b => b.2)) / 8 * 8

/-- The poisoned granule that an access of `n` bytes met, by its module physical address: of the bytes that it read, or
of the translation entry that stopped it (19 R473). -/
def State.poisonAddr (s : State) (w : Who) (va n : Nat) (bs : List PByte) : Nat :=
  if anyBad bs then s.physAddr w (badGranule va bs) else s.stopAddr w va n

/-- The syndrome of a poisoned granule (19 R459). -/
def poisonSyndrome : Nat := 0xFF

/-- A data read that met poison: record, event and status DATA_UNCORRECTABLE (19 R462). -/
def State.poisonRead (s : State) (w : Who) (addr : Nat) : State :=
  let s := s.logError { ErrIn.plain (if w.core.isSome then 1 else 8) 1 0x03 (w.core.getD 0) addr with
    part := w.part, ctx := w.ctx, layer := w.layer, op := w.op, extra := poisonSyndrome }
  let wk : Work := { part := w.part, ctx := w.ctx.getD 0, layer := w.layer, op := w.op }
  let s := match w.core with
    | some c => s.event (.core c) 0x0B 0x03 wk
    | none => s
  match w.ctx with
  | some n => s.status n 5
  | none => s

/-- The record of an access of a partition, host's or link's, that a poisoned translation entry stopped (19 R463). -/
def State.poisonedEntry (s : State) (w : Who) (va n : Nat) : State :=
  s.logError { ErrIn.plain 8 1 0x03 0 (s.stopAddr w va n) with part := w.part, extra := poisonSyndrome }

/-- A data read: its bytes, the error noted once for the range. -/
def State.readData (s : State) (w : Who) (va n : Nat) : Got :=
  let g := s.readVirt w va n
  if anyBad g.bs then { g with s := g.s.poisonRead w (g.s.poisonAddr w va n g.bs) } else g

/-- A read of the core's own scratchpad by an engine. -/
def State.readSp (s : State) (w : Who) (c off n : Nat) : State × List PByte :=
  let bs := (s.x c).sp.read off n
  let s := s.actBy w actSp n
  (if anyBad bs then s.poisonRead w (badGranule (windowBase + spBytes * (s.core c).logical + off) bs) else s, bs)

def State.writeSp (s : State) (c off : Nat) (bs : List PByte) : State :=
  s.onX c (fun x => { x with sp := x.sp.write off bs })

/-- What an instruction's work comes to: it is done, or the group ends with a status code (04 R554, 19 R463). -/
inductive Eff where
  | done (s : State)
  | abort (code : Nat) (s : State)
  deriving DecidableEq, Repr

def Eff.state : Eff → State
  | .done s => s
  | .abort _ s => s

/-- A data read inside an instruction's work. -/
def withData (s : State) (w : Who) (va n : Nat) (k : State → List PByte → Eff) : Eff :=
  let g := s.readData w va n
  if g.stop then .abort 5 (g.s.poisonRead w (g.s.stopAddr w va n)) else k g.s g.bs

/-- A control read inside an instruction's work (19 R463). -/
def withCtl (s : State) (w : Who) (va n : Nat) (k : State → List Byte → Eff) : Eff :=
  let g := s.readVirt w va n
  if g.stop || anyBad g.bs then .abort 5 (g.s.poisonRead w (g.s.poisonAddr w va n g.bs)) else k g.s (plain g.bs)

/-- A write inside an instruction's work. -/
def withWrite (s : State) (w : Who) (va : Nat) (bs : List PByte) (k : State → Eff) : Eff :=
  let g := s.writeVirt w va bs
  if g.stop then .abort 5 (g.s.poisonRead w (g.s.stopAddr w va bs.length)) else k g.s

end Sys2Proof.Machine
end

