-- ==== Sys2Proof/Machine/Queues.lean ====
section
/-! DEFINITION. The region pools and their queues: cells, packets, counts, flags and the flush (14 R329 to R340). -/

namespace Sys2Proof.Machine

/-! ### Cells of a pool (14 R329) -/

/-- Takes a cell off the free list: the cell returned longest ago, else one that no queue has held yet (DESIGN CHOICE,
log 87). -/
def Region.takeCell (g : Region) : Nat × Region :=
  match g.freed with
  | k :: r => (k, { g with freed := r })
  | [] => (g.virgin, { g with virgin := g.virgin + 1 })

/-- The module physical address of a cell of region `r`'s pool (11 R241). -/
def cellAddr (r no : Nat) : Nat := 0x30000000000 + r * 0x1000000 + 256 * no

/-- Cells on the region's free list. -/
def Region.freeCells (g : Region) : Nat := g.freed.length + (65536 - g.virgin)

def State.que (s : State) (r q : Nat) : Que := Tab.val Que.fresh (s.region r).queues q
def State.setQue (s : State) (r q : Nat) (x : Que) : State :=
  s.onRegion r (fun g => { g with queues := Tab.put g.queues q x })

def cellsOf (n : Nat) : Nat := cdiv n 256
def wrap17 (n : Nat) : Nat := n % 2 ^ 17

/-- The link field of cell `i` of the queue. -/
def Que.link (q : Que) (i : Nat) : Option Nat := (q.cells[i + 1]?).map (fun c => c.no)

/-! ### Packets (14 R332) -/

/-- The whole packets of a run of cells, each up to its end-of-packet mark; `part` holds the cells read so far. -/
def splitPackets (part : List QCell) : List QCell → List (List QCell)
  | [] => []
  | c :: r => if c.last then (part ++ [c]) :: splitPackets [] r else splitPackets (part ++ [c]) r

/-- The packets that the pool holds whole and that have not been consumed. -/
def Que.packets (q : Que) : List (List QCell) := splitPackets [] (q.cells.drop q.owed)

/-- The packets that the pool holds whole, consumed ones included until C counts their first cell (PKTS, 14 R342). -/
def Que.held (q : Que) : Nat := (splitPackets [] (q.cells.dropWhile (fun c => !c.first))).length

/-- The producer has written a part of a packet. -/
def Que.open (q : Que) : Bool := (q.cells.getLast?).elim false (fun c => !c.last)

def packetBytes (p : List QCell) : List PByte := (p.map (fun c => c.data.take c.used)).flatten

/-! ### Counts and flags (14 R333 to R335) -/

/-- The occupancy that each end computes, and the true one. -/
def Que.prodOcc (q : Que) : Nat := wrap17 (q.w + 2 ^ 17 - q.cSeen)
def Que.consOcc (q : Que) : Nat := wrap17 (q.wSeen + 2 ^ 17 - q.c)
def Que.occ (q : Que) : Nat := wrap17 (q.w + 2 ^ 17 - q.c)

/-- A queue whose QCAP is 0 acts as disabled (14 R342). -/
def Que.live (q : Que) : Bool := q.en && q.cap ≠ 0

/-- The core with logical number `l` reaches the producer's end, or the consumer's end, of partition `p`'s queue
(14 R331, R342). -/
def Que.serves (q : Que) (p l : Nat) : Bool := q.live && q.part = p && q.prod = l && !q.prodCut
def Que.delivers (q : Que) (p l : Nat) : Bool := q.live && q.part = p && q.cons = l && !q.consCut

/-- Logical core `l` leaves its partition: no core reaches the ends that it held (14 R342). -/
def Que.cut (l : Nat) (q : Que) : Que :=
  { q with prodCut := q.prodCut || (q.en && q.prod = l), consCut := q.consCut || (q.en && q.cons = l) }

def State.cutQueues (s : State) (l : Nat) : State :=
  { s with regions := s.regions.map (fun g => (g.1, { g.2 with queues := g.2.queues.map (fun q => (q.1, q.2.cut l)) })) }

/-- The Full flag for a packet of `len` bytes. -/
def Que.full (q : Que) (len : Nat) : Bool := q.prodOcc + cellsOf len > q.cap

/-- The packets that the consumer's end counts as written whole. -/
def Que.shown (q : Que) : List (List QCell) := splitPackets [] ((q.cells.take q.consOcc).drop q.owed)

/-- `n` packets at the head are consumed: their cells wait to be counted, one by one. -/
def Que.consume (q : Que) (ps : List (List QCell)) : Que :=
  { q with owed := q.owed + (ps.map List.length).foldl (· + ·) 0, flush := q.flush.map (fun k => k - ps.length) }

/-- The consumer's end consumes aborted packets without delivering them (14 R340). -/
def Que.skipAborted (q : Que) : Que := q.consume (q.shown.takeWhile (fun p => p.any (fun c => c.aborted)))

/-- The packet at the head; none while Empty holds. -/
def Que.head (q : Que) : Option (List QCell) := q.shown.head?

/-- Both synchronised counts catch up (14 R333, R334). -/
def Que.sync (q : Que) : Que := { q with wSeen := q.w, cSeen := q.c }

/-- The cell of a packet with its bytes in front of zeros (14 R332). -/
def QCell.of (no : Nat) (first : Bool) (bs : List PByte) (last aborted : Bool) : QCell :=
  { no := no, first := first, data := bs ++ clean (List.replicate (256 - bs.length) 0), used := bs.length, last := last, aborted := aborted }

/-- Damage in a cell is gone with its contents, or met by a read of granule `i` of it. -/
def inCell (r no : Nat) (u : Upset) : Option Nat :=
  match u.spot with
  | .cell r' no' i => if r' = r && no' = no then some i else none
  | _ => none

def State.freshCell (s : State) (r no : Nat) : State := { s with upsets := s.upsets.filter (fun u => (inCell r no u).isNone) }

/-- The read of a cell's bytes meets the damage in it: each granule is corrected, or goes on as poisoned (19 R460, R461). -/
def State.meetCell (s : State) (r no : Nat) (bs : List PByte) : List Upset → State × List PByte
  | [] => (s, bs)
  | u :: l =>
    match inCell r no u with
    | none => s.meetCell r no bs l
    | some i =>
      let q := s.meetFirst (cellAddr r no + 8 * i) (bs.drop (8 * i)) u
      q.1.meetCell r no (bs.take (8 * i) ++ q.2) l

/-- The producer's end writes one cell, and W advances by 1. -/
def State.putCell (s : State) (r q : Nat) (bs : List PByte) (last aborted : Bool) : State :=
  let t := (s.region r).takeCell
  let x := s.que r q
  ((s.freshCell r t.1).onRegion r (fun _ => t.2)).setQue r q
    { x with cells := x.cells ++ [QCell.of t.1 (!x.open) bs last aborted], w := wrap17 (x.w + 1) }

/-- The consumer's end counts a consumed cell: C advances by 1, and the cell returns to the free list. -/
def State.countCell (s : State) (r q : Nat) : State :=
  let x := s.que r q
  match x.cells, x.owed with
  | k :: rest, n + 1 =>
    (s.onRegion r (fun g => { g with freed := g.freed ++ [k.no] })).setQue r q
      { x with cells := rest, owed := n, c := wrap17 (x.c + 1) }
  | _, _ => s

def State.countCells (s : State) (r q : Nat) : Nat → State
  | 0 => s
  | n + 1 => (s.countCell r q).countCells r q n

/-- A context reset reaches a core whose `sy.qput` has sent part of a packet: the next cell ends it, aborted; it carries
no byte of the packet (14 R340; DESIGN CHOICE, log 87). -/
def State.abortPut (s : State) (c : Nat) : State :=
  match (s.x c).hold with
  | .qput r q _ _ (_ + 1) => s.putCell r q [] true true
  | _ => s

/-! ### The flush (14 R338) -/

/-- Requests a flush at the producer's next packet boundary: a packet partly sent is completed first. A second request
adds nothing. -/
def Que.askFlush (q : Que) : Que := { q with flush := some (q.flush.getD (q.packets.length + b2n q.open)) }

/-- How many packets the flush discards once they are written whole; none while it cannot complete. The flush of a
disable ends at a packet boundary of the producer's end, behind which nothing is kept (DESIGN CHOICE, log 87). -/
def Que.flushes (q : Que) : Option Nat :=
  match q.flush with
  | none => none
  | some k =>
    if q.disable then if q.open then none else some q.packets.length
    else if k ≤ q.packets.length then some k else none

/-- The packets before the boundary are consumed, once the consumer's end counts them as written. -/
def Que.flushed (q : Que) (k : Nat) : Que := { (({ q with wSeen := q.w } : Que).consume (q.packets.take k)) with flush := none }

end Sys2Proof.Machine
end

