-- ==== Sys2Proof/Machine/Codes.lean ====
section
/-! DEFINITION. The granules, the CRC and the trailer of a link flit, and Ethernet frames (16 R380, R382, R384). -/

namespace Sys2Proof.Machine

/-! ### Flits (16 R382, R384) -/

/-- Header A of a flit of type `ty`. -/
def headerA (f : Flit) (ty : Nat) : W64 :=
  BitVec.ofNat 64 (ty + f.dst.toNat * 2 ^ 4 + f.src.toNat * 2 ^ 16 + f.jobTag.toNat * 2 ^ 28 + f.epoch.toNat * 2 ^ 36
    + f.score.toNat * 2 ^ 44 + cdiv f.payload.length 8 * 2 ^ 52 + b2n f.fin * 2 ^ 57 + b2n f.last * 2 ^ 58)

/-- Granules 0 to 30 as sent. -/
def flitGranules (f : Flit) (ty : Nat) : List Nat :=
  granuleWord (headerA f ty) false :: granuleWord f.hdrB false
    :: (List.range 29).map (fun g => granuleWord (BitVec.ofNat 64 (leNat ((f.payload.drop (8 * g)).take 8))) (f.badG.contains g))

/-- One bit enters the CRC. -/
def crcBit (crc : BitVec 32) (b : Bool) : BitVec 32 :=
  if crc.msb != b then (crc <<< 1) ^^^ 0x1EDC6F41 else crc <<< 1

/-- CRC-32 with the polynomial 0x1EDC_6F41 over bits in the order sent. The spec gives no initial and no final value
(free values, log 156). -/
def linkCrc (l : List Bool) : BitVec 32 := l.foldl crcBit Config.crcInit ^^^ Config.crcFinal

def flitCrc (f : Flit) (ty : Nat) : BitVec 32 :=
  linkCrc (((flitGranules f ty).map (fun g => (List.range 72).map (fun i => bit g i))).flatten)

/-- The trailer of a flit as sent. -/
def TxFlit.trailer (t : TxFlit) : W64 :=
  let r := t.flit.tr
  BitVec.ofNat 64 ((flitCrc t.flit t.ty).toNat + r.lseq.toNat * 2 ^ 32 + r.ack.toNat * 2 ^ 44 + b2n r.nak * 2 ^ 56
    + r.chan.toNat * 2 ^ 57 + r.credits.toNat * 2 ^ 60)

/-! ### Ethernet frames (16 R380) -/

/-- A frame as sent: addresses, the tag's priority and VLAN, the EtherType, and 1 to 16 flits. -/
structure EthFrame where
  dst   : Nat
  src   : Nat
  pcp   : Nat
  vid   : Nat
  etype : Nat
  flits : List TxFlit
  deriving DecidableEq, Repr

def lnkCtrl (p : Nat) : Nat := 0x10000 + p * 0x800

/-- The frames in which interface `i` of port `p` sends flits to the address `dst`. -/
def State.framesOf (s : State) (p i dst : Nat) (fs : List TxFlit) : List EthFrame :=
  let v := s.pfReg (lnkCtrl p)
  (chunks 16 (cdiv fs.length 16) fs).map (fun l =>
    { dst := dst, src := (Config.baseMac.toNat + 8 * p + i) % 2 ^ 48, pcp := fld v 33 3, vid := fld v 36 12
      etype := fld v 48 16, flits := l })

end Sys2Proof.Machine
end

