-- ==== Sys2Proof/Machine/Send.lean ====
section
/-! DEFINITION. Sending flits: channels, routes, credits, and what a module tells the members of a job (16 R383 to
R392, R402). -/

namespace Sys2Proof.Machine

/-- The channel of a flit type (16 R383): 0 control, 1 data, 2 reduction (the numbering is a DESIGN CHOICE, log 22). -/
def chanOf (ty : Nat) : Nat := if ty = 1 then 1 else if ty = 4 || ty = 5 then 2 else 0

/-- MODE of a port; a reserved value acts as OFF (16 R379). -/
def State.linkMode (s : State) (p : Nat) : Nat :=
  let m := fld (s.pfReg (lnkCtrl p)) 0 3
  if m ≤ 4 then m else 0

/-- The link ports that a partition owns, once it exists: only a sealed one owns any. -/
def State.ownedPorts (s : State) (p : Nat) : Nat := if s.sealBit p then fld (s.partCtrl p) 32 18 else 0

def otherParts (p : Nat) : List Nat := (List.range 256).filter (fun q => q ≠ p)

/-- The ports of a mask, lowest first. -/
def maskPorts (m : Nat) : List Nat := (List.range 18).filter (fun i => bit m i)

/-! ### Paths (16 R384, R385) -/

/-- The interfaces of a port in an Ethernet mode (16 R379). -/
def State.ifaces (s : State) (q : Nat) : Nat := if s.linkMode q = 3 then 2 else if s.linkMode q = 4 then 8 else 1

/-- The path between a local and a remote interface: a cable has one, whatever the address. -/
def State.pathKey (s : State) (q iface mac : Nat) : Nat := if 2 ≤ s.linkMode q then mac * 8 + iface % s.ifaces q else 0

def Port.link (q : Port) (k : Nat) : Link := Tab.val Link.fresh q.links k
def Port.setLink (q : Port) (k : Nat) (l : Link) : Port := { q with links := Tab.put q.links k l }
def Port.onLink (q : Port) (k : Nat) (f : Link → Link) : Port := q.setLink k (f (q.link k))

/-- A path is sequenced already, or its local interface has room for one more of its 64 remote interfaces (16 R385). -/
def Port.hasPath (q : Port) (k : Nat) : Bool :=
  q.links.any (fun l => l.1 = k) || (q.links.filter (fun l => l.1 % 8 = k % 8)).length < 64

/-- The path by which a port reaches rank `r`: from local interface `r` modulo their number (DESIGN CHOICE, log 183). -/
def State.pathTo (s : State) (q : Nat) (j : Job) (r : Nat) : Nat := s.pathKey q r (Tab.val 0 j.macs r)

/-- The port with the most credits of the channel toward rank `dst`; a tie goes to the lower port (16 R390). -/
def State.richest (s : State) (j : Job) (ch dst : Nat) : List Nat → Option Nat
  | [] => none
  | p :: r =>
    let credits (q : Nat) : Nat := Tab.val 0 ((s.port q).link (s.pathTo q j dst)).credits ch
    match s.richest j ch dst r with
    | none => some p
    | some q => if credits p ≥ credits q then some p else some q

/-- The port by which a flit of type `ty` leaves for rank `dst` (16 R390). -/
def State.route (s : State) (j : Job) (ty src dst : Nat) : Option Nat :=
  let ps := maskPorts (Tab.val 0 j.routes dst)
  if ty = 4 || ty = 5 || (j.adapt && ty = 1) then s.richest j (chanOf ty) dst ps
  else ps[src % ps.length]?

/-! ### Sending (16 R384, 15 R371) -/

/-- A port can send the flit now: the port, its path's replay buffer and its channel's credits allow it (16 R380 for
PFC), and a new path finds room (16 R385; DESIGN CHOICE, log 183). -/
def Port.canSend (q : Port) (t : TxFlit) : Bool :=
  let l := q.link t.path
  q.up && !q.paused && q.hasPath t.path && l.replay.length < 2048 && Tab.val 0 l.credits t.chan ≠ 0

/-- The credits that the next trailer returns: at most 15, of the lowest channel that has some. -/
def Link.returns (l : Link) : Nat × Nat :=
  match l.owed.find? (fun e => e.2 ≠ 0) with
  | some e => (e.1, min e.2 15)
  | none => (0, 0)

def Link.trailer (l : Link) : Trailer :=
  { lseq := BitVec.ofNat 12 l.lseq, ack := BitVec.ofNat 12 (l.expect + 4095), nak := l.nak
    chan := BitVec.ofNat 3 l.returns.1, credits := BitVec.ofNat 4 l.returns.2 }

def Link.transmit (l : Link) (t : TxFlit) : Link :=
  { l with
    replay := l.replay ++ [{ t with flit := { t.flit with tr := l.trailer } }], lseq := (l.lseq + 1) % 4096, nak := false
    credits := Tab.put l.credits t.chan (Tab.val 0 l.credits t.chan - 1)
    owed := Tab.put l.owed l.returns.1 (Tab.val 0 l.owed l.returns.1 - l.returns.2) }

/-- The flit that waits as `t` leaves as `l`. -/
def Port.leaves (q : Port) (t l : TxFlit) : Port :=
  { q.onLink t.path (fun k => k.transmit l) with waiting := q.waiting.erase t, txFlits := q.txFlits + 1 }

def Port.transmit (q : Port) (t : TxFlit) : Port := q.leaves t t

/-- The partition whose turn it is among those with a flit to send, and whether a reserved unit serves it, which only
step 1 of the round gives (15 R371). -/
def State.turn (s : State) (r : Turns) (ps : List Nat) : Option (Nat × Bool) :=
  match (List.range 256).find? (fun p => !r.shared && ps.contains p && s.sealed p && Tab.val 0 r.res p < s.resShare p) with
  | some p => some (p, true)
  | none => (nextAfter r.last ps).map (fun p => (p, false))

/-- A unit of a round of 64 has been used; a flit takes one unit (DEDUCED, log 158). The first unit that is not reserved
begins step 2, which has what step 1 left. -/
def Turns.after (r : Turns) (p : Nat) (reserved : Bool) : Turns :=
  let r := if reserved then { r with res := Tab.put r.res p (Tab.val 0 r.res p + 1) } else { r with last := p, shared := true }
  if r.used + 1 ≥ 64 then { Turns.fresh with last := r.last } else { r with used := r.used + 1 }

/-- A time request, whose t1 is the time at which it leaves (16 R401). -/
def TxFlit.asks (t : TxFlit) : Bool := t.ty = 0xA && !t.flit.hdrB.getLsbD 0

/-- The flit leaves the port; a time request takes its stamp as it does. -/
def State.leavePort (s : State) (q : Nat) (t : TxFlit) (r : Turns) : State :=
  let x := s.port q
  if t.asks then
    let t1 := BitVec.ofNat 64 s.nowNs
    let l : TxFlit := { t with flit := { t.flit with payload := leBytes 8 t1.toNat ++ t.flit.payload.drop 8 } }
    s.drawn.setPort q { x.leaves t l with round := r, syncT1 := some t1 }
  else s.setPort q { x.transmit t with round := r }

/-- Sends one flit of the partition whose turn it is, if any can be sent; in order within each channel. -/
def State.sendOne (s : State) (q : Nat) : Option State :=
  let x := s.port q
  let able := x.waiting.filter x.canSend
  match s.turn x.round (able.map (fun t => t.part)) with
  | none => none
  | some (p, reserved) => (able.find? (fun t => t.part = p)).map (fun t => s.leavePort q t (x.round.after p reserved))

/-- Sends what the port can send, at most `n` flits. -/
def State.drainPort (s : State) (q : Nat) : Nat → State
  | 0 => s
  | n + 1 =>
    match s.sendOne q with
    | none => s
    | some t => t.drainPort q n

def State.drain (s : State) (q : Nat) : State := s.drainPort q (s.port q).waiting.length

/-- Gives a port a flit to send for a partition; it waits while the port cannot send it. -/
def State.portSend (s : State) (q p ty path : Nat) (f : Flit) : State :=
  (s.onPort q (fun x => { x with
    waiting := x.waiting ++ [{ ty := ty, chan := chanOf ty, part := p, path := path, flit := f }] })).drain q

/-- A member that flits may be sent to (16 R404, R406). -/
def Job.reachable (j : Job) (r : Nat) : Bool :=
  match Tab.at? j.members r with
  | some m => m.dead.isNone && !m.lost
  | none => true

def mkFlit (j : Job) (dst score : Nat) (fin last : Bool) (hdr : Nat) (pay : List PByte) : Flit :=
  { dst := BitVec.ofNat 12 dst, src := BitVec.ofNat 12 j.rank, jobTag := BitVec.ofNat 8 j.tag
    epoch := BitVec.ofNat 8 j.epoch, score := BitVec.ofNat 8 score, fin := fin, last := last
    hdrB := BitVec.ofNat 64 hdr, payload := plain pay
    badG := (List.range (cdiv pay.length 8)).filter (fun g => anyBad ((pay.drop (8 * g)).take 8)), first := false
    peer := 0, iface := 0, tr := Link.fresh.trailer }

/-- Sends one flit of partition `p`'s job to rank `dst`. -/
def State.sendFlit (s : State) (p ty dst : Nat) (f : Job → Flit) : State :=
  match (s.part p).job with
  | none => s
  | some j =>
    if dst = j.rank || (!j.reachable dst && ty ≠ 9) then s
    else match s.route j ty j.rank dst with
      | none => s
      | some q => s.portSend q p ty (s.pathTo q j dst) (f j)

/-- The event of kind LINK on the ports that lead to a rank (21 R493). -/
def State.linkEvent (s : State) (p what rank : Nat) : State :=
  match (s.part p).job with
  | none => s
  | some j =>
    match s.route j 0 j.rank rank with
    | none => s
    | some q => s.event (.port q) 0x0D (what + rank * 2 ^ 16) { Work.none with part := p }

def State.sendEach (s : State) (p ty : Nat) (hdr : Nat) : List Nat → State
  | [] => s
  | d :: r =>
    let s := s.sendFlit p ty d (fun j => mkFlit j d 0 false true hdr [])
    (if ty = 7 then s.linkEvent p 2 d else s).sendEach p ty hdr r

/-- A control flit to every member of the partition's job. -/
def State.sendMembers (s : State) (p ty hdr : Nat) : State :=
  match (s.part p).job with
  | none => s
  | some j => s.sendEach p ty hdr (List.range j.size)

def State.jobBase (s : State) (p : Nat) : Nat := fld (s.pfReg (partReg p 6)) 6 34 * 64

/-- STATUS of the job record (16 R387). -/
def Job.statusWord (j : Job) : Nat :=
  let ms := j.members.map (fun m => m.2)
  b2n j.spray + j.epoch * 2 ^ 16 + (ms.filter (fun m => m.dead.isSome && !m.lost)).length * 2 ^ 32
    + (ms.filter (fun m => m.lost)).length * 2 ^ 48

/-- Writes the module's words of the job record. -/
def State.writeJob (s : State) (p : Nat) (j : Job) : State :=
  let a := s.jobBase p
  ((s.touchSup a 64).writePhys s.supKey (a + 6) (clean (leBytes 2 j.epoch))).writePhys s.supKey (a + 0x28)
    (clean (leBytes 8 j.statusWord))

def State.setJob (s : State) (p : Nat) (j : Job) : State :=
  (s.onPart p (fun q => { q with job := some j })).writeJob p j

/-- The numbers of link writes start again in both directions (DESIGN CHOICE, log 43). -/
def Part.renumber (q : Part) : Part :=
  { q with landed := [], held := [], earlySig := [], msgseq := [], unacked := [] }

/-- The epoch advances by 1 and JOIN goes to every member (16 R402). -/
def State.advanceEpoch (s : State) (p : Nat) : State :=
  match (s.part p).job with
  | none => s
  | some j =>
    let j := { j with epoch := (j.epoch + 1) % 65536 }
    ((s.onPart p Part.renumber).setJob p j).sendMembers p 8 j.epoch

end Sys2Proof.Machine
end

