-- ==== Sys2Proof/Machine/Run.lean ====
section
/-! DEFINITION. Contexts and their RUNs: completion records, the order of a ring's records, groups, signal waits, the
removal of work, and the end of a RUN (04 R76, R84, 14 R343 to R345, 15 R364, 17 R424 to R429, 20 R480, R481). -/

namespace Sys2Proof.Machine

/-! ### Registers of a core -/

/-- Writes a scalar register; s0 ignores writes (04 R67). -/
def Regs.setS (g : Regs) (d : Nat) (v : W64) : Regs := if d = 0 then g else { g with s := Tab.put g.s d v }

/-- Reads a scalar register; s0 reads as zero. -/
def Regs.getS (g : Regs) (d : Nat) : W64 := if d = 0 then 0 else Tab.val 0 g.s d

def Regs.getA (g : Regs) (d : Nat) : W64 × W64 := Tab.val (0, 0) g.a d

/-- The physical cores of a context, in the order of its ranks (04 R76). -/
def State.ctxCores (s : State) (n : Nat) : List Nat := (s.ctx n).cores.filterMap s.phys

/-- The physical cores that hold a context now. -/
def State.heldCores (s : State) (n : Nat) : List Nat := (s.ctxCores n).filter (fun c => (s.core c).ctx = some n)

/-- The rank of a core in its context. -/
def State.rank (s : State) (n c : Nat) : Nat := (s.ctx n).cores.idxOf (s.core c).logical

def State.onCores (s : State) (f : PCore → PCore) : List Nat → State
  | [] => s
  | c :: r => (s.onCore c f).onCores f r

/-! ### Completion records (17 R427 to R429) -/

/-- The status codes in the order of their ranks (17 R428). -/
def statusRanks : List Nat := [14, 10, 5, 11, 9, 8, 2, 12, 6, 7, 4, 1, 13]

def topStatus (st : Nat) : Nat := (statusRanks.find? (fun c => bit st c)).getD 0

/-- Host memory is addressed per function: `fn` × 2^64 + bus address. -/
def hostAddr (fn a : Nat) : Nat := fn * 2 ^ 64 + a

def hostWrite (t : Tab Byte) (a : Nat) : List Byte → Tab Byte
  | [] => t
  | b :: r => hostWrite (setByte t a b) (a + 1) r

def completionBytes (status phase ctx detail tag finish energy : Nat) : List Byte :=
  leBytes 1 status ++ leBytes 1 phase ++ leBytes 2 ctx ++ leBytes 4 detail ++ leBytes 8 tag ++ leBytes 8 finish
    ++ leBytes 8 energy

/-- Whether a record's MSI-X message is sent (17 R422, R429). -/
def wantsIrq (mode status : Nat) (flags : W32) : Bool :=
  mode == 1 || (mode == 2 && status != 0) || flags.getLsbD 0

/-- The opcode of a record that the dispatcher read. -/
def recOp (r : SubRec) : Nat := if r.unread then 0 else r.opcode.toNat

/-- Posts the completion record of a submission record; one for a RUN counts (17 R427 to R429, 21 R495). -/
def State.post (s : State) (n : Nat) (sub : SubRec) (status detail energy : Nat) : State :=
  let x := s.ctx n
  let a := hostAddr x.part (x.cqBase + 32 * x.cqIndex)
  let bs := completionBytes status (b2n x.cqPhase) n detail sub.tag.toNat s.nowNs energy
  let last := x.cqIndex + 1 = 2 ^ x.sqLog2
  let s := s.drawn.setCtx n { x with
    counters := if recOp sub = 1 then Tab.put x.counters 0 (Tab.val 0 x.counters 0 + 1) else x.counters
    cqIndex := if last then 0 else x.cqIndex + 1
    cqPhase := if last then !x.cqPhase else x.cqPhase }
  let s : State := { s with host := hostWrite s.host a bs }
  if wantsIrq x.irqMode status sub.flags then s.interrupt (8 * x.part + x.vector) else s

/-- Posts the completion record of an accepted record: a RUN's with the energy attributed since its acceptance (18 R456). -/
def State.postAcc (s : State) (n : Nat) (a : Acc) (status detail : Nat) : State :=
  s.post n a.sub status detail (if recOp a.sub = 1 then s.energySince n a.energy else 0)

/-! ### Signal objects (14 R343 to R345, 13 R315) -/

def waitMet (v t : W32) (eq : Bool) : Bool := if eq then v = t else (v - t).toNat < 2 ^ 31

def State.sigVal (s : State) (o : Nat × Nat) : W32 := Tab.val 0 (s.region o.1).sig o.2

/-- A foreign handle reads as the value 0 (13 R313). -/
def State.waitVal (s : State) (o : Option (Nat × Nat)) : W32 :=
  match o with
  | some o => s.sigVal o
  | none => 0

/-- Falling through to byte `npc`: the active loop records that end there act, most recent first (12 R280). -/
def fallThrough (npc : Nat) : List LoopRec → Tab W32 → List LoopRec × Tab W32 × Nat
  | [], l => ([], l, npc)
  | k :: rest, l =>
    if k.fin = npc then
      let v := Tab.val 0 l k.ctr - 1
      let l := Tab.put l k.ctr v
      if v ≠ 0 then (k :: rest, l, k.body) else fallThrough npc rest l
    else
      let f := fallThrough npc rest l
      (k :: f.1, f.2.1, f.2.2)

/-- The registers once the sequencer has moved past an instruction of `words` words. -/
def Regs.past (g : Regs) (words : Nat) : Regs :=
  let f := fallThrough (g.pc + 8 * words) g.loops g.l
  { g with loops := f.1, l := f.2.1, pc := f.2.2 }

/-- The sequencer completes an instruction of `words` words that changes the registers by `f`. -/
def State.pass (s : State) (c words : Nat) (f : Regs → Regs) : State :=
  s.onX c (fun x => { x with regs := (f x.regs).past words, progress := s.time })

/-- The tags that an instruction of an engine holds. -/
def Exec.engineTags (x : Exec) : List Tag := x.tags.filter (fun t => (x.queue ++ x.inflight).any (fun k => k.id = t.owner))

/-- The held instruction of a core ends with `v` in its destination: the queue port's tag is released, and the sequencer
moves past it. -/
def State.endHold (s : State) (c : Nat) (sD : Nat) (v : W64) : State :=
  s.onX c (fun x => { x with
    hold := .clear, tags := x.engineTags, regs := (x.regs.setS sD v).past 1, progress := s.time })

/-- An update that the store applies now is not later than the expiry tick of a wait (13 R315, 14 R347). -/
def State.inTime (s : State) (e : Option Nat) : Bool :=
  match e with
  | none => true
  | some e => s.time ≤ e

/-- Decides the wait held on a core after its object took its present value. -/
def State.decideCore (s : State) (o : Nat × Nat) (c : Nat) : State :=
  match (s.x c).hold with
  | .wait sD (some q) t eq e _ _ =>
    if q = o && (s.core c).run = .running && waitMet (s.sigVal o) t eq && s.inTime e then s.endHold c sD.toNat 1 else s
  | _ => s

def State.decideCores (s : State) (o : Nat × Nat) : List Nat → State
  | [] => s
  | c :: r => (s.decideCore o c).decideCores o r

/-- An update issued by host software through a SIGNAL record. -/
def hostUpd (i : Nat) (v : W32) (set : Bool) (n : Nat) : Upd :=
  { obj := i, val := v, set := set, core := none, id := 1, ctx := n, sent := true }

/-- Objects granted to a partition (14 R343, 17 PART_SIG); the supervisor domain reaches every object (15 R349). -/
def State.granted (s : State) (p r i : Nat) : Bool :=
  if p = 0 then true
  else
    let v := s.pfReg (partReg p 5)
    let base := fld v (15 * r) 8 * 256
    let size := fld v (15 * r + 8) 7 * 256
    base ≤ i && i < base + size

/-- The object of a handle, when it is granted to the partition. -/
def State.handle (s : State) (p h : Nat) : Option (Nat × Nat) :=
  if s.granted p (bits h 16 2) (bits h 0 16) then some (bits h 16 2, bits h 0 16) else none

/-! ### Time alignment requests (16 R401, 13 R323) -/

/-- The members of a job group, in group-rank order; group 0 holds every rank (16 R388). -/
def Job.group (j : Job) (g : Nat) : Option JobGroup :=
  if g = 0 then
    some { members := List.range j.size, index := j.rank, port := (Tab.at? j.groups 0).elim 0 (fun x => x.port) }
  else Tab.at? j.groups g

/-- The ports that lead directly to members of a group: the lowest port of each route, each once, with the lowest
rank behind it (DESIGN CHOICE, log 23). -/
def Job.neighbours (j : Job) (ms : List Nat) : List (Nat × Nat) :=
  ms.foldl (fun acc r =>
    match maskPorts (Tab.val 0 j.routes r) with
    | [] => acc
    | p :: _ => if r = j.rank || acc.any (fun q => q.1 = p) then acc else acc ++ [(p, r)]) []

/-- A request over each port; none goes to a member held dead or lost (16 R404, R406), whose port stays unmeasured. -/
def State.sendSyncs (s : State) (p : Nat) : List (Nat × Nat) → State
  | [] => s
  | (q, r) :: rest =>
    let t := BitVec.ofNat 64 s.nowNs
    let s := (s.drawn.onPort q (fun x => { x with syncT1 := some t, syncAt := s.time }))
    match (s.part p).job with
    | none => s.sendSyncs p rest
    | some j =>
      if j.reachable r then
        (s.portSend q p 0xA (s.pathTo q j r) (mkFlit j r 0 false true 0 (clean (leBytes 8 t.toNat)))).sendSyncs p rest
      else s.sendSyncs p rest

/-- Starts a time exchange: the ports awaited. -/
def State.startSync (s : State) (p jg : Nat) : Option (State × List Nat) :=
  match (s.part p).job with
  | none => none
  | some j =>
    match j.group jg with
    | none => none
    | some g =>
      let ns := j.neighbours g.members
      some (s.sendSyncs p ns, ns.map (fun q => q.1))

/-- The wait of a core on a damaged object completes with 0; its context sees DATA_UNCORRECTABLE (19 R461). -/
def State.loseCore (s : State) (o : Nat × Nat) (c : Nat) : State :=
  match (s.x c).hold, (s.core c).ctx with
  | .wait sD (some q) _ _ _ _ _, some n => if q = o then (s.endHold c sD.toNat 0).status n 5 else s
  | _, _ => s

def State.loseCores (s : State) (o : Nat × Nat) : List Nat → State
  | [] => s
  | c :: r => (s.loseCore o c).loseCores o r

/-- An object with an uncorrectable syndrome is rewritten as 0, and the waits of cores on it end (19 R461). The signal store
has no module physical address (11 R241): the record's ADDRESS is 0 (DEDUCED, log 164). -/
def State.sigClear (s : State) (o : Nat × Nat) (syn : Nat) : State :=
  let s := s.onRegion o.1 (fun g => { g with sig := Tab.put g.sig o.2 0, sigBy := Tab.del g.sigBy o.2 })
  let s := s.logError { ErrIn.plain 3 1 0x02 o.1 0 with extra := syn }
  let s := s.event (.fabric o.1) 0x0B 0x02 Work.none
  s.loseCores o (s.cores.map (fun p => p.1))

/-- A WAIT record's first read of its object, and whether it finds it damaged. The WAIT records of other contexts on it go
on waiting (DESIGN CHOICE, log 164). -/
def State.hostRead (s : State) (o : Option (Nat × Nat)) : State × Bool :=
  match o with
  | none => (s, false)
  | some o =>
    let q := s.meetSig o.1 o.2
    match q.2 with
    | none => (q.1, false)
    | some syn => (q.1.sigClear o syn, true)

/-! ### The records of a ring, one at a time (15 R356, 17 R425) -/

def subOp (r : SubRec) : Nat := r.opcode.toNat

/-- The deadline of an accepted RUN: what the record gives, else the implicit one (15 R365). -/
def State.accDeadline (s : State) (n : Nat) (a : Acc) : Nat :=
  if a.sub.deadline = 0 then a.tick + s.beHorizon (s.ctx n).part else a.sub.deadline.toNat

/-- The RUN of an accepted record (15 R358, R365); an explicit deadline that it missed while it waited makes it LATE. -/
def State.newRun (s : State) (n : Nat) (a : Acc) : Run :=
  { sub := a.sub, tick := a.tick, energy := a.energy
    deadline := s.accDeadline n a
    implicit := a.sub.deadline = 0, missed := a.missed, status := if a.missed && a.sub.deadline ≠ 0 then 2 else 0, formats := 0, code := 0, codeSize := 0, liveMap := 0
    liveSize := 0, started := false, groups := [] }

/-- Begins the record at the head of the accepted ones; those that complete at once post and give way. A RUN that missed an
explicit deadline under ABORT while it waited ends in its place in the ring (DEDUCED, log 177). -/
def State.startRecs (s : State) (n : Nat) : List Acc → State
  | [] => s.onCtx n (fun x => { x with accepted := [], st := .idle, run := none })
  | a :: r =>
    if subOp a.sub = 1 then
      if a.missed && a.sub.deadline ≠ 0 && (s.ctx n).policy = 1 then (s.postAcc n a 2 4).startRecs n r
      else s.onCtx n (fun x => { x with accepted := a :: r, st := .ready, run := some (s.newRun n a) })
    else if subOp a.sub = 2 then
      let p := (s.ctx n).part
      match s.handle p a.sub.op0.toNat with
      | none =>
        ((s.violate p n p .foreignHandle a.sub.op0.toNat).post n a.sub 0 0 0).startRecs n r
      | some o =>
        let s := s.onCtx n (fun x => { x with accepted := a :: r, st := .idle, run := none })
        s.onRegion o.1 (fun g => { g with updates := g.updates ++ [hostUpd o.2 (a.sub.op1.setWidth 32) (a.sub.flags.getLsbD 1) n] })
    else if subOp a.sub = 3 then
      let p := (s.ctx n).part
      let o := s.handle p a.sub.op0.toNat
      let s := if o.isNone then s.violate p n p .foreignHandle a.sub.op0.toNat else s
      let t := a.sub.op1.setWidth 32
      let eq := a.sub.flags.getLsbD 2
      let q := s.hostRead o
      let s := q.1
      if q.2 then (s.post n a.sub 5 0 0).startRecs n r
      else if waitMet (s.waitVal o) t eq then (s.post n a.sub 0 0 0).startRecs n r
      else
        let tmo := bits a.sub.op1.toNat 32 32
        let e := if tmo = 0 then none else some (s.time + 40 * tmo)
        s.onCtx n (fun x => { x with accepted := a :: r, st := .idle, run := none, hostWait := some (o, t, eq, e) })
    else if subOp a.sub = 5 then
      match s.startSync (s.ctx n).part (bits a.sub.flags.toNat 8 8) with
      | none => (s.post n a.sub 4 0 0).startRecs n r
      | some g =>
      if g.2.isEmpty then (g.1.post n a.sub 0 0 0).startRecs n r
      else g.1.onCtx n (fun x => { x with accepted := a :: r, st := .idle, run := none, hostSync := some (g.2, 0) })
    else (s.post n a.sub 0 0 0).startRecs n r

/-- Completes the record at the head and begins the next. -/
def State.endRec (s : State) (n status detail energy : Nat) : State :=
  match (s.ctx n).accepted with
  | [] => s
  | a :: r => (s.post n a.sub status detail energy).startRecs n r

/-- Decides a context's WAIT record after an object took its present value. -/
def State.decideHost (s : State) (o : Nat × Nat) (n : Nat) : State :=
  match (s.ctx n).hostWait with
  | some (some q, t, eq, e) =>
    if q = o && waitMet (s.sigVal o) t eq && s.inTime e then
      (s.onCtx n (fun x => { x with hostWait := none })).endRec n 0 0 0
    else s
  | _ => s

def State.decideHosts (s : State) (o : Nat × Nat) : List Nat → State
  | [] => s
  | n :: r => (s.decideHost o n).decideHosts o r

/-- An object takes a new value, and every wait held on it is decided again (14 R343, R345). -/
def State.sigWrite (s : State) (o : Nat × Nat) (v : W32) (source : Option Nat) : State :=
  let s := s.onRegion o.1 (fun g => { g with
    sig := Tab.put g.sig o.2 v
    sigBy := match source with
      | some c => Tab.put g.sigBy o.2 c
      | none => Tab.del g.sigBy o.2 })
  (s.decideCores o (s.cores.map (fun p => p.1))).decideHosts o (s.ctxs.map (fun p => p.1))

/-- Applies an update to an object. -/
def State.sigApply (s : State) (o : Nat × Nat) (v : W32) (set : Bool) (source : Option Nat) : State :=
  s.sigWrite o (if set then v else s.sigVal o + v) source

/-- A WAIT record on the object completes with DATA_UNCORRECTABLE. -/
def State.loseHost (s : State) (o : Nat × Nat) (n : Nat) : State :=
  match (s.ctx n).hostWait with
  | some (some q, _, _, _) => if q = o then (s.onCtx n (fun x => { x with hostWait := none })).endRec n 5 0 0 else s
  | _ => s

def State.loseHosts (s : State) (o : Nat × Nat) : List Nat → State
  | [] => s
  | n :: r => (s.loseHost o n).loseHosts o r

/-- An object with an uncorrectable syndrome is lost, and every wait on it ends (19 R461). -/
def State.sigLost (s : State) (o : Nat × Nat) (syn : Nat) : State := (s.sigClear o syn).loseHosts o (s.ctxs.map (fun p => p.1))

/-! ### Removing work (20 R480) -/

/-- What a context reset leaves on a core: accumulator, latches and scratchpad. -/
def Exec.removed (x : Exec) : Exec :=
  { x with
    regs := Regs.zero, groupNo := 0, tileQ := [], drains := [], taken := [], ex := [], shadow := [], tags := [], queue := []
    inflight := [], hold := .clear, savedE := none, puts := [], reds := [], step := none, cap := none, setvl := none, ergPos := none, decs := [] }

/-- What a restart of the group leaves: registers, capture slot and the open step as well (19 R467). -/
def Exec.quiet (x : Exec) : Exec :=
  { x with
    tileQ := [], drains := [], taken := [], savedE := none, ex := x.ex.map (fun p => (p.1, { p.2 with queue := [], stream := [], load := none })), tags := []
    queue := [], inflight := [], hold := .clear, puts := [], reds := [], ergPos := none, decs := [] }

def withoutContrib (idx : Nat) (r : Reduction) : Reduction :=
  { r with got := r.got.filter (fun k => k.member ≠ idx) }

/-- The unit's reduction that a core runs. -/
def OwnRed.runs (p : Nat) (o : OwnRed) (r : Reduction) : Bool :=
  r.part = p && r.jg = o.jg && r.kidx = o.kidx && r.step = o.step % 2 ^ 24 && r.rep = o.rep

/-- The unit's reductions without member `idx`'s contribution to the reduction that a core runs, or, for the removal of
its context, without that reduction (20 R480). -/
def dropContrib (p : Nat) (o : OwnRed) (idx : Nat) (whole : Bool) (l : List Reduction) : List Reduction :=
  (l.map (fun r => if o.runs p r then withoutContrib idx r else r)).filter (fun r => !o.runs p r || (!whole && !r.got.isEmpty))

/-- Flits not yet sent that carry the writes or contributions of logical core `l` of the job with this tag. -/
def keptFlit (tag l : Nat) (t : TxFlit) : Bool :=
  !((t.ty = 1 || t.ty = 4) && t.flit.jobTag.toNat = tag && t.flit.score.toNat = l)

/-- Takes this module's contributions of the core's reductions out of the units here. -/
def State.dropReds (s : State) (p : Nat) (whole : Bool) : List OwnRed → State
  | [] => s
  | o :: rest =>
    let s := match (s.part p).job with
      | none => s
      | some j =>
        match j.group o.jg with
        | none => s
        | some g =>
          s.onPort g.port (fun q => { q with reds := dropContrib p o g.index whole q.reds })
    s.dropReds p whole rest

/-- Removes a core's work from the wells, the reduction units and the link ports. -/
def State.dropOutside (s : State) (c : Nat) : State :=
  let p := match (s.core c).ctx with
    | some n => (s.ctx n).part
    | none => 0
  let tag := (s.part p).job.elim 256 (fun j => j.tag)
  let l := (s.core c).logical
  let s := (s.abortPut c).dropReds p true (s.x c).reds
  { s with
    stks := s.stks.map (fun k => (k.1, { k.2 with reqs := k.2.reqs.filter (fun r => r.core ≠ c) }))
    ports := s.ports.map (fun k => (k.1, { k.2 with waiting := k.2.waiting.filter (keptFlit tag l) })) }

def State.dropOutsides (s : State) : List Nat → State
  | [] => s
  | c :: r => (s.dropOutside c).dropOutsides r

/-- Removes a context from the cores that hold it. -/
def State.removeCtx (s : State) (n : Nat) : State :=
  let cs := s.heldCores n
  (s.dropOutsides cs).onCores (fun p => { p with ctx := none, run := .idle, x := p.x.removed }) cs

/-- Whether a context's end concerns its job's members (20 R481). -/
def State.clUser (s : State) (n : Nat) : Bool := (s.ctx n).usedCl && (s.part (s.ctx n).part).job.isSome

/-- RESET_NOTICE to every member, before the removal starts. -/
def State.resetNotice (s : State) (n : Nat) : State :=
  if s.clUser n then s.sendMembers (s.ctx n).part 7 0 else s

def State.epochAfter (s : State) (n : Nat) : State :=
  if s.clUser n then s.advanceEpoch (s.ctx n).part else s

/-! ### The end of a RUN -/

/-- Posts the completion record of the RUN: STATUS of the highest rank, DETAIL with every code that arose, ENERGY since its
acceptance. -/
def State.postRun (s : State) (n : Nat) : State :=
  match (s.ctx n).run with
  | none => s
  | some r => s.post n r.sub (topStatus r.status) r.status (s.energySince n r.energy)

/-- The accepted records behind the one that has ended. -/
def State.nextRec (s : State) (n : Nat) : State :=
  s.startRecs n ((s.ctx n).accepted.drop 1)

def Ctx.settle (x : Ctx) : Ctx :=
  { x with selected := false, preempt := false, restart := false, saved := [], kept := [] }

/-! ### Groups (04 R83, R84) -/

def State.onRun (s : State) (n : Nat) (f : Run → Run) : State :=
  s.onCtx n (fun x => { x with run := x.run.map f })

def Group.fresh (d : Nat) (implicit : Bool) (now : Nat) : Group :=
  { deadline := d, implicit := implicit, opened := [], closed := [], missed := false, since := now }

/-- Core of rank `k` closes its open group `g`. -/
def Run.closeGroup (r : Run) (g k : Nat) : Run :=
  match Tab.at? r.groups g with
  | none => r
  | some q => { r with groups := Tab.put r.groups g { q with closed := k :: q.closed } }

/-- Core of rank `k` opens group `g` with the deadline `d` (0: implicit, from tick `now` and horizon `h`). The group's
deadline is the smallest value supplied; the implicit one is fixed by the first core that opens the group
(15 R358). With explicit and implicit ones on different cores, an explicit one that is smaller than the deadline so far
replaces it (DESIGN CHOICE, log 159). -/
def Run.openGroup (r : Run) (g k d now h : Nat) : Run :=
  match Tab.at? r.groups g with
  | none =>
    let q := if d = 0 then Group.fresh (now + h) true now else Group.fresh d false now
    { r with groups := Tab.put r.groups g { q with opened := [k] } }
  | some q =>
    let q := if d ≠ 0 && d < q.deadline then { q with deadline := d, implicit := false } else q
    { r with groups := Tab.put r.groups g { q with opened := k :: q.opened } }

/-- What a context's cores hold: their images while it is saved or is being restored. -/
def State.members (s : State) (n : Nat) : List (Exec × RunSt) :=
  let im := (s.ctx n).saved
  if im.isEmpty then (s.heldCores n).map (fun c => (s.x c, (s.core c).run)) else im.map (fun k => (k.2.x, k.2.run))

/-- A core has nothing of group `g` left to do, and opens it no more unless it has done so. -/
def Exec.pastGroup (x : Exec) (run : RunSt) (g : Nat) : Bool :=
  !(x.queue.any (fun i => i.group = g)) && !(x.inflight.any (fun i => i.group = g)) && (run = .halted || x.groupNo ≥ g)

/-- The group's cores have closed it and its instructions have completed (04 R84). -/
def State.groupDone (s : State) (n g : Nat) (q : Group) : Bool :=
  q.opened.all (fun k => q.closed.contains k) && (s.members n).all (fun m => m.1.pastGroup m.2 g)

/-- The expiry tick of a deadline: the smallest multiple of 40 not below it (04 R85). -/
def expiry (d : Nat) : Nat := (d + 39) / 40 * 40

/-! ### Missed deadlines (15 R362 to R366) -/

/-- A deadline whose expiry tick has come, or, with `past`, is over: a completion in the expiry tick wins (04 R85, 14 R347).
One already passed expires at the next tick. -/
def State.due (s : State) (past : Bool) (d since : Nat) : Bool :=
  let e := if d < since then since + 40 else expiry d
  if past then s.time > e else s.time ≥ e

/-- Groups from 1 on with an expired deadline of the kind asked for, not yet noted and not complete. -/
def State.dueGroups (s : State) (past : Bool) (n : Nat) (implicit : Bool) : List Nat :=
  match (s.ctx n).run with
  | none => []
  | some r => (r.groups.filter (fun q => q.1 ≠ 0 && q.2.implicit = implicit && !q.2.missed
      && s.due past q.2.deadline q.2.since && !s.groupDone n q.1 q.2)).map (fun q => q.1)

/-- The RUN itself, with group 0, as number 0. -/
def State.dueRun (s : State) (past : Bool) (n : Nat) (implicit : Bool) : List Nat :=
  match (s.ctx n).run with
  | none => []
  | some r => if r.implicit = implicit && !r.missed && s.due past r.deadline r.tick then [0] else []

/-- The expired deadlines of a kind. -/
def State.dueAll (s : State) (past : Bool) (n : Nat) (implicit : Bool) : List Nat :=
  s.dueRun past n implicit ++ s.dueGroups past n implicit

/-- A deadline of the context is over and not yet noted: its expiry acts before any later step of the context (15 R362,
R364, R365). -/
def State.overdue (s : State) (n : Nat) : Bool := !(s.dueAll true n false).isEmpty || !(s.dueAll true n true).isEmpty

def Run.miss (r : Run) (g : Nat) : Run :=
  if g = 0 then { r with missed := true }
  else match Tab.at? r.groups g with
    | none => r
    | some q => { r with groups := Tab.put r.groups g { q with missed := true } }

/-- An event in every core of the context, also while another context holds the core (21 R493). -/
def State.ctxEvents (s : State) (n kind data : Nat) : List Nat → State
  | [] => s
  | c :: r =>
    let w : Work := if (s.core c).ctx = some n then s.workOf c else { Work.none with part := (s.ctx n).part, ctx := n }
    (s.event (.core c) kind data w).ctxEvents n kind data r

def State.missOne (s : State) (n g : Nat) : State :=
  ((s.onRun n (fun r => r.miss g)).count n 10 1).ctxEvents n 0x07 g (s.ctxCores n)

def State.missAll (s : State) (n : Nat) : List Nat → State
  | [] => s
  | g :: r => (s.missOne n g).missAll n r

/-- Explicit deadlines that expire now are noted: DEADLINE_MISS counts each, and the status follows DL_POLICY. A group
abort for another reason in the expiry tick is one abort with both conditions (15 R366, 20 R478; DEDUCED, log 73). -/
def State.noteDue (s : State) (past : Bool) (n : Nat) : State :=
  let gs := s.dueAll past n false
  if gs.isEmpty then s else (s.missAll n gs).status n (if (s.ctx n).policy = 1 then 2 else 1)

/-- The group abort of 15 R364 with status code `code`. -/
def State.abortRun (s : State) (n code : Nat) : State :=
  let s := (((s.noteDue false n).status n code).resetNotice n).removeCtx n
  let s := (s.onCtx n Ctx.settle).postRun n
  (s.epochAfter n).nextRec n

/-- RUNs of the kind that wait behind the record in progress, not yet noted, and whose deadline has expired, by their place
(15 R362, R365). -/
def State.dueAccs (s : State) (n : Nat) (implicit : Bool) : List Nat :=
  let x := s.ctx n
  (List.range x.accepted.length).filter (fun i => !(i = 0 && x.run.isSome) &&
    (x.accepted[i]?).elim false (fun a => recOp a.sub = 1 && !a.missed && (a.sub.deadline = 0) = implicit
      && s.due true (s.accDeadline n a) a.tick))

def Ctx.missAcc (x : Ctx) (i : Nat) : Ctx := { x with accepted := x.accepted.modify i (fun a => { a with missed := true }) }

/-- The deadlines of waiting RUNs are noted, each in the counter `k`, an explicit one with its event. -/
def State.missAccs (s : State) (n k : Nat) : List Nat → State
  | [] => s
  | i :: r =>
    let s := (s.onCtx n (fun x => x.missAcc i)).count n k 1
    (if k = 10 then s.ctxEvents n 0x07 0 (s.ctxCores n) else s).missAccs n k r

/-- The end of an instruction's work: done, or the group abort of the issuing context. -/
def Eff.settle (n : Nat) : Eff → State
  | .done s => s
  | .abort code s => s.abortRun n code

/-- No instruction of the core is queued or running. -/
def Exec.drained (x : Exec) : Bool := x.queue.isEmpty && x.inflight.isEmpty && x.reds.isEmpty

def Regs.kept (g : Regs) : Kept := { flags := g.flags, key := g.key, lane := g.lane, step := g.step, seq := g.seq }

/-- The lowest-numbered spare of a core's region (01 R15). -/
def State.spareFor (s : State) (c : Nat) : Option Nat :=
  ((List.range 66).map (fun i => regionOf c * 66 + i)).find? (fun q => (s.core q).st = .spare)

/-- A core that is to move out of service, or to a spare, at the point where its context now stands (19 R465, R470). -/
def State.leaving (s : State) (c : Nat) : Bool :=
  match (s.core c).moveOut with
  | none => false
  | some fence => fence || (s.spareFor c).isSome

/-- A context that such a core has carried to this point completes with CORE_FENCED. -/
def State.noteLeaving (s : State) (n : Nat) (cs : List Nat) : State := if cs.any s.leaving then s.status n 13 else s

/-- A RUN whose cores have all halted, with every instruction complete, ends (04 R76). -/
def State.maybeFinish (s : State) (n : Nat) : State :=
  let cs := s.heldCores n
  if ((s.ctx n).st = .running || (s.ctx n).st = .stopping) && !cs.isEmpty
      && cs.all (fun c => (s.core c).run = .halted && (s.x c).drained) then
    let kept := cs.foldl (fun t c => Tab.put t (s.core c).logical (s.regs c).kept) (s.ctx n).kept
    let s := (s.noteLeaving n cs).onCores (fun p => { p with ctx := none, run := .idle, x := p.x.removed }) cs
    ((s.onCtx n (fun x => { x.settle with kept := kept })).postRun n).nextRec n
  else s

/-- A stopping context whose cores have all stopped, with nothing outstanding, goes to SAVING (15 R368). -/
def State.maybeSave (s : State) (n : Nat) : State :=
  let cs := s.heldCores n
  if (s.ctx n).st = .stopping && cs.all (fun c => ((s.core c).run = .halted || (s.core c).run = .stopped) && (s.x c).drained)
  then s.onCtx n (fun x => { x with st := .saving })
  else s

end Sys2Proof.Machine
end

