-- ==== Sys2Proof/Machine/Flags.lean ====
section
/-! DEFINITION. The arithmetic flags of a core (02 R38, 04 R70, R71) and the number of an FP32 or integer result's
flags. The flag computations themselves stand beside the arithmetic in Fp.lean and Formats.lean. -/

namespace Sys2Proof.Machine

/-- FLAGS as the program reads it. -/
def Flags.word (f : Flags) : W64 :=
  BitVec.ofNat 64 (b2n f.intSat + 2 * b2n f.fpOvf + 4 * b2n f.cvtSat + 8 * b2n f.invalid)

/-- Writing 1 clears (04 R70). -/
def Flags.clear (f : Flags) (v : W64) : Flags :=
  { intSat := f.intSat && !v.getLsbD 0, fpOvf := f.fpOvf && !v.getLsbD 1, cvtSat := f.cvtSat && !v.getLsbD 2
    invalid := f.invalid && !v.getLsbD 3 }

/-- The events of an instruction set the flags of the core whose engine or well request produced them (04 R71). -/
def State.addFlags (s : State) (c : Nat) (f : Flags) : State :=
  s.onRegs c (fun g => { g with flags := g.flags.join f })

def joinAll : List Flags → Flags
  | [] => Flags.none
  | f :: r => f.join (joinAll r)

end Sys2Proof.Machine
end

