-- ==== Sys2Proof/Machine/Operands.lean ====
section
/-! DEFINITION. Operand forms: scratchpad operands and memory ranges named by descriptors, the tags they take, format
checks, and the registers that name scalars, masks and slots (04 R69, R78, 12 R269 to R274, 13 R299, R300). -/

namespace Sys2Proof.Machine

/-- The base of a core's own scratchpad window (11 R241). -/
def State.window (s : State) (c : Nat) : Nat := windowBase + spBytes * (s.core c).logical

/-- A scratchpad range that an instruction reads or writes: offset, bytes, direction. -/
structure SpRange where
  off   : Nat
  len   : Nat
  write : Bool
  deriving DecidableEq, Repr

def rd (off len : Nat) : SpRange := { off := off, len := len, write := false }
def wr (off len : Nat) : SpRange := { off := off, len := len, write := true }

/-- What the checks at issue come to: the tags and the mask of stacks, or the status code of the fault (04 R554). -/
inductive Check where
  | ok (tags : List SpRange) (stks : Nat)
  | fail (code : Nat)
  deriving DecidableEq, Repr

def illegal : Check := .fail 4
def mismatch : Check := .fail 7

/-- A scratchpad operand of `n` bytes at descriptor `d`'s base: its offset in the own window (04 R69, 12 R272). -/
def spAt (g : Regs) (win d n : Nat) : Option Nat :=
  let a := g.getA d
  let b := a.1.toNat
  if n ≤ a.2.toNat && win ≤ b && b + n ≤ win + spBytes then some (b - win) else none

/-- An operand whose length its contents decide: the widest range that its descriptor and the window allow, at most
`most` bytes. -/
def spMost (g : Regs) (win d most : Nat) : Option SpRange :=
  let a := g.getA d
  let b := a.1.toNat
  if win ≤ b && b < win + spBytes then
    some { off := b - win, len := min (min a.2.toNat most) (win + spBytes - b), write := false }
  else none

/-- A control read of the core's own scratchpad inside an instruction's work (19 R463). -/
def withSpCtl (s : State) (w : Who) (c off n : Nat) (k : List Byte → Eff) : Eff :=
  let bs := (s.x c).sp.read off n
  if anyBad bs then .abort 5 (s.poisonRead w (badGranule (s.window c + off) bs)) else k (plain bs)

/-- A range of a descriptor at an offset lies inside its extent (04 R69). -/
def inExtent (g : Regs) (d off n : Nat) : Bool := off + n ≤ (g.getA d).2.toNat

def baseOf (g : Regs) (d : Nat) : Nat := (g.getA d).1.toNat

/-- A memory range lies wholly in stack memory or in one core's window (13 R300). -/
def oneArea (va n : Nat) : Bool :=
  va + n ≤ 0x10000000000
    || (windowBase ≤ va && va + n ≤ windowEnd && (n = 0 || (va - windowBase) / spBytes = (va + n - 1 - windowBase) / spBytes))

/-- A range in the issuing core's own window is a scratchpad access of that core: its offset (13 R300). -/
def ownOff (win va n : Nat) : Option Nat := if win ≤ va && va + n ≤ win + spBytes then some (va - win) else none

/-- The tag of a side of a dm or cl instruction: none outside the own window. -/
def sideTag (win va n : Nat) (write : Bool) : List SpRange :=
  match ownOff win va n with
  | some o => if n = 0 then [] else [{ off := o, len := n, write := write }]
  | none => []

/-- The stacks that a range of partition `p` touches, as a mask (11 R253). -/
def State.stackMask (s : State) (p va n : Nat) : Nat :=
  if va ≥ 0x10000000000 then 0
  else
    (pieces va (min n (0x10000000000 - va))).foldl (fun m k =>
      match s.xlat p k.1 false with
      | .stack pa => m ||| 2 ^ stackOf pa
      | _ => m) 0

/-- The memories of a range outside the core's own window, as a mask: bits 0 to 15 the stacks, bit 16 + l the scratchpad
of logical core l (11 R252, R253). -/
def State.memMask (s : State) (win p va n : Nat) : Nat :=
  if va < 0x10000000000 then s.stackMask p va n
  else
    (pieces va n).foldl (fun m k =>
      let l := (k.1 - windowBase) / spBytes
      if k.1 < windowBase || l ≥ 256 || win = windowBase + l * spBytes then m else m ||| 2 ^ (16 + l)) 0

/-- Two granule ranges overlap (04 R78). -/
def overlaps (a b : Tag) : Bool := a.lo < b.hi && b.lo < a.hi

/-- A later tag conflicts with an earlier one (04 R79). -/
def conflicts (earlier later : Tag) : Bool := overlaps earlier later && (earlier.write || later.write)

/-- A tag for a range, widened to whole 256-byte granules. An empty range takes none. -/
def SpRange.tag (r : SpRange) (no owner : Nat) : Tag :=
  { no := no, lo := r.off / 256, hi := cdiv (r.off + r.len) 256, write := r.write, owner := owner }

/-- One tag for each nonempty range; a range both read and written takes one write tag (12 R273), and two streams over one
range take one tag (DESIGN CHOICE, log 167). -/
def mergeRanges : List SpRange → List SpRange
  | [] => []
  | r :: rest =>
    let rest := mergeRanges rest
    if r.len = 0 then rest
    else if rest.any (fun q => q.off = r.off && q.len = r.len) then
      rest.map (fun q => if q.off = r.off && q.len = r.len then { q with write := q.write || r.write } else q)
    else r :: rest

def makeTags (no owner : Nat) : List SpRange → List Tag
  | [] => []
  | r :: rest => r.tag no owner :: makeTags (no + 1) owner rest

/-- The format set of the context on a core (04 R94). -/
def State.formatSet (s : State) (n : Nat) : Nat := ((s.ctx n).run.elim 0 (fun r => r.formats))

/-- Every named format lies in the context's format set (04 R94). -/
def State.inSet (s : State) (n : Nat) (fs : List Nat) : Bool := fs.all (fun f => bit (s.formatSet n) f)

/-- The maker of a core's accesses. -/
def State.who (s : State) (c : Nat) (g : Regs) : Who :=
  match (s.core c).ctx with
  | some n => { part := (s.ctx n).part, ctx := some n, core := some c, layer := g.layer, op := g.op }
  | none => { part := 0, ctx := none, core := some c, layer := g.layer, op := g.op }

/-- An operand mask descriptor of the MK field: none, some mask, or a reserved value (12 R270). -/
def maskOk (mk : Nat) : Bool := mk = 0 || 8 ≤ mk

/-- The issue of an instruction that adds an MX scale range from the next descriptor (12 R273). -/
def scaleAt (g : Regs) (win d n : Nat) : Option Nat := if d ≤ 14 then spAt g win (d + 1) n else none

end Sys2Proof.Machine
end

