-- ==== Sys2Proof/Machine/Issue.lean ====
section
/-! DEFINITION. How an instruction issues: the fetch and its decoding, the sequencer, the engine queues and the scoreboard
(04 R73 to R82, 11 R249, R253, 12 R271, R274, R280). An instruction that may not issue now leaves the state as it is:
the sequencer presents it again (DESIGN CHOICE, log 2). -/

namespace Sys2Proof.Machine

/-! ### Fetch -/

/-- The line of the control cache that holds a byte of a context, when the core holds it (11 R249). -/
def lineOf (l : List (Nat × Nat × List PByte)) (n line : Nat) : Option (List PByte) :=
  (l.find? (fun e => e.1 = n && e.2.1 = line)).map (fun e => e.2.2)

/-- Makes a line present, from memory; the cache keeps 256 lines, the oldest going first (DESIGN CHOICE, log 24). -/
def State.fillLine (s : State) (c n : Nat) (w : Who) (va : Nat) : Got :=
  match lineOf (s.core c).cache n (va / 256) with
  | some bs => { s := s, bs := bs, stop := false }
  | none =>
    let g := s.readVirt w (va / 256 * 256) 256
    if g.stop || anyBad g.bs then { g with stop := true }
    else
      { g with s := g.s.onCore c (fun p =>
          let l := p.cache ++ [(n, va / 256, g.bs)]
          { p with cache := if l.length > 256 then l.drop 1 else l }) }

/-- A line that could not be filled: it holds poison, or its translation entry does. -/
abbrev State.poisonLine (s : State) (w : Who) (va : Nat) (bs : List PByte) : State :=
  s.poisonRead w (s.poisonAddr w (va / 256 * 256) 256 bs)

/-- Whether a core's sequencer may issue for its context: the context, its RUN and the registers. While a fence restarts
the open group, no core of the context issues (19 R467); none does past a deadline whose expiry has still to act. -/
def State.issuing (s : State) (c : Nat) : Option (Nat × Run × Regs) :=
  let p := s.core c
  match p.ctx with
  | none => none
  | some n =>
    let x := s.ctx n
    match x.run with
    | none => none
    | some r =>
      if p.run = .running && !p.scrub && p.st = .active && (x.st = .running || x.st = .stopping)
          && !x.restart && p.x.hold = .clear && !s.overdue n then some (n, r, p.x.regs)
      else none

/-- The fetch of an instruction of `words` words fails (04 R73, 12 R280): it leaves the code extent, or it spans the
end of an active loop. -/
def badFetch (r : Run) (g : Regs) (words : Nat) : Bool :=
  g.pc + 8 * words > r.codeSize || (words = 2 && g.loops.any (fun k => k.fin = g.pc + 8))

/-- The word at byte `a` in its line. -/
def wordAt (line : List PByte) (a : Nat) : W64 := BitVec.ofNat 64 (leNat (plain ((line.drop (a % 256)).take 8)))

/-- What a fetch comes to: the instruction that its words spell, or the status code of its fault (04 R72, R73). -/
inductive Word where
  | instr (i : Instr)
  | fail (code : Nat)
  deriving DecidableEq, Repr

/-- The extension word at byte `a`, when the first word `w` asks for one; then the words decode. -/
def State.fetchExt (s : State) (c n : Nat) (r : Run) (g : Regs) (w : W64) (a : Nat) : State × Word :=
  if hasExt w then
    if badFetch r g 2 then (s, .fail 4)
    else
      let f := s.fillLine c n (s.who c g) a
      if f.stop then (f.s.poisonLine (s.who c g) a f.bs, .fail 5)
      else (f.s, (decodeWords (Fin.ofNat 264 c) w (wordAt f.bs a)).elim (.fail 4) .instr)
  else (s, (decodeWords (Fin.ofNat 264 c) w 0).elim (.fail 4) .instr)

/-- Fetches at the pc through the control cache and decodes: the state after the lines have come, and the instruction or
the fault (04 R72, R73, 11 R249). Lines are never fetched ahead, so a line's bytes are those that memory holds when the
sequencer first executes from it (DESIGN CHOICE, log 24). -/
def State.fetch (s : State) (c n : Nat) (r : Run) (g : Regs) : State × Word :=
  if badFetch r g 1 then (s, .fail 4)
  else
    let a := r.code + g.pc
    let f := s.fillLine c n (s.who c g) a
    if f.stop then (f.s.poisonLine (s.who c g) a f.bs, .fail 5)
    else f.s.fetchExt c n r g (wordAt f.bs a) (a + 8)

/-- Fetches, and runs `k` where the words at the pc spell the instruction `i`, once no stack that this needs is in
self-refresh. Words that spell none, a fetch outside the code and poisoned bytes end the RUN (04 R73, R554); words of another
instruction leave the state as it is (log 2). -/
def fetched (s : State) (c : Nat) (i : Instr) (k : State → Nat → Run → Regs → Eff) : State :=
  match s.issuing c with
  | none => s
  | some (n, r, g) =>
    s.orWait (match s.fetch c n r g with
      | (t, .fail code) => t.abortRun n code
      | (t, .instr j) => if j = i then (k t n r g).settle n else s)

/-! ### The sequencer's own instructions -/

/-- A scalar instruction that changes only registers (04 R74). -/
def scalar (s : State) (c : Nat) (i : Instr) (words : Nat) (f : State → Nat → Run → Regs → Regs) : State :=
  fetched s c i (fun s n r g => .done (s.pass c words (f s n r)))

/-! ### The scoreboard and its watchdog (04 R78 to R82) -/

/-- The engine that holds the core's oldest tag. -/
def Exec.oldest (x : Exec) : Option Engine :=
  match x.tags with
  | [] => none
  | t :: _ => ((x.queue ++ x.inflight).find? (fun k => k.id = t.owner)).map (fun k => k.eng)

/-- Engine `e` moves data: where it holds the oldest tag, the watchdog counts from now on (04 R82). -/
def Exec.moves (x : Exec) (e : Engine) (now : Nat) : Exec := if x.oldest = some e then { x with watch := now } else x

/-- Tags are taken or released: with another holder of the oldest tag, the watchdog counts from now on. -/
def Exec.retag (x : Exec) (ts : List Tag) (now : Nat) : Exec :=
  { x with tags := ts, watch := if x.tags.head?.map Tag.owner = ts.head?.map Tag.owner then x.watch else now }

/-- An instruction enters its engine and begins to move data. -/
def Exec.begin (x : Exec) (k : Issued) (now : Nat) : Exec := { x with inflight := x.inflight ++ [k] }.moves k.eng now

/-! ### Engines -/

def Exec.queueOf (x : Exec) (e : Engine) : List Issued := x.queue.filter (fun k => k.eng = e)
def Exec.flightOf (x : Exec) (e : Engine) : List Issued := x.inflight.filter (fun k => k.eng = e)

/-- The most instructions an engine runs at once: 4 for DMA (13 R311), 16 for the near-memory port (10 R223). -/
def engineMost (e : Engine) : Option Nat :=
  match e with
  | .dma => some 4
  | .nearMem => some 16
  | _ => none

/-- The tags of an instruction conflict with a tag that an earlier instruction still holds (04 R79). -/
def Exec.blocked (x : Exec) (id : Nat) : Bool :=
  (x.tags.filter (fun t => t.owner = id)).any (fun t =>
    x.tags.any (fun e => e.owner < id && conflicts e t))

/-- An earlier instruction has still to place requests to a memory of the mask: one that has not started, or a
`cl.reduce` whose result has not landed whole (11 R252, R253; DEDUCED for the latter, log 152). -/
def Exec.stackHeld (x : Exec) (id stks : Nat) : Bool :=
  x.queue.any (fun k => k.id < id && (k.stks &&& stks) ≠ 0) || x.reds.any (fun o => o.id < id && (o.stks &&& stks) ≠ 0)

/-- Whether an issued instruction may start in its engine (04 R79, 11 R253, 13 R311). -/
def Exec.mayStart (x : Exec) (k : Issued) : Bool :=
  !x.blocked k.id && !x.stackHeld k.id k.stks
    && !(x.queue.any (fun q => q.eng = k.eng && q.id < k.id))
    && (match engineMost k.eng with
        | some m => (x.flightOf k.eng).length < m
        | none => true)

/-- The work of an engine instruction: the core, the instruction with its registers. `none` while the engine waits
for data of its own core (a tile, a table). -/
abbrev Effect := State → Nat → Issued → Option Eff

/-- An instruction whose fields show that a load of Erg weights after it continues no earlier one (07 R159). The pages of an
`at.dec` show only when it runs: see `Exec.decs`. -/
def breaksErg (i : Instr) : Bool :=
  match i with
  | .mxForm _ _ | .dmTblCore _ _ _ _ | .dmTblStack _ _ _ _ _ | .dmExpand _ _ => true
  | .mxRun _ f => f.sfmt == 12 || f.bfmt == 12
  | .mxNmv _ f => fmtIsErg f.wfmt.toNat
  | .atQk _ f => f.qfmt == 12 || f.kfmt == 12
  | .atPv _ f => f.pfmt == 12 || f.vfmt == 12
  | .atDec _ f => f.qfmt == 12
  | _ => false

/-- Issues an instruction to an engine: checks, tags, queue place, and at once its work when nothing holds it.
`next` gives the registers after the issue. -/
def issue (s : State) (c words : Nat) (e : Engine) (i : Instr) (ready : State → Nat → Bool)
    (check : State → Nat → Regs → Check) (next : Regs → Regs) (run : Effect) : State :=
  fetched s c i (fun s n _ g =>
    if !ready s c then .done s
    else match check s n g with
    | .fail code => .abort code s
    | .ok ranges stks =>
      let x := s.x c
      let ranges := mergeRanges ranges
      if (x.queueOf e).length ≥ 8 || x.tags.length + ranges.length > 64 then .done s
      else
        let k : Issued :=
          { id := x.nextId, group := x.groupNo, eng := e, instr := i, regs := g, stks := stks, brk := x.breaks
            step := x.step.map (fun t => (t.num.toNat % 2 ^ 24, t.rep)) }
        let x := { x.retag (x.tags ++ makeTags x.nextTag k.id ranges) s.time with
          nextTag := x.nextTag + ranges.length
          nextId := x.nextId + 1
          breaks := x.breaks + b2n (breaksErg i)
          regs := (next g).past words }
        let queued := s.setX c { x with queue := x.queue ++ [k] }
        if x.mayStart k then
          let t := s.setX c (x.begin k s.time)
          match run t c k with
          | none => .done queued
          | some e => if (t.slept e.state).isEmpty then e else .done (queued.wakeStacks (t.slept e.state))
        else .done queued)

/-- Nothing of the core holds an instruction's issue beyond the common rules. -/
def always (_ : State) (_ : Nat) : Bool := true

/-- Starts an instruction that waits in an engine's queue; one that needs a stack in self-refresh goes on waiting there, and
one whose tiles have not all come keeps its place in the queue too (06 R137; DESIGN CHOICE, log 186). -/
def startQueued (s : State) (c : Nat) (k : Issued) (run : Effect) : State :=
  let x := s.x c
  if x.mayStart k then
    match run (s.setX c ({ x with queue := x.queue.filter (fun q => q.id ≠ k.id) }.begin k s.time)) c k with
    | some e =>
      match (s.core c).ctx with
      | some n => s.orWait (e.settle n)
      | none => s
    | none => s
  else s

/-- An instruction that reads or writes memory until it completes; a `dm.tbl` has read its image when it starts, and
waits for its bank alone (11 R256). -/
def Issued.accesses (k : Issued) : Bool :=
  match k.instr with
  | .dmTblCore _ _ _ _ => false
  | .dmTblStack _ _ _ _ _ => false
  | _ => k.eng == .dma || k.eng == .nearMem || k.eng == .pages

/-- Every access of the core's instructions before instruction `id` has been made: no tag held, no DMA or near-memory
instruction running, none with an access still queued, no result of a `cl.reduce` still to land (11 R256). -/
def Exec.released (x : Exec) (id : Nat) : Bool :=
  !x.tags.any (fun t => t.owner < id)
    && !x.inflight.any (fun k => k.id < id && k.accesses)
    && !x.queue.any (fun k => k.id < id && (k.stks ≠ 0 || k.eng == .dma || k.eng == .nearMem || k.eng == .pages))
    && !x.reds.any (fun o => o.id < id)

/-- Every earlier instruction of the core has completed (04 R71, 11 R251). -/
def Exec.idle (x : Exec) : Bool := x.drained

end Sys2Proof.Machine
end

