-- ==== Sys2Proof/Machine/Random.lean ====
section
/-! DEFINITION. The random-number generator and its stream assignment (03 R54 to R64). -/

namespace Sys2Proof.Machine

def rotl32 (v : W32) (n : Nat) : W32 := v.rotateLeft n

def rngA (j : Nat) : W32 := BitVec.ofNat 32 ((j + 1) * 0x9E3779B9)
def rngB (j : Nat) : W32 := BitVec.ofNat 32 ((j + 1) * 0x7F4A7C15)

/-- The four words of the generator's state. -/
structure Quad where
  x0 : W32
  x1 : W32
  x2 : W32
  x3 : W32
  deriving DecidableEq, Repr

/-- One round of 03 R54. -/
def rngRound (k0 k1 : W32) (q : Quad) (j : Nat) : Quad :=
  let x0 := q.x0 + (k0 ^^^ rngA j)
  let x2 := q.x2 + (k1 ^^^ rngB j)
  let x0 := x0 + q.x1
  let x1 := rotl32 q.x1 12 ^^^ x0
  let x2 := x2 + q.x3
  let x3 := rotl32 q.x3 20 ^^^ x2
  { x0 := x0, x1 := x3, x2 := x2, x3 := x1 }

/-- The generator: key K, stream S and counter C to four output words (03 R54). -/
def rng (K S C : Nat) : Quad :=
  let k0 := BitVec.ofNat 32 K
  let k1 := BitVec.ofNat 32 (K / 2 ^ 32)
  (List.range 10).foldl (rngRound k0 k1)
    { x0 := BitVec.ofNat 32 C, x1 := BitVec.ofNat 32 (C / 2 ^ 32)
      x2 := BitVec.ofNat 32 (C / 2 ^ 64), x3 := BitVec.ofNat 32 S }

/-- The state that a consuming instruction captures when it issues (03 R59). -/
structure Draw where
  key   : Nat
  lane  : Bool
  step  : Nat
  seq   : Nat
  layer : Nat
  op    : Nat
  draw  : Nat
  l0    : Nat
  core  : Nat
  deriving DecidableEq, Repr

/-- The words that element `e` receives (03 R60). -/
def Draw.at (d : Draw) (e : Nat) : Quad :=
  if d.lane then
    rng d.key (d.core * 2 ^ 16 + e % 32)
      (e / 32 % 2 ^ 32 + d.seq * 2 ^ 32 + d.draw * 2 ^ 64 + (d.step % 2 ^ 16) * 2 ^ 80)
  else
    let L := d.l0 + e
    rng d.key (d.op * 2 ^ 16 + bits L 32 16)
      (L % 2 ^ 32 + d.step * 2 ^ 32 + d.draw * 2 ^ 64 + d.layer * 2 ^ 80)

/-- Word k of an evaluation. -/
def Quad.word (q : Quad) (k : Nat) : W32 :=
  match k with
  | 0 => q.x0 | 1 => q.x1 | 2 => q.x2 | _ => q.x3

end Sys2Proof.Machine
end

