-- ==== Sys2Proof/Machine/Prefix.lean ====
section
/-! DEFINITION. The prefix unit: frames, reference counts, the prefix directory, and `at.page` (09, 12 R294). -/

namespace Sys2Proof.Machine

/-! ### Page-table entries (09 R189) -/

def pteValid (e : Nat) : Bool := bit e 0
def pteK (e : Nat) : Nat := bits e 1 4
def pteV (e : Nat) : Nat := bits e 5 4
def pteFrames (e : Nat) : Nat := bits e 9 5 + 1
/-- The partition-virtual address of the first frame. -/
def pteAddr (e : Nat) : Nat := bits e 16 32 * 65536

def mkPte (k v frames va : Nat) : Nat := 1 + k * 2 + v * 32 + (frames - 1) * 512 + va / 65536 * 65536

/-- Formats that keys and values may have (08 R167). -/
def kvFormat (f : Nat) : Bool := f ≤ 4 || f = 12 || f = 13

/-- The first row of 09 R191: the entry is well formed. -/
def pteWell (e : Nat) : Bool :=
  bits e 14 2 = 0 && bits e 48 16 = 0 && kvFormat (pteK e) && kvFormat (pteV e)
    && pteAddr e % 0x200000 + pteFrames e * 65536 ≤ 0x200000

/-! ### Frames of the pool (09 R192, R193)

A frame is named by its number in stack memory, 64 KiB each. -/

/-- The pool's pages: partition-virtual and physical 2 MiB page numbers, of those that are mapped, for writing where
`write` asks it. -/
def State.poolMapped (s : State) (p : Nat) (write : Bool) : List (Nat × Nat) :=
  let r := s.pfReg (partReg p 3)
  (List.range (fld r 32 15)).filterMap (fun i =>
    match s.xlat p ((fld r 0 27 + i) * 0x200000) write with
    | .stack pa => some (fld r 0 27 + i, pa / 0x200000)
    | _ => none)

/-- The pages in which a page can be allocated: those that the partition may write (DESIGN CHOICE, log 181). -/
def State.poolPages (s : State) (p : Nat) : List (Nat × Nat) := s.poolMapped p true

def State.inPool (s : State) (p va : Nat) : Bool :=
  let r := s.pfReg (partReg p 3)
  fld r 0 27 ≤ va / 0x200000 && va / 0x200000 < fld r 0 27 + fld r 32 15

/-- Why an operation does not go through: a status of 09 R195, or a poisoned translation entry, by its module physical
address, that ends the group (19 R463). -/
inductive PageFail where
  | status (code : Nat)
  | stop (addr : Nat)
  deriving DecidableEq, Repr

/-- The physical frame of a partition-virtual address. -/
def State.frameOf (s : State) (p va : Nat) : Except PageFail Nat :=
  match s.xlat p va false with
  | .stack pa => .ok (pa / 65536)
  | .poisoned => .error (.stop (s.xlatEntry p va))
  | _ => .error (.status 6)

/-- The allocated page that an entry names: its first frame (BAD_PAGE of 09 R195 otherwise). -/
def State.pageOf (s : State) (p e : Nat) : Except PageFail Nat :=
  if !pteValid e || !s.inPool p (pteAddr e) then .error (.status 6)
  else match s.frameOf p (pteAddr e) with
    | .error x => .error x
    | .ok f => if (Tab.at? s.frames f).elim false (fun q => q.frames = pteFrames e) then .ok f else .error (.status 6)

/-- A run of `n` frames from frame `f` overlaps no allocated page. -/
def runFree (t : Tab Frame) (f n : Nat) : Bool := t.all (fun q => f + n ≤ q.1 || q.1 + q.2.frames ≤ f)

/-- The lowest free run of a 2 MiB page. -/
def freeRun (t : Tab Frame) (pp n : Nat) : Option Nat :=
  (List.range (33 - n)).find? (fun o => runFree t (32 * pp + o) n)

def allocPages (t : Tab Frame) (n : Nat) : List (Nat × Nat) → Option (Nat × Nat)
  | [] => none
  | (v, pp) :: r =>
    match freeRun t pp n with
    | some o => some (v * 0x200000 + o * 65536, 32 * pp + o)
    | none => allocPages t n r

/-- The lowest-addressed free run in stack `k`: its partition-virtual address and first frame. -/
def State.allocIn (s : State) (p n k : Nat) : Option (Nat × Nat) :=
  allocPages s.frames n ((s.poolPages p).filter (fun q => q.2 / 32768 = k))

/-- The stacks that the pool covers, starting after stack `last`. -/
def State.poolStacks (s : State) (p last : Nat) : List Nat :=
  let ps := s.poolPages p
  ((List.range 16).map (fun i => (last + 1 + i) % 16)).filter (fun k => ps.any (fun q => q.2 / 32768 = k))

def State.allocFirst (s : State) (p n : Nat) : List Nat → Option (Nat × Nat × Nat)
  | [] => none
  | k :: r =>
    match s.allocIn p n k with
    | some (va, f) => some (va, f, k)
    | none => s.allocFirst p n r

/-- Allocates one page with count 1. -/
def State.allocOne (s : State) (p n : Nat) (ks : List Nat) : Option (State × Nat × Nat) :=
  match s.allocFirst p n ks with
  | none => none
  | some (va, f, k) => some ({ s with frames := Tab.put s.frames f { frames := n, count := 1 } }, va, k)

/-- Allocates `n` pages of `frames` frames: in stack `k`, or round-robin. -/
def State.allocMany (s : State) (p frames k : Nat) (last : Nat) : Nat → Option (State × List Nat × Nat)
  | 0 => some (s, [], last)
  | n + 1 =>
    let ks := if k = 0xFF then s.poolStacks p last else [k]
    match s.allocOne p frames ks with
    | none => none
    | some (s, va, j) =>
      match s.allocMany p frames k j n with
      | none => none
      | some (s, vas, j) => some (s, va :: vas, j)

def State.release1 (s : State) (f : Nat) : State :=
  match Tab.at? s.frames f with
  | none => s
  | some q =>
    if q.count ≤ 1 then { s with frames := Tab.del s.frames f }
    else { s with frames := Tab.put s.frames f { q with count := q.count - 1 } }

/-- Decrements the counts of the listed entries; why not on failure. -/
def State.freeList (s : State) (p : Nat) : List Nat → Except PageFail State
  | [] => .ok s
  | e :: r =>
    match s.pageOf p e with
    | .error x => .error x
    | .ok f => (s.release1 f).freeList p r

/-- Increments the counts of the listed entries; why not on failure. -/
def State.forkList (s : State) (p : Nat) : List Nat → Except PageFail State
  | [] => .ok s
  | e :: r =>
    match s.pageOf p e with
    | .error x => .error x
    | .ok f =>
      match Tab.at? s.frames f with
      | none => .error (.status 6)
      | some q =>
        if q.count ≥ 65535 then .error (.status 5)
        else ({ s with frames := Tab.put s.frames f { q with count := q.count + 1 } }).forkList p r

/-! ### The directory (09 R196 to R204) -/

def chunkHash (salt : W64) (model parent : Nat) (tokens : List Nat) : Nat :=
  tokens.foldl (fun h t =>
    let q := rng salt.toNat model (h + t * 2 ^ 64)
    q.x0.toNat + q.x1.toNat * 2 ^ 32) parent

/-- The sets of a partition: base and number. -/
def State.dirSets (s : State) (p : Nat) : Nat × Nat :=
  let r := s.pfReg (partReg p 3)
  (fld (s.pfReg (partReg p 4)) 48 16, if r.getLsbD 53 then 2 ^ fld r 48 5 else 0)

def State.dirSet (s : State) (p h : Nat) : Option Nat :=
  let d := s.dirSets p
  if d.2 = 0 then none else some (d.1 + h % d.2)

/-- The prefix unit as the maker of its own accesses to the record area. -/
def unitWho (w : Who) : Who := { w with prog := false }

def words8 (bs : List Byte) : List Nat := (chunks 8 (bs.length / 8) bs).map leNat
def words4 (bs : List Byte) : List Nat := (chunks 4 (bs.length / 4) bs).map leNat

/-- A control read of a chunk record (19 R463). -/
def State.ctlRecord (s : State) (w : Who) (va n : Nat) : Got :=
  let g := s.readVirt (unitWho w) va n
  if g.stop || anyBad g.bs then
    { g with s := g.s.poisonRead w (g.s.poisonAddr (unitWho w) va n g.bs), stop := true }
  else g

/-- What a hit compares, bytes 0x000 to 0x13F of a record, as data (19 R462). -/
def State.recordHead (s : State) (w : Who) (e : DirEnt) : Got :=
  let g := s.readVirt (unitWho w) e.addr 0x140
  if g.stop then { g with s := g.s.poisonRead w (g.s.stopAddr (unitWho w) e.addr 0x140) }
  else if anyBad g.bs then { g with s := g.s.poisonRead w (g.s.poisonAddr (unitWho w) e.addr 0x140 g.bs) }
  else g

/-- The page-table entries of a record, and whether a control read met poison. -/
structure Pages where
  s     : State
  pages : List Nat
  stop  : Bool
  deriving DecidableEq, Repr

def State.recordPages (s : State) (w : Who) (e : DirEnt) : Pages :=
  let h := s.ctlRecord w (e.addr + 0x14) 2
  let g := h.s.ctlRecord w (e.addr + 0x140) (8 * min (leNat (plain h.bs)) 512)
  { s := g.s, pages := words8 (plain g.bs), stop := h.stop || g.stop }

/-- The operands that a hit must equal. -/
structure Chunk where
  parent : Nat
  model  : Nat
  nl     : Nat
  tokens : List Nat
  deriving DecidableEq, Repr

def Chunk.hits (k : Chunk) (bs : List Byte) : Bool :=
  leNat ((bs.drop 8).take 8) = k.parent && leNat ((bs.drop 0x10).take 4) = k.model && leNat ((bs.drop 0x14).take 2) = k.nl
    && words4 ((bs.drop 0x40).take 256) = k.tokens

/-- What a search gives: the state, what it found, and whether a poisoned control read ends the group. -/
structure Found (α : Type) where
  s    : State
  val  : Option α
  stop : Bool

/-- The first hit of a list of entries, of which those with the hash are read. -/
def State.findIn (s : State) (w : Who) (h : Nat) (k : Chunk) : List DirEnt → Found DirEnt
  | [] => { s := s, val := none, stop := false }
  | e :: r =>
    if e.hash.toNat ≠ h then s.findIn w h k r
    else
      let g := s.recordHead w e
      if g.stop then { s := g.s, val := none, stop := true }
      else if k.hits (plain g.bs) then { s := g.s, val := some e, stop := false }
      else g.s.findIn w h k r

/-- The hit in the lowest way. -/
def State.findChunk (s : State) (w : Who) (set h : Nat) (k : Chunk) : Found DirEnt := s.findIn w h k (Tab.val [] s.dirs set)

/-- Every listed page has a count of 1 (09 R202). -/
def State.heldAlone (s : State) (p : Nat) : List Nat → Except PageFail Bool
  | [] => .ok true
  | e :: r =>
    match s.pageOf p e with
    | .ok f => if (Tab.at? s.frames f).elim false (fun q => q.count = 1) then s.heldAlone p r else .ok false
    | .error (.stop a) => .error (.stop a)
    | .error _ => .ok false

/-- The replaceable entries of a list, by set, with their pages. -/
def State.replaceable (s : State) (w : Who) : List (Nat × DirEnt) → Found (List (Nat × DirEnt × List Nat))
  | [] => { s := s, val := some [], stop := false }
  | (set, e) :: r =>
    let g := s.recordPages w e
    if g.stop then { s := g.s, val := none, stop := true }
    else match g.s.heldAlone w.part g.pages with
      | .error (.stop a) => { s := g.s.poisonRead w a, val := none, stop := true }
      | .error _ => g.s.replaceable w r
      | .ok false => g.s.replaceable w r
      | .ok true =>
        let q := g.s.replaceable w r
        { q with val := q.val.map (fun l => (set, e, g.pages) :: l) }

/-- The entry of the list with the oldest tick, the earliest of equals; a set lists its entries in ascending way
(09 R203). -/
def oldest : List (Nat × DirEnt × List Nat) → Option (Nat × DirEnt × List Nat)
  | [] => none
  | e :: r =>
    match oldest r with
    | none => some e
    | some f => if e.2.1.tick ≤ f.2.1.tick then some e else some f

def State.releaseAll (s : State) (p : Nat) : List Nat → State
  | [] => s
  | e :: r =>
    match s.pageOf p e with
    | .error _ => s.releaseAll p r
    | .ok f => (s.release1 f).releaseAll p r

/-- Drops an entry, and decrements each page of its record once. -/
def State.evict (s : State) (p set : Nat) (e : DirEnt) (pages : List Nat) : State :=
  ({ s with dirs := Tab.put s.dirs set ((Tab.val [] s.dirs set).erase e) }).releaseAll p pages

/-- Every entry of the partition's sets, by set. -/
def State.dirEntries (s : State) (p : Nat) : List (Nat × DirEnt) :=
  let d := s.dirSets p
  ((s.dirs.filter (fun q => d.1 ≤ q.1 && q.1 < d.1 + d.2)).map (fun q => q.2.map (fun e => (q.1, e)))).flatten

/-- Runs an allocation, replacing the partition's oldest replaceable entries while it finds no room (09 R203). -/
def State.withReclaim {α : Type} (s : State) (w : Who) (k : State → Option (State × α)) : Nat → Found α
  | 0 =>
    match k s with
    | some (s, a) => { s := s, val := some a, stop := false }
    | none => { s := s, val := none, stop := false }
  | n + 1 =>
    match k s with
    | some (s, a) => { s := s, val := some a, stop := false }
    | none =>
      let q := s.replaceable w (s.dirEntries w.part)
      match oldest (q.val.getD []) with
      | none => { s := q.s, val := none, stop := q.stop }
      | some (set, e, ps) => (q.s.evict w.part set e ps).withReclaim w k n

/-- The bytes that records of the partition take: first KiB and count. -/
def State.recRuns (s : State) (p : Nat) : List (Nat × Nat) :=
  (s.dirEntries p).map (fun e => (e.2.addr / 1024, e.2.kib))

/-- The lowest free run of `n` KiB of the record area. -/
def State.allocRec (s : State) (p n : Nat) : Option Nat :=
  let r := s.pfReg (partReg p 4)
  let lo := fld r 0 27 * 2048
  let hi := lo + fld r 32 11 * 2048
  let runs := s.recRuns p
  let ok (a : Nat) : Bool := lo ≤ a && a + n ≤ hi && runs.all (fun q => a + n ≤ q.1 || q.1 + q.2 ≤ a)
  let cs := (lo :: runs.map (fun q => q.1 + q.2)).filter ok
  match cs with
  | [] => none
  | a :: rest => some (rest.foldl min a * 1024)

/-! ### Lifecycle (09 R209) -/

/-- Drops the partition's entries; each page of each that can be read is decremented once. -/
def State.dropEntries (s : State) (w : Who) : List (Nat × DirEnt) → State
  | [] => s
  | (set, e) :: r =>
    let g := s.recordPages w e
    (g.s.evict w.part set e g.pages).dropEntries w r

def sysWho (p : Nat) : Who := { part := p, ctx := none, core := none, layer := 0, op := 0, prog := false }

/-- A salt change, or a change of the partition's sets. -/
def State.dropDirectory (s : State) (p : Nat) : State := s.dropEntries (sysWho p) (s.dirEntries p)

/-- CACHE_CLEAR: every frame of the pool is free, and every entry of the partition is dropped. -/
def State.cacheClear (s : State) (p : Nat) : State :=
  let d := s.dirSets p
  let ps := s.poolMapped p false
  { s with
    frames := s.frames.filter (fun f => !ps.any (fun q => q.2 = f.1 / 32))
    dirs := s.dirs.filter (fun q => !(d.1 ≤ q.1 && q.1 < d.1 + d.2)) }

/-! ### The operations (09 R194, R195, R200, R201) -/

/-- The result record. -/
def pageResult (status count hash : Nat) : List PByte :=
  clean (leBytes 8 (status + count * 65536) ++ leBytes 8 hash ++ List.replicate 16 0)

/-- The offsets of the three operands of an at.page: argument block, result record, output. -/
structure PageOps where
  arg    : Nat
  argLen : Nat
  res    : Nat
  out    : Nat
  outLen : Nat
  deriving DecidableEq, Repr

/-- Operands as the descriptors give them; `out` says whether the operation writes entries. -/
def pageOps (g : Regs) (win : Nat) (aA aR aO : BitVec 4) (out : Bool) : Option PageOps :=
  match spMost g win aA.toNat 65600, spAt g win aR.toNat 32, spMost g win aO.toNat 0x100000 with
  | some a, some r, some o =>
    some { arg := a.off, argLen := a.len, res := r, out := if out then o.off else 0, outLen := if out then o.len else 0 }
  | some a, some r, none => if out then none else some { arg := a.off, argLen := a.len, res := r, out := 0, outLen := 0 }
  | _, _, _ => none

/-- Every memory outside the own window: an operation of the unit acts behind each earlier access of the core (09 R206). -/
def everyMem : Nat := 2 ^ 272 - 1

/-- The checks at issue: ranges in the own window with the bytes that the operation always takes, and a field that is
not used is 0. -/
def pageCheck (c : Nat) (aA aR aO : BitVec 4) (out : Bool) (least leastOut : Nat) (s : State) (_ : Nat) (g : Regs) : Check :=
  if !out && aO ≠ 0 then illegal
  else match pageOps g (s.window c) aA aR aO out with
    | none => illegal
    | some o =>
      if o.argLen < least || o.outLen < leastOut then illegal
      else .ok [rd o.arg o.argLen, wr o.res 32, wr o.out o.outLen] everyMem

def zeroBytes (bs : List Byte) : Bool := bs.all (fun b => b = 0)

/-- Writes the result record, and the output before it. -/
def State.pageDone (s : State) (c : Nat) (o : PageOps) (status count hash : Nat) (out : List Nat) : Eff :=
  let s := s.writeSp c o.out (clean ((out.map (leBytes 8)).flatten))
  .done (s.writeSp c o.res (pageResult status count hash))

/-- The end of an operation that does not go through. -/
def State.pageFail (s : State) (c : Nat) (o : PageOps) (w : Who) : PageFail → Eff
  | .status n => s.pageDone c o n 0 0 []
  | .stop a => .abort 5 (s.poisonRead w a)

/-- Reads the argument block, up to `n` bytes of which are needed, and runs the operation. -/
def pageRun (aA aR aO : BitVec 4) (out : Bool) (k : State → Nat → Who → PageOps → Eff) : Effect :=
  fun s c i =>
    match pageOps i.regs (s.window c) aA aR aO out with
    | none => some (.abort 4 s)
    | some o => some (k s c (s.who c i.regs) o)

/-- The block's first 64 bytes and the `n` bytes after them that the operation needs. -/
def withBlock (s : State) (w : Who) (c : Nat) (o : PageOps) (n : List Byte → Option Nat)
    (k : List Byte → List Byte → Eff) : Eff :=
  withSpCtl s w c o.arg 64 (fun h =>
    match n h with
    | none => .abort 4 s
    | some m =>
      if 64 + m > o.argLen then .abort 4 s
      else withSpCtl s w c (o.arg + 64) m (fun t => k h t))

def countOf (h : List Byte) : Nat := leNat (h.take 2)

/-- ALLOC. -/
def pageAlloc (s : State) (c : Nat) (w : Who) (o : PageOps) : Eff :=
  withBlock s w c o (fun h =>
    let f := (h.getD 2 0).toNat
    let k := (h.getD 5 0).toNat
    if 1 ≤ countOf h && countOf h ≤ 64 && 1 ≤ f && f ≤ 32 && kvFormat (h.getD 3 0).toNat && kvFormat (h.getD 4 0).toNat
        && (k < 16 || k = 0xFF) && zeroBytes (h.drop 6) && 8 * countOf h ≤ o.outLen then some 0 else none)
    (fun h _ =>
      let n := countOf h
      let f := (h.getD 2 0).toNat
      let k := (h.getD 5 0).toNat
      let last := (s.part w.part).lastAlloc
      let r := s.withReclaim w (fun s => (s.allocMany w.part f k last n).map (fun x => (x.1, x.2)))
        (s.dirEntries w.part).length
      match r.val with
      | none => if r.stop then .abort 5 r.s else r.s.pageDone c o 2 0 0 []
      | some (vas, j) =>
        (r.s.onPart w.part (fun q => { q with lastAlloc := j })).pageDone c o 0 n 0
          (vas.map (mkPte (h.getD 3 0).toNat (h.getD 4 0).toNat f)))

/-- FREE and FORK. -/
def pageCount (fork : Bool) (s : State) (c : Nat) (w : Who) (o : PageOps) : Eff :=
  withBlock s w c o (fun h =>
    if 1 ≤ countOf h && countOf h ≤ 64 && zeroBytes (h.drop 2) then some (8 * countOf h) else none)
    (fun h t =>
      match (if fork then s.forkList w.part (words8 t) else s.freeList w.part (words8 t)) with
      | .ok s => s.pageDone c o 0 (countOf h) 0 []
      | .error e => s.pageFail c o w e)

/-- PREP. -/
def pagePrep (s : State) (c : Nat) (w : Who) (o : PageOps) : Eff :=
  withBlock s w c o (fun h => if zeroBytes h && 8 ≤ o.outLen then some 8 else none)
    (fun _ t =>
      let e := leNat t
      if pteValid e && !pteWell e then .abort 4 s
      else if pteValid e && !s.inSet (w.ctx.getD 0) [pteK e, pteV e] then .abort 7 s
      else match s.pageOf w.part e with
        | .error x =>
          (if pteValid e && s.frameOf w.part (pteAddr e) = .error (.status 6) then s.violateBy w .untranslated (pteAddr e)
            else s).pageFail c o w x
        | .ok f =>
          if (Tab.at? s.frames f).elim 0 (fun q => q.count) ≤ 1 then s.pageDone c o 0 1 0 [e]
          else
            let n := pteFrames e
            let home := f / 2 ^ 20
            let r := s.withReclaim w (fun s =>
                (s.allocOne w.part n (home :: s.poolStacks w.part (s.part w.part).lastAlloc)).map (fun x => (x.1, x.2.1)))
              (s.dirEntries w.part).length
            match r.val with
            | none => if r.stop then .abort 5 r.s else r.s.pageDone c o 2 0 0 []
            | some va =>
              withData r.s w (pteAddr e) (n * 65536) (fun s bs =>
                withWrite s w va bs (fun s =>
                  (s.release1 f).pageDone c o 0 1 0 [mkPte (pteK e) (pteV e) n va])))

/-- What LOOKUP comes to: its status, the chunks hit, the last hash and the entries, and whether it ends the group. -/
structure Walk where
  s      : State
  status : Nat
  hits   : Nat
  hash   : Nat
  pages  : List Nat
  stop   : Bool
  deriving DecidableEq, Repr

def Walk.miss (s : State) (status : Nat) : Walk := { s := s, status := status, hits := 0, hash := 0, pages := [], stop := false }
def Walk.halt (s : State) : Walk := { Walk.miss s 0 with stop := true }

/-- The entries of a hit, their counts incremented; a count that is full ends the walk with REFS_FULL, another failure
with PARTIAL (09 R200). -/
def State.takeHit (s : State) (w : Who) (set h : Nat) (e : DirEnt) : Walk :=
  let g := s.recordPages w e
  if g.stop then .halt g.s
  else match g.s.forkList w.part g.pages with
    | .error (.stop a) => .halt (g.s.poisonRead w a)
    | .error (.status n) => .miss g.s (if n = 5 then 5 else 1)
    | .ok t =>
      let es := (Tab.val [] t.dirs set).map (fun x => if x = e then { x with tick := t.time } else x)
      { s := { t with dirs := Tab.put t.dirs set es }, status := 0, hits := 1, hash := h, pages := g.pages, stop := false }

/-- One chunk of LOOKUP. -/
def State.lookup1 (s : State) (w : Who) (k : Chunk) : Walk :=
  let h := chunkHash (s.part w.part).salt k.model k.parent k.tokens
  match s.dirSet w.part h with
  | none => .miss s 1
  | some set =>
    let q := s.findChunk w set h k
    match q.val with
    | none => if q.stop then .halt q.s else .miss q.s 1
    | some e => q.s.takeHit w set h e

/-- The walk of LOOKUP, chunk by chunk while they hit. -/
def State.lookupAll (s : State) (w : Who) (model nl parent : Nat) : List (List Nat) → Walk
  | [] => .miss s 0
  | t :: r =>
    let a := s.lookup1 w { parent := parent, model := model, nl := nl, tokens := t }
    if a.hits = 0 then a
    else
      let b := a.s.lookupAll w model nl a.hash r
      { b with hits := b.hits + 1, hash := if b.hits = 0 then a.hash else b.hash, pages := a.pages ++ b.pages }

def pageLookup (s : State) (c : Nat) (w : Who) (o : PageOps) : Eff :=
  withBlock s w c o (fun h =>
    let n := countOf h
    let nl := leNat ((h.drop 2).take 2)
    if 1 ≤ n && n ≤ 256 && 1 ≤ nl && nl ≤ 512 && zeroBytes (h.drop 16) && 8 * nl * n ≤ o.outLen then some (256 * n)
    else none)
    (fun h t =>
      let n := countOf h
      let x := s.lookupAll w (leNat ((h.drop 4).take 4)) (leNat ((h.drop 2).take 2)) (leNat ((h.drop 8).take 8))
        ((chunks 256 n t).map words4)
      let s := (x.s.countPart w.part 3 n).countPart w.part 4 x.hits
      if x.stop then .abort 5 s else s.pageDone c o x.status x.hits x.hash x.pages)

/-- The bytes of a new chunk record. -/
def recordBytes (hash : Nat) (k : Chunk) (pages : List Nat) (kib : Nat) : List PByte :=
  let bs := leBytes 8 hash ++ leBytes 8 k.parent ++ leBytes 4 k.model ++ leBytes 2 k.nl ++ List.replicate 42 0
    ++ (k.tokens.map (leBytes 4)).flatten ++ (pages.map (leBytes 8)).flatten
  clean (bs ++ List.replicate (kib * 1024 - bs.length) 0)

/-- Makes room in a set: a free entry, or the replaceable entry with the oldest tick replaced. -/
def State.roomInSet (s : State) (w : Who) (set : Nat) : Found Unit :=
  let es := Tab.val [] s.dirs set
  if es.length < 16 then { s := s, val := some (), stop := false }
  else
    let q := s.replaceable w (es.map (fun e => (set, e)))
    match oldest (q.val.getD []) with
    | none => { s := q.s, val := none, stop := q.stop }
    | some (_, e, ps) => { s := q.s.evict w.part set e ps, val := some (), stop := false }

/-- The free way that a new entry takes: the lowest (DESIGN CHOICE, log 150). -/
def freeWay (es : List DirEnt) : Nat := ((List.range 16).find? (fun i => !es.any (fun e => e.way = i))).getD 0

/-- Puts an entry at its way. -/
def putWay (e : DirEnt) : List DirEnt → List DirEnt
  | [] => [e]
  | x :: r => if e.way < x.way then e :: x :: r else x :: putWay e r

/-- What INSERT comes to: the new entry's hash, or why not. -/
abbrev Inserted := State × Except PageFail Nat

/-- Writes the record of a new entry and enters it; the group ends with DATA_UNCORRECTABLE where a poisoned translation
entry stops the write. -/
def State.enterChunk (s : State) (w : Who) (set h : Nat) (k : Chunk) (pages : List Nat) (a kib : Nat) : Inserted :=
  match s.forkList w.part pages with
  | .error e => (s, .error e)
  | .ok t =>
    let bs := recordBytes h k pages kib
    let g := t.writeVirt (unitWho w) a bs
    if g.stop then (s, .error (.stop (s.stopAddr (unitWho w) a bs.length)))
    else
      let es := Tab.val [] g.s.dirs set
      let e : DirEnt := { way := freeWay es, hash := BitVec.ofNat 64 h, addr := a, tick := g.s.time, kib := kib }
      ({ g.s with dirs := Tab.put g.s.dirs set (putWay e es) }, .ok h)

/-- Enters a chunk whose pages are in order: its set and the record area make room first. A page that the entry replaced
for it held alone is free by then: BAD_PAGE, and the eviction stands (DESIGN CHOICE, log 182). -/
def State.placeChunk (s : State) (w : Who) (set h : Nat) (k : Chunk) (pages : List Nat) : Inserted × Bool :=
  let q := s.roomInSet w set
  match q.val with
  | none => ((q.s, .error (.status 3)), q.stop)
  | some _ =>
    let kib := cdiv (320 + 8 * k.nl) 1024
    match q.s.allocRec w.part kib with
    | none => ((q.s, .error (.status 3)), false)
    | some a => (q.s.enterChunk w set h k pages a kib, false)

/-- INSERT. A partition without sets has no entry to take: DIR_FULL, before any listed page is looked at (DESIGN CHOICE,
log 182). The flag says that a poisoned control read ends the group. -/
def State.insertChunk (s : State) (w : Who) (k : Chunk) (pages : List Nat) : Inserted × Bool :=
  let h := chunkHash (s.part w.part).salt k.model k.parent k.tokens
  match s.dirSet w.part h with
  | none => ((s, .error (.status 3)), false)
  | some set =>
    let q := s.findChunk w set h k
    if q.stop then ((q.s, .error (.status 0)), true)
    else if q.val.isSome then ((q.s, .error (.status 4)), false)
    else match q.s.forkList w.part pages with
      | .error e => ((q.s, .error e), false)
      | .ok _ => q.s.placeChunk w set h k pages

def pageInsert (s : State) (c : Nat) (w : Who) (o : PageOps) : Eff :=
  withBlock s w c o (fun h =>
    let nl := leNat ((h.drop 0x14).take 2)
    if 1 ≤ nl && nl ≤ 512 && zeroBytes (h.drop 0x16) then some (256 + 8 * nl) else none)
    (fun h t =>
      let nl := leNat ((h.drop 0x14).take 2)
      let k : Chunk := { parent := leNat ((h.drop 8).take 8), model := leNat ((h.drop 0x10).take 4), nl := nl
                         tokens := words4 (t.take 256) }
      let x := s.insertChunk w k (words8 (t.drop 256))
      if x.2 then .abort 5 x.1.1
      else match x.1.2 with
        | .error e => x.1.1.pageFail c o w e
        | .ok h => x.1.1.pageDone c o 0 nl h [])

/-! ### `at.page` -/

/-- INSERT and FREE have release semantics: they act once every access of the core's earlier instructions has been made,
those to its own scratchpad included (09 R206). -/
def afterWrites (run : Effect) : Effect := fun s c k => if (s.x c).released k.id then run s c k else none


def runPageAlloc (aA aR aO : BitVec 4) : Effect := pageRun aA aR aO true pageAlloc
def runPageFree (aA aR aO : BitVec 4) : Effect := afterWrites (pageRun aA aR aO false (pageCount false))
def runPageFork (aA aR aO : BitVec 4) : Effect := pageRun aA aR aO false (pageCount true)
def runPagePrep (aA aR aO : BitVec 4) : Effect := pageRun aA aR aO true pagePrep
def runPageLookup (aA aR aO : BitVec 4) : Effect := pageRun aA aR aO true pageLookup
def runPageInsert (aA aR aO : BitVec 4) : Effect := afterWrites (pageRun aA aR aO false pageInsert)

def execAtPageAlloc (c : Fin 264) (aA aR aO : BitVec 4) (s : State) : Host.Outcome State Fault Refusal :=
  .next (issue s c 1 .pages (.atPageAlloc c aA aR aO) always (pageCheck c aA aR aO true 64 8) id (runPageAlloc aA aR aO))

def execAtPageFree (c : Fin 264) (aA aR aO : BitVec 4) (s : State) : Host.Outcome State Fault Refusal :=
  .next (issue s c 1 .pages (.atPageFree c aA aR aO) always (pageCheck c aA aR aO false 72 0) id (runPageFree aA aR aO))

def execAtPageFork (c : Fin 264) (aA aR aO : BitVec 4) (s : State) : Host.Outcome State Fault Refusal :=
  .next (issue s c 1 .pages (.atPageFork c aA aR aO) always (pageCheck c aA aR aO false 72 0) id (runPageFork aA aR aO))

def execAtPagePrep (c : Fin 264) (aA aR aO : BitVec 4) (s : State) : Host.Outcome State Fault Refusal :=
  .next (issue s c 1 .pages (.atPagePrep c aA aR aO) always (pageCheck c aA aR aO true 72 8) id (runPagePrep aA aR aO))

def execAtPageLookup (c : Fin 264) (aA aR aO : BitVec 4) (s : State) : Host.Outcome State Fault Refusal :=
  .next (issue s c 1 .pages (.atPageLookup c aA aR aO) always (pageCheck c aA aR aO true 0x140 8) id (runPageLookup aA aR aO))

def execAtPageInsert (c : Fin 264) (aA aR aO : BitVec 4) (s : State) : Host.Outcome State Fault Refusal :=
  .next (issue s c 1 .pages (.atPageInsert c aA aR aO) always (pageCheck c aA aR aO false 0x148 0) id (runPageInsert aA aR aO))

end Sys2Proof.Machine
end

