-- ==== Sys2Proof/Machine/Seq.lean ====
section
/-! DEFINITION. The sequencer class (12 R275 to R281): one meaning for each sq operation. -/

namespace Sys2Proof.Machine

/-! ### Arithmetic and comparisons (12 R276, R277) -/

/-- Operand B: the extension word when the form has one. -/
def Regs.aluB (g : Regs) (f : Alu) : W64 := f.ext.getD (g.getS f.sB.toNat)

/-- A two-operand scalar operation; with an extension word the sB field must be 0. -/
def alu (s : State) (c : Nat) (i : Instr) (f : Alu) (op : W64 → W64 → W64) : State :=
  let words := if f.ext.isSome then 2 else 1
  fetched s c i (fun s _ _ g =>
    if f.ext.isSome && f.sB ≠ 0 then .abort 4 s
    else .done (s.pass c words (fun g => g.setS f.sD.toNat (op (g.getS f.sA.toNat) (g.aluB f)))))

def smin (a b : W64) : W64 := if b.slt a then b else a
def smax (a b : W64) : W64 := if a.slt b then b else a
/-- Shift counts are taken modulo 64 (04 R75). -/
def shl (a b : W64) : W64 := a <<< (b.toNat % 64)
def shr (a b : W64) : W64 := a >>> (b.toNat % 64)
def sra (a b : W64) : W64 := a.sshiftRight (b.toNat % 64)

/-- COND 0 to 5 (12 R276). -/
def condHolds (cond : Nat) (a b : W64) : Bool :=
  match cond with
  | 0 => a = b
  | 1 => a ≠ b
  | 2 => a.slt b
  | 3 => !a.slt b
  | 4 => a.ult b
  | 5 => !a.ult b
  | _ => true

def execSqLi (c : Fin 264) (sD : BitVec 5) (imm : W64) (s : State) : Host.Outcome State Fault Refusal :=
  .next (scalar s c (.sqLi c sD imm) 2 (fun _ _ _ g => g.setS sD.toNat imm))

def execSqAdd (c : Fin 264) (f : Alu) (s : State) : Host.Outcome State Fault Refusal := .next (alu s c (.sqAdd c f) f (· + ·))
def execSqSub (c : Fin 264) (f : Alu) (s : State) : Host.Outcome State Fault Refusal := .next (alu s c (.sqSub c f) f (· - ·))
def execSqMul (c : Fin 264) (f : Alu) (s : State) : Host.Outcome State Fault Refusal := .next (alu s c (.sqMul c f) f (· * ·))
def execSqAnd (c : Fin 264) (f : Alu) (s : State) : Host.Outcome State Fault Refusal := .next (alu s c (.sqAnd c f) f (· &&& ·))
def execSqOr (c : Fin 264) (f : Alu) (s : State) : Host.Outcome State Fault Refusal := .next (alu s c (.sqOr c f) f (· ||| ·))
def execSqXor (c : Fin 264) (f : Alu) (s : State) : Host.Outcome State Fault Refusal := .next (alu s c (.sqXor c f) f (· ^^^ ·))
def execSqShl (c : Fin 264) (f : Alu) (s : State) : Host.Outcome State Fault Refusal := .next (alu s c (.sqShl c f) f shl)
def execSqShr (c : Fin 264) (f : Alu) (s : State) : Host.Outcome State Fault Refusal := .next (alu s c (.sqShr c f) f shr)
def execSqSra (c : Fin 264) (f : Alu) (s : State) : Host.Outcome State Fault Refusal := .next (alu s c (.sqSra c f) f sra)
def execSqMin (c : Fin 264) (f : Alu) (s : State) : Host.Outcome State Fault Refusal := .next (alu s c (.sqMin c f) f smin)
def execSqMax (c : Fin 264) (f : Alu) (s : State) : Host.Outcome State Fault Refusal := .next (alu s c (.sqMax c f) f smax)

/-- `sq.cmp`: COND 6 and 7 are not valid here. -/
def execSqCmp (c : Fin 264) (f : Alu) (cond : BitVec 3) (s : State) : Host.Outcome State Fault Refusal :=
  .next (
    if 6 ≤ cond.toNat then
      fetched s c (.sqCmp c f cond) (fun s _ _ _ => .abort 4 s)
    else alu s c (.sqCmp c f cond) f (fun a b => if condHolds cond.toNat a b then 1 else 0))

/-! ### Loads, stores, descriptors (12 R278) -/

/-- The checks of `sq.ld` and `sq.st`: inside the extent, 8-byte aligned. -/
def ldstOk (g : Regs) (aS sO : Nat) : Bool :=
  inExtent g aS (g.getS sO).toNat 8 && (baseOf g aS + (g.getS sO).toNat) % 8 = 0

/-- Whether a scalar access waits in the sequencer: a tag conflict, no free tag, or an earlier instruction that has
still to place its requests to the stack (04 R78, R79, 11 R253). -/
def State.ldstWaits (s : State) (c : Nat) (w : Who) (va : Nat) (write : Bool) : Bool :=
  let x := s.x c
  match ownOff (s.window c) va 8 with
  | some o =>
    x.tags.length ≥ 64 || x.tags.any (fun e => conflicts e ({ off := o, len := 8, write := write : SpRange }.tag 0 0))
  | none => x.stackHeld x.nextId (s.memMask (s.window c) w.part va 8)

def execSqLd (c : Fin 264) (sD : BitVec 5) (aS : BitVec 4) (sO : BitVec 5) (s : State) :
    Host.Outcome State Fault Refusal :=
  .next (fetched s c (.sqLd c sD aS sO) (fun s _ _ g =>
    if !ldstOk g aS.toNat sO.toNat then .abort 4 s
    else
      let va := baseOf g aS.toNat + (g.getS sO.toNat).toNat
      let w := s.who c g
      if s.ldstWaits c w va false then .done s
      else withCtl s w va 8 (fun s bs =>
        .done (s.pass c 1 (fun g => g.setS sD.toNat (BitVec.ofNat 64 (leNat bs)))))))

def execSqSt (c : Fin 264) (aS : BitVec 4) (sO sV : BitVec 5) (s : State) : Host.Outcome State Fault Refusal :=
  .next (fetched s c (.sqSt c aS sO sV) (fun s _ _ g =>
    if !ldstOk g aS.toNat sO.toNat then .abort 4 s
    else
      let va := baseOf g aS.toNat + (g.getS sO.toNat).toNat
      let w := s.who c g
      if s.ldstWaits c w va true then .done s
      else withWrite s w va (clean (leBytes 8 (g.getS sV.toNat).toNat)) (fun s =>
        .done (s.pass c 1 id))))

def execSqDesc (c : Fin 264) (aD : BitVec 4) (sB sE : BitVec 5) (s : State) : Host.Outcome State Fault Refusal :=
  .next (scalar s c (.sqDesc c aD sB sE) 1 (fun _ _ _ g =>
    { g with a := Tab.put g.a aD.toNat (g.getS sB.toNat, g.getS sE.toNat) }))

/-! ### Sequencer state (04 R70, R71) -/

/-- GROUP_DEADLINE: the open group's deadline as it stands, or the RUN's before the first group. -/
def Run.groupDeadline (r : Run) (g : Nat) : Nat :=
  if g = 0 then r.deadline else (Tab.at? r.groups g).elim r.deadline (fun q => q.deadline)

/-- An item of the sequencer state, and whether reading it draws a free value. -/
def State.seqItem (s : State) (c n : Nat) (r : Run) (g : Regs) (i : Nat) : W64 :=
  match i with
  | 0 => g.flags.word
  | 1 => BitVec.ofNat 64 s.time
  | 2 => BitVec.ofNat 64 s.nowNs
  | 3 => BitVec.ofNat 64 (g.layer.toNat * 65536 + g.op.toNat)
  | 4 => g.phase.setWidth 64
  | 5 => BitVec.ofNat 64 (r.groupDeadline (s.x c).groupNo)
  | 6 => BitVec.ofNat 64 (s.x c).groupNo
  | 7 => BitVec.ofNat 64 n
  | 8 => 16384
  | 9 => BitVec.ofNat 64 c
  | _ => 0

def execSqRds (c : Fin 264) (sD : BitVec 5) (index : BitVec 8) (s : State) : Host.Outcome State Fault Refusal :=
  .next (fetched s c (.sqRds c sD index) (fun s n r g =>
    if index = 0 && !(s.x c).idle then .done s
    else
      let v := s.seqItem c n r g index.toNat
      .done ((if index = 2 then s.drawn else s).pass c 1 (fun g => g.setS sD.toNat v))))

def execSqWrs (c : Fin 264) (index : BitVec 8) (sS : BitVec 5) (s : State) : Host.Outcome State Fault Refusal :=
  .next (fetched s c (.sqWrs c index sS) (fun s _ _ g =>
    if index = 0 && !(s.x c).idle then .done s
    else .done (s.pass c 1 (fun g =>
      if index = 0 then { g with flags := g.flags.clear (g.getS sS.toNat) } else g))))

/-! ### Control flow (12 R279, R280) -/

/-- The registers after a taken branch: the target is the branch word plus 8 × OFS. -/
def Regs.branch (g : Regs) (ofs : BitVec 32) : Regs := { g with pc := unsgn 64 ((g.pc : Int) + 8 * ofs.toInt) }

/-- Sets the registers as the sequencer completes an instruction that places the pc itself. -/
def State.jump (s : State) (c : Nat) (g : Regs) : State := s.onX c (fun x => { x with regs := g, progress := s.time })

def execSqBr (c : Fin 264) (cond : BitVec 3) (sA sB : BitVec 5) (ofs : BitVec 32) (s : State) :
    Host.Outcome State Fault Refusal :=
  .next (fetched s c (.sqBr c cond sA sB ofs) (fun s _ _ g =>
    if cond = 7 || (cond = 6 && (sA ≠ 0 || sB ≠ 0)) then .abort 4 s
    else if condHolds cond.toNat (g.getS sA.toNat) (g.getS sB.toNat) then .done (s.jump c (g.branch ofs))
    else .done (s.pass c 1 id)))

/-- `sq.loop`: with a count of 0 execution goes on at E; else the new record replaces any on the same counter. -/
def Regs.loop (g : Regs) (lN : Nat) (n : W64) (body : Nat) : Regs :=
  let fin := g.pc + 8 + 8 * body
  let g := { g with loops := g.loops.filter (fun k => k.ctr ≠ lN), l := Tab.put g.l lN (n.setWidth 32) }
  if n = 0 then { g with pc := fin }
  else { g with loops := { ctr := lN, body := g.pc + 8, fin := fin } :: g.loops }.past 1

def execSqLoop (c : Fin 264) (lN : BitVec 2) (sC : BitVec 5) (body : BitVec 16) (s : State) :
    Host.Outcome State Fault Refusal :=
  .next (fetched s c (.sqLoop c lN sC body) (fun s _ _ g =>
    if body = 0 || (g.getS sC.toNat).toNat ≥ 2 ^ 32 then .abort 4 s
    else .done (s.jump c (g.loop lN.toNat (g.getS sC.toNat) body.toNat))))

/-! ### Marks, groups, phases (04 R83 to R88) -/

/-- `sq.mark`: the effective layer is the record's base plus the marked layer, modulo 2^16. -/
def execSqMark (c : Fin 264) (layer op : BitVec 16) (s : State) : Host.Outcome State Fault Refusal :=
  .next (scalar s c (.sqMark c layer op) 1 (fun _ _ r g => { g with layer := r.sub.layerBase + layer, op := op }))

def execSqPhase (c : Fin 264) (phase : BitVec 3) (s : State) : Host.Outcome State Fault Refusal :=
  .next (scalar s c (.sqPhase c phase) 1 (fun _ _ _ g => { g with phase := phase }))

/-- The current image and generation of each table slot of both expanders (04 R86). -/
def Exec.tables (x : Exec) : List (Nat × Image × Nat) :=
  (x.ex.map (fun e => e.2.slots.map (fun t =>
    (e.1 * 16 + t.1, (if t.2.cur then t.2.bankB else t.2.bankA), t.2.gen)))).flatten

def Exec.capture (x : Exec) : Capture := { regs := x.regs, tables := x.tables }

/-- A core stops at a preemption point when a preemption is asked of its context or of the core, and the tile queue is
empty (04 R89, 05 R114, 19 R465, R470). -/
def State.wantsStop (s : State) (c n : Nat) : Bool :=
  ((s.ctx n).preempt || (s.core c).moveOut.isSome) && (s.x c).tileQ.isEmpty && (s.x c).drains.isEmpty

/-- The core stops at the preemption point at byte `pc` (04 R89). -/
def State.stopCore (s : State) (c n pc : Nat) : State :=
  let s := s.coreEvent c 0x05 (pc / 8)
  (s.onCore c (fun p => { p with run := .stopped })).maybeSave n

/-- The core closes its open group, without the event. -/
def State.leaveGroup (s : State) (c n : Nat) : State := s.onRun n (fun r => r.closeGroup (s.x c).groupNo (s.rank n c))

/-- The core closes its open group. -/
def State.closeGroup (s : State) (c n : Nat) : State := (s.coreEvent c 0x03 (s.x c).groupNo).leaveGroup c n

/-- The core opens its next group with the deadline `d`, and captures its state (04 R83, R86). Its two events have one
cause: they enter in ascending KIND (21 R491). -/
def State.openGroup (s : State) (c n d : Nat) : State :=
  let k := s.rank n c
  let old := (s.x c).groupNo
  let s := s.leaveGroup c n
  let no := old + 1
  let h := s.beHorizon (s.ctx n).part
  let s := s.onRun n (fun r => r.openGroup no k d s.time h)
  let s := s.onX c (fun x =>
    let x := { x with groupNo := no, step := none, regs := x.regs.past 1, progress := s.time }
    { x with cap := some x.capture })
  (s.coreEvent c 0x02 no).coreEvent c 0x03 old

/-- The core has executed the preemption point at byte `pc`, and stops there when a stop is wanted (DEDUCED, log 3:
only an unsatisfied `sy.wait` executes again). -/
def State.pausePoint (s : State) (c n pc : Nat) : State := if s.wantsStop c n then s.stopCore c n pc else s

def execSqDeadline (c : Fin 264) (sS : BitVec 5) (s : State) : Host.Outcome State Fault Refusal :=
  .next (fetched s c (.sqDeadline c sS) (fun s n _ g =>
    .done ((s.openGroup c n (g.getS sS.toNat).toNat).pausePoint c n g.pc)))

def execSqYield (c : Fin 264) (s : State) : Host.Outcome State Fault Refusal :=
  .next (fetched s c (.sqYield c) (fun s n _ g => .done ((s.pass c 1 id).pausePoint c n g.pc)))

/-- `sq.halt`: closes the open group and the open step; when every core has halted and every instruction has
completed, the RUN ends (04 R76, R83). -/
def execSqHalt (c : Fin 264) (s : State) : Host.Outcome State Fault Refusal :=
  .next (fetched s c (.sqHalt c) (fun s n _ _ =>
    let s := (s.closeGroup c n).coreEvent c 0x04 0
    let s := s.onCore c (fun p => { p with run := .halted, x := { p.x with step := none, regs := p.x.regs.past 1, progress := s.time } })
    .done ((s.maybeFinish n).maybeSave n)))

/-! ### Live maps and the control cache (04 R92, 11 R251) -/

def liveRanges (bs : List Byte) : List (Nat × Nat) :=
  (List.range 7).map (fun i => (leNat ((bs.drop (8 + 8 * i)).take 4), leNat ((bs.drop (12 + 8 * i)).take 4)))

/-- The rules of a live-map entry. -/
def liveOk (bs : List Byte) : Bool :=
  let e := leNat (bs.take 4)
  e % 4096 = 0 && e ≤ 262144 && leNat ((bs.drop 4).take 4) = 0
    && (liveRanges bs).all (fun r => r.2 = 0 || (r.1 % 256 = 0 && r.2 % 256 = 0 && r.1 + r.2 ≤ spBytes))

def execSqLive (c : Fin 264) (index : BitVec 12) (s : State) : Host.Outcome State Fault Refusal :=
  .next (fetched s c (.sqLive c index) (fun s n r g =>
    if index.toNat ≥ r.liveSize then .abort 4 s
    else
      let w := s.who c g
      let a := r.liveMap + 64 * index.toNat
      let f := s.fillLine c n w a
      if f.stop then .abort 5 (f.s.poisonLine w a f.bs)
      else
        let bs := plain ((f.bs.drop (a % 256)).take 64)
        if !liveOk bs then .abort 4 f.s
        else .done (f.s.pass c 1 (fun g =>
          { g with live := some { index := index.toNat, accExt := leNat (bs.take 4)
                                  ranges := (liveRanges bs).filter (fun r => r.2 ≠ 0) } }))))

def execSqIcinv (c : Fin 264) (aS : BitVec 4) (sO sL : BitVec 5) (s : State) : Host.Outcome State Fault Refusal :=
  .next (fetched s c (.sqIcinv c aS sO sL) (fun s n _ g =>
    let off := (g.getS sO.toNat).toNat
    let len := (g.getS sL.toNat).toNat
    if !inExtent g aS.toNat off len then .abort 4 s
    else if !(s.x c).idle then .done s
    else
      let lo := baseOf g aS.toNat + off
      let hit (e : Nat × Nat × List PByte) : Bool :=
        len > 65536 || ((s.ctx e.1).part = (s.ctx n).part && len ≠ 0 && 256 * e.2.1 < lo + len && lo < 256 * e.2.1 + 256)
      let s := s.onCore c (fun p => { p with cache := p.cache.filter (fun e => !hit e) })
      .done (s.pass c 1 id)))

end Sys2Proof.Machine
end

