-- ==== Sys2Proof/Machine/Sync.lean ====
section
/-! DEFINITION. Signal objects and queues: the sy class, the signal store, and the queue instructions over the region pools (13 R312 to R318,
14 R329 to R347). -/

namespace Sys2Proof.Machine

/-! ### Signal updates (13 R314, 14 R344, 11 R256) -/

/-- A signal handle: bits above [17:0] must be 0 (13 R313). -/
def badSigHandle (h : W64) : Bool := h.toNat ≥ 2 ^ 18
def badQueueHandle (h : W64) : Bool := h.toNat ≥ 2 ^ 14

/-- Whether an issued update's release conditions hold; `sy.set` and host updates have none (11 R256, R259). -/
def State.updReady (s : State) (u : Upd) : Bool :=
  match u.core with
  | none => true
  | some c => u.set || (s.core c).ctx ≠ some u.ctx || (s.x c).released u.id

/-- Updates of one core to one object keep their program order (13 R314). -/
def sameObject (u v : Upd) : Bool := u.obj == v.obj && u.core == v.core

/-- The updates that leave their sources now, in order, and those that stay behind `stuck`. -/
def leaveSource (ready : Upd → Bool) (stuck : List Upd) : List Upd → List Upd × List Upd
  | [] => ([], stuck)
  | u :: r =>
    if ready u && !stuck.any (sameObject u) then
      let q := leaveSource ready stuck r
      ({ u with sent := true } :: q.1, q.2)
    else leaveSource ready (stuck ++ [u]) r

/-- Updates whose release conditions are met go on their way to the store, behind those that went before. -/
def State.sendUpdates (s : State) (r : Nat) : State :=
  let us := (s.region r).updates
  let q := leaveSource s.updReady [] (us.filter (fun u => !u.sent))
  s.onRegion r (fun g => { g with updates := us.filter (fun u => u.sent) ++ q.1 ++ q.2 })

/-- Issues an update to an object, or drops it as a violation (13 R313, R314). -/
def sigIssue (s : State) (c : Nat) (i : Instr) (set : Bool) (sS sV : BitVec 5) : State :=
  fetched s c i (fun s n _ g =>
    let h := g.getS sS.toNat
    if badSigHandle h then .abort 4 s
    else
      let w := s.who c g
      let s := match s.handle w.part h.toNat with
        | none => s.violateBy w .foreignHandle h.toNat
        | some o =>
          let u : Upd := { obj := o.2, val := (g.getS sV.toNat).setWidth 32, set := set, core := some c
                           id := (s.x c).nextId, ctx := n, sent := false }
          ((s.sendUpdates o.1).onRegion o.1 (fun r => { r with updates := r.updates ++ [u] })).sendUpdates o.1
      .done (s.pass c 1 id))

def execSySig (c : Fin 264) (sS sV : BitVec 5) (s : State) : Host.Outcome State Fault Refusal :=
  .next (sigIssue s c (.sySig c sS sV) false sS sV)

def execSySet (c : Fin 264) (sS sV : BitVec 5) (s : State) : Host.Outcome State Fault Refusal :=
  .next (sigIssue s c (.sySet c sS sV) true sS sV)

/-- The update applied at tick `t` is noted among those of its tick. -/
def Region.noteUpd (t : Nat) (u : Upd) (g : Region) : Region :=
  if g.sigTick = t then { g with sigUpds := g.sigUpds ++ [(u.obj, u.ctx)] }
  else { g with sigTick := t, sigUpds := [(u.obj, u.ctx)], sigGone := [] }

def State.statuses (s : State) (code : Nat) : List Nat → State
  | [] => s
  | n :: l => (s.status n code).statuses code l

/-- The read that an update makes of its object: the syndrome of the damage it finds there (19 R458), `damaged` for that
which the command brings. -/
def State.updRead (s : State) (r : Nat) (u : Upd) (damaged : Bool) : State × Option Nat :=
  let q := s.meetSig r u.obj
  if damaged then (q.1.drawn, some (someUncorrectable (Config.freeWord q.1.free).toNat)) else q

/-- An update is applied. One that finds its object damaged is lost with it, and every context that updates the object in
that tick sees DATA_UNCORRECTABLE (19 R461; DEDUCED for the update, log 164). -/
def State.applyUpd (s : State) (r : Nat) (u : Upd) (damaged : Bool) : State :=
  let s := s.onRegion r (Region.noteUpd s.time u)
  let q := s.updRead r u damaged
  let s := match q.2 with
    | some syn =>
      let s := (q.1.sigLost (r, u.obj) syn).onRegion r (fun g => { g with sigGone := u.obj :: g.sigGone })
      s.statuses 5 (((s.region r).sigUpds.filter (fun e => e.1 = u.obj)).map (fun e => e.2))
    | none =>
      let s := q.1.sigApply (r, u.obj) u.val u.set u.core
      if (s.region r).sigGone.contains u.obj then s.status u.ctx 5 else s
  match u.core with
  | some _ => s
  | none => if u.id = 0 then s else s.endRec u.ctx (if (s.region r).sigGone.contains u.obj then 5 else 0) 0 0

/-- A wait reads its object: damage that it finds ends the waits on the object, this one with 0 (19 R461). -/
def State.waitLost (s : State) (c n : Nat) (sD : BitVec 5) (o : Option (Nat × Nat)) : State × Bool :=
  match o with
  | none => (s, false)
  | some o =>
    let q := s.meetSig o.1 o.2
    match q.2 with
    | none => (q.1, false)
    | some syn => (((q.1.sigLost o syn).endHold c sD.toNat 0).status n 5, true)

/-- Update `k` of region `r` reaches the store and applies: one that has been sent, and that no update sent earlier by
the same unit precedes (01 R13, 14 R344). The updates of different units arrive in the order of these commands (DESIGN
CHOICE, log 155). -/
def execSignalUpdateApply (r : Fin 4) (k : StoreUpd) (s : State) : Host.Outcome State Fault Refusal :=
  .next (
    let s := s.sendUpdates r
    match (s.region r).updates[k.index]? with
    | none => s
    | some u =>
      if !u.sent || ((s.region r).updates.take k.index).any (fun v => v.core = u.core) then s
      else (s.onRegion r (fun g => { g with updates := g.updates.eraseIdx k.index })).applyUpd r u k.damaged)

/-! ### Waits (13 R315, R316) -/

/-- The expiry tick of a `sy.wait` with the timeout `tmo`: the one that a save interrupted keeps (13 R315, R316). -/
def State.waitExpiry (s : State) (c : Nat) (tmo : W32) : Option Nat :=
  match (s.x c).savedE with
  | some e => some e
  | none => if tmo = 0 then none else some (s.time + 40 * tmo.toNat)

def execSyWait (c : Fin 264) (f : SyWait) (s : State) : Host.Outcome State Fault Refusal :=
  .next (fetched s c (.syWait c f) (fun s n _ g =>
    let h := g.getS f.sS.toNat
    if badSigHandle h then .abort 4 s
    else
      let w := s.who c g
      let o := s.handle w.part h.toNat
      let s := if o.isNone then s.violateBy w .foreignHandle h.toNat else s
      let t := (g.getS f.sV.toNat).setWidth 32
      let e := s.waitExpiry c ((g.getS f.sT.toNat).setWidth 32)
      let s := s.onX c (fun x => { x with savedE := none })
      let q := s.waitLost c n f.sD o
      let s := q.1
      if q.2 then .done s
      else if waitMet (s.waitVal o) t f.cond then .done (s.endHold c f.sD.toNat 1)
      else
        let s := s.onX c (fun x => { x with hold := .wait f.sD o t f.cond e f.ft s.time })
        .done (s.pausePoint c n g.pc)))

/-- The tick value exceeds the expiry tick of an unsatisfied wait (13 R315, 14 R347). -/
def execSyWaitTimeout (w : Waiter) (s : State) : Host.Outcome State Fault Refusal :=
  .next (match w with
    | .core c =>
      match (s.x c).hold, (s.core c).ctx with
      | .wait sD _ _ _ (some e) ft since, some n =>
        if s.time > max e since && (s.core c).run = .running then
          let s := s.endHold c sD.toNat 0
          if ft then s.abortRun n 12 else s
        else s
      | _, _ => s
    | .ctx n =>
      match (s.ctx n).hostWait with
      | some (_, _, _, some e) =>
        if s.time > e then (s.onCtx n (fun x => { x with hostWait := none })).endRec n 12 0 0 else s
      | _ => s)

/-! ### Queues (13 R317, 14 R329 to R337) -/

/-- The queue port takes its tag, and holds the sequencer until the packet has been moved (13 R317, R318; DESIGN CHOICE,
log 154). -/
def State.holdPort (s : State) (c : Nat) (r : SpRange) (h : Hold) : State :=
  s.onX c (fun x => { x.retag (x.tags ++ makeTags x.nextTag x.nextId [r]) s.time with
    nextTag := x.nextTag + 1, nextId := x.nextId + 1, hold := h })

/-- A tag of the port cannot be taken yet: none is free, or an earlier access conflicts (04 R78, R79). -/
def Exec.portWaits (x : Exec) (r : SpRange) : Bool := x.tags.length ≥ 64 || x.tags.any (fun e => conflicts e (r.tag 0 0))

/-- The `sy.qput` of a core sends its next cell; after the last one the sequencer moves on (14 R332, R337). -/
def State.qputCell (s : State) (c : Nat) : State :=
  match (s.x c).hold with
  | .qput r q va len k =>
    let b := s.readSp (s.who c (s.regs c)) c (va + 256 * k) (min 256 (len - 256 * k))
    let last := 256 * (k + 1) ≥ len
    let s := b.1.putCell r q b.2 last false
    if last then s.endHold c 0 0 else s.onX c (fun x => { x with hold := .qput r q va len (k + 1) })
  | _ => s

def State.qputCells (s : State) (c : Nat) : Nat → State
  | 0 => s
  | n + 1 => (s.qputCell c).qputCells c n

def execSyQput (c : Fin 264) (sQ : BitVec 5) (aS : BitVec 4) (sL : BitVec 5) (s : State) :
    Host.Outcome State Fault Refusal :=
  .next (fetched s c (.syQput c sQ aS sL) (fun s _ _ g =>
    let h := g.getS sQ.toNat
    let len := (g.getS sL.toNat).toNat
    if badQueueHandle h || len < 1 || len > 65536 then .abort 4 s
    else match spAt g (s.window c) aS.toNat len with
      | none => .abort 4 s
      | some off =>
        let r := bits h.toNat 12 2
        let i := bits h.toNat 0 12
        let q := s.que r i
        let w := s.who c g
        if !q.serves w.part (s.core c).logical then
          .done ((s.violateBy w .foreignHandle h.toNat).endHold c 0 0)
        else if cellsOf len > q.cap then .abort 4 s
        else if (s.x c).portWaits (rd off len) then .done s
        else
          let s := s.holdPort c (rd off len) (.qput r i off len 0)
          .done (if q.full len then s else s.qputCell c)))

/-- A `sy.qput` waiting on Full starts once the synchronised count of consumed cells shows room (14 R335); one that has
started sends what is left of its packet. -/
def execSyQputResume (c : Fin 264) (s : State) : Host.Outcome State Fault Refusal :=
  .next (match (s.x c).hold with
    | .qput r i _ len k =>
      let q := { s.que r i with cSeen := (s.que r i).c }
      let s := s.setQue r i q
      if k = 0 && q.full len then s else s.qputCells c (cellsOf len - k)
    | _ => s)

/-- The `sy.qget` of a core writes its packet's next cell, as far as its room goes. With the last one the packet leaves
the queue, sD takes its full length, and the sequencer moves on (13 R317, 14 R337). -/
def State.qgetCell (s : State) (c : Nat) : State :=
  match (s.x c).hold with
  | .qget sD r q va most k =>
    match (s.que r q).head with
    | none => s
    | some p =>
      match p[k]? with
      | none => s
      | some b =>
        let m := s.meetCell r b.no (b.data.take b.used) s.upsets
        let s := m.1
        let bs := m.2.take (most - 256 * k)
        let s := if anyBad bs then s.poisonRead (s.who c (s.regs c)) (badGranule (cellAddr r b.no) bs) else s
        let s := s.writeSp c (va + 256 * k) bs
        if b.last then
          (s.setQue r q ((s.que r q).consume [p])).endHold c sD.toNat (BitVec.ofNat 64 (packetBytes p).length)
        else s.onX c (fun x => { x with hold := .qget sD r q va most (k + 1) })
  | _ => s

def State.qgetCells (s : State) (c : Nat) : Nat → State
  | 0 => s
  | n + 1 => (s.qgetCell c).qgetCells c n

def execSyQget (c : Fin 264) (sD sQ : BitVec 5) (aD : BitVec 4) (sM : BitVec 5) (s : State) :
    Host.Outcome State Fault Refusal :=
  .next (fetched s c (.syQget c sD sQ aD sM) (fun s _ _ g =>
    let h := g.getS sQ.toNat
    let most := (g.getS sM.toNat).toNat
    if badQueueHandle h || most < 1 || most > 65536 then .abort 4 s
    else match spAt g (s.window c) aD.toNat most with
      | none => .abort 4 s
      | some off =>
        let r := bits h.toNat 12 2
        let i := bits h.toNat 0 12
        let q := s.que r i
        let w := s.who c g
        if !q.delivers w.part (s.core c).logical then
          .done ((s.violateBy w .foreignHandle h.toNat).endHold c sD.toNat 0)
        else if (s.x c).portWaits (wr off most) then .done s
        else .done (((s.holdPort c (wr off most) (.qget sD r i off most 0)).setQue r i q.skipAborted).qgetCell c)))

/-- A `sy.qget` waiting on Empty starts once the synchronised count of written cells shows a whole packet; one that has
started writes what is left of its packet. -/
def execSyQgetResume (c : Fin 264) (s : State) : Host.Outcome State Fault Refusal :=
  .next (match (s.x c).hold with
    | .qget _ r i _ _ k =>
      let q := { s.que r i with wSeen := (s.que r i).w }
      let s := s.setQue r i (if k = 0 then q.skipAborted else q)
      s.qgetCells c (((s.que r i).head.elim 0 List.length) - k)
    | _ => s)

/-- One more cell of the packets that are being moved: with each tick (DESIGN CHOICE, log 154). -/
def State.portTick (s : State) (c : Nat) : State :=
  match (s.x c).hold with
  | .qput _ _ _ _ (_ + 1) => s.qputCell c
  | .qget _ _ _ _ _ (_ + 1) => s.qgetCell c
  | _ => s

def State.portTicks (s : State) : List Nat → State
  | [] => s
  | c :: r => (s.portTick c).portTicks r

/-- `sy.qcnt` (14 R336): the occupancy as the issuing end sees it; the consumer's view when one core holds both. -/
def execSyQcnt (c : Fin 264) (sD sQ : BitVec 5) (s : State) : Host.Outcome State Fault Refusal :=
  .next (fetched s c (.syQcnt c sD sQ) (fun s _ _ g =>
    let h := g.getS sQ.toNat
    if badQueueHandle h then .abort 4 s
    else
      let q := s.que (bits h.toNat 12 2) (bits h.toNat 0 12)
      let w := s.who c g
      let l := (s.core c).logical
      if q.delivers w.part l then .done (s.endHold c sD.toNat (BitVec.ofNat 64 q.consOcc))
      else if q.serves w.part l then .done (s.endHold c sD.toNat (BitVec.ofNat 64 q.prodOcc))
      else .done ((s.violateBy w .foreignHandle h.toNat).endHold c sD.toNat 0)))

/-! ### Queue registers (14 R338, R339, R342) -/

/-- The sum of QCAP over a region's enabled queues. -/
def State.capSum (s : State) (r : Nat) : Nat :=
  (s.region r).queues.foldl (fun a q => if q.2.en then a + q.2.cap else a) 0

def qcfgOff (r q : Nat) : Nat := 0x80000 + r * 0x10000 + q * 0x10

/-- The value of Q_CFG. -/
def Que.cfg (q : Que) : W64 :=
  BitVec.ofNat 64 (b2n q.en * 2 ^ 56 + q.part * 2 ^ 48 + q.prod * 2 ^ 40 + q.cons * 2 ^ 32 + q.cap)

/-- A Q_CFG write: it binds and may enable a disabled queue. A write to an enabled queue, or one that breaks the
capacity or the binding rule, is dropped with an error record. -/
def queueConfigure (s : State) (r q : Nat) (v : W64) : State :=
  let old := s.que r q
  let en := v.getLsbD 56
  let new := { old with en := en, part := fld v 48 8, prod := fld v 40 8, cons := fld v 32 8, cap := fld v 0 17
                        prodCut := false, consCut := false }
  if old.en || (en && (new.cap > 65536 || s.capSum r + new.cap > 65536
      || s.owner new.prod ≠ some new.part || s.owner new.cons ≠ some new.part)) then s.writeDropped (qcfgOff r q)
  else s.setQue r q new

def execQueueEnable (r : Fin 4) (q : Fin 4096) (v : W64) (s : State) : Host.Outcome State Fault Refusal :=
  .next (s.whenReady (fun s => queueConfigure s r q v))

/-- Clearing EN flushes the queue and then disables it (14 R339). -/
def queueDisable (s : State) (r q : Nat) : State :=
  let x := s.que r q
  if x.en then s.setQue r q { x.askFlush with disable := true } else s

def execQueueDisable (r : Fin 4) (q : Fin 4096) (s : State) : Host.Outcome State Fault Refusal :=
  .next (s.whenReady (fun s => queueDisable s r q))

def queueFlush (s : State) (r q : Nat) : State := s.setQue r q (s.que r q).askFlush

def execQueueFlush (r : Fin 4) (q : Fin 4096) (s : State) : Host.Outcome State Fault Refusal :=
  .next (s.whenReady (fun s => queueFlush s r q))

/-- The instruction that a core holds on a queue ends: a `sy.qget` with 0, a `sy.qput` dropped; each counts as a
violation (14 R339). -/
def State.endQueueHold (s : State) (r q : Nat) (c : Nat) : State :=
  let w := s.who c (s.regs c)
  let h := r * 4096 + q
  match (s.x c).hold with
  | .qget sD r' q' _ _ _ => if r' = r && q' = q then (s.violateBy w .foreignHandle h).endHold c sD.toNat 0 else s
  | .qput r' q' _ _ _ => if r' = r && q' = q then (s.violateBy w .foreignHandle h).endHold c 0 0 else s
  | _ => s

def State.endQueueHolds (s : State) (r q : Nat) : List Nat → State
  | [] => s
  | c :: rest => (s.endQueueHold r q c).endQueueHolds r q rest

/-- A `sy.qget` is writing a packet of the queue. -/
def State.taking (s : State) (r q : Nat) : Bool :=
  s.cores.any (fun p => match p.2.x.hold with
    | .qget _ r' q' _ _ (_ + 1) => r' = r && q' = q
    | _ => false)

/-- The flush completes, once the packets being written and read have been completed: C counts the cells of the packets
discarded, which return to the free list. A queue that is being disabled ends its waiting instructions (14 R338,
R339). -/
def queueFlushDone (s : State) (r q : Nat) : State :=
  let x := s.que r q
  match x.flushes with
  | none => s
  | some k =>
    if s.taking r q then s
    else
      let y := x.flushed k
      let s := (s.setQue r q (if x.disable then { y with en := false, disable := false } else y)).countCells r q y.owed
      let s := s.event (.fabric r) 0x0E (b2n x.disable + bits (r * 4096 + q) 0 13 * 2) { Work.none with part := x.part }
      if x.disable then s.endQueueHolds r q (s.cores.map (fun p => p.1)) else s

def execQueueFlushDone (r : Fin 4) (q : Fin 4096) (s : State) : Host.Outcome State Fault Refusal :=
  .next (queueFlushDone s r q)

/-! ### The VF signal window (14 R346) -/

/-- Entry `i` of the window: the object, when it lies below the grant's size. -/
def State.windowObj (s : State) (p r i : Nat) : Option (Nat × Nat) :=
  let v := s.pfReg (partReg p 5)
  if p ≠ 0 && i < fld v (15 * r + 8) 7 * 256 then some (r, fld v (15 * r) 8 * 256 + i) else none

def sigObjWrite (s : State) (p r i : Nat) (v : W32) (set : Bool) : State :=
  match s.windowObj p r i with
  | none => s
  | some o => s.sigApply o v set none

def execSigObjAdd (p : Fin 256) (r : Fin 4) (i : Fin 16384) (v : W32) (s : State) :
    Host.Outcome State Fault Refusal :=
  .next (s.whenReady (fun s => sigObjWrite s p r i v false))

def execSigObjSet (p : Fin 256) (r : Fin 4) (i : Fin 16384) (v : W32) (s : State) :
    Host.Outcome State Fault Refusal :=
  .next (s.whenReady (fun s => sigObjWrite s p r i v true))

end Sys2Proof.Machine
end

