-- ==== Sys2Proof/Machine/Tiles.lean ====
section
/-! DEFINITION. Operands of the engines as elements: rows of a tensor with their scales, Erg blocks through the
expanders and the wells, and the damage of a block (02 R27, R41, 07 R149 to R163, 12 R272, R273, R284). -/

namespace Sys2Proof.Machine

/-! ### Elements -/

/-- An element as it enters a computation: its code, its block scale (127 where it has none), and whether it comes from
a poisoned granule (02 R41, 19 R462). An Erg value is its FP8 E4M3 code. -/
structure El where
  code  : Nat
  scale : Nat
  bad   : Bool
  deriving DecidableEq, Repr

/-- A position that nothing fills (05 R100, R108). -/
def El.zero : El := { code := 0, scale := 127, bad := false }

/-- The exact value; a poisoned element is NaN (19 R462). -/
def El.fp (f : Nat) (e : El) : Fp := if e.bad then .nan else scaledFp (if fmtIsErg f then 3 else f) e.code e.scale

/-- The value on the integer path; a poisoned element has the bits of -1 (19 R462). -/
def El.int (f : Nat) (e : El) : Int := intDec f e.code

/-! ### Rows of a tensor -/

/-- An operand of `rows` rows of `cols` elements at a byte stride, named by a descriptor. Erg-K4 rows follow one another
in one run of blocks (12 R284). -/
structure RowOp where
  d      : Nat
  fmt    : Nat
  rows   : Nat
  cols   : Nat
  stride : Nat
  deriving DecidableEq, Repr

def RowOp.rowBytes (o : RowOp) : Nat := spanBytes (fmtBits o.fmt) o.cols

/-- The bytes from the base to the end of the last row, or of the last block. -/
def RowOp.len (o : RowOp) : Nat :=
  if fmtIsErg o.fmt then 64 * cdiv (o.rows * o.cols) (ergValues o.fmt) else (o.rows - 1) * o.stride + o.rowBytes

/-- One scale byte for each row and each 32 columns (12 R284). -/
def RowOp.scales (o : RowOp) : Nat := if fmtIsMx o.fmt then o.rows * (o.cols / 32) else 0

/-- A range named by a descriptor's base. -/
def rangeAt (g : Regs) (win d n : Nat) (write : Bool) : Option SpRange :=
  (spAt g win d n).map (fun o => { off := o, len := n, write := write })

/-- The range of the scales of operand `d`, at the next descriptor (12 R273); none for no scales. -/
def scaleRange (g : Regs) (win d n : Nat) (write : Bool) : Option (List SpRange) :=
  if n = 0 then some [] else (scaleAt g win d n).map (fun o => [{ off := o, len := n, write := write }])

/-- The ranges of an operand: the elements, then the scales. -/
def RowOp.ranges (o : RowOp) (g : Regs) (win : Nat) (write : Bool) : Option (List SpRange) :=
  match rangeAt g win o.d o.len write, scaleRange g win o.d o.scales write with
  | some r, some t => some (r :: t)
  | _, _ => none

/-- All of several operands' ranges. -/
def allRanges : List (Option (List SpRange)) → Option (List SpRange)
  | [] => some []
  | none :: _ => none
  | some r :: t => (allRanges t).map (fun l => r ++ l)

/-- The outcome of the checks: an operand outside its range, then a format outside the set (04 R94, 12 R272). -/
def rangeCheck (s : State) (n : Nat) (fmts : List Nat) (stks : Nat) (rs : List (Option (List SpRange))) : Check :=
  match allRanges rs with
  | none => illegal
  | some l => if s.inSet n fmts then .ok l stks else mismatch

/-- `n` elements of width `w` from packed bytes; `scale` gives each element's scale. -/
def elems (w n : Nat) (bs : List PByte) (scale : Nat → PByte) : List El :=
  (List.range n).map (fun e =>
    let c := elemAt w bs e
    let k := scale e
    { code := c.1, scale := k.1.toNat, bad := c.2 || k.2 })

def noScale (_ : Nat) : PByte := (127, false)

/-- Reads the rows of an operand that is not Erg. -/
def readRows (s : State) (w : Who) (c off soff : Nat) (o : RowOp) : Nat → State × List (List El)
  | 0 => (s, [])
  | m + 1 =>
    let r := o.rows - (m + 1)
    let b := s.readSp w c (off + r * o.stride) o.rowBytes
    let q := o.cols / 32
    let t := if fmtIsMx o.fmt then b.1.readSp w c (soff + r * q) q else (b.1, [])
    let scale (e : Nat) : PByte := if fmtIsMx o.fmt then t.2.getD (e / 32) (0, false) else (127, false)
    let rest := readRows t.1 w c off soff o m
    (rest.1, elems (fmtBits o.fmt) o.cols b.2 scale :: rest.2)

/-- Adds to a counter of the context that a core runs. -/
def State.countWork (s : State) (w : Who) (i v : Nat) : State :=
  match w.ctx with
  | some n => s.count n i v
  | none => s

/-! ### Damaged Erg blocks (07 R153, 19 R473) -/

/-- Notes a damaged block: its record, event, counter and status. `ty` and `unit` name the expander's core or the
well's stack, `slot` and `gen` the table slot and the captured generation. -/
def State.ergDamage (s : State) (w : Who) (n : Nat) (ring : RingUnit) (ty unit slot gen cause sub addr : Nat) : State :=
  let s := s.logError { ErrIn.plain ty 1 0x06 unit addr with
    part := w.part, ctx := some n, layer := w.layer, op := w.op, slot := slot, aux := cause + sub * 8, extra := gen }
  let s := s.event ring 0x0A (cause + sub * 8 + slot * 32 + gen * 65536)
    { part := w.part, ctx := n, layer := w.layer, op := w.op }
  (s.count n 13 1).status n 6

/-! ### Blocks through a core's expanders (07 R156, R162, R163) -/

def TblSlot.image (t : TblSlot) : Image := if t.cur then t.bankB else t.bankA

def Exec.expander (x : Exec) (e : Nat) : Expander := (Tab.at? x.ex e).getD Expander.empty
def Exec.onExpander (x : Exec) (e : Nat) (f : Expander → Expander) : Exec :=
  { x with ex := Tab.put x.ex e (f (x.expander e)) }
def Expander.slot (e : Expander) (k : Nat) : TblSlot := (Tab.at? e.slots k).getD TblSlot.absent

/-- The values of a decoded block. -/
def blockEls (fmt : Nat) (out : BlockOut) : List El :=
  (out.values fmt).map (fun v => { code := v.1, scale := v.2, bad := false })

/-- The values of a block that is not decoded (07 R155). -/
def badEls (fmt : Nat) : List El := List.replicate (ergValues fmt) { code := 0x7F, scale := 127, bad := true }

/-- Whether an instruction sends blocks or a table to the expanders, or reads a table of theirs (07 R154, R161, R163). -/
def usesExpanders (i : Instr) : Bool :=
  match i with
  | .mxWld _ f => fmtIsErg f.wfmt.toNat
  | .mxRun _ f => f.sfmt == 12 || f.bfmt == 12
  | .atQk _ f => f.qfmt == 12 || f.kfmt == 12
  | .atPv _ f => f.pfmt == 12 || f.vfmt == 12
  | .dmExpand _ _ => true
  | .dmPack _ _ => true
  | .dmTblCore _ _ _ _ => true
  | _ => false

/-- Blocks and tables enter the expanders in program order: nothing enters while a table load is inside, or while a block
of an earlier instruction has still to enter a queue, of 16 blocks or 4 (07 R156, R163). -/
def Exec.expanderOpen (x : Exec) (id : Nat) : Bool :=
  x.ex.all (fun p => p.2.load.isNone && p.2.queue.length ≤ 16 && p.2.stream.length ≤ 4) && !x.queue.any (fun k => k.id < id && usesExpanders k.instr)

/-- One block enters its expander: it decodes with the bank that is current now, which it pins (07 R162). One that captures
no generation has 0 in a damage record (DESIGN CHOICE, log 169). -/
def Exec.enterBlock (x : Exec) (k : Issued) (fmt addr : Nat) (da stream : Bool) (bs : List Byte) : Exec × BlockOut :=
  let b := Block.ofBytes bs
  let e := addr / 64 % 2
  let t := (x.expander e).slot b.slot
  let out := decodeBlock t.image fmt b
  let uses := b.mode = 1 || b.mode = 2
  let isBad := match out with
    | .bad _ _ => true
    | .vals _ _ => false
  let blk : Blk := { id := k.id, addr := addr, slot := b.slot, gen := if uses then t.gen else 0
                     pin := if uses then some t.cur else none, out := out, bad := isBad, da := da
                     layer := k.regs.layer, op := k.regs.op }
  (x.onExpander e (fun q =>
    if stream then { q with stream := q.stream ++ [blk] } else { q with queue := q.queue ++ [blk] }), out)

/-- Blocks of 64 bytes in turn. -/
def Exec.enterBlocks (x : Exec) (k : Issued) (fmt : Nat) (da stream : Bool) (addr : Nat) :
    List (List PByte) → Exec × List El
  | [] => (x, [])
  | bs :: r =>
    if anyBad bs then
      let q := x.enterBlocks k fmt da stream (addr + 64) r
      (q.1, badEls fmt ++ q.2)
    else
      let b := x.enterBlock k fmt addr da stream (plain bs)
      let q := b.1.enterBlocks k fmt da stream (addr + 64) r
      (q.1, blockEls fmt b.2 ++ q.2)

/-- Counts the blocks that enter the expanders, by mode (18 R454). -/
def State.expands (s : State) (w : Who) : List (List PByte) → State
  | [] => s
  | b :: r => (s.actBy w (actBlock (Block.ofBytes (plain b)).mode) 1).expands w r

/-- Reads `n` consecutive Erg blocks of the core's scratchpad through its expanders: their values in order. -/
def readErg (s : State) (w : Who) (c : Nat) (k : Issued) (fmt off n : Nat) (da stream : Bool) : State × List El :=
  let b := s.readSp w c off (64 * n)
  let x := { b.1.x c with ergPos := none }
  let l := chunks 64 n b.2
  let q := x.enterBlocks k fmt da stream (s.window c + off) l
  ((b.1.setX c q.1).expands w l, q.2)

/-- The rows of values that follow one another. -/
def splitRows (cols : Nat) (rows : Nat) (l : List El) : List (List El) := chunks cols rows l

/-- Reads an operand of the core's scratchpad. -/
def readOp (s : State) (w : Who) (c : Nat) (k : Issued) (o : RowOp) (da : Bool) : State × List (List El) :=
  let win := s.window c
  let off := (spAt k.regs win o.d o.len).getD 0
  if fmtIsErg o.fmt then
    let q := readErg s w c k o.fmt off (cdiv (o.rows * o.cols) (ergValues o.fmt)) da true
    (q.1, splitRows o.cols o.rows q.2)
  else readRows s w c off ((scaleAt k.regs win o.d o.scales).getD 0) o o.rows

def elAt (rows : List (List El)) (r k : Nat) : El := (rows.getD r []).getD k El.zero

/-- A tensor or Erg-K4 activation operand (02 R24). -/
def fmtStream (f : Nat) : Bool := fmtTensor f || f == 12

/-- Codes accepted as the weight operand of `mx.wld` (02 R24). -/
def fmtWeight (f : Nat) : Bool := fmtTensor f || fmtIsErg f

/-- An MX operand takes its scales from the next descriptor, so it lies at a14 or below, and its K extent is a multiple
of 32 (02 R41, 12 R273). -/
def mxExtent (fmt k : Nat) : Bool := !fmtIsMx fmt || k % 32 = 0

end Sys2Proof.Machine
end

