-- ==== Sys2Proof/Machine/Matrix.lean ====
section
/-! DEFINITION. The matrix class (05 R95 to R118, 12 R282 to R285): forms, weight latches, runs, drains, and the
near-memory products of the wells (10 R215 to R223). -/

namespace Sys2Proof.Machine

/-! ### Forms and latches -/

/-- K_tile, N_tile, the depth, and the most rows of a run (05 R98); form 0 is column, 1 barchan, 2 diagonal. -/
def kTile (form : Nat) (t : Tier) : Nat := if form = 0 then 4 * t.n else if form = 1 then t.n else 64

def nTile (form : Nat) : Nat := if form = 1 then 256 else 64

def formDepth (form : Nat) : Nat := if form = 0 then 4 else 1

def formRows (form : Nat) : Nat := if form = 1 then 256 else 1024

def Exec.active? (x : Exec) : Option Latch := if x.active then x.bankB else x.bankA

def Exec.shadow? (x : Exec) : Option Latch := if x.active then x.bankA else x.bankB

/-- What an attention instruction leaves in the banks after `n` slices: the last slice active, the shadow bank empty
(08 R174). -/
def Exec.lastSlice (x : Exec) (n : Nat) (l : Latch) : Exec :=
  let a := x.active != (n % 2 = 1)
  { x with active := a, bankA := if a then none else some l, bankB := if a then some l else none }

def Exec.setShadow (x : Exec) (l : Option Latch) : Exec := if x.active then { x with bankA := l } else { x with bankB := l }

/-- Format, tier and path that a bank records (05 R96). -/
structure LatchTag where
  fmt  : Nat
  tier : Tier
  int  : Bool
  deriving DecidableEq, Repr

def Latch.tag (l : Latch) : LatchTag := { fmt := l.fmt, tier := l.tier, int := l.int }

/-- The form and the banks as every instruction that has issued leaves them. -/
structure MxView where
  form   : Nat
  active : Option LatchTag
  shadow : Option LatchTag
  deriving DecidableEq, Repr

/-- What an issued instruction does to the form and the banks (05 R99, R105, R106). -/
def MxView.after (v : MxView) (i : Instr) : MxView :=
  match i with
  | .mxForm _ f => if f.toNat = v.form then v else { form := f.toNat, active := none, shadow := none }
  | .mxWld _ f =>
    let w := f.wfmt.toNat
    let a := f.sfmt.toNat
    { v with shadow := some { fmt := w, tier := tierOf w a, int := intPath w a } }
  | .mxSwap _ => { v with active := v.shadow, shadow := v.active }
  | .atQk _ f =>
    { v with active := some { fmt := f.kfmt.toNat, tier := tierOf f.kfmt.toNat f.qfmt.toNat, int := false }, shadow := none }
  | .atPv _ f =>
    { v with active := some { fmt := f.vfmt.toNat, tier := tierOf f.vfmt.toNat f.pfmt.toNat, int := false }, shadow := none }
  | _ => v

def Exec.mxView (x : Exec) : MxView :=
  (x.queue.map (fun k => k.instr)).foldl MxView.after
    { form := x.form, active := x.active?.map Latch.tag, shadow := x.shadow?.map Latch.tag }

def isMx (i : Instr) : Bool :=
  match i with
  | .mxForm _ _ => true
  | .mxWld _ _ => true
  | .mxSwap _ => true
  | .mxRun _ _ => true
  | .mxDrain _ _ => true
  | .mxNmv _ _ => true
  | _ => false

/-- An earlier mx instruction has not completed (05 R99). -/
def Exec.earlierMx (x : Exec) (id : Nat) : Bool := (x.queue ++ x.inflight).any (fun k => k.id < id && isMx k.instr)

/-- `mx.form` marks both banks empty when it changes the form (05 R99). -/
def Exec.setForm (x : Exec) (f : Nat) : Exec :=
  if f = x.form then { x with ergPos := none } else { x with form := f, bankA := none, bankB := none, ergPos := none }

def runMxForm (f : BitVec 2) : Effect := fun s c k =>
  if (s.x c).earlierMx k.id then none else some (.done (s.onX c (fun x => x.setForm f.toNat)))

def mxFormCheck (f : BitVec 2) (_ : State) (_ : Nat) (_ : Regs) : Check := if f = 3 then illegal else .ok [] 0

def execMxForm (c : Fin 264) (form : BitVec 2) (s : State) : Host.Outcome State Fault Refusal :=
  .next (issue s c 1 .matrix (.mxForm c form) always (mxFormCheck form) id (runMxForm form))

/-! ### Loading weights (05 R100 to R106, 07 R150, R158, R159, 12 R283) -/

end Sys2Proof.Machine

namespace Sys2Proof

open Machine

def MxWld.k (f : MxWld) : Nat := f.kx.toNat + 1

def MxWld.n (f : MxWld) : Nat := f.nx.toNat + 1

def MxWld.tier (f : MxWld) : Tier := tierOf f.wfmt.toNat f.sfmt.toNat

def MxWld.erg (f : MxWld) : Bool := fmtIsErg f.wfmt.toNat

/-- The first value F of an Erg source. -/
def MxWld.first (f : MxWld) : Nat := 8 * f.fq.toNat

def MxWld.blocks (f : MxWld) : Nat := cdiv (f.first + f.k * f.n) (ergValues f.wfmt.toNat)

/-- The weight block as rows: K rows of N elements. -/
def MxWld.op (f : MxWld) (g : Regs) : RowOp :=
  { d := f.aW.toNat, fmt := f.wfmt.toNat, rows := f.k, cols := f.n, stride := (g.getS f.sS.toNat).toNat }

/-- Scale bytes of an MX weight: one for each 32 K indices and column. -/
def MxWld.scales (f : MxWld) : Nat := if fmtIsMx f.wfmt.toNat then f.k / 32 * f.n else 0

def MxWld.len (f : MxWld) (g : Regs) : Nat := if f.erg then 64 * f.blocks else (f.op g).len

/-- The conditions of 12 R285 that do not concern ranges. -/
def MxWld.bad (f : MxWld) (form : Nat) : Bool :=
  form = 2 || !fmtWeight f.wfmt.toNat || !fmtStream f.sfmt.toNat || f.k > kTile form f.tier || f.n > nTile form
    || !mxExtent f.wfmt.toNat f.k
    || (if f.erg then f.k % 8 ≠ 0 || f.first ≥ ergValues f.wfmt.toNat else f.fq ≠ 0 || f.da)

end Sys2Proof

namespace Sys2Proof.Machine

def mxWldCheck (c : Nat) (f : MxWld) (s : State) (n : Nat) (g : Regs) : Check :=
  let win := s.window c
  if f.bad (s.x c).mxView.form then illegal
  else rangeCheck s n [f.wfmt.toNat, f.sfmt.toNat] 0
    [(rangeAt g win f.aW.toNat (f.len g) false).map (fun r => [r]), scaleRange g win f.aW.toNat f.scales false]

/-- The entry of a latch table for position (k, j): nothing for +0. -/
def latchEntry (k j : Nat) (e : El) : Option (Nat × Nat) :=
  let v := if e.bad then 2 ^ 40 + e.code else e.code
  if v = 0 then none else some (k * 256 + j, v)

def latchScale (k j : Nat) (e : El) : Option (Nat × Nat) := if e.scale = 127 then none else some (k * 256 + j, e.scale)

/-- Positions (k, j) of a block in ascending key. -/
def positions (kk nn : Nat) : List (Nat × Nat) :=
  ((List.range kk).map (fun k => (List.range nn).map (fun j => (k, j)))).flatten

/-- A bank that holds a block of `kk` by `nn` weights (05 R96, R100); `w` gives weight (k, j). -/
def latchOf (fmt : Nat) (tier : Tier) (int : Bool) (kk nn : Nat) (w : Nat → Nat → El) : Latch :=
  { fmt := fmt, tier := tier, int := int
    codes := (positions kk nn).filterMap (fun p => latchEntry p.1 p.2 (w p.1 p.2))
    scales := (positions kk nn).filterMap (fun p => latchScale p.1 p.2 (w p.1 p.2)) }

/-- The bank that `mx.wld` fills. -/
def mkLatch (f : MxWld) (w : Nat → Nat → El) : Latch :=
  latchOf f.wfmt.toNat f.tier (intPath f.wfmt.toNat f.sfmt.toNat) f.k f.n w

/-- Weight (k, j) of a bank; a position that nothing fills is +0. -/
def Latch.el (l : Latch) (k j : Nat) : El :=
  let v := Tab.val 0 l.codes (k * 256 + j)
  { code := if v ≥ 2 ^ 40 then v - 2 ^ 40 else v, scale := Tab.val 127 l.scales (k * 256 + j), bad := v ≥ 2 ^ 40 }

/-- An `at.dec` between the core's previous Erg load and instruction `id` has not read its page list yet: whether it
decodes Erg blocks is open, and the load waits for it (DEDUCED, log 180). -/
def Exec.decOpen (x : Exec) (id : Nat) : Bool :=
  match x.ergPos with
  | some q => x.queue.any (fun k => q.id < k.id && k.id < id && (match k.instr with
      | .atDec _ _ => true
      | _ => false))
  | none => false

/-- Load `id` continues the core's previous one (07 R159): what the shared block holds. -/
def Exec.continues (x : Exec) (id addr first fmt brk : Nat) : Option ErgPos :=
  x.ergPos.filter (fun q => q.addr = addr && q.val = first && q.fmt = fmt && q.brk = brk
    && !x.decs.any (fun d => q.id < d && d < id))

/-- The values of an Erg load from value F of the first block on, and the position after it. -/
def readWeights (s : State) (w : Who) (c : Nat) (k : Issued) (f : MxWld) (off : Nat) : State × List El :=
  let fmt := f.wfmt.toNat
  let addr := s.window c + off
  match (s.x c).continues k.id addr f.first fmt k.brk with
  | some q =>
    if f.first = 0 then readErg s w c k fmt off f.blocks f.da false
    else
      let r := readErg s w c k fmt (off + 64) (f.blocks - 1) f.da false
      (r.1, (blockEls fmt q.out).drop f.first ++ r.2)
  | none =>
    let r := readErg s w c k fmt off f.blocks f.da false
    (r.1, r.2.drop f.first)

/-- What the block that the next load would share holds: every value the load has read of it. -/
def lastOut (fmt : Nat) (l : List El) : BlockOut :=
  if l.any (fun e => e.bad) then .bad 0 0
  else .vals ((l.headD El.zero).scale) ((List.replicate (ergValues fmt - l.length) 0) ++ l.map (fun e => e.code))

end Sys2Proof.Machine

namespace Sys2Proof

open Machine

/-- The position that a continuation starts from (07 R159): the block of the value after the last one. -/
def MxWld.next (f : MxWld) (id addr brk : Nat) (vals : List El) : ErgPos :=
  let w := ergValues f.wfmt.toNat
  let t := f.first + f.k * f.n
  let tail := vals.drop (t / w * w - f.first)
  { id := id, addr := addr + 64 * (t / w), val := t % w, fmt := f.wfmt.toNat, out := lastOut f.wfmt.toNat tail
    brk := brk }

end Sys2Proof

namespace Sys2Proof.Machine

def runMxWld (f : MxWld) : Effect := fun s c k =>
  let w := s.who c k.regs
  let win := s.window c
  let off := (spAt k.regs win f.aW.toNat (f.len k.regs)).getD 0
  if f.erg then
    if !(s.x c).expanderOpen k.id || (s.x c).decOpen k.id then none
    else
      let r := readWeights s w c k f off
      let l := mkLatch f (fun i j => r.2.getD (j * f.k + i) El.zero)
      some (.done (r.1.onX c (fun x =>
        { x.setShadow (some l) with
          ergPos := some (f.next k.id (win + off) k.brk r.2)
          decs := x.decs.filter (fun d => k.id < d) })))
  else
    let soff := (scaleAt k.regs win f.aW.toNat f.scales).getD 0
    let r := readRows s w c off soff { f.op k.regs with fmt := if f.wfmt = 5 then 7 else if f.wfmt = 13 then 3 else f.wfmt.toNat } f.k
    let t := r.1.readSp w c soff f.scales
    let sc (i j : Nat) : PByte := if fmtIsMx f.wfmt.toNat then t.2.getD (i / 32 * f.n + j) (0, false) else (127, false)
    let l := mkLatch f (fun i j =>
      let e := elAt r.2 i j
      { e with scale := (sc i j).1.toNat, bad := e.bad || (sc i j).2 })
    some (.done (t.1.onX c (fun x => x.setShadow (some l))))

def execMxWld (c : Fin 264) (f : MxWld) (s : State) : Host.Outcome State Fault Refusal :=
  .next (issue s c 1 .matrix (.mxWld c f) always (mxWldCheck c f) id (runMxWld f))

/-! ### Swapping banks (05 R105) -/

def runMxSwap : Effect := fun s c _ => some (.done (s.onX c (fun x => { x with active := !x.active })))

/-- A swap leaves the active bank as the shadow bank was, empty when that was empty, and the shadow bank as the active
bank was (05 R105). -/
def mxSwapCheck (c : Nat) (s : State) (_ : Nat) (_ : Regs) : Check :=
  if (s.x c).mxView.form = 2 then illegal else .ok [] 0

def execMxSwap (c : Fin 264) (s : State) : Host.Outcome State Fault Refusal :=
  .next (issue s c 1 .matrix (.mxSwap c) always (mxSwapCheck c) id runMxSwap)

/-! ### Runs (05 R107 to R110, R115, 02 R42 to R44, 12 R284) -/

end Sys2Proof.Machine

namespace Sys2Proof

open Machine

def MxRun.m (f : MxRun) : Nat := f.mq.toNat + 1

/-- The K extent of a run: 64 columns in diagonal form. -/
def MxRun.k (f : MxRun) (form : Nat) (t : Tier) : Nat :=
  if form = 2 then 64 else if f.kx = 0 then kTile form t else f.kx.toNat

def MxRun.opA (f : MxRun) (g : Regs) (k : Nat) : RowOp :=
  { d := f.aA.toNat, fmt := f.sfmt.toNat, rows := f.m, cols := k, stride := (g.getS f.sS.toNat).toNat }

def MxRun.opB (f : MxRun) (g : Regs) : RowOp :=
  { d := f.aB.toNat, fmt := f.bfmt.toNat, rows := f.m, cols := 64, stride := (g.getS f.sS.toNat).toNat }

def MxRun.base (f : MxRun) (g : Regs) : Nat := (g.getS f.sC.toNat).toNat

/-- The conditions of 05 R107 and 12 R285 in column and barchan form. -/
def MxRun.badTile (f : MxRun) (v : MxView) : Bool :=
  match v.active with
  | none => true
  | some l =>
    tierOf f.sfmt.toNat l.fmt ≠ l.tier || intPath f.sfmt.toNat l.fmt ≠ l.int
      || f.kx.toNat > kTile v.form l.tier || !mxExtent f.sfmt.toNat (f.k v.form l.tier)
      || f.aB ≠ 0 || f.bfmt ≠ 0 || f.dop || (f.da && f.sfmt ≠ 12)

def MxRun.bad (f : MxRun) (v : MxView) (g : Regs) : Bool :=
  !fmtStream f.sfmt.toNat || f.m > formRows v.form || f.base g ≥ 65536 || f.base g + f.m * nTile v.form > 65536
    || (if v.form = 2 then f.kx ≠ 0 || !fmtStream f.bfmt.toNat || (f.da && f.sfmt ≠ 12 && f.bfmt ≠ 12) else f.badTile v)

end Sys2Proof

namespace Sys2Proof.Machine

def MxView.tierFor (v : MxView) (f : MxRun) : Tier := v.active.elim (tierOf f.sfmt.toNat f.bfmt.toNat) (fun l => l.tier)

def mxRunCheck (c : Nat) (f : MxRun) (s : State) (n : Nat) (g : Regs) : Check :=
  let win := s.window c
  let v := (s.x c).mxView
  if f.bad v g then illegal
  else if v.form = 2 then
    rangeCheck s n [f.sfmt.toNat, f.bfmt.toNat] 0 [(f.opA g 64).ranges g win false, (f.opB g).ranges g win false]
  else rangeCheck s n [f.sfmt.toNat] 0 [(f.opA g (f.k v.form (v.tierFor f))).ranges g win false]

/-- One cell's pairs: n stream elements from K index `k0` on, against column j of the bank (05 R100, R108). -/
def cellPairs (row : List El) (sf : Nat) (l : Latch) (j k0 n : Nat) : List (Fp × Fp) :=
  (List.range n).map (fun i => ((row.getD (k0 + i) El.zero).fp sf, (l.el (k0 + i) j).fp l.fmt))

def cellInts (row : List El) (sf : Nat) (l : Latch) (j k0 n : Nat) : List (Int × Int) :=
  (List.range n).map (fun i => ((row.getD (k0 + i) El.zero).int sf, (l.el (k0 + i) j).int l.fmt))

/-- The chain down a column: the top cell returns s, each cell below adds its own to the sum from above (02 R43). -/
def chainFp (cells : List (List (Fp × Fp))) : Fl W32 :=
  match cells with
  | [] => .pure 0
  | p :: r => r.foldl (fun a q => a.bind (fun c => (column q).bind (fun s => fadd c s))) (column p)

def chainInt (cells : List (List (Int × Int))) : Fl W32 :=
  match cells with
  | [] => .pure 0
  | p :: r => r.foldl (fun a q => a.bind (fun c =>
      let v := satInt (i32 c + intColumn q)
      { v := ofI32 v.v, f := v.f })) (.pure (ofI32 (intColumn p)))

/-- Row by column: what leaves the bottom cell (02 R43, R44). -/
def tileResult (form : Nat) (sf : Nat) (l : Latch) (row : List El) (j : Nat) : Fl W32 :=
  let n := l.tier.n
  if l.int then chainInt ((List.range (formDepth form)).map (fun d => cellInts row sf l j (d * n) n))
  else chainFp ((List.range (formDepth form)).map (fun d => cellPairs row sf l j (d * n) n))

/-- One element in diagonal form (05 R115): the product or the sum. -/
def diagResult (int add : Bool) (fa fb : Nat) (a b : El) : Fl W32 :=
  if int then
    .pure (ofI32 (if add then a.int fa + b.int fb else a.int fa * b.int fb))
  else
    let x := a.fp fa
    let y := b.fp fb
    f32op [x, y] (if add then x.add y else x.mul y)

/-- Writes or adds one result into the accumulator (02 R43, R44, 05 R109). -/
def accResult (old : W32) (acc int : Bool) (r : Fl W32) : Fl W32 :=
  if acc then r.bind (fun v => if int then satAdd old v else fadd old v) else r

/-- Writes results to consecutive accumulator entries. -/
def Exec.putAcc (x : Exec) (mark : Nat) : Nat → List W32 → Exec
  | _, [] => x
  | i, v :: r => Exec.putAcc { x with acc := Tab.put x.acc i v, accBy := Tab.put x.accBy i mark } mark (i + 1) r

/-- The results of a run in the order of the accumulator entries, with their flags. -/
def runResults (x : Exec) (f : MxRun) (base : Nat) (a b : List (List El)) : List (Fl W32) :=
  let form := x.form
  let nt := nTile form
  let int := if form = 2 then intPath f.sfmt.toNat f.bfmt.toNat else x.active?.elim false (fun l => l.int)
  (List.range (f.m * nt)).map (fun i =>
    let r := i / nt
    let j := i % nt
    let v := if form = 2 then diagResult int f.dop f.sfmt.toNat f.bfmt.toNat (elAt a r j) (elAt b r j)
      else match x.active? with
        | some l => tileResult form f.sfmt.toNat l (a.getD r []) j
        | none => .pure 0
    accResult (Tab.val 0 x.acc (base + i)) f.wa int v)

/-- The entries of a tile in order: 16 rows of 64 columns. -/
def DrainTile.entries (d : DrainTile) : List Nat := (List.range 1024).map (fun i => d.first + i / 64 * d.pitch + i % 64)

/-- A drain of an earlier instruction has still to read one of the `n` entries from `base` on (05 R112). -/
def Exec.undrained (x : Exec) (id base n : Nat) : Bool :=
  x.drains.any (fun d => d.id < id && d.entries.any (fun e => base ≤ e && e < base + n))

def runMxRun (f : MxRun) : Effect := fun s c k =>
  let x := s.x c
  let w := s.who c k.regs
  if (usesExpanders k.instr && !x.expanderOpen k.id) || x.undrained k.id (f.base k.regs) (f.m * nTile x.form) then none
  else
    let t := x.active?.elim .t32 (fun l => l.tier)
    let a := readOp s w c k (f.opA k.regs (f.k x.form t)) f.da
    let b := if x.form = 2 then readOp a.1 w c k (f.opB k.regs) f.da else (a.1, [])
    let int := if x.form = 2 then intPath f.sfmt.toNat f.bfmt.toNat else x.active?.elim false (fun l => l.int)
    let rs := runResults x f (f.base k.regs) a.2 b.2
    let s := b.1.onX c (fun x => x.putAcc (2 * k.id + b2n int) (f.base k.regs) (rs.map (fun r => r.v)))
    let s := s.addFlags c (joinAll (rs.map (fun r => r.f)))
    some (.done (match w.ctx with
      | some n => (s.count n 3 f.m).actBy w (actPass t.rank) f.m
      | none => s))

def execMxRun (c : Fin 264) (f : MxRun) (s : State) : Host.Outcome State Fault Refusal :=
  .next (issue s c 1 .matrix (.mxRun c f) always (mxRunCheck c f) id (runMxRun f))

/-! ### Draining to the tile queue (05 R111 to R113) -/

end Sys2Proof.Machine

namespace Sys2Proof

open Machine

def MxDrain.rows (f : MxDrain) : Nat := 16 * (f.rq.toNat + 1)

def MxDrain.pitch (f : MxDrain) : Nat := if f.pt then 256 else 64

def MxDrain.cols (f : MxDrain) : Nat := 64 * (f.cq.toNat + 1)

def MxDrain.base (f : MxDrain) (g : Regs) : Nat := (g.getS f.sC.toNat).toNat

end Sys2Proof

namespace Sys2Proof.Machine

def mxDrainCheck (f : MxDrain) (_ : State) (_ : Nat) (g : Regs) : Check :=
  if f.base g ≥ 65536 || f.cols > f.pitch || f.base g + (f.rows - 1) * f.pitch + f.cols > 65536 then illegal
  else .ok [] 0

/-- The tiles of a drain in order: by 16-row block, and within a block by slice (05 R111). -/
def drainTiles (id base pitch blocks slices : Nat) : List DrainTile :=
  (List.range (blocks * slices)).map (fun t =>
    { id := id, first := base + t / slices * 16 * pitch + t % slices * 64, pitch := pitch })

/-- A tile with the mark of the run that last wrote any entry of it (05 R111). -/
def Exec.tile (x : Exec) (d : DrainTile) : Tile :=
  { int := (d.entries.map (fun e => Tab.val 0 x.accBy e)).foldl max 0 % 2 = 1
    vals := d.entries.map (fun e => Tab.val 0 x.acc e) }

/-- Tiles enter the queue while it has room for 8; a drain reads a tile's entries as the tile enters (05 R112). -/
def Exec.fillTiles (x : Exec) : Exec :=
  let k := 8 - x.tileQ.length
  { x with tileQ := x.tileQ ++ (x.drains.take k).map x.tile, drains := x.drains.drop k }

/-- A drain's tiles stand behind those of the drains before it. -/
def Exec.addDrain (x : Exec) (ts : List DrainTile) : Exec := { x with drains := x.drains ++ ts }.fillTiles

def runMxDrain (f : MxDrain) : Effect := fun s c k =>
  some (.done (s.onX c (fun x => x.addDrain (drainTiles k.id (f.base k.regs) f.pitch (f.rows / 16) (f.cols / 64)))))

def execMxDrain (c : Fin 264) (f : MxDrain) (s : State) : Host.Outcome State Fault Refusal :=
  .next (issue s c 1 .matrix (.mxDrain c f) always (mxDrainCheck f) id (runMxDrain f))

/-! ### Near-memory products (10 R215 to R223) -/

/-- The channel pair, and so the well, of an address within its stack (10 R211). -/
def channelPair (a : Nat) : Nat :=
  let u := a % 2 ^ 36 / 2048
  (u + u / 32) % 16

/-- The channel and the pseudo-channel that hold a 64-byte piece of a stack (10 R211). -/
def channelOf (a : Nat) : Nat := 2 * channelPair a + a / 64 % 4 / 2
def pseudoOf (a : Nat) : Nat := a / 64 % 2

/-- The well that computes a column or page: of the address's stack, or of the fallback stack when its page does not
translate (10 R222). -/
def State.wellAt (s : State) (p va st : Nat) : Nat :=
  match (if va < 0x10000000000 then s.xlat p va false else .bad .untranslated) with
  | .stack pa => stackOf pa * 16 + channelPair pa
  | _ => st * 16 + channelPair va

/-- The one stack of a mask; the lowest of the core's region when no page translates (10 R222). -/
def oneStack (mask c : Nat) : Option Nat :=
  if mask = 0 then some (4 * regionOf c)
  else if mask = 2 ^ Nat.log2 mask then some (Nat.log2 mask) else none

structure NmvArgs where
  base   : Nat
  k      : Nat
  n      : Nat
  pitch  : Nat
  v      : Nat
  stride : Nat
  deriving DecidableEq, Repr

end Sys2Proof.Machine

namespace Sys2Proof

open Machine

def MxNmv.args (f : MxNmv) (g : Regs) : NmvArgs :=
  { base := (g.getS f.sW.toNat).toNat, k := (g.getS f.sK.toNat).toNat, n := (g.getS f.sN.toNat).toNat
    pitch := (g.getS f.sP.toNat).toNat, v := f.vq.toNat + 1, stride := (g.getS f.sV.toNat).toNat }

end Sys2Proof

namespace Sys2Proof.Machine

/-- Values of a 64-byte segment. -/
def segValues (wfmt : Nat) : Nat := if fmtIsErg wfmt then ergValues wfmt else 64

def NmvArgs.bad (a : NmvArgs) (wfmt vfmt : Nat) : Bool :=
  !(wfmt = 3 || wfmt = 9 || wfmt = 10 || wfmt = 11) || vfmt > 4 || a.base % 64 ≠ 0
    || a.k < 1 || a.k > 1048576 || a.n < 1 || a.n > 131072 || a.pitch < cdiv a.k (segValues wfmt)
    || a.n * a.v * 4 > 4194304

end Sys2Proof.Machine

namespace Sys2Proof

open Machine

def MxNmv.vecs (f : MxNmv) (g : Regs) : RowOp :=
  { d := f.aX.toNat, fmt := f.vfmt.toNat, rows := (f.args g).v, cols := (f.args g).k, stride := (f.args g).stride }

end Sys2Proof

namespace Sys2Proof.Machine

def mxNmvCheck (c : Nat) (f : MxNmv) (s : State) (n : Nat) (g : Regs) : Check :=
  let a := f.args g
  let win := s.window c
  if a.bad f.wfmt.toNat f.vfmt.toNat || (f.da && !fmtIsErg f.wfmt.toNat) then illegal
  else match oneStack (s.stackMask (s.ctx n).part a.base (a.n * a.pitch * 64)) c with
    | none => illegal
    | some st =>
      rangeCheck s n [f.wfmt.toNat, f.vfmt.toNat] (2 ^ st)
        [(f.vecs g).ranges g win false, (rangeAt g win f.aR.toNat (a.n * a.v * 4) true).map (fun r => [r])]

/-- A partition's table slot in the wells of a stack (07 R165). -/
def Part.well (p : Part) (st slot : Nat) : TblSlot := (Tab.at? p.wells (st * 16 + slot)).getD TblSlot.absent

/-- What a well's work on a range of blocks gives: the state, the values, the banks that its blocks pin, whether it ends
the group. -/
structure WellOut where
  s    : State
  els  : List (List El)
  pins : List (Nat × Bool)
  stop : Bool
  deriving DecidableEq, Repr

/-- One segment of weights as the well reads it (07 R153 to R155, R165): its values, and whether it ends the group. A block
that captures no generation has 0 in a damage record (DESIGN CHOICE, log 169). -/
def wellSegment (s : State) (w : Who) (n st wl wfmt addr : Nat) (da : Bool) (bs : List PByte) : WellOut :=
  if !fmtIsErg wfmt then { s := s, els := [elems 8 64 bs noScale], pins := [], stop := false }
  else if anyBad bs then { s := s, els := [badEls wfmt], pins := [], stop := false }
  else
    let b := Block.ofBytes (plain bs)
    let t := (s.part w.part).well st b.slot
    let uses := b.mode = 1 || b.mode = 2
    let gen := if uses then t.gen else 0
    let pins := if uses then [(b.slot, t.cur)] else []
    match decodeBlock t.image wfmt b with
    | .vals k vs => { s := s, els := [blockEls wfmt (.vals k vs)], pins := pins, stop := false }
    | .bad cause sub =>
      { s := s.ergDamage w n (.well wl) 6 st b.slot gen cause sub addr, els := [blockEls wfmt (.bad cause sub)]
        pins := pins, stop := da }

/-- Adds the entries of `b` that `a` lacks. -/
def joinSet {α : Type} [BEq α] (a b : List α) : List α := b.foldl (fun l x => if l.contains x then l else l ++ [x]) a

def wellSegments (s : State) (w : Who) (n st wl wfmt addr : Nat) (da : Bool) : List (List PByte) → WellOut
  | [] => { s := s, els := [], pins := [], stop := false }
  | bs :: r =>
    let a := wellSegment s w n st wl wfmt addr da bs
    let b := wellSegments a.s w n st wl wfmt (addr + 64) da r
    { s := b.s, els := a.els ++ b.els, pins := joinSet a.pins b.pins, stop := a.stop || b.stop }

/-- The well chain (10 R220): one window for each segment. -/
def wellChain (parts : List (List (Fp × Fp))) : Fl W32 := chainFp parts

/-- Column j against one vector. -/
def nmvResult (a : NmvArgs) (wfmt vfmt : Nat) (segs : List (List El)) (x : List El) : Fl W32 :=
  let per := segValues wfmt
  wellChain (segs.mapIdx (fun b seg =>
    (List.range (min per (a.k - b * per))).map (fun i =>
      ((seg.getD i El.zero).fp wfmt, (x.getD (b * per + i) El.zero).fp vfmt))))

structure NmvOut where
  s     : State
  /-- By column: the results of the vectors in order. -/
  cols  : List (List (Fl W32))
  wells : List Nat
  pins  : List (Nat × Bool)
  stop  : Bool
  code  : Nat

/-- The columns in ascending order. -/
def nmvColumns (w : Who) (n st : Nat) (a : NmvArgs) (f : MxNmv) (xs : List (List El)) : Nat → State → NmvOut
  | 0, s => { s := s, cols := [], wells := [], pins := [], stop := false, code := 6 }
  | m + 1, s =>
    let j := a.n - (m + 1)
    let va := a.base + j * a.pitch * 64
    let cb := cdiv a.k (segValues f.wfmt.toNat)
    let g := s.readData { w with well := true } va (64 * cb)
    let wl := s.wellAt w.part va st
    let segs := wellSegments g.s w n st wl f.wfmt.toNat va f.da (chunks 64 cb g.bs)
    if g.stop then
      { s := g.s.poisonRead w (g.s.stopAddr w va (64 * cb)), cols := [], wells := [], pins := [], stop := true, code := 5 }
    else if segs.stop then { s := segs.s, cols := [], wells := [], pins := [], stop := true, code := 6 }
    else
      let r := nmvColumns w n st a f xs m segs.s
      { r with
        cols := xs.map (nmvResult a f.wfmt.toNat f.vfmt.toNat segs.els) :: r.cols
        wells := joinSet r.wells [wl % 16], pins := joinSet r.pins segs.pins }

/-- A request waits in the wells of its stack until slots have served it (10 R223, R227); a stack in self-refresh starts
to wake (R237). -/
def State.askWells (s : State) (st : Nat) (r : WellReq) : State :=
  s.onStack st (fun k => { k with reqs := k.reqs ++ [r], waking := k.waking || k.selfRef, idleTick := s.time })

/-- Results in bytes: value (v, j) at 4 × (v × N + j) (10 R221). -/
def nmvBytes (v : Nat) (cols : List (List (Fl W32))) : List PByte :=
  ((List.range v).map (fun i =>
    (cols.map (fun c => clean (leBytes 4 (c.getD i (.pure 0)).v.toNat))).flatten)).flatten

def runMxNmv (f : MxNmv) : Effect := fun s c k =>
  let w := s.who c k.regs
  let a := f.args k.regs
  let st := (oneStack (s.stackMask w.part a.base (a.n * a.pitch * 64)) c).getD 0
  match w.ctx with
  | none => some (.done s)
  | some n =>
    let x := readOp s w c k (f.vecs k.regs) f.da
    let r := nmvColumns w n st a f x.2 a.n x.1
    if r.stop then some (.abort r.code r.s)
    else
      let off := (spAt k.regs (s.window c) f.aR.toNat (a.n * a.v * 4)).getD 0
      let s := r.s.writeSp c off (nmvBytes a.v r.cols)
      let s := s.addFlags c (joinAll ((r.cols.flatten).map (fun q => q.f)))
      let pt := (s.stack st).wpoint
      some (.done (((s.count n 9 (a.k * a.n)).act n (actWell (tierOf f.wfmt.toNat f.vfmt.toNat).rank) pt (a.k * a.n)).askWells st
        { core := c, id := k.id, part := w.part, wells := r.wells, pins := r.pins }))

def execMxNmv (c : Fin 264) (f : MxNmv) (s : State) : Host.Outcome State Fault Refusal :=
  .next (issue s c 1 .nearMem (.mxNmv c f) always (mxNmvCheck c f) id (runMxNmv f))

end Sys2Proof.Machine
end

