-- ==== Sys2Proof/Machine/Special.lean ====
section
/-! DEFINITION. The special functions and composites (02 R46 to R52). Each constant is the FP32 value nearest to the
decimal that the rule gives. -/

namespace Sys2Proof.Machine

def fHalf : W32 := 0x3F000000
def fMinusTwo : W32 := 0xC0000000
def fLog2e : W32 := 0x3FB8AA3B

/-- m and e of a finite nonzero |x| = m × 2^e with m in [1, 2) as FP32 (02 R46). -/
def splitMag (x : Fp) : W32 × Int :=
  match x with
  | .fin _ m e =>
    let l := Nat.log2 m
    ((toF32 (.fin false m (-(l : Int)))).v, (l : Int) + e)
  | _ => (fOne, 0)

/-- `y × 2^k` rounded once, with FP_OVF on overflow. -/
def scaleRound (neg : Bool) (y : W32) (k : Int) : Fl W32 :=
  let v := (ofF32 y).scale k
  toF32 (if neg then v.flip else v)

/-- Polynomial evaluation by fused multiply-adds: p := fma(p, z, c) down the list. -/
def horner (z : W32) : Fl W32 → List W32 → Fl W32
  | p, [] => p
  | p, c :: r => horner z (p.bind fun v => ffma v z c) r

/-- One refinement of the reciprocal seed (02 R47). -/
def rcpStep (m : W32) (y : Fl W32) : Fl W32 :=
  y.bind fun y => (ffma (fneg m) y fOne).bind fun t => ffma y t y

def rcp (x : W32) : Fl W32 :=
  match ofF32 x with
  | .nan => .pure fNaN
  | .inf s => .pure (if s then 0x80000000 else 0)
  | .fin s m e =>
    if m = 0 then .pure (if s then fNegInf else fPosInf)
    else
      let me := splitMag (.fin s m e)
      let y := rcpStep me.1 (rcpStep me.1 (rcpStep me.1 (ffma 0xBEF0F0F1 me.1 0x3FB4B4B5)))
      y.bind fun y => scaleRound s y (-me.2)

/-- One refinement of the reciprocal square root (02 R48). -/
def rsqrtStep (m : W32) (y : Fl W32) : Fl W32 :=
  y.bind fun y => (fmul y y).bind fun u => (ffma (fneg m) u fOne).bind fun t =>
    (fmul fHalf y).bind fun h => ffma h t y

def rsqrt (x : W32) : Fl W32 :=
  match ofF32 x with
  | .nan => .pure fNaN
  | .inf s => if s then { v := fNaN, f := Flags.inv } else .pure 0
  | .fin s m e =>
    if m = 0 then .pure (if s then fNegInf else fPosInf)
    else if s then { v := fNaN, f := Flags.inv }
    else
      let me := splitMag (.fin s m e)
      let odd := me.2 % 2 != 0
      let mm := if odd then (toF32 ((ofF32 me.1).scale 1)).v else me.1
      let ee := if odd then me.2 - 1 else me.2
      let y := rsqrtStep mm (rsqrtStep mm (rsqrtStep mm (rsqrtStep mm (ffma 0xBE2AAAAB mm 0x3F955555))))
      y.bind fun y => scaleRound false y (-(ee / 2))

/-- Rounding to an integer, ties to even. -/
def roundInt (rd : Round) (x : Fp) : Int :=
  match x with
  | .fin s m e => signed s (roundAt rd m e 0)
  | _ => 0

def exp2Coeffs : List W32 :=
  [0x39218489, 0x3AAEC3FF, 0x3C1D955B, 0x3D635847, 0x3E75FDF0, 0x3F317218, fOne]

def exp2 (x : W32) : Fl W32 :=
  match ofF32 x with
  | .nan => .pure fNaN
  | .inf s => .pure (if s then 0 else fPosInf)
  | .fin s m e =>
    if fle 0x43000000 x then { v := fPosInf, f := Flags.ovf }
    else if fle x 0xC3180000 then .pure 0
    else
      let k := roundInt .rne (.fin s m e)
      let f := (toF32 ((Fp.fin s m e).add (Fp.ofInt (-k)))).v
      (horner f (.pure 0x377FE5FE) exp2Coeffs).bind fun p => scaleRound false p k

def log2Coeffs : List W32 := [0x3ED30BB1, 0x3F13BB63, 0x3F76384F, 0x4038AA3B]

def log2 (x : W32) : Fl W32 :=
  match ofF32 x with
  | .nan => .pure fNaN
  | .inf s => if s then { v := fNaN, f := Flags.inv } else .pure fPosInf
  | .fin s m e =>
    if m = 0 then .pure fNegInf
    else if s then { v := fNaN, f := Flags.inv }
    else
      let me := splitMag (.fin s m e)
      let big := flt 0x3FB504F3 me.1
      let mm := if big then (toF32 ((ofF32 me.1).scale (-1))).v else me.1
      let ee := if big then me.2 + 1 else me.2
      (fadd mm fOne).bind fun d => (rcp d).bind fun r => (fsub mm fOne).bind fun n =>
        (fmul n r).bind fun t => (fmul t t).bind fun z =>
          (horner z (.pure 0x3EA4258A) log2Coeffs).bind fun q => (fmul t q).bind fun q =>
            fadd (toF32 (Fp.ofInt ee)).v q

def tanhCoeffs : List W32 := [0x3CB327A4, 0xBD5D0DD1, 0x3E088889, 0xBEAAAAAB]

def tanh (x : W32) : Fl W32 :=
  match ofF32 x with
  | .nan => .pure fNaN
  | .inf s => .pure (if s then 0xBF800000 else fOne)
  | .fin s m e =>
    if m = 0 then .pure x
    else if fle 0x41200000 (fabs x) then .pure (if s then 0xBF800000 else fOne)
    else if flt (fabs x) 0x3E800000 then
      (fmul x x).bind fun z => (horner z (.pure 0xBC11371B) tanhCoeffs).bind fun p =>
        (fmul p z).bind fun q => ffma x q x
    else
      (fmul (toF32 ((Fp.fin false m e).scale 1)).v fLog2e).bind fun a => (exp2 a).bind fun y =>
        (fadd y fOne).bind fun d => (rcp d).bind fun r => (ffma fMinusTwo r fOne).bind fun t =>
          .pure (if s then fneg t else t)

/-! Composites (02 R52) -/

def expF (x : W32) : Fl W32 := (fmul x fLog2e).bind exp2

def sigmoid (x : W32) : Fl W32 :=
  (expF (fneg x)).bind fun e => (fadd fOne e).bind fun d => rcp d

def silu (x : W32) : Fl W32 := (sigmoid x).bind fun s => fmul x s

def gelu (x : W32) : Fl W32 :=
  (fmul x x).bind fun xx => (fmul 0x3D372713 xx).bind fun c => (ffma c x x).bind fun i =>
    (fmul 0x3F4C422A i).bind fun g => (tanh g).bind fun t => (fmul fHalf x).bind fun h =>
      (fadd fOne t).bind fun o => fmul h o

def fdiv (a b : W32) : Fl W32 := (rcp b).bind fun r => fmul a r

def fsqrt (x : W32) : Fl W32 :=
  match ofF32 x with
  | .nan => .pure fNaN
  | .inf s => if s then { v := fNaN, f := Flags.inv } else .pure fPosInf
  | .fin s m _ =>
    if m = 0 then .pure x
    else if s then { v := fNaN, f := Flags.inv }
    else (rsqrt x).bind fun r => fmul x r

/-- The flags of a special function are those of the operation as a whole (02 R38: an operation that produces an
infinity from finite operands, or a NaN from operands that hold none); `exact` marks the exact special cases that R38
excepts. DEDUCED (log 20). -/
def whole (exact : Bool) (ins : List W32) (r : W32) : Fl W32 :=
  let v := ofF32 r
  { v := r
    f := if v.isNan then (if ins.any (fun a => (ofF32 a).isNan) then Flags.none else Flags.inv)
         else if v.isInf && !exact && !ins.any (fun a => (ofF32 a).isNan || (ofF32 a).isInf) then Flags.ovf
         else Flags.none }

def isZero32 (x : W32) : Bool := (ofF32 x).isZero

def opExp2 (x : W32) : Fl W32 := whole false [x] (exp2 x).v
def opLog2 (x : W32) : Fl W32 := whole (isZero32 x) [x] (log2 x).v
def opRcp (x : W32) : Fl W32 := whole (isZero32 x) [x] (rcp x).v
def opRsqrt (x : W32) : Fl W32 := whole (isZero32 x) [x] (rsqrt x).v
def opTanh (x : W32) : Fl W32 := whole false [x] (tanh x).v
def opExp (x : W32) : Fl W32 := whole false [x] (expF x).v
def opSigmoid (x : W32) : Fl W32 := whole false [x] (sigmoid x).v
def opSilu (x : W32) : Fl W32 := whole false [x] (silu x).v
def opGelu (x : W32) : Fl W32 := whole false [x] (gelu x).v
def opDiv (a b : W32) : Fl W32 := whole (isZero32 b) [a, b] (fdiv a b).v
def opSqrt (x : W32) : Fl W32 := whole false [x] (fsqrt x).v

end Sys2Proof.Machine
end

