-- ==== Sys2Proof/Machine/Program.lean ====
section
/-! DEFINITION. Element programs: their descriptors, the checks of a load, and what a program computes for one element
(06 R130 to R135). -/

namespace Sys2Proof.Machine

/-- An operation word (06 R132). -/
structure EpOp where
  opc : Nat
  dst : Nat
  a   : Nat
  b   : Nat
  c   : Nat
  rsv : Nat
  deriving DecidableEq, Repr

def EpOp.ofWord (w : Nat) : EpOp :=
  { opc := bits w 0 6, dst := bits w 6 3, a := bits w 9 5, b := bits w 14 5, c := bits w 19 5, rsv := bits w 24 8 }

/-- An element-program descriptor (06 R131). -/
structure Prog where
  ops    : List EpOp
  consts : List W32
  nops   : Nat
  pair   : Bool
  src0   : Nat
  src1   : Nat
  int0   : Bool
  int1   : Bool
  rsv    : Nat
  deriving DecidableEq, Repr

def word32 (bs : List Byte) (off : Nat) : Nat := leNat ((bs.drop off).take 4)

def Prog.ofBytes (bs : List Byte) : Prog :=
  let ctrl := leNat ((bs.drop 0x60).take 8)
  let n := bits ctrl 0 5
  { ops := (List.range (min n 16)).map (fun i => EpOp.ofWord (word32 bs (4 * i)))
    consts := (List.range 8).map (fun j => BitVec.ofNat 32 (word32 bs (0x40 + 4 * j)))
    nops := n, pair := bit ctrl 5, src0 := bits ctrl 6 3, src1 := bits ctrl 9 3, int0 := bit ctrl 12
    int1 := bit ctrl 13, rsv := bits ctrl 14 50 + leNat ((bs.drop 0x68).take 24) }

/-- Operands that an operation reads, and its slots (06 R133); none for a reserved code. -/
def epShape (opc : Nat) : Option (Nat × Nat) :=
  match opc with
  | 0x01 => some (2, 1) | 0x02 => some (2, 1) | 0x03 => some (2, 1) | 0x04 => some (3, 1)
  | 0x05 => some (2, 1) | 0x06 => some (2, 1) | 0x07 => some (1, 1) | 0x08 => some (1, 1)
  | 0x09 => some (2, 1) | 0x0A => some (2, 1) | 0x0B => some (2, 1) | 0x0C => some (3, 1)
  | 0x0D => some (1, 1) | 0x10 => some (1, 2) | 0x11 => some (1, 3) | 0x12 => some (1, 2)
  | 0x13 => some (1, 2) | 0x14 => some (1, 3) | 0x15 => some (1, 2) | 0x16 => some (1, 3)
  | 0x17 => some (1, 4) | 0x18 => some (1, 6) | 0x19 => some (2, 3) | 0x1A => some (1, 3)
  | 0x20 => some (2, 1) | 0x21 => some (2, 1) | 0x22 => some (2, 1) | 0x23 => some (2, 1)
  | 0x24 => some (2, 1) | 0x25 => some (2, 1) | 0x26 => some (2, 1) | 0x27 => some (2, 1)
  | 0x28 => some (2, 1) | 0x29 => some (2, 1) | 0x2A => some (2, 1) | 0x2B => some (2, 1)
  | 0x2C => some (2, 1) | 0x2D => some (1, 1) | 0x2E => some (1, 1)
  | _ => none

/-- The selectors that an operation reads. -/
def EpOp.reads (o : EpOp) : List Nat :=
  match epShape o.opc with
  | some (n, _) => [o.a, o.b, o.c].take n
  | none => []

def EpOp.slots (o : EpOp) : Nat := (epShape o.opc).elim 0 (fun k => k.2)

/-- An operation word that 06 R132 and R133 allow. -/
def EpOp.ok (o : EpOp) : Bool :=
  match epShape o.opc with
  | none => false
  | some (n, _) => o.rsv = 0 && ([o.a, o.b, o.c].take n).all (fun k => k < 24) && ([o.a, o.b, o.c].drop n).all (fun k => k = 0)

/-- What a paired program may hold (06 R135). -/
def EpOp.pairs (o : EpOp) : Bool :=
  o.slots = 1 && ((0x01 ≤ o.opc && o.opc ≤ 0x0D) || o.opc = 0x2D || o.opc = 0x2E)
    && o.reads.all (fun k => k ≠ 12 && k ≠ 13)

/-- A descriptor that 06 R131 to R133 and R135 allow. -/
def Prog.ok (p : Prog) : Bool :=
  1 ≤ p.nops && p.nops ≤ 16 && p.rsv = 0 && p.ops.all EpOp.ok && (!p.pair || p.ops.all EpOp.pairs)

def Prog.selectors (p : Prog) : List Nat := (p.ops.map EpOp.reads).flatten
def Prog.random (p : Prog) : Bool := p.selectors.any (fun k => k = 12 || k = 13)
/-- A second output of its own (06 R131). -/
def Prog.second (p : Prog) : Bool := p.src1 ≠ 0 || p.int1
def Prog.slots (p : Prog) : Nat := (p.ops.map EpOp.slots).foldl (· + ·) 0

def allOnes32 (b : Bool) : W32 := if b then 0xFFFFFFFF else 0

/-- FP32 to INT32 by RNE (06 R133, F2I). -/
def f2i (x : W32) : Fl W32 :=
  match ofF32 x with
  | .nan => { v := 0, f := Flags.inv }
  | .inf s => { v := if s then 0x80000000 else 0x7FFFFFFF, f := Flags.sat }
  | .fin s m e =>
    let i := signed s (roundAt .rne m e 0)
    if i < -2147483648 then { v := 0x80000000, f := Flags.sat }
    else if i > 2147483647 then { v := 0x7FFFFFFF, f := Flags.sat }
    else .pure (ofI32 i)

/-- The result of an operation (06 R133). -/
def epResult (opc : Nat) (a b c : W32) : Fl W32 :=
  match opc with
  | 0x01 => fadd a b
  | 0x02 => fsub a b
  | 0x03 => fmul a b
  | 0x04 => ffma a b c
  | 0x05 => .pure (fmax a b)
  | 0x06 => .pure (fmin a b)
  | 0x07 => .pure (fabs a)
  | 0x08 => .pure (fneg a)
  | 0x09 => .pure (allOnes32 (flt a b))
  | 0x0A => .pure (allOnes32 (fle a b))
  | 0x0B => .pure (allOnes32 (feq a b))
  | 0x0C => .pure (if a ≠ 0 then b else c)
  | 0x0D => .pure a
  | 0x10 => opExp2 a
  | 0x11 => opLog2 a
  | 0x12 => opRcp a
  | 0x13 => opRsqrt a
  | 0x14 => opTanh a
  | 0x15 => opExp a
  | 0x16 => opSigmoid a
  | 0x17 => opSilu a
  | 0x18 => opGelu a
  | 0x19 => opDiv a b
  | 0x1A => opSqrt a
  | 0x20 => .pure (a + b)
  | 0x21 => .pure (a - b)
  | 0x22 => .pure (a * b)
  | 0x23 => .pure (if b.slt a then b else a)
  | 0x24 => .pure (if a.slt b then b else a)
  | 0x25 => .pure (a &&& b)
  | 0x26 => .pure (a ||| b)
  | 0x27 => .pure (a ^^^ b)
  | 0x28 => .pure (a <<< (b.toNat % 32))
  | 0x29 => .pure (a >>> (b.toNat % 32))
  | 0x2A => .pure (a.sshiftRight (b.toNat % 32))
  | 0x2B => .pure (allOnes32 (a.slt b))
  | 0x2C => .pure (allOnes32 (a = b))
  | 0x2D => toF32 (Fp.ofInt (i32 a))
  | 0x2E => f2i a
  | _ => .pure 0

/-- What an element can read besides its registers. -/
structure EpIn where
  ins : List W32
  rnd : Quad
  idx : Nat
  deriving DecidableEq, Repr

/-- The uniform value of a random word (03 R64). -/
def uniform (w : W32) : W32 := (toF32 (.fin false (w.toNat / 256) (-24))).v

/-- An operand by its selector (06 R132). -/
def epRead (p : Prog) (i : EpIn) (regs : List W32) (sel : Nat) : W32 :=
  if sel < 8 then regs.getD sel 0
  else if sel < 12 then i.ins.getD (sel - 8) 0
  else if sel = 12 then uniform i.rnd.x0
  else if sel = 13 then uniform i.rnd.x1
  else if sel = 14 then BitVec.ofNat 32 i.idx
  else if sel = 15 then 0
  else p.consts.getD (sel - 16) 0

/-- The element registers after the operations, in order, with the flags (06 R134). -/
def epRun (p : Prog) (i : EpIn) : List EpOp → List W32 → Flags → List W32 × Flags
  | [], regs, f => (regs, f)
  | o :: r, regs, f =>
    let v := epResult o.opc (epRead p i regs o.a) (epRead p i regs o.b) (epRead p i regs o.c)
    epRun p i r (regs.set o.dst v.v) (f.join v.f)

def Prog.run (p : Prog) (i : EpIn) : List W32 × Flags := epRun p i p.ops (List.replicate 8 0) Flags.none

end Sys2Proof.Machine
end

