-- ==== Sys2Proof/Machine/Vector.lean ====
section
/-! DEFINITION. The vector and element-program classes (06 R119 to R142, 12 R286 to R289) and the rn class
(12 R297, R298). -/

namespace Sys2Proof.Machine

/-! ### Sequencer state of the vector class -/

/-- `vx.setvl` (06 R121); the core keeps its registers as they were, for a restore with another VLMAX (15 R369). -/
def execVxSetvl (c : Fin 264) (sD sS : BitVec 5) (s : State) : Host.Outcome State Fault Refusal :=
  .next (fetched s c (.vxSetvl c sD sS) (fun s _ _ g =>
    let req := g.getS sS.toNat
    let v := min req.toNat 16384
    let s := s.onX c (fun x => { x with setvl := some g })
    .done (s.pass c 1 (fun g =>
      { g.setS sD.toNat (BitVec.ofNat 64 v) with vl := BitVec.ofNat 32 v, vlReq := req }))))

def execVxSetm (c : Fin 264) (mD : BitVec 3) (sS : BitVec 5) (s : State) : Host.Outcome State Fault Refusal :=
  .next (fetched s c (.vxSetm c mD sS) (fun s _ _ g =>
    let v := g.getS sS.toNat
    if fld v 26 38 ≠ 0 then .abort 4 s
    else .done (s.pass c 1 (fun g => { g with m := Tab.put g.m mD.toNat v }))))

/-! ### Element-program slots (06 R130) -/

/-- An earlier `xp.def` of this slot has not completed. -/
def Exec.slotPending (x : Exec) (n : Nat) : Bool :=
  (x.queue ++ x.inflight).any (fun k => match k.instr with
    | .xpDef _ m _ _ => m.toNat = n
    | _ => false)

/-- An instruction that names a slot issues once every earlier `xp.def` of it has completed. -/
def slotFree (n : Nat) (s : State) (c : Nat) : Bool := !(s.x c).slotPending n

def xpDefCheck (c : Nat) (aS sO : Nat) (s : State) (_ : Nat) (g : Regs) : Check :=
  let off := (g.getS sO).toNat
  let a := baseOf g aS + off
  if off % 64 ≠ 0 || a % 64 ≠ 0 || !inExtent g aS off 128 then illegal
  else match ownOff (s.window c) a 128 with
    | some o => .ok [rd o 128] 0
    | none => illegal

def runXpDef (xN aS sO : Nat) : Effect := fun s c k =>
  let a := baseOf k.regs aS + (k.regs.getS sO).toNat
  let off := (ownOff (s.window c) a 128).getD 0
  some (withSpCtl s (s.who c k.regs) c off 128 (fun bs =>
    if (Prog.ofBytes bs).ok then .done (s.onRegs c (fun g => { g with xs := Tab.put g.xs xN (clean bs) }))
    else .abort 4 s))

def execXpDef (c : Fin 264) (xN : BitVec 3) (aS : BitVec 4) (sO : BitVec 5) (s : State) :
    Host.Outcome State Fault Refusal :=
  .next (issue s c 1 .vector (.xpDef c xN aS sO) (slotFree xN.toNat) (xpDefCheck c aS.toNat sO.toNat) id
    (runXpDef xN.toNat aS.toNat sO.toNat))

def Regs.prog (g : Regs) (n : Nat) : Option Prog := (Tab.at? g.xs n).map (fun bs => Prog.ofBytes (plain bs))

/-! ### Masks (06 R128, R129) -/

/-- The bitmap of a mask field over `n` elements: none named, or its descriptor. -/
def Regs.mask (g : Regs) (mk : Nat) : Option W64 := if mk = 0 then none else some (Tab.val 0 g.m (mk - 8))

def maskOff (m : W64) : Nat := fld m 0 22
def maskLen (m : W64) (n : Nat) : Nat := cdiv (fld m 22 3 + n) 8

/-- The range of the mask's bitmap, when it lies in the scratchpad. -/
def maskRange (m : Option W64) (n : Nat) : Option (List SpRange) :=
  match m with
  | none => some []
  | some v => if maskOff v + maskLen v n ≤ spBytes then some [rd (maskOff v) (maskLen v n)] else none

/-- Reads a mask: which elements are active. INVERT makes the elements with bit 0 active and those with bit 1 inactive
(DEDUCED, log 166). -/
def readMask (s : State) (w : Who) (c : Nat) (m : Option W64) (n : Nat) : State × List Bool :=
  match m with
  | none => (s, List.replicate n true)
  | some v =>
    let r := s.readSp w c (maskOff v) (maskLen v n)
    (r.1, (List.range n).map (fun e =>
      let i := fld v 22 3 + e
      bit (r.2.getD (i / 8) (0, false)).1.toNat (i % 8) != v.getLsbD 25))

/-! ### Streams (06 R123 to R127) -/

/-- A stream of `n` elements named by a descriptor. -/
def streamOp (d fmt n : Nat) : RowOp := { d := d, fmt := fmt, rows := 1, cols := n, stride := 0 }

/-- A stream element as its 32-bit value; a poisoned one enters an element program as NaN (06 R123, 19 R462). -/
def El.word (f : Nat) (e : El) : Fl W32 := if e.bad then .pure fNaN else widen f e.code e.scale

/-- An element on the integer path of a reduction: a poisoned one is -1. -/
def El.intWord (f : Nat) (e : El) : Fl W32 := if e.bad then .pure 0xFFFFFFFF else widen f e.code e.scale

def vecFmt (f : Nat) : Bool := f ≤ 8 || f = 13

/-- An MX stream lies at a14 or below and needs whole blocks (06 R127, 12 R273). -/
def mxStreamOk (d fmt n : Nat) : Bool := !fmtIsMx fmt || (d ≤ 14 && n % 32 = 0)

/-! ### The tile queue (06 R124, R136) -/

/-- The tiles that an instruction which takes from the queue finds, in order: those it has taken, those in the queue,
and those that enter it as it takes. -/
def Exec.tiles (x : Exec) : List Tile := x.taken ++ x.tileQ ++ x.drains.map x.tile

/-- The first `n` tiles have been read; waiting tiles enter the queue. -/
def Exec.dropTiles (x : Exec) (n : Nat) : Exec :=
  { x with
    taken := [], tileQ := x.tileQ.drop (n - x.taken.length)
    drains := x.drains.drop (n - x.taken.length - x.tileQ.length) }.fillTiles

/-- An instruction that needs `n` tiles takes those that have come, and waits for the rest (06 R124). -/
def Exec.takeTiles (x : Exec) (n : Nat) : Exec := { x.dropTiles n with taken := x.tiles.take n }

/-- How many of the next `n` tiles come before one whose mark differs; none while too few have come. -/
def Exec.tilesReady (x : Exec) (n : Nat) (int : Bool) : Option Nat :=
  let k := ((x.tiles.take n).takeWhile (fun t => t.int == int)).length
  if k = n then some n else if k < (x.tiles.take n).length then some k else none

def Exec.tileVals (x : Exec) (n : Nat) : List W32 := ((x.tiles.take n).map (fun t => t.vals)).flatten

/-! ### `vx.ep` (06 R134 to R136, 12 R287) -/

/-- A stream of an instruction: descriptor, format, and whether it is the tile queue or a bitmap. -/
structure Strm where
  d    : Nat
  fmt  : Nat
  spec : Bool
  deriving DecidableEq, Repr

end Sys2Proof.Machine

namespace Sys2Proof

open Machine

def VxEp.tqAt (f : VxEp) (i : Nat) : Bool := f.tq.toNat = i + 1

def VxEp.allIns (f : VxEp) : List Strm :=
  [{ d := f.i0.toNat, fmt := f.f0.toNat, spec := f.tqAt 0 }, { d := f.i1.toNat, fmt := f.f1.toNat, spec := f.tqAt 1 },
   { d := f.i2.toNat, fmt := f.f2.toNat, spec := f.tqAt 2 }, { d := f.i3.toNat, fmt := f.f3.toNat, spec := f.tqAt 3 }]

def VxEp.allOuts (f : VxEp) : List Strm :=
  [{ d := f.o0.toNat, fmt := f.fo0.toNat, spec := f.bm0 }, { d := f.o1.toNat, fmt := f.fo1.toNat, spec := f.bm1 }]

def VxEp.ins (f : VxEp) : List Strm := f.allIns.take f.ni.toNat
def VxEp.outs (f : VxEp) : List Strm := f.allOuts.take (if f.no then 2 else 1)

/-- Formats that the instruction names. -/
def VxEp.fmts (f : VxEp) : List Nat := ((f.ins ++ f.outs).filter (fun t => !t.spec)).map (fun t => t.fmt)

/-- Fields that the selected modes do not use, and reserved values (12 R269, R270, R287). SAT counts as used whatever the
outputs' formats are (DESIGN CHOICE, log 191). -/
def VxEp.badFields (f : VxEp) : Bool :=
  f.ni.toNat > 4 || f.tq.toNat > f.ni.toNat || (f.tq = 0 && f.ti) || f.rnd = 3 || !maskOk f.msk.toNat
    || (f.allIns.drop f.ni.toNat).any (fun t => t.d ≠ 0 || t.fmt ≠ 0)
    || f.ins.any (fun t => t.spec && (t.d ≠ 0 || t.fmt ≠ 0))
    || (!f.no && (f.o1 ≠ 0 || f.fo1 ≠ 0 || f.bm1))
    || f.outs.any (fun t => t.spec && t.fmt ≠ 0)
    || !f.fmts.all vecFmt

def VxEp.consumes (f : VxEp) (p : Prog) : Bool := p.random || f.rnd = 2

/-- The conditions on the program and the vector length (06 R124, R127, R129, R135, R136, 03 R61). -/
def VxEp.badProg (f : VxEp) (g : Regs) (p : Prog) : Bool :=
  let n := g.vl.toNat
  let l0 := (g.getS f.sL.toNat).toNat
  p.selectors.any (fun k => 8 ≤ k && k < 12 && k - 8 ≥ f.ni.toNat)
    || (p.second && !f.no)
    || (f.tq ≠ 0 && n % 1024 ≠ 0)
    || (f.ins ++ f.outs).any (fun t => !t.spec && !mxStreamOk t.d t.fmt n)
    || (f.msk ≠ 0 && !f.mz && f.outs.any (fun t => !t.spec && fmtIsMx t.fmt))
    || (p.pair && (f.tq ≠ 0 || f.rnd = 2 || f.fmts.any (fun k => fmtBits k > 16)))
    || (n ≠ 0 && f.consumes p && !g.lane && l0 + n - 1 ≥ 2 ^ 48)

/-- The scratchpad ranges of the instruction over `n` elements. -/
def VxEp.ranges (f : VxEp) (g : Regs) (win n : Nat) : List (Option (List SpRange)) :=
  (f.ins.filter (fun t => !t.spec)).map (fun t => (streamOp t.d t.fmt n).ranges g win false)
    ++ [maskRange (g.mask f.msk.toNat) n]
    ++ f.outs.map (fun t =>
        if t.spec then (rangeAt g win t.d (cdiv n 8) true).map (fun r => [r])
        else (streamOp t.d t.fmt n).ranges g win true)

/-- The registers after the issue: a consuming instruction in lane mode counts (03 R58). -/
def VxEp.after (f : VxEp) (g : Regs) : Regs :=
  match g.prog f.xs.toNat with
  | some p => if g.lane && g.vl ≠ 0 && f.consumes p then { g with seq := g.seq + 1 } else g
  | none => g

end Sys2Proof

namespace Sys2Proof.Machine

def vxEpCheck (c : Nat) (f : VxEp) (s : State) (n : Nat) (g : Regs) : Check :=
  match g.prog f.xs.toNat with
  | none => illegal
  | some p =>
    if f.badFields || f.badProg g p then illegal
    else if g.vl = 0 then rangeCheck s n f.fmts 0 []
    else match allRanges (f.ranges g (s.window c) g.vl.toNat) with
      | none => illegal
      | some l => if (mergeRanges l).length > 6 then illegal else if s.inSet n f.fmts then .ok l 0 else mismatch

/-- Reads the input streams in order, as 32-bit values with the flags of their widening. -/
def readIns (s : State) (w : Who) (c : Nat) (k : Issued) (n : Nat) (tiles : List W32) :
    List Strm → State × List (List (Fl W32))
  | [] => (s, [])
  | t :: r =>
    if t.spec then
      let q := readIns s w c k n tiles r
      (q.1, tiles.map Fl.pure :: q.2)
    else
      let a := readOp s w c k (streamOp t.d t.fmt n) false
      let q := readIns a.1 w c k n tiles r
      (q.1, ((a.2.headD []).map (El.word t.fmt)) :: q.2)

/-- One element: its registers, its random words and its flags. -/
structure EpOut where
  regs  : List W32
  rnd   : Quad
  flags : Flags
  live  : Bool
  deriving DecidableEq, Repr

def Regs.draws (g : Regs) (core draw l0 : Nat) : Draw :=
  { key := g.key.toNat, lane := g.lane, step := g.step.toNat, seq := g.seq.toNat, layer := g.layer.toNat
    op := g.op.toNat, draw := draw, l0 := l0, core := core }

def epElement (p : Prog) (d : Draw) (ins : List (List (Fl W32))) (act : List Bool) (e : Nat) : EpOut :=
  let xs := ins.map (fun l => l.getD e (.pure 0))
  let q := d.at e
  let r := p.run { ins := xs.map (fun x => x.v), rnd := q, idx := e }
  { regs := r.1, rnd := q, flags := (joinAll (xs.map (fun x => x.f))).join r.2, live := act.getD e true }

/-- The rounding of one output element (02 R36, R37, 03 R64): word 2 for o0, word 3 for o1. -/
def epRound (rnd fmt o : Nat) (q : Quad) : Round :=
  match rnd with
  | 0 => .rne
  | 1 => .rtz
  | _ => .st (stBits fmt) ((q.word (2 + o)).toNat % 2 ^ stBits fmt)

/-- The register that an output takes, as a value (06 R125). -/
def epValue (p : Prog) (o : Nat) (x : EpOut) : Fp :=
  let v := x.regs.getD (if o = 0 then p.src0 else p.src1) 0
  if (if o = 0 then p.int0 else p.int1) then Fp.ofInt (i32 v) else ofF32 v

/-- Bytes of an output and, for an MX output, its scales, with the flags of the active elements. -/
structure StreamOut where
  bytes  : List PByte
  scales : List PByte
  flags  : Flags
  deriving DecidableEq, Repr

/-- A bitmap output (06 R126, R129). -/
def bitmapOut (p : Prog) (o : Nat) (mz : Bool) (old : List PByte) (xs : List EpOut) : StreamOut :=
  let b (e : Nat) (x : EpOut) : Bool :=
    if x.live then x.regs.getD (if o = 0 then p.src0 else p.src1) 0 ≠ 0
    else if mz then false
    else bit (old.getD (e / 8) (0, false)).1.toNat (e % 8)
  let bs := xs.mapIdx b
  let keep := xs.any (fun x => !x.live) && !mz
  { bytes := (chunks 8 (cdiv xs.length 8) bs).mapIdx (fun i g =>
      (BitVec.ofNat 8 ((g.mapIdx (fun j v => b2n v <<< j)).foldl (· + ·) 0), keep && (old.getD i (0, false)).2))
    scales := [], flags := Flags.none }

/-- The codes of a plain output, with the flags of the active elements. -/
def plainOut (p : Prog) (o rnd fmt : Nat) (sat mz : Bool) (old : List PByte) (xs : List EpOut) : StreamOut :=
  let w := fmtBits fmt
  let rs := xs.mapIdx (fun e x =>
    if x.live then
      let r := convert fmt (epRound rnd fmt o x.rnd) sat (epValue p o x)
      ((r.v, false), r.f)
    else if mz then ((0, false), Flags.none)
    else (elemAt w old e, Flags.none))
  { bytes := packElems w old (rs.map (fun r => r.1)), scales := [], flags := joinAll (rs.map (fun r => r.2)) }

/-- An MX block takes FP32 values: an INT32 register converts under RNE (02 R35, R36; DEDUCED, log 153). -/
def epFloat (p : Prog) (o : Nat) (x : EpOut) : Fp :=
  if (if o = 0 then p.int0 else p.int1) then ofF32 (toF32 (epValue p o x)).v else epValue p o x

/-- An MX output: each block of 32 from the register values, an inactive element as +0 (06 R127, R129). -/
def mxOut (p : Prog) (o rnd fmt : Nat) (xs : List EpOut) : StreamOut :=
  let blocks := (chunks 32 (xs.length / 32) xs).map (fun b =>
    mxBlock fmt (b.map (fun x => (if x.live then epFloat p o x else .zero false, epRound rnd fmt o x.rnd))))
  { bytes := packElems (fmtBits fmt) [] ((blocks.map (fun b => b.2.v.map (fun v => (v, false)))).flatten)
    scales := blocks.map (fun b => (BitVec.ofNat 8 b.1, false))
    flags := joinAll (blocks.map (fun b => b.2.f)) }

/-- Writes output stream `o` (06 R125 to R129). -/
def writeOut (s : State) (c : Nat) (k : Issued) (f : VxEp) (p : Prog) (xs : List EpOut) (o : Nat) (t : Strm) (n : Nat) :
    State :=
  let win := s.window c
  let len := if t.spec then cdiv n 8 else spanBytes (fmtBits t.fmt) n
  let off := (spAt k.regs win t.d len).getD 0
  let len' := if t.spec then cdiv xs.length 8 else spanBytes (fmtBits t.fmt) xs.length
  let old := (s.x c).sp.read off len'
  let mz := f.mz
  let r := if t.spec then bitmapOut p o mz old xs
    else if fmtIsMx t.fmt then mxOut p o f.rnd.toNat t.fmt xs
    else plainOut p o f.rnd.toNat t.fmt f.sat mz old xs
  let s := s.writeSp c off r.bytes
  let s := if r.scales.isEmpty then s else s.writeSp c ((scaleAt k.regs win t.d (n / 32)).getD 0) r.scales
  s.addFlags c r.flags

def writeOuts (s : State) (c : Nat) (k : Issued) (f : VxEp) (p : Prog) (xs : List EpOut) (n : Nat) (o : Nat) :
    List Strm → State
  | [] => s
  | t :: r => writeOuts (writeOut s c k f p xs o t n) c k f p xs n (o + 1) r

/-- The first `m` of `n` elements; `m` falls short where a tile's mark differs. -/
def epBody (s : State) (c : Nat) (k : Issued) (f : VxEp) (p : Prog) (n m : Nat) (tiles : List W32) : State :=
  let w := s.who c k.regs
  let a := readIns s w c k n tiles f.ins
  let act := readMask a.1 w c (k.regs.mask f.msk.toNat) n
  let d := k.regs.draws c f.draw.toNat (k.regs.getS f.sL.toNat).toNat
  let xs := (List.range m).map (epElement p d a.2 act.2)
  let s := writeOuts act.1 c k f p xs n 0 f.outs
  let s := s.addFlags c (joinAll ((xs.filter (fun x => x.live)).map (fun x => x.flags)))
  (s.countWork w 6 (p.slots * m)).actBy w actSlot (p.slots * m)

def runVxEp (f : VxEp) : Effect := fun s c k =>
  let n := k.regs.vl.toNat
  match k.regs.prog f.xs.toNat with
  | none => some (.done s)
  | some p =>
    if n = 0 then some (.done s)
    else if f.tq = 0 then some (.done (epBody s c k f p n n []))
    else
      let x := s.x c
      match x.tilesReady (n / 1024) f.ti with
      | none => none
      | some t =>
        let vals := x.tileVals t
        let s := s.onX c (fun x => x.dropTiles t)
        let s := if t = 0 then s else epBody s c k f p n (1024 * t) vals
        some (if t = n / 1024 then .done s else .abort 4 s)

def execVxEp (c : Fin 264) (f : VxEp) (s : State) : Host.Outcome State Fault Refusal :=
  .next (issue s c 2 .vector (.vxEp c f) (slotFree f.xs.toNat) (vxEpCheck c f) f.after (runVxEp f))

/-! ### `vx.red` (06 R140, R141, 12 R288) -/

/-- The reduction operation. -/
def redOp (rop : Nat) (int : Bool) (a b : W32) : Fl W32 :=
  match rop, int with
  | 0, false => fadd a b
  | 1, false => .pure (fmax a b)
  | 2, false => .pure (fmin a b)
  | 0, true => satAdd a b
  | 1, true => .pure (if a.slt b then b else a)
  | 2, true => .pure (if b.slt a then b else a)
  | _, _ => .pure a

def redIdentity (rop : Nat) (int : Bool) : W32 :=
  match rop, int with
  | 0, false => 0x80000000
  | 1, false => fNegInf
  | 2, false => fPosInf
  | 1, true => 0x80000000
  | 2, true => 0x7FFFFFFF
  | _, _ => 0

/-- The 128 running values after the active elements of a group, in ascending order. -/
def redFill (rop : Nat) (int : Bool) : List (W32 × Bool) → Nat → List W32 → Flags → List W32 × Flags
  | [], _, t, f => (t, f)
  | (x, act) :: r, i, t, f =>
    if act then
      let v := redOp rop int (t.getD (i % 128) 0) x
      redFill rop int r (i + 1) (t.set (i % 128) v.v) (f.join v.f)
    else redFill rop int r (i + 1) t f

/-- One halving of the tree. -/
def redHalve (rop : Nat) (int : Bool) (w : Nat) (t : List W32 × Flags) : List W32 × Flags :=
  let rs := (List.range w).map (fun j => redOp rop int (t.1.getD j 0) (t.1.getD (j + w) 0))
  (rs.map (fun r => r.v), t.2.join (joinAll (rs.map (fun r => r.f))))

/-- The result of a group (06 R140). -/
def reduceGroup (rop : Nat) (int : Bool) (xs : List (W32 × Bool)) : Fl W32 :=
  let t := redFill rop int xs 0 (List.replicate 128 (redIdentity rop int)) Flags.none
  let t := [64, 32, 16, 8, 4, 2, 1].foldl (fun t w => redHalve rop int w t) t
  if !int && rop = 0 && !xs.any (fun x => x.2) then .pure 0 else { v := t.1.headD 0, f := t.2 }

end Sys2Proof.Machine

namespace Sys2Proof

open Machine

def VxRed.int (f : VxRed) : Bool := if f.tq then f.ti else fmtIsInt f.ifmt.toNat
def VxRed.g (f : VxRed) (g : Regs) : Nat := (g.getS f.sG.toNat).toNat

def VxRed.bad (f : VxRed) (g : Regs) : Bool :=
  let n := g.vl.toNat
  f.rop = 3 || !maskOk f.msk.toNat
    || (if f.tq then f.aI ≠ 0 || f.ifmt ≠ 0 || n % 1024 ≠ 0
        else f.ti || !vecFmt f.ifmt.toNat || !mxStreamOk f.aI.toNat f.ifmt.toNat n)
    || (n ≠ 0 && (f.g g = 0 || f.g g > n || n % f.g g ≠ 0))

def VxRed.fmts (f : VxRed) : List Nat := if f.tq then [] else [f.ifmt.toNat]

def VxRed.ranges (f : VxRed) (g : Regs) (win n : Nat) : List (Option (List SpRange)) :=
  [if f.tq then some [] else (streamOp f.aI.toNat f.ifmt.toNat n).ranges g win false,
   maskRange (g.mask f.msk.toNat) n,
   (rangeAt g win f.aO.toNat (4 * (n / f.g g)) true).map (fun r => [r])]

end Sys2Proof

namespace Sys2Proof.Machine

def vxRedCheck (c : Nat) (f : VxRed) (s : State) (n : Nat) (g : Regs) : Check :=
  if f.bad g then illegal
  else rangeCheck s n f.fmts 0 (if g.vl = 0 then [] else f.ranges g (s.window c) g.vl.toNat)

/-- Reduces the groups that lie within the first `m` of `n` elements. -/
def redBody (s : State) (c : Nat) (k : Issued) (f : VxRed) (n m : Nat) (tiles : List W32) : State :=
  let w := s.who c k.regs
  let a := if f.tq then (s, tiles.map Fl.pure)
    else
      let r := readOp s w c k (streamOp f.aI.toNat f.ifmt.toNat n) false
      (r.1, (r.2.headD []).map (fun e => if f.int then e.intWord f.ifmt.toNat else e.word f.ifmt.toNat))
  let act := readMask a.1 w c (k.regs.mask f.msk.toNat) n
  let size := f.g k.regs
  let xs := a.2.mapIdx (fun e x => (x.v, act.2.getD e true))
  let fl := joinAll (a.2.mapIdx (fun e x => if act.2.getD e true then x.f else Flags.none))
  let rs := (chunks size (m / size) xs).map (reduceGroup f.rop.toNat f.int)
  let off := (spAt k.regs (act.1.window c) f.aO.toNat (4 * (n / size))).getD 0
  let s := act.1.writeSp c off ((rs.map (fun r => clean (leBytes 4 r.v.toNat))).flatten)
  s.addFlags c (fl.join (joinAll (rs.map (fun r => r.f))))

def runVxRed (f : VxRed) : Effect := fun s c k =>
  let n := k.regs.vl.toNat
  if n = 0 then some (.done s)
  else if !f.tq then some (.done (redBody s c k f n n []))
  else
    let x := s.x c
    match x.tilesReady (n / 1024) f.ti with
    | none => none
    | some t =>
      let vals := x.tileVals t
      let s := s.onX c (fun x => x.dropTiles t)
      let s := redBody s c k f n (1024 * t) vals
      some (if t = n / 1024 then .done s else .abort 4 s)

def execVxRed (c : Fin 264) (f : VxRed) (s : State) : Host.Outcome State Fault Refusal :=
  .next (issue s c 1 .vector (.vxRed c f) always (vxRedCheck c f) id (runVxRed f))

/-! ### The rn class (12 R297) -/

def execRnKey (c : Fin 264) (sS : BitVec 5) (s : State) : Host.Outcome State Fault Refusal :=
  .next (scalar s c (.rnKey c sS) 1 (fun _ _ _ g => { g with key := g.getS sS.toNat }))

def execRnStream (c : Fin 264) (mode : BitVec 1) (sS : BitVec 5) (s : State) : Host.Outcome State Fault Refusal :=
  .next (scalar s c (.rnStream c mode sS) 1 (fun _ _ _ g => { g with lane := mode = 1, step := (g.getS sS.toNat).setWidth 32 }))

/-- Words for each element. -/
def drawWords (wq : Nat) : Nat := 2 ^ wq

def rnDrawCheck (c : Nat) (aD wq sL : Nat) (s : State) (_ : Nat) (g : Regs) : Check :=
  let n := g.vl.toNat
  if wq = 3 || (n ≠ 0 && !g.lane && (g.getS sL).toNat + n - 1 ≥ 2 ^ 48) then illegal
  else if n = 0 then .ok [] 0
  else match rangeAt g (s.window c) aD (4 * n * drawWords wq) true with
    | some r => .ok [r] 0
    | none => illegal

def rnDrawAfter (g : Regs) : Regs := if g.lane && g.vl ≠ 0 then { g with seq := g.seq + 1 } else g

/-- The bytes of the words of elements 0 to n - 1. -/
def drawBytes (d : Draw) (n wc : Nat) : List PByte :=
  ((List.range n).map (fun e =>
    let q := d.at e
    ((List.range wc).map (fun k => clean (leBytes 4 (q.word k).toNat))).flatten)).flatten

def runRnDraw (aD wq draw sL : Nat) : Effect := fun s c k =>
  let n := k.regs.vl.toNat
  if n = 0 then some (.done s)
  else
    let off := (spAt k.regs (s.window c) aD (4 * n * drawWords wq)).getD 0
    some (.done (s.writeSp c off (drawBytes (k.regs.draws c draw (k.regs.getS sL).toNat) n (drawWords wq))))

def execRnDraw (c : Fin 264) (aD : BitVec 4) (wq : BitVec 2) (draw : BitVec 8) (sL : BitVec 5) (s : State) :
    Host.Outcome State Fault Refusal :=
  .next (issue s c 1 .vector (.rnDraw c aD wq draw sL) always (rnDrawCheck c aD.toNat wq.toNat sL.toNat) rnDrawAfter
    (runRnDraw aD.toNat wq.toNat draw.toNat sL.toNat))

end Sys2Proof.Machine
end

