-- ==== Sys2Proof/Machine/Attention.lean ====
section
/-! DEFINITION. The attention class (08 R166 to R185, 09 R186 to R191, 10 R224, 12 R290 to R295), without the page
operations of the prefix unit. -/

namespace Sys2Proof.Machine

/-! ### Formats (08 R167, R168) -/

def fmtP (f : Nat) : Bool := f ≤ 3
def fmtOut (f : Nat) : Bool := f ≤ 4 || f = 13

/-- The format that decides whether two operands differ: Erg-K4 and MXFP8 count as FP8 E4M3 (08 R168). -/
def effFmt (f : Nat) : Nat := if f = 12 || f = 13 then 3 else f
def widened (a b : Nat) : Nat := b2n (effFmt a ≠ effFmt b)

/-! ### Length and position tables (08 R169 to R173) -/

structure LenEnt where
  start : Nat
  len   : Nat
  seg   : Nat
  rsv   : Nat
  deriving DecidableEq, Repr

def LenEnt.ofBytes (bs : List Byte) : LenEnt :=
  { start := word32 bs 0, len := word32 bs 4, seg := leNat ((bs.drop 8).take 2), rsv := leNat ((bs.drop 10).take 2) }

/-- An access of `n` bytes at an offset of a descriptor, inside its extent and the own window. -/
def spOff (g : Regs) (win d off n : Nat) : Option Nat :=
  if inExtent g d off n then ownOff win (baseOf g d + off) n else none

/-- Where entry `i` of the table named by `d` lies: below the entry count and in the own window. The base is used as it
is, aligned to 16 or not (DESIGN CHOICE, log 171). -/
def entryOff (g : Regs) (win d i : Nat) : Option Nat :=
  if i < min ((g.getA d).2.toNat / 16) 4096 then ownOff win (baseOf g d + 16 * i) 16 else none

/-- The read tag of a length-table operand: the entries that the instruction names alone (12 R295; DESIGN CHOICE, log 192). -/
def entryRange (g : Regs) (win d i : Nat) : Option (List SpRange) := (entryOff g win d i).map (fun o => [rd o 16])

/-- Whole token rows inside a tensor operand's extent (08 R173); `g` heads in a row of a query tensor. -/
def rowExtent (r : Regs) (d fmt dim g : Nat) : Nat :=
  let e := (r.getA d).2.toNat
  (if fmtIsErg fmt then e / 64 * 120 / dim else e / (dim * fmtBits fmt / 8)) / g

/-- Every token of a block of `m` rows lies within the entry. -/
def blockIn (t : LenEnt) (qtok m g : Nat) : Bool := t.start ≤ qtok && qtok + (m - 1) / g < t.start + t.len

def tileIn (t : LenEnt) (j : Nat) : Bool := j < cdiv t.len 64

/-- Rows of key tile j. -/
def tileRows (t : LenEnt) (j : Nat) : Nat := min 64 (t.len - 64 * j)

/-- Reads an entry and hands it on (19 R463); a nonzero reserved field is ILLEGAL. A LENGTH above 16,777,216 counts as it
stands (DESIGN CHOICE, log 171). -/
def withEntry (s : State) (w : Who) (c : Nat) (g : Regs) (d i : Nat) (k : State → LenEnt → Eff) : Eff :=
  withSpCtl s w c ((entryOff g (s.window c) d i).getD 0) 16 (fun bs =>
    let t := LenEnt.ofBytes bs
    if t.rsv ≠ 0 then .abort 4 s else k s t)

/-- The widest range that a descriptor allows, as a tag; and that of its scales. -/
def wideTags (g : Regs) (win d fmt : Nat) : Option (List SpRange) :=
  match spMost g win d spBytes with
  | none => none
  | some r => if fmtIsMx fmt then (spMost g win (d + 1) spBytes).map (fun q => [r, q]) else some [r]

/-! ### Tensor rows (12 R291) -/

/-- Rows r0 to r0 + n - 1 of `dim` elements of a tensor; `tok` for scales along tokens. -/
structure TenRows where
  d   : Nat
  fmt : Nat
  r0  : Nat
  n   : Nat
  dim : Nat
  tok : Bool
  deriving DecidableEq, Repr

/-- Byte offset and length of the rows, or of the blocks that hold them. -/
def TenRows.span (t : TenRows) : Nat × Nat :=
  if fmtIsErg t.fmt then
    let b := t.r0 * t.dim / 120
    (64 * b, 64 * (cdiv ((t.r0 + t.n) * t.dim) 120 - b))
  else
    let b := t.dim * fmtBits t.fmt / 8
    (t.r0 * b, t.n * b)

/-- Offset and length of the scales. -/
def TenRows.scaleSpan (t : TenRows) : Nat × Nat :=
  if t.tok then (t.r0 / 32 * t.dim, (cdiv (t.r0 + t.n) 32 - t.r0 / 32) * t.dim)
  else (t.r0 * (t.dim / 32), t.n * (t.dim / 32))

def TenRows.ranges (t : TenRows) (g : Regs) (win : Nat) : Option (List SpRange) :=
  match spOff g win t.d t.span.1 t.span.2 with
  | none => none
  | some o =>
    if fmtIsMx t.fmt then
      if t.d > 14 then none
      else (spOff g win (t.d + 1) t.scaleSpan.1 t.scaleSpan.2).map (fun q => [rd o t.span.2, rd q t.scaleSpan.2])
    else some [rd o t.span.2]

/-- The scale of element e of row i. -/
def TenRows.scale (t : TenRows) (bs : List PByte) (i e : Nat) : PByte :=
  if !fmtIsMx t.fmt then (127, false)
  else if t.tok then bs.getD (((t.r0 + i) / 32 - t.r0 / 32) * t.dim + e) (0, false)
  else bs.getD (i * (t.dim / 32) + e / 32) (0, false)

/-- Elements of rows from the bytes that hold them. -/
def TenRows.toEls (t : TenRows) (bs scales : List PByte) : List (List El) :=
  (List.range t.n).map (fun i =>
    elems (fmtBits t.fmt) t.dim (bs.drop (i * (t.dim * fmtBits t.fmt / 8))) (t.scale scales i))

def readTen (s : State) (w : Who) (c : Nat) (k : Issued) (t : TenRows) (da : Bool) : State × List (List El) :=
  let win := s.window c
  let off := (spOff k.regs win t.d t.span.1 t.span.2).getD 0
  if fmtIsErg t.fmt then
    let q := readErg s w c k t.fmt off (t.span.2 / 64) da true
    (q.1, splitRows t.dim t.n (q.2.drop (t.r0 * t.dim - t.r0 * t.dim / 120 * 120)))
  else
    let b := s.readSp w c off t.span.2
    let q := if fmtIsMx t.fmt then
        b.1.readSp w c ((spOff k.regs win (t.d + 1) t.scaleSpan.1 t.scaleSpan.2).getD 0) t.scaleSpan.2
      else (b.1, [])
    (q.1, t.toEls b.2 q.2)

/-! ### Row states (08 R175) -/

structure RowSt where
  m      : W32
  l      : W32
  alpha  : W32
  fresh  : Bool
  first  : Bool
  raised : Bool
  act    : Bool
  deriving DecidableEq, Repr

def RowSt.init : RowSt := { m := fNegInf, l := 0, alpha := 0, fresh := true, first := false, raised := false, act := false }

def RowSt.ofBytes (bs : List Byte) : RowSt :=
  let f := word32 bs 12
  { m := BitVec.ofNat 32 (word32 bs 0), l := BitVec.ofNat 32 (word32 bs 4), alpha := BitVec.ofNat 32 (word32 bs 8)
    fresh := bit f 0, first := bit f 1, raised := bit f 2, act := bit f 3 }

def RowSt.bytes (r : RowSt) : List Byte :=
  leBytes 4 r.m.toNat ++ leBytes 4 r.l.toNat ++ leBytes 4 r.alpha.toNat
    ++ leBytes 4 (b2n r.fresh + 2 * b2n r.first + 4 * b2n r.raised + 8 * b2n r.act)

def rowStates (bs : List PByte) : List RowSt := (chunks 16 (bs.length / 16) bs).map (fun b => RowSt.ofBytes (plain b))

def stateBytes (l : List RowSt) : List PByte := (l.map (fun r => clean r.bytes)).flatten

/-- A merged state describes a partial, not a latest tile (08 R183). -/
def RowSt.clean (r : RowSt) : RowSt := { r with first := false, raised := false, act := false, alpha := 0 }

/-! ### Running softmax (08 R172, R174, R177) -/

/-- The rule that MASK selects. -/
def maskRule (mask : Nat) (pk pq win : Nat) : Bool :=
  match mask with
  | 0 => true
  | 1 => pk ≤ pq
  | 2 => pk ≤ pq && pq - pk < win
  | _ => false

/-- A row after a tile: its state, its P row in PFMT codes, and the flags. -/
structure SmOut where
  st    : RowSt
  p     : List Nat
  flags : Flags
  deriving DecidableEq, Repr

/-- M, L, ALPHA and the marks before the weights are added (08 R177). -/
def smRaise (r : RowSt) (m : W32) : Fl RowSt :=
  if r.fresh then .pure { r with act := true, first := true, raised := false, alpha := 0, fresh := false, m := m }
  else if flt r.m m then
    (fsub r.m m).bind fun d => (opExp2 d).bind fun a => (fmul r.l a).bind fun l =>
      .pure { r with act := true, first := false, raised := true, alpha := a, l := l, m := m }
  else .pure { r with act := true, first := false, raised := false, m := m }

/-- The largest active score. -/
def smMax : List (W32 × Bool) → Option W32
  | [] => none
  | (x, act) :: r =>
    match act, smMax r with
    | false, q => q
    | true, none => some x
    | true, some y => some (fmax x y)

/-- One row of UPDATE: `t` holds the raw scores of the 64 keys with their activity. Only active keys' scores are scaled and
set flags (DESIGN CHOICE, log 172). -/
def smRow (qs : W32) (pfmt : Nat) (r : RowSt) (t : List (W32 × Bool)) : SmOut :=
  let s := t.map (fun x => if x.2 then fmul x.1 qs else .pure 0)
  let xs := (s.zip t).map (fun x => (x.1.v, x.2.2))
  match smMax xs with
  | none => { st := { r with act := false, first := false, raised := false }, p := t.map (fun _ => 0), flags := Flags.none }
  | some mt =>
    let q := smRaise r (fmax r.m mt)
    let ps := xs.map (fun x =>
      if x.2 then (fsub x.1 q.v.m).bind fun d => (opExp2 d).bind fun e => convert pfmt .rne false (ofF32 e) else .pure 0)
    let u := reduceGroup 0 false ((ps.zip xs).map (fun x => ((widen pfmt x.1.v 127).v, x.2.2)))
    let l := fadd q.v.l u.v
    { st := { q.v with l := l.v }, p := ps.map (fun x => x.v)
      flags := ((joinAll (s.map (fun x => x.f))).join q.f).join ((joinAll (ps.map (fun x => x.f))).join (u.f.join l.f)) }

/-! ### Finishing and merging (08 R182, R183) -/

/-- One output row and its log-sum-exp. -/
def finRow (r : RowSt) (o : List W32) : List (Fl W32) × Fl W32 :=
  if r.fresh then (o.map (fun _ => .pure 0), .pure fNegInf)
  else (o.map (fun x => opDiv x r.l), (opLog2 r.l).bind (fun x => fadd r.m x))

/-- A partial of one row. -/
structure Partial where
  st : RowSt
  o  : List W32
  deriving DecidableEq, Repr

/-- Rescales a partial to the maximum `m` when that is greater than its own. -/
def Partial.scaleTo (a : Partial) (m : W32) : Fl Partial :=
  if flt a.st.m m then
    (fsub a.st.m m).bind fun d => (opExp2 d).bind fun x => (fmul a.st.l x).bind fun l =>
      let os := a.o.map (fun v => fmul v x)
      { v := { st := { a.st with l := l }, o := os.map (fun v => v.v) }, f := joinAll (os.map (fun v => v.f)) }
  else .pure a

/-- MERGE of B into A. -/
def mergePartial (a b : Partial) : Fl Partial :=
  if b.st.fresh then .pure { a with st := a.st.clean }
  else if a.st.fresh then .pure { b with st := b.st.clean }
  else
    let m := fmax a.st.m b.st.m
    (a.scaleTo m).bind fun a => (b.scaleTo m).bind fun b => (fadd a.st.l b.st.l).bind fun l =>
      let os := (a.o.zip b.o).map (fun p => fadd p.1 p.2)
      { v := { st := { a.st.clean with l := l, m := m }, o := os.map (fun v => v.v) }, f := joinAll (os.map (fun v => v.f)) }

/-- Output rows in the output format: bytes, scales, flags. -/
def outRows (fmt rnd : Nat) (sat : Bool) (rows : List (List W32)) : StreamOut :=
  let rd : Round := if rnd = 1 then .rtz else .rne
  if fmtIsMx fmt then
    let bs := (rows.map (fun r => (chunks 32 (r.length / 32) r).map (fun b =>
      mxBlock fmt (b.map (fun x => (ofF32 x, rd)))))).flatten
    { bytes := (bs.map (fun b => clean (b.2.v.map (fun v => BitVec.ofNat 8 v)))).flatten
      scales := bs.map (fun b => (BitVec.ofNat 8 b.1, false)), flags := joinAll (bs.map (fun b => b.2.f)) }
  else
    let cs := rows.flatten.map (fun x => convert fmt rd sat (ofF32 x))
    { bytes := packElems (fmtBits fmt) [] (cs.map (fun c => (c.v, false))), scales := []
      flags := joinAll (cs.map (fun c => c.f)) }

def wordsOf (bs : List PByte) : List W32 :=
  (List.range (bs.length / 4)).map (fun i => BitVec.ofNat 32 (leNat (plain ((bs.drop (4 * i)).take 4))))

def bytesOf (ws : List W32) : List PByte := (ws.map (fun v => clean (leBytes 4 v.toNat))).flatten

/-- The range of output rows of `m` by `dim` elements, with the scales of an MX output. -/
def outRanges (g : Regs) (win d fmt m dim : Nat) : Option (List SpRange) :=
  match rangeAt g win d (m * dim * fmtBits fmt / 8) true, scaleRange g win d (if fmtIsMx fmt then m * (dim / 32) else 0) true with
  | some r, some t => some (r :: t)
  | _, _ => none

/-- Writes output rows. -/
def writeRows (s : State) (c : Nat) (g : Regs) (d fmt m dim : Nat) (o : StreamOut) : State :=
  let win := s.window c
  let s := s.writeSp c ((spAt g win d (m * dim * fmtBits fmt / 8)).getD 0) o.bytes
  let s := if o.scales.isEmpty then s else s.writeSp c ((scaleAt g win d (m * (dim / 32))).getD 0) o.scales
  s.addFlags c o.flags

/-- A range written or read at a descriptor's base, as a list. -/
def oneRange (g : Regs) (win d n : Nat) (write : Bool) : Option (List SpRange) := (rangeAt g win d n write).map (fun r => [r])

end Sys2Proof.Machine

namespace Sys2Proof

open Machine

/-! ### Fields -/

def AtQk.m (f : AtQk) : Nat := f.mq.toNat + 1
def AtQk.dim (f : AtQk) : Nat := 16 * (f.dc.toNat + 1)
def AtQk.grp (f : AtQk) : Nat := 2 ^ f.gl.toNat
def AtQk.tier (f : AtQk) : Tier := tierOf f.kfmt.toNat f.qfmt.toNat
def AtQk.base (f : AtQk) (g : Regs) : Nat := (g.getS f.sB.toNat).toNat
def AtQk.query (f : AtQk) (g : Regs) : TenRows :=
  { d := f.aQ.toNat, fmt := f.qfmt.toNat, r0 := (g.getS f.sT.toNat).toNat * f.grp, n := f.m, dim := f.dim, tok := false }

def AtSm.m (f : AtSm) : Nat := f.mq.toNat + 1
def AtSm.dim (f : AtSm) : Nat := 16 * (f.dc.toNat + 1)
def AtSm.grp (f : AtSm) : Nat := 2 ^ f.gl.toNat
def AtSm.win (f : AtSm) (g : Regs) : Nat := (g.getS f.sW.toNat).toNat

def AtPv.m (f : AtPv) : Nat := f.mq.toNat + 1
def AtPv.dim (f : AtPv) : Nat := 16 * (f.dc.toNat + 1)
def AtPv.tier (f : AtPv) : Tier := tierOf f.vfmt.toNat f.pfmt.toNat
def AtPv.base (f : AtPv) (g : Regs) : Nat := (g.getS f.sO.toNat).toNat
/-- Rows rounded up to whole tiles (08 R175). -/
def AtPv.mp (f : AtPv) : Nat := cdiv f.m 16 * 16
def AtPv.slices (f : AtPv) : Nat := cdiv f.dim 64

/-- Fields that each mode of `at.sm` leaves at 0 (12 R292); `u` marks UPDATE, `o` FINAL, `p` MERGE. -/
def AtSm.updateOnly (f : AtSm) : Bool :=
  f.aL = 0 && f.aT = 0 && f.sE = 0 && f.sF = 0 && f.sJ = 0 && f.sT = 0 && f.sQ = 0 && f.gl = 0 && f.pfmt = 0 && f.mask = 0
    && f.sW = 0

def AtSm.outputOnly (f : AtSm) : Bool := f.ofmt = 0 && f.rnd = 0 && !f.sat && !f.lse

def AtSm.initOk (f : AtSm) : Bool :=
  f.updateOnly && f.outputOnly && f.aP = 0 && f.dc = 0 && !f.om && f.aX = 0 && f.aO = 0

def AtSm.updateOk (f : AtSm) : Bool :=
  f.outputOnly && f.dc = 0 && !f.om && f.aX = 0 && f.aO = 0 && f.gl.toNat ≤ 4 && fmtP f.pfmt.toNat && f.mask ≠ 3
    && (f.mask = 2 || f.sW = 0)

def AtSm.finalOk (f : AtSm) : Bool :=
  f.updateOnly && f.aP = 0
    && (if f.om then f.outputOnly && f.aX = 0
        else f.rnd.toNat ≤ 1 && fmtOut f.ofmt.toNat && (f.lse || f.aX = 0) && mxExtent f.ofmt.toNat f.dim)

def AtSm.mergeOk (f : AtSm) : Bool := f.updateOnly && f.outputOnly && !f.om

end Sys2Proof

namespace Sys2Proof.Machine

/-! ### `at.qk` (08 R174) -/

def atQkCheck (c : Nat) (f : AtQk) (s : State) (n : Nat) (g : Regs) : Check :=
  let win := s.window c
  let mp := cdiv f.m 16 * 16
  if (s.x c).mxView.form ≠ 0 || !kvFormat f.qfmt.toNat || !kvFormat f.kfmt.toNat || f.gl.toNat > 4
      || !mxExtent f.qfmt.toNat f.dim || !mxExtent f.kfmt.toNat f.dim || (f.kfmt = 13 && f.aK = 15)
      || (f.da && f.qfmt ≠ 12 && f.kfmt ≠ 12) || f.base g + mp * 64 > 65536 then illegal
  else
    rangeCheck s n [f.qfmt.toNat, f.kfmt.toNat] 0
      [(f.query g).ranges g win, wideTags g win f.aK.toNat f.kfmt.toNat,
       entryRange g win f.aL.toNat (g.getS f.sE.toNat).toNat, entryRange g win f.aL.toNat (g.getS f.sF.toNat).toNat]

/-- The latch of slice s of a key tile: element d of key c is weight (d, c). -/
def keyLatch (f : AtQk) (keys : List (List El)) (s : Nat) : Latch :=
  let k := 4 * f.tier.n
  latchOf f.kfmt.toNat f.tier false (min k (f.dim - k * s)) 64 (fun d c => elAt keys c (k * s + d))

/-- The passes of one row against one key, in ascending slices: the first writes and later ones add. -/
def qkScore (f : AtQk) (ls : List Latch) (row : List El) (c : Nat) : Fl W32 :=
  let k := 4 * f.tier.n
  let rs := ls.mapIdx (fun i l => tileResult 0 f.qfmt.toNat l ((row.drop (k * i)).take k) c)
  match rs with
  | [] => .pure 0
  | r :: t => t.foldl (fun a b => a.bind (fun x => b.bind (fun y => fadd x y))) r

/-- The scores of the block enter the accumulator and are drained (08 R174). -/
def qkScores (s : State) (c : Nat) (k : Issued) (f : AtQk) (q keys : List (List El)) : State :=
  let n := cdiv f.dim (4 * f.tier.n)
  let ls := (List.range n).map (keyLatch f keys)
  let rs := (List.range (f.m * 64)).map (fun i => qkScore f ls (q.getD (i / 64) []) (i % 64))
  let s := s.onX c (fun x =>
    let x := x.putAcc (2 * k.id) (f.base k.regs) (rs.map (fun r => r.v))
    let x := match ls.getLast? with
      | some l => x.lastSlice n l
      | none => x
    x.addDrain (drainTiles k.id (f.base k.regs) 64 (cdiv f.m 16) 1))
  s.addFlags c (joinAll (rs.map (fun r => r.f)))

/-- The key blocks enter the expanders first, each once, then the query blocks (DESIGN CHOICE, log 170). -/
def runAtQk (f : AtQk) : Effect := fun s c k =>
  let g := k.regs
  let w := s.who c g
  let j := (g.getS f.sJ.toNat).toNat
  if (usesExpanders k.instr && !(s.x c).expanderOpen k.id)
      || (s.x c).undrained k.id (f.base g) (cdiv f.m 16 * 16 * 64) then none
  else some (withEntry s w c g f.aL.toNat (g.getS f.sE.toNat).toNat (fun s te =>
    withEntry s w c g f.aL.toNat (g.getS f.sF.toNat).toNat (fun s tf =>
      let keys : TenRows := { d := f.aK.toNat, fmt := f.kfmt.toNat, r0 := tf.start + 64 * j, n := tileRows tf j
                              dim := f.dim, tok := false }
      if te.start + te.len > rowExtent g f.aQ.toNat f.qfmt.toNat f.dim f.grp
          || tf.start + tf.len > rowExtent g f.aK.toNat f.kfmt.toNat f.dim 1
          || !blockIn te (g.getS f.sT.toNat).toNat f.m f.grp || !tileIn tf j
          || (keys.ranges g (s.window c)).isNone then .abort 4 s
      else
        let kr := readTen s w c k keys f.da
        let qr := readTen kr.1 w c k (f.query g) f.da
        let s := qkScores qr.1 c k f qr.2 kr.2
        let s := s.countWork w 14 (widened f.qfmt.toNat f.kfmt.toNat)
        .done ((s.countWork w 3 (f.m * cdiv f.dim (4 * f.tier.n))).actBy w (actPass f.tier.rank) (f.m * cdiv f.dim (4 * f.tier.n))))))

def execAtQk (c : Fin 264) (f : AtQk) (s : State) : Host.Outcome State Fault Refusal :=
  .next (issue s c 2 .matrix (.atQk c f) always (atQkCheck c f) id (runAtQk f))

/-! ### `at.sm` -/

def smInitCheck (c : Nat) (f : AtSm) (s : State) (n : Nat) (g : Regs) : Check :=
  if f.initOk then rangeCheck s n [] 0 [oneRange g (s.window c) f.aS.toNat (16 * f.m) true] else illegal

def runSmInit (f : AtSm) : Effect := fun s c k =>
  some (.done (s.writeSp c ((spAt k.regs (s.window c) f.aS.toNat (16 * f.m)).getD 0)
    (stateBytes (List.replicate f.m RowSt.init))))

def execAtSmInit (c : Fin 264) (f : AtSm) (s : State) : Host.Outcome State Fault Refusal :=
  .next (issue s c 2 .vector (.atSmInit c f) always (smInitCheck c f) id (runSmInit f))

/-- The positions of the block's query tokens: their place in the table of aT (08 R173). -/
def qposOff (f : AtSm) (g : Regs) (win : Nat) : Option Nat :=
  spOff g win f.aT.toNat (4 * (g.getS f.sT.toNat).toNat) (4 * ((f.m - 1) / f.grp + 1))

def smUpdateCheck (c : Nat) (f : AtSm) (s : State) (n : Nat) (g : Regs) : Check :=
  let win := s.window c
  if !f.updateOk || (f.mask = 2 && f.win g = 0) || (qposOff f g win).isNone then illegal
  else
    rangeCheck s n [f.pfmt.toNat] 0
      [entryRange g win f.aL.toNat (g.getS f.sE.toNat).toNat, entryRange g win f.aL.toNat (g.getS f.sF.toNat).toNat,
       wideTags g win f.aT.toNat 0,
       oneRange g win f.aS.toNat (16 * f.m) true,
       oneRange g win f.aP.toNat (f.m * 64 * fmtBits f.pfmt.toNat / 8) true]

/-- The positions of tokens t0 to t0 + n - 1, a control read (19 R463). -/
def withPositions (s : State) (w : Who) (c : Nat) (g : Regs) (d t0 n : Nat) (k : State → List Nat → Eff) : Eff :=
  match spOff g (s.window c) d (4 * t0) (4 * n) with
    | none => .abort 4 s
    | some o => withSpCtl s w c o (4 * n) (fun bs => k s ((List.range n).map (fun i => word32 bs (4 * i))))

/-- The rows of the block with their scores and the keys' activity (08 R172, R177). -/
def smRows (f : AtSm) (g : Regs) (te tf : LenEnt) (nk : Nat) (qp kp : List Nat) (sts : List RowSt) (vals : List W32)
    (m : Nat) : List SmOut :=
  (List.range m).map (fun r =>
    let act (c : Nat) : Bool := c < nk && te.seg = tf.seg
      && maskRule f.mask.toNat (kp.getD c 0) (qp.getD (r / f.grp) 0) (f.win g)
    smRow ((g.getS f.sQ.toNat).setWidth 32) f.pfmt.toNat (sts.getD r RowSt.init)
      ((List.range 64).map (fun c => (vals.getD (64 * r + c) 0, act c))))

/-- Writes the first `m` rows' states and P rows. -/
def smWrite (s : State) (c : Nat) (f : AtSm) (g : Regs) (rs : List SmOut) : State :=
  let win := s.window c
  let b := fmtBits f.pfmt.toNat
  let s := s.writeSp c ((spAt g win f.aS.toNat (16 * f.m)).getD 0) (stateBytes (rs.map (fun r => r.st)))
  let s := s.writeSp c ((spAt g win f.aP.toNat (f.m * 64 * b / 8)).getD 0)
    (packElems b [] ((rs.map (fun r => r.p.map (fun v => (v, false)))).flatten))
  s.addFlags c (joinAll (rs.map (fun r => r.flags)))

/-- The entries and positions of an UPDATE, read and checked when it starts (08 R173). -/
def withSmBlock (s : State) (w : Who) (c : Nat) (g : Regs) (f : AtSm)
    (k : State → LenEnt → LenEnt → List Nat → List Nat → Eff) : Eff :=
  let j := (g.getS f.sJ.toNat).toNat
  let qtok := (g.getS f.sT.toNat).toNat
  withEntry s w c g f.aL.toNat (g.getS f.sE.toNat).toNat (fun s te =>
    withEntry s w c g f.aL.toNat (g.getS f.sF.toNat).toNat (fun s tf =>
      if !blockIn te qtok f.m f.grp || !tileIn tf j then .abort 4 s
      else
        withPositions s w c g f.aT.toNat qtok ((f.m - 1) / f.grp + 1) (fun s qp =>
          withPositions s w c g f.aT.toNat (tf.start + 64 * j) (tileRows tf j) (fun s kp => k s te tf qp kp))))

/-- What an instruction that waits for its tiles does: nothing, or the fault of a check made at its start. -/
def startFault (e : Eff) : Option Eff :=
  match e with
  | .abort code s => some (.abort code s)
  | .done _ => none

def runSmUpdate (f : AtSm) : Effect := fun s c k =>
  let g := k.regs
  let w := s.who c g
  let n := cdiv f.m 16
  let j := (g.getS f.sJ.toNat).toNat
  match (s.x c).tilesReady n false with
  | none => startFault (withSmBlock s w c g f (fun s _ _ _ _ => .done s))
  | some t =>
    some (withSmBlock s w c g f (fun s te tf qp kp =>
      let b := s.readSp w c ((spAt g (s.window c) f.aS.toNat (16 * f.m)).getD 0) (16 * f.m)
      let vals := (b.1.x c).tileVals t
      let s := b.1.onX c (fun x => x.dropTiles t)
      let rs := smRows f g te tf (tileRows tf j) qp kp (rowStates b.2) vals (min f.m (16 * t))
      let s := smWrite s c f g rs
      if t = n then .done s else .abort 4 s))

def execAtSmUpdate (c : Fin 264) (f : AtSm) (s : State) : Host.Outcome State Fault Refusal :=
  .next (issue s c 2 .vector (.atSmUpdate c f) always (smUpdateCheck c f) id (runSmUpdate f))

def smFinalCheck (c : Nat) (f : AtSm) (s : State) (n : Nat) (g : Regs) : Check :=
  let win := s.window c
  if !f.finalOk then illegal
  else if f.om then
    rangeCheck s n [] 0 [oneRange g win f.aS.toNat (16 * f.m) false, oneRange g win f.aO.toNat (4 * f.m * f.dim) true]
  else
    rangeCheck s n [f.ofmt.toNat] 0
      [oneRange g win f.aS.toNat (16 * f.m) false, outRanges g win f.aO.toNat f.ofmt.toNat f.m f.dim,
       if f.lse then oneRange g win f.aX.toNat (4 * f.m) true else some []]

/-- O of row r from the drained slices: slice 0 first, each of Mp rows (08 R182). -/
def oRow (vals : List W32) (m dim r : Nat) : List W32 :=
  let nb := cdiv m 16
  (List.range dim).map (fun d => vals.getD ((d / 64 * nb + r / 16) * 1024 + r % 16 * 64 + d % 64) 0)

/-- Writes finished rows and their log-sum-exp. -/
def finWrite (s : State) (c : Nat) (g : Regs) (aO aX fmt rnd : Nat) (sat lse : Bool) (m dim : Nat)
    (rs : List (List (Fl W32) × Fl W32)) : State :=
  let s := writeRows s c g aO fmt m dim (outRows fmt rnd sat (rs.map (fun r => r.1.map (fun x => x.v))))
  let s := s.addFlags c (joinAll ((rs.map (fun r => r.1.map (fun x => x.f))).flatten ++ (if lse then rs.map (fun r => r.2.f) else [])))
  if lse then s.writeSp c ((spAt g (s.window c) aX (4 * m)).getD 0) (bytesOf (rs.map (fun r => r.2.v))) else s

def runSmFinal (f : AtSm) : Effect := fun s c k =>
  let g := k.regs
  let w := s.who c g
  let n := cdiv f.m 16 * cdiv f.dim 64
  match (s.x c).tilesReady n false with
  | none => none
  | some t =>
    let b := s.readSp w c ((spAt g (s.window c) f.aS.toNat (16 * f.m)).getD 0) (16 * f.m)
    let vals := (b.1.x c).tileVals t
    let s := b.1.onX c (fun x => x.dropTiles t)
    if t < n then some (.abort 4 s)
    else
      let os := (List.range f.m).map (oRow vals f.m f.dim)
      if f.om then
        some (.done (s.writeSp c ((spAt g (s.window c) f.aO.toNat (4 * f.m * f.dim)).getD 0) (bytesOf os.flatten)))
      else
        some (.done (finWrite s c g f.aO.toNat f.aX.toNat f.ofmt.toNat f.rnd.toNat f.sat f.lse f.m f.dim
          (((rowStates b.2).zip os).map (fun p => finRow p.1 p.2))))

def execAtSmFinal (c : Fin 264) (f : AtSm) (s : State) : Host.Outcome State Fault Refusal :=
  .next (issue s c 2 .vector (.atSmFinal c f) always (smFinalCheck c f) id (runSmFinal f))

def smMergeCheck (c : Nat) (f : AtSm) (s : State) (n : Nat) (g : Regs) : Check :=
  let win := s.window c
  if !f.mergeOk then illegal
  else
    rangeCheck s n [] 0
      [oneRange g win f.aS.toNat (16 * f.m) true, oneRange g win f.aO.toNat (4 * f.m * f.dim) true,
       oneRange g win f.aP.toNat (16 * f.m) false, oneRange g win f.aX.toNat (4 * f.m * f.dim) false]

/-- The partials of `m` rows from their row states and partial O rows. -/
def partials (m dim : Nat) (sts os : List PByte) : List Partial :=
  ((rowStates sts).zip (chunks dim m (wordsOf os))).map (fun p => { st := p.1, o := p.2 })

def runSmMerge (f : AtSm) : Effect := fun s c k =>
  let g := k.regs
  let w := s.who c g
  let win := s.window c
  let sp (d n : Nat) : Nat := (spAt g win d n).getD 0
  let a := s.readSp w c (sp f.aS.toNat (16 * f.m)) (16 * f.m)
  let oa := a.1.readSp w c (sp f.aO.toNat (4 * f.m * f.dim)) (4 * f.m * f.dim)
  let b := oa.1.readSp w c (sp f.aP.toNat (16 * f.m)) (16 * f.m)
  let ob := b.1.readSp w c (sp f.aX.toNat (4 * f.m * f.dim)) (4 * f.m * f.dim)
  let rs := ((partials f.m f.dim a.2 oa.2).zip (partials f.m f.dim b.2 ob.2)).map (fun p => mergePartial p.1 p.2)
  let s := ob.1.writeSp c (sp f.aS.toNat (16 * f.m)) (stateBytes (rs.map (fun r => r.v.st)))
  let s := s.writeSp c (sp f.aO.toNat (4 * f.m * f.dim)) (bytesOf (rs.map (fun r => r.v.o)).flatten)
  some (.done (s.addFlags c (joinAll (rs.map (fun r => r.f)))))

def execAtSmMerge (c : Fin 264) (f : AtSm) (s : State) : Host.Outcome State Fault Refusal :=
  .next (issue s c 2 .vector (.atSmMerge c f) always (smMergeCheck c f) id (runSmMerge f))

/-! ### `at.pv` (08 R180) -/

def atPvCheck (c : Nat) (f : AtPv) (s : State) (n : Nat) (g : Regs) : Check :=
  let win := s.window c
  if (s.x c).mxView.form ≠ 0 || !fmtP f.pfmt.toNat || !kvFormat f.vfmt.toNat || !mxExtent f.vfmt.toNat f.dim
      || (f.vfmt = 13 && f.aV = 15) || (f.da && f.vfmt ≠ 12) || f.base g + f.slices * f.mp * 64 > 65536 then illegal
  else
    rangeCheck s n [f.pfmt.toNat, f.vfmt.toNat] 0
      [oneRange g win f.aP.toNat (f.m * 64 * fmtBits f.pfmt.toNat / 8) false, wideTags g win f.aV.toNat f.vfmt.toNat,
       oneRange g win f.aS.toNat (16 * f.m) false, entryRange g win f.aL.toNat (g.getS f.sF.toNat).toNat]

/-- The latch of a 64-column slice of a value tile: key c is weight row c. -/
def valueLatch (f : AtPv) (vals : List (List El)) (nk s : Nat) : Latch :=
  latchOf f.vfmt.toNat f.tier false nk (min 64 (f.dim - 64 * s)) (fun c j => elAt vals c (64 * s + j))

/-- O of one entry after a tile (08 R180); none where it is not written. -/
def oUpdate (r : RowSt) (old : W32) (b : Fl W32) : Option (Fl W32) :=
  if !r.act then none
  else if r.first then some (b.bind (fun v => fadd 0 v))
  else if r.raised then some ((fmul old r.alpha).bind (fun o => b.bind (fun v => fadd o v)))
  else some (b.bind (fun v => fadd old v))

/-- The O entries that one row of one slice changes: 64 columns, those beyond D with weights +0 (08 R180). A column of a row
with ACTIVE = 0 is not written, and its value sets no flag (DESIGN CHOICE, log 188). -/
def pvRow (x : Exec) (f : AtPv) (base s r : Nat) (st : RowSt) (l : Latch) (p : List El) : List (Nat × Fl W32) :=
  (List.range 64).filterMap (fun j =>
    let i := base + s * f.mp * 64 + 64 * r + j
    (oUpdate st (Tab.val 0 x.acc i) (tileResult 0 f.pfmt.toNat l p j)).map (fun v => (i, v)))

def Exec.putEntries (x : Exec) (mark : Nat) : List (Nat × Fl W32) → Exec
  | [] => x
  | (i, v) :: r => Exec.putEntries { x with acc := Tab.put x.acc i v.v, accBy := Tab.put x.accBy i mark } mark r

def pvAll (s : State) (c : Nat) (k : Issued) (f : AtPv) (sts : List RowSt) (p vals : List (List El)) (nk : Nat) : State :=
  let x := s.x c
  let ls := (List.range f.slices).map (valueLatch f vals nk)
  let es := (ls.mapIdx (fun i l => ((List.range f.m).map (fun r =>
    pvRow x f (f.base k.regs) i r (sts.getD r RowSt.init) l (p.getD r []))).flatten)).flatten
  let s := s.onX c (fun x =>
    let x := x.putEntries (2 * k.id) es
    match ls.getLast? with
    | some l => x.lastSlice f.slices l
    | none => x)
  s.addFlags c (joinAll (es.map (fun e => e.2.f)))

def runAtPv (f : AtPv) : Effect := fun s c k =>
  let g := k.regs
  let w := s.who c g
  let j := (g.getS f.sJ.toNat).toNat
  if (usesExpanders k.instr && !(s.x c).expanderOpen k.id)
      || (s.x c).undrained k.id (f.base g) (f.slices * f.mp * 64) then none
  else some (withEntry s w c g f.aL.toNat (g.getS f.sF.toNat).toNat (fun s tf =>
    let nk := tileRows tf j
    let t : TenRows := { d := f.aV.toNat, fmt := f.vfmt.toNat, r0 := tf.start + 64 * j, n := nk, dim := f.dim, tok := true }
    if tf.start + tf.len > rowExtent g f.aV.toNat f.vfmt.toNat f.dim 1 || !tileIn tf j || !mxExtent f.vfmt.toNat tf.start
        || (t.ranges g (s.window c)).isNone then .abort 4 s
    else
      let v := readTen s w c k t f.da
      let p := readOp v.1 w c k { d := f.aP.toNat, fmt := f.pfmt.toNat, rows := f.m, cols := 64
                                  stride := 64 * fmtBits f.pfmt.toNat / 8 } f.da
      let b := p.1.readSp w c ((spAt g (s.window c) f.aS.toNat (16 * f.m)).getD 0) (16 * f.m)
      let s := pvAll b.1 c k f (rowStates b.2) p.2 v.2 nk
      let s := s.countWork w 14 (widened f.pfmt.toNat f.vfmt.toNat)
      .done ((s.countWork w 3 (f.m * f.slices)).actBy w (actPass f.tier.rank) (f.m * f.slices))))

def execAtPv (c : Fin 264) (f : AtPv) (s : State) : Host.Outcome State Fault Refusal :=
  .next (issue s c 2 .matrix (.atPv c f) always (atPvCheck c f) id (runAtPv f))

/-! ### `at.dec` (08 R184, 09 R188, R191, 10 R224, 12 R293) -/

end Sys2Proof.Machine

namespace Sys2Proof

open Machine

def AtDec.q (f : AtDec) : Nat := f.qq.toNat + 1
def AtDec.dim (f : AtDec) : Nat := 16 * (f.dc.toNat + 1)
def AtDec.heads (f : AtDec) : Nat := f.hq.toNat + 1
def AtDec.np (f : AtDec) (g : Regs) : Nat := (g.getS f.sN.toNat).toNat
def AtDec.head (f : AtDec) (g : Regs) : Nat := (g.getS f.sH.toNat).toNat
def AtDec.seqLen (f : AtDec) (g : Regs) : Nat := (g.getS f.sLEN.toNat).toNat
def AtDec.win (f : AtDec) (g : Regs) : Nat := (g.getS f.sW.toNat).toNat
def AtDec.query (f : AtDec) : TenRows :=
  { d := f.aQ.toNat, fmt := f.qfmt.toNat, r0 := 0, n := f.q, dim := f.dim, tok := false }

/-- The fields and reserved values of 12 R290, R293 and R295. A page list may lie at any base (DESIGN CHOICE, log 171). -/
def AtDec.bad (f : AtDec) (g : Regs) : Bool :=
  !kvFormat f.qfmt.toNat || !mxExtent f.qfmt.toNat f.dim || !fmtP f.pfmt.toNat || f.mask = 3
    || (if f.mask = 2 then f.win g = 0 else f.sW ≠ 0)
    || f.np g < 1 || f.np g > 262144 || !inExtent g f.aG.toNat 0 (8 * f.np g)
    || (if f.om then f.lse || f.ofmt ≠ 0 || f.rnd ≠ 0 || f.sat || f.aX ≠ 0
        else f.rnd.toNat > 1 || !fmtOut f.ofmt.toNat || !mxExtent f.ofmt.toNat f.dim || f.aS ≠ 0 || (!f.lse && f.aX ≠ 0))

def AtDec.fmts (f : AtDec) : List Nat :=
  if f.om then [f.qfmt.toNat, f.pfmt.toNat] else [f.qfmt.toNat, f.pfmt.toNat, f.ofmt.toNat]

end Sys2Proof

namespace Sys2Proof.Machine

def atDecRanges (f : AtDec) (g : Regs) (win : Nat) : List (Option (List SpRange)) :=
  [f.query.ranges g win, oneRange g win f.aT.toNat (4 * f.q) false,
   some (sideTag win (baseOf g f.aG.toNat) (8 * f.np g) false)]
    ++ (if f.om then
          [oneRange g win f.aO.toNat (4 * f.q * f.dim) true, oneRange g win f.aS.toNat (16 * f.q) true]
        else
          [outRanges g win f.aO.toNat f.ofmt.toNat f.q f.dim,
           if f.lse then oneRange g win f.aX.toNat (4 * f.q) true else some []])

def atDecCheck (c : Nat) (f : AtDec) (s : State) (n : Nat) (g : Regs) : Check :=
  if f.bad g then illegal
  else match allRanges (atDecRanges f g (s.window c)) with
    | none => illegal
    | some l =>
      if (mergeRanges l).length > 6 then illegal
      else if s.inSet n f.fmts then .ok l (0xFFFF ||| s.memMask (s.window c) (s.ctx n).part (baseOf g f.aG.toNat) (8 * f.np g))
      else mismatch

/-- Section bytes of 64 tokens, rounded up to 256 (09 R188). -/
def sectionBytes (fmt dim : Nat) : Nat :=
  let n := if fmtIsErg fmt then cdiv (64 * dim) 120 * 64
    else if fmtIsMx fmt then 64 * dim + 2 * dim
    else 64 * dim * (fmtBits fmt / 8)
  cdiv n 256 * 256

/-- The elements of tokens 0 to n - 1 of a section as its well reads it (09 R188); damaged blocks as 07 R153 says. -/
def readSection (s : State) (w : Who) (ctx st wl fmt dim n va : Nat) (tok da : Bool) : WellOut × Bool :=
  let t : TenRows := { d := 0, fmt := fmt, r0 := 0, n := n, dim := dim, tok := tok }
  let w := { w with well := true }
  let b := s.readData w va t.span.2
  if fmtIsErg fmt then
    let o := wellSegments b.s w ctx st wl fmt va da (chunks 64 (t.span.2 / 64) b.bs)
    ({ o with els := splitRows dim n o.els.flatten }, b.stop)
  else if fmtIsMx fmt then
    let q := b.s.readData w (va + 64 * dim) (if n = 0 then 0 else t.scaleSpan.2)
    ({ s := q.s, els := t.toEls b.bs q.bs, pins := [], stop := false }, b.stop || q.stop)
  else ({ s := b.s, els := t.toEls b.bs [], pins := [], stop := false }, b.stop)

/-- One row's partial of one page, from a fresh state (08 R184, 10 R224). A key that MASK makes inactive forms no score, and a
row with no active key no O column: neither sets a flag (DESIGN CHOICE, log 189). -/
def pagePartial (f : AtDec) (g : Regs) (kfmt vfmt p n pos : Nat) (q : List El) (keys vals : List (List El)) : Fl Partial :=
  let ts := (List.range 64).map (fun i =>
    if i < n && maskRule f.mask.toNat (64 * p + i) pos (f.win g) then
      let t := column ((List.range f.dim).map (fun d => ((q.getD d El.zero).fp f.qfmt.toNat, (elAt keys i d).fp kfmt)))
      (t, true)
    else (.pure 0, false))
  let r := smRow ((g.getS f.sQ.toNat).setWidth 32) f.pfmt.toNat RowSt.init (ts.map (fun t => (t.1.v, t.2)))
  let os := (List.range f.dim).map (fun d =>
    (column ((List.range 64).map (fun c =>
      (elemFp f.pfmt.toNat (r.p.getD c 0), (elAt vals c d).fp vfmt)))).bind (fun b => fadd 0 b))
  let fl := (joinAll (ts.map (fun t => t.1.f))).join r.flags
  if r.st.act then { v := { st := r.st, o := os.map (fun o => o.v) }, f := fl.join (joinAll (os.map (fun o => o.f))) }
  else { v := { st := r.st, o := os.map (fun _ => 0) }, f := fl }

/-- What the work on a page list gives: the partials of the rows, flags, counts, the wells asked, the banks pinned by
stack, or a stop. -/
structure DecOut where
  s      : State
  parts  : Option (List Partial)
  flags  : Flags
  wide   : Nat
  work   : Nat
  wells  : List Nat
  pins   : List (Nat × Nat × Bool)
  stop   : Option Nat

/-- The banks that a stack's blocks pin. -/
def pinsOf (st : Nat) (l : List (Nat × Bool)) : List (Nat × Nat × Bool) := l.map (fun q => (st, q))

def mergeParts (a : Option (List Partial)) (b : List Partial) : Fl (List Partial) :=
  match a with
  | none => .pure b
  | some a =>
    let rs := (a.zip b).map (fun p => mergePartial p.1 p.2)
    { v := rs.map (fun r => r.v), f := joinAll (rs.map (fun r => r.f)) }

/-- The checks of 09 R191, and of 08 R173 for the head dimension of an MX page: none, or the status code. -/
def pageFault (s : State) (ctx : Nat) (f : AtDec) (e : Nat) : Option Nat :=
  if !pteWell e || !mxExtent (pteK e) f.dim || !mxExtent (pteV e) f.dim || f.heads * (sectionBytes (pteK e) f.dim + sectionBytes (pteV e) f.dim) > pteFrames e * 65536 then some 4
  else if !s.inSet ctx [pteK e, pteV e] then some 7
  else none

/-- A valid page of the list. Keys and values of tokens beyond the sequence are not read (DESIGN CHOICE, log 173). A head index
not below H_KV faults nothing: its sections are read where head × KSEC and H_KV × KSEC + head × VSEC put them (09 R188, 10 R224,
12 R290; DESIGN CHOICE, log 190). -/
def decPage (f : AtDec) (w : Who) (ctx c : Nat) (g : Regs) (qs : List (List El)) (pos : List Nat) (p e : Nat) (d : DecOut) :
    DecOut :=
  let kf := pteK e
  let vf := pteV e
  let ks := sectionBytes kf f.dim
  let vs := sectionBytes vf f.dim
  let n := min 64 (f.seqLen g - 64 * p)
  let wl := d.s.wellAt w.part (pteAddr e) (4 * regionOf c)
  let kr := readSection d.s w ctx (wl / 16) wl kf f.dim n (pteAddr e + f.head g * ks) false f.da
  let vr := readSection kr.1.s w ctx (wl / 16) wl vf f.dim n (pteAddr e + f.heads * ks + f.head g * vs) true f.da
  if kr.2 || vr.2 then { d with s := vr.1.s.poisonRead w (vr.1.s.stopAddr w (pteAddr e) (pteFrames e * 65536)), stop := some 5 }
  else if kr.1.stop || vr.1.stop then { d with s := vr.1.s, stop := some 6 }
  else
    let ps := (qs.zip pos).map (fun x => pagePartial f g kf vf p n x.2 x.1 kr.1.els vr.1.els)
    let m := mergeParts d.parts (ps.map (fun x => x.v))
    { s := vr.1.s, parts := some m.v, flags := d.flags.join ((joinAll (ps.map (fun x => x.f))).join m.f)
      wide := d.wide + (if widened kf f.qfmt.toNat + widened vf f.pfmt.toNat = 0 then 0 else 1)
      work := d.work + 2 * n * f.dim, wells := joinSet d.wells [wl]
      pins := joinSet d.pins (pinsOf (wl / 16) (joinSet kr.1.pins vr.1.pins)), stop := none }

/-- An entry with VALID = 0: no frame is read, and its 64 positions are inactive for every query (09 R190). -/
def decHole (f : AtDec) (g : Regs) (qs : List (List El)) (pos : List Nat) (p : Nat) (d : DecOut) : DecOut :=
  let ps := (qs.zip pos).map (fun x => pagePartial f g 0 0 p 0 x.2 x.1 [] [])
  let m := mergeParts d.parts (ps.map (fun x => x.v))
  { d with parts := some m.v, flags := d.flags.join ((joinAll (ps.map (fun x => x.f))).join m.f) }

/-- The pages in list order. -/
def decPages (f : AtDec) (w : Who) (ctx c : Nat) (g : Regs) (qs : List (List El)) (pos : List Nat) :
    List (Nat × Nat) → DecOut → DecOut
  | [], d => d
  | (p, e) :: r, d =>
    if d.stop.isSome then d
    else if !pteValid e then decPages f w ctx c g qs pos r (decHole f g qs pos p d)
    else match pageFault d.s ctx f e with
      | some k => { d with stop := some k }
      | none => decPages f w ctx c g qs pos r (decPage f w ctx c g qs pos p e d)

/-- The query rows of a request. Erg-K4 rows decode in the wells of the stack `st` (DEDUCED, log 40). -/
def readQuery (s : State) (w : Who) (ctx c : Nat) (k : Issued) (f : AtDec) (st : Nat) : WellOut :=
  let off := (spOff k.regs (s.window c) f.aQ.toNat 0 f.query.span.2).getD 0
  if fmtIsErg f.qfmt.toNat then
    let b := s.readSp w c off f.query.span.2
    let o := wellSegments b.1 w ctx st (16 * st) 12 (s.window c + off) f.da (chunks 64 (f.query.span.2 / 64) b.2)
    { o with els := splitRows f.dim f.q o.els.flatten }
  else
    let r := readTen s w c k f.query f.da
    { s := r.1, els := r.2, pins := [], stop := false }

/-- The partial O row of row `r` that no key reached: the spec states no value, so it is a free value of the page list and
the positions (log 41). -/
def freeRow (list : List Byte) (pos : List Nat) (r dim : Nat) : List W32 :=
  (List.range dim).map (fun i => Config.unreachedO list pos r i)

def fillFresh (list : List Byte) (pos : List Nat) (dim : Nat) (ps : List Partial) : List Partial :=
  ps.mapIdx (fun r p => { p with o := if p.st.fresh then freeRow list pos r dim else p.o })

/-- Writes what OUT_MODE selects. -/
def decWrite (s : State) (c : Nat) (g : Regs) (f : AtDec) (ps : List Partial) : State :=
  if f.om then
    let win := s.window c
    let s := s.writeSp c ((spAt g win f.aO.toNat (4 * f.q * f.dim)).getD 0) (bytesOf (ps.map (fun p => p.o)).flatten)
    s.writeSp c ((spAt g win f.aS.toNat (16 * f.q)).getD 0) (stateBytes (ps.map (fun p => p.st)))
  else finWrite s c g f.aO.toNat f.aX.toNat f.ofmt.toNat f.rnd.toNat f.sat f.lse f.q f.dim (ps.map (fun p => finRow p.st p.o))

/-- Requests of instruction `id` to the stacks, each with its wells among `wells` and its pins. -/
def State.askAll (s : State) (c id p : Nat) (wells : List Nat) (pins : List (Nat × Nat × Bool)) : List Nat → State
  | [] => s
  | st :: l =>
    (s.askWells st
      { core := c, id := id, part := p, wells := (wells.filter (fun x => x / 16 = st)).map (fun x => x % 16)
        pins := (pins.filter (fun q => q.1 = st)).map (fun q => q.2) }).askAll c id p wells pins l

/-- The request decodes Erg blocks, of its rows or of a page. -/
def AtDec.ergs (f : Sys2Proof.AtDec) (es : List (Nat × Nat)) : Bool :=
  fmtIsErg f.qfmt.toNat || es.any (fun e => pteValid e.2 && (fmtIsErg (pteK e.2) || fmtIsErg (pteV e.2)))

/-- The request once the list and the positions are read. -/
def decBody (s : State) (w : Who) (ctx c : Nat) (k : Issued) (f : AtDec) (list : List Byte) (pos : List Nat) : Eff :=
  let g := k.regs
  let es := (List.range (f.np g)).map (fun i => (i, leNat ((list.drop (8 * i)).take 8)))
  let home := s.wellAt w.part (pteAddr ((es.headD (0, 0)).2)) (4 * regionOf c)
  let s := if AtDec.ergs f es then s.onX c (fun x => { x with decs := k.id :: x.decs }) else s
  let q := readQuery s w ctx c k f (home / 16)
  let d := decPages f w ctx c g q.els (pos ++ List.replicate f.q 0) es
    { s := q.s, parts := none, flags := Flags.none, wide := 0, work := 0, wells := [], pins := pinsOf (home / 16) q.pins
      stop := if q.stop then some 6 else none }
  match d.stop with
  | some code => .abort code d.s
  | none =>
    let ps := d.parts.getD (List.replicate f.q { st := RowSt.init, o := List.replicate f.dim 0 })
    let s := (decWrite d.s c g f (fillFresh list pos f.dim ps)).addFlags c d.flags
    let s := (s.countWork w 14 d.wide).countWork w 9 d.work
    let wells := joinSet d.wells [home]
    .done (s.askAll c k.id w.part wells d.pins (joinSet [] (wells.map (fun x => x / 16))))

def runAtDec (f : AtDec) : Effect := fun s c k =>
  let g := k.regs
  let w := s.who c g
  match w.ctx with
  | none => some (.done s)
  | some n =>
    some (withCtl s w (baseOf g f.aG.toNat) (8 * f.np g) (fun s list =>
      withPositions s w c g f.aT.toNat 0 f.q (fun s pos => decBody s w n c k f list pos)))

def execAtDec (c : Fin 264) (f : AtDec) (s : State) : Host.Outcome State Fault Refusal :=
  .next (issue s c 2 .nearMem (.atDec c f) always (atDecCheck c f) id (runAtDec f))

end Sys2Proof.Machine
end

