-- ==== Sys2Proof/Machine/Crypto.lean ====
section
/-! DEFINITION. The digest and the signature check of a firmware image: SHA-384 and ECDSA P-384, which 22 R509 and R513 name,
written from their standards (PRESUMED, log 179). -/

namespace Sys2Proof.Machine

/-! ### SHA-384 -/

/-- The greatest `r` below 2^bits with r^k at most `v`. -/
def rootOf (k v : Nat) : Nat → Nat → Nat
  | 0, r => r
  | n + 1, r => rootOf k v n (if (r + 2 ^ n) ^ k ≤ v then r + 2 ^ n else r)

/-- The first 64 bits of the fraction of a prime's square or cube root. -/
def rootFraction (k p : Nat) : W64 := BitVec.ofNat 64 (rootOf k (p * 2 ^ (64 * k)) 70 0)

def isPrime (n : Nat) : Bool := 1 < n && (List.range n).all (fun d => d < 2 || n % d ≠ 0)

def shaPrimes : List Nat := (List.range 410).filter isPrime

/-- The 80 round constants. -/
def shaRounds : List W64 := (shaPrimes.take 80).map (rootFraction 3)

/-- The initial values: of the ninth to the sixteenth prime. -/
def shaStart : List W64 := ((shaPrimes.take 16).drop 8).map (rootFraction 2)

/-- The message with a 1 bit, zeros and its length in bits, in blocks of 128 bytes. -/
def shaPad (m : List Byte) : List Byte :=
  m ++ [0x80] ++ List.replicate ((239 - m.length % 128) % 128) 0
    ++ (leBytes 16 (8 * m.length)).reverse

def beWord (l : List Byte) : W64 := BitVec.ofNat 64 (leNat l.reverse)

/-- The message schedule, latest word first. -/
def shaSchedule : Nat → List W64 → List W64
  | 0, w => w
  | n + 1, w =>
    let x := w.getD 1 0
    let y := w.getD 14 0
    let s1 := x.rotateRight 19 ^^^ x.rotateRight 61 ^^^ (x >>> 6)
    let s0 := y.rotateRight 1 ^^^ y.rotateRight 8 ^^^ (y >>> 7)
    shaSchedule n ((s1 + w.getD 6 0 + s0 + w.getD 15 0) :: w)

/-- One round on the eight working words. -/
def shaRound (h : List W64) (kw : W64 × W64) : List W64 :=
  match h with
  | [a, b, c, d, e, f, g, k] =>
    let t1 := k + (e.rotateRight 14 ^^^ e.rotateRight 18 ^^^ e.rotateRight 41) + ((e &&& f) ^^^ (~~~e &&& g)) + kw.1 + kw.2
    let t2 := (a.rotateRight 28 ^^^ a.rotateRight 34 ^^^ a.rotateRight 39) + ((a &&& b) ^^^ (a &&& c) ^^^ (b &&& c))
    [t1 + t2, a, b, c, d + t1, e, f, g]
  | _ => h

def shaBlock (h : List W64) (blk : List Byte) : List W64 :=
  let w0 := (List.range 16).map (fun i => beWord ((blk.drop (8 * i)).take 8))
  let w := (shaSchedule 64 w0.reverse).reverse
  List.zipWith (· + ·) h ((shaRounds.zip w).foldl shaRound h)

def sha384 (m : List Byte) : List Byte :=
  let p := shaPad m
  let h := (List.range (p.length / 128)).foldl (fun h i => shaBlock h ((p.drop (128 * i)).take 128)) shaStart
  ((h.take 6).map (fun w => (leBytes 8 w.toNat).reverse)).flatten

/-! ### ECDSA over P-384 -/

def p384 : Nat := 2 ^ 384 - 2 ^ 128 - 2 ^ 96 + 2 ^ 32 - 1
def n384 : Nat := 0xffffffffffffffffffffffffffffffffffffffffffffffffc7634d81f4372ddf581a0db248b0a77aecec196accc52973
def b384 : Nat := 0xb3312fa7e23ee7e4988e056be3f82d19181d9c6efe8141120314088f5013875ac656398d8a2ed19d2a85c8edd3ec2aef
def g384 : Nat × Nat :=
  (0xaa87ca22be8b05378eb1c71ef320ad746e1d3b628ba79b9859f741e082542a385502f25dbf55296c3a545e3872760ab7,
   0x3617de4a96262c6f5d9e98bf9292dc29f8f41dbd289a147ce9da3113b5f0b8c00a60b1ce1d7e819d7a431d7c90ea0e5f)

/-- `a` to the power of the number whose bits, highest first, are given, modulo `m`. -/
def powMod (m a : Nat) (bits : List Bool) : Nat := bits.foldl (fun r b => if b then r * r % m * a % m else r * r % m) (1 % m)

/-- The low 384 bits, highest first. -/
def bitsHigh (k : Nat) : List Bool := ((List.range 384).map (bit k)).reverse

/-- The inverse modulo a prime. -/
def invMod (m a : Nat) : Nat := powMod m (a % m) (bitsHigh (m - 2))

/-- The sum of two points of the curve; none is the point at infinity. -/
def addPoint (a b : Option (Nat × Nat)) : Option (Nat × Nat) :=
  match a, b with
  | none, b => b
  | a, none => a
  | some (x, y), some (u, v) =>
    let slope : Option Nat :=
      if x ≠ u then some ((v + p384 - y) * invMod p384 (u + p384 - x) % p384)
      else if y = v && y ≠ 0 then some ((3 * x * x + p384 - 3) * invMod p384 (2 * y) % p384)
      else none
    slope.map (fun l =>
      let z := (l * l + 2 * p384 - x - u) % p384
      (z, (l * (x + p384 - z) + p384 - y) % p384))

def mulPoint (k : Nat) (p : Option (Nat × Nat)) : Option (Nat × Nat) :=
  (bitsHigh k).foldl (fun r b => if b then addPoint (addPoint r r) p else addPoint r r) none

def onCurve (q : Nat × Nat) : Bool :=
  q.1 < p384 && q.2 < p384 && (q.2 * q.2 + 3 * q.1) % p384 = (q.1 * q.1 * q.1 + b384) % p384

/-- Whether (r, s) is a signature of the key's owner over a digest. -/
def ecdsaOk (key : Nat × Nat) (digest : List Byte) (sig : Nat × Nat) : Bool :=
  onCurve key && 0 < sig.1 && sig.1 < n384 && 0 < sig.2 && sig.2 < n384 &&
    (let w := invMod n384 sig.2
     let e := leNat digest.reverse
     match addPoint (mulPoint (e * w % n384) (some g384)) (mulPoint (sig.1 * w % n384) (some key)) with
     | some q => q.1 % n384 = sig.1
     | none => false)

end Sys2Proof.Machine
end

