-- ==== Sys2Proof/Machine/Restart.lean ====
section
/-! DEFINITION. Going back to a captured state: the restart of an open group and the repeat of an open step (04 R77,
R86, 13 R322, 16 R400, 19 R466 to R468). -/

namespace Sys2Proof.Machine

/-- A table slot that holds an image with a generation. -/
def TblSlot.holding (t : Image) (gen : Nat) : TblSlot := { bankA := t, bankB := [], cur := false, gen := gen }

def putTable (ex : Tab Expander) (slot : Nat) (t : TblSlot) : Tab Expander :=
  let e := Tab.val Expander.empty ex (slot / 16)
  Tab.put ex (slot / 16) { e with slots := Tab.put e.slots (slot % 16) t }

/-- The expanders with the captured images, and no block. -/
def Capture.expanders (k : Capture) : Tab Expander :=
  k.tables.foldl (fun ex t => putTable ex t.1 (.holding t.2.1 t.2.2)) []

/-- The table shadow that goes with the captured images (DEDUCED, log 161). -/
def Capture.shadow (k : Capture) : Tab Image := (k.tables.filter (fun t => t.1 < 16)).map (fun t => (t.1, t.2.1))

/-- s1 and s2 after a shrink of the core set (04 R77). -/
def Regs.ranked (g : Regs) (rank n : Nat) : Regs :=
  (g.setS 1 (BitVec.ofNat 64 rank)).setS 2 (BitVec.ofNat 64 n)

/-- A core takes a captured state; work in flight is gone. -/
def Exec.goBack (x : Exec) (k : Capture) : Exec := { x.quiet with regs := k.regs, ex := k.expanders, shadow := k.shadow }

/-- The open group restarts on the core (04 R86). -/
def Exec.reload (x : Exec) : Exec :=
  match x.cap with
  | none => x.quiet
  | some k => { x.goBack k with step := none }

/-- The capture slot takes a new rank and core count, so that a restart finds them in s1 and s2 (04 R77). -/
def Exec.rerank (x : Exec) (rank n : Nat) : Exec :=
  { x with cap := x.cap.map (fun k => { k with regs := k.regs.ranked rank n }) }

/-- What was issued before instruction `m`, without the reductions: the rest of the engines' work is gone. -/
def Exec.upTo (x : Exec) (m : Nat) : Exec :=
  let old (b : Blk) : Bool := b.id < m
  { x with
    tileQ := [], drains := x.drains.filter (fun d => d.id < m), taken := [], savedE := none, tags := x.tags.filter (fun t => t.owner < m)
    ex := x.ex.map (fun e => (e.1, { e.2 with
      queue := e.2.queue.filter old, stream := e.2.stream.filter old
      load := e.2.load.filter (fun l => l.id < m) }))
    queue := x.queue.filter (fun k => k.id < m), inflight := x.inflight.filter (fun k => k.id < m)
    puts := x.puts.filter (fun u => u.1 < m), hold := .clear, reds := [], ergPos := none, decs := [] }

/-- The captured images in the slots of the expanders. -/
def Capture.into (k : Capture) (ex : Tab Expander) : Tab Expander :=
  k.tables.foldl (fun ex t => putTable ex t.1 (.holding t.2.1 t.2.2)) (ex.map (fun e => (e.1, { e.2 with slots := [] })))

/-- The core resumes after its `cl.step` marker; contributions count from 0 again. `rep` is the REPEAT of the new
contributions. What the core issued before the marker goes on (DESIGN CHOICE, log 44). -/
def Exec.repeatStep (x : Exec) (rep : Nat) : Exec :=
  match x.step with
  | none => x
  | some p =>
    let y := x.upTo p.mark
    { y with regs := p.cap.regs, ex := p.cap.into y.ex, shadow := p.cap.shadow, step := some { p with kidx := [], rep := rep } }

/-- A rank after rank `j` has left the set (04 R77). -/
def rankAfter (j k : Nat) : Nat := if k > j then k - 1 else k

def Group.without (q : Group) (j : Nat) : Group :=
  { q with opened := (q.opened.filter (fun k => k ≠ j)).map (rankAfter j)
           closed := (q.closed.filter (fun k => k ≠ j)).map (rankAfter j) }

/-- A logical core leaves the core set of a context. -/
def Ctx.shrink (x : Ctx) (l : Nat) : Ctx :=
  let j := x.cores.idxOf l
  { x with
    cores := x.cores.filter (fun k => k ≠ l)
    saved := Tab.del x.saved l
    kept := Tab.del x.kept l
    run := x.run.map (fun r => { r with groups := r.groups.map (fun q => (q.1, q.2.without j)) }) }

def State.rerankCores (s : State) (n total : Nat) : List Nat → State
  | [] => s
  | c :: r => (s.onX c (fun x => x.rerank (s.rank n c) total)).rerankCores n total r

/-- New ranks for the images of a saved context, whose open group restarts on every core (19 R469, R470). -/
def Ctx.rerankSaved (x : Ctx) : Ctx :=
  { x with saved := x.saved.map (fun k =>
      (k.1, { k.2 with fenced := true, x := k.2.x.rerank (x.cores.idxOf k.1) x.cores.length })) }

/-- Every core of a running context goes back to its open group; a halted core stays halted (19 R467). -/
def State.restartCores (s : State) : List Nat → State
  | [] => s
  | c :: r =>
    (if (s.core c).run = .halted then s.onX c Exec.quiet
     else s.onCore c (fun p => { p with run := .running, x := p.x.reload })).restartCores r

/-- The restart of the open group, once every spare of the context has been scrubbed. In the tick of a deadline's expiry
the expiry comes first (19 R469). -/
def State.restartGroup (s : State) (n : Nat) : State :=
  let cs := s.heldCores n
  if (s.ctx n).restart && ((s.ctx n).st = .running || (s.ctx n).st = .stopping) && cs.all (fun c => !(s.core c).scrub)
      && (s.dueAll false n false).isEmpty then
    (s.restartCores cs).onCtx n (fun x => { x with restart := false })
  else s

/-- The working lanes of the ports that carry a partition's job (15 R370). -/
def State.jobLanes (s : State) (p : Nat) : List Nat :=
  match (s.part p).job with
  | none => []
  | some j =>
    let m := j.routes.foldl (fun a r => a ||| r.2) 0
    (maskPorts m).map (fun q => (s.port q).lanes)

end Sys2Proof.Machine
end

