-- ==== Sys2Proof/Machine/Sched.lean ====
section
/-! DEFINITION. The dispatcher: doorbells, submission records, selection, start, save, restore and deadlines (04 R68,
R76, R91 to R93, 15 R354 to R370, 17 R423 to R426, 18 R433 to R436, 20 R480, R481). -/

namespace Sys2Proof.Machine

/-! ### Waking (18 R433 to R436) -/

/-- The regions of a context's core set. -/
def Ctx.regions (x : Ctx) : List Nat := (List.range 4).filter (fun r => x.cores.any (fun l => l / 64 = r))

/-- A partition becomes active in a region: its stopped PLL starts to wake. -/
def Region.wake (g : Region) : Region := { g with waking := !g.pll, idleTick := none }

def State.wakeRegions (s : State) : List Nat → State
  | [] => s
  | r :: l => (s.onRegion r Region.wake).wakeRegions l

/-- The wake of a context's regions and of the fabric. -/
def State.wakeFor (s : State) (n : Nat) : State :=
  let s := s.wakeRegions (s.ctx n).regions
  { s with pwr := { s.pwr with fabricWake := !s.pwr.fabric, fabricIdle := none } }

/-- The stacks in which a partition maps a page; partition 0 reaches all. -/
def State.mappedStacks (s : State) (p : Nat) : List Nat :=
  let n := if p = 0 then 0 else fld (s.pfReg (partReg p 2)) 40 24
  let m := (List.range n).foldl (fun m i =>
    match s.xlat p (i * 0x200000) false with
    | .stack pa => m ||| 2 ^ stackOf pa
    | _ => m) 0
  (List.range 16).filter (fun k => p = 0 || bit m k)

/-! ### Doorbells (17 R423, R429) -/

/-- Whether a function's doorbell may name a context. -/
def State.rings (s : State) (fn n : Nat) : Bool :=
  (s.ctx n).st ≠ .free && (s.ctx n).part = fn && (s.part fn).st = .active

/-- The offset of a function's DOORBELL. -/
def doorbellOff (fn : Nat) : Nat := if fn = 0 then 0x1040 else 0x1000

/-- A doorbell for a ring that the function does not own is a violation; an INDEX beyond the ring is an error. -/
def State.doorbell (s : State) (fn n index : Nat) (k : Ctx → Ctx) : State :=
  if !s.rings fn n then s.violate fn n fn .droppedDoorbell (doorbellOff fn)
  else if index ≥ 2 ^ (s.ctx n).sqLog2 then s.writeDropped (doorbellOff fn)
  else s.onCtx n k

/-- A new completion head frees the slots before it. -/
def Ctx.freeSlots (x : Ctx) (index : Nat) : Ctx :=
  { x with
    cqHead := index
    reserved := x.reserved - (index + 2 ^ x.sqLog2 - x.cqHead) % 2 ^ x.sqLog2 }

def submissionTail (s : State) (fn n index : Nat) : State :=
  s.doorbell fn n index (fun x => { x with tail := index })

def completionHead (s : State) (fn n index : Nat) : State :=
  s.doorbell fn n index (fun x => x.freeSlots index)

def execDoorbellSubmissionTail (fn : Fin 256) (ctx : Fin 4096) (index : BitVec 16) (s : State) :
    Host.Outcome State Fault Refusal := .next (s.whenReady (fun s => submissionTail s fn ctx index.toNat))

def execDoorbellCompletionHead (fn : Fin 256) (ctx : Fin 4096) (index : BitVec 16) (s : State) :
    Host.Outcome State Fault Refusal := .next (s.whenReady (fun s => completionHead s fn ctx index.toNat))

/-! ### Submission records (15 R357, 17 R424 to R426) -/

/-- Each field of a record of opcode `op` for context `n`: its offset, and whether it keeps the table of 17 R424. -/
def recFields (op n : Nat) (r : SubRec) : List (Nat × Bool) :=
  let a := r.op0.toNat
  let b := r.op1.toNat
  let flagMask := if op = 2 then 3 else if op = 3 then 5 else if op = 5 then 0xFF01 else 1
  [ (0x00, r.opcode.toNat = op),
    (0x01, if op = 1 then r.phase.toNat < 8 else r.phase = 0),
    (0x02, r.ctx.toNat = n),
    (0x04, r.flags.toNat ||| flagMask = flagMask),
    (0x08, if op = 1 then a % 64 = 0 && a < 2 ^ 48 else if op ≤ 3 then a < 2 ^ 18 else a = 0),
    (0x10, if op = 1 then b % 8 = 0 && b < 2 ^ 48 else if op = 2 then b < 2 ^ 32 else op = 3 || b = 0),
    (0x18, op = 1 || r.deadline = 0),
    (0x20, op = 1 || r.layerBase = 0),
    (0x22, r.rsv22 = 0),
    (0x30, r.rsv30 = 0) ]

/-- The byte offset of the lowest field that fails. -/
def recFail (op n : Nat) (r : SubRec) : Option Nat := ((recFields op n r).find? (fun f => !f.2)).map (fun f => f.1)

/-- A record of the ring can be read and accepted. -/
def State.pends (s : State) (n : Nat) : Bool :=
  let x := s.ctx n
  x.st ≠ .free && x.head ≠ x.tail && x.reserved < 2 ^ x.sqLog2 && (s.part x.part).st = .active && s.dev.st = .ready

/-- The partitions that have records pending. -/
def State.pendingParts (s : State) : List Nat := (s.ctxs.filter (fun x => s.pends x.1)).map (fun x => x.2.part)

/-- The dispatcher may read and accept the next record of the ring: it is its partition's turn. Which of the partition's
rings it takes is open (DESIGN CHOICE, log 160). -/
def State.mayAccept (s : State) (n : Nat) : Bool :=
  s.pends n && nextAfter s.dev.lastPart s.pendingParts = some (s.ctx n).part

/-- The turn of the context's partition is over. -/
def State.turnOver (s : State) (n : Nat) : State := { s with dev := { s.dev with lastPart := (s.ctx n).part } }

/-- The record leaves the ring and reserves a completion slot. -/
def Ctx.fetchRec (x : Ctx) : Ctx := { x with head := (x.head + 1) % 2 ^ x.sqLog2, reserved := x.reserved + 1 }

/-- An accepted record waits behind those before it. -/
def State.enqueue (s : State) (n : Nat) (r : SubRec) : State :=
  let x := s.ctx n
  let a : Acc := { sub := r, tick := s.time, missed := false, energy := spent (s.ctx n).acts }
  let s := ({ s with dev := { s.dev with records := s.dev.records + 1 } }).wakeFor n
  if x.accepted.isEmpty && !x.resetting then s.startRecs n [a]
  else s.onCtx n (fun x => { x with accepted := x.accepted ++ [a] })

/-- Takes the next record of the ring: rejects it with RANGE, or lets `k` act on it. -/
def acceptRec (s : State) (n op : Nat) (r : SubRec) (k : State → State) : State :=
  if !s.mayAccept n then s
  else
    let s := (s.turnOver n).onCtx n Ctx.fetchRec
    if r.unread then s.post n r 3 0xFFFFFFFF 0
    else match recFail op n r with
      | some off => s.post n r 3 off 0
      | none => k s

def execRun (ctx : Fin 4096) (r : SubRec) (s : State) : Host.Outcome State Fault Refusal :=
  .next (acceptRec s ctx 1 r (fun s => s.enqueue ctx r))

def execSignal (ctx : Fin 4096) (r : SubRec) (s : State) : Host.Outcome State Fault Refusal :=
  .next (acceptRec s ctx 2 r (fun s => s.enqueue ctx r))

def execWait (ctx : Fin 4096) (r : SubRec) (s : State) : Host.Outcome State Fault Refusal :=
  .next (acceptRec s ctx 3 r (fun s => s.enqueue ctx r))

def execTimesync (ctx : Fin 4096) (r : SubRec) (s : State) : Host.Outcome State Fault Refusal :=
  .next (acceptRec s ctx 5 r (fun s => s.enqueue ctx r))

/-! ### Context reset (17 R426, 20 R480 to R482) -/

/-- Posts CONTEXT_RESET for a record that the reset ends. -/
def State.postEnded (s : State) (n : Nat) (a : Acc) : State :=
  s.postAcc n a 10 (if recOp a.sub = 1 then 2 ^ 10 else 0)

def State.postEndeds (s : State) (n : Nat) : List Acc → State
  | [] => s
  | a :: r => (s.postEnded n a).postEndeds n r

/-- Posts CONTEXT_RESET for the accepted records, the RUN in progress first with every code that arose. -/
def State.postReset (s : State) (n : Nat) : State :=
  let x := s.ctx n
  if x.run.isSome then ((s.status n 10).postRun n).postEndeds n (x.accepted.drop 1)
  else s.postEndeds n x.accepted

/-- The updates of a context's SIGNAL records still apply, and no record waits for them. -/
def State.detachUpds (s : State) (n : Nat) : State :=
  { s with regions := s.regions.map (fun g => (g.1, { g.2 with
      updates := g.2.updates.map (fun u => if u.core.isNone && u.ctx = n then { u with id := 0 } else u) })) }

/-- A context's records are gone, and its reset runs. -/
def Ctx.underReset (x : Ctx) : Ctx :=
  { x.settle with
    st := .idle, accepted := [], run := none, hostWait := none, hostSync := none, resetting := true, resetCut := 0 }

/-- Begins a context reset: RESET_NOTICE, the removal of its work, and the records it ends, DETAIL recording a deadline that
expires in this tick. A second reset joins the first, and ends the records accepted behind it (20 R482). -/
def State.beginReset (s : State) (n : Nat) : State :=
  if (s.ctx n).resetting then s.onCtx n (fun x => { x with resetCut := x.accepted.length })
  else (((((s.noteDue false n).resetNotice n).removeCtx n).detachUpds n).postReset n).onCtx n Ctx.underReset

def State.beginResets (s : State) : List Nat → State
  | [] => s
  | n :: r => (s.beginReset n).beginResets r

/-- A RESET_CONTEXT record is accepted: its partition is active, and the record ends with the reset, as does every record
before it (17 R426). -/
def State.resetRecord (s : State) (n : Nat) (r : SubRec) : State :=
  let s := ({ s with dev := { s.dev with records := s.dev.records + 1 } }).wakeFor n
  (s.beginReset n).onCtx n (fun x => { x with
    accepted := x.accepted ++ [{ sub := r, tick := s.time, missed := false, energy := 0 }], resetCut := x.accepted.length + 1 })

/-- Posts the records that a finished reset ends: RESET_CONTEXT with OK, others with CONTEXT_RESET. -/
def State.postAfterReset (s : State) (n : Nat) : List Acc → State
  | [] => s
  | a :: r => (if recOp a.sub = 4 then s.post n a.sub 0 0 0 else s.postEnded n a).postAfterReset n r

/-- The reset ends: the epoch advances, its records complete, and the context takes its next record (20 R481). -/
def State.endReset (s : State) (n : Nat) : State :=
  if !(s.ctx n).resetting then s
  else
    let l := (s.ctx n).accepted
    let k := (s.ctx n).resetCut
    let s := (s.epochAfter n).onCtx n (fun x => { x with resetting := false, resetCut := 0 })
    (s.postAfterReset n (l.take k)).startRecs n (l.drop k)

def execContextResetDone (ctx : Fin 4096) (s : State) : Host.Outcome State Fault Refusal := .next (s.endReset ctx)

/-! ### Selection (15 R358 to R361) -/

/-- The effective deadline. -/
def Run.effective (r : Run) : Nat :=
  if !r.started then r.deadline
  else
    let ds := (r.groups.filter (fun q => q.2.opened.any (fun k => !q.2.closed.contains k))).map (fun q => q.2.deadline)
    match ds with
    | [] => r.deadline
    | d :: rest => rest.foldl min d

def State.dEff (s : State) (n : Nat) : Nat := (s.ctx n).run.elim 0 Run.effective

/-- RUNNING or STOPPING. -/
def Ctx.holds (x : Ctx) : Bool := x.st = .running || x.st = .stopping

def Ctx.competes (x : Ctx) : Bool := !x.resetting && (x.holds || x.st = .ready || x.st = .saved)

/-- The order of the list: D_eff, then RUNNING or STOPPING, then context id. -/
def State.ahead (s : State) (a b : Nat) : Bool :=
  if s.dEff a ≠ s.dEff b then s.dEff a < s.dEff b
  else if (s.ctx a).holds ≠ (s.ctx b).holds then (s.ctx a).holds
  else a < b

def insertBy (lt : Nat → Nat → Bool) (a : Nat) : List Nat → List Nat
  | [] => [a]
  | b :: r => if lt a b then a :: b :: r else b :: insertBy lt a r

def sortBy (lt : Nat → Nat → Bool) (l : List Nat) : List Nat := l.foldr (insertBy lt) []

/-- No core of the set is under an in-place test (19 R470). -/
def State.testable (s : State) (x : Ctx) : Bool :=
  x.cores.all (fun l => (s.phys l).elim false (fun c => !(s.core c).inPlace))

/-- The selected contexts of a sorted list. -/
def State.choose (s : State) : List Nat → List Nat → List Nat
  | [], _ => []
  | n :: r, taken =>
    let x := s.ctx n
    if s.testable x && !x.cores.any (fun l => taken.contains l) then n :: s.choose r (x.cores ++ taken)
    else s.choose r taken

/-- The contexts of a partition. -/
def State.ctxsOf (s : State) (p : Nat) : List Nat :=
  (s.ctxs.filter (fun x => x.2.st ≠ .free && x.2.part = p)).map (fun x => x.1)

def State.selection (s : State) (p : Nat) : List Nat :=
  s.choose (sortBy s.ahead ((s.ctxsOf p).filter (fun n => (s.ctx n).competes))) []

/-- Cores that stand in an unsatisfied wait stop at once (04 R89). -/
def State.stopWaiting (s : State) (n : Nat) : List Nat → State
  | [] => s
  | c :: r =>
    match (s.x c).hold with
    | .wait _ _ _ _ _ _ _ =>
      (if (s.core c).run = .running then s.pausePoint c n (s.regs c).pc else s).stopWaiting n r
    | _ => s.stopWaiting n r

/-- Requests the preemption of a context (04 R89). -/
def State.preempt (s : State) (n : Nat) : State :=
  let s := s.onCtx n (fun x => { x with st := .stopping, preempt := true })
  (s.stopWaiting n (s.heldCores n)).maybeSave n

/-- A selected SAVED context begins its restore once no other context holds a core of it. -/
def State.beginRestore (s : State) (n : Nat) : State :=
  let x := s.ctx n
  let cs := s.ctxCores n
  if x.st = .saved && x.selected && s.testable x && cs.all (fun c => (s.core c).ctx.isNone) then
    let s := (s.onCtx n (fun x => { x with st := .restoring })).onCores (fun p => { p with ctx := some n, run := .idle }) cs
    s.wakeStacks (s.mappedStacks x.part)
  else s

def State.beginRestores (s : State) : List Nat → State
  | [] => s
  | n :: r => (s.beginRestore n).beginRestores r

/-- An explicit deadline expires in this tick or is over, and is not yet noted: its expiry is handled before a preemption or
a save (15 R366). -/
def State.expiring (s : State) (n : Nat) : Bool := !(s.dueAll false n false).isEmpty

/-- Each context is selected or not. The stacks of one that is to start or to be restored begin to wake with the cores
(18 R436). -/
def State.selectEach (s : State) (sel : List Nat) : List Nat → State
  | [] => s
  | n :: r =>
    let on := sel.contains n
    let s := s.onCtx n (fun x => { x with selected := on })
    let s := if on && ((s.ctx n).st = .ready || (s.ctx n).st = .saved) then s.wakeStacks (s.mappedStacks (s.ctx n).part) else s
    (if !on && (s.ctx n).st = .running && !s.expiring n then s.preempt n else s).selectEach sel r

def State.select (s : State) (p : Nat) : State :=
  let ns := s.ctxsOf p
  (s.selectEach (s.selection p) ns).beginRestores ns

def execDispatchSelection (p : Fin 256) (s : State) : Host.Outcome State Fault Refusal := .next (s.select p)

/-! ### Start (04 R68, R76, R91 to R94) -/

/-- CRC-32 in the form of the IEEE 802.3 frame check sequence, one bit at a time. -/
def crc32Bits : Nat → Nat → Nat
  | 0, c => c
  | n + 1, c => crc32Bits n (if bit c 0 then (c >>> 1) ^^^ 0xEDB88320 else c >>> 1)

def crc32 (bs : List Byte) : Nat :=
  (bs.foldl (fun c b => crc32Bits 8 (c ^^^ b.toNat)) 0xFFFFFFFF) ^^^ 0xFFFFFFFF

def leAt (bs : List Byte) (off n : Nat) : Nat := leNat ((bs.drop off).take n)

/-- The fields of the NUO header. -/
structure Nuo where
  codeOff  : Nat
  codeSize : Nat
  entry    : Nat
  liveOff  : Nat
  liveSize : Nat
  formats  : Nat
  deriving DecidableEq, Repr

def Nuo.of (h : List Byte) : Nuo :=
  { codeOff := leAt h 8 8, codeSize := leAt h 0x10 8, entry := leAt h 0x18 8, liveOff := leAt h 0x20 8
    liveSize := leAt h 0x28 2, formats := leAt h 0x2A 2 }

/-- The first row of the checks of 04 R93. -/
def headerOk (base : Nat) (h : List Byte) : Bool :=
  let u := Nuo.of h
  leAt h 0 4 = 0x314F554E && leAt h 4 2 = 1 && leAt h 0x38 4 = crc32 (h.take 0x38)
    && leAt h 6 2 = 0 && leAt h 0x2C 4 = 0 && leAt h 0x30 8 = 0 && leAt h 0x3C 4 = 0 && base % 64 = 0
    && u.codeOff % 8 = 0 && u.codeSize % 8 = 0 && u.entry % 8 = 0 && u.codeSize ≠ 0 && u.liveOff % 64 = 0
    && u.liveSize ≤ 4095 && u.formats < 2 ^ 14

/-- A range lies inside a partition's memory. -/
def State.inMemory (s : State) (p va n : Nat) : Bool :=
  va + n ≤ 0x10000000000 && (pieces va n).all (fun k =>
    match s.xlat p k.1 false with
    | .stack _ => true
    | _ => false)

/-- The second row. -/
def State.imageInside (s : State) (p base : Nat) (u : Nuo) : Bool :=
  s.inMemory p (base + u.codeOff) u.codeSize && u.entry < u.codeSize
    && s.inMemory p (base + u.liveOff) (64 * u.liveSize)

/-- The poisoned translation entry that the check of the second row meets, by its module physical address (19 R463). -/
def State.imageStop (s : State) (p base : Nat) (u : Nuo) : Option Nat :=
  ((pieces (base + u.codeOff) u.codeSize ++ pieces (base + u.liveOff) (64 * u.liveSize)).find? (fun k =>
    k.1 < 0x10000000000 && s.xlat p k.1 false = .poisoned)).map (fun k => s.xlatEntry p k.1)

/-- The outcome of the header checks: a status code, or none. -/
def State.headerFails (s : State) (p base : Nat) (h : List Byte) : Option Nat :=
  if !headerOk base h then some 4
  else if (s.imageStop p base (Nuo.of h)).isSome then some 5
  else if !s.imageInside p base (Nuo.of h) then some 4
  else if (Nuo.of h).formats ||| s.formats p ≠ s.formats p then some 7
  else none

/-- The registers at start. -/
def startRegs (r : SubRec) (k : Kept) (rank n entry : Nat) : Regs :=
  let g := { Regs.zero with
    flags := k.flags, key := k.key, lane := k.lane, step := k.step, seq := k.seq
    a := [(15, (r.op1, 4096))], layer := r.layerBase, phase := r.phase.setWidth 3, pc := entry }
  (((g.setS 1 (BitVec.ofNat 64 rank)).setS 2 (BitVec.ofNat 64 n)).setS 3 r.op1).setS 4 r.deadline

def Kept.none : Kept := { flags := Flags.none, key := 0, lane := false, step := 0, seq := 0 }

/-- A core's state as a RUN starts; a change of form empties the latches (05 R99). -/
def Exec.started (x : Exec) (g : Regs) (now : Nat) : Exec :=
  let y := { x.removed with
    regs := g, form := 0, progress := now
    bankA := if x.form = 0 then x.bankA else none, bankB := if x.form = 0 then x.bankB else none }
  { y with cap := some y.capture }

/-- Each core drops the context's lines and reads the header. -/
def State.readHeaders (s : State) (n base : Nat) : List Nat → Got
  | [] => { s := s, bs := [], stop := false }
  | c :: r =>
    let s := s.onCore c (fun p => { p with cache := p.cache.filter (fun e => e.1 ≠ n) })
    let w : Who := { part := (s.ctx n).part, ctx := some n, core := some c, layer := 0, op := 0 }
    let f := s.fillLine c n w base
    let g := f.s.readHeaders n base r
    { s := g.s, bs := f.bs, stop := f.stop || g.stop }

def State.startCores (s : State) (n : Nat) (r : SubRec) (entry total : Nat) : List Nat → State
  | [] => s
  | c :: rest =>
    let k := Tab.val Kept.none (s.ctx n).kept (s.core c).logical
    let g := startRegs r k (s.rank n c) total entry
    (s.onCore c (fun p => { p with ctx := some n, run := .running, x := p.x.started g s.time })).startCores n r entry
      total rest

/-- A RUN that fails its header check ends with `code`; nothing of it executed, and what the context keeps stays. -/
def State.failRun (s : State) (n code : Nat) : State :=
  (((s.status n code).onCtx n (fun x => { x.settle with kept := x.kept })).postRun n).nextRec n

/-- The cores, regions and fabric of a selected context are ready for it. -/
def State.startable (s : State) (n : Nat) : Bool :=
  let cs := s.ctxCores n
  !cs.isEmpty && cs.length = (s.ctx n).cores.length && s.pwr.fabric && (s.ctx n).regions.all (fun r => (s.region r).pll)
    && cs.all (fun c => !(s.core c).scrub && (s.core c).st = .active)

/-- The RUN's own fields as it starts; group 0 is open on every core, under the RUN's deadline. -/
def Run.begin (r : Run) (base : Nat) (u : Nuo) (cores now : Nat) : Run :=
  { r with
    started := true, formats := u.formats, code := base + u.codeOff, codeSize := u.codeSize
    liveMap := base + u.liveOff, liveSize := u.liveSize
    groups := [(0, { Group.fresh r.deadline r.implicit now with opened := List.range cores })] }

/-- Its explicit deadline had passed when the RUN was accepted, under ABORT: none of its instructions executes (15 R366). -/
def State.barred (s : State) (n : Nat) : Bool :=
  (s.ctx n).policy = 1 && (s.ctx n).run.elim false (fun r => !r.implicit && r.deadline < r.tick)

def State.startRun (s : State) (n : Nat) : State :=
  match (s.ctx n).run with
  | none => s
  | some r =>
    let cs := s.ctxCores n
    if (s.ctx n).st ≠ .ready || !(s.ctx n).selected || !s.startable n || s.overdue n || s.barred n || cs.any (fun c => (s.core c).ctx.isSome) then s
    else
      let p := (s.ctx n).part
      let base := r.sub.op0.toNat
      let who : Who := { part := p, ctx := some n, core := cs.head?, layer := 0, op := 0 }
      let h := s.readHeaders n base cs
      let bs := plain ((h.bs.drop (base % 256)).take 64)
      if h.stop then
        (h.s.poisonLine who base h.bs).failRun n 5
      else match h.s.headerFails p base bs with
        | some 5 => (h.s.poisonRead who ((h.s.imageStop p base (Nuo.of bs)).getD 0)).failRun n 5
        | some code => h.s.failRun n code
        | none =>
          let u := Nuo.of bs
          let s := h.s.onCtx n (fun x => { x with
            st := .running, run := some (r.begin base u cs.length h.s.time), progTick := h.s.time })
          (s.startCores n r.sub u.entry cs.length cs).wakeStacks (s.mappedStacks p)

def execContextStart (ctx : Fin 4096) (s : State) : Host.Outcome State Fault Refusal := .next (s.startRun ctx)

/-! ### Save and restore (04 R89, R90, 15 R367 to R370) -/

/-- The live ranges and accumulator extent that a save covers. -/
def Regs.liveRanges (g : Regs) : List (Nat × Nat) := g.live.elim [(0, spBytes)] (fun l => l.ranges)
def Regs.liveAcc (g : Regs) : Nat := g.live.elim 0x40000 (fun l => l.accExt)

/-- A `sy.wait` interrupted by preemption executes again after the restore, with the expiry tick that the save holds
(13 R316). -/
def Exec.unheld (x : Exec) : Exec :=
  let x : Exec := { x with ergPos := none, decs := [] }
  match x.hold with
  | .wait _ _ _ _ e _ _ => { x with hold := .clear, savedE := e }
  | _ => x

/-- A core's image; after a fault during the save, every core restarts its open group (19 R469). -/
def State.image (s : State) (c : Nat) (lanes : List Nat) : SavedCore :=
  { x := (s.x c).unheld, ranges := (s.regs c).liveRanges, accExt := (s.regs c).liveAcc, run := (s.core c).run
    vlmax := 16384, lanes := lanes, fenced := (s.core c).ctx.elim false (fun n => (s.ctx n).restart) }

def State.images (s : State) (n : Nat) : Tab SavedCore :=
  let l := s.jobLanes (s.ctx n).part
  (s.heldCores n).foldl (fun t c => Tab.put t (s.core c).logical (s.image c l)) []

/-- The save ends: the images stand in the save area, and the cores are free. -/
def State.endSave (s : State) (n : Nat) : State :=
  if (s.ctx n).st ≠ .saving || s.expiring n then s
  else
    let im := s.images n
    let cs := s.heldCores n
    let s := ((s.noteLeaving n cs).onCores (fun p => { p with ctx := none, run := .idle, x := p.x.removed }) cs).count n 16 1
    let s := s.onCtx n (fun x => { x with st := .saved, preempt := false, restart := false, saved := im })
    s.beginRestores (s.ctxsOf (s.ctx n).part)

def execContextSaveDone (ctx : Fin 4096) (s : State) : Host.Outcome State Fault Refusal := .next (s.endSave ctx)

def inRanges (l : List (Nat × Nat)) (a : Nat) : Bool := l.any (fun r => r.1 ≤ a && a < r.1 + r.2)

/-- The entries of `b` inside the keys of `keep`, over those of `a` outside. -/
def overlay {α : Type} (a b : Tab α) (keep : Nat → Bool) : Tab α :=
  (b.filter (fun e => keep e.1)).foldl (fun t e => Tab.put t e.1 e.2) (a.filter (fun e => !keep e.1))

def Ram.overlay (a b : Ram) (l : List (Nat × Nat)) : Ram :=
  { bytes := Machine.overlay a.bytes b.bytes (inRanges l), poison := Machine.overlay a.poison b.poison (fun g => inRanges l (8 * g)) }

/-- The reload from the table shadow: the current banks and generations, every other bank empty (07 R164). -/
def Expander.reloaded (e : Expander) (shadow : Tab Image) : Expander :=
  { Expander.empty with slots := e.slots.map (fun t => (t.1, TblSlot.holding (Tab.val [] shadow t.1) t.2.gen)) }

/-- The restored state of a core: what the image covers over what the core holds. -/
def SavedCore.onto (k : SavedCore) (x : Exec) (now : Nat) : Exec :=
  { k.x with
    ex := k.x.ex.map (fun e => (e.1, e.2.reloaded k.x.shadow))
    sp := x.sp.overlay k.x.sp k.ranges
    acc := overlay x.acc k.x.acc (fun i => 4 * i < k.accExt)
    accBy := overlay x.accBy k.x.accBy (fun i => 4 * i < k.accExt)
    nextId := max k.x.nextId x.nextId
    progress := now }

/-- Where the core resumes: at the preemption point, at the latest `vx.setvl` when VLMAX differs, after the open
step's marker when a lane count differs, or at the open group when its image came from the capture slot. -/
def SavedCore.resume (k : SavedCore) (x : Exec) (lanes : List Nat) : Exec :=
  if k.fenced then (if k.run = .halted then x else x.reload)
  else if k.vlmax ≠ 16384 then (x.setvl.elim x (fun g => { x with regs := g, savedE := none }))
  else if k.lanes ≠ lanes && k.run ≠ .halted then (x.step.elim x (fun p => x.repeatStep p.rep))
  else x

def SavedCore.bytes (k : SavedCore) : Nat :=
  k.ranges.foldl (fun a r => a + r.2) 0 + k.accExt + 32768 + 2048 + 4096

def State.restoreCores (s : State) (n : Nat) (lanes : List Nat) : List Nat → State
  | [] => s
  | c :: rest =>
    match Tab.at? (s.ctx n).saved (s.core c).logical with
    | none => s.restoreCores n lanes rest
    | some k =>
      let x := k.resume (k.onto (s.x c) s.time) lanes
      let s := s.onCore c (fun p => { p with run := if k.run = .halted then .halted else .running, x := x })
      (s.coreEvent c 0x06 (k.bytes / 256)).restoreCores n lanes rest

/-- The restore ends on every core of the set, and the context runs. -/
def State.endRestore (s : State) (n : Nat) : State :=
  if (s.ctx n).st ≠ .restoring || !s.startable n then s
  else
    let cs := s.ctxCores n
    let x := s.ctx n
    let s := s.onCtx n (fun x => { x with st := .running, restart := false, progTick := s.time })
    let s := s.restoreCores n (s.jobLanes x.part) cs
    (s.onCtx n (fun x => { x with saved := [] })).maybeFinish n

def execContextRestoreDone (ctx : Fin 4096) (s : State) : Host.Outcome State Fault Refusal := .next (s.endRestore ctx)

/-! ### Deadlines (04 R85, 15 R362 to R366) -/

/-- A `sy.wait` with FT = 1 of the context times out in this tick. -/
def PCore.waitDue (p : PCore) (now : Nat) : Bool :=
  match p.x.hold with
  | .wait _ _ _ _ (some e) true since => now > max e since && p.run = .running
  | _ => false

/-- The timeout joins the abort of this tick (15 R366). -/
def State.waitsDue (s : State) (n : Nat) : State :=
  if (s.heldCores n).any (fun c => (s.core c).waitDue s.time) then s.status n 12 else s

/-- An explicit deadline has expired: DEADLINE_MISS counts each, also of RUNs that wait behind other records, then DL_POLICY
decides. A restart that waited for the expiry goes on (15 R366, 19 R469). -/
def State.deadlineExpiry (s : State) (n : Nat) : State :=
  let s := s.missAccs n 10 (s.dueAccs n false)
  if (s.dueAll true n false).isEmpty then s
  else if (s.ctx n).policy = 1 then (s.waitsDue n).abortRun n 2
  else (s.noteDue true n).restartGroup n

def State.lateAll (s : State) (n : Nat) : List Nat → State
  | [] => s
  | g :: r => ((s.onRun n (fun r => r.miss g)).count n 11 1).lateAll n r

/-- An implicit deadline has expired: LATE_COUNT increments, and nothing else happens. -/
def execImplicitDeadlineExpiry (ctx : Fin 4096) (s : State) : Host.Outcome State Fault Refusal :=
  .next ((s.missAccs ctx 11 (s.dueAccs ctx true)).lateAll ctx (s.dueAll true ctx true))

end Sys2Proof.Machine
end

