-- ==== Sys2Proof/Machine/Move.lean ====
section
/-! DEFINITION. The movement class (13 R299 to R311, 11 R261 to R264, 07 R161 to R165) and the expanders' own events. -/

namespace Sys2Proof.Machine

/-! ### Sides of a movement -/

/-- A side: its first byte, the bytes it covers, its rows' length and stride. -/
structure Side where
  va     : Nat
  len    : Nat
  stride : Nat
  row    : Nat
  deriving DecidableEq, Repr

/-- `n` rows of `row` bytes at a stride, at an offset of a descriptor. -/
def sideOf (g : Regs) (d off n row stride : Nat) : Side :=
  { va := baseOf g d + off, len := (n - 1) * stride + row, stride := stride, row := row }

/-- The side lies inside its descriptor's extent and wholly in one area (04 R69, 13 R300). -/
def Side.ok (t : Side) (g : Regs) (d off : Nat) : Bool := inExtent g d off t.len && oneArea t.va t.len

def Side.own (t : Side) (win : Nat) : Bool := (ownOff win t.va t.len).isSome

def rangesMeet (a b : Side) : Bool := a.va < b.va + b.len && b.va < a.va + a.len

/-- The memories of a side outside the own window. -/
def State.sideStacks (s : State) (win p : Nat) (t : Side) : Nat := s.memMask win p t.va t.len

/-- Reads rows in ascending order. -/
def readSide (s : State) (w : Who) (t : Side) : List Nat → List (List PByte) → (State → List (List PByte) → Eff) → Eff
  | [], acc, k => k s acc.reverse
  | r :: rest, acc, k => withData s w (t.va + r * t.stride) t.row (fun s bs => readSide s w t rest (bs :: acc) k)

/-- Writes rows in ascending order. -/
def writeSide (s : State) (w : Who) (t : Side) : Nat → List (List PByte) → (State → Eff) → Eff
  | _, [], k => k s
  | r, bs :: rest, k => withWrite s w (t.va + r * t.stride) bs (fun s => writeSide s w t (r + 1) rest k)

/-- The DMA engine's count of moved bytes. -/
def State.moved (s : State) (w : Who) (n : Nat) : State := (s.countWork w 8 n).actBy w actDma n

/-! ### `dm.copy` (13 R303) -/

end Sys2Proof.Machine

namespace Sys2Proof

open Machine

def DmCopy.rows (f : DmCopy) (g : Regs) : Nat := (g.getS f.sN.toNat).toNat
def DmCopy.row (f : DmCopy) (g : Regs) : Nat := (g.getS f.sB.toNat).toNat
def DmCopy.src (f : DmCopy) (g : Regs) : Side :=
  sideOf g f.aS.toNat (g.getS f.sO.toNat).toNat (f.rows g) (f.row g) (g.getS f.sT.toNat).toNat
def DmCopy.dst (f : DmCopy) (g : Regs) : Side :=
  sideOf g f.aD.toNat (g.getS f.sP.toNat).toNat (f.rows g) (f.row g) (g.getS f.sU.toNat).toNat

def DmXpose.rows (f : DmXpose) (g : Regs) : Nat := (g.getS f.sN.toNat).toNat
def DmXpose.cols (f : DmXpose) (g : Regs) : Nat := (g.getS f.sC.toNat).toNat
def DmXpose.bytes (f : DmXpose) : Nat := 2 ^ f.ew.toNat
def DmXpose.src (f : DmXpose) (g : Regs) : Side :=
  sideOf g f.aS.toNat (g.getS f.sO.toNat).toNat (f.rows g) (f.cols g * f.bytes) (g.getS f.sT.toNat).toNat
def DmXpose.dst (f : DmXpose) (g : Regs) : Side :=
  sideOf g f.aD.toNat (g.getS f.sP.toNat).toNat (f.cols g) (f.rows g * f.bytes) (g.getS f.sU.toNat).toNat

def DmGather.rows (f : DmGather) (g : Regs) : Nat := (g.getS f.sN.toNat).toNat
def DmGather.row (f : DmGather) (g : Regs) : Nat := (g.getS f.sB.toNat).toNat
def DmGather.step (f : DmGather) (g : Regs) : Nat := (g.getS f.sT.toNat).toNat
/-- The source range is all that its descriptor names: the rows are known only as their indices are read. -/
def DmGather.src (f : DmGather) (g : Regs) : Side :=
  { va := baseOf g f.aS.toNat, len := (g.getA f.aS.toNat).2.toNat, stride := f.step g, row := f.row g }
def DmGather.dst (f : DmGather) (g : Regs) : Side :=
  { va := baseOf g f.aD.toNat, len := f.rows g * f.row g, stride := f.row g, row := f.row g }

end Sys2Proof

namespace Sys2Proof.Machine

/-- The conditions of 13 R303 on one side. -/
def copySideBad (t : Side) (n win : Nat) : Bool :=
  t.va % 8 ≠ 0 || (n > 1 && (t.stride % 8 ≠ 0 || (t.stride < t.row && t.own win)))

def dmCopyCheck (c : Nat) (f : DmCopy) (s : State) (n : Nat) (g : Regs) : Check :=
  let win := s.window c
  let a := f.src g
  let b := f.dst g
  let p := (s.ctx n).part
  if f.row g % 8 ≠ 0 || f.row g < 8 || f.row g > 4194304 || f.rows g < 1 || f.rows g > 65536
      || copySideBad a (f.rows g) win || copySideBad b (f.rows g) win
      || !a.ok g f.aS.toNat (g.getS f.sO.toNat).toNat || !b.ok g f.aD.toNat (g.getS f.sP.toNat).toNat
      || rangesMeet a b || (f.rows g > 1 && b.stride < b.row) then illegal
  else
    .ok (sideTag win a.va a.len false ++ sideTag win b.va b.len true) (s.sideStacks win p a ||| s.sideStacks win p b)

def runDmCopy (f : DmCopy) : Effect := fun s c k =>
  let w := s.who c k.regs
  let n := f.rows k.regs
  some (readSide s w (f.src k.regs) (List.range n) [] (fun s rows =>
    writeSide s w (f.dst k.regs) 0 rows (fun s => .done (s.moved w (n * f.row k.regs)))))

def execDmCopy (c : Fin 264) (f : DmCopy) (s : State) : Host.Outcome State Fault Refusal :=
  .next (issue s c 1 .dma (.dmCopy c f) always (dmCopyCheck c f) id (runDmCopy f))

/-! ### `dm.xpose` (13 R305) -/

def dmXposeCheck (c : Nat) (f : DmXpose) (s : State) (n : Nat) (g : Regs) : Check :=
  let win := s.window c
  let a := f.src g
  let b := f.dst g
  if f.ew = 3 || f.rows g < 1 || f.rows g > 4096 || f.cols g < 1 || f.cols g > 4096
      || a.stride % 8 ≠ 0 || b.stride % 8 ≠ 0 || a.stride < a.row || b.stride < b.row
      || !a.ok g f.aS.toNat (g.getS f.sO.toNat).toNat || !b.ok g f.aD.toNat (g.getS f.sP.toNat).toNat
      || !b.own win || rangesMeet a b then illegal
  else .ok (sideTag win a.va a.len false ++ sideTag win b.va b.len true) (s.sideStacks win (s.ctx n).part a)

/-- Row c of the transpose: element r is element (r, c) of the source. -/
def xposeRow (e : Nat) (rows : List (List PByte)) (c : Nat) : List PByte :=
  (rows.map (fun r => (r.drop (c * e)).take e)).flatten

def runDmXpose (f : DmXpose) : Effect := fun s c k =>
  let g := k.regs
  let w := s.who c g
  some (readSide s w (f.src g) (List.range (f.rows g)) [] (fun s rows =>
    writeSide s w (f.dst g) 0 ((List.range (f.cols g)).map (xposeRow f.bytes rows)) (fun s =>
      .done (s.moved w (f.rows g * f.cols g * f.bytes)))))

def execDmXpose (c : Fin 264) (f : DmXpose) (s : State) : Host.Outcome State Fault Refusal :=
  .next (issue s c 1 .dma (.dmXpose c f) always (dmXposeCheck c f) id (runDmXpose f))

/-! ### `dm.gather` (13 R306) -/

def dmGatherCheck (c : Nat) (f : DmGather) (s : State) (n : Nat) (g : Regs) : Check :=
  let win := s.window c
  let a := f.src g
  let b := f.dst g
  match spAt g win f.aI.toNat (4 * f.rows g) with
  | none => illegal
  | some i =>
    if f.row g % 8 ≠ 0 || f.step g % 8 ≠ 0 || f.rows g < 1 || f.rows g > 65536 || !oneArea a.va a.len
        || !b.ok g f.aD.toNat 0 || !b.own win || rangesMeet a b then illegal
    else
      .ok (rd i (4 * f.rows g) :: (sideTag win a.va a.len false ++ sideTag win b.va b.len true))
        (if a.va < 0x10000000000 then 0xFFFF else s.sideStacks win (s.ctx n).part a)

/-- Copies the rows that the indices name, in order; a row that leaves the extent ends the group there. -/
def gatherRows (s : State) (w : Who) (f : DmGather) (g : Regs) : Nat → List W32 → Eff
  | n, [] => .done (s.moved w (n * f.row g))
  | n, i :: r =>
    let off := i.toNat * f.step g
    if !inExtent g f.aS.toNat off (f.row g) then .abort 4 s
    else
      withData s w (baseOf g f.aS.toNat + off) (f.row g) (fun s bs =>
        withWrite s w (baseOf g f.aD.toNat + n * f.row g) bs (fun s => gatherRows s w f g (n + 1) r))

def runDmGather (f : DmGather) : Effect := fun s c k =>
  let w := s.who c k.regs
  let n := f.rows k.regs
  let b := s.readSp w c ((spAt k.regs (s.window c) f.aI.toNat (4 * n)).getD 0) (4 * n)
  some (gatherRows b.1 w f k.regs 0 (wordsOf b.2))

def execDmGather (c : Fin 264) (f : DmGather) (s : State) : Host.Outcome State Fault Refusal :=
  .next (issue s c 1 .dma (.dmGather c f) always (dmGatherCheck c f) id (runDmGather f))

/-! ### `dm.expand` and `dm.pack` (07 R161, 13 R307) -/

def expandBytes (dfmt : Nat) : Nat := fmtBits dfmt / 8

/-- 13 R307: a BF16 or FP16 destination takes RND and SAT, FP32 only RND (07 R161), FP8 E4M3 neither. -/
def dmExpandCheck (c : Nat) (f : DmExpand) (s : State) (n : Nat) (g : Regs) : Check :=
  let win := s.window c
  let k := (g.getS f.sN.toNat).toNat
  let e := f.efmt.toNat
  let d := f.dfmt.toNat
  if e < 9 || e > 12 || d > 3 || f.rnd.toNat > 1 || (d ≠ 3 && f.aC ≠ 0)
      || (d = 3 && f.rnd ≠ 0) || ((d = 0 || d = 3) && f.sat) then illegal
  else
    rangeCheck s n [e, d] 0
      [oneRange g win f.aS.toNat (64 * k) false, oneRange g win f.aD.toNat (k * ergValues e * expandBytes d) true,
       if d = 3 then oneRange g win f.aC.toNat k true else some []]

/-- A value of a block in the destination format. -/
def expandEl (d : Nat) (rd : Round) (sat : Bool) (e : El) : Fl Nat :=
  if d = 3 then .pure e.code else convert d rd sat (e.fp 3)

def runDmExpand (f : DmExpand) : Effect := fun s c k =>
  let g := k.regs
  let w := s.who c g
  let win := s.window c
  let n := (g.getS f.sN.toNat).toNat
  let e := f.efmt.toNat
  let d := f.dfmt.toNat
  if !(s.x c).expanderOpen k.id then none
  else
    let off := (spAt g win f.aS.toNat (64 * n)).getD 0
    let scales := (List.range n).map (fun i => ((s.x c).sp.peek (off + 64 * i)).1)
    let b := readErg s w c k e off n f.da false
    let vs := b.2.map (expandEl d (if f.rnd = 1 then .rtz else .rne) f.sat)
    let len := n * ergValues e * expandBytes d
    let s := b.1.writeSp c ((spAt g win f.aD.toNat len).getD 0) (packElems (fmtBits d) [] (vs.map (fun v => (v.v, false))))
    let s := if d = 3 then s.writeSp c ((spAt g win f.aC.toNat n).getD 0) (clean scales) else s
    some (.done ((s.addFlags c (joinAll (vs.map (fun v => v.f)))).moved w len))

def execDmExpand (c : Fin 264) (f : DmExpand) (s : State) : Host.Outcome State Fault Refusal :=
  .next (issue s c 1 .dma (.dmExpand c f) always (dmExpandCheck c f) id (runDmExpand f))

def dmPackCheck (c : Nat) (f : DmPack) (s : State) (n : Nat) (g : Regs) : Check :=
  let win := s.window c
  let k := (g.getS f.sN.toNat).toNat
  if f.sfmt.toNat > 4 then illegal
  else
    rangeCheck s n [f.sfmt.toNat, 12] 0
      [oneRange g win f.aS.toNat (k * 120 * fmtBits f.sfmt.toNat / 8) false, oneRange g win f.aD.toNat (64 * k) true]

/-- The slot's conditions are those of the table that program order gives it, so they are checked at the start. -/
def runDmPack (f : DmPack) : Effect := fun s c k =>
  let g := k.regs
  let w := s.who c g
  let win := s.window c
  let n := (g.getS f.sN.toNat).toNat
  let t := (((s.x c).expander 0).slot f.slot.toNat).image
  if !(s.x c).expanderOpen k.id then none
  else if !packable t then some (.abort 4 s)
  else
    let r := readOp s w c k { d := f.aS.toNat, fmt := f.sfmt.toNat, rows := 1, cols := 120 * n, stride := 0 } false
    let bs := (chunks 120 n (r.2.headD [])).map (fun b => packBlock t f.slot.toNat (b.map (El.fp f.sfmt.toNat)))
    let s := r.1.writeSp c ((spAt g win f.aD.toNat (64 * n)).getD 0) ((bs.map (fun b => clean b.v)).flatten)
    some (.done ((s.addFlags c (joinAll (bs.map (fun b => b.f)))).moved w (64 * n)))

def execDmPack (c : Fin 264) (f : DmPack) (s : State) : Host.Outcome State Fault Refusal :=
  .next (issue s c 1 .dma (.dmPack c f) always (dmPackCheck c f) id (runDmPack f))

/-! ### `dm.tbl` (07 R162 to R165, 13 R308) -/

def imageSide (g : Regs) (aS sO : Nat) : Side := sideOf g aS (g.getS sO).toNat 1 128 0

def imageOk (g : Regs) (aS sO : Nat) : Bool :=
  let t := imageSide g aS sO
  t.va % 64 = 0 && t.ok g aS (g.getS sO).toNat

def dmTblCoreCheck (c : Nat) (aS sO : Nat) (s : State) (n : Nat) (g : Regs) : Check :=
  let t := imageSide g aS sO
  let win := s.window c
  if imageOk g aS sO then .ok (sideTag win t.va 128 false) (s.sideStacks win (s.ctx n).part t) else illegal

/-- A block still pins the bank that is not current (07 R162). -/
def Expander.otherPinned (e : Expander) (slot : Nat) : Bool :=
  (e.queue ++ e.stream).any (fun b => b.slot = slot && b.pin = some (!(e.slot slot).cur))

/-- Writes the image into the bank that is not current. -/
def TblSlot.writeOther (t : TblSlot) (i : Image) : TblSlot := if t.cur then { t with bankA := i } else { t with bankB := i }

/-- The bank written last becomes current, and the generation goes up. -/
def TblSlot.switch (t : TblSlot) : TblSlot := { t with cur := !t.cur, gen := (t.gen + 1) % 65536 }

def Expander.onSlot (e : Expander) (k : Nat) (f : TblSlot → TblSlot) : Expander :=
  { e with slots := Tab.put e.slots k (f (e.slot k)) }

/-- A table load arrives in an expander (07 R163). -/
def Expander.takeTable (e : Expander) (slot : Nat) (i : Image) (id : Nat) : Expander :=
  let held := e.otherPinned slot
  let e := { e with load := some { slot := slot, image := i, held := held, id := id } }
  if held then e else e.onSlot slot (fun t => t.writeOther i)

def runDmTblCore (aS sO slot : Nat) : Effect := fun s c k =>
  let w := s.who c k.regs
  if !(s.x c).expanderOpen k.id then none
  else
    some (withCtl s w (imageSide k.regs aS sO).va 128 (fun s bs =>
      let i := Image.ofBytes bs
      if !i.valid then .abort 4 s
      else
        let s := s.onX c (fun x =>
          ({ x with ergPos := none }.onExpander 0 (fun e => e.takeTable slot i k.id)).onExpander 1
            (fun e => e.takeTable slot i k.id))
        .done (s.moved w 128)))

def execDmTblCore (c : Fin 264) (aS : BitVec 4) (sO : BitVec 5) (slot : BitVec 4) (s : State) :
    Host.Outcome State Fault Refusal :=
  .next (issue s c 1 .dma (.dmTblCore c aS sO slot) always (dmTblCoreCheck c aS.toNat sO.toNat) id
    (runDmTblCore aS.toNat sO.toNat slot.toNat))

/-- Some page of the stack is mapped in the partition's translation (13 R308). -/
def State.mapsStack (s : State) (p st : Nat) : Bool := p = 0 || (s.mappedStacks p).contains st

def dmTblStackCheck (c : Nat) (aS sO st : Nat) (s : State) (n : Nat) (g : Regs) : Check :=
  let t := imageSide g aS sO
  let p := (s.ctx n).part
  if imageOk g aS sO && s.mapsStack p st then
    .ok (sideTag (s.window c) t.va 128 false) (s.sideStacks (s.window c) p t ||| 2 ^ st)
  else illegal

/-- A request that waits in the stack's wells still pins the bank that is not current (07 R165). -/
def State.wellPinned (s : State) (p st slot : Nat) : Bool :=
  (s.stack st).reqs.any (fun r => r.part = p && r.pins.contains (slot, !((s.part p).well st slot).cur))

/-- The table goes to the wells once no request pins the bank that it takes (07 R163, R165). -/
def runDmTblStack (aS sO slot st : Nat) : Effect := fun s c k =>
  let w := s.who c k.regs
  if s.wellPinned w.part st slot then none
  else some (withCtl s w (imageSide k.regs aS sO).va 128 (fun s bs =>
    let i := Image.ofBytes bs
    if !i.valid then .abort 4 s
    else
      let s := s.onPart w.part (fun p =>
        { p with wells := Tab.put p.wells (st * 16 + slot) ((p.well st slot).writeOther i).switch })
      .done (s.moved w 128)))

def execDmTblStack (c : Fin 264) (aS : BitVec 4) (sO : BitVec 5) (slot : BitVec 4) (st : Fin 16) (s : State) :
    Host.Outcome State Fault Refusal :=
  .next (issue s c 1 .dma (.dmTblStack c aS sO slot st) always (dmTblStackCheck c aS.toNat sO.toNat st) id
    (runDmTblStack aS.toNat sO.toNat slot.toNat st))

/-- Sixteen cycles after the image is written, its bank becomes current (07 R163). -/
def Expander.bankSwitch (e : Expander) : Expander :=
  match e.load with
  | some l => if l.held then e else { e.onSlot l.slot TblSlot.switch with load := none }
  | none => e

def execTableBankSwitch (c : Fin 264) (x : Fin 2) (s : State) : Host.Outcome State Fault Refusal :=
  .next (s.onX c (fun q => q.onExpander x Expander.bankSwitch))

/-- The last block that pinned the bank has left: the held image is written (07 R163). -/
def Expander.loadRelease (e : Expander) : Expander :=
  match e.load with
  | some l =>
    if l.held && !e.otherPinned l.slot then
      { e.onSlot l.slot (fun t => t.writeOther l.image) with load := some { l with held := false } }
    else e
  | none => e

def execTableLoadRelease (c : Fin 264) (x : Fin 2) (s : State) : Host.Outcome State Fault Refusal :=
  .next (s.onX c (fun q => q.onExpander x Expander.loadRelease))

/-! ### Blocks leave an expander (07 R151 to R156) -/

/-- The next block to decode: the stream queue goes first. -/
def Expander.next (e : Expander) : Option (Blk × Expander) :=
  match e.stream, e.queue with
  | b :: r, _ => some (b, { e with stream := r })
  | [], b :: r => some (b, { e with queue := r })
  | [], [] => none

/-- What a decoded block leaves: nothing, or the record of its damage and, with DAMAGE_ABORT, the group's end. -/
def blockLeaves (s : State) (c n : Nat) (b : Blk) : Eff :=
  match b.out with
  | .vals _ _ => .done s
  | .bad cause sub =>
    let w : Who := { part := (s.ctx n).part, ctx := some n, core := some c, layer := b.layer, op := b.op }
    let s := s.ergDamage w n (.core c) 2 c b.slot b.gen cause sub b.addr
    if b.da then .abort 6 s else .done s

/-- Values reach the engine of instruction `id`. -/
def Exec.fed (x : Exec) (id now : Nat) : Exec :=
  match x.inflight.find? (fun k => k.id = id) with
  | some k => x.moves k.eng now
  | none => x

def execErgBlockDecode (c : Fin 264) (x : Fin 2) (s : State) : Host.Outcome State Fault Refusal :=
  .next (match ((s.x c).expander x).next, (s.core c).ctx with
    | some (b, e), some n => (blockLeaves (s.onX c (fun q => (q.onExpander x (fun _ => e)).fed b.id s.time)) c n b).settle n
    | _, _ => s)

/-! ### `dm.atom` (11 R261 to R264, 13 R309) -/

end Sys2Proof.Machine

namespace Sys2Proof

open Machine

def DmAtom.size (f : DmAtom) : Nat := if f.sz then 8 else 4
def DmAtom.n (f : DmAtom) (g : Regs) : Nat := (g.getS f.sE.toNat).toNat
def DmAtom.target (f : DmAtom) (g : Regs) : Side := sideOf g f.aT.toNat (g.getS f.sO.toNat).toNat 1 (f.size * f.n g) 0

def DmAtom.bad (f : DmAtom) (g : Regs) : Bool :=
  let t := f.target g
  f.aop = 7 || (f.sz && 5 ≤ f.aop.toNat) || f.n g < 1 || f.n g > 4096 || t.va % f.size ≠ 0
    || !t.ok g f.aT.toNat (g.getS f.sO.toNat).toNat || (f.aop ≠ 4 && f.aC ≠ 0) || (!f.ret && f.aR ≠ 0)

end Sys2Proof

namespace Sys2Proof.Machine

def dmAtomCheck (c : Nat) (f : DmAtom) (s : State) (n : Nat) (g : Regs) : Check :=
  let win := s.window c
  let t := f.target g
  let len := f.size * f.n g
  if f.bad g then illegal
  else
    rangeCheck s n [] (s.sideStacks win (s.ctx n).part t)
      [oneRange g win f.aV.toNat len false, if f.aop = 4 then oneRange g win f.aC.toNat len false else some [],
       if f.ret then oneRange g win f.aR.toNat len true else some [], some (sideTag win t.va len true)]

/-- A sum rounded once to BF16; an overflow is an accumulation's (02 R38). -/
def faddBf16 (a b : Nat) : Fl Nat :=
  let x := fBF16.dec a
  let y := fBF16.dec b
  let r := toFlt fBF16 .rne false false (x.add y)
  { v := r.v, f := (if r.f.cvtSat && !x.isInf && !y.isInf then Flags.ovf else Flags.none).join (nanFlag [x, y] (x.add y)) }

/-- The new value of an element (11 R261). -/
def atomNew (aop size old v cmp : Nat) : Fl Nat :=
  match aop with
  | 0 => .pure ((old + v) % 2 ^ (8 * size))
  | 1 => .pure (if sgn (8 * size) v < sgn (8 * size) old then v else old)
  | 2 => .pure (if sgn (8 * size) old < sgn (8 * size) v then v else old)
  | 3 => .pure v
  | 4 => .pure (if old = cmp then v else old)
  | 5 =>
    let r := fadd (BitVec.ofNat 32 old) (BitVec.ofNat 32 v)
    { v := r.v.toNat, f := r.f }
  | _ =>
    let lo := faddBf16 (old % 65536) (v % 65536)
    let hi := faddBf16 (old / 65536) (v / 65536)
    { v := lo.v + hi.v * 65536, f := lo.f.join hi.f }

/-- The old value and the state after one element: a poisoned granule stays and gives 0 (11 R264). -/
structure AtomOut where
  s    : State
  old  : Nat
  f    : Flags
  stop : Bool

def atomElement (s : State) (w : Who) (aop size va v cmp : Nat) (first : Bool) : AtomOut :=
  let apply (s : State) (bs : List PByte) (wr : State → List PByte → State) : AtomOut :=
    if anyBad bs then { s := s.poisonRead w (s.poisonAddr w va size bs), old := 0, f := Flags.none, stop := false }
    else
      let old := leNat (plain bs)
      let r := atomNew aop size old v cmp
      { s := wr s (clean (leBytes size r.v)), old := old, f := r.f, stop := false }
  match s.locate w va true with
  | .stack pa =>
    let s := (s.meet pa size).touch w pa size
    apply s (s.readPhys (s.part w.part).key pa size) (fun s bs => s.writePhys (s.part w.part).key pa bs)
  | .window t off => apply s ((s.x t).sp.read off size) (fun s bs => s.onX t (fun x => { x with sp := x.sp.write off bs }))
  | .miss fo => { s := if first then s.missed w fo va else s, old := 0, f := Flags.none, stop := false }
  | .bad k => { s := if first then s.violateBy w k va else s, old := 0, f := Flags.none, stop := false }
  | .poisoned => { s := s.poisonRead w (s.stopAddr w va size), old := 0, f := Flags.none, stop := true }

/-- Elements in ascending order; a refused range counts once for each page, or each window (11 R248, log 77). -/
def atomElements (w : Who) (aop size va0 : Nat) : List (Nat × Nat × Nat) → State → List Nat → Flags → AtomOut × List Nat
  | [], s, olds, f => ({ s := s, old := 0, f := f, stop := false }, olds.reverse)
  | (i, v, cmp) :: r, s, olds, f =>
    let va := va0 + i * size
    let o := atomElement s w aop size va v cmp (i = 0 || va % (if va < 0x10000000000 then 0x200000 else 0x400000) = 0)
    if o.stop then (o, olds.reverse) else atomElements w aop size va0 r o.s (o.old :: olds) (f.join o.f)

def numbersOf (size : Nat) (bs : List PByte) : List Nat :=
  (chunks size (bs.length / size) bs).map (fun b => leNat (plain b))

def runDmAtom (f : DmAtom) : Effect := fun s c k =>
  let g := k.regs
  let w := s.who c g
  let win := s.window c
  let len := f.size * f.n g
  let v := s.readSp w c ((spAt g win f.aV.toNat len).getD 0) len
  let q := if f.aop = 4 then v.1.readSp w c ((spAt g win f.aC.toNat len).getD 0) len else (v.1, [])
  let vs := numbersOf f.size v.2
  let cs := numbersOf f.size q.2
  let es := (List.range (f.n g)).map (fun i => (i, vs.getD i 0, cs.getD i 0))
  let o := atomElements w f.aop.toNat f.size (f.target g).va es q.1 [] Flags.none
  if o.1.stop then some (.abort 5 o.1.s)
  else
    let s := if f.ret then
        o.1.s.writeSp c ((spAt g win f.aR.toNat len).getD 0) ((o.2.map (fun x => clean (leBytes f.size x))).flatten)
      else o.1.s
    some (.done ((s.addFlags c o.1.f).moved w len))

def execDmAtom (c : Fin 264) (f : DmAtom) (s : State) : Host.Outcome State Fault Refusal :=
  .next (issue s c 1 .dma (.dmAtom c f) always (dmAtomCheck c f) id (runDmAtom f))

end Sys2Proof.Machine
end

