-- ==== Sys2Proof/Machine/Reduce.lean ====
section
/-! DEFINITION. Reduction units: shards, chunks, contributions, results, the abandonment of a reduction and the repeat
of a step (16 R394 to R400, R405). -/

namespace Sys2Proof.Machine

/-! ### Shards and chunks (16 R395, R396) -/

/-- The first element of shard `i` of `n` elements over `g` members. -/
def shardLo (n g i : Nat) : Nat := i * n / g
def shardLen (n g i : Nat) : Nat := shardLo n g (i + 1) - shardLo n g i

/-- Elements of a chunk. -/
def chunkMost : Nat := 4096

/-- Header B of RED and RED_RESULT; the element offset counts from the shard's first element (DEDUCED, log 42). -/
def redHdr (step rep kidx jg off : Nat) : Nat :=
  step % 2 ^ 24 + rep * 2 ^ 24 + kidx * 2 ^ 26 + jg * 2 ^ 34 + off / 4 * 2 ^ 42

/-- The fields of a header of RED, RED_RESULT or STEP_RETRY. -/
structure RedKey where
  step : Nat
  rep  : Nat
  kidx : Nat
  jg   : Nat
  off  : Nat
  deriving DecidableEq, Repr

def RedKey.of (h : W64) : RedKey :=
  { step := fld h 0 24, rep := fld h 24 2, kidx := fld h 26 8, jg := fld h 34 8, off := 4 * fld h 42 22 }

/-- Pieces of at most 224 bytes, with the offset of each piece's first byte. -/
def redPieces {α : Type} (bs : List α) : List (Nat × List α) :=
  (chunks 224 bs.length bs).mapIdx (fun i b => (224 * i, b))

/-! ### Contributions -/

def RedFlit.count (w : Nat) (f : RedFlit) : Nat := 8 * f.bytes.length / w

/-- The code of element `e` of the shard, when it has arrived. -/
def Contrib.code (w : Nat) (k : Contrib) (e : Nat) : Option Nat :=
  (k.flits.find? (fun f => f.off ≤ e && e < f.off + f.count w)).map (fun f => (elemAt w (clean f.bytes) (e - f.off)).1)

/-- Every element of `[lo, hi)` has arrived. -/
def Contrib.has (w lo hi : Nat) (k : Contrib) : Bool :=
  !k.bad && (List.range (hi - lo)).all (fun i => (k.code w (lo + i)).isSome)

/-- When the contribution to `[lo, hi)` became complete. -/
def Contrib.arrived (w lo hi : Nat) (k : Contrib) : Nat :=
  (k.flits.filter (fun f => f.off < hi && lo < f.off + f.count w)).foldl (fun a f => max a f.arr) 0

/-- The last flit of a contribution, by its element offset and its bytes, once it has come. -/
def Contrib.tail (k : Contrib) : Option (Nat × Nat) := (k.flits.find? (fun f => f.last)).map (fun f => (f.off, f.bytes.length))

/-- The flits keep to the element count of contribution `a`, as far as that has shown its own: none starts beyond its
last one, and the last ones are alike. A RED flit carries no IFMT, OFMT, ROP or ORD (16 R382, R383): the element count is
what a unit can compare (DEDUCED, log 184). -/
def Contrib.agrees (a k : Contrib) : Bool :=
  match a.tail with
  | none => true
  | some t => k.flits.all (fun f => f.off ≤ t.1 && (!f.last || (f.off, f.bytes.length) = t))

/-! ### The value of a chunk -/

/-- An element of the chunk: the first contribution, then each later one added (16 R396). -/
def chunkElem (p : RedSpec) (ks : List Contrib) (e : Nat) : W32 :=
  match ks.map (fun k => (widen p.ifmt ((k.code (fmtBits p.ifmt) e).getD 0) 127).v) with
  | [] => 0
  | a :: r => r.foldl (fun acc x => (redOp p.rop false acc x).v) a

/-- The contributions in the order of addition. -/
def chunkOrder (p : RedSpec) (lo hi : Nat) (ks : List Contrib) : List Contrib :=
  let w := fmtBits p.ifmt
  let at_ (k : Contrib) : Nat := k.arrived w lo hi
  let lt (i j : Nat) : Bool :=
    match ks[i]?, ks[j]? with
    | some a, some b =>
      if p.ord || at_ a = at_ b then a.member < b.member else at_ a < at_ b
    | _, _ => false
  (sortBy lt (List.range ks.length)).filterMap (fun i => ks[i]?)

/-- The result of `[lo, hi)` in OFMT. An overflow or saturation in the unit sets no context's flags (DESIGN CHOICE, log 165). -/
def chunkBytes (p : RedSpec) (lo hi : Nat) (ks : List Contrib) : List Byte :=
  let ks := chunkOrder p lo hi ks
  ((List.range (hi - lo)).map (fun i =>
    leBytes (fmtBits p.ofmt / 8) (convert p.ofmt .rne p.sat (ofF32 (chunkElem p ks (lo + i)))).v)).flatten

/-! ### Where results go -/

/-- The physical cores that hold a context of the partition. -/
def State.partCores (s : State) (p : Nat) : List Nat :=
  (s.cores.map (fun c => c.1)).filter (fun c => (s.core c).ctx.elim false (fun n => (s.ctx n).part = p))

/-- The open step has the number `step`. -/
def Exec.inStep (x : Exec) (step : Nat) : Bool := x.step.elim false (fun t => t.num.toNat % 2 ^ 24 = step)

/-- The physical cores of a partition with the open step `step`. -/
def State.stepCores (s : State) (p step : Nat) : List Nat := (s.partCores p).filter (fun c => (s.x c).inStep step)

/-- The contexts of a partition whose saved images have the step open. -/
def State.savedSteps (s : State) (p step : Nat) : List Nat :=
  (s.ctxs.filter (fun x => x.2.part = p && x.2.saved.any (fun k => k.2.x.inStep step))).map (fun x => x.1)

/-- Every open step of that number in a partition: on cores, and in the images of saved contexts. -/
def State.openSteps (s : State) (p step : Nat) : List OpenStep :=
  (s.stepCores p step).filterMap (fun c => (s.x c).step)
    ++ (((s.savedSteps p step).map (fun n => (s.ctx n).saved)).flatten).filterMap (fun k =>
      if k.2.x.inStep step then k.2.x.step else none)

/-- The reduction that a core runs under a key. -/
def OwnRed.is (k : RedKey) (o : OwnRed) : Bool :=
  o.jg = k.jg && o.kidx = k.kidx && o.step % 2 ^ 24 = k.step && o.rep = k.rep

/-- `n` elements of shard `i` have come, for address `va`. -/
def OwnRed.take (o : OwnRed) (i n va : Nat) (bs : List Byte) : OwnRed :=
  { o with
    left := (o.left.map (fun l => if l.1 = i then (i, l.2 - n) else l)).filter (fun l => l.2 ≠ 0)
    got := o.got ++ [(va, bs)] }

/-- The result of a reduction lands: every part of it, in the order of its arrival, up to one that a poisoned
translation entry stops (19 R463). -/
def State.landParts (s : State) (w : Who) : List (Nat × List Byte) → Got
  | [] => { s := s, bs := [], stop := false }
  | (va, bs) :: r =>
    let g := s.writeVirt w va (clean bs)
    if g.stop then { g with s := g.s.poisonRead w (g.s.stopAddr w va bs.length) } else g.s.landParts w r

/-- Elements of shard `i` reach reduction `o` of core `c`: it waits for the rest, or its result lands whole. -/
def State.takeResult (s : State) (c : Nat) (o : OwnRed) (i n va : Nat) (bs : List Byte) : State :=
  let o' := o.take i n va bs
  let g : Got := if o'.left.isEmpty then s.landParts (s.who c (s.regs c)) o'.got else { s := s, bs := [], stop := false }
  if g.stop then (s.core c).ctx.elim g.s (fun n => g.s.abortRun n 5)
  else g.s.onX c (fun x => { x.moves .coll s.time with
    reds := (x.reds.map (fun q => if q.id = o.id then o' else q)).filter (fun q => q.id ≠ o.id || !q.left.isEmpty) })

/-- Elements of shard `i` reach the core that waits for them (16 R395). -/
def State.landResult (s : State) (p i : Nat) (k : RedKey) (bs : List Byte) : Option State :=
  match (s.part p).job.bind (fun j => j.group k.jg) with
  | none => none
  | some g =>
    match (s.partCores p).find? (fun c => (s.x c).reds.any (OwnRed.is k)) with
    | none => none
    | some c =>
      match (s.x c).reds.find? (OwnRed.is k) with
      | none => none
      | some o =>
        let len := shardLen o.n g.members.length i
        let w := fmtBits o.ofmt / 8
        let n := min (bs.length / w) (len - k.off)
        let va := o.dst + (shardLo o.n g.members.length i + k.off) * w
        some (s.takeResult c o i n va (bs.take (n * w)))

/-- Sends the pieces of a result to one member. -/
def State.sendResult (s : State) (p dst w : Nat) (k : RedKey) : List (Nat × List Byte) → State
  | [] => s
  | (o, b) :: r =>
    let h := redHdr k.step k.rep k.kidx k.jg (k.off + o / w)
    (s.sendFlit p 5 dst (fun j => mkFlit j dst 0 false r.isEmpty h (clean b))).sendResult p dst w k r

/-- Sends a chunk's result to every member, this one included. -/
def State.sendResults (s : State) (p own w : Nat) (k : RedKey) (bs : List Byte) : List Nat → State
  | [] => s
  | d :: r =>
    (match (s.part p).job with
      | none => s
      | some j =>
        if d = j.rank then (s.landResult p own k bs).getD s
        else s.sendResult p d w k (redPieces bs)).sendResults p own w k bs r

/-! ### A unit's reductions -/

def Reduction.is (p : Nat) (k : RedKey) (r : Reduction) : Bool :=
  r.part = p && r.jg = k.jg && r.kidx = k.kidx && r.step = k.step && r.rep = k.rep

def Reduction.key (r : Reduction) (off : Nat) : RedKey :=
  { step := r.step, rep := r.rep, kidx := r.kidx, jg := r.jg, off := off }

/-- Chunk `c` of a shard of `len` elements. -/
def chunkRange (len c : Nat) : Nat × Nat := (chunkMost * c, min (chunkMost * (c + 1)) len)

/-- The chunks of the shard. -/
def chunkList (len : Nat) : List Nat := List.range (cdiv len chunkMost)

/-- Every member's contribution to `[lo, hi)` is complete. -/
def Reduction.whole (r : Reduction) (members lo hi w : Nat) : Bool :=
  (List.range members).all (fun m => r.got.any (fun k => k.member = m && k.has w lo hi))

def setRed (l : List Reduction) (p : Nat) (k : RedKey) (r : Reduction) : List Reduction :=
  l.map (fun q => if q.is p k then r else q)

/-- Computes the chunks that have become ready, and forgets a reduction that is done. -/
def State.redChunks (s : State) (p q : Nat) (g : JobGroup) (sp : RedSpec) (r : Reduction) : List Nat → State
  | [] =>
    if (chunkList (shardLen sp.n g.members.length g.index)).all (fun c => r.done.contains c) then
      s.onPort q (fun x => { x with reds := x.reds.filter (fun t => !t.is p (r.key 0)) })
    else s.onPort q (fun x => { x with reds := setRed x.reds p (r.key 0) r })
  | c :: rest =>
    let n := chunkRange (shardLen sp.n g.members.length g.index) c
    if r.done.contains c || !r.whole g.members.length n.1 n.2 (fmtBits sp.ifmt) then s.redChunks p q g sp r rest
    else
      let s := s.sendResults p g.index (fmtBits sp.ofmt / 8) (r.key n.1) (chunkBytes sp n.1 n.2 r.got) g.members
      s.redChunks p q g sp { r with done := c :: r.done } rest

/-- The reduction's first contribution. -/
def Reduction.first (r : Reduction) : Option Contrib :=
  ((r.got.filter (fun c => !c.bad && !c.flits.isEmpty)).map (fun c => (c, (c.flits.map (fun f => f.arr)).headD 0))).foldl
    (fun a c => match a with
      | none => some c
      | some b => if c.2 < b.2 then some c else some b) none |>.map (fun c => c.1)

/-- A contribution whose element count differs from that of the first one (16 R396). -/
def Reduction.differs (r : Reduction) (c : Contrib) : Bool := !c.bad && r.first.elim false (fun a => !a.agrees c)

/-- Discards the contributions that differ from the first one, and goes on with the chunks (16 R396). -/
def State.redAdvance (s : State) (p q : Nat) (g : JobGroup) (k : RedKey) : State :=
  match (s.port q).reds.find? (Reduction.is p k) with
  | none => s
  | some r =>
    let s := s.countPart p 8 (r.got.filter r.differs).length
    let r := { r with got := r.got.map (fun c => if r.differs c then { c with bad := true, flits := [] } else c) }
    let s := s.onPort q (fun x => { x with reds := setRed x.reds p k r })
    match r.spec with
    | none => s
    | some sp => s.redChunks p q g sp r (chunkList (shardLen sp.n g.members.length g.index))

/-- A member of the group is held dead. -/
def Job.anyDead (j : Job) (g : JobGroup) : Bool :=
  g.members.any (fun m => (Tab.at? j.members m).elim false (fun x => x.dead.isSome))

/-- The window that a step's reductions take (16 R398). -/
def State.windowOf (s : State) (p step : Nat) (j : Job) : Nat :=
  match (s.openSteps p step).head? with
  | some t => if t.window = 0 then j.window else t.window.toNat
  | none => j.window

def Reduction.fresh (p : Nat) (k : RedKey) : Reduction :=
  { part := p, jg := k.jg, kidx := k.kidx, step := k.step, rep := k.rep, spec := none, start := 0, length := 0
    frozen := false, got := [], seen := 0, done := [] }

/-- What an abandoned reduction leaves: the REPEAT that it goes on with, or after REPEAT 3 that none does (16 R399). -/
def Reduction.mark (r : Reduction) : Bool := r.got.isEmpty && r.spec.isNone

/-- A REPEAT is older than the one that the reduction has. After exhaustion every REPEAT but 0 is, which begins a rerun of
the step (DEDUCED, log 185). -/
def Reduction.newer (r : Reduction) (rep : Nat) : Bool := if r.rep = 4 then rep ≠ 0 else rep < r.rep

/-- The reduction of these keys, whatever its REPEAT. -/
def Reduction.about (p : Nat) (k : RedKey) (r : Reduction) : Bool :=
  r.part = p && r.jg = k.jg && r.kidx = k.kidx && r.step = k.step

/-- The REPEAT is older than the step's present one: a core of the module has resumed with a higher one, or the unit
has abandoned this one (16 R399). -/
def State.oldRepeat (s : State) (p q : Nat) (k : RedKey) : Bool :=
  (s.openSteps p k.step).any (fun t => k.rep < t.rep)
    || (s.port q).reds.any (fun r => r.about p k && r.newer k.rep)

/-- The reduction of a key in a unit, begun where it is new; its window starts with its first flit (16 R398). -/
def State.redOpen (s : State) (p q : Nat) (j : Job) (g : JobGroup) (k : RedKey) : Reduction :=
  let r := ((s.port q).reds.find? (Reduction.is p k)).getD (Reduction.fresh p k)
  if r.got.isEmpty then { r with start := s.time, length := s.windowOf p k.step j, frozen := j.anyDead g } else r

/-- A new one ends what exhaustion left of its keys. -/
def addRed (l : List Reduction) (p : Nat) (k : RedKey) (r : Reduction) : List Reduction :=
  if l.any (Reduction.is p k) then setRed l p k r else l.filter (fun x => !(x.about p k && x.rep = 4)) ++ [r]

def State.putRed (s : State) (p q : Nat) (k : RedKey) (r : Reduction) : State :=
  s.onPort q (fun x => { x with reds := addRed x.reds p k r })

/-- One flit of member `m`'s contribution; `bad` for one with a damaged granule, which discards the contribution
(19 R464). -/
def Reduction.add (r : Reduction) (m off : Nat) (last bad : Bool) (bs : List Byte) : Reduction :=
  let f : RedFlit := { off := off, arr := r.seen, last := last, bytes := bs }
  let c := (r.got.find? (fun c => c.member = m)).getD { member := m, flits := [], bad := false }
  let c := if c.bad || bad then { c with bad := true, flits := [] } else { c with flits := c.flits ++ [f] }
  { r with seen := r.seen + 1, got := r.got.filter (fun c => c.member ≠ m) ++ [c] }

/-! ### The repeat of a step (16 R399, R400) -/

/-- Flits not yet sent that carry contributions of logical core `l` of the job with this tag. -/
def keptRed (tag l : Nat) (t : TxFlit) : Bool :=
  !(t.ty = 4 && t.flit.jobTag.toNat = tag && t.flit.score.toNat = l)

/-- Takes a core's contributions out of the units and the ports. -/
def State.dropSteps (s : State) (p c : Nat) : State :=
  let tag := (s.part p).job.elim 256 (fun j => j.tag)
  let l := (s.core c).logical
  let s := (s.abortPut c).dropReds p false (s.x c).reds
  { s with ports := s.ports.map (fun k => (k.1, { k.2 with waiting := k.2.waiting.filter (keptRed tag l) })) }

/-- A `cl.reduce` of the step that is outstanding on a core, whether or not the core is still in the step, is abandoned
(16 R400, 13 R322). -/
def State.dropStepReds (s : State) (p step : Nat) : List Nat → State
  | [] => s
  | c :: r =>
    let mine (o : OwnRed) : Bool := o.step % 2 ^ 24 = step
    ((s.dropReds p false ((s.x c).reds.filter mine)).onX c (fun x => { x with
      reds := x.reds.filter (fun o => !mine o) })).dropStepReds p step r

/-- A member acts on the first STEP_RETRY for a step and a REPEAT; each JOIN causes one repeat: `jc` counts the JOINs
that the partition has accepted, and a retry for a JOIN that it has still to accept is known by a sender that has not sent
one since the last (16 R400, R407; DESIGN CHOICE, log 45). -/
def OpenStep.acts (t : OpenStep) (rep : Nat) (join : Bool) (who jc : Nat) : Bool :=
  if join then t.joined < jc || t.joins.isEmpty || t.joins.contains who else t.rep < rep && !t.acted.contains rep

def OpenStep.noted (t : OpenStep) (rep : Nat) (join : Bool) (who jc : Nat) : OpenStep :=
  if !t.acts rep join who jc then { t with joins := if join then who :: t.joins else t.joins }
  else if join then { t with joins := [who], joined := t.joined + 1 }
  else { t with acted := rep :: t.acted }

/-- An open step, with the note of the retry, and whether the retry is acted on. -/
def Exec.retry (x : Exec) (rep : Nat) (join : Bool) (who jc : Nat) : Exec :=
  match x.step with
  | none => x
  | some t =>
    let y : Exec := { x with step := some (t.noted rep join who jc) }
    if t.acts rep join who jc then y.repeatStep rep else y

def Exec.acts (x : Exec) (rep : Nat) (join : Bool) (who jc : Nat) : Bool :=
  x.step.elim false (fun t => t.acts rep join who jc)

def State.retryCores (s : State) (p step rep : Nat) (join : Bool) (who jc : Nat) : List Nat → State
  | [] => s
  | c :: r =>
    let s := if (s.x c).acts rep join who jc then
        let s := (s.dropSteps p c).coreEvent c 0x0C (step + rep * 2 ^ 24 + b2n join * 2 ^ 26)
        s.onCore c (fun k => { k with run := if k.run = .stopped then .running else k.run })
      else s
    (s.onX c (fun x => x.retry rep join who jc)).retryCores p step rep join who jc r

/-- The contexts of cores. -/
def State.ctxsOn (s : State) (cs : List Nat) : List Nat := (cs.filterMap (fun c => (s.core c).ctx)).eraseDups

def State.countAll (s : State) (i : Nat) : List Nat → State
  | [] => s
  | n :: r => (s.count n i 1).countAll i r

def State.abortAll (s : State) (code : Nat) : List Nat → State
  | [] => s
  | n :: r => (s.abortRun n code).abortAll code r

/-- A saved context goes back to its marker too. -/
def Ctx.retrySaved (x : Ctx) (step rep : Nat) (join : Bool) (who jc : Nat) : Ctx :=
  { x with saved := x.saved.map (fun k =>
      (k.1, if k.2.x.inStep step then { k.2 with x := k.2.x.retry rep join who jc } else k.2)) }

def State.retrySaveds (s : State) (step rep : Nat) (join : Bool) (who jc : Nat) : List Nat → State
  | [] => s
  | n :: r => (s.onCtx n (fun x => x.retrySaved step rep join who jc)).retrySaveds step rep join who jc r

/-- The reductions of a step count from 0 again (16 R394). -/
def State.recountStep (s : State) (p step : Nat) : State :=
  s.onPart p (fun q => { q with stepReds := Tab.del q.stepReds step })

/-- STEP_RETRY from rank `src` reaches a member. REPEAT 0 without the JOIN cause marks exhaustion. -/
def State.stepRetry (s : State) (p src : Nat) (k : RedKey) (join : Bool) : Option State :=
  let cs := s.stepCores p k.step
  let old := s.savedSteps p k.step
  let who := src * 2 ^ 16 + k.jg * 256 + k.kidx
  let jc := (s.part p).joins
  if cs.isEmpty && old.isEmpty then none
  else if k.rep = 0 && !join then some (s.abortAll 8 (s.ctxsOn cs ++ old).eraseDups)
  else
    let acting := s.ctxsOn (cs.filter (fun c => (s.x c).acts k.rep join who jc))
      ++ old.filter (fun n => (s.ctx n).saved.any (fun x => x.2.x.inStep k.step && x.2.x.acts k.rep join who jc))
    let s := s.countAll 15 acting.eraseDups
    let s := if acting.isEmpty then s else (s.recountStep p k.step).dropStepReds p k.step (s.partCores p)
    some ((s.retryCores p k.step k.rep join who jc cs).retrySaveds k.step k.rep join who jc old)

/-- Sends STEP_RETRY to every member of a group, and acts on it here. -/
def State.sendRetry (s : State) (p : Nat) (k : RedKey) (join : Bool) : List Nat → State
  | [] => s
  | d :: r =>
    (match (s.part p).job with
      | none => s
      | some j =>
        if d = j.rank then (s.stepRetry p j.rank k join).getD s
        else s.sendFlit p 6 d (fun j =>
          mkFlit j d 0 false true (redHdr k.step k.rep k.kidx k.jg 0 + b2n join * 2 ^ 42) [])).sendRetry p k join r

/-- The unit's reductions once reduction `r` is abandoned: its next REPEAT, which may run already, is remembered. -/
def abandonRed (r : Reduction) (l : List Reduction) : List Reduction :=
  let next := { Reduction.fresh r.part (r.key 0) with rep := r.rep + 1 }
  let l := l.filter (fun x => !x.is r.part (r.key 0))
  if l.any (fun x => x.about r.part (r.key 0) && x.rep = next.rep) then l else l ++ [next]

/-- The reduction is abandoned when its window expires with a contribution missing: what it holds is discarded and
counted, and STEP_RETRY goes out with the next REPEAT, or marks exhaustion after REPEAT 3 (16 R399). -/
def State.abandon (s : State) (q : Nat) (r : Reduction) : State :=
  let s := s.countPart r.part 8 (r.got.filter (fun c => !c.bad)).length
  let s := s.onPort q (fun x => { x with reds := abandonRed r x.reds })
  match (s.part r.part).job.bind (fun j => j.group r.jg) with
  | none => s
  | some g =>
    s.sendRetry r.part { r.key 0 with rep := if r.rep ≥ 3 then 0 else r.rep + 1 } false g.members

/-- The tick lies past the window's expiry; one in the expiry tick still counts (16 R398). -/
def Reduction.expired (r : Reduction) (now : Nat) : Bool := !r.got.isEmpty && !r.frozen && now > r.start + 40 * r.length

/-- A contribution that comes after the expiry tick finds its reduction abandoned (14 R347). -/
def State.redExpire (s : State) (p q : Nat) (k : RedKey) : State :=
  match (s.port q).reds.find? (Reduction.is p k) with
  | none => s
  | some r => if r.expired s.time then s.abandon q r else s

/-- This module's own `cl.reduce` gives the reduction its parameters. -/
def State.redSpec (s : State) (p q : Nat) (j : Job) (g : JobGroup) (k : RedKey) (sp : RedSpec) : State :=
  let s := s.redExpire p q k
  if s.oldRepeat p q k then s
  else
    let r := s.redOpen p q j g k
    s.putRed p q k { r with spec := some (r.spec.getD sp) }

/-- A flit of a contribution reaches the unit of this module. A discarded contribution counts once, with its last flit. -/
def State.redReceive (s : State) (p q : Nat) (j : Job) (g : JobGroup) (k : RedKey) (m : Nat) (last bad : Bool)
    (bs : List Byte) : State :=
  let s := s.redExpire p q k
  if s.oldRepeat p q k then s.countPart p 8 (b2n last)
  else
    let r := s.redOpen p q j g k
    let gone := r.got.any (fun c => c.member = m && c.bad)
    let s := if bad && !gone then s.countPart p 8 1 else s
    (s.putRed p q k (r.add m k.off last bad bs)).redAdvance p q g k

/-- Contributions to a group that holds the rejoined member are gone, and their steps repeat (16 R405). -/
def State.rejoinReds (s : State) (p : Nat) (j : Job) : List Reduction → State
  | [] => s
  | r :: rest =>
    (match j.group r.jg with
      | none => s
      | some g => s.sendRetry p { r.key 0 with rep := 0 } true g.members).rejoinReds p j rest

end Sys2Proof.Machine
end

