-- ==== Sys2Proof/Machine/Coll.lean ====
section
/-! DEFINITION. The collective class: remote writes, contributions, steps and time alignment (13 R319 to R324). -/

namespace Sys2Proof.Machine

/-- The context has issued a cl instruction for its job (16 R402). -/
def State.usesCl (s : State) (n : Nat) : State := s.onCtx n (fun x => { x with usedCl := true })

/-- The job and the job group that an instruction names, when both are configured. -/
def State.clGroup (s : State) (n jg : Nat) : Option (Job × JobGroup) :=
  (s.part (s.ctx n).part).job.bind (fun j => (j.group jg).map (fun g => (j, g)))

/-- Issues a cl instruction of the collective engine; one that has issued counts for the epoch rule. -/
def issueCl (s : State) (c : Nat) (i : Instr) (ready : State → Nat → Bool) (check : State → Nat → Regs → Check)
    (run : Effect) : State :=
  let t := issue s c 1 .coll i ready check id run
  match (s.core c).ctx with
  | some n => if (t.x c).nextId = (s.x c).nextId then t else t.usesCl n
  | none => t

/-- A member that is marked lost (16 R406). -/
def Job.isLost (j : Job) (r : Nat) : Bool := (Tab.at? j.members r).elim false (fun m => m.lost)

end Sys2Proof.Machine

namespace Sys2Proof

open Machine

def ClPut.len (f : ClPut) (g : Regs) : Nat := (g.getS f.sL.toNat).toNat
def ClPut.va (f : ClPut) (g : Regs) : Nat := (g.getS f.sA.toNat).toNat
/-- The destination's rank in the job. -/
def ClPut.dst (f : ClPut) (g : Regs) (t : JobGroup) : Option Nat := t.members[(g.getS f.sM.toNat).toNat]?

def ClReduce.n (f : ClReduce) (g : Regs) : Nat := (g.getS f.sN.toNat).toNat
def ClReduce.spec (f : ClReduce) (g : Regs) (isSealed : Bool) : RedSpec :=
  { n := f.n g, rop := f.rop.toNat, ifmt := f.ifmt.toNat, ofmt := f.ofmt.toNat, ord := f.ord || isSealed, sat := f.sat }
def ClReduce.inBytes (f : ClReduce) (g : Regs) : Nat := f.n g * (fmtBits f.ifmt.toNat / 8)
def ClReduce.outBytes (f : ClReduce) (g : Regs) : Nat := f.n g * (fmtBits f.ofmt.toNat / 8)

end Sys2Proof

namespace Sys2Proof.Machine

/-! ### `cl.put` (13 R320, 16 R392) -/

/-- The key of the count of writes from a logical core to a rank. -/
def putKey (l dst : Nat) : Nat := l * 4096 + dst

/-- The rank that an instruction of the core writes to. -/
def State.putDst (s : State) (n : Nat) (f : ClPut) (g : Regs) : Option Nat :=
  (s.clGroup n f.jg.toNat).bind (fun t => f.dst g t.2)

/-- Writes of this core to the rank that wait in the engine's queue. -/
def State.putsQueued (s : State) (c n dst : Nat) : Nat :=
  ((s.x c).queue.filter (fun k => match k.instr with
    | .clPut _ f => s.putDst n f k.regs = some dst
    | _ => false)).length

/-- A core with 1,024 unacknowledged writes to a module holds its next `cl.put` to it. -/
def clPutReady (f : ClPut) (s : State) (c : Nat) : Bool :=
  match (s.core c).ctx with
  | none => true
  | some n =>
    match s.putDst n f (s.regs c) with
    | none => true
    | some d =>
      Tab.val 0 (s.part (s.ctx n).part).unacked (putKey (s.core c).logical d) + s.putsQueued c n d < 1024

def clPutCheck (c : Nat) (f : ClPut) (s : State) (n : Nat) (g : Regs) : Check :=
  match s.clGroup n f.jg.toNat with
  | none => illegal
  | some (j, t) =>
    let a := baseOf g f.aS.toNat
    let len := f.len g
    match f.dst g t with
    | none => illegal
    | some d =>
      if d = j.rank || len % 8 ≠ 0 || len < 8 || len > 16777216 || f.va g % 8 ≠ 0 || (f.sg && !f.fin)
          || (!f.sg && f.sG ≠ 0) || (f.sg && badSigHandle (g.getS f.sG.toNat))
          || !inExtent g f.aS.toNat 0 len || !oneArea a len then illegal
      else .ok (sideTag (s.window c) a len false) (s.memMask (s.window c) (s.ctx n).part a len)

/-- A write's flits of at most 232 bytes (16 R382, R383). -/
def State.sendPuts (s : State) (p l dst va seq : Nat) (fin first : Bool) : List (List PByte) → State
  | [] => s
  | b :: r =>
    (s.sendFlit p 1 dst (fun j =>
      { mkFlit j dst l fin r.isEmpty (va % 2 ^ 48 + seq * 2 ^ 48) b with first := first })).sendPuts p l dst
      (va + 232) seq fin false r

/-- The port by which this module reaches a rank, for its counts. -/
def State.discardAt (s : State) (q : Nat) : State := s.onPort q (fun x => { x with discarded := x.discarded + 1 })

def State.discardTo (s : State) (j : Job) (dst : Nat) : State :=
  match s.route j 1 j.rank dst with
  | some q => s.discardAt q
  | none => s

/-- Sends a write and its signal: its number, and the count of writes not acknowledged. A dead member is sent nothing
and owes no acknowledgement (16 R404). -/
def State.putSend (s : State) (p c id : Nat) (f : ClPut) (g : Regs) (j : Job) (dst : Nat) (bs : List PByte) : State :=
  let l := (s.core c).logical
  let key := putKey l dst
  let seq := Tab.val 0 (s.part p).msgseq key
  let s := s.onPart p (fun q => { q with
    msgseq := Tab.put q.msgseq key ((seq + 1) % 65536)
    unacked := if j.reachable dst then Tab.put q.unacked key (Tab.val 0 q.unacked key + 1) else q.unacked })
  let s := (s.countPart p 6 bs.length).sendPuts p l dst (f.va g) seq f.fin true (chunks 232 bs.length bs)
  let s := s.onX c (fun x => { x with puts := (id, dst, seq) :: x.puts })
  if f.sg then
    s.sendFlit p 2 dst (fun j => mkFlit j dst l false true ((g.getS f.sG.toNat).toNat + seq * 2 ^ 48) [])
  else s

def runClPut (f : ClPut) : Effect := fun s c k =>
  let w := s.who c k.regs
  match w.ctx with
  | none => some (.done s)
  | some n =>
    let s := s.usesCl n
    some (withData s w (baseOf k.regs f.aS.toNat) (f.len k.regs) (fun s bs =>
      match s.clGroup n f.jg.toNat with
      | none => .done s
      | some (j, t) =>
        match f.dst k.regs t with
        | none => .done s
        | some d =>
          if j.isLost d then .done (s.discardTo j d)
          else .done ((s.putSend w.part c k.id f k.regs j d bs).actBy w actFlit (cdiv bs.length 232))))

def execClPut (c : Fin 264) (f : ClPut) (s : State) : Host.Outcome State Fault Refusal :=
  .next (issueCl s c (.clPut c f) (clPutReady f) (clPutCheck c f) (runClPut f))

/-- Flits of a write that have not all been sent. -/
def State.putWaits (s : State) (c id : Nat) : Bool :=
  let tag := (s.part (s.workOf c).part).job.elim 256 (fun j => j.tag)
  let l := (s.core c).logical
  (s.x c).puts.any (fun u => u.1 = id && s.ports.any (fun q => q.2.waiting.any (fun t =>
    t.ty = 1 && t.flit.jobTag.toNat = tag && t.flit.score.toNat = l && t.flit.dst.toNat = u.2.1
      && fld t.flit.hdrB 48 16 = u.2.2)))

/-! ### `cl.reduce` (13 R321, 16 R394, R395) -/

def isReduce (jg : Nat) (i : Instr) : Bool :=
  match i with
  | .clReduce _ f => f.jg.toNat = jg
  | _ => false

def anyReduce (i : Instr) : Bool :=
  match i with
  | .clReduce _ _ => true
  | _ => false

/-- The reductions on a job group that the module has started within a step (16 R394). -/
def State.stepCount (s : State) (p step jg : Nat) : Nat := Tab.val 0 (Tab.val [] (s.part p).stepReds step) jg

/-- With those that wait in the cores' engines. -/
def State.stepIssued (s : State) (p step jg : Nat) : Nat :=
  s.stepCount p step jg
    + (s.partCores p).foldl (fun a c => a + ((s.x c).queue.filter (fun k =>
        isReduce jg k.instr && k.step.elim false (fun t => t.1 = step))).length) 0

def redFmt (f : Nat) : Bool := f = 0 || f = 1 || f = 3 || f = 4

def clReduceCheck (c : Nat) (f : ClReduce) (s : State) (n : Nat) (g : Regs) : Check :=
  match s.clGroup n f.jg.toNat, (s.x c).step with
  | some (j, t), some st =>
    let p := (s.ctx n).part
    let a := baseOf g f.aS.toNat
    let b := baseOf g f.aD.toNat
    if f.rop = 3 || (f.sat && f.ofmt ≠ 3) || !redFmt f.ifmt.toNat || !redFmt f.ofmt.toNat || f.n g < 1 || f.n g > 16777216
        || s.stepIssued p (st.num.toNat % 2 ^ 24) f.jg.toNat ≥ 256
        || !inExtent g f.aS.toNat 0 (f.inBytes g) || !inExtent g f.aD.toNat 0 (f.outBytes g)
        || !oneArea a (f.inBytes g) || !oneArea b (f.outBytes g) then illegal
    else if t.members.any j.isLost then .fail 9
    else if !s.inSet n [f.ifmt.toNat, f.ofmt.toNat] then mismatch
    else .ok (sideTag (s.window c) a (f.inBytes g) false ++ sideTag (s.window c) b (f.outBytes g) true)
      (s.memMask (s.window c) p a (f.inBytes g) ||| s.memMask (s.window c) p b (f.outBytes g))
  | _, _ => illegal

/-- Contributes to one shard: at the own unit, or in RED flits to the shard's member. -/
def State.redPiecesOut (s : State) (p c i dst w : Nat) (k : RedKey) (j : Job) (g : JobGroup) :
    List (Nat × List PByte) → State
  | [] => s
  | (o, b) :: r =>
    let k' := { k with off := o / w }
    (if dst = j.rank then s.redReceive p g.port j g k' i r.isEmpty (anyBad b) (plain b)
     else (s.countPart p 6 b.length).sendFlit p 4 dst (fun j =>
       mkFlit j dst (s.core c).logical false r.isEmpty (redHdr k.step k.rep k.kidx k.jg (o / w)) b)).redPiecesOut
      p c i dst w k j g r

/-- The contribution of member `own` to every shard. -/
def State.redShards (s : State) (p c n w : Nat) (k : RedKey) (j : Job) (g : JobGroup) (bs : List PByte) :
    List Nat → State
  | [] => s
  | i :: r =>
    let lo := shardLo n g.members.length i
    let b := (bs.drop (lo * w)).take (shardLen n g.members.length i * w)
    (s.redPiecesOut p c g.index (g.members.getD i 0) w k j g (redPieces b)).redShards p c n w k j g bs r

/-- The shards that hold elements. -/
def fullShards (n g : Nat) : List (Nat × Nat) :=
  ((List.range g).map (fun i => (i, shardLen n g i))).filter (fun l => l.2 ≠ 0)

/-- The core's reduction begins: its KIDX is taken, and its result is awaited. -/
def State.redBegin (s : State) (p c : Nat) (o : OwnRed) : State :=
  let t := Tab.val [] (s.part p).stepReds o.step
  (s.onPart p (fun q => { q with stepReds := Tab.put q.stepReds o.step (Tab.put t o.jg (Tab.val 0 t o.jg + 1)) })).onX c
    (fun x => { x with
      reds := x.reds ++ [o]
      step := if x.inStep o.step then x.step.map (fun t => { t with kidx := Tab.put t.kidx o.jg (Tab.val 0 t.kidx o.jg + 1) })
              else x.step })

/-- Starts a reduction of the step `st`, the one that was open as it issued: number and REPEAT. -/
def State.redStart (s : State) (c n : Nat) (k : Issued) (f : ClReduce) (st : Nat × Nat) (j : Job) (g : JobGroup)
    (bs : List PByte) : State :=
  let p := (s.ctx n).part
  let sp := f.spec k.regs (s.sealed p)
  let key : RedKey := { step := st.1, rep := st.2, kidx := s.stepCount p st.1 f.jg.toNat, jg := f.jg.toNat, off := 0 }
  let w := fmtBits sp.ifmt / 8
  let own : OwnRed := { id := k.id, jg := key.jg, kidx := key.kidx, step := st.1, rep := st.2, n := sp.n, ofmt := sp.ofmt
                        dst := baseOf k.regs f.aD.toNat
                        stks := s.memMask (s.window c) p (baseOf k.regs f.aD.toNat) (f.outBytes k.regs), left := fullShards sp.n g.members.length, got := [] }
  let s := s.redBegin p c own
  let s := if shardLen sp.n g.members.length g.index = 0 then s else s.redSpec p g.port j g key sp
  s.redShards p c sp.n w key j g bs (List.range g.members.length)

def runClReduce (f : ClReduce) : Effect := fun s c k =>
  let w := s.who c k.regs
  match w.ctx with
  | none => some (.done s)
  | some n =>
    let s := s.usesCl n
    some (withData s w (baseOf k.regs f.aS.toNat) (f.inBytes k.regs) (fun s bs =>
      match s.clGroup n f.jg.toNat, k.step with
      | some (j, g), some st => .done ((s.redStart c n k f st j g bs).actBy w actElem (f.n k.regs))
      | _, _ => .done s))

def execClReduce (c : Fin 264) (f : ClReduce) (s : State) : Host.Outcome State Fault Refusal :=
  .next (issueCl s c (.clReduce c f) always (clReduceCheck c f) (runClReduce f))

/-! ### `cl.step` (13 R322) -/

/-- An earlier `cl.reduce` of the core has neither completed nor been abandoned. -/
def Exec.reducing (x : Exec) : Bool :=
  !x.reds.isEmpty || x.queue.any (fun k => anyReduce k.instr)
    || x.inflight.any (fun k => anyReduce k.instr && x.reds.any (fun o => o.id = k.id))

/-- The step opens at the marker, with the state of the instruction after it; `jc` JOINs lie behind it. -/
def Exec.openStep (x : Exec) (num window : W32) (lanes : List Nat) (jc : Nat) : Exec :=
  { x with step := some { num := num, window := window, kidx := [], rep := 0, cap := x.capture, lanes := lanes
                          mark := x.nextId, joins := [], acted := [], joined := jc } }

/-- What an earlier step of this number left is over, once no core of the partition is in it: its reductions count from 0,
and no REPEAT of it is remembered (16 R394, R399; DEDUCED, log 185). -/
def State.newStep (s : State) (p step : Nat) : State :=
  if (s.openSteps p step).isEmpty then
    let s : State := { s with ports := s.ports.map (fun q => (q.1, { q.2 with
      reds := q.2.reds.filter (fun r => !(r.part = p && r.step = step && r.mark)) })) }
    s.recountStep p step
  else s

def execClStep (c : Fin 264) (sS sW : BitVec 5) (s : State) : Host.Outcome State Fault Refusal :=
  .next (fetched s c (.clStep c sS sW) (fun s n _ g =>
    let p := (s.ctx n).part
    if (s.part p).job.isNone then .abort 4 s
    else if (s.x c).reducing then .done s
    else
      let lanes := s.jobLanes p
      let num := (g.getS sS.toNat).setWidth 32
      let s := (((s.usesCl n).onX c (fun x => { x with step := none })).newStep p (num.toNat % 2 ^ 24)).pass c 1 id
      .done (s.onX c (fun x => x.openStep num ((g.getS sW.toNat).setWidth 32) lanes (s.part p).joins))))

/-! ### `cl.timesync` (13 R323, 16 R401) -/

def execClTimesync (c : Fin 264) (sD : BitVec 5) (jg : BitVec 8) (s : State) : Host.Outcome State Fault Refusal :=
  .next (fetched s c (.clTimesync c sD jg) (fun s n _ _ =>
    match s.startSync (s.ctx n).part jg.toNat with
    | none => .abort 4 s
    | some (s, ports) =>
      let s := s.usesCl n
      if ports.isEmpty then .done (s.endHold c sD.toNat 0)
      else .done (s.onX c (fun x => { x with hold := .timesync sD ports 0 }))))

end Sys2Proof.Machine
end

