-- ==== Sys2Proof/Machine/Debug.lean ====
section
/-! DEFINITION. The debug class: tensor watches and user events (13 R325 to R328, 21 R504, R505). -/

namespace Sys2Proof.Machine

/-- An element of a watch as its 32-bit value (06 R123). -/
structure Watched where
  v   : W32
  int : Bool
  sub : Bool
  f   : Flags
  deriving DecidableEq, Repr

/-- A subnormal encoding of a floating-point format, MX elements by their element encoding. -/
def isSub (f c : Nat) : Bool :=
  let t := fmtFlt f
  !fmtIsInt f && c / 2 ^ t.fb % 2 ^ t.eb = 0 && c % 2 ^ t.fb ≠ 0

def El.watched (f : Nat) (e : El) : Watched :=
  { v := (e.word f).v, int := fmtIsInt f && !e.bad, sub := !e.bad && isSub f e.code, f := (e.word f).f }

/-- The value as FP32: an integer converts exactly. -/
def Watched.fp (x : Watched) : W32 := if x.int then (toF32 (Fp.ofInt (i32 x.v))).v else x.v

def isNan32 (x : W32) : Bool := (ofF32 x).isNan
def isInf32 (x : W32) : Bool := (ofF32 x).isInf

/-- Minimum or maximum over the elements that are not NaN. -/
def watchBest (op : W32 → W32 → W32) (xs : List W32) : W32 :=
  match xs.filter (fun x => !isNan32 x) with
  | [] => fNaN
  | a :: r => r.foldl op a

/-- The FP32 sum by the order of 06 R140, the NaN elements inactive. -/
def watchSum (xs : List W32) (term : W32 → Fl W32) : Fl W32 :=
  let r := reduceGroup 0 false (xs.map (fun x => ((term x).v, !isNan32 x)))
  { r with f := (joinAll ((xs.filter (fun x => !isNan32 x)).map (fun x => (term x).f))).join r.f }

def statSum (xs : List W32) : Fl W32 := watchSum xs Fl.pure
def statSquares (xs : List W32) : Fl W32 := watchSum xs (fun x => fmul x x)

/-- The flags of a watch: those of its elements and, in statistics mode, of its sums (02 R38). -/
def watchFlags (wm : Bool) (ws : List Watched) : Flags :=
  let xs := ws.map Watched.fp
  (joinAll (ws.map (fun x => x.f))).join (if wm then Flags.none else (statSum xs).f.join (statSquares xs).f)

/-- The BODY of a watch in statistics mode (21 R504). -/
def statBody (fmt : Nat) (ws : List Watched) : List Byte :=
  let xs := ws.map Watched.fp
  leBytes 4 (watchBest fmin xs).toNat ++ leBytes 4 (watchBest fmax xs).toNat ++ leBytes 4 (statSum xs).v.toNat
    ++ leBytes 4 (statSquares xs).v.toNat ++ leBytes 4 (xs.filter isNan32).length
    ++ leBytes 4 (xs.filter isInf32).length ++ leBytes 4 (ws.filter (fun x => x.sub)).length ++ leBytes 4 fmt

/-- `mix` of 21 R505. -/
def mix (l : Nat) (v : W32) : Nat :=
  let q := rng 0 0 (l % 2 ^ 64 + v.toNat * 2 ^ 64)
  q.x1.toNat * 2 ^ 32 + q.x0.toNat

def digest (l0 : Nat) (vs : List W32) : Nat := (vs.mapIdx (fun e v => mix (l0 + e) v)).foldl (· + ·) 0 % 2 ^ 64

/-- The BODY of a watch in digest mode. -/
def digestBody (fmt l0 : Nat) (ws : List Watched) : List Byte :=
  leBytes 8 (digest l0 (ws.map (fun x => x.v))) ++ List.replicate 20 0 ++ leBytes 4 fmt

end Sys2Proof.Machine

namespace Sys2Proof

open Machine

def DbWatch.n (f : DbWatch) (g : Regs) : Nat := (g.getS f.sN.toNat).toNat
def DbWatch.op (f : DbWatch) (g : Regs) : RowOp := streamOp f.aS.toNat f.fmt.toNat (f.n g)

end Sys2Proof

namespace Sys2Proof.Machine

def dbWatchCheck (c : Nat) (f : DbWatch) (s : State) (n : Nat) (g : Regs) : Check :=
  let win := s.window c
  if !vecFmt f.fmt.toNat || f.n g > 16777216 || (!f.wd && f.aD ≠ 0) || !mxStreamOk f.aS.toNat f.fmt.toNat (f.n g) then
    illegal
  else
    rangeCheck s n [f.fmt.toNat] 0
      [if f.n g = 0 then some [] else (f.op g).ranges g win false,
       if f.wd then (rangeAt g win f.aD.toNat 64 true).map (fun r => [r]) else some []]

/-- Whether the stamps of a partition's records are corrected: by its own buffer's CORR, the supervisor's by the
module buffer's (DESIGN CHOICE, log 46). -/
def State.corrects (s : State) (p : Nat) : Bool :=
  (if p = 0 then s.pfReg 0x200000 else s.vfReg p 0x1F000).getLsbD 1

def runDbWatch (f : DbWatch) : Effect := fun s c k =>
  let w := s.who c k.regs
  let n := f.n k.regs
  let l0 := (k.regs.getS f.sL.toNat).toNat
  let a := if n = 0 then (s, []) else
    let r := readOp s w c k (f.op k.regs) false
    (r.1, r.2.headD [])
  let ws := a.2.map (El.watched f.fmt.toNat)
  let s := a.1.addFlags c (watchFlags f.wm ws)
  let r : TraceRec :=
    { ty := 2, wm := f.wm, src := c, part := w.part, id := f.wid.toNat, ctx := w.ctx.getD 0, time := s.nowNs
      layer := k.regs.layer, op := k.regs.op, data := n, l0 := l0
      body := if f.wm then digestBody f.fmt.toNat l0 ws else statBody f.fmt.toNat ws }
  let copy := clean (r.bytes (s.stamp (s.corrects w.part) r.time))
  let s := s.drawn.trace r
  let s := if f.wd then s.writeSp c ((spAt k.regs (s.window c) f.aD.toNat 64).getD 0) copy else s
  some (.done (s.event (.core c) 0x11 f.wid.toNat
    { part := w.part, ctx := w.ctx.getD 0, layer := k.regs.layer, op := k.regs.op }))

def execDbWatch (c : Fin 264) (f : DbWatch) (s : State) : Host.Outcome State Fault Refusal :=
  .next (issue s c 1 .vector (.dbWatch c f) always (dbWatchCheck c f) id (runDbWatch f))

def execDbEvent (c : Fin 264) (code : BitVec 16) (sS : BitVec 5) (s : State) : Host.Outcome State Fault Refusal :=
  .next (fetched s c (.dbEvent c code sS) (fun s _ _ g =>
    .done ((s.coreEvent c 0x01 (code.toNat * 2 ^ 16 + (g.getS sS.toNat).toNat % 2 ^ 16)).pass c 1 id)))

end Sys2Proof.Machine
end

