-- ==== Sys2Proof/Machine/Engines.lean ====
section
/-! DEFINITION. The engines' own events: the start of a queued instruction, the release of its tags, its completion, and
the slots of a stack's wells (04 R76, R79, R80, 10 R223, R226, R227). -/

namespace Sys2Proof.Machine

/-- The work of an instruction that issues to an engine. -/
def effectOf (i : Instr) : Effect :=
  match i with
  | .mxForm _ f => runMxForm f
  | .mxWld _ f => runMxWld f
  | .mxSwap _ => runMxSwap
  | .mxRun _ f => runMxRun f
  | .mxDrain _ f => runMxDrain f
  | .mxNmv _ f => runMxNmv f
  | .vxEp _ f => runVxEp f
  | .vxRed _ f => runVxRed f
  | .xpDef _ n a o => runXpDef n.toNat a.toNat o.toNat
  | .rnDraw _ a w d l => runRnDraw a.toNat w.toNat d.toNat l.toNat
  | .dbWatch _ f => runDbWatch f
  | .atQk _ f => runAtQk f
  | .atSmInit _ f => runSmInit f
  | .atSmUpdate _ f => runSmUpdate f
  | .atSmFinal _ f => runSmFinal f
  | .atSmMerge _ f => runSmMerge f
  | .atPv _ f => runAtPv f
  | .atDec _ f => runAtDec f
  | .atPageAlloc _ a r o => runPageAlloc a r o
  | .atPageFree _ a r o => runPageFree a r o
  | .atPageFork _ a r o => runPageFork a r o
  | .atPagePrep _ a r o => runPagePrep a r o
  | .atPageLookup _ a r o => runPageLookup a r o
  | .atPageInsert _ a r o => runPageInsert a r o
  | .dmCopy _ f => runDmCopy f
  | .dmXpose _ f => runDmXpose f
  | .dmGather _ f => runDmGather f
  | .dmExpand _ f => runDmExpand f
  | .dmPack _ f => runDmPack f
  | .dmTblCore _ a o k => runDmTblCore a.toNat o.toNat k.toNat
  | .dmTblStack _ a o k t => runDmTblStack a.toNat o.toNat k.toNat t
  | .dmAtom _ f => runDmAtom f
  | .clPut _ f => runClPut f
  | .clReduce _ f => runClReduce f
  | _ => fun s _ _ => some (.done s)

/-- The engine that an instruction issues to (04 R74, 12 R270, 13 R299). -/
def engineOf (i : Instr) : Option Engine :=
  match i with
  | .mxForm _ _ | .mxWld _ _ | .mxSwap _ | .mxRun _ _ | .mxDrain _ _ | .atQk _ _ | .atPv _ _ => some .matrix
  | .vxEp _ _ | .vxRed _ _ | .xpDef _ _ _ _ | .rnDraw _ _ _ _ _ | .dbWatch _ _ | .atSmInit _ _ | .atSmUpdate _ _
  | .atSmFinal _ _ | .atSmMerge _ _ => some .vector
  | .dmCopy _ _ | .dmXpose _ _ | .dmGather _ _ | .dmExpand _ _ | .dmPack _ _ | .dmTblCore _ _ _ _ | .dmTblStack _ _ _ _ _
  | .dmAtom _ _ => some .dma
  | .mxNmv _ _ | .atDec _ _ => some .nearMem
  | .atPageAlloc _ _ _ _ | .atPageFree _ _ _ _ | .atPageFork _ _ _ _ | .atPagePrep _ _ _ _ | .atPageLookup _ _ _ _
  | .atPageInsert _ _ _ _ => some .pages
  | .clPut _ _ | .clReduce _ _ => some .coll
  | _ => none

/-- The tiles that an instruction takes from the queue (06 R124, 08 R177, R182). -/
def tilesOf (i : Instr) (vl : Nat) : Nat :=
  match i with
  | .vxEp _ f => if f.tq = 0 then 0 else vl / 1024
  | .vxRed _ f => if f.tq then vl / 1024 else 0
  | .atSmUpdate _ f => cdiv f.m 16
  | .atSmFinal _ f => cdiv f.m 16 * cdiv f.dim 64
  | _ => 0

/-- A core that stands in an unsatisfied `sy.wait` stops there once nothing keeps it from stopping (04 R89, 05 R114). -/
def State.stopHere (s : State) (c : Nat) : State :=
  match (s.core c).ctx with
  | none => s
  | some n => s.stopWaiting n [c]

/-- An instruction whose tiles have not all come takes those that have (06 R124). -/
def State.absorb (s : State) (c : Nat) (k : Issued) : State :=
  let n := tilesOf k.instr k.regs.vl.toNat
  if n ≠ 0 && (s.x c).queue.any (fun q => q.id = k.id) && (s.x c).mayStart k then
    (s.onX c (fun x => (x.takeTiles n).moves .vector s.time)).stopHere c
  else s

/-- The oldest instruction in an engine's queue starts, once nothing holds it (04 R79). -/
def execInstructionStart (c : Fin 264) (e : Engine) (s : State) : Host.Outcome State Fault Refusal :=
  .next (match (s.x c).queueOf e with
    | [] => s
    | k :: _ => ((startQueued s c k (effectOf k.instr)).absorb c k).stopHere c)

/-! ### What an instruction still has to do -/

/-- Blocks and table loads of the instruction in the expanders. -/
def Exec.inExpanders (x : Exec) (id : Nat) : Bool :=
  x.ex.any (fun e => e.2.queue.any (fun b => b.id = id) || e.2.stream.any (fun b => b.id = id)
    || e.2.load.elim false (fun l => l.id = id))

/-- Requests of the instruction in the stacks' wells. -/
def State.inWells (s : State) (c id : Nat) : Bool := s.stks.any (fun k => k.2.reqs.any (fun r => r.core = c && r.id = id))

/-- Nothing of an instruction that has started is left to do. -/
def State.worked (s : State) (c id : Nat) : Bool :=
  let x := s.x c
  x.inflight.any (fun k => k.id = id) && !x.inExpanders id && !x.drains.any (fun d => d.id = id)
    && !s.inWells c id && !x.reds.any (fun o => o.id = id) && !s.putWaits c id

/-- A tag may be released: a read tag once its instruction has started, but for the operands that the collective
engine still holds; a write tag once its instruction's results stand (04 R80, 13 R320, R321). -/
def State.mayRelease (s : State) (c : Nat) (t : Tag) : Bool :=
  let x := s.x c
  if t.write then s.worked c t.owner
  else x.inflight.any (fun k => k.id = t.owner) && !x.reds.any (fun o => o.id = t.owner) && !s.putWaits c t.owner

def execTagRelease (c : Fin 264) (tag : Nat) (s : State) : Host.Outcome State Fault Refusal :=
  .next (match (s.x c).tags.find? (fun t => t.no = tag) with
    | none => s
    | some t => if s.mayRelease c t then s.onX c (fun x => x.retag (x.tags.filter (fun t => t.no ≠ tag)) s.time) else s)

/-- The counter of waiting cycles that an instruction may have added to (21 R495). -/
def waitCounter (i : Instr) : Option Nat :=
  match i with
  | .mxWld _ f => if fmtIsErg f.wfmt.toNat then some 4 else none
  | .mxDrain _ _ => some 5
  | .atQk _ _ => some 5
  | .atSmUpdate _ _ => some 7
  | .atSmFinal _ _ => some 7
  | .vxEp _ f => if f.tq = 0 then none else some 7
  | .vxRed _ f => if f.tq then some 7 else none
  | _ => none

/-- Adds the cycles that an instruction waited: the spec fixes none, so a free number (log 48). -/
def State.countWaits (s : State) (n : Nat) (i : Instr) : State :=
  match waitCounter i with
  | some k => s.drawn.count n k (Config.freeWord s.free).toNat
  | none => s

/-- A `dm.tbl` that completes writes its image, the current one of its slot, to the table shadow (07 R164). -/
def Exec.shadowed (x : Exec) (i : Instr) : Exec :=
  match i with
  | .dmTblCore _ _ _ slot => { x with shadow := Tab.put x.shadow slot.toNat ((x.expander 0).slot slot.toNat).image }
  | _ => x

/-- The instruction leaves its engine: its tags are released. -/
def Exec.complete (x : Exec) (k : Issued) (now : Nat) : Exec :=
  let x := x.shadowed k.instr
  { (x.moves k.eng now).retag (x.tags.filter (fun t => t.owner ≠ k.id)) now with
    inflight := x.inflight.filter (fun q => q.id ≠ k.id), puts := x.puts.filter (fun u => u.1 ≠ k.id), progress := now }

/-- Corrected errors of a millisecond join the window of the last 1,000 (19 R465). -/
def ceAdd (l : List (Nat × Nat)) (ms n : Nat) : List (Nat × Nat) :=
  if n = 0 then l else (ms, n) :: l.filter (fun e => ms < e.1 + 1000)

/-- The errors that the core has corrected in line in its latches and storage: a free number, with free places (05 R116,
19 R461, log 54). -/
def State.corrected (s : State) (c : Nat) : State :=
  let n := (Config.freeWord s.free).toNat
  let v := (Config.freeWord (s.free + 1)).toNat
  let s := (s.drawn.drawn).onCore c (fun p => { p with
    ce := min (p.ce + n) 65535, ceWin := ceAdd p.ceWin (s.time / 1000000) n })
  s.logCorrected { ErrIn.plain 1 0 0x01 c 0 with aux := (someCorrected v).1, extra := (someCorrected v).2 } n

/-- An engine instruction completes; the end of the last one may end the RUN or let a stopping context save. -/
def execInstructionComplete (c : Fin 264) (id : Nat) (s : State) : Host.Outcome State Fault Refusal :=
  .next (match (s.core c).ctx, (s.x c).inflight.find? (fun k => k.id = id) with
    | some n, some k =>
      if s.worked c id && !s.overdue n then
        (((((s.corrected c).countWaits n k.instr).onX c (fun x => x.complete k s.time)).stopHere c).maybeFinish n).maybeSave n
      else s
    | _, _ => s)

/-! ### The slot wheel (10 R226 to R228, R239, 18 R446) -/

/-- Word `i` of STK_SLOT_MAP. -/
def slotMapOff (k i : Nat) : Nat := 0x20100 + k * 0x1000 + 8 * i

/-- The partition that the map in force names for slot `i`; 0 for none. -/
def Stk.slotByte (k : Stk) (i : Nat) : Nat := fld (Tab.val 0 k.mapNow (i / 8)) (8 * (i % 8)) 8

/-- The owner of a reserved slot: a sealed partition. -/
def State.slotOwner (s : State) (st i : Nat) : Option Nat :=
  let p := (s.stack st).slotByte i
  if s.sealed p then some p else none

/-- Every second shared slot, counted from the start of the wheel. -/
def State.secondShared (s : State) (st i : Nat) : Bool :=
  ((List.range i).filter (fun j => (s.slotOwner st j).isNone)).length % 2 = 1

/-- A slot that is marked idle: by the throttle level of the cap loop or the brake, by the fast limiter, or a shared one
by the stack's temperature (10 R239, 18 R446, R448, R449). -/
def State.slotIdle (s : State) (st i : Nat) : Bool :=
  let k := s.stack st
  i % 8 ≥ 8 - s.pwr.capT || (k.fastIdle && i % 2 = 1)
    || (k.idleHot && (s.slotOwner st i).isNone && s.secondShared st i)

/-- The next unsealed partition with requests, after `ptr` in round-robin order. -/
def State.nextPart (s : State) (st ptr : Nat) : Option Nat :=
  ((List.range 256).map (fun i => (ptr + 1 + i) % 256)).find? (fun p =>
    !s.sealed p && (s.stack st).reqs.any (fun r => r.part = p))

/-- The partition that a slot serves, and whether the round-robin pointer chose it. -/
def State.slotPart (s : State) (st i : Nat) : Option (Nat × Bool) :=
  let k := s.stack st
  match s.slotOwner st i with
  | some p =>
    if k.reqs.any (fun r => r.part = p) then some (p, false) else (s.nextPart st k.ptr).map (fun q => (q, true))
  | none => (s.nextPart st k.ptr).map (fun q => (q, true))

/-- The partition that a slot goes to, and the pointer after it. When no partition may take the slot, its wells work as after
the partition of the pointer (10 R227 item 3, R230's idle stack). -/
def State.slotFor (s : State) (st i : Nat) : Nat × Nat :=
  match s.slotPart st i with
  | some (p, rr) => (p, if rr then p else (s.stack st).ptr)
  | none => ((s.stack st).ptr, (s.stack st).ptr)

/-- Well `wl` does the work of the partition's oldest request that has some for it; a request without work left leaves. -/
def serve (p wl : Nat) : List WellReq → List WellReq
  | [] => []
  | r :: l =>
    if r.part = p && r.wells.contains wl then
      let ws := r.wells.filter (fun x => x ≠ wl)
      if ws.isEmpty then l else { r with wells := ws } :: l
    else r :: serve p wl l

/-- The partition that well `wl` works for in a slot of partition `p`: the next after it with work for that well, sealed or
not, when `p` has none (10 R227). -/
def State.wellPart (s : State) (reqs : List WellReq) (p wl : Nat) : Option Nat :=
  let has (q : Nat) : Bool := reqs.any (fun r => r.part = q && r.wells.contains wl)
  if has p then some p
  else ((List.range 256).map (fun i => (p + 1 + i) % 256)).find? has

/-- The wells of a slot of partition `p`, in turn. -/
def State.serveWells (s : State) (p : Nat) : List Nat → List WellReq → List WellReq
  | [], l => l
  | wl :: ws, l =>
    s.serveWells p ws (match s.wellPart l p wl with
      | some q => serve q wl l
      | none => l)

/-- The map registers of a stack, as the next revolution takes them. -/
def State.slotMap (s : State) (st : Nat) : Tab W64 :=
  ((List.range 8).map (fun i => (i, s.pfReg (slotMapOff st i)))).filter (fun e => e.2 ≠ 0)

def Stk.nextSlot (k : Stk) (m : Tab W64) : Stk :=
  if k.slot = 63 then { k with slot := 0, mapNow := m } else { k with slot := k.slot + 1 }

/-- One slot of a stack's wheel: each well does its work of one request (DESIGN CHOICE, log 47), unless the stack sleeps. -/
def execWellSlot (st : Fin 16) (s : State) : Host.Outcome State Fault Refusal :=
  .next (
    let i := (s.stack st).slot
    let m := s.slotMap st
    let asleep := (s.stack st).selfRef || (s.stack st).waking
    let s := if asleep || s.slotIdle st i || (s.stack st).reqs.isEmpty then s
      else
        let (p, ptr) := s.slotFor st i
        s.onStack st (fun k => { k with
          reqs := s.serveWells p (List.range 16) k.reqs, ptr := ptr, idleTick := s.time })
    s.onStack st (fun k => k.nextSlot m))

end Sys2Proof.Machine
end

