-- ==== Sys2Proof/Machine/Parts.lean ====
section
/-! DEFINITION. Partitions and device commands: creation, release, translation, core sets, contexts, keys, and the
binding of jobs (15 R348 to R353, 16 R387 to R391, 17 R416 to R422). -/

namespace Sys2Proof.Machine

/-! ### Device commands (17 R417, R418) -/

/-- The words of a command: HCMD and its two arguments. -/
structure Hcmd where
  opc  : Nat
  part : Nat
  ctx  : Nat
  arg0 : W64
  arg1 : W64
  deriving DecidableEq, Repr

def hcmdOf (opc part ctx : Nat) (arg0 arg1 : W64) : Hcmd :=
  { opc := opc, part := part, ctx := ctx, arg0 := arg0, arg1 := arg1 }

/-- Host software has written the arguments and HCMD. -/
def State.stage (s : State) (h : Hcmd) : State :=
  ((s.setPf 0x1008 h.arg0).setPf 0x1010 h.arg1).setPf 0x1000
    (BitVec.ofNat 64 (h.opc + h.part * 2 ^ 8 + h.ctx * 2 ^ 16))

/-- The checks of a command, in the table's order: each holds or names its REASON. -/
def firstReason : List (Bool × Nat) → Option Nat
  | [] => none
  | (ok, why) :: r => if ok then firstReason r else some why

/-- Runs a command: dropped before READY and while one is in progress, else rejected with its REASON, else carried out. -/
def hostCommand (s : State) (h : Hcmd) (checks : State → List (Bool × Nat)) (act : State → State) : State :=
  if s.dev.st ≠ .ready then s
  else if s.dev.hcmdBusy then s.writeDropped 0x1000
  else
    let s := s.stage h
    match firstReason (checks s) with
    | some why => { s with dev := { s.dev with hcmdRej := true, hcmdWhy := why } }
    | none => act { s with dev := { s.dev with hcmdRej := false, hcmdWhy := 0 } }

/-! ### Creation (15 R348, R351, 17 R417) -/

def State.isActive (s : State) (p : Nat) : Bool := (s.part p).st = .active
def State.exists? (s : State) (p : Nat) : Bool := p ≠ 0 && ((s.part p).st = .active || (s.part p).st = .releasing)
def State.unused (s : State) (p : Nat) : Bool := (s.part p).st = .unused || (s.part p).st = .released

/-- The ports over which a partition's job is routed. -/
def State.jobPorts (s : State) (p : Nat) : Nat :=
  match (s.part p).job with
  | none => 0
  | some j => j.routes.foldl (fun a r => a ||| r.2) 0

/-- The limits of R351: reserved shares of at most 48 in all, and owned ports that no other partition owns or uses. -/
def State.sealOk (s : State) (p : Nat) : Bool :=
  !s.sealBit p ||
    (((otherParts p).filter (fun q => s.sealed q)).foldl (fun a q => a + s.resShare q) (s.resShare p) ≤ 48
      && (otherParts p).all (fun q =>
        (!s.exists? q || (s.ownedPorts p &&& s.ownedPorts q) = 0) && (s.ownedPorts p &&& s.jobPorts q) = 0))

def State.memQuota (s : State) (p : Nat) : Nat := fld (s.pfReg (partReg p 1)) 0 20

/-- Pool and record area fit the quota. -/
def State.poolFits (s : State) (p : Nat) : Bool :=
  fld (s.pfReg (partReg p 3)) 32 15 + fld (s.pfReg (partReg p 4)) 32 11 ≤ s.memQuota p

def disjoint (a b : Nat × Nat) : Bool := a.2 = 0 || b.2 = 0 || a.1 + a.2 ≤ b.1 || b.1 + b.2 ≤ a.1

/-- The grant of region `r` in a PART_SIG value: first object and number. -/
def grantOf (v : W64) (r : Nat) : Nat × Nat := (fld v (15 * r) 8 * 256, fld v (15 * r + 8) 7 * 256)

/-- No object of the grants `v` lies in the grant of another partition. -/
def State.grantsFree (s : State) (p : Nat) (v : W64) : Bool :=
  (otherParts p).all (fun q => q = 0 || (List.range 4).all (fun r => disjoint (grantOf v r) (grantOf (s.pfReg (partReg q 5)) r)))

/-- The sets that PART_POOL and PART_REC values give. -/
def setsOf (pool rec_ : W64) : Nat × Nat := (fld rec_ 48 16, if pool.getLsbD 53 then 2 ^ fld pool 48 5 else 0)

def State.setsFree (s : State) (p : Nat) (d : Nat × Nat) : Bool := (otherParts p).all (fun q => disjoint d (s.dirSets q))

def State.xlatBase (s : State) (p : Nat) : Nat := fld (s.pfReg (partReg p 2)) 12 28 * 4096
def State.vaPages (s : State) (p : Nat) : Nat := fld (s.pfReg (partReg p 2)) 40 24

/-- Clears the translation table, when it lies in the supervisor's area. -/
def State.clearXlat (s : State) (p : Nat) : State :=
  let n := 8 * s.vaPages p
  if s.inSup (s.xlatBase p) n then (s.touchSup (s.xlatBase p) n).writePhys s.supKey (s.xlatBase p) (zeros n) else s

/-- New keys from Belvedere, which no other generation gives (10 R232). -/
def freshKey (n : Nat) : Key := { data := .generated (512 + 2 * n), tweak := .generated (513 + 2 * n) }

/-- The partition begins, with generated keys and salt. -/
def State.create (s : State) (p : Nat) : State :=
  let q := s.part p
  let n := s.free
  let s := (s.drawn.clearXlat p).setPf (partReg p 6) (setFld (s.pfReg (partReg p 6)) 0 1 0)
  let s := s.setPf (partReg p 0) (setFld (s.pfReg (partReg p 0)) 16 10 50)
  s.setPart p { Part.fresh p with
    st := .active, key := freshKey n, salt := Config.freeWord n, violations := q.violations, violLog := q.violLog
    acts := q.acts, energy0 := spent q.acts }

def createChecks (p : Nat) (s : State) : List (Bool × Nat) :=
  [ (s.unused p, 2), (s.sealOk p, 7), (s.poolFits p, 5),
    (s.setsFree p (s.dirSets p) && s.grantsFree p (s.pfReg (partReg p 5)), 4) ]

def partCreate (s : State) (h : Hcmd) : State :=
  hostCommand s h (createChecks h.part) (fun s => s.create h.part)

def execPartCreate (p : Fin 256) (s : State) : Host.Outcome State Fault Refusal :=
  .next (partCreate s (hcmdOf 1 p 0 (s.pfReg 0x1008) (s.pfReg 0x1010)))

/-! ### Signal grants (14 R343) -/

/-- The waits of a former grantee on a withdrawn object end with 0. -/
def State.endGrant (s : State) (p : Nat) (gone : Nat × Nat → Bool) : List Nat → State
  | [] => s
  | c :: r =>
    let mine := (s.core c).ctx.elim false (fun n => (s.ctx n).part = p)
    match (s.x c).hold with
    | .wait sD (some o) _ _ _ _ _ => (if mine && gone o then s.endHold c sD.toNat 0 else s).endGrant p gone r
    | _ => s.endGrant p gone r

def State.zeroSigs (s : State) (r : Nat) : List Nat → State
  | [] => s
  | i :: l => (s.sigWrite (r, i) 0 none).zeroSigs r l

def inGrant (g : Nat × Nat) (i : Nat) : Bool := g.1 ≤ i && i < g.1 + g.2

/-- Objects of region `r` that the change withdraws or grants are set to 0. -/
def State.zeroRegion (s : State) (r : Nat) (old new : Nat × Nat) : State :=
  let ks := ((s.region r).sig.map (fun e => e.1)).filter (fun i => inGrant old i != inGrant new i)
  s.zeroSigs r ks

/-- The grants of a partition become those of the PART_SIG value `v`. -/
def State.setGrants (s : State) (p : Nat) (v : W64) : State :=
  let old := s.pfReg (partReg p 5)
  let gone (o : Nat × Nat) : Bool := inGrant (grantOf old o.1) o.2 && !inGrant (grantOf v o.1) o.2
  let s := (s.endGrant p gone (s.cores.map (fun c => c.1))).setPf (partReg p 5) v
  ((((s.zeroRegion 0 (grantOf old 0) (grantOf v 0)).zeroRegion 1 (grantOf old 1) (grantOf v 1)).zeroRegion 2
    (grantOf old 2) (grantOf v 2))).zeroRegion 3 (grantOf old 3) (grantOf v 3)

/-! ### Release (15 R353) -/

/-- The physical 2 MiB pages that a partition maps. -/
def State.mappedPages (s : State) (p : Nat) : List Nat :=
  (List.range (s.vaPages p)).filterMap (fun i =>
    match s.xlat p (i * 0x200000) false with
    | .stack pa => some (pa / 0x200000)
    | _ => none)

/-- The queues of a partition in a region. -/
def State.queuesOf (s : State) (p r : Nat) : List Nat :=
  ((s.region r).queues.filter (fun q => q.2.en && q.2.part = p)).map (fun q => q.1)

def State.disableQueues (s : State) (r : Nat) : List Nat → State
  | [] => s
  | q :: l => (queueDisable s r q).disableQueues r l

def State.disableAll (s : State) (p : Nat) : List Nat → State
  | [] => s
  | r :: l => (s.disableQueues r (s.queuesOf p r)).disableAll p l

/-- The logical cores of a partition. -/
def State.coresOf (s : State) (p : Nat) : List Nat := (s.owners.filter (fun o => o.2 = p)).map (fun o => o.1)

def State.scrubCores (s : State) (ls : List Nat) : State :=
  s.onCores (fun c => { c with scrub := true }) (ls.filterMap s.phys)

/-- Begins step `k` of a release. -/
def State.beginStep (s : State) (p k : Nat) : State :=
  let s := s.onPart p (fun q => { q with release := k })
  match k with
  | 1 => s
  | 2 => s.beginResets (s.ctxsOf p)
  | 3 =>
    let s := ((s.disableAll p [0, 1, 2, 3]).setGrants p 0).cacheClear p
    (s.setPf (partReg p 3) (setFld (s.pfReg (partReg p 3)) 53 1 0)).onPart p (fun q => { q with wells := [] })
  | 4 => (s.onPart p (fun q => { q with zeroing := s.mappedStacks p })).scrubCores (s.coresOf p)
  | 5 => (s.clearXlat p).onPart p (fun q => { q with key := Key.initial p, salt := 0, mapped := 0 })
  | _ => s.onPart p (fun q => { q with st := .released, release := 0 })

/-- The step in progress has done its work. -/
def State.stepOver (s : State) (p : Nat) : Bool :=
  match (s.part p).release with
  | 2 => (s.ctxsOf p).all (fun n => !(s.ctx n).resetting)
  | 3 => [0, 1, 2, 3].all (fun r => (s.queuesOf p r).isEmpty)
  | 4 => (s.part p).zeroing.isEmpty && ((s.coresOf p).filterMap s.phys).all (fun c => !(s.core c).scrub)
  | _ => true

def partRelease (s : State) (h : Hcmd) : State :=
  hostCommand s h (fun s => [(h.part ≠ 0 && s.isActive h.part, 2)])
    (fun s => (s.onPart h.part (fun q => { q with st := .releasing })).beginStep h.part 1)

def execPartRelease (p : Fin 256) (s : State) : Host.Outcome State Fault Refusal :=
  .next (partRelease s (hcmdOf 2 p 0 (s.pfReg 0x1008) (s.pfReg 0x1010)))

/-- The step of a release in progress is done, and the next begins. -/
def execPartReleaseStepDone (p : Fin 256) (s : State) : Host.Outcome State Fault Refusal :=
  .next (if (s.part p).st = .releasing && s.stepOver p then s.beginStep p ((s.part p).release + 1) else s)

/-- Every unit of the partition's memory in a stack takes the cleared state (10 R236). -/
def State.zeroPages (s : State) (ps : List Nat) : State :=
  let hit (a : Nat) : Bool := ps.contains (a / 0x200000)
  { s with
    mem := { bytes := s.mem.bytes.filter (fun e => !hit e.1), poison := s.mem.poison.filter (fun e => !hit (8 * e.1)) }
    unitKey := s.unitKey.filter (fun e => !hit (64 * e.1)) }

def execMemoryZeroingDone (st : Fin 16) (p : Fin 256) (s : State) : Host.Outcome State Fault Refusal :=
  .next (if (s.part p).zeroing.contains st.val then
      (s.zeroPages ((s.mappedPages p).filter (fun q => q / 32768 = st))).onPart p
        (fun q => { q with zeroing := q.zeroing.filter (fun k => k ≠ st) })
    else s)

/-! ### Translation (11 R244 to R246, 17 R417) -/

def xlatFirst (arg1 : W64) : Nat := fld arg1 0 27
def xlatCount (arg1 : W64) : Nat := fld arg1 32 16

/-- The entries of the staging area, under the supervisor's keys. -/
def State.staged (s : State) (arg0 : W64) (n : Nat) : List Nat :=
  words8 (plain (s.readPhys s.supKey arg0.toNat (8 * n)))

def xlatEntryOk (e : Nat) : Bool := bits e 2 19 = 0 && bits e 40 24 = 0

/-- The page of a valid entry. -/
def validPages (es : List Nat) : List Nat := (es.filter (fun e => bit e 0)).map (fun e => bits e 21 19)

/-- The table's entries as they stand. -/
def State.tableEntries (s : State) (p first n : Nat) : List Nat :=
  (List.range n).map (fun i => s.supNat (s.xlatBase p + 8 * (first + i)) 8)

/-- A page that another tenant maps, or a page of the supervisor's area. -/
def State.pageTaken (s : State) (p pg : Nat) : Bool :=
  let r := s.pfReg 0x10
  (fld r 21 19 ≤ pg && pg < fld r 21 19 + fld r 40 20)
    || (otherParts p).any (fun q => s.exists? q && (s.mappedPages q).contains pg)

def State.newMapped (s : State) (p first : Nat) (es : List Nat) : Nat :=
  (s.part p).mapped + (validPages es).length - (validPages (s.tableEntries p first es.length)).length

/-- Entries that map each page of partition 0 onto itself. -/
def identityEntries (first : Nat) (es : List Nat) : Bool :=
  (es.mapIdx (fun i e => bit e 0 && bits e 21 19 = first + i)).all id

def xlatChecks (h : Hcmd) (s : State) : List (Bool × Nat) :=
  let first := xlatFirst h.arg1
  let n := xlatCount h.arg1
  let es := s.staged h.arg0 n
  if h.part = 0 then [(identityEntries first es, 2), (n ≠ 0 && es.all xlatEntryOk, 6)]
  else
    [ (s.isActive h.part, 2),
      (h.arg0.toNat + 8 * n ≤ 2 ^ 40 && first + n ≤ s.vaPages h.part
        && s.inSup (s.xlatBase h.part + 8 * first) (8 * n), 9),
      (n ≠ 0 && fld h.arg1 27 5 = 0 && fld h.arg1 48 16 = 0 && es.all xlatEntryOk, 6),
      ((validPages es).all (fun g => !s.pageTaken h.part g), 4),
      (s.newMapped h.part first es ≤ s.memQuota h.part, 5) ]

/-- The command holds its entries until every earlier access has completed (11 R246). -/
def xlatUpdate (s : State) (h : Hcmd) : State :=
  hostCommand s h (xlatChecks h) (fun s =>
    let es := (s.staged h.arg0 (xlatCount h.arg1)).map (BitVec.ofNat 64)
    let s := s.touchSup h.arg0.toNat (8 * xlatCount h.arg1)
    { s with dev := { s.dev with hcmdBusy := true, xlatPart := some (h.part, xlatFirst h.arg1, es) } })

def execXlatUpdate (p : Fin 256) (arg0 arg1 : W64) (s : State) : Host.Outcome State Fault Refusal :=
  .next (xlatUpdate s (hcmdOf 3 p 0 arg0 arg1))

/-- The change takes effect: the entries stand in the table, and the command completes. -/
def execXlatUpdateComplete (s : State) : Host.Outcome State Fault Refusal :=
  .next (match s.dev.xlatPart with
    | none => s
    | some (p, first, es) =>
      let s := { s with dev := { s.dev with hcmdBusy := false, xlatPart := none } }
      if p = 0 then s
      else
        let m := s.newMapped p first (es.map BitVec.toNat)
        ((s.touchSup (s.xlatBase p + 8 * first) (8 * es.length)).writePhys s.supKey (s.xlatBase p + 8 * first) (clean ((es.map (fun e => leBytes 8 e.toNat)).flatten))).onPart p
          (fun q => { q with mapped := m }))

def cacheClear (s : State) (h : Hcmd) : State :=
  hostCommand s h (fun s => [(s.isActive h.part, 2)]) (fun s => s.cacheClear h.part)

def execCacheClear (p : Fin 256) (s : State) : Host.Outcome State Fault Refusal :=
  .next (cacheClear s (hcmdOf 4 p 0 (s.pfReg 0x1008) (s.pfReg 0x1010)))

/-! ### Core sets (15 R350, R352, 17 R417) -/

def setFirst (h : Hcmd) : Nat := fld h.arg0 0 8
def setCount (h : Hcmd) : Nat := fld h.arg0 8 9
def setCores (h : Hcmd) : List Nat := (List.range (setCount h)).map (fun i => setFirst h + i)
def setRange (h : Hcmd) : Bool :=
  1 ≤ setCount h && setFirst h + setCount h ≤ 256 && h.arg0.toNat < 2 ^ 17 && h.arg1.toNat < 2

def State.own (s : State) (p : Nat) (ls : List Nat) : State :=
  { s with owners := ls.foldl (fun t l => Tab.put t l p) s.owners }

def coreSetAssign (s : State) (h : Hcmd) : State :=
  hostCommand s h
    (fun s => [(setRange h, 6), ((setCores h).all (fun l => (s.owner l).isNone && (s.phys l).isSome), 3)])
    (fun s => (s.own h.part (setCores h)).scrubCores (setCores h))

def execCoreSetAssign (p : Fin 256) (arg0 : W64) (s : State) : Host.Outcome State Fault Refusal :=
  .next (coreSetAssign s (hcmdOf 5 p 0 arg0 1))

/-- Logical cores leave their partition, and the queue ends that they held are cut off (14 R342). -/
def State.disown (s : State) : List Nat → State
  | [] => s
  | l :: r => (({ s with owners := Tab.del s.owners l } : State).cutQueues l).disown r

/-- A logical core stands in the core set of a context that is not FREE. -/
def State.inContext (s : State) (l : Nat) : Bool := s.ctxs.any (fun x => x.2.st ≠ .free && x.2.cores.contains l)

def coreSetRemove (s : State) (h : Hcmd) : State :=
  hostCommand s h
    (fun s => [(setRange h, 6), ((setCores h).all (fun l => s.owner l = some h.part && !s.inContext l), 8)])
    (fun s => s.disown (setCores h))

def execCoreSetRemove (p : Fin 256) (arg0 : W64) (s : State) : Host.Outcome State Fault Refusal :=
  .next (coreSetRemove s (hcmdOf 5 p 0 arg0 0))

/-- What the scrub of 15 R352 leaves; the capture slot lies outside the core. A spare that takes the place of a halted
core keeps the registers that it holds for it. -/
def PCore.scrubbed (p : PCore) : PCore :=
  { p with
    scrub := false, ring := [], cache := []
    x := { Exec.zero with
      cap := p.x.cap, groupNo := p.x.groupNo, progress := p.x.progress, regs := if p.run = .halted then p.x.regs else Regs.zero } }

/-- The scrub of a core ends; a context that waits for it restarts its group. -/
def execCoreScrubDone (c : Fin 264) (s : State) : Host.Outcome State Fault Refusal :=
  .next (if !(s.core c).scrub then s
    else
      let s := s.onCore c PCore.scrubbed
      match (s.core c).ctx with
      | some n => s.restartGroup n
      | none => s)

/-! ### Contexts (17 R417, R422) -/

/-- A context descriptor. -/
structure Desc where
  cores    : List Nat
  saveBase : Nat
  sqBase   : Nat
  cqBase   : Nat
  sqLog2   : Nat
  vector   : Nat
  irqMode  : Nat
  policy   : Nat
  rsv      : Nat
  deriving DecidableEq, Repr

def Desc.of (bs : List Byte) : Desc :=
  { cores := (List.range 256).filter (fun l => bit (leAt bs 0 32) l), saveBase := leAt bs 0x20 8
    sqBase := leAt bs 0x28 8, cqBase := leAt bs 0x30 8, sqLog2 := leAt bs 0x38 1, vector := leAt bs 0x39 1
    irqMode := leAt bs 0x3A 1, policy := leAt bs 0x3B 1, rsv := leAt bs 0x3C 4 }

def State.descChecks (s : State) (p : Nat) (d : Desc) : List (Bool × Nat) :=
  [ (!d.cores.isEmpty && d.cores.all (fun l => s.owner l = some p), 3),
    (d.saveBase % 65536 = 0 && s.inSup d.saveBase (d.cores.length * 4718592), 9),
    (d.sqBase % 64 = 0, 9), (d.cqBase % 32 = 0, 9),
    (4 ≤ d.sqLog2 && d.sqLog2 ≤ 16 && d.vector ≤ 7 && d.irqMode ≤ 2 && d.policy ≤ 1 && d.rsv = 0, 6) ]

def State.descAt (s : State) (a : Nat) : Desc := Desc.of (plain (s.readPhys s.supKey a 64))

def assignChecks (h : Hcmd) (s : State) : List (Bool × Nat) :=
  let a := h.arg0.toNat
  ([ ((s.ctx h.ctx).st = .free, 8), (a % 64 = 0 && s.inSup a 64 && !s.supBad a 64, 9) ] : List (Bool × Nat))
    ++ s.descChecks h.part (s.descAt a)

def Ctx.assigned (p : Nat) (d : Desc) : Ctx :=
  { Ctx.fresh with
    st := .idle, part := p, cores := d.cores, saveBase := d.saveBase, sqBase := d.sqBase, cqBase := d.cqBase
    sqLog2 := d.sqLog2, vector := d.vector, irqMode := d.irqMode, policy := d.policy }

def ctxAssign (s : State) (h : Hcmd) : State :=
  hostCommand s h (assignChecks h) (fun s =>
    (s.touchSup h.arg0.toNat 64).setCtx h.ctx (Ctx.assigned h.part (s.descAt h.arg0.toNat)))

def execCtxAssign (ctx : Fin 4096) (p : Fin 256) (arg0 : W64) (s : State) : Host.Outcome State Fault Refusal :=
  .next (ctxAssign s (hcmdOf 6 p ctx arg0 (s.pfReg 0x1010)))

/-- IDLE: owned, with no RUN accepted and not completed, also behind another record (15 R354). -/
def Ctx.isIdle (x : Ctx) : Bool := x.st = .idle && x.accepted.all (fun a => recOp a.sub ≠ 1)

/-- A FREE context. Its counters, preferences and progress window stand until the next CTX_ASSIGN (18 R437, 20 R479,
21 R494). -/
def Ctx.freed (x : Ctx) : Ctx :=
  { Ctx.fresh with counters := x.counters, acts := x.acts, prefs := x.prefs, progEn := x.progEn, progWin := x.progWin }

def ctxFree (s : State) (h : Hcmd) : State :=
  hostCommand s h (fun s => [((s.ctx h.ctx).isIdle && !(s.ctx h.ctx).resetting, 8)])
    (fun s => (s.detachUpds h.ctx).setCtx h.ctx (s.ctx h.ctx).freed)

def execCtxFree (ctx : Fin 4096) (s : State) : Host.Outcome State Fault Refusal :=
  .next (ctxFree s (hcmdOf 7 0 ctx (s.pfReg 0x1008) (s.pfReg 0x1010)))

/-! ### Keys (17 R421) -/

/-- A staged key of four words, least significant first. -/
def State.stagedKey (s : State) (off : Nat) : Nat :=
  (List.range 4).foldl (fun a i => a + (s.pfReg (off + 8 * i)).toNat * 2 ^ (64 * i)) 0

def KeyHalf.staged (old : KeyHalf) (v : Nat) : KeyHalf := if v = 0 then old else .given (BitVec.ofNat 256 v)

def State.clearStaging (s : State) : State :=
  { s with pf := s.pf.filter (fun e => !(0x8000 ≤ e.1 && e.1 ≤ 0x8040)) }

def State.installKeys (s : State) (p : Nat) : State :=
  let salt := s.pfReg 0x8040
  let q := s.part p
  let k : Key := { data := KeyHalf.staged q.key.data (s.stagedKey 0x8000), tweak := KeyHalf.staged q.key.tweak (s.stagedKey 0x8020) }
  let s := if salt = 0 then s else (s.dropDirectory p).onPart p (fun q => { q with salt := salt })
  (s.onPart p (fun q => { q with key := k })).clearStaging

def keyApply (s : State) (h : Hcmd) : State :=
  hostCommand s h
    (fun s => [(s.isActive h.part, 2), ((s.ctxsOf h.part).all (fun n => (s.ctx n).isIdle && !(s.ctx n).resetting), 8)])
    (fun s => s.installKeys h.part)

def execKeyApply (p : Fin 256) (s : State) : Host.Outcome State Fault Refusal :=
  .next (keyApply s (hcmdOf 8 p 0 (s.pfReg 0x1008) (s.pfReg 0x1010)))

/-- A write to HCMD starts the command of its OPC. -/
def hcmdWrite (s : State) (v : W64) : State :=
  let h := hcmdOf (fld v 0 8) (fld v 8 8) (fld v 16 12) (s.pfReg 0x1008) (s.pfReg 0x1010)
  match h.opc with
  | 1 => partCreate s h
  | 2 => partRelease s h
  | 3 => xlatUpdate s h
  | 4 => cacheClear s h
  | 5 => if h.arg1.getLsbD 0 then coreSetAssign s h else coreSetRemove s h
  | 6 => ctxAssign s h
  | 7 => ctxFree s h
  | 8 => keyApply s h
  | _ => hostCommand s h (fun _ => [(false, 1)]) id

/-! ### Jobs (16 R387 to R391) -/

def jobGroupAt (s : State) (groups size own g : Nat) : Option JobGroup :=
  let bs := plain (s.readPhys s.supKey (groups + 16 * g) 16)
  let n := leAt bs 0 2
  let i := leAt bs 2 2
  let port := leAt bs 4 1
  let list := (List.range n).map (fun k => s.supNat (leAt bs 8 8 + 2 * k) 2)
  if port ≥ 18 || s.linkMode port = 0 then none
  else if g = 0 then some { members := List.range size, index := own, port := port }
  else if leAt bs 5 3 ≠ 0 || n = 0 || n > size || !list.all (fun r => r < size) || !(list.eraseDups.length = n) then none
  else if list.contains own && list[i]? ≠ some own then none
  else some { members := list, index := i, port := port }

/-- The groups of a record, or none when one breaks its rules. -/
def jobGroups (s : State) (groups size own : Nat) : List Nat → Option (Tab JobGroup)
  | [] => some []
  | g :: r =>
    match jobGroupAt s groups size own g, jobGroups s groups size own r with
    | some j, some t => some ((g, j) :: t)
    | _, _ => none

/-- The job that a record describes, when 16 R389 accepts it. -/
def State.readJob (s : State) (p : Nat) : Option Job :=
  let a := s.jobBase p
  let bs := plain (s.readPhys s.supKey a 64)
  let size := leAt bs 0 2
  let own := leAt bs 2 2
  let tag := leAt bs 4 1
  let flags := leAt bs 5 1
  let window := leAt bs 8 4
  let rejoin := leAt bs 0x0C 4
  let ngroups := leAt bs 0x10 2
  let ports (r : Nat) : Nat := s.supNat (leAt bs 0x18 8 + 16 * r) 3
  let routes := (List.range size).map (fun r => (r, ports r))
  let macs := (List.range size).map (fun r => (r, s.supNat (leAt bs 0x18 8 + 16 * r + 8) 6))
  let foreign := (otherParts p).foldl (fun m q => m ||| (if s.exists? q then s.ownedPorts q else 0)) 0
  let tagTaken := (otherParts p).any (fun q => (s.part q).job.elim false (fun j => j.tag = tag))
  let busy := (s.ctxsOf p).any (fun n => !(s.ctx n).isIdle)
  if !s.inSup a 64 || size < 1 || size > 4096 || own ≥ size || flags ≥ 4 || window = 0 || rejoin = 0 || rejoin > 600000
      || ngroups < 1 || ngroups > 256 || leAt bs 0x12 6 ≠ 0 || leAt bs 0x30 16 ≠ 0
      || routes.any (fun r => r.2 ≥ 2 ^ 18 || (r.2 &&& foreign) ≠ 0) || ports own ≠ 0 || tagTaken || busy then none
  else
    (jobGroups s (leAt bs 0x20 8) size own (List.range ngroups)).map (fun gs =>
      { size := size, rank := own, tag := tag, epoch := leAt bs 6 2
        spray := bit flags 0 || bit flags 1 || size > 16, adapt := bit flags 1, window := window, rejoin := rejoin
        groups := gs, routes := routes, macs := macs, members := [] })

/-- Contexts of the partition have issued no `cl` instruction since the record was applied. -/
def State.clearCl (s : State) (p : Nat) : State :=
  { s with ctxs := s.ctxs.map (fun x => if x.2.part = p then (x.1, { x.2 with usedCl := false }) else x) }

/-- What the links and the reduction units hold for a job of a partition is gone. -/
def State.dropJob (s : State) (p : Nat) : State :=
  let s : State := { s with ports := s.ports.map (fun q => (q.1, { q.2 with reds := q.2.reds.filter (fun r => r.part ≠ p) })) }
  s.onPart p (fun q => { q with
    job := none, landed := [], held := [], earlySig := [], stepReds := [], joins := 0, msgseq := [], unacked := [] })

def State.setValid (s : State) (p : Nat) (v : Bool) : State :=
  s.setPf (partReg p 6) (setFld (s.pfReg (partReg p 6)) 0 1 (b2n v))

/-- Applies a job record that passed its checks, or drops the write. -/
def State.applyJob (s : State) (p : Nat) : Option Job → State
  | none => s.writeDropped (partReg p 6)
  | some j => ((((s.dropJob p).clearCl p).setValid p true)).setJob p j

/-- The bursts of the reads of a job record, its port and MAC map and its groups (21 R498). -/
def State.touchJob (s : State) (p : Nat) : State :=
  let a := s.jobBase p
  if s.inSup a 64 then
    let bs := plain (s.readPhys s.supKey a 64)
    ((s.touchSup a 64).touchSup (leAt bs 0x18 8) (16 * leAt bs 0 2)).touchSup (leAt bs 0x20 8) (16 * leAt bs 0x10 2)
  else s

/-- Writing 1 to JOB_VALID: the record is applied, or the previous job stays. -/
def jobApply (s : State) (p : Nat) : State := (s.touchJob p).applyJob p (s.readJob p)

def execJobApply (p : Fin 256) (s : State) : Host.Outcome State Fault Refusal :=
  .next (s.whenReady (fun s => jobApply s p))

def jobUnbind (s : State) (p : Nat) : State := (s.dropJob p).setValid p false

def execJobUnbind (p : Fin 256) (s : State) : Host.Outcome State Fault Refusal :=
  .next (s.whenReady (fun s => jobUnbind s p))

end Sys2Proof.Machine
end

