-- ==== Sys2Proof/Machine/Fence.lean ====
section
/-! DEFINITION. Core faults, fencing, and the in-service self-test (04 R77, R82, R86, 19 R465 to R470). -/

namespace Sys2Proof.Machine

/-! ### A logical core that leaves its partition (19 R468) -/

def State.quietCores (s : State) (cs : List Nat) : State :=
  (s.dropOutsides cs).onCores (fun p => { p with x := p.x.quiet }) cs

/-- Every core of the context stops issuing, and its work in flight is removed; the restart follows (19 R467 step 3). -/
def State.haltForRestart (s : State) (n : Nat) : State :=
  (s.quietCores (s.heldCores n)).onCtx n (fun x => { x with restart := true })

def State.postLost (s : State) (n : Nat) : List Acc → State
  | [] => s
  | a :: r => (s.postAcc n a 10 (2 ^ 13 + if recOp a.sub = 1 then 2 ^ 10 else 0)).postLost n r

/-- The reset of a context whose core set has become empty: CORE_FENCED is in DETAIL as well. -/
def State.lostReset (s : State) (n : Nat) : State :=
  if (s.ctx n).resetting then s
  else
    let s := ((s.resetNotice n).removeCtx n).detachUpds n
    let x := s.ctx n
    let s := if x.run.isSome then ((((s.status n 10).status n 13).postRun n).postLost n (x.accepted.drop 1))
      else s.postLost n x.accepted
    s.onCtx n Ctx.underReset

/-- Logical core `l` leaves the core set of context `n`: new ranks, and the open group is to restart when `again`. The new
ranks and core count stand in the capture slots; s1 and s2 of a core that runs on change with the next restart only
(DESIGN CHOICE, log 37). -/
def State.leaveCtx (s : State) (l : Nat) (again : Bool) (n : Nat) : State :=
  let s := s.onCtx n (fun x => x.shrink l)
  let x := s.ctx n
  if x.cores.isEmpty then s.lostReset n
  else match x.st with
    | .running | .stopping | .saving =>
      let s := (s.rerankCores n x.cores.length (s.heldCores n)).status n 13
      if again then s.haltForRestart n else s
    | .saved | .restoring => (s.onCtx n Ctx.rerankSaved).status n 13
    | .ready => s.status n 13
    | _ => s

def State.leaveCtxs (s : State) (l : Nat) (again : Bool) : List Nat → State
  | [] => s
  | n :: r => (s.leaveCtx l again n).leaveCtxs l again r

/-- The logical number leaves its partition and every context's core set. -/
def State.leave (s : State) (l : Nat) (again : Bool) : State :=
  let ns := (s.ctxs.filter (fun x => x.2.st ≠ .free && x.2.cores.contains l)).map (fun x => x.1)
  (s.disown [l]).leaveCtxs l again ns

/-! ### Spares (01 R15, 19 R467 step 4) -/

/-- What a spare starts from: the capture slot of the core that it replaces. A core that had halted stays halted, with
the registers of the capture slot (DEDUCED, log 55). -/
def Exec.replacement (x : Exec) (halted : Bool) : Exec :=
  { Exec.zero with
    cap := x.cap, groupNo := x.groupNo, progress := x.progress
    regs := if halted then x.cap.elim Regs.zero (fun k => k.regs) else Regs.zero }

/-- The core goes out of service. -/
def PCore.out (p : PCore) (st : CoreSt) : PCore :=
  { p with st := st, scrub := false, moveOut := none, inPlace := false, testNext := false, ctx := none, run := .idle, x := p.x.removed }

/-- A core that is fenced; one for which a test waits is tested at once, as a FENCED core is (19 R470; DEDUCED, log 178). -/
def PCore.fence (p : PCore) : PCore :=
  p.out (if p.testNext || p.inPlace || p.moveOut = some false then .testing else .fenced)

/-- Spare `q` takes the logical number of core `c`, and is scrubbed. -/
def State.handOver (s : State) (c q : Nat) (halted : Bool) : State :=
  let p := s.core c
  s.onCore q (fun x => { x with
    st := .active, logical := p.logical, ctx := p.ctx, scrub := true
    run := if p.ctx.isNone then .idle else if halted then .halted else .running
    x := p.x.replacement halted })

/-- The FENCE events, in the fabric ring and in every core of the context. -/
def State.fenceEvents (s : State) (c : Nat) (q : Option Nat) (n : Option Nat) : State :=
  let d := c + q.getD 0x1FF * 2 ^ 9
  let w : Work := match n with
    | some n => { Work.none with part := (s.ctx n).part, ctx := n }
    | none => Work.none
  let s := s.event (.fabric (regionOf c)) 0x09 d w
  match n with
  | some n => s.ctxEvents n 0x09 d (s.ctxCores n)
  | none => s

/-- A fence is counted for the partition that the core served. -/
def State.countFence (s : State) (l : Nat) : State :=
  match s.owner l with
  | some p => s.countPart p 2 1
  | none => s

/-! ### A core fault (19 R465, R467, R469) -/

def faultCode : FaultCause → Nat
  | .residue => 0x04 | .watchdog => 0x05 | .uncorrectable => 0x02

/-- The record of a core fault, with the mark of the work that ran. The address of damage and which
uncorrectable syndrome it has are free values (log 79). -/
def State.faultRecord (s : State) (c : Nat) (cause : FaultCause) : State :=
  let w := s.workOf c
  let v := if cause = .uncorrectable then (Config.freeWord s.free).toNat else 0
  s.drawn.logError { ErrIn.plain 1 1 (faultCode cause) c (bits v 8 48) with
    part := w.part, ctx := (s.core c).ctx, layer := w.layer, op := w.op
    extra := if cause = .uncorrectable then someUncorrectable (bits v 0 8) else 0 }

/-- The logical number of a fenced core passes to a spare, or leaves. -/
def State.passOn (s : State) (c : Nat) (halted again : Bool) : State :=
  let l := (s.core c).logical
  match s.spareFor c with
  | some q => (s.handOver c q halted).onCore c PCore.fence
  | none => (s.onCore c PCore.fence).leave l again

/-- The context of a fenced core: what RUNNING or STOPPING work restarts its group, a save or a restore goes on with
the capture slots. -/
def State.fencedCtx (s : State) (n : Nat) (again : Bool) : State :=
  match (s.ctx n).st with
  | .running | .stopping =>
    let s := s.status n 13
    if again then (s.haltForRestart n).restartGroup n else s.maybeFinish n
  | .saving => (s.status n 13).onCtx n (fun x => { x with restart := true })
  | .restoring => (s.status n 13).onCtx n Ctx.rerankSaved
  | _ => s

/-- The core had halted with all its work done: no group of its context is open on it (19 R469). -/
def State.doneOn (s : State) (c : Nat) : Bool := (s.core c).run = .halted && (s.x c).drained

/-- The region's collector takes the faults of one tick in ascending core order: one behind a higher core's is not its turn
(19 R469). -/
def State.faultTurn (s : State) (c : Nat) : Bool :=
  (s.region (regionOf c)).lastFault.elim true (fun f => f.1 ≠ s.time || f.2 ≤ c)

def State.noteFault (s : State) (c : Nat) : State := s.onRegion (regionOf c) (fun g => { g with lastFault := some (s.time, c) })

/-- The fence on a core fault: only a core in service can be fenced. -/
def State.coreFault (s : State) (c : Nat) (cause : FaultCause) : State :=
  if !s.faultTurn c then s
  else match (s.core c).st with
  | .active =>
    let n := (s.core c).ctx
    let done := s.doneOn c
    let q := s.spareFor c
    let s := ((s.noteFault c).faultRecord c cause).countFence (s.core c).logical
    let s := s.onCore c (fun p => { p with ue := min (p.ue + 1) 65535 })
    let s := (s.dropOutside c).passOn c done !done
    let s := s.fenceEvents c q n
    match n with
    | some n => s.fencedCtx n !done
    | none => s
  | .spare =>
    let s := ((s.noteFault c).faultRecord c cause).onCore c (fun p => { p.out .fenced with ue := min (p.ue + 1) 65535 })
    s.fenceEvents c none none
  | _ => s

def execCoreFence (c : Fin 264) (cause : FaultCause) (s : State) : Host.Outcome State Fault Refusal :=
  .next (s.coreFault c cause)

/-- The vector engine waits for a tile, or the matrix engine for room in the tile queue (05 R113, 06 R139). -/
def State.tileWait (s : State) (c : Nat) (e : Engine) : Bool :=
  let x := s.x c
  match e with
  | .matrix => !x.drains.isEmpty
  | .vector => (x.queueOf .vector).head?.elim false (fun k => x.mayStart k && (effectOf k.instr s c k).isNone)
  | _ => false

/-- The engine that holds the core's oldest tag, in the hands of instruction `id`, awaits nothing from outside the core
and waits on no queue. -/
def State.awaitsNothing (s : State) (c id : Nat) : Bool :=
  let x := s.x c
  match x.oldest with
  | none => false
  | some e =>
    !x.inflight.any (fun k => k.eng = e && (k.stks ≠ 0 || s.inWells c k.id || s.putWaits c k.id))
      && !x.queue.any (fun k => k.id = id && k.stks ≠ 0) && !x.reds.any (fun o => o.id = id) && !s.tileWait c e

/-- The watchdog counts 1,048,576 core cycles, which take 524,288 ns or more (04 R82). -/
def execScoreboardWatchdogExpiry (c : Fin 264) (s : State) : Host.Outcome State Fault Refusal :=
  .next (match (s.x c).tags with
    | [] => s
    | t :: _ =>
      if s.awaitsNothing c t.owner && s.time ≥ (s.x c).watch + 524288 then s.coreFault c .watchdog else s)

/-- The watchdog of each core whose oldest tag waits on something from outside counts from now on (04 R82). -/
def State.renewWatch (s : State) : List Nat → State
  | [] => s
  | c :: r =>
    (match (s.x c).tags with
      | [] => s
      | t :: _ => if s.awaitsNothing c t.owner then s else s.onX c (fun x => { x with watch := s.time })).renewWatch r

/-! ### Moving a core out of service (19 R465, R470) -/

/-- The core runs no context, or its context stands on it at a preemption point or has halted, with nothing
outstanding. -/
def State.movable (s : State) (c : Nat) : Bool :=
  let p := s.core c
  match p.ctx with
  | none => true
  | some n =>
    (p.run = .stopped || p.run = .halted) && p.x.drained && !(s.ctx n).restart
      && ((s.ctx n).st = .running || (s.ctx n).st = .stopping)

/-- The state that a spare goes on from: the image of the save, over zeros. -/
def State.movedState (s : State) (c : Nat) : Exec :=
  (s.image c (s.jobLanes ((s.core c).ctx.elim 0 (fun n => (s.ctx n).part)))).onto Exec.zero s.time

/-- The core's work goes to spare `q`, which resumes at the preemption point unless the context is to stop there. The
scrub of the spare comes first. -/
def State.moveTo (s : State) (c q : Nat) : State :=
  let p := s.core c
  let x := if p.ctx.isNone then Exec.zero else s.movedState c
  let run : RunSt := match p.ctx with
    | none => .idle
    | some n => if p.run = .halted then .halted else if (s.ctx n).preempt then .stopped else .running
  let s := s.onCore q PCore.scrubbed
  s.onCore q (fun y => { y with st := .active, logical := p.logical, ctx := p.ctx, run := run, x := x })

/-- The context that a move concerned completes with CORE_FENCED. -/
def State.statusOf (s : State) (n : Option Nat) : State :=
  match n with
  | some n => s.status n 13
  | none => s

/-- The fence of a core that reached CE_LIMIT, at the point where its context stands. -/
def State.moveFenced (s : State) (c : Nat) : State :=
  let p := s.core c
  let w := s.workOf c
  let s := (s.logError { ErrIn.plain 1 1 0x0A c 0 with part := w.part, ctx := p.ctx, layer := w.layer, op := w.op }).countFence p.logical
  match s.spareFor c with
  | some q =>
    (((s.moveTo c q).onCore c PCore.fence).fenceEvents c (some q) p.ctx).statusOf p.ctx
  | none =>
    let s := ((s.onCore c PCore.fence).leave p.logical true).fenceEvents c none p.ctx
    match p.ctx with
    | some n => s.restartGroup n
    | none => s

/-- A core without a spare is tested in place: its context is to stop and be saved first. -/
def State.testInPlace (s : State) (c : Nat) : State :=
  let s := s.onCore c (fun p => { p with moveOut := none, inPlace := true })
  match (s.core c).ctx with
  | none => s.onCore c (fun p => { p with st := .testing })
  | some n => if (s.ctx n).st = .running then s.preempt n else s

/-- An ACTIVE core begins its test: its work moves to a spare while the region has one (19 R470). -/
def State.moveTested (s : State) (c : Nat) : State :=
  let p := s.core c
  match s.spareFor c with
  | some q => ((s.moveTo c q).onCore c (fun p => p.out .testing)).statusOf p.ctx
  | none => s.testInPlace c

/-- A wait of R465 or R470 on a core ends once its context stands still there. -/
def State.moveIfReady (s : State) (c : Nat) : State :=
  let p := s.core c
  if p.inPlace && p.st = .active && p.ctx.isNone then s.onCore c (fun p => { p with st := .testing })
  else match p.moveOut with
    | none => s
    | some fence =>
      if !s.movable c then s
      else if fence then s.moveFenced c
      else s.moveTested c

def State.moveAll (s : State) : List Nat → State
  | [] => s
  | c :: r => (s.moveIfReady c).moveAll r

/-- The core's corrected errors of the last 1,000 ms (19 R465). -/
def PCore.ceSum (p : PCore) (ms : Nat) : Nat := (p.ceWin.filter (fun e => ms < e.1 + 1000)).foldl (fun a e => a + e.2) 0

/-- The core's corrected count has reached CE_LIMIT within a second. -/
def State.ceReached (s : State) (c : Nat) : Bool :=
  let lim := fld (s.pfReg (0x40000 + c * 0x200)) 8 8
  lim ≠ 0 && lim ≤ (s.core c).ceSum (s.time / 1000000)

/-- The core is to be fenced at its context's next stop; a test that waits for that stop follows the fence (19 R465, R470;
DEDUCED, log 178). -/
def PCore.toFence (p : PCore) : PCore :=
  { p with moveOut := some true, inPlace := false, testNext := p.testNext || p.inPlace || p.moveOut = some false }

def execCeLimitFence (c : Fin 264) (s : State) : Host.Outcome State Fault Refusal :=
  .next (
    if s.ceReached c && (s.core c).st = .active && (s.core c).moveOut ≠ some true then
      ((s.onCore c PCore.toFence).stopHere c).moveIfReady c
    else s.moveIfReady c)

/-! ### Self-test (19 R470) -/

/-- Writing 1 to SELFTEST. -/
def selfTest (s : State) (c : Nat) : State :=
  let p := s.core c
  match p.st with
  | .fenced | .spare => s.onCore c (fun p => { p with st := .testing })
  | .active =>
    if p.moveOut = some true then s.onCore c (fun p => { p with testNext := true })
    else if p.moveOut.isSome || p.inPlace then s
    else if (s.spareFor c).isSome then (s.onCore c (fun p => { p with moveOut := some false })).moveIfReady c
    else s.testInPlace c
  | _ => s

def execSelftest (c : Fin 264) (s : State) : Host.Outcome State Fault Refusal :=
  .next (s.whenReady (fun s => selfTest s c))

/-- The lowest logical core of a region that no physical core serves. -/
def State.unserved (s : State) (r : Nat) : Option Nat :=
  ((List.range 64).map (fun i => r * 64 + i)).find? (fun l => (s.phys l).isNone)

/-- A core tested in place keeps its logical number; its memory test leaves its storage zero (DEDUCED, log 56). -/
def State.testPassed (s : State) (c : Nat) : State :=
  let s := s.onCore c (fun p => { p with result := 1 })
  if (s.core c).inPlace then s.onCore c (fun p => { p.scrubbed with st := .active, inPlace := false })
  else match s.unserved (regionOf c) with
    | some l => s.onCore c (fun p => { p with st := .active, logical := l, scrub := true })
    | none => s.onCore c (fun p => { p with st := .spare })

def State.testFailed (s : State) (c : Nat) : State :=
  let p := s.core c
  let s := s.onCore c (fun p => { p.out .failed with result := 2 })
  let s := { s with belv := s.belv.logFailed [c] s.time }
  if p.inPlace then s.leave p.logical true else s

/-- The physical cores that fail the reduced self-test are FAILED and join Belvedere's list; a spare of its region takes
an active one's number, or that leaves (20 R483, 23 R535; DEDUCED for the number, log 187). -/
def State.failReduced (s : State) : List Nat → State
  | [] => s
  | c :: l =>
    let p := s.core c
    let fail (p : PCore) : PCore := p.out .failed
    let t : State := { s with belv := s.belv.logFailed [c] s.time }
    if p.st = .failed then s.failReduced l
    else if p.st = .active then
      match t.spareFor c with
      | some q => ((t.onCore q (fun x => { x with st := .active, logical := p.logical })).onCore c fail).failReduced l
      | none => ((t.onCore c fail).leave p.logical false).failReduced l
    else (t.onCore c fail).failReduced l

/-- The reduced self-test of every core that is not FAILED: which cores fail is a free value. Spares that fail go out first. -/
def State.reducedTest (s : State) : State :=
  let bad := ((Config.reducedFails s.free).eraseDups).filter (fun c => c < 264)
  s.drawn.failReduced (bad.filter (fun c => (s.core c).st ≠ .active) ++ bad.filter (fun c => (s.core c).st = .active))

def execSelftestDone (c : Fin 264) (pass : Bool) (s : State) : Host.Outcome State Fault Refusal :=
  .next (if (s.core c).st ≠ .testing then s
    else
      let s := s.logError (.plain 1 0 (if pass then 0x0B else 0x0C) c 0)
      if pass then s.testPassed c else s.testFailed c)

end Sys2Proof.Machine
end

