-- ==== Sys2Proof/Machine/Links.lean ====
section
/-! DEFINITION. Link ports: received flits, remote writes at their destination, retry and lanes, dead and lost members
(16 R379 to R407, 11 R265 to R268, 19 R464). -/

namespace Sys2Proof.Machine

/-! ### Dead members (16 R403, R404) -/

/-- What a module holds of another member; its epoch is the own one until a JOIN gives it (DEDUCED, log 49). -/
def Job.member (j : Job) (r : Nat) : Member :=
  (Tab.at? j.members r).getD { epoch := j.epoch, dead := none, lost := false }

def Job.setMember (j : Job) (r : Nat) (m : Member) : Job := { j with members := Tab.put j.members r m }

/-- PEER_DOWN to `dst`, naming rank `r` at the epoch it is held dead at. -/
def State.sendDown (s : State) (p dst r epoch : Nat) : State :=
  s.sendFlit p 9 dst (fun j => mkFlit j dst 0 false true (r + epoch * 2 ^ 16) [])

/-- The reductions of groups that hold the member are suspended. -/
def freezeReds (p r : Nat) (j : Job) (l : List Reduction) : List Reduction :=
  l.map (fun x => if x.part = p && (j.group x.jg).elim false (fun g => g.members.contains r) then { x with frozen := true } else x)

/-- A flit of this member that waits to go to rank `r`, which is sent nothing but PEER_DOWN while it is dead (16 R404). -/
def sentTo (j : Job) (r : Nat) (t : TxFlit) : Bool :=
  t.flit.jobTag.toNat = j.tag && t.flit.src.toNat = j.rank && t.flit.dst.toNat = r && t.ty ≠ 9

/-- The module holds rank `r` dead at the epoch it has of it (16 R403, R404). -/
def State.markDead (s : State) (p r : Nat) : State :=
  match (s.part p).job with
  | none => s
  | some j =>
    let m := j.member r
    if m.dead.isSome || r = j.rank || r ≥ j.size then s
    else
      let s := s.onPart p (fun q => { q with
        held := q.held.filter (fun h => h.src ≠ r), earlySig := q.earlySig.filter (fun e => e.1 ≠ r)
        unacked := q.unacked.filter (fun e => e.1 % 4096 ≠ r) })
      let s : State := { s with ports := s.ports.map (fun x => (x.1, { x.2 with
        reds := freezeReds p r j x.2.reds, waiting := x.2.waiting.filter (fun t => !sentTo j r t) })) }
      s.setJob p (j.setMember r { m with dead := some s.time })

def State.sendDowns (s : State) (p r epoch : Nat) : List Nat → State
  | [] => s
  | d :: l => (s.sendDown p d r epoch).sendDowns p r epoch l

/-- Direct neighbours of a job whose every port has lost alignment (16 R403). -/
def State.cutOff (s : State) (p : Nat) : List Nat :=
  match (s.part p).job with
  | none => []
  | some j =>
    ((j.neighbours (List.range j.size)).map (fun n => n.2)).filter (fun r =>
      (j.member r).dead.isNone && (maskPorts (Tab.val 0 j.routes r)).all (fun q => !(s.port q).up))

def State.cutOffs (s : State) (p : Nat) : List Nat → State
  | [] => s
  | r :: l =>
    let s := s.markDead p r
    match (s.part p).job with
    | none => s
    | some j => (s.sendDowns p r (j.member r).epoch (List.range j.size)).cutOffs p l

def State.cutParts (s : State) : List Nat → State
  | [] => s
  | p :: r => (s.cutOffs p (s.cutOff p)).cutParts r

/-- Every job's members that a port down cuts off. -/
def State.cutAll (s : State) : State := s.cutParts (s.parts.map (fun p => p.1))

/-! ### Retry, credits, lanes (16 R379, R384 to R386) -/

/-- Flits up to the acknowledged number leave the replay buffer; with them ends a run of NAKs. -/
def Link.acked (l : Link) (ack : Nat) : Link :=
  if l.replay.any (fun t => t.flit.tr.lseq.toNat = ack) then
    { l with replay := (l.replay.dropWhile (fun t => t.flit.tr.lseq.toNat ≠ ack)).drop 1, nakRun := 0 }
  else l

/-- A replay sends every flit of a path's buffer again. -/
def Port.replayed (q : Port) (k : Nat) : Port :=
  { q with replays := min (q.replays + 1) 65535, txFlits := q.txFlits + BitVec.ofNat 64 (q.link k).replay.length }

/-- Lanes of one interface in a mode (16 R379). -/
def modeLanes (m : Nat) : Nat := if m = 3 then 4 else if m = 4 then 1 else 8

/-- The record of a lane that retired, or of a port in service that went down and retrains (19 R471, R473; DEDUCED for
the latter, log 151). -/
def State.linkError (s : State) (p cause : Nat) : State := s.logError (.plain 7 0 cause p 0)

/-- An event in the ring of the port. -/
def State.portEvent (s : State) (q p kind data : Nat) : State := s.event (.port q) kind data { Work.none with part := p }

def Port.noRuns (q : Port) : Port := { q with links := q.links.map (fun l => (l.1, { l.2 with nakRun := 0 })) }

/-- The port loses its partner and trains again. -/
def Port.down (q : Port) : Port := { q.noRuns with up := false, training := true, lanes := 0 }

/-- The port gives up on a flit NAKed 16 times in a row (16 R386): RAMMO retires a lane or retrains; in an Ethernet mode
the failing interface goes down. -/
def State.failLane (s : State) (p : Nat) : State :=
  let q := s.port p
  let m := s.linkMode p
  if m = 1 && q.lanes = 8 && (s.pfReg (lnkCtrl p)).getLsbD 7 then
    ((s.setPort p { q.noRuns with lanes := 7 }).portEvent p 0 0x0D 1).linkError p 0x09
  else if m = 1 || q.lanes ≤ modeLanes m then (((s.setPort p q.down).portEvent p 0 0x0D 0).linkError p 0x0F).cutAll
  else ((s.setPort p { q.noRuns with lanes := q.lanes - modeLanes m, training := true }).portEvent p 0 0x0D 0).linkError
    p 0x0F

/-- NAK on a path, with ACK naming the last good flit: every flit after it is sent again (16 R385, R386). -/
def State.naked (s : State) (p k ack : Nat) : State :=
  let l := ((s.port p).link k).acked ack
  let n := if l.nakAck = ack && l.nakRun ≠ 0 then l.nakRun + 1 else 1
  let s := s.onPort p (fun q => (q.setLink k { l with nakAck := ack, nakRun := n }).replayed k)
  if n ≥ 16 then s.failLane p else s

def execNak (e : PathEnd) (ack : BitVec 12) (s : State) : Host.Outcome State Fault Refusal :=
  .next (if (s.port e.port).up then s.naked e.port (s.pathKey e.port e.iface e.peer.toNat) ack.toNat else s)

/-- A flit fails its CRC: counted, discarded, and answered with NAK. -/
def execFlitCrcFail (e : PathEnd) (s : State) : Host.Outcome State Fault Refusal :=
  .next (s.onPort e.port (fun q =>
    { q.onLink (s.pathKey e.port e.iface e.peer.toNat) (fun l => { l with nak := true }) with crc := min (q.crc + 1) 65535 }))

/-- A flit in good order: the next number is expected, its ACK and its returned credits act, and its own credit is to
be returned. An IDLE flit and one of a reserved type take no credit (channel 3; DESIGN CHOICE, log 158), and one whose
credit is withheld returns none (16 R397). -/
def Link.took (l : Link) (ch : Nat) (tr : Trailer) : Link :=
  let l := ({ l with expect := (l.expect + 1) % 4096, nak := false } : Link).acked tr.ack.toNat
  { l with
    credits := if tr.chan.toNat < 3 then Tab.put l.credits tr.chan.toNat (Tab.val 0 l.credits tr.chan.toNat + tr.credits.toNat)
      else l.credits
    owed := if ch < 3 then Tab.put l.owed ch (Tab.val 0 l.owed ch + 1) else l.owed }

/-- What a flit in good order leaves at its port: it is counted, its trailer acts, and what may now leave leaves. -/
def State.flitIn (s : State) (q ch iface : Nat) (peer : BitVec 48) (tr : Trailer) : State :=
  let key := s.pathKey q iface peer.toNat
  let s := s.onPort q (fun x => { x.onLink key (fun l => l.took ch tr) with rxFlits := x.rxFlits + 1 })
  let s := if tr.nak then s.naked q key tr.ack.toNat else s
  s.drain q

/-- A flit passes the checks of its path, or is out of sequence: then it is discarded and answered with NAK
(16 R385). One from a remote interface beyond the 64 of its local interface is discarded (DESIGN CHOICE, log 183). -/
def State.inOrder (s : State) (q ch iface : Nat) (peer : BitVec 48) (tr : Trailer) (k : State → State) : State :=
  let key := s.pathKey q iface peer.toNat
  if !(s.port q).up then s
  else if !(s.port q).hasPath key then s.onPort q (fun x => { x with discarded := x.discarded + 1 })
  else if ((s.port q).link key).expect ≠ tr.lseq.toNat then s.onPort q (fun x => x.onLink key (fun l => { l with nak := true }))
  else k (s.flitIn q ch iface peer tr)

/-! ### Reception (16 R390, R403, R404, 19 R464) -/

/-- The partition whose job has a tag. -/
def State.jobOf (s : State) (tag : Nat) : Option (Nat × Job) :=
  match s.parts.find? (fun p => p.2.job.elim false (fun j => j.tag = tag)) with
  | some p => p.2.job.map (fun j => (p.1, j))
  | none => none

/-- A flit of type `ty` from a member held dead, with the dead epoch. JOIN gives its epoch whole, and is compared by
that (16 R405). -/
def Job.fromDead (j : Job) (ty : Nat) (f : Flit) : Bool :=
  ty ≠ 8 && (j.member f.src.toNat).dead.isSome && (j.member f.src.toNat).epoch % 256 = f.epoch.toNat

/-- A flit for another rank leaves by the own route table, as it came. -/
def State.forward (s : State) (q p ty : Nat) (j : Job) (f : Flit) : State :=
  match s.route j ty f.src.toNat f.dst.toNat with
  | some t => s.portSend t p ty (s.pathTo t j f.dst.toNat) f
  | none => s.discardAt q

/-- Bytes of a unit's ordered reduction that wait for their turn: those of members behind the next in rank order. -/
def Reduction.ahead (r : Reduction) (members len : Nat) : Nat :=
  match r.spec with
  | none => 0
  | some sp =>
    if !sp.ord then 0
    else
      let w := fmtBits sp.ifmt
      ((chunkList len).filter (fun c => !r.done.contains c)).foldl (fun a c =>
        let n := chunkRange len c
        let next := ((List.range members).find? (fun m => !r.got.any (fun k => k.member = m && k.has w n.1 n.2))).getD members
        a + ((r.got.filter (fun k => k.member > next)).map (fun k =>
          ((k.flits.filter (fun f => n.1 ≤ f.off && f.off < n.2)).map (fun f => f.bytes.length)).sum)).sum) 0

/-- The reorder buffer of a port's unit, of 16 MiB, is full (16 R397). -/
def State.reorderFull (s : State) (q : Nat) : Bool :=
  (((s.port q).reds.map (fun r =>
    match (s.part r.part).job.bind (fun j => j.group r.jg), r.spec with
    | some g, some sp => r.ahead g.members.length (shardLen sp.n g.members.length g.index)
    | _, _ => 0)).sum) ≥ 2 ^ 24

/-- The member whose contribution an ordered reduction adds next: of the first chunk that is not done. -/
def Reduction.turn (r : Reduction) (members len : Nat) : Option Nat :=
  r.spec.bind (fun sp => ((chunkList len).find? (fun c => !r.done.contains c)).bind (fun c =>
    let n := chunkRange len c
    (List.range members).find? (fun m => !r.got.any (fun k => k.member = m && k.has (fmtBits sp.ifmt) n.1 n.2))))

/-- The unit that withholds the credit of a RED flit: its reorder buffer is full, and the flit's member is not the next in
rank order of its reduction (16 R397). -/
def State.withholds (s : State) (f : Flit) : Option Nat :=
  match s.jobOf f.jobTag.toNat with
  | none => none
  | some (p, j) =>
    let k := RedKey.of f.hdrB
    (j.group k.jg).bind (fun g =>
      (((s.port g.port).reds.find? (Reduction.is p k)).filter (fun r => r.spec.elim false (fun sp => sp.ord
        && r.turn g.members.length (shardLen sp.n g.members.length g.index) ≠ some (g.members.idxOf f.src.toNat)
        && f.dst.toNat = j.rank && s.reorderFull g.port))).map (fun _ => g.port))

/-- Credits that a unit with room again withheld are to be returned. -/
def Link.released (l : Link) (full : Nat → Bool) : Link :=
  let n := (l.withheld.filter (fun u => !full u)).length
  { l with withheld := l.withheld.filter full, owed := if n = 0 then l.owed else Tab.put l.owed 2 (Tab.val 0 l.owed 2 + n) }

/-- At a tick, the credits that no unit withholds any more. -/
def State.releaseCredits (s : State) : State :=
  if s.ports.all (fun q => q.2.links.all (fun l => l.2.withheld.isEmpty)) then s
  else { s with ports := s.ports.map (fun q => (q.1, { q.2 with links := q.2.links.map (fun l =>
    (l.1, l.2.released s.reorderFull)) })) }

/-- The unit that withholds the credit of a flit of type `ty`, and the channel to which the flit's credit returns; 3 is none. -/
def State.heldBy (s : State) (ty : Nat) (f : Flit) : Option Nat := if ty = 4 then s.withholds f else none
def State.creditOf (s : State) (ty : Nat) (f : Flit) : Nat := if (s.heldBy ty f).isSome then 3 else chanOf ty

/-- A unit takes a flit's credit to withhold. -/
def State.withhold (s : State) (q : Nat) (f : Flit) : Option Nat → State
  | none => s
  | some r => s.onPort q (fun x => x.onLink (s.pathKey q f.iface f.peer.toNat) (fun l => { l with withheld := r :: l.withheld }))

/-- A flit of type `ty` arrives at a port that is up: forwarded, discarded, or given to `k` with its partition and
job. Damaged granules discard every flit but PUT and RED. -/
def receive (s : State) (q ty : Nat) (f : Flit) (k : State → Nat → Job → State) : State :=
  let u := s.heldBy ty f
  s.inOrder q (s.creditOf ty f) f.iface f.peer f.tr (fun s =>
    let s := s.withhold q f u
    match s.jobOf f.jobTag.toNat with
    | none => s.discardAt q
    | some (p, j) =>
      if f.dst.toNat ≥ j.size then s.discardAt q
      else if f.dst.toNat ≠ j.rank then s.forward q p ty j f
      else if j.fromDead ty f then
        (s.discardAt q).sendDown p f.src.toNat f.src.toNat (j.member f.src.toNat).epoch
      else if !f.badG.isEmpty && ty ≠ 1 && ty ≠ 4 then s.discardAt q
      else k s p j)

/-! ### Remote writes (11 R266, R267, 16 R392) -/

/-- A payload with the marks of its damaged granules. -/
def markedBytes (f : Flit) : List PByte := f.payload.mapIdx (fun i b => (b, f.badG.contains (i / 8)))

/-- The writer of a remote write: the partition bound to the job. -/
def linkWho (p : Nat) : Who := { part := p, ctx := none, core := none, layer := 0, op := 0 }

/-- Writes bytes of a remote write; one stopped by a poisoned translation entry is dropped with a record, as a host
write is (19 R463; DESIGN CHOICE, log 50). -/
def State.landBytes (s : State) (p va : Nat) (bs : List PByte) : State :=
  let g := s.writeVirt (linkWho p) va bs
  if g.stop then g.s.poisonedEntry (linkWho p) va bs.length else g.s

def State.landAll (s : State) (p : Nat) : List (Nat × List PByte) → State
  | [] => s
  | (va, bs) :: r => (s.landBytes p va bs).landAll p r

/-- The key of a source core: rank and logical core. -/
def srcKey (src score : Nat) : Nat := src * 256 + score

def Landed.fresh : Landed := { next := 0, ahead := [] }

/-- Numbers that follow without a gap are passed. -/
def Landed.settle (l : Landed) : Nat → Landed
  | 0 => l
  | n + 1 =>
    if l.ahead.contains l.next then
      Landed.settle { next := (l.next + 1) % 65536, ahead := l.ahead.filter (fun k => k ≠ l.next) } n
    else l

/-- Write `seq` has landed. -/
def Landed.mark (l : Landed) (seq : Nat) : Landed := Landed.settle { l with ahead := seq :: l.ahead } (l.ahead.length + 1)

/-- Write `seq` is among those that have landed; fewer than 2^15 are ever outstanding. -/
def Landed.has (l : Landed) (seq : Nat) : Bool :=
  l.ahead.contains seq || (0 < (l.next + 65536 - seq) % 65536 && (l.next + 65536 - seq) % 65536 < 32768)

def State.landedOf (s : State) (p src score : Nat) : Landed := Tab.val Landed.fresh (s.part p).landed (srcKey src score)

/-- Marks a write as landed and acknowledges it to its source. -/
def State.markLanded (s : State) (p src score seq : Nat) : State :=
  let l := (s.landedOf p src score).mark seq
  let s := s.onPart p (fun q => { q with landed := Tab.put q.landed (srcKey src score) l })
  s.sendFlit p 3 src (fun j => mkFlit j src score false true l.next [])

/-- A SIG is applied: its object is incremented by 1. -/
def State.applySig (s : State) (p h : Nat) : State :=
  match s.handle p h with
  | some o => s.sigApply o 1 false none
  | none => s.violateBy (linkWho p) .foreignHandle h

def State.applySigs (s : State) (p : Nat) : List Nat → State
  | [] => s
  | h :: r => (s.applySig p h).applySigs p r

/-- A write has landed: it is marked and acknowledged, and the SIG flits that came before are applied. -/
def State.landed (s : State) (p : Nat) (h : Inbound) : State :=
  let mine (e : Nat × Nat × Nat × Nat) : Bool := e.1 = h.src && e.2.1 = h.score && e.2.2.1 = h.seq
  let early := ((s.part p).earlySig.filter mine).map (fun e => e.2.2.2)
  let s := s.onPart p (fun q => { q with held := q.held.filter (fun k => k ≠ h), earlySig := q.earlySig.filter (fun e => !mine e) })
  ((s.landAll p h.bytes).markLanded p h.src h.score h.seq).applySigs p early

/-- Every byte of the write has come. -/
def Inbound.whole (h : Inbound) : Bool :=
  match h.first, h.stop with
  | some a, some b => h.n + a = b
  | _, _ => false

/-- A held FIN write whose earlier writes have all landed. -/
def State.finReady (s : State) (p src score : Nat) : Option Inbound :=
  (s.part p).held.find? (fun h => h.fin && h.src = src && h.score = score && h.whole && h.seq = (s.landedOf p src score).next)

def Inbound.is (src score seq : Nat) (h : Inbound) : Bool := h.src = src && h.score = score && h.seq = seq

/-- A flit of a write with `n` bytes at `va`. -/
def Inbound.add (h : Inbound) (va : Nat) (f : Flit) : Inbound :=
  let n := f.payload.length
  { h with
    first := if f.first then some va else h.first, stop := if f.last then some (va + n) else h.stop, n := h.n + n
    bytes := if h.fin then h.bytes ++ [(va, markedBytes f)] else [] }

/-- What has come of the write that a flit belongs to, with that flit. -/
def State.inbound (s : State) (p src score seq va : Nat) (f : Flit) : Inbound :=
  (((s.part p).held.find? (Inbound.is src score seq)).getD
    { src := src, score := score, seq := seq, fin := f.fin, first := none, stop := none, n := 0, bytes := [] }).add va f

/-- Lands the FIN write of a source core that nothing holds any more. -/
def State.releaseFin (s : State) (p src score : Nat) : State :=
  match s.finReady p src score with
  | some h => s.landed p h
  | none => s

/-- A PUT flit: its bytes land, or are held with those of their FIN write. The write has landed once every byte of it
is in, in whatever order its flits came (11 R265, 16 R390). -/
def execPut (port : Fin 18) (f : Flit) (s : State) : Host.Outcome State Fault Refusal :=
  .next (receive s port 1 f (fun s p _ =>
    let seq := fld f.hdrB 48 16
    let va := fld f.hdrB 0 48
    let src := f.src.toNat
    let score := f.score.toNat
    let h := s.inbound p src score seq va f
    let s := s.countPart p 7 f.payload.length
    let s := s.onPart p (fun q => { q with held := q.held.filter (fun k => !k.is src score seq) ++ [h] })
    let s := if f.fin then s else s.landBytes p va (markedBytes f)
    if !h.whole then s
    else if !f.fin then s.landed p h
    else if (s.landedOf p src score).next = seq then s.releaseFin p src score
    else s))

/-- A held FIN write lands once every lower number of its source core has landed (11 R267). -/
def execFinWriteRelease (p : Fin 256) (src : Fin 4096) (score : Fin 256) (s : State) :
    Host.Outcome State Fault Refusal := .next (s.releaseFin p src score)

/-- A SIG flit: applied when its FIN write has landed, else kept for it. -/
def execSig (port : Fin 18) (f : Flit) (s : State) : Host.Outcome State Fault Refusal :=
  .next (receive s port 2 f (fun s p _ =>
    let h := fld f.hdrB 0 18
    let seq := fld f.hdrB 48 16
    let src := f.src.toNat
    let score := f.score.toNat
    if (s.landedOf p src score).has seq then s.applySig p h
    else s.onPart p (fun q => { q with earlySig := q.earlySig ++ [(src, score, seq, h)] })))

/-- LANDED: every write of the core below the count has landed. -/
def execLanded (port : Fin 18) (f : Flit) (s : State) : Host.Outcome State Fault Refusal :=
  .next (receive s port 3 f (fun s p _ =>
    let key := putKey f.score.toNat f.src.toNat
    s.onPart p (fun q => { q with
      unacked := Tab.put q.unacked key ((Tab.val 0 q.msgseq key + 65536 - fld f.hdrB 0 16) % 65536) })))

/-! ### Reductions (16 R396 to R400) -/

/-- A contribution flit reaches the unit of its group's REDUCE_PORT. -/
def execRed (port : Fin 18) (f : Flit) (s : State) : Host.Outcome State Fault Refusal :=
  .next (receive s port 4 f (fun s p j =>
    let k := RedKey.of f.hdrB
    match j.group k.jg with
    | none => s.countPart p 8 1
    | some g =>
      let s := s.countPart p 7 f.payload.length
      if g.members.contains f.src.toNat then
        s.redReceive p g.port j g k (g.members.idxOf f.src.toNat) f.last (!f.badG.isEmpty) f.payload
      else s.countPart p 8 1))

/-- A result flit lands at the output range of the `cl.reduce` that waits for it. -/
def execRedResult (port : Fin 18) (f : Flit) (s : State) : Host.Outcome State Fault Refusal :=
  .next (receive s port 5 f (fun s p j =>
    let k := RedKey.of f.hdrB
    match j.group k.jg with
    | none => s.discardAt port
    | some g =>
      match s.landResult p (g.members.idxOf f.src.toNat) k f.payload with
      | some t => t.countPart p 7 f.payload.length
      | none => s.discardAt port))

def execReductionWindowExpiry (port : Fin 18) (k : Nat) (s : State) : Host.Outcome State Fault Refusal :=
  .next (match (s.port port).reds[k]? with
    | none => s
    | some r => if r.expired s.time then s.abandon port r else s)

def execStepRetry (port : Fin 18) (f : Flit) (s : State) : Host.Outcome State Fault Refusal :=
  .next (receive s port 6 f (fun s p _ =>
    let k := { RedKey.of f.hdrB with off := 0 }
    let join := f.hdrB.getLsbD 42
    let s := s.portEvent port p 0x0C (k.step + k.rep * 2 ^ 24 + b2n join * 2 ^ 26)
    match s.stepRetry p f.src.toNat k join with
    | some t => t
    | none => s.discardAt port))

/-! ### Dead members (16 R403 to R405) -/

def execResetNotice (port : Fin 18) (f : Flit) (s : State) : Host.Outcome State Fault Refusal :=
  .next (receive s port 7 f (fun s p _ =>
    (s.portEvent port p 0x0D (3 + f.src.toNat * 2 ^ 16)).markDead p f.src.toNat))

/-- The reductions of a partition in groups that hold rank `r`, in every port. -/
def State.groupReds (s : State) (p r : Nat) (j : Job) : List Reduction :=
  ((s.ports.map (fun x => x.2.reds)).flatten).filter (fun x =>
    x.part = p && (j.group x.jg).elim false (fun g => g.members.contains r))

/-- Windows that nothing suspends any more run from their full length. -/
def thawReds (p now : Nat) (j : Job) (l : List Reduction) : List Reduction :=
  l.map (fun x =>
    if x.part = p && x.frozen && !(j.group x.jg).elim false j.anyDead then { x with frozen := false, start := now } else x)

/-- Numbers of writes to and from a member that has rejoined start again (DESIGN CHOICE, log 43). -/
def Part.renumberFor (q : Part) (r : Nat) : Part :=
  { q with
    landed := q.landed.filter (fun e => e.1 / 256 ≠ r), msgseq := q.msgseq.filter (fun e => e.1 % 4096 ≠ r)
    unacked := q.unacked.filter (fun e => e.1 % 4096 ≠ r) }

/-- A dead member rejoins at a new epoch: pending reductions of its groups are abandoned, and their steps repeat. -/
def State.rejoin (s : State) (p r epoch : Nat) (j : Job) : State :=
  let rs := s.groupReds p r j
  let j := j.setMember r { (j.member r) with epoch := epoch, dead := none }
  let own := (0 :: j.groups.map (fun g => g.1)).any (fun g => (j.group g).elim false (fun x => x.members.contains r))
  let s := (s.onPart p (fun q => { q.renumberFor r with joins := q.joins + b2n own })).setJob p j
  let s : State := { s with ports := s.ports.map (fun x => (x.1, { x.2 with
    reds := thawReds p s.time j (x.2.reds.filter (fun y => !rs.contains y)) })) }
  s.rejoinReds p j (rs.filter (fun y => !y.got.isEmpty))

/-- JOIN (16 R405): from a lost member ignored; from a dead one with a new epoch, a rejoin, and with the dead epoch
discarded and answered by PEER_DOWN; from a live one, its new epoch (DESIGN CHOICE, log 49). -/
def execJoin (port : Fin 18) (f : Flit) (s : State) : Host.Outcome State Fault Refusal :=
  .next (receive s port 8 f (fun s p j =>
    let r := f.src.toNat
    let m := j.member r
    let e := fld f.hdrB 0 16
    let s := s.portEvent port p 0x0D (5 + r * 2 ^ 16)
    if m.lost then s
    else if m.dead.isNone then s.setJob p (j.setMember r { m with epoch := e })
    else if m.epoch = e then (s.discardAt port).sendDown p r r e
    else s.rejoin p r e j))

/-- PEER_DOWN (16 R402, R403): naming another member at the epoch held of it, or this module at its current epoch. -/
def execPeerDown (port : Fin 18) (f : Flit) (s : State) : Host.Outcome State Fault Refusal :=
  .next (receive s port 9 f (fun s p j =>
    let r := fld f.hdrB 0 12
    let e := fld f.hdrB 16 16
    let s := s.portEvent port p 0x0D (4 + r * 2 ^ 16)
    if r = j.rank then (if e = j.epoch then s.advanceEpoch p else s)
    else if (j.member r).epoch = e then s.markDead p r
    else s))

def execLaneAlignmentLoss (port : Fin 18) (s : State) : Host.Outcome State Fault Refusal :=
  .next (if !(s.port port).up then s
    else
      (((s.onPort port Port.down).portEvent port 0 0x0D 0).linkError port 0x0F).cutAll)

/-! ### Lost members (16 R406) -/

/-- A context with an open step that has a reduction in a group of rank `r`. -/
def State.stepsWith (s : State) (p r : Nat) (j : Job) : List Nat :=
  let inGroup (jg : Nat) : Bool := (j.group jg).elim false (fun g => g.members.contains r)
  let hit (x : Exec) : Bool :=
    x.step.elim false (fun t => t.kidx.any (fun e => inGroup e.1))
      || (x.step.isSome && x.queue.any (fun k => match k.instr with
          | .clReduce _ f => inGroup f.jg.toNat
          | _ => false))
  let live := s.ctxsOn ((s.cores.map (fun c => c.1)).filter (fun c =>
    (s.core c).ctx.elim false (fun n => (s.ctx n).part = p) && hit (s.x c)))
  let old := (s.ctxs.filter (fun x => x.2.part = p && x.2.saved.any (fun k => hit k.2.x))).map (fun x => x.1)
  (live ++ old).eraseDups

/-- A member dead for longer than REJOIN_MS is lost. -/
def execMemberLost (p : Fin 256) (rank : Fin 4096) (s : State) : Host.Outcome State Fault Refusal :=
  .next (match (s.part p).job with
    | none => s
    | some j =>
      let m := j.member rank
      match m.dead with
      | none => s
      | some t =>
        if m.lost || s.time ≤ t + j.rejoin * 1000000 then s
        else
          let s := s.setJob p (j.setMember rank { m with lost := true })
          s.abortAll 9 (s.stepsWith p rank j))

/-! ### Time alignment (16 R401, 13 R323) -/

/-- The timestamps of a TIMESYNC payload: t1 at byte 0, t2 at byte 8, t3 at byte 16 (DESIGN CHOICE, log 51). -/
def syncStamp (f : Flit) (i : Nat) : Nat := leAt f.payload (8 * i) 8

/-- A flit of a partition's job may enter a port: no other partition owns it (15 R371, 16 R391). -/
def State.mayEnter (s : State) (p q : Nat) : Bool := !(otherParts p).any (fun o => bit (s.ownedPorts o) q)

/-- A request is answered over the same port with the times of its arrival and of the answer, unless another partition
owns that port. -/
def execTimesyncRequest (port : Fin 18) (f : Flit) (t2 t3 : W64) (s : State) : Host.Outcome State Fault Refusal :=
  .next (receive s port 0xA f (fun s p j =>
    let pay := leBytes 8 (syncStamp f 0) ++ leBytes 8 t2.toNat ++ leBytes 8 t3.toNat
    if s.mayEnter p port then
      s.portSend port p 0xA (s.pathKey port f.iface f.peer.toNat) (mkFlit j f.src.toNat 0 false true 1 (clean pay))
    else s.discardAt port))

/-- offset and delay, rounded toward zero (16 R401). -/
def syncOffset (t1 t2 t3 t4 : Nat) : Int := (((t2 : Int) - t1) - ((t4 : Int) - t3)).tdiv 2
def syncDelay (t1 t2 t3 t4 : Nat) : Int := (((t2 : Int) - t1) + ((t4 : Int) - t3)).tdiv 2

def Port.synced (q : Port) (t1 t2 t3 t4 : Nat) : Port :=
  { q with
    syncT1 := none, tsValid := true, tsDelay := min (syncDelay t1 t2 t3 t4).toNat 65535
    tsOffset := BitVec.ofInt 32 (syncOffset t1 t2 t3 t4) }

/-- A core's `cl.timesync` no longer awaits a port; `got` counts it as measured. -/
def State.syncCore (s : State) (q got c : Nat) : State :=
  match (s.x c).hold with
  | .timesync sD left done =>
    if !left.contains q then s
    else
      let left := left.filter (fun k => k ≠ q)
      let n := done + got
      if left.isEmpty then s.endHold c sD.toNat (BitVec.ofNat 64 n)
      else s.onX c (fun x => { x with hold := .timesync sD left n })
  | _ => s

def State.syncCores (s : State) (q got : Nat) : List Nat → State
  | [] => s
  | c :: r => (s.syncCore q got c).syncCores q got r

/-- A context's TIMESYNC record no longer awaits a port. -/
def State.syncHost (s : State) (q got n : Nat) : State :=
  match (s.ctx n).hostSync with
  | some (left, done) =>
    if !left.contains q then s
    else
      let left := left.filter (fun k => k ≠ q)
      if left.isEmpty then (s.onCtx n (fun x => { x with hostSync := none })).endRec n 0 (done + got) 0
      else s.onCtx n (fun x => { x with hostSync := some (left, done + got) })
  | none => s

def State.syncHosts (s : State) (q got : Nat) : List Nat → State
  | [] => s
  | n :: r => (s.syncHost q got n).syncHosts q got r

/-- Every exchange that awaits the port goes on. -/
def State.syncPort (s : State) (q got : Nat) : State :=
  (s.syncCores q got (s.cores.map (fun c => c.1))).syncHosts q got (s.ctxs.map (fun x => x.1))

def execTimesyncResponse (port : Fin 18) (f : Flit) (t4 : W64) (s : State) : Host.Outcome State Fault Refusal :=
  .next (receive s port 0xA f (fun s _ _ =>
    match (s.port port).syncT1 with
    | none => s.discardAt port
    | some t1 =>
      if t1.toNat ≠ syncStamp f 0 || s.time > (s.port port).syncAt + 10000000 then s.discardAt port
      else
        (s.onPort port (fun x => x.synced t1.toNat (syncStamp f 1) (syncStamp f 2) t4.toNat)).syncPort port 1))

/-- A neighbour that has not answered within 10 ms stays unmeasured; an answer in the expiry tick still counts
(13 R323, 14 R347). -/
def execTimesyncNeighbourTimeout (port : Fin 18) (s : State) : Host.Outcome State Fault Refusal :=
  .next (match (s.port port).syncT1 with
    | none => s
    | some _ =>
      if s.time ≤ (s.port port).syncAt + 10000000 then s
      else (s.onPort port (fun x => { x with syncT1 := none, tsValid := false })).syncPort port 0)

/-! ### Training and idle flits (16 R379, R384, R386) -/

/-- What the paths' buffers hold is sent again. -/
def Port.replayAll (q : Port) : List Nat → Port
  | [] => q
  | k :: r => (if (q.link k).replay.isEmpty then q else q.replayed k).replayAll r

/-- Training ends with the working lanes; what the replay buffers hold is sent again. -/
def Port.trained (q : Port) (lanes : Nat) : Port :=
  if lanes = 0 then q
  else ({ q.noRuns with up := true, training := false, lanes := lanes } : Port).replayAll (q.links.map (fun l => l.1))

/-- A lane that fails its loopback in start-up is retired, whatever LANE_RETIRE_EN holds (23 R535). -/
def State.startLane (s : State) (p lanes : Nat) : State :=
  if s.dev.st = .starting && s.linkMode p = 1 && lanes = 7 then (s.portEvent p 0 0x0D 1).linkError p 0x09 else s

/-- Training ends. In RAMMO the far end may retire a lane, and this port follows it without losing alignment
(16 R386). -/
def execLinkRetrainDone (port : Fin 18) (lanes : Fin 9) (s : State) : Host.Outcome State Fault Refusal :=
  .next (
    let q := s.port port
    if q.training && s.linkMode port ≠ 0 then ((s.onPort port (fun q => q.trained lanes)).drain port).startLane port lanes
    else if q.up && s.linkMode port = 1 && q.lanes = 8 && lanes.val = 7 then
      (s.onPort port (fun q => { q with lanes := 7 })).portEvent port 0 0x0D 1
    else s)

def execIdle (e : PathEnd) (ack : LinkAck) (chan : BitVec 3) (credits : BitVec 4) (s : State) :
    Host.Outcome State Fault Refusal :=
  .next (s.inOrder e.port 3 e.iface e.peer { lseq := ack.lseq, ack := ack.ack, nak := ack.nak, chan := chan, credits := credits } id)

def execReservedTypeFlit (f : BareFlit) (s : State) : Host.Outcome State Fault Refusal :=
  .next (s.inOrder f.came.port 3 f.came.iface f.came.peer f.tr (fun s => s.discardAt f.came.port))

/-- The writable bits of LNK_CTRL (16 R408). -/
def lnkMask : Nat := 0xFFFFFFFF00000087

/-- A write to MODE retrains the port. -/
def Port.remode (q : Port) (on : Bool) : Port := { q.noRuns with up := false, training := on, lanes := 0 }

/-- PFC pauses the port on the priority of its LNK_CTRL, in an Ethernet mode (16 R380). -/
def State.obeysPfc (s : State) (p : Nat) : Bool := (s.pfReg (lnkCtrl p)).getLsbD 32 && 2 ≤ s.linkMode p

/-- The port retrains, and a pause ends with what made the port obey it. -/
def lnkModeWrite (s : State) (p : Nat) (v : W64) : State :=
  let pcp := fld (s.pfReg (lnkCtrl p)) 33 3
  let s := s.setPf (lnkCtrl p) (v &&& BitVec.ofNat 64 lnkMask)
  let keeps := s.obeysPfc p && fld (s.pfReg (lnkCtrl p)) 33 3 = pcp
  ((s.onPort p (fun q => { q.remode (s.linkMode p ≠ 0) with paused := q.paused && keeps })).portEvent p 0 0x0D 0).cutAll

def execLnkModeWrite (port : Fin 18) (v : W64) (s : State) : Host.Outcome State Fault Refusal :=
  .next (s.whenReady (fun s => lnkModeWrite s port v))

/-! ### Ethernet frames (16 R380) -/

/-- A frame matters in the Ethernet modes only. -/
def State.ethernet (s : State) (p : Nat) : Bool := 2 ≤ s.linkMode p

def execPauseFrame (port : Fin 18) (s : State) : Host.Outcome State Fault Refusal :=
  .next (if s.ethernet port then s.onPort port (fun q => { q with pauses := q.pauses + 1 }) else s)

/-- PFC on the port's priority, when PFC_EN is 1. -/
def execPfcFrame (port : Fin 18) (prio : BitVec 3) (pause : Bool) (s : State) : Host.Outcome State Fault Refusal :=
  .next (
    if s.obeysPfc port && fld (s.pfReg (lnkCtrl port)) 33 3 = prio.toNat then
      (s.onPort port (fun q => { q with paused := pause })).drain port
    else s)

/-- A frame of another EtherType, with a part of a flit or with a bad FCS is dropped and counted. -/
def execForeignEthertypeFrame (f : BadFrame) (s : State) : Host.Outcome State Fault Refusal :=
  .next (if s.ethernet f.port then
      s.onPort f.port (fun q => match f.why with
        | .etherType => { q with foreign := q.foreign + 1 }
        | .partialFlits => { q with partials := q.partials + 1 }
        | .badFcs => { q with badFcs := q.badFcs + 1 })
    else s)

end Sys2Proof.Machine
end

