-- ==== Sys2Proof/Machine/Power.lean ====
section
/-! DEFINITION. Power and clocks: the cap loop, operating points, droop, limits, the brake, temperatures, and sleep and
wake (18 R430 to R456). -/

namespace Sys2Proof.Machine

/-! ### Alarms (18 R457, 21 R506) -/

/-- Kinds of alarm entries: 0 to 6 the bits of PWR_ALARM, then those that the model numbers (DESIGN CHOICE, log 52). -/
def alarmHang : Nat := 7
def alarmRecovery : Nat := 9
def alarmUnreachable : Nat := 10
def alarmInput : Nat := 11
def alarmRail : Nat := 12
def alarmRestart : Nat := 13

/-- Sets bit `b` of PWR_ALARM, with its alarm entry. -/
def State.pwrAlarm (s : State) (b unit : Nat) : State :=
  ({ s with pwr := { s.pwr with alarm := s.pwr.alarm ||| 2 ^ b } }).alarm b unit

/-- Bit `b` of PWR_ALARM clears by itself: CAP_UNREACHABLE and THERMAL_THROTTLE do (18 R447, R450). -/
def State.alarmOff (s : State) (b : Nat) : State :=
  { s with pwr := { s.pwr with alarm := if bit s.pwr.alarm b then s.pwr.alarm - 2 ^ b else s.pwr.alarm } }

/-! ### Points and levels of a region (18 R437 to R441) -/

/-- The cores of a region that ask for a point: running a context and not halted. -/
def State.askers (s : State) (r : Nat) : List Nat :=
  ((s.cores.map (fun c => c.1)).filter (fun c => regionOf c = r)).filter (fun c =>
    (s.core c).run ≠ .halted && (s.core c).ctx.elim false (fun n => (s.ctx n).st = .running))

/-- What a core asks for: the entry of its context's preferences for its phase; 8 to 15 ask for nothing. -/
def State.preference (s : State) (c : Nat) : Option Nat :=
  let v := (s.core c).ctx.elim 15 (fun n => Tab.val 15 (s.ctx n).prefs (s.regs c).phase.toNat)
  if v ≤ 7 then some v else none

/-- The requested point: the fastest that a core names, else DEF_POINT. -/
def State.requested (s : State) (r : Nat) : Nat :=
  match (s.askers r).filterMap s.preference with
  | [] => fld (s.pfReg 0x2008) 0 3
  | a :: l => l.foldl min a

/-- The region's throttle level: the lowest that any rule sets. -/
def State.levelOf (s : State) (r : Nat) : Nat :=
  let g := s.region r
  min (8 - s.pwr.capT) (min g.thermLv (if g.fast then 4 else 8))

/-- The point that the region is to run at: the slowest of the request and the ceilings. -/
def State.pointOf (s : State) (r : Nat) : Nat :=
  let g := s.region r
  max (s.requested r) (max g.capPt g.thermPt)

/-- The rule that sets the region's point or level: 3 brake, 2 fast limit, 4 thermal, 1 cap loop, 0 request. -/
def State.powerCause (s : State) (r : Nat) : Nat :=
  let g := s.region r
  if s.pwr.brake then 3
  else if g.fast then 2
  else if g.thermLv < 8 || (g.thermPt > s.requested r && g.thermPt ≥ g.capPt) then 4
  else if s.pwr.capT > 0 || g.capPt > s.requested r then 1
  else 0

/-- The event of kind POWER (21 R493). -/
def State.powerEvent (s : State) (r : Nat) : State :=
  let g := s.region r
  s.event (.fabric r) 0x0F (g.point + (g.level - 1) * 8 + s.powerCause r * 64) Work.none

/-- A change of throttle level takes effect at once (18 R441). -/
def State.relevel (s : State) (r : Nat) : State :=
  let v := s.levelOf r
  if v = (s.region r).level then s else (s.onRegion r (fun g => { g with level := v })).powerEvent r

def State.relevels (s : State) : State := (((s.relevel 0).relevel 1).relevel 2).relevel 3

/-- A core of the region is stretched, or was less than 10 µs ago (18 R443). -/
def State.drooping (s : State) (r : Nat) : Bool :=
  (s.region r).droopTick.isSome || s.cores.any (fun c => regionOf c.1 = r && c.2.stretch)

/-- A partition is active in a region, or anywhere for none. -/
def Ctx.active (x : Ctx) (r : Option Nat) : Bool :=
  (x.holds || x.st = .ready || x.st = .saving || x.st = .restoring || !x.accepted.isEmpty)
    && r.elim true (fun r => x.regions.contains r)

def State.active (s : State) (r : Option Nat) : Bool := s.ctxs.any (fun x => x.2.active r)

/-- The region's clock changes to the point at which its rail stands already. -/
def State.changeClock (s : State) (r : Nat) : State :=
  match (s.region r).held with
  | none => s
  | some p => (s.onRegion r (fun g => { g with point := p, held := none, settled := false })).powerEvent r

/-- The rail of an upward step has settled: the clock changes, unless a droop holds the change (18 R443). -/
def State.railSettles (s : State) (r : Nat) : State :=
  if s.drooping r then s.onRegion r (fun g => { g with settled := true }) else s.changeClock r

/-- One half of an upward step of the region's point, or a downward step, toward the one it is to run at. An upward step first
raises the rail and then changes the clock; while a droop holds clock changes, a downward step does not begin.
A region with no partition active holds no point (18 R438, R440). -/
def execRegionPointStep (r : Fin 4) (s : State) : Host.Outcome State Fault Refusal :=
  .next (
    let g := s.region r
    let want := s.pointOf r
    if g.held.isSome then (if g.settled then s else s.railSettles r)
    else if !g.pll || !s.active (some r) || want = g.point || s.time < g.stepTick + 20000 then s
    else
      if want < g.point then s.onRegion r (fun g => { g with held := some (g.point - 1), settled := false, stepTick := s.time })
      else if s.drooping r then s
      else (s.onRegion r (fun g => { g with point := g.point + 1, stepTick := s.time })).powerEvent r)

/-! ### Droop (18 R442, R443) -/

def execDroopDetect (c : Fin 264) (s : State) : Host.Outcome State Fault Refusal :=
  .next (
    let r := regionOf c
    let s := s.onCore c (fun p => { p with stretch := true })
    let s := s.onRegion r (fun g => { g with droops := g.droops + 1, droopTick := some s.time })
    s.event (.fabric r) 0x10 c.val Work.none)

def execDroopEnd (c : Fin 264) (s : State) : Host.Outcome State Fault Refusal :=
  .next (if (s.core c).stretch then
      (s.onCore c (fun p => { p with stretch := false })).onRegion (regionOf c) (fun g => { g with droopTick := some s.time })
    else s)

/-- The quiet period has passed: a held clock change takes place. -/
def execDroopQuietEnd (r : Fin 4) (s : State) : Host.Outcome State Fault Refusal :=
  .next (
    let g := s.region r
    match g.droopTick with
    | none => s
    | some t =>
      if s.cores.any (fun c => regionOf c.1 = r && c.2.stretch) || s.time < t + 10000 then s
      else
        let s := s.onRegion r (fun g => { g with droopTick := none })
        if g.settled then s.changeClock r else s)

/-! ### The cap loop (18 R444 to R447) -/

def State.capW (s : State) : Nat := clampNat 800 2600 (fld (s.pfReg 0x2000) 0 12)
where clampNat (lo hi v : Nat) : Nat := if v < lo then lo else if v > hi then hi else v

/-- The effective cap: the brake lowers it to 900 W (18 R449). -/
def State.effectiveCap (s : State) : Nat := if s.pwr.brake then min s.capW 900 else s.capW

/-- Stage 1 skips a region whose requested point is slower than its ceiling. -/
def State.capRegions (s : State) (ok : Nat → Bool) : List Nat :=
  (List.range 4).filter (fun r => s.requested r ≤ (s.region r).capPt && ok (s.region r).capPt)

/-- The region at the fastest ceiling, the highest number of equals. -/
def State.fastest (s : State) : List Nat → Option Nat
  | [] => none
  | r :: l =>
    match s.fastest l with
    | none => some r
    | some q => if (s.region r).capPt < (s.region q).capPt then some r else some q

/-- The region at the slowest ceiling, the lowest number of equals. -/
def State.slowest (s : State) : List Nat → Option Nat
  | [] => none
  | r :: l =>
    match s.slowest l with
    | none => some r
    | some q => if (s.region r).capPt ≥ (s.region q).capPt then some r else some q

def State.stackCeils (s : State) (f : Nat → Nat) : List Nat → State
  | [] => s
  | k :: l => (s.onStack k (fun x => { x with ceil := f x.ceil })).stackCeils f l

def State.allCeils (s : State) (f : Nat → Nat) : State := s.stackCeils f (List.range 16)

def State.anyCeil (s : State) (f : Nat → Bool) : Bool := (List.range 16).any (fun k => f (s.stack k).ceil)

def State.countDown (s : State) : State := { s with pwr := { s.pwr with capDowns := s.pwr.capDowns + 1 } }

/-- One step down, from the lowest stage that still has one; with none left, CAP_UNREACHABLE. -/
def State.capDown (s : State) : State :=
  match s.fastest (s.capRegions (fun c => c < 7)) with
  | some r => (s.onRegion r (fun g => { g with capPt := g.capPt + 1 })).countDown
  | none =>
    if s.anyCeil (fun c => c < 2) then (s.allCeils (fun c => min 2 (c + 1))).countDown
    else if s.pwr.capT < 7 then ({ s with pwr := { s.pwr with capT := s.pwr.capT + 1 } }).countDown.relevels
    else ({ s with pwr := { s.pwr with unreach := true } }).pwrAlarm 0 0

/-- One step up, from the highest stage that has been stepped down. -/
def State.capUp (s : State) : State :=
  if s.pwr.capT > 0 then ({ s with pwr := { s.pwr with capT := s.pwr.capT - 1 } }).relevels
  else if s.anyCeil (fun c => c > 0) then s.allCeils (fun c => c - 1)
  else match s.slowest (s.capRegions (fun c => c > 0)) with
    | some r => s.onRegion r (fun g => { g with capPt := g.capPt - 1 })
    | none => s

/-- A fast limit releases as its ceiling lowers by one point (18 R448). -/
def State.fastRegion (s : State) (r : Nat) : State :=
  if (s.region r).fast then (s.onRegion r (fun g => { g with fast := false, capPt := min 7 (g.capPt + 1) })).relevel r else s

def State.fastStacks (s : State) : List Nat → State
  | [] => s
  | k :: l =>
    (if (s.stack k).fastIdle then s.onStack k (fun x => { x with fastIdle := false, ceil := min 2 (x.ceil + 1) }) else s).fastStacks l

def State.fastEnd (s : State) : State :=
  ((((s.fastRegion 0).fastRegion 1).fastRegion 2).fastRegion 3).fastStacks (List.range 16)

/-- Conditions that persist set their bits again at each evaluation (18 R457); CAP_UNREACHABLE clears once its
condition is over (18 R447). -/
def State.persist (s : State) : State :=
  let s := if s.pwr.unreach then s else s.alarmOff 0
  let on (b : Nat) (v : Bool) (s : State) : State :=
    if v && !bit s.pwr.alarm b then s.pwrAlarm b 0 else s
  let rs := (List.range 4).map s.region
  let s := on 0 s.pwr.unreach s
  let s := on 1 (rs.any (fun g => g.fast)) s
  let s := on 2 s.pwr.brake s
  let s := on 3 (rs.any (fun g => g.thermPt > 0 || g.thermLv < 8)) s
  let s := on 4 ((List.range 16).any (fun k => (s.stack k).throttle)) s
  let hot : Bool := rs.any (fun g => g.temp ≥ 115) || (List.range 16).any (fun k => (s.stack k).temp ≥ 110)
  on 6 (s.pwr.stopped && !s.dev.flowN) (on 5 (s.pwr.stopped && hot) s)

/-- The cap loop's evaluation, once at each whole millisecond; the brake holds it for its first 200 µs, and a resetting
Belvedere holds everything (18 R445, R449, 22 R510). -/
def execCapLoopEvaluation (pIn pUp : Nat) (s : State) : Host.Outcome State Fault Refusal :=
  .next (
    if s.time % 1000000 ≠ 0 || s.time = s.pwr.evalTick || !s.belv.running then s
    else
      let s := { s with pwr := { s.pwr with
        pInput := pIn, evalTick := s.time, unreach := s.pwr.unreach && pIn > s.capW } }
      let s := s.persist.fastEnd
      if s.pwr.brake && s.time < s.pwr.brakeTick + 200000 then s
      else if pIn > s.effectiveCap then s.capDown
      else if 100 * pUp ≤ 98 * s.effectiveCap then s.capUp
      else s)

/-- The energy attributed to contexts since power-on, in microjoules. -/
def State.attributed (s : State) : Nat := microjoules (s.parts.foldl (fun a p => a + spent p.2.acts) 0)

/-- The comparison of each millisecond (18 R455): the unattributed total takes what the energy model counts and attributes to
no context, which is `modelled` less the attributed energy, and the difference of the measured input energy from
`modelled`. -/
def execEnergyReconcile (measured modelled : Nat) (s : State) : Host.Outcome State Fault Refusal :=
  .next (
    let mine := BitVec.ofNat 64 (s.attributed - s.pwr.billed)
    let rest := BitVec.ofNat 64 modelled - mine
    let off := BitVec.ofNat 64 measured - BitVec.ofNat 64 modelled
    { s with pwr := { s.pwr with unattr := s.pwr.unattr + rest + off, billed := s.attributed } })

/-! ### Fast current limiting and the brake (18 R448, R449) -/

def execFastLimit (rail : Rail) (s : State) : Host.Outcome State Fault Refusal :=
  .next (match rail with
    | .region r => ((s.onRegion r (fun g => { g with fast := true })).relevel r).pwrAlarm 1 r
    | .stack k => (s.onStack k (fun x => { x with fastIdle := true })).pwrAlarm 1 (16 + k))

def State.regionFloors (s : State) : List Nat → State
  | [] => s
  | r :: l => (s.onRegion r (fun g => { g with capPt := 7 })).regionFloors l

/-- The brake: T = 1, every region ceiling at P7, every stack ceiling at W2. -/
def State.applyBrake (s : State) : State :=
  let s : State := { s with pwr := { s.pwr with brake := true, brakeTick := s.time, capT := 7 } }
  (((s.regionFloors (List.range 4)).allCeils (fun _ => 2)).relevels).pwrAlarm 2 0

/-- THROTTLE_N acts from READY onwards, in module recovery too; an assertion before READY acts when it comes, one during the
stop when the restart begins (23 R529, 24 R549). -/
def execThrottleNAssert (s : State) : Host.Outcome State Fault Refusal :=
  .next (
    let on := s.dev.throttleN
    let s : State := { s with dev := { s.dev with throttleN := false } }
    if on && (s.dev.st = .ready || s.dev.st = .recovering) then s.applyBrake else s)

def execThrottleNRelease (s : State) : Host.Outcome State Fault Refusal :=
  .next { s with dev := { s.dev with throttleN := true }, pwr := { s.pwr with brake := false } }

/-! ### The stop (18 R452) -/

/-- A record that an end of work completes: its status code, and for a RUN the bit of it. -/
def State.postGone (s : State) (n code : Nat) : List Acc → State
  | [] => s
  | a :: r => (s.postAcc n a code (if recOp a.sub = 1 then 2 ^ code else 0)).postGone n code r

/-- Every accepted record of a context completes with `code`, in ring order; the RUN in progress has every code that
arose. -/
def State.postAll (s : State) (n code : Nat) : State :=
  let x := s.ctx n
  if x.run.isSome then ((s.status n code).postRun n).postGone n code (x.accepted.drop 1)
  else s.postGone n code x.accepted

/-- A context that is not FREE is IDLE, with nothing accepted. -/
def Ctx.emptied (x : Ctx) : Ctx :=
  if x.st = .free then x
  else { x.settle with st := .idle, accepted := [], run := none, hostWait := none, hostSync := none, resetting := false }

/-- The work of every context ends, its records posted with `code` where the dispatcher can post. -/
def State.endContexts (s : State) (code : Nat) : List Nat → State
  | [] => s
  | n :: l =>
    let s := ((s.removeCtx n).detachUpds n).postAll n code
    (s.onCtx n Ctx.emptied).endContexts code l

/-- Without an endpoint, the accepted records wait to be posted after recovery, the RUN in progress with the codes that arose
(20 R486). -/
def State.keepRecords (s : State) (n : Nat) : List (Nat × SubRec × Nat × Nat) :=
  let x := s.ctx n
  let first := x.run.elim 0 (fun r => r.status)
  x.accepted.zipIdx.map (fun e =>
    let a := e.1
    if recOp a.sub = 1 then (n, a.sub, if e.2 = 0 then first else 0, s.energySince n a.energy) else (n, a.sub, 0, 0))

/-- RESET_NOTICE on every bound job. -/
def State.notices (s : State) : List Nat → State
  | [] => s
  | p :: l => (s.sendMembers p 7 0).notices l

def State.stopPorts (s : State) : State :=
  { s with ports := s.ports.map (fun q => (q.1, { q.2 with up := false, training := false, lanes := 0 })) }

def State.sleepStacks (s : State) : List Nat → State
  | [] => s
  | k :: l => (s.onStack k (fun x => { x with selfRef := true, waking := false, reqs := [] })).sleepStacks l

def State.stopPlls (s : State) : List Nat → State
  | [] => s
  | r :: l => (s.onRegion r (fun g => { g with pll := false, waking := false, point := 7, held := none, settled := false })).stopPlls l

/-- The stop of 18 R452: work ends with POWER_STOP, the ports, PLLs and main rails go off, the stacks refresh
themselves. -/
def State.powerStop (s : State) : State :=
  if s.pwr.stopped then s
  else
    let s := (s.notices (s.parts.map (fun p => p.1))).endContexts 14 (s.ctxs.map (fun x => x.1))
    let s := ((s.stopPorts).sleepStacks (List.range 16)).stopPlls (List.range 4)
    { s with
      pwr := { s.pwr with stopped := true, fabric := false, fabricWake := false, brake := false }
      dev := { s.dev with st := .powerStop, pwrGood := false, linkTrain := false, linkUp := false, recStart := false
                          hcmdBusy := false, xlatPart := none } }

/-- RAILS may start: BOOT is done, no failure holds the start, the input is good, the coolant flows, and the test access
port does not hold the pins (23 R527, R529, R537). -/
def State.railsFree (s : State) : Bool :=
  s.dev.stages.contains .boot && s.dev.stage = 0 && s.dev.inputOk && s.dev.flowN && !s.belv.tapHold

/-- The main rails are on or coming up: RAILS has started, and nothing has turned them off since. -/
def State.railsOn (s : State) : Bool :=
  match s.dev.st with
  | .starting => s.dev.stages.contains .rails || s.railsFree
  | .powerStop => false
  | _ => true

def State.thermalTrip (s : State) : State := if s.railsOn || s.dev.st = .powerStop then (s.powerStop).pwrAlarm 5 0 else s

def execFlowLossAssert (s : State) : Host.Outcome State Fault Refusal :=
  .next (
    let on := s.railsOn || s.dev.st = .powerStop
    let s : State := { s with dev := { s.dev with flowN := false } }
    if on then (s.powerStop).pwrAlarm 6 0 else s)

/-- Before RAILS, the times of the start count from the release (23 R529). -/
def execFlowLossRelease (s : State) : Host.Outcome State Fault Refusal :=
  .next (
    let t0 := if s.dev.st = .starting && !s.dev.stages.contains .rails then s.time else s.dev.t0
    { s with dev := { s.dev with flowN := true, t0 := t0 } })

/-! ### Temperatures (18 R450, 10 R239) -/

/-- A hot region lowers its ceiling, then its level; a cool one raises them, the level first. -/
def Region.hotStep (g : Region) (now : Nat) : Region :=
  if now < g.hotTick + 1000000 && g.hotTick ≠ 0 then { g with coolTick := none }
  else if g.thermPt < 7 then { g with thermPt := g.thermPt + 1, hotTick := now, coolTick := none }
  else { g with thermLv := max 1 (g.thermLv - 1), hotTick := now, coolTick := none }

def Region.coolStep (g : Region) (now : Nat) : Region :=
  match g.coolTick with
  | none => { g with coolTick := some now }
  | some t =>
    if now < t + 10000000 then g
    else if g.thermLv < 8 then { g with thermLv := g.thermLv + 1, coolTick := some now }
    else { g with thermPt := g.thermPt - 1, coolTick := some now }

/-- THERMAL_THROTTLE clears when no region has a thermal limit (18 R450). -/
def State.thermalEnd (s : State) : State :=
  if (List.range 4).any (fun r => (s.region r).thermPt > 0 || (s.region r).thermLv < 8) then s else s.alarmOff 3

def execThermalSample (r : Fin 4) (temp : Nat) (s : State) : Host.Outcome State Fault Refusal :=
  .next (
    let s := s.onRegion r (fun g => { g with temp := min temp 255 })
    if temp ≥ 115 then s.thermalTrip
    else if temp ≥ 105 then ((s.onRegion r (fun g => g.hotStep s.time)).relevel r).pwrAlarm 3 r
    else if temp < 100 then ((s.onRegion r (fun g => g.coolStep s.time)).relevel r).thermalEnd
    else s.onRegion r (fun g => { g with coolTick := none }))

/-- W_MAX of a stack; 3 acts as 2. -/
def State.wmax (s : State) (k : Nat) : Nat := min 2 (fld (s.pfReg (0x20000 + k * 0x1000)) 6 2)

/-- The point that a stack is asked for, apart from its temperature, and the point it is to run at (18 R439). -/
def State.askedPoint (s : State) (k : Nat) : Nat := max (s.wmax k) (s.stack k).ceil
def State.stackPoint (s : State) (k : Nat) : Nat := max (s.askedPoint k) (s.stack k).thermPt

def Stk.hotStep (k : Stk) (now point : Nat) : Stk :=
  if now < k.hotTick + 1000000 && k.hotTick ≠ 0 then { k with coolTick := none, throttle := true }
  else if point < 2 then { k with thermPt := point + 1, throttle := true, hotTick := now, coolTick := none }
  else if k.wpoint < 2 then { k with thermPt := 2, throttle := true, hotTick := now, coolTick := none }
  else { k with thermPt := 2, idleHot := true, throttle := true, hotTick := now, coolTick := none }

def Stk.coolStep (k : Stk) (now asked : Nat) : Stk :=
  match k.coolTick with
  | none => { k with coolTick := some now }
  | some t =>
    if now < t + 10000000 || !k.throttle then k
    else if k.idleHot then { k with idleHot := false, coolTick := some now }
    else if k.thermPt ≤ asked + 1 then { k with thermPt := 0, throttle := k.wpoint ≠ asked, coolTick := some now }
    else { k with thermPt := k.thermPt - 1, coolTick := some now }

def execStackThermalStep (st : Fin 16) (temp : Nat) (s : State) : Host.Outcome State Fault Refusal :=
  .next (
    let asked := s.askedPoint st
    let point := s.stackPoint st
    let s := s.onStack st (fun k => { k with temp := min temp 255 })
    if temp ≥ 110 then s.thermalTrip
    else if temp ≥ 95 then (s.onStack st (fun k => k.hotStep s.time point)).pwrAlarm 4 st
    else if temp < 90 then s.onStack st (fun k => k.coolStep s.time asked)
    else s.onStack st (fun k => { k with coolTick := none }))

/-- A stack takes its new point once no request is in progress (10 R238); back at the point that it is asked for,
THROTTLED clears (R239). -/
def execStackPointChange (st : Fin 16) (s : State) : Host.Outcome State Fault Refusal :=
  .next (
    let w := s.stackPoint st
    if (s.stack st).reqs.isEmpty && !(s.stack st).selfRef then
      s.onStack st (fun k => { k with wpoint := w, throttle := k.throttle && !(k.thermPt = 0 && w = s.askedPoint st) })
    else s)

/-! ### Sleep and wake (18 R433 to R436, 10 R237) -/

def State.pllIdle (s : State) : Nat := fld (s.pfReg 0x2008) 8 11 * 10000

/-- The idle time has passed since `t`. -/
def State.idleFor (s : State) (t : Option Nat) : Bool := s.time - t.getD s.time ≥ s.pllIdle

def execPllIdleStop (pll : Pll) (s : State) : Host.Outcome State Fault Refusal :=
  .next (match pll with
    | .region r =>
      if (s.region r).pll && !s.active (some r) && s.idleFor (s.region r).idleTick then
        s.onRegion r (fun g => { g with pll := false, point := 7, held := none, settled := false, idleTick := none })
      else s
    | .fabric =>
      if s.pwr.fabric && !s.active none && s.idleFor s.pwr.fabricIdle then
        { s with pwr := { s.pwr with fabric := false, fabricIdle := none } }
      else s)

/-- A PLL has locked; its region starts at P7 (DEDUCED, log 53). -/
def execWakeDone (pll : Pll) (s : State) : Host.Outcome State Fault Refusal :=
  .next (match pll with
    | .region r =>
      if (s.region r).waking then s.onRegion r (fun g => { g with pll := true, waking := false, point := 7 }) else s
    | .fabric =>
      if s.pwr.fabricWake then { s with pwr := { s.pwr with fabric := true, fabricWake := false } } else s)

/-- SR_IDLE of a stack in nanoseconds. -/
def State.srIdle (s : State) (k : Nat) : Nat := fld (s.pfReg (0x20000 + k * 0x1000)) 16 8 * 100000

def execSelfRefreshEntry (st : Fin 16) (s : State) : Host.Outcome State Fault Refusal :=
  .next (
    let k := s.stack st
    if s.srIdle st ≠ 0 && !k.selfRef && k.reqs.isEmpty && s.time ≥ k.idleTick + s.srIdle st then
      s.onStack st (fun k => { k with selfRef := true })
    else s)

def execStackWakeDone (st : Fin 16) (s : State) : Host.Outcome State Fault Refusal :=
  .next (if (s.stack st).waking then
      s.onStack st (fun k => { k with selfRef := false, waking := false, idleTick := s.time })
    else s)

/-! ### Patrol scrub and retirement (10 R234, R235, 19 R471) -/

def State.retireOn (s : State) (k : Nat) : Bool := (s.pfReg (0x20000 + k * 0x1000)).getLsbD 8

/-- The record of a retirement; which address of the stack it names is a free value (log 79). -/
def State.retireError (s : State) (cause st : Nat) : State :=
  s.drawn.logError (.plain 5 0 cause st (st * 2 ^ 36 + (Config.freeWord s.free).toNat % 2 ^ 36))

/-- A row moves to a spare row of its bank, when one is left. -/
def State.retireRow (s : State) (st row : Nat) : State :=
  let b := Config.bankOf row
  let n := Tab.val 0 (s.stack st).rowsBank b
  if n ≥ 64 then s
  else
    (s.onStack st (fun k => { k with
      rows := min (k.rows + 1) 65535, rowsBank := Tab.put k.rowsBank b (n + 1), rowErrs := Tab.del k.rowErrs row })).retireError
      0x07 st

/-- A bank is copied to its pseudo-channel's spare bank, when that one is left. -/
def State.retireBank (s : State) (st b : Nat) : State :=
  let k := s.stack st
  if k.gone.any (fun g => g / 32 = b / 32) then s
  else s.onStack st (fun k => { k with gone := b :: k.gone, copying := k.copying ++ [b] })

/-- Marks a granule that scrub cannot correct as poisoned (10 R233). -/
def State.poisonGranule (s : State) (g : Nat) : State :=
  { s with mem := s.mem.write (8 * g) (List.replicate 8 (0xFF, true)) }

/-- The record of what scrub found; which uncorrectable syndrome, or which corrected bits, is a free value (log 79). -/
def State.scrubError (s : State) (st : Nat) (f : ScrubFinding) : State :=
  let v := (Config.freeWord s.free).toNat
  let e := if f.uncorrectable then ErrIn.plain 5 1 0x02 st (8 * f.granule) else ErrIn.plain 5 0 0x01 st (8 * f.granule)
  s.drawn.logError { e with 
    aux := if f.uncorrectable then 0xFF else (someCorrected v).1
    extra := if f.uncorrectable then someUncorrectable v else (someCorrected v).2 }

/-- What scrub finds in the row, granule by granule: damage that stands there is met as any read meets it. -/
def State.scrubFind (s : State) (st : Nat) : List ScrubFinding → State
  | [] => s
  | f :: r =>
    (if s.upsets.any (fun u => u.granule = some f.granule) then s.meet (8 * f.granule) 8
     else (if f.uncorrectable then s.poisonGranule f.granule else s).scrubError st f).scrubFind st r

/-- Passes within 24 h that corrected an error in the row. -/
def recent (now : Nat) (l : List Nat) : List Nat := l.filter (fun t => now < t + 86400000000000)

/-- The row's errors are noted; a row or a bank that has had too many retires. -/
def State.scrubRow (s : State) (st row : Nat) (found : List ScrubFinding) : State :=
  let b := Config.bankOf row
  let k := s.stack st
  let ticks := recent s.time (Tab.val [] k.rowErrs row)
  let ticks := if found.any (fun f => !f.uncorrectable) then s.time :: ticks else ticks
  let hit := row :: Tab.val [] k.passErrs b
  let s := s.onStack st (fun k => { k with rowErrs := Tab.put k.rowErrs row ticks, passErrs := Tab.put k.passErrs b hit })
  if !s.retireOn st then s
  else
    let s := if found.any (fun f => f.uncorrectable) || ticks.length ≥ 4 then s.retireRow st row else s
    if Tab.val 0 (s.stack st).rowsBank b ≥ 16 || hit.length ≥ 3 then s.retireBank st b else s

/-- The next row; a new pass begins at row 0. -/
def Stk.nextRow (k : Stk) : Stk :=
  if k.scrubRow + 1 ≥ Config.rows then { k with scrubRow := 0, passErrs := [] } else { k with scrubRow := k.scrubRow + 1 }

def execPatrolScrub (st : Fin 16) (found : List ScrubFinding) (s : State) : Host.Outcome State Fault Refusal :=
  .next (
    if (s.stack st).selfRef || fld (s.pfReg (0x20000 + st * 0x1000)) 0 6 = 0 then s
    else
      let row := (s.stack st).scrubRow
      let s := s.scrubFind st found
      let s := if found.isEmpty then s else s.scrubRow st row found
      s.onStack st Stk.nextRow)

def execBankRetireCopyDone (st : Fin 16) (s : State) : Host.Outcome State Fault Refusal :=
  .next (match (s.stack st).copying with
    | [] => s
    | b :: l =>
      (s.onStack st (fun k => { k with
        copying := l, banks := min (k.banks + 1) 255, spares := k.spares - 1, rowsBank := Tab.del k.rowsBank b })).retireError
        0x08 st)

end Sys2Proof.Machine
end

