-- ==== Sys2Proof/Machine/Hang.lean ====
section
/-! DEFINITION. Hangs: the wait-for graph, its test, and the progress counters (20 R475 to R479, R490). -/

namespace Sys2Proof.Machine

/-! ### The wait-for graph (20 R475, R476) -/

/-- UNIT of R490 for the engines that are nodes. -/
def unitNo (e : Engine) : Option Nat :=
  match e with
  | .matrix => some 1
  | .vector => some 2
  | .dma => some 3
  | .nearMem => some 4
  | _ => none

def mkEdge (c u c' u' wait obj : Nat) : Edge :=
  { src := { core := c, unit := u }, dst := { core := c', unit := u' }, wait := wait, obj := obj, tick := 0, mark := 0 }

/-- The engines that hold one of the tags. -/
def Exec.holders (x : Exec) (held : List Tag) : List Nat :=
  (held.filterMap (fun e => (x.queue ++ x.inflight).find? (fun k => k.id = e.owner))).filterMap (fun k => unitNo k.eng)

/-- The engines that hold a tag which conflicts with a tag of instruction `id`. -/
def Exec.blockers (x : Exec) (id : Nat) : List Nat :=
  let mine := x.tags.filter (fun t => t.owner = id)
  x.holders (x.tags.filter (fun e => e.owner < id && mine.any (fun t => conflicts e t)))

/-- The instruction that the sequencer presents, once the control cache holds its words. -/
def State.nextInstr (s : State) (c : Nat) : Option Instr :=
  match s.issuing c with
  | none => none
  | some (n, r, g) =>
    let a := r.code + g.pc
    match lineOf (s.core c).cache n (a / 256) with
    | none => none
    | some l =>
      let w := wordAt l a
      if hasExt w then
        (lineOf (s.core c).cache n ((a + 8) / 256)).bind (fun m => decodeWords (Fin.ofNat 264 c) w (wordAt m (a + 8)))
      else decodeWords (Fin.ofNat 264 c) w 0

/-- The scratchpad range for which the sequencer, or its queue port, needs a tag. -/
def State.seqRange (s : State) (c : Nat) (i : Instr) : Option SpRange :=
  let g := s.regs c
  let own (a : BitVec 4) (o : BitVec 5) (w : Bool) : Option SpRange :=
    (ownOff (s.window c) (baseOf g a.toNat + (g.getS o.toNat).toNat) 8).map (fun b => { off := b, len := 8, write := w })
  match i with
  | .sqLd _ _ a o => own a o false
  | .sqSt _ a o _ => own a o true
  | .syQput _ _ a l => (spAt g (s.window c) a.toNat (g.getS l.toNat).toNat).map (fun b => rd b (g.getS l.toNat).toNat)
  | .syQget _ _ _ a m => (spAt g (s.window c) a.toNat (g.getS m.toNat).toNat).map (fun b => wr b (g.getS m.toNat).toNat)
  | _ => none

/-- The sequencer's issue is held by a full issue queue, or by a tag conflict. A register that an instruction still has to
write (13 R301) holds none here: each instruction that writes one so holds the issue itself. -/
def State.seqEdges (s : State) (c : Nat) : List Edge :=
  match s.nextInstr c with
  | none => []
  | some i =>
    match engineOf i with
    | some e => if ((s.x c).queueOf e).length < 8 then [] else ((unitNo e).map (fun u => mkEdge c 0 c u 1 0)).toList
    | none =>
      match s.seqRange c i with
      | none => []
      | some r =>
        (((s.x c).holders ((s.x c).tags.filter (fun e => conflicts e (r.tag 0 0)))).eraseDups).map (fun v => mkEdge c 0 c v 0 0)

/-- An engine whose oldest queued instruction cannot start for a tag conflict. -/
def State.tagEdges (s : State) (c : Nat) (e : Engine) : List Edge :=
  match unitNo e, (s.x c).queueOf e with
  | some u, k :: _ => (((s.x c).blockers k.id).filter (fun v => v ≠ u)).eraseDups.map (fun v => mkEdge c u c v 0 0)
  | _, _ => []

/-- The tile queue: full before a drain, or empty before a vector instruction. -/
def State.tileEdges (s : State) (c : Nat) : List Edge :=
  let x := s.x c
  let full := if x.drains.isEmpty then [] else [mkEdge c 1 c 2 2 0]
  let empty := match x.queueOf .vector with
    | k :: _ => if x.tileQ.isEmpty && x.mayStart k && (effectOf k.instr s c k).isNone then [mkEdge c 2 c 1 3 0] else []
    | [] => []
  full ++ empty

/-- The node at the other end of a queue: the queue port while it holds the opposite instruction, else the sequencer. -/
def State.queueEnd (s : State) (l r q : Nat) (get : Bool) : Option (Nat × Nat) :=
  (s.phys l).map (fun c => (c, match (s.x c).hold with
    | .qget _ r' q' _ _ _ => if get && r' = r && q' = q then 5 else 0
    | .qput r' q' _ _ _ => if !get && r' = r && q' = q then 5 else 0
    | _ => 0))

/-- What the sequencer's held instruction waits on. -/
def State.holdEdges (s : State) (c : Nat) : List Edge :=
  match (s.x c).hold with
  | .qput r q _ _ 0 =>
    mkEdge c 0 c 5 1 0 :: (match s.queueEnd (s.que r q).cons r q true with
      | some d => [mkEdge c 5 d.1 d.2 4 (r * 4096 + q)]
      | none => [])
  | .qget _ r q _ _ 0 =>
    mkEdge c 0 c 5 1 0 :: (match s.queueEnd (s.que r q).prod r q false with
      | some d => [mkEdge c 5 d.1 d.2 5 (r * 4096 + q)]
      | none => [])
  | .wait _ (some o) _ _ none _ _ =>
    match Tab.at? (s.region o.1).sigBy o.2 with
    | some d => if d = c then [] else [mkEdge c 0 d 0 6 (o.1 * 65536 + o.2)]
    | none => []
  | _ => []

/-- What changes when a unit progresses: the value or the counts it waits on, or its own work (20 R477). -/
def State.nodeMark (s : State) (n : Node) : Nat :=
  let x := s.x n.core
  match n.unit with
  | 0 => match x.hold with
    | .wait _ (some o) _ _ _ _ _ => (s.sigVal o).toNat
    | _ => x.regs.pc
  | 5 => match x.hold with
    | .qput r q _ _ _ => (s.que r q).w * 2 ^ 17 + (s.que r q).c
    | .qget _ r q _ _ _ => (s.que r q).w * 2 ^ 17 + (s.que r q).c
    | _ => 0
  | u => ((x.inflight.filter (fun k => unitNo k.eng = some u)).foldl (fun a k => a + k.id + 1) 0) * 2 ^ 20
      + x.tileQ.length + x.drains.length * 64

/-- Edges of one core. -/
def State.coreEdges (s : State) (c : Nat) : List Edge :=
  let es : List Edge := if (s.core c).run = .running then s.holdEdges c ++ s.seqEdges c else []
  es ++ s.tagEdges c .matrix ++ s.tagEdges c .vector ++ s.tagEdges c .dma ++ s.tagEdges c .nearMem ++ s.tileEdges c

def sameEdge (a b : Edge) : Bool := a.src = b.src && a.dst = b.dst && a.wait = b.wait && a.obj = b.obj

/-- The graph as it stands: an edge keeps its tick while its waiting unit makes no progress. -/
def State.graph (s : State) : List Edge :=
  let cs := (s.cores.filter (fun c => c.2.ctx.isSome)).map (fun c => c.1)
  ((cs.map s.coreEdges).flatten).map (fun e =>
    let m := s.nodeMark e.src
    match s.hang.edges.find? (sameEdge e) with
    | some old => { e with mark := m, tick := if old.mark = m then old.tick else s.time }
    | none => { e with mark := m, tick := s.time })

def State.watchWaits (s : State) : State := { s with hang := { s.hang with edges := s.graph } }

/-! ### Cycles (20 R477) -/

/-- Paths from one node, latest node first, each one edge longer; one path for each node that was not reached before. -/
def longerPaths (es : List Edge) (seen : List Node) : List (List Node) → List (List Node)
  | [] => []
  | p :: r =>
    let new := ((es.filter (fun e => p.head? = some e.src)).map (fun e => e.dst)).eraseDups.filter (fun n => !seen.contains n)
    new.map (fun n => n :: p) ++ longerPaths es (new ++ seen) r

/-- The members of the shortest cycle through `n`, found within `k` edges: `ps` are the paths from `n` so far. -/
def cycleWithin (es : List Edge) (n : Node) : Nat → List Node → List (List Node) → List Node
  | 0, _, _ => []
  | k + 1, seen, ps =>
    match ps.find? (fun p => es.any (fun e => p.head? = some e.src && e.dst = n)) with
    | some p => p
    | none =>
      let qs := longerPaths es seen ps
      cycleWithin es n k (qs.filterMap List.head? ++ seen) qs

/-- The members of the shortest cycle through a node; nothing when it lies on none. -/
def cycleOf (es : List Edge) (n : Node) : List Node := cycleWithin es n es.length [n] [[n]]

def nodeKey (n : Node) : Nat := n.core * 8 + n.unit

def State.hangWindow (s : State) : Nat := fld (s.pfReg 0x1300) 0 16

/-- The edges whose window has ended: a cycle is due when all of its edges are among them, since no member of it has
progressed for the window. -/
def State.dueEdges (s : State) (es : List Edge) : List Edge :=
  es.filter (fun e => s.time ≥ e.tick + s.hangWindow * 1000000)

/-- A cycle whose window has ended, its members in the order of R490. Of cycles that share a member, the one reported is a
shortest one through the lowest node (DESIGN CHOICE, log 58). -/
def State.dueCycle (s : State) : Option (List Node) :=
  let es := s.dueEdges s.hang.edges
  let ns := (sortBy (fun a b => a < b) (es.map (fun e => nodeKey e.src))).map (fun k => ({ core := k / 8, unit := k % 8 } : Node))
  ((ns.map (cycleOf es)).find? (fun ms => !ms.isEmpty)).map (fun ms =>
    (sortBy (fun a b => a < b) (ms.map nodeKey)).map (fun k => { core := k / 8, unit := k % 8 }))

/-- The collectors test their graphs in this tick (20 R477). -/
def State.hangTick (s : State) : Bool := s.time % 1000000 = 0 && s.hangWindow ≠ 0

/-- A core of the context is a member of a cycle that the test of this tick reports. -/
def State.hung (s : State) (n : Nat) : Bool :=
  let es := s.dueEdges s.graph
  s.hangTick && es.any (fun e => (s.core e.src.core).ctx = some n && !(cycleOf es e.src).isEmpty)

/-- A hang of this tick joins the reset of its context: DETAIL records it (20 R482; log 73). -/
def State.noteHang (s : State) (n : Nat) : State := if s.hung n then s.status n 11 else s

def State.noteHangs (s : State) : List Nat → State
  | [] => s
  | n :: r => (s.noteHang n).noteHangs r

def execResetContext (ctx : Fin 4096) (r : SubRec) (s : State) : Host.Outcome State Fault Refusal :=
  .next (acceptRec s ctx 4 r (fun s => (s.noteHang ctx).resetRecord ctx r))

/-! ### Reports (20 R478, R490) -/

/-- Writes a hang report into the slot after the latest. -/
def State.hangReport (s : State) (ws : List W64) : State :=
  let h := s.hang
  let k := if h.reports = 0 then 0 else (h.last + 1) % 8
  let s : State := { s with hang := { h with reports := min (h.reports + 1) 65535, last := k, slots := Tab.put h.slots k ws } }
  s.alarm alarmHang 0

/-- The edge by which a member of a cycle waits. -/
def waitOf (es : List Edge) (ms : List Node) (n : Node) : Nat × Nat :=
  ((es.find? (fun e => e.src = n && ms.contains e.dst)).map (fun e => (e.wait, e.obj))).getD (0, 0)

def State.memberWord (s : State) (ms : List Node) (n : Node) : W64 :=
  let w := waitOf s.hang.edges ms n
  let c := ((s.core n.core).ctx).getD 0
  BitVec.ofNat 64 (n.core + n.unit * 2 ^ 9 + w.1 * 2 ^ 12 + c * 2 ^ 16 + w.2 * 2 ^ 32 + (s.ctx c).part * 2 ^ 50)

def State.cycleWords (s : State) (ms : List Node) : List W64 :=
  let n := min ms.length 6
  let c := (ms.head?.bind (fun m => (s.core m.core).ctx)).getD 0
  BitVec.ofNat 64 (c + n * 2 ^ 16 + min ms.length 65535 * 2 ^ 32) :: BitVec.ofNat 64 s.time
    :: ((ms.take 6).map (s.memberWord ms) ++ List.replicate (6 - n) 0)

def State.hangEvents (s : State) (ms : List Node) : List Node → State
  | [] => s
  | n :: r => (s.coreEvent n.core 0x08 (n.unit + (waitOf s.hang.edges ms n).1 * 8)).hangEvents ms r

/-- Each context of a hang counts it, and its group ends. -/
def State.hangAborts (s : State) : List Nat → State
  | [] => s
  | n :: r => ((s.count n 17 1).abortRun n 11).hangAborts r

def State.reportHang (s : State) (ms : List Node) : State :=
  let ns := (ms.filterMap (fun m => (s.core m.core).ctx)).eraseDups
  ((s.hangReport (s.cycleWords ms)).hangEvents ms ms).hangAborts ns

/-- Every cycle that is due; each report ends at least one context. -/
def State.hangs (s : State) : Nat → State
  | 0 => s
  | k + 1 =>
    let s := s.watchWaits
    match s.dueCycle with
    | none => s
    | some ms => (s.reportHang ms).hangs k

/-- The collectors test their graphs at every whole millisecond. -/
def State.hangTest (s : State) : State :=
  let s := s.watchWaits
  if s.hangTick then s.hangs s.hang.edges.length else s

def execHangTest (s : State) : Host.Outcome State Fault Refusal := .next s.hangTest

/-- The expiry acts once its tick is over: a completion of that tick, and the abort of a hang that it reports, have come
before (14 R347, 20 R478). -/
def execDeadlineExpiry (ctx : Fin 4096) (s : State) : Host.Outcome State Fault Refusal := .next (s.deadlineExpiry ctx)

/-! ### Progress counters (20 R479) -/

/-- The tick of the context's latest progress while it runs. -/
def State.lastProgress (s : State) (n : Nat) : Nat :=
  (s.heldCores n).foldl (fun a c => max a (s.x c).progress) (s.ctx n).progTick

/-- The context runs with its counter on, and the counter has stood still for the window. -/
def State.progressDue (s : State) (n : Nat) : Bool :=
  let x := s.ctx n
  x.progEn && x.st = .running && s.time ≥ s.lastProgress n + max 1 x.progWin * 1000000

/-- A hang that the graph reports in this tick takes the abort and the report (20 R479). -/
def execProgressWindowExpiry (ctx : Fin 4096) (s : State) : Host.Outcome State Fault Refusal :=
  .next (
    let s := if s.progressDue ctx then s.hangTest else s
    if s.progressDue ctx then
      (s.hangReport [BitVec.ofNat 64 (ctx.val + 2 ^ 12), BitVec.ofNat 64 s.time, 0, 0, 0, 0, 0, 0]).hangAborts [ctx.val]
    else s)

end Sys2Proof.Machine
end

