-- ==== Sys2Proof/Machine/Dump.lean ====
section
/-! DEFINITION. The status words of cores, ports and stacks, and what a crash dump reads of the units (20 R488, R489). -/

namespace Sys2Proof.Machine

/-- A value from its fields: low bit, width, value. -/
def packed (l : List (Nat × Nat × Nat)) : W64 := BitVec.ofNat 64 (l.foldl (fun a f => a + f.2.2 % 2 ^ f.2.1 * 2 ^ f.1) 0)

/-- A number that does not grow beyond its field. -/
def upTo (n v : Nat) : Nat := min v (2 ^ n - 1)

/-! ### Status words (19 R474, 16 R379, 10 R238) -/

def coreCode : CoreSt → Nat
  | .active => 0 | .spare => 1 | .fenced => 2 | .testing => 3 | .failed => 4

def PCore.status (p : PCore) : W64 :=
  packed [(0, 3, coreCode p.st), (16, 8, p.logical), (24, 2, p.result), (32, 16, p.ce), (48, 16, p.ue)]

def Port.status (q : Port) : W64 :=
  packed [(8, 4, q.lanes), (12, 1, b2n q.up), (13, 1, b2n q.training), (14, 1, b2n (q.up && q.lanes = 7)),
    (16, 16, upTo 16 q.replays), (32, 16, upTo 16 q.crc)]

def Stk.status (k : Stk) : W64 :=
  packed [(0, 2, k.wpoint), (2, 1, b2n k.selfRef), (3, 1, b2n k.throttle), (4, 1, b2n k.waking), (8, 8, k.temp),
    (16, 16, k.rows), (32, 8, k.banks), (40, 8, k.spares)]

/-! ### What a crash dump reads (20 R488)

The fields of a unit stand in words of the model's own (DESIGN CHOICE, log 61). -/

def evWords (l : List Ev) : List W64 := (l.map (fun e => [e.1, e.2])).flatten

def ctxCode : CtxSt → Nat
  | .free => 0 | .idle => 1 | .ready => 2 | .running => 3 | .stopping => 4 | .saving => 5 | .saved => 6 | .restoring => 7

/-- Context states, ring heads and pending commands. -/
def State.dumpDispatcher (s : State) : List W64 :=
  s.ctxs.map (fun p => packed [(0, 12, p.1), (12, 4, ctxCode p.2.st), (16, 16, p.2.head), (32, 16, p.2.cqHead), (48, 16, p.2.accepted.length)])
    ++ [packed [(0, 1, b2n s.dev.hcmdBusy), (1, 1, b2n s.dev.hcmdRej), (8, 8, s.dev.hcmdWhy)]]
    ++ (match s.dev.xlatPart with
        | some (p, first, es) => BitVec.ofNat 64 (p + 256 * first) :: es
        | none => [])

def Edge.words (e : Edge) : List W64 :=
  [packed [(0, 9, e.src.core), (9, 3, e.src.unit), (12, 9, e.dst.core), (21, 3, e.dst.unit), (24, 3, e.wait), (32, 18, e.obj)],
   BitVec.ofNat 64 e.tick]

/-- A region's collector: its part of the wait-for graph, the latest fault that it has seen, and the fabric's events. -/
def State.dumpCollector (s : State) (r : Nat) : List W64 :=
  ((s.hang.edges.filter (fun e => regionOf e.src.core = r)).map Edge.words).flatten
    ++ (match (s.region r).lastFault with
        | some (t, c) => [BitVec.ofNat 64 t, BitVec.ofNat 64 c]
        | none => [])
    ++ evWords (s.region r).ring

def Tag.words (t : Tag) : List W64 :=
  [packed [(0, 32, t.no), (32, 1, b2n t.write)], packed [(0, 32, t.lo), (32, 32, t.hi)], BitVec.ofNat 64 t.owner]

/-- A core: its events, CORE_STATUS, instruction address, issue queues and tags. -/
def State.dumpCore (s : State) (c : Nat) : List W64 :=
  let p := s.core c
  let code := match p.ctx with
    | some n => (s.ctx n).run.elim 0 (fun r => r.code)
    | none => 0
  evWords p.ring ++ [p.status, BitVec.ofNat 64 (code + p.x.regs.pc)]
    ++ p.x.queue.map (fun k => BitVec.ofNat 64 k.id) ++ (p.x.tags.map Tag.words).flatten

/-- A well: its events and its stack's place in the slot wheel. -/
def State.dumpWell (s : State) (w : Nat) : List W64 :=
  evWords (Tab.val [] s.wellEv w) ++ [BitVec.ofNat 64 (s.stack (w / 16)).slot]

/-- A link port: its events, LNK_STATUS and, by path, the next sequence numbers and the flits in the replay buffer. -/
def State.dumpPort (s : State) (p : Nat) : List W64 :=
  let q := s.port p
  evWords q.ring ++ [q.status]
    ++ (q.links.map (fun k => [BitVec.ofNat 64 k.1, packed [(0, 16, k.2.lseq), (16, 16, k.2.expect), (32, 16, k.2.replay.length)]])).flatten

/-- A stack's base die: STK_STATUS, scrub and retirement. -/
def State.dumpStack (s : State) (k : Nat) : List W64 :=
  let x := s.stack k
  [x.status, BitVec.ofNat 64 x.scrubRow] ++ x.rowsBank.map (fun e => packed [(0, 32, e.1), (32, 32, e.2)])
    ++ (x.gone ++ x.copying).map (BitVec.ofNat 64)

/-- Units that a dump reads, in order: dispatcher and device error manager, 4 collectors, 264 cores, 256 wells, 18 ports
and 16 base dies. -/
def dumpUnits : Nat := 559

/-- What unit `u` answers. -/
def State.dumpUnit (s : State) (u : Nat) : List W64 :=
  if u = 0 then s.dumpDispatcher
  else if u < 5 then s.dumpCollector (u - 1)
  else if u < 269 then s.dumpCore (u - 5)
  else if u < 525 then s.dumpWell (u - 269)
  else if u < 543 then s.dumpPort (u - 525)
  else s.dumpStack (u - 543)

/-- The dump, when the units `lost` are silent. -/
def State.dump (s : State) (lost : List Nat) : Dump :=
  { cause := s.dev.recCause, tick := s.dev.recStarts.headD 0, units := dumpUnits - lost.length, silent := lost
    body := ((List.range dumpUnits).filter (fun u => !lost.contains u)).map (fun u => (u, s.dumpUnit u)) }

/-- A dump as one list: its header, then unit by unit. -/
def Dump.all (d : Dump) : List Nat :=
  [d.cause, d.tick, d.units, d.silent.length] ++ d.silent
    ++ (d.body.map (fun e => e.1 :: e.2.length :: e.2.map BitVec.toNat)).flatten

end Sys2Proof.Machine
end

