-- ==== Sys2Proof/Machine/Recovery.lean ====
section
/-! DEFINITION. Module recovery and crash dumps (18 R453, 20 R483 to R489, 22 R525). -/

namespace Sys2Proof.Machine

/-! ### The first stage: work ends (20 R483, R486) -/

def recoveryCode : RecoveryCause → Nat
  | .host => 1 | .fatal => 2 | .management => 3 | .restart => 4

/-- Starts within the last 60 s. -/
def State.recentStarts (s : State) : List Nat := s.dev.recStarts.filter (fun t => s.time < t + 60000000000)

/-- Contexts end without a posting: their records wait until recovery has ended. -/
def State.emptyContexts (s : State) : List Nat → State
  | [] => s
  | n :: l => (((s.removeCtx n).detachUpds n).onCtx n Ctx.emptied).emptyContexts l

/-- Whether endpoint and dispatcher still work: the link is up, and, on a fatal error, a free value says so. -/
def State.canPost (s : State) (cause : RecoveryCause) : Bool :=
  s.dev.linkUp && (cause ≠ .fatal || (Config.freeWord s.free).getLsbD 0)

/-- Every core stops issuing, members are told, and every accepted record completes with CONTEXT_RESET now or later. -/
def State.endWork (s : State) (cause : RecoveryCause) : State :=
  let ns := s.ctxs.map (fun x => x.1)
  let post := s.canPost cause
  let s := s.drawn.notices (s.parts.map (fun p => p.1))
  if post then s.endContexts 10 ns
  else
    let kept := (ns.map s.keepRecords).flatten
    ({ s with dev := { s.dev with unposted := s.dev.unposted ++ kept } } : State).emptyContexts ns

/-- From the restart on, THROTTLE_N acts again (24 R549). -/
def State.brakeAgain (s : State) (cause : RecoveryCause) : State :=
  if cause = .restart && !s.dev.throttleN then s.applyBrake else s

/-- Recovery begins at its first stage. -/
def State.beginRecovery (s : State) (cause : RecoveryCause) : State :=
  let starts := s.time :: s.recentStarts
  let s := (s.endWork cause).sleepStacks (List.range 16)
  (({ s with
    pwr := { s.pwr with stopped := false }
    dev := { s.dev with
      st := .recovering, stage := 0, recStage := 1, recCount := min (s.dev.recCount + 1) 255
      recCause := recoveryCode cause, recStarts := starts, hcmdBusy := false, xlatPart := none } } : State).alarm
    alarmRecovery 0).brakeAgain cause

/-- A start of module recovery: a request during recovery has no further effect, a fatal error starts it again, and a
fatal error after three starts within 60 s stops the module (20 R487). -/
def startRecovery (s : State) (cause : RecoveryCause) : State :=
  let many : Bool := s.recentStarts.length ≥ 3
  match s.dev.st with
  | .ready => if cause = .fatal && many then s.powerStop else s.beginRecovery cause
  | .recovering => if cause ≠ .fatal then s else if many then s.powerStop else s.beginRecovery cause
  | .starting => if s.dev.stages.contains .boot && s.belv.running then s.beginRecovery cause else s
  | .powerStop => s

def execModuleRecovery (cause : RecoveryCause) (s : State) : Host.Outcome State Fault Refusal :=
  .next (startRecovery s cause)

/-- Writing START in RECOVERY_CTRL: it reads 1 until recovery ends. -/
def recoveryStart (s : State) : State :=
  let s := startRecovery s .host
  if s.dev.st = .recovering then { s with dev := { s.dev with recStart := true } } else s

def execRecoveryStartWrite (s : State) : Host.Outcome State Fault Refusal := .next (recoveryStart s)

/-! ### Restart from the stop (18 R453, 24 R547) -/

/-- The conditions of a restart: coolant flows, every region and stack is below 95 °C, and the input is good. -/
def State.mayRestart (s : State) : Bool :=
  s.dev.flowN && s.dev.inputOk && (List.range 4).all (fun r => (s.region r).temp < 95)
    && (List.range 16).all (fun k => (s.stack k).temp < 95)

/-- A restart command; one that comes too early is discarded and logged. -/
def restartCommand (s : State) : State :=
  if s.dev.st ≠ .powerStop then s
  else if s.mayRestart then s.beginRecovery .restart
  else s.logIn .restartDiscarded

/-- A write to PWR_CMD through the management port, or a PERST_N pulse. -/
def execRestart (_byPerst : Bool) (s : State) : Host.Outcome State Fault Refusal := .next (restartCommand s)

/-! ### Crash dumps (20 R488, R489, 22 R525) -/

/-- The dump takes the trace buffer, whoever holds it, and gives it back when it ends. A free buffer is Belvedere's for
that time. -/
def State.holdTrace (s : State) (on : Bool) : State :=
  let o := Tab.val 0 s.belv.claims 0
  let o' := if on && o = 0 then 3 else if !on && o = 3 then 0 else o
  { s with dev := { s.dev with dumpHold := on }, belv := { s.belv with claims := Tab.put s.belv.claims 0 o' } }

def State.alarms (s : State) (kind : Nat) : List Nat → State
  | [] => s
  | u :: r => (s.alarm kind u).alarms kind r

/-- Belvedere has read every unit but those that were silent for 50 µs; the latest 8 dumps are kept. -/
def execCrashDump (silent : List Nat) (s : State) : Host.Outcome State Fault Refusal :=
  .next (if s.dev.st ≠ .recovering || s.dev.recStage ≠ 2 || !s.dev.dumpHold then s
    else
      let lost := silent.eraseDups.filter (fun u => u < dumpUnits)
      let d := s.dump lost
      let s := (s.holdTrace false).alarms alarmUnreachable lost
      ({ s with belv := { s.belv with dumps := (d :: s.belv.dumps).take 8 } } : State).logIn (.dump d))

/-! ### The dies reset (20 R483, R485) -/

/-- A physical core after its die's reset: its place in the core map and its counts stay. -/
def PCore.reborn (p : PCore) : PCore :=
  { p with ring := [], ctx := none, run := .idle, cache := [], scrub := false, stretch := false, x := Exec.zero }

/-- Queues stay configured and empty; one that was being disabled is disabled. -/
def Que.reborn (q : Que) : Que :=
  { q with en := q.en && !q.disable, disable := false, cells := [], owed := 0, flush := none, w := 0, c := 0, wSeen := 0, cSeen := 0 }

def Region.reborn (g : Region) : Region :=
  { g with
    sig := [], sigBy := [], updates := [], queues := g.queues.map (fun q => (q.1, q.2.reborn)), freed := [], virgin := 0, ring := []
    point := 7, held := none, settled := false, droopTick := none, pll := false, waking := false, idleTick := none }

/-- A port keeps the counts that only power-on resets (DEDUCED, log 62). -/
def Port.reborn (q : Port) : Port :=
  { q with
    up := false, training := false, lanes := 0, links := [], waiting := [], round := Turns.fresh, paused := false, reds := [], syncT1 := none, syncAt := 0, ring := [] }

/-- The offset of a VF register within its function, and WIN_BASE. -/
def keptVf (k : Nat) : Bool := k % 0x100000 = 0x80

/-- PRESERVE_CFG: the endpoint's configuration is saved and restored (20 R484). -/
def State.keepsConfig (s : State) : Bool := (s.pfReg 0x20).getLsbD 1

/-- The compute and port rails go off and on: every die but the management die and the stack base dies resets. -/
def State.resetDies (s : State) : State :=
  { s with
    cores := s.cores.map (fun c => (c.1, c.2.reborn))
    regions := s.regions.map (fun g => (g.1, g.2.reborn))
    ports := s.ports.map (fun q => (q.1, q.2.reborn))
    stks := s.stks.map (fun k => (k.1, { k.2 with reqs := [] }))
    wellEv := [], upsets := s.upsets.filter (fun u => u.granule.isSome), vf := s.vf.filter (fun e => keptVf e.1)
    parts := s.parts.map (fun p => (p.1, p.2.renumber))
    hang := { s.hang with edges := [] }
    pwr := { s.pwr with fabric := false, fabricWake := false }
    dev := { s.dev with pwrGood := false, linkTrain := false, linkUp := false
                        aer := if s.keepsConfig then s.dev.aer else 0, config := if s.keepsConfig then s.dev.config else []
                        masked := if s.keepsConfig then s.dev.masked else [], irqWaits := [] } }

/-- Belvedere's processor boots again, from boot ROM too, when an update has activated an image that has not booted yet
(22 R516). -/
def State.bootNew (s : State) : State :=
  if s.belv.newImage then { s with belv := { s.belv with running := false, rom := false } } else s

/-! ### Rails, clocks and links come up (20 R483, 23 R527) -/

def State.pllsOn (s : State) : List Nat → State
  | [] => s
  | r :: l => (s.onRegion r (fun g => { g with pll := true, waking := false, point := 7, idleTick := none })).pllsOn l

/-- PLLs lock, on the compute dies and in the fabric. -/
def State.clocksOn (s : State) : State :=
  let s := s.pllsOn (List.range 4)
  { s with pwr := { s.pwr with fabric := true, fabricWake := false, fabricIdle := none } }

def State.trainPorts (s : State) : List Nat → State
  | [] => s
  | p :: l => (s.onPort p (fun q => { q with training := s.linkMode p ≠ 0 && !q.up })).trainPorts l

/-- PWR_GOOD rises; the endpoint trains once PERST_N is deasserted as well (23 R530). -/
def State.railsGood (s : State) : State :=
  { s with dev := { s.dev with pwrGood := true, linkTrain := s.dev.perstN, linkUp := s.dev.perstN } }

def State.unsleep (s : State) : List Nat → State
  | [] => s
  | k :: l => (s.onStack k (fun x => { x with selfRef := false, waking := false, idleTick := s.time })).unsleep l

/-! ### READY (20 R485 to R487, 23 R527, R531) -/

/-- START_RESULT is written as the module becomes READY. -/
def State.writeResult (s : State) (ms : Nat) : State :=
  let up := ((List.range 18).filter (fun p => (s.port p).up)).length
  let bad := (s.cores.filter (fun c => c.2.st = .failed)).length
  { s with dev := { s.dev with
    readyMs := ms, portsUp := up, failed := bad
    stages := [.boot, .rails, .timebase, .stks, .cores, .links, .final] } }

/-- Serving begins; THROTTLE_N acts from here on (18 R449, 23 R529). -/
def State.serve (s : State) : State :=
  let s : State := { s with dev := { s.dev with st := .ready } }
  if s.dev.throttleN || s.pwr.brake then s else s.applyBrake

/-- The records that waited are posted with CONTEXT_RESET. -/
def State.postKept (s : State) : List (Nat × SubRec × Nat × Nat) → State
  | [] => s
  | (n, r, st, e) :: l =>
    (s.post n r 10 (if recOp r ≠ 1 then 0 else if bit st 10 then st else st + 2 ^ 10) e).postKept l

def State.newEpochs (s : State) : List Nat → State
  | [] => s
  | p :: l => (s.advanceEpoch p).newEpochs l

/-- The error ring holds one record, which names the start cause in EXTRA (DESIGN CHOICE, log 60); ERR_TAIL keeps its value,
and the ring begins there. A record of CLASS fatal is an alarm as well (21 R506). -/
def State.restartRing (s : State) : State :=
  let r := { ErrIn.plain 9 2 0x10 0 0 with extra := s.dev.recCause }.words s.time
  let e := { ErrRing.empty with head := s.err.tail, tail := s.err.tail, dropped := s.err.dropped, second := s.time / 1000000000 }
  (({ s with err := e } : State).pushRec r).alarm alarmFatal 0

/-- The end of module recovery. -/
def State.recovered (s : State) : State :=
  let kept := s.dev.unposted
  let s := (s.restartRing).newEpochs (s.parts.map (fun p => p.1))
  let s := s.writeResult ((s.time - s.dev.recStarts.headD 0) / 1000000)
  let s : State := { s with dev := { s.dev with recStage := 0, recStart := false, unposted := [] } }
  (s.serve).postKept kept

/-- A stage of recovery completes: 1 stop, 2 dump, 3 rails, 4 tests and training, 5 restoring. The rails come up
only while Belvedere runs and the test access port does not hold the pins. -/
def execRecoveryStageDone (s : State) : Host.Outcome State Fault Refusal :=
  .next (if s.dev.st ≠ .recovering then s
    else
      let next (s : State) (k : Nat) : State := { s with dev := { s.dev with recStage := k } }
      match s.dev.recStage with
      | 1 => next (s.holdTrace true) 2
      | 2 => next ((s.holdTrace false).resetDies.bootNew) 3
      | 3 =>
        if !s.belv.running || s.belv.tapHold then s
        else next ((s.railsGood.clocksOn).trainPorts (List.range 18)) 4
      | 4 => next (s.reducedTest.unsleep (List.range 16)) 5
      | _ => s.recovered)

end Sys2Proof.Machine
end

