-- ==== Sys2Proof/Machine/Startup.lean ====
section
/-! DEFINITION. Power at the input, the stages of start-up, Belvedere's boot, and the test access port (22 R510,
R513 to R515, 23 R526 to R537, 24 R546 to R549). -/

namespace Sys2Proof.Machine

/-! ### The input (23 R526, 24 R547 to R549) -/

/-- What survives without power: the flash and the fuses. -/
def Belv.unpowered (b : Belv) : Belv :=
  { Belv.fresh with slotA := b.slotA, slotB := b.slotB, activeB := b.activeB, newImage := b.newImage, minVer := b.minVer, store := b.store, log := b.log, dumps := b.dumps }

/-- The retirements of a stack lie in its fuses (10 R240). -/
def Stk.manufactured (k : Stk) : Stk :=
  { Stk.fresh with rows := k.rows, banks := k.banks, spares := k.spares, rowsBank := k.rowsBank, gone := k.gone.filter (fun b => !k.copying.contains b) }

/-- Every rail is off. Pins, the host's memory and what was sent to the host are outside the module. -/
def State.unpowered (s : State) : State :=
  { State.reset with
    pending := s.pending, free := s.free, host := s.host, msix := s.msix, rdata := s.rdata, belv := s.belv.unpowered
    stks := s.stks.map (fun k => (k.1, k.2.manufactured))
    dev := { Dev.fresh with perstN := s.dev.perstN, flowN := s.dev.flowN, throttleN := s.dev.throttleN, swClosed := s.dev.swClosed } }

/-- Power good: the AON clock and DEVTIME start, and MODULE_ID is sampled. -/
def execPowerGood (moduleId : BitVec 3) (s : State) : Host.Outcome State Fault Refusal :=
  .next (if s.dev.aon || !s.dev.swClosed then s
    else { s with time := 0, dev := { s.dev with aon := true, inputOk := true, t0 := 0, moduleId := moduleId.toNat } })

/-- The main rails turn off during start-up, which begins again at RAILS. -/
def State.railsLost (s : State) : State :=
  let s := ((s.stopPorts).sleepStacks (List.range 16)).stopPlls (List.range 4)
  { s with
    pwr := { s.pwr with fabric := false, fabricWake := false }
    dev := { s.dev with
      stages := s.dev.stages.filter (fun g => g = .boot), stage := if s.dev.stage = 0xF1 then 0xF1 else 0
      pwrGood := false, linkTrain := false, linkUp := false } }

/-- The input has been outside 57 V to 83 V for 100 µs. -/
def execInputVoltageTrip (s : State) : Host.Outcome State Fault Refusal :=
  .next (if !s.dev.aon then s
    else
      let s : State := { s with dev := { s.dev with inputOk := false } }
      if s.dev.st = .starting then s.railsLost else (s.powerStop).alarm alarmInput 0)

/-- The input has been back within 60 V to 80 V for 10 ms. In start-up the times count from here (DEDUCED, log 63). -/
def execInputRangeReturn (s : State) : Host.Outcome State Fault Refusal :=
  .next (if !s.dev.aon || s.dev.inputOk then s
    else { s with dev := { s.dev with inputOk := true, t0 := if s.dev.st = .starting then s.time else s.dev.t0 } })

def execInputLoss (s : State) : Host.Outcome State Fault Refusal := .next s.unpowered

/-- The input switch opens, and every rail turns off. -/
def execInputOvercurrent (s : State) : Host.Outcome State Fault Refusal :=
  .next (let s := s.unpowered
    { s with dev := { s.dev with swClosed := false } })

def execInputSwitchClose (s : State) : Host.Outcome State Fault Refusal :=
  .next { s with dev := { s.dev with swClosed := true } }

/-! ### The core map (23 R535) -/

/-- The cores in Belvedere's log of FAILED cores. -/
def Belv.badCores (b : Belv) : List Nat :=
  (b.log ++ b.logWait).filterMap (fun e => match e.ent with
    | .failedCore c => some c
    | _ => none)

/-- The passing cores of a region in the order in which they take logical numbers: fused spares last. -/
def passing (bad : List Nat) (r : Nat) : List Nat :=
  (((List.range 66).map (fun i => r * 66 + i))).filter (fun c => !bad.contains c)

def placed (r i c : Nat) : PCore :=
  let p := PCore.fused c
  if i < 64 then { p with st := .active, logical := r * 64 + i } else { p with st := .spare, logical := 0 }

def State.placeCores (s : State) (r : Nat) : List (Nat × Nat) → State
  | [] => s
  | (i, c) :: l => (s.setCore c (placed r i c)).placeCores r l

def State.failCores (s : State) : List Nat → State
  | [] => s
  | c :: l => (s.setCore c { PCore.fused c with st := .failed, logical := 0 }).failCores l

/-- The map of a region with failed cores; the fuses give the map of one without. -/
def State.mapRegion (s : State) (bad : List Nat) (r : Nat) : State :=
  let mine := bad.filter (fun c => regionOf c = r)
  if mine.isEmpty then s
  else (s.failCores mine).placeCores r (((passing bad r).zipIdx).map (fun e => (e.2, e.1)))

def State.mapCores (s : State) : State :=
  let bad := (s.belv.badCores.eraseDups).filter (fun c => c < 264)
  (((s.mapRegion bad 0).mapRegion bad 1).mapRegion bad 2).mapRegion bad 3

/-! ### The stages (23 R527 to R529, R533) -/

def stageDeps : StartStage → List StartStage
  | .boot => []
  | .rails => [.boot]
  | .timebase => [.rails]
  | .stks | .cores | .links => [.timebase]
  | .final => [.stks, .cores, .links]

/-- A stage has started, and neither completed nor failed. -/
def State.inStage (s : State) (g : StartStage) : Bool :=
  s.dev.st = .starting && s.dev.aon && s.dev.stage = 0 && !s.dev.stages.contains g
    && (stageDeps g).all (fun d => s.dev.stages.contains d)

/-- Every port that is not OFF is UP, or 7.00 s have passed. -/
def State.linksOver (s : State) : Bool :=
  s.time ≥ s.dev.t0 + 7000000000 || (List.range 18).all (fun p => s.linkMode p = 0 || (s.port p).up)

/-- What a stage needs at its end. -/
def State.stageReady (s : State) : StartStage → Bool
  | .boot => s.belv.running
  | .rails => s.railsFree
  | .links => s.linksOver
  | _ => true

/-- The failed cores that are not in the log yet join it. -/
def Belv.logBad (b : Belv) (l : List Nat) (now : Nat) : Belv :=
  b.logFailed ((l.eraseDups).filter (fun c => c < 264 && !b.badCores.contains c)) now

/-- The end of start-up. -/
def State.started (s : State) : State := ((s.mapCores).writeResult (s.time / 1000000)).serve

def State.stageWork (s : State) (g : StartStage) (bad : List Nat) : State :=
  match g with
  | .rails => s.railsGood
  | .timebase => (s.clocksOn).trainPorts (List.range 18)
  | .cores => { s with belv := s.belv.logBad bad s.time }
  | .final => s.started
  | _ => s

def State.endStage (s : State) (g : StartStage) (bad : List Nat) : State :=
  let s : State := { s with dev := { s.dev with stages := s.dev.stages ++ [g] } }
  s.stageWork g bad

def State.failStage (s : State) (code : Nat) : State := { s with dev := { s.dev with stage := code } }

/-- A stage ends, or fails in one of the ways that R529 and R533 give it. -/
def execStartStageDone (stage : StartStage) (res : StageResult) (s : State) : Host.Outcome State Fault Refusal :=
  .next (if !s.inStage stage then s
    else match res, stage with
      | .done bad, g => if s.stageReady g then s.endStage g bad else s
      | .imagesBad, .boot => ({ s with belv := { s.belv with running := false, rom := true } } : State).failStage 0xF1
      | .railBad, .rails => if s.railsFree then (s.failStage 0xF2).alarm alarmRail 0 else s
      | .stackBad, .stks => s.failStage 0xF3
      | .fabricBad, .cores => s.failStage 0xF4
      | _, _ => s)

/-! ### Belvedere's boot (22 R510, R513 to R516) -/

def Belv.slot (b : Belv) (second : Bool) : Slot := if second then b.slotB else b.slotA

def Belv.setSlot (b : Belv) (second : Bool) (x : Slot) : Belv := if second then { b with slotB := x } else { b with slotA := x }

/-- The first `n` bytes of a slot; an erased byte of the flash reads 0xFF (PRESUMED, log 179). -/
def Belv.flash (b : Belv) (second : Bool) (n : Nat) : List Byte :=
  let x := b.slot second
  (List.range n).map (fun i => (Tab.at? x.data i).getD (if x.wiped then 0xFF else Config.flashByte second i))

def Belv.header (b : Belv) (second : Bool) : List Byte := b.flash second Config.headerLen

/-- The bytes of the image in a slot. -/
def Belv.image (b : Belv) (second : Bool) : List Byte := b.flash second (Config.imageLength (b.header second))

def Belv.version (b : Belv) (second : Bool) : Nat := Config.imageVersion (b.header second)

/-- The coordinates of a public key of 96 bytes. -/
def publicKey (k : List Byte) : Nat × Nat := (leNat (k.take 48).reverse, leNat (k.drop 48).reverse)

/-- The signature of a slot's image over the rest of the image verifies, with a key whose digest is the one in OTP
(22 R513). -/
def Belv.signed (b : Belv) (second : Bool) : Bool :=
  let h := b.header second
  let k := Config.imageKey h
  Config.headerLen ≤ Config.imageLength h && Config.imageLength h ≤ 0x1000000 && sha384 k = Config.keyHash
    && ecdsaOk (publicKey k) (sha384 ((b.image second).drop Config.headerLen)) (Config.imageSig h)

/-- The boot ROM accepts a slot: its image verifies, its security version is not below the minimum, and it has not failed
on 3 consecutive boots. -/
def Belv.accepts (b : Belv) (second ok : Bool) : Bool :=
  ok && (b.slot second).valid && b.version second ≥ b.minVer && (b.slot second).fails < 3

/-- The slot that the boot ROM tries: the active one before the other. -/
def Belv.trial (b : Belv) (okA okB : Bool) : Option Bool :=
  let ok (x : Bool) : Bool := if x then okB else okA
  if b.accepts b.activeB (ok b.activeB) then some b.activeB
  else if b.accepts (!b.activeB) (ok (!b.activeB)) then some (!b.activeB)
  else none

/-- A boot that does not reach the running state counts against the slot that was tried, which is then the active one. -/
def Belv.failedBoot (b : Belv) : Belv :=
  match b.trial (b.signed false) (b.signed true) with
  | none => b
  | some x => { b.setSlot x { b.slot x with fails := (b.slot x).fails + 1 } with activeB := x }

/-- The processor resets, from boot ROM too; it boots again with FIRMWARE_BOOT. A reset before it ran counts as a failed
boot. The log tells of the restart once the processor runs. -/
def execLockstepMismatch (s : State) : Host.Outcome State Fault Refusal :=
  .next (if !s.dev.aon then s
    else
      let b := if s.belv.running || s.belv.rom then s.belv else s.belv.failedBoot
      { s with belv := { b with running := false, rom := false, spdm := 0, sram := [], restarted := true } })

/-- The image of a slot is in its running state. -/
def State.bootSlotOf (s : State) (x : Bool) : State :=
  let b := s.belv
  let again := b.restarted
  let s := ({ s with
    belv := { b.setSlot x { b.slot x with fails := 0 } with
      activeB := x, running := true, rom := false, bootTick := s.time, runVer := b.version x, newImage := false, restarted := false }
    dev := { s.dev with bootSlot := b2n x } } : State).logIn (.firmware 0 (b2n x))
  if again then s.alarm alarmRestart 0 else s

/-- The boot ROM verifies the slots, and boots the one that it tries. `okA` and `okB` are what the crypto engine answers about
the signatures: an answer that the slots do not give is none. -/
def execFirmwareBoot (okA okB : Bool) (s : State) : Host.Outcome State Fault Refusal :=
  .next (
    let b := s.belv
    if !s.dev.aon || b.running || b.rom || okA ≠ b.signed false || okB ≠ b.signed true then s
    else match b.trial okA okB with
      | some x => s.bootSlotOf x
      | none =>
        let s : State := { s with belv := { b with rom := true } }
        if s.dev.st = .starting then s.failStage 0xF1 else s)

/-- The image has run for 60 s: the minimum in OTP rises to its version. -/
def execSecurityVersionRaise (s : State) : Host.Outcome State Fault Refusal :=
  .next (
    let b := s.belv
    if b.running && s.time ≥ b.bootTick + 60000000000 then { s with belv := { b with minVer := max b.minVer b.runVer } } else s)

/-! ### The test access port (23 R536, R537) -/

/-- EXTEST, CLAMP and HIGHZ drive or release pins. -/
def drivesPins (t : TapTarget) : Bool := t = .extest || t = .clamp || t = .highz

/-- They take effect only while the main rails are off, and then hold RAILS until Test-Logic-Reset; at any other time
they act as BYPASS. -/
def execTapStateChange (target : TapTarget) (s : State) : Host.Outcome State Fault Refusal :=
  .next (
    let t := if drivesPins target && s.railsOn then .bypass else target
    { s with belv := { s.belv with
      tap := t, tapHold := if target = .testLogicReset then false else s.belv.tapHold || drivesPins t } })

end Sys2Proof.Machine
end

