-- ==== Sys2Proof/Machine/Mbox.lean ====
section
/-! DEFINITION. Resource claims, timers, the mailbox's request, and the trace block's own actions (21 R502, 22 R522 to
R525). -/

namespace Sys2Proof.Machine

/-! ### Claims (22 R523, R524) -/

/-- Claimants of CLAIM_OWNERS. -/
def bySupervisor : Nat := 1
def byPort : Nat := 2

def State.holder (s : State) (res : Nat) : Nat := Tab.val 0 s.belv.claims res
def State.setHolder (s : State) (res who : Nat) : State :=
  { s with belv := { s.belv with claims := Tab.put s.belv.claims res who } }

/-- A claim: the state and its result, 0 success, 1 busy, 2 invalid. -/
def State.claimFor (s : State) (who res : Nat) : State × Nat :=
  if res > 12 then (s, 2) else if s.holder res ≠ 0 then (s, 1) else (s.setHolder res who, 0)

/-- Only the holder releases a claim: of a resource that another holds the result is 1, of a free one 2 (DESIGN CHOICE,
log 67). -/
def State.releaseFor (s : State) (who res : Nat) : State × Nat :=
  if res > 12 then (s, 2)
  else if s.holder res = who then (s.setHolder res 0, 0)
  else (s, if s.holder res = 0 then 2 else 1)

/-- A write to CLAIM_CMD leaves its RESOURCE and its RESULT. -/
def claimCmd (s : State) (res : Nat) (claim : Bool) : State :=
  let g := if claim then s.claimFor bySupervisor res else s.releaseFor bySupervisor res
  { g.1 with belv := { g.1.belv with claimId := res, claimRes := g.2 } }

def execClaimSupervisor (res : BitVec 8) (s : State) : Host.Outcome State Fault Refusal :=
  .next (claimCmd s res.toNat true)

def execReleaseSupervisor (res : BitVec 8) (s : State) : Host.Outcome State Fault Refusal :=
  .next (claimCmd s res.toNat false)

/-! ### Timers and pins (22 R525) -/

def tmrOff (i : Nat) : Nat := 0x300080 + 8 * i

/-- FUNC of a pin; an unclaimed pin is an input, and 5 to 15 act as 0. -/
def State.pinFunc (s : State) (g : Nat) : Nat :=
  let f := fld (s.pfReg 0x300050) (4 * g) 4
  if s.holder (9 + g) = 0 || f > 4 then 0 else f

/-- One pulse a tick on a pin that takes timer pulses. -/
def State.pulse (s : State) (g : Nat) : State :=
  let p := Tab.val (0, 0) s.belv.pulses g
  if s.pinFunc g ≠ 3 || (p.1 ≠ 0 && p.2 = s.time) then s
  else { s with belv := { s.belv with pulses := Tab.put s.belv.pulses g (p.1 + 1, s.time) } }

def State.ibi (s : State) : State := { s with belv := { s.belv with irqs := s.belv.irqs + 1 } }

/-- An armed timer whose tick has come fires once: a pulse, an in-band interrupt, a message, as its actions say. -/
def execTimerFire (i : Fin 8) (s : State) : Host.Outcome State Fault Refusal :=
  .next (
    let v := s.pfReg (tmrOff i)
    if !v.getLsbD 59 || s.time < 40 * fld v 0 59 then s
    else
      let s := s.setPf (tmrOff i) (setFld v 59 1 0)
      let s := if v.getLsbD 62 then s.pulse (i % 4) else s
      let s := if v.getLsbD 61 then s.ibi else s
      if v.getLsbD 60 then s.interrupt 6 else s)

/-! ### The mailbox's request (22 R522) -/

/-- Writing GO: dropped while it reads 1; a bad length is not served. -/
def mboxGo (s : State) : State :=
  let v := s.pfReg 0x300000
  let n := fld v 8 13
  if v.getLsbD 0 then s
  else if n = 0 || n > 4096 then { s with belv := { s.belv with badLen := true } }
  else ({ s with belv := { s.belv with badLen := false } } : State).setPf 0x300000 (setFld v 0 1 1)

def execMboxGo (s : State) : Host.Outcome State Fault Refusal := .next (mboxGo s)

/-! ### The trace block (21 R502) -/

/-- Setting EN needs the supervisor's claim of the trace buffer. -/
def State.traceOn (s : State) : Bool := s.holder 0 = bySupervisor

def traceEnable (s : State) : State :=
  if s.traceOn then s.setPf 0x200000 (setFld (s.pfReg 0x200000) 0 1 1) else s.writeDropped 0x200000

def execTraceEnable (s : State) : Host.Outcome State Fault Refusal := .next (s.whenReady traceEnable)

/-- The ring that SNAP names, with its SOURCE. -/
def State.ringOf (s : State) (ty unit : Nat) : List Ev × Nat :=
  match ty with
  | 0 => ((s.core unit).ring, unit)
  | 1 => (Tab.val [] s.wellEv unit, unit + 512)
  | 2 => ((s.port unit).ring, unit + 1024)
  | 3 => ((s.region unit).ring, unit + 1536)
  | _ => ([], 0)

/-- The EVENT record of a ring's event. The ring holds neither partition nor context: free values (log 66). -/
def eventRec (src part ctx : Nat) (e : Ev) : TraceRec :=
  { ty := 1, wm := false, src := src, part := part % 256, id := fld e.2 58 6, ctx := ctx % 4096, time := fld e.2 0 58
    layer := BitVec.ofNat 16 (fld e.1 48 16), op := BitVec.ofNat 16 (fld e.1 32 16), data := fld e.1 0 32, l0 := 0
    body := [] }

def State.snapEvents (s : State) (src : Nat) : List Ev → State
  | [] => s
  | e :: r =>
    let v := Config.freeWord s.free
    (s.drawn.traceModule (eventRec src (fld v 0 8) (fld v 16 12) e) true).snapEvents src r

/-- SNAP copies the named ring, oldest first, whatever the kind mask holds. -/
def traceSnap (s : State) (ty unit : Nat) : State :=
  let s := s.setPf 0x200000 (setFld (setFld (s.pfReg 0x200000) 25 3 ty) 16 9 unit)
  let r := s.ringOf ty unit
  s.snapEvents r.2 r.1

def execTraceSnap (ty : BitVec 3) (unit : BitVec 9) (s : State) : Host.Outcome State Fault Refusal :=
  .next (s.whenReady (fun s => traceSnap s ty.toNat unit.toNat))

/-- The fields of TRACE_BUF. -/
def bufMask : W64 := 0xFFFFF0FFFFFFF000

/-- A write to TRACE_BUF places the buffer and resets TRACE_PTR. -/
def traceBuf (s : State) (v : W64) : State := (s.setPf 0x200008 (v &&& bufMask)).setPf 0x200010 0

def execTraceBufWrite (v : W64) (s : State) : Host.Outcome State Fault Refusal :=
  .next (s.whenReady (fun s => traceBuf s v))

end Sys2Proof.Machine
end

