-- ==== Sys2Proof/Machine/Regs.lean ====
section
/-! DEFINITION. The register map: what each register of PF BAR0 reads as, and what a write to it does (17 R411 to R423,
and the registers of the chapters that R411 names). -/

namespace Sys2Proof.Machine

/-! ### Reading a register -/

def devCode : DevSt → Nat
  | .starting => 0 | .ready => 1 | .recovering => 2 | .powerStop => 3

def stageCode : StartStage → Nat
  | .boot => 1 | .rails => 2 | .timebase => 3 | .stks => 4 | .cores => 5 | .links => 6 | .final => 7

/-- START_STAGE: a failure, else the lowest stage that has not completed, and 8 at READY (23 R527). Before the start
begins it has its reset value 0 (DEDUCED, log 75). -/
def State.startStage (s : State) : Nat :=
  if s.dev.stage ≠ 0 then s.dev.stage
  else if !s.dev.aon then 0
  else if s.dev.st = .ready then 8
  else ((([.boot, .rails, .timebase, .stks, .cores, .links, .final] : List StartStage).find? (fun g => !s.dev.stages.contains g)).map
    stageCode).getD 8

def State.errPending (s : State) : Bool := s.err.head ≠ s.err.tail

def State.devStatus (s : State) : W64 :=
  packed [(0, 3, devCode s.dev.st), (8, 8, s.startStage), (16, 1, b2n (s.pwr.alarm ≠ 0)), (17, 1, b2n s.errPending)]

def State.readDev (s : State) (off : Nat) : W64 :=
  match off with
  | 0x00 => packed [(0, 32, 0x02400072), (32, 8, Config.stepping.toNat)]
  | 0x08 => s.devStatus
  | 0x10 => s.pfReg 0x10
  | 0x18 => packed [(0, 1, s.dev.bootSlot), (8, 8, s.dev.failed), (16, 8, s.dev.portsUp), (32, 32, s.dev.readyMs)]
  | 0x20 => packed [(0, 1, b2n s.dev.recStart), (1, 1, fld (s.pfReg 0x20) 1 1), (24, 3, s.dev.recCause), (32, 8, s.dev.recCount)]
  | 0x40 => BitVec.ofNat 64 s.nowNs
  | 0x80 => s.pfReg 0x80
  | _ => 0

/-- CORE_OWNER `i`: four logical cores. -/
def State.ownerWord (s : State) (i : Nat) : W64 :=
  packed ((List.range 4).map (fun j => (16 * j, 9, (s.owner (4 * i + j)).elim 0 (fun p => p + 256))))

def State.hangWord (s : State) (i w : Nat) : W64 := (Tab.val [] s.hang.slots i).getD w 0

def State.readSched (s : State) (off : Nat) : W64 :=
  if off = 0x1000 || off = 0x1008 || off = 0x1010 || off = 0x1308 then s.pfReg off
  else if off = 0x1018 then packed [(0, 1, b2n s.dev.hcmdBusy), (1, 1, b2n s.dev.hcmdRej), (8, 8, s.dev.hcmdWhy)]
  else if 0x1100 ≤ off && off < 0x1300 then s.ownerWord ((off - 0x1100) / 8)
  else if off = 0x1300 then packed [(0, 16, s.hangWindow), (16, 3, s.hang.last), (32, 16, s.hang.reports)]
  else if off = 0x1310 then
    let x := s.ctx (fld (s.pfReg 0x1308) 0 12)
    packed [(0, 16, x.progWin), (16, 1, b2n x.progEn)]
  else if 0x1400 ≤ off && off < 0x1600 then s.hangWord ((off - 0x1400) / 64) ((off - 0x1400) % 64 / 8)
  else 0

/-- POINT of a region: 7 while its PLL is off. -/
def Region.pointRead (g : Region) : Nat := if g.pll then g.point else 7

def State.pwrStatus (s : State) : W64 :=
  packed ((List.range 4).map (fun r => (3 * r, 3, (s.region r).pointRead))
    ++ (List.range 4).map (fun r => (12 + r, 1, b2n (s.region r).fast))
    ++ (List.range 4).map (fun r => (16 + 3 * r, 3, (s.region r).level - 1))
    ++ [(29, 2, ((List.range 16).map (fun k => (s.stack k).ceil)).foldl min 2), (31, 1, b2n s.pwr.brake),
        (32, 1, b2n s.pwr.stopped)])

/-- A sensor's latest reading, 0 without one. -/
def State.sensor (s : State) (id : Nat) : Nat := ((Tab.val none s.belv.sensors id).getD 0).toNat

def State.prefWord (s : State) (n : Nat) : W64 :=
  packed ((List.range 8).map (fun q => (4 * q, 4, Tab.val 15 (s.ctx n).prefs q)))

/-- PWR_INPUT's VIN and IIN come from sensors 600 and 601, in their units (DESIGN CHOICE, log 68). -/
def State.readPwr (s : State) (off : Nat) : W64 :=
  match off with
  | 0x2000 | 0x2008 | 0x2010 => s.pfReg off
  | 0x2018 => s.prefWord (fld (s.pfReg 0x2010) 0 12)
  | 0x2020 => s.pwrStatus
  | 0x2028 => BitVec.ofNat 64 s.pwr.alarm
  | 0x2030 => packed [(0, 16, upTo 16 s.pwr.pInput), (16, 16, upTo 16 (s.sensor 600 / 10)), (32, 16, upTo 16 (s.sensor 601 / 10))]
  | 0x2038 => packed ((List.range 4).map (fun r => (8 * r, 8, (s.region r).temp))
      ++ [(32, 8, ((List.range 16).map (fun k => (s.stack k).temp)).foldl max 0)])
  | _ => 0

def ErrRec.word (r : ErrRec) (w : Nat) : W64 :=
  match w with
  | 0 => r.w0
  | 1 => r.w1
  | 2 => r.w2
  | _ => r.w3

def ErrRec.blank : ErrRec := { w0 := 0, w1 := 0, w2 := 0, w3 := 0 }

def State.readErr (s : State) (off : Nat) : W64 :=
  if off = 0x3000 then BitVec.ofNat 64 s.err.head
  else if off = 0x3008 then BitVec.ofNat 64 s.err.tail
  else if off = 0x3010 then BitVec.ofNat 64 s.err.dropped
  else if 0x3100 ≤ off && off < 0x3900 then (Tab.val ErrRec.blank s.err.recs ((off - 0x3100) / 32)).word ((off - 0x3100) % 32 / 8)
  else 0

def partCode : PartSt → Nat
  | .unused => 0 | .active => 1 | .releasing => 2 | .released => 3

def State.partMem (s : State) (p : Nat) : W64 :=
  packed [(0, 20, s.memQuota p), (32, 20, (s.part p).mapped), (56, 2, partCode (s.part p).st)]

def State.readPart (s : State) (off : Nat) : W64 :=
  if (off - 0x4000) % 0x40 = 8 then s.partMem ((off - 0x4000) / 0x40) else s.pfReg off

def Port.tsWord (q : Port) : W64 :=
  packed [(0, 32, q.tsOffset.toNat), (32, 16, upTo 16 q.tsDelay), (48, 1, b2n q.tsValid)]

def State.readLink (s : State) (off : Nat) : W64 :=
  let p := (off - 0x10000) / 0x800
  match (off - 0x10000) % 0x800 with
  | 0 => s.pfReg off
  | 8 => (s.port p).status
  | 16 => (s.port p).tsWord
  | _ => 0

def State.readStack (s : State) (off : Nat) : W64 :=
  let k := (off - 0x20000) / 0x1000
  let o := off % 0x1000
  if o = 8 then (s.stack k).status else if o = 0 || (0x100 ≤ o && o < 0x140) then s.pfReg off else 0

/-- SELFTEST reads 1 until the test ends. -/
def PCore.underTest (p : PCore) : Bool := p.st = .testing || p.inPlace || p.testNext || p.moveOut = some false

/-- A core's registers; LOGICAL keeps its reset value until start-up has placed the logical cores (19 R474, 23 R535). -/
def State.readCore (s : State) (off : Nat) : W64 :=
  let c := (off - 0x40000) / 0x200
  match (off - 0x40000) % 0x200 with
  | 0 => packed [(0, 1, b2n (s.core c).underTest), (8, 8, fld (s.pfReg off) 8 8)]
  | 8 => if s.dev.st = .starting then { s.core c with logical := 0 }.status else (s.core c).status
  | _ => 0

def Que.status (q : Que) : W64 :=
  packed [(0, 17, q.occ), (17, 17, q.held), (34, 1, b2n q.flush.isSome)]

def State.readQpool (s : State) (off : Nat) : W64 :=
  if off < 0xC0000 then
    let q := s.que ((off - 0x80000) / 0x10000) ((off - 0x80000) % 0x10000 / 16)
    if off % 16 = 0 then q.cfg else q.status
  else if off % 0x1000 = 0 && off < 0xC4000 then
    let r := (off - 0xC0000) / 0x1000
    packed [(0, 17, (s.region r).freeCells), (17, 17, s.capSum r)]
  else 0

/-! ### Counters (21 R494 to R498) -/

/-- Counter `i` of a context; ENERGY is what its activity comes to (18 R456, 21 R495). -/
def State.ctxCounter (s : State) (n i : Nat) : W64 :=
  if i = 2 then BitVec.ofNat 64 (microjoules (spent (s.ctx n).acts))
  else if i < 18 then Tab.val 0 (s.ctx n).counters i else 0

/-- Pages of the partition's cache pool that are allocated now. -/
def State.pagesHeld (s : State) (p : Nat) : Nat :=
  let ps := (s.poolMapped p false).map (fun q => q.2)
  (s.frames.filter (fun f => ps.contains (f.1 / 32))).length

def State.partCounter (s : State) (p i : Nat) : W64 :=
  if i = 0 then BitVec.ofNat 64 (microjoules (spent (s.part p).acts - (s.part p).energy0))
  else if i = 5 then BitVec.ofNat 64 (s.pagesHeld p) else if i < 9 then Tab.val 0 (s.part p).counters i else 0

def State.readCnt (s : State) (off : Nat) : W64 :=
  let o := off - 0x100000
  if o < 0x800 then BitVec.ofNat 64 (s.part (o / 8)).violations
  else if o = 0x800 then s.pwr.unattr
  else if o < 0x828 then (s.region ((o - 0x808) / 8)).droops
  else if o < 0x848 then (s.region ((o - 0x828) / 8)).meshBusy
  else if o < 0x8C8 then (s.stack ((o - 0x848) / 8)).ifBursts
  else if o < 0x948 then (s.stack ((o - 0x8C8) / 8)).wellBursts
  else if o < 0x9D8 then (s.port ((o - 0x948) / 8)).txFlits
  else if o < 0xA68 then (s.port ((o - 0x9D8) / 8)).rxFlits
  else if o = 0xA68 then s.dev.records
  else if o = 0xA70 then s.pwr.capDowns
  else if o = 0xE00 then s.pfReg off
  else if 0xF00 ≤ o && o < 0x1000 then s.ctxCounter (fld (s.pfReg 0x100E00) 0 12) ((o - 0xF00) / 8)
  else if 0x1000 ≤ o && o < 0x11000 then s.partCounter ((o - 0x1000) / 0x100) ((o - 0x1000) % 0x100 / 8)
  else 0

/-- HEAD + 1 equals TAIL modulo the slot count. -/
def ringFull (buf ptr : W64) : Bool :=
  let n := fld buf 44 20 * 64
  n ≠ 0 && (fld ptr 0 32 + 1) % n = fld ptr 32 32

def State.readTrace (s : State) (off : Nat) : W64 :=
  if off = 0x200020 then
    packed [(0, 1, b2n (ringFull (s.pfReg 0x200008) (s.pfReg 0x200010))), (1, 1, b2n s.dev.dumpHold),
      (32, 32, fld (s.pfReg off) 32 32)]
  else s.pfReg off

/-! ### The mailbox block (22 R522 to R525) -/

/-- The level of a pin: what the module drives, else a value from outside, which is free. -/
def State.pinLevel (s : State) (g : Nat) : Bool :=
  match s.pinFunc g with
  | 1 => false
  | 2 => true
  | 4 => s.pwr.alarm = 0
  | _ => (Config.freeWord s.free).getLsbD g

def State.readMbox (s : State) (off : Nat) : W64 :=
  if off = 0x300000 then s.pfReg off
  else if off = 0x300008 then packed [(0, 1, b2n s.belv.badLen), (8, 13, s.belv.mboxLen), (32, 32, s.belv.discarded)]
  else if off = 0x300040 then packed [(0, 8, s.belv.claimId), (16, 2, s.belv.claimRes)]
  else if off = 0x300048 then packed ((List.range 13).map (fun i => (2 * i, 2, s.holder i)))
  else if off = 0x300050 then
    packed ((0, 16, fld (s.pfReg off) 0 16) :: (List.range 4).map (fun g => (16 + g, 1, b2n (s.pinLevel g))))
  else if 0x300080 ≤ off && off < 0x3000C0 then s.pfReg off
  else if 0x301000 ≤ off && off < 0x302000 then
    BitVec.ofNat 64 (leNat ((List.range 8).map (fun i => Tab.val 0 s.belv.mboxReq (off - 0x301000 + i))))
  else if 0x302000 ≤ off && off < 0x303000 then
    BitVec.ofNat 64 (leNat ((List.range 8).map (fun i => s.belv.mboxRsp.getD (off - 0x302000 + i) 0)))
  else 0

/-- A register of PF BAR0. Reserved registers read as zero (00 R8), and so do the doorbell and the key staging, which
are write-only. -/
def State.pfRead (s : State) (off : Nat) : W64 :=
  if off < 0x1000 then s.readDev off
  else if off < 0x2000 then s.readSched off
  else if off < 0x3000 then s.readPwr off
  else if off < 0x4000 then s.readErr off
  else if off < 0x8000 then s.readPart off
  else if off < 0x10000 then 0
  else if off < 0x19000 then s.readLink off
  else if off < 0x20000 then 0
  else if off < 0x30000 then s.readStack off
  else if off < 0x40000 then 0
  else if off < 0x61000 then s.readCore off
  else if off < 0x80000 then 0
  else if off < 0x100000 then s.readQpool off
  else if off < 0x200000 then s.readCnt off
  else if off < 0x300000 then (if off ≤ 0x200028 then s.readTrace off else 0)
  else s.readMbox off

/-- Registers of PF BAR0 that Belvedere may not access: they belong to their function alone. -/
def pfOnly (off : Nat) : Bool := off = 0x80 || off = 0x1040 || off = 0x300040

/-! ### Writing a register -/

/-- Stores the bits of `v` under a mask. -/
def State.store (s : State) (off : Nat) (m v : W64) : State := s.setPf off ((s.pfReg off &&& ~~~m) ||| (v &&& m))

/-- A tenant partition is ACTIVE or RELEASING (17 R416). -/
def State.tenants (s : State) : Bool := s.parts.any (fun p => s.exists? p.1)

def supMask : W64 := 0x0FFFFFFFFFE00000
def winMask : W64 := 0x0000FFFFFFE00000

def writeDev (s : State) (off : Nat) (v : W64) : State :=
  match off with
  | 0x10 => if s.tenants then s else s.store off supMask v
  | 0x20 =>
    let s := s.store off 2 v
    if v.getLsbD 0 then recoveryStart s else s
  | 0x80 => if fld v 0 21 = 0 then s.store off winMask v else s
  | _ => s

/-- DOORBELL of function `fn` (17 R423). -/
def doorbellWrite (s : State) (fn : Nat) (v : W64) : State :=
  if v.getLsbD 12 then completionHead s fn (fld v 0 12) (fld v 32 16) else submissionTail s fn (fld v 0 12) (fld v 32 16)

def writeSched (s : State) (off : Nat) (v : W64) : State :=
  match off with
  | 0x1000 => hcmdWrite s (v &&& 0x0FFFFFFF)
  | 0x1008 | 0x1010 => s.setPf off v
  | 0x1040 => doorbellWrite s 0 v
  | 0x1300 => s.store off 0xFFFF v
  | 0x1308 => s.store off 0xFFF v
  | 0x1310 => s.onCtx (fld (s.pfReg 0x1308) 0 12) (fun x => { x with progWin := fld v 0 16, progEn := v.getLsbD 16 })
  | _ => s

def prefTab (v : W64) : Tab Nat := ((List.range 8).map (fun q => (q, fld v (4 * q) 4))).filter (fun e => e.2 ≠ 15)

/-- RESTART in PWR_CMD is for the management port alone. -/
def writePwr (s : State) (who off : Nat) (v : W64) : State :=
  match off with
  | 0x2000 => s.store off 0xFFF v
  | 0x2008 => s.store off 0x7FF07 v
  | 0x2010 => s.store off 0xFFF v
  | 0x2018 => s.onCtx (fld (s.pfReg 0x2010) 0 12) (fun x => { x with prefs := prefTab v })
  | 0x2028 => { s with pwr := { s.pwr with alarm := (BitVec.ofNat 64 s.pwr.alarm &&& ~~~v).toNat } }
  | 0x2040 => if who = byPort && v.getLsbD 0 then restartCommand s else s
  | _ => s

def errTail (s : State) (v : W64) : State := { s with err := { s.err with tail := fld v 0 6 } }

def writeErr (s : State) (off : Nat) (v : W64) : State :=
  match off with
  | 0x3008 => errTail s v
  | 0x3010 => { s with err := { s.err with dropped := (BitVec.ofNat 64 s.err.dropped &&& ~~~v).toNat } }
  | _ => s

/-! ### Partition records (17 R420) -/

/-- Fields that take a write only while STATE is UNUSED or RELEASED. -/
def closedMask (i : Nat) : W64 :=
  match i with
  | 0 => 0x0003FFFF00003F01
  | 2 => 0xFFFFFFFFFFFFF000
  | 3 => 0x00007FFF07FFFFFF
  | 4 => 0x000007FF07FFFFFF
  | _ => 0

/-- Fields that take a write at any time. -/
def openMask (i : Nat) : W64 :=
  match i with
  | 0 => 0x0000000003FF00F0
  | 1 => 0x00000000000FFFFF
  | 3 => 0x003F000000000000
  | 4 => 0xFFFF000000000000
  | 5 => 0x0FFFFFFFFFFFFFFF
  | 6 => 0x000000FFFFFFFFC0
  | 7 => 0x0000000000003FFF
  | _ => 0

/-- What a write may change now. -/
def State.partMask (s : State) (p i : Nat) : W64 := if s.unused p then openMask i ||| closedMask i else openMask i

/-- A write drops something: it finds every field of the register closed, or would change a closed one (DEDUCED, log 35). -/
def State.dropsPart (s : State) (p i : Nat) (v : W64) : Bool :=
  let m := s.partMask p i
  let closed := (openMask i ||| closedMask i) &&& ~~~m
  closed ≠ 0 && (m = 0 || (s.pfReg (partReg p i) ^^^ v) &&& closed ≠ 0)

/-- The record of a write that a closed field drops. -/
def State.notePart (s : State) (p i : Nat) (v : W64) : State :=
  if p ≠ 0 && s.dropsPart p i v then s.writeDropped (partReg p i) else s

def State.merged (s : State) (p i : Nat) (v : W64) : W64 :=
  let m := s.partMask p i
  (s.pfReg (partReg p i) &&& ~~~m) ||| (v &&& m)

/-- PART_POOL and PART_REC: sets that overlap another partition's, or reach beyond the directory, are not taken; a
change of the sets drops the partition's entries. -/
def writeSets (s : State) (p i : Nat) (v : W64) : State :=
  let w := s.merged p i v
  let pool := if i = 3 then w else s.pfReg (partReg p 3)
  let rec_ := if i = 4 then w else s.pfReg (partReg p 4)
  let d := setsOf pool rec_
  if d.1 + d.2 > 65536 || !s.setsFree p d then s.writeDropped (partReg p i)
  else
    let s := if d = s.dirSets p then s else s.dropDirectory p
    s.setPf (partReg p i) w

/-- A grant in each region of at most 16,384 objects, inside the store. -/
def grantsOk (v : W64) : Bool :=
  (List.range 4).all (fun r => (grantOf v r).2 ≤ 16384 && (grantOf v r).1 + (grantOf v r).2 ≤ 65536)

/-- A record's register. Partition 0's record ignores PART_SIG; its closed fields take no write, as it is ACTIVE. -/
def writePart (s : State) (p i : Nat) (v : W64) : State :=
  let w := s.merged p i v
  let s := s.notePart p i v
  match i with
  | 1 => if fld w 0 20 < (s.part p).mapped then s.writeDropped (partReg p 1) else s.setPf (partReg p 1) w
  | 3 | 4 => writeSets s p i v
  | 5 => if p = 0 then s else if !grantsOk w || !s.grantsFree p w then s.writeDropped (partReg p 5) else s.setGrants p w
  | 6 =>
    let s := s.setPf (partReg p 6) w
    if v.getLsbD 0 then jobApply s p else jobUnbind s p
  | _ => s.setPf (partReg p i) w

/-! ### The other blocks -/

def writeStack (s : State) (off : Nat) (v : W64) : State :=
  let o := off % 0x1000
  if o = 0 then s.store off 0xFF01FF v else if 0x100 ≤ o && o < 0x140 then s.setPf off v else s

def writeCore (s : State) (off : Nat) (v : W64) : State :=
  if (off - 0x40000) % 0x200 ≠ 0 then s
  else
    let s := s.store off 0xFF00 v
    if v.getLsbD 0 then selfTest s ((off - 0x40000) / 0x200) else s

/-- Q_CFG and Q_STATUS (14 R338, R339, R342). -/
def writeQpool (s : State) (off : Nat) (v : W64) : State :=
  if off ≥ 0xC0000 then s
  else
    let r := (off - 0x80000) / 0x10000
    let q := (off - 0x80000) % 0x10000 / 16
    if off % 16 = 0 then
      let v := v &&& 0x01FFFFFF0001FFFF
      let old := (s.que r q).cfg
      if (s.que r q).en && v = old then s
      else if (s.que r q).en && v = setFld old 56 1 0 then queueDisable s r q
      else queueConfigure s r q v
    else if v.getLsbD 34 then queueFlush s r q
    else s

def writeTrace (s : State) (off : Nat) (v : W64) : State :=
  match off with
  | 0x200000 =>
    if v.getLsbD 0 && !s.traceOn then s.writeDropped off
    else
      let s := s.store off 0x0FFF0007 v
      if v.getLsbD 3 then traceSnap s (fld v 25 3) (fld v 16 9) else s
  | 0x200008 => traceBuf s v
  | 0x200010 => s.store off 0xFFFFFFFF00000000 v
  | 0x200018 => s.setPf off v
  | 0x200020 => s.setPf off (s.pfReg off &&& ~~~(v &&& 0xFFFFFFFF00000000))
  | 0x200028 => s.store off 0x1FFFFFFFF v
  | _ => s

/-- GPIO_CFG: each field takes the write of its pin's holder; a change asked of another pin is dropped and recorded. -/
def writePins (s : State) (who : Nat) (v : W64) : State :=
  let old := s.pfReg 0x300050
  let want (g : Nat) : Bool := fld v (4 * g) 4 ≠ fld old (4 * g) 4
  let mine (g : Nat) : Bool := s.holder (9 + g) = who
  let new := (List.range 4).foldl (fun a g => if mine g then setFld a (4 * g) 4 (fld v (4 * g) 4) else a) old
  let s := s.setPf 0x300050 new
  if (List.range 4).any (fun g => want g && !mine g) then s.writeDropped 0x300050 else s

def writeMbox (s : State) (who off : Nat) (v : W64) : State :=
  if off = 0x300000 then
    let s := s.store off 0x1FFF06 v
    if v.getLsbD 0 then mboxGo s else s
  else if off = 0x300008 then
    { s with belv := { s.belv with discarded := (BitVec.ofNat 32 s.belv.discarded &&& ~~~(v.extractLsb' 32 32)).toNat } }
  else if off = 0x300040 then claimCmd s (fld v 0 8) (v.getLsbD 8)
  else if off = 0x300050 then writePins s who v
  else if 0x300080 ≤ off && off < 0x3000C0 then
    if s.holder (1 + (off - 0x300080) / 8) = who then s.setPf off (setFld v 63 1 0) else s.writeDropped off
  else if 0x301000 ≤ off && off < 0x302000 then
    { s with belv := { s.belv with mboxReq := hostWrite s.belv.mboxReq (off - 0x301000) (leBytes 8 v.toNat) } }
  else s

/-- A write to a register of PF BAR0 by the supervisor or the management port. Reserved and read-only registers ignore
it (00 R8). -/
def pfWrite (s : State) (who off : Nat) (v : W64) : State :=
  if off < 0x1000 then writeDev s off v
  else if off < 0x2000 then writeSched s off v
  else if off < 0x3000 then writePwr s who off v
  else if off < 0x4000 then writeErr s off v
  else if off < 0x8000 then writePart s ((off - 0x4000) / 0x40) ((off - 0x4000) % 0x40 / 8) v
  else if off < 0x10000 then (if off ≤ 0x8040 then s.setPf off v else s)
  else if off < 0x19000 then (if off % 0x800 = 0 then lnkModeWrite s ((off - 0x10000) / 0x800) v else s)
  else if off < 0x20000 then s
  else if off < 0x30000 then writeStack s off v
  else if off < 0x40000 then s
  else if off < 0x61000 then writeCore s off v
  else if off < 0x80000 then s
  else if off < 0x100000 then writeQpool s off v
  else if off < 0x200000 then (if off = 0x100E00 then s.store off 0xFFF v else s)
  else if off < 0x300000 then writeTrace s off v
  else writeMbox s who off v

/-- Blocks that answer before READY: DEV, PWR, ERR and MBOX (23 R531). -/
def earlyBlock (off : Nat) : Bool := off < 0x1000 || (0x2000 ≤ off && off < 0x4000) || 0x300000 ≤ off

end Sys2Proof.Machine
end

