-- ==== Sys2Proof/Machine/Belvedere.lean ====
section
/-! DEFINITION. Belvedere's messages: MCTP control, PLDM, SPDM and the Krovund management commands, with sensors and
the side-band port (22 R511, R516 to R522). The bytes of an answer follow other standards; `Answer.body` lists the
values that the spec gives it, and free bytes where it gives none (log 65). -/

namespace Sys2Proof.Machine

/-! ### Answers -/

/-- Free bytes of a free number, for an answer whose content other standards give. -/
def State.freeBody (s : State) : List Byte :=
  (List.range ((Config.freeWord s.free).toNat % 1024)).map (Config.freeByte s.free)

def State.freeBytes (s : State) (n : Nat) : List Byte := (List.range n).map (Config.freeByte s.free)

/-- Room for one more answer in the response buffer: GO reads 0, and vector 7 signals when IRQ is 1. -/
def State.mboxAnswer (s : State) : State :=
  let n := 1 + (Config.freeWord s.free).toNat % 4096
  let v := s.pfReg 0x300000
  let bytes := (List.range n).map (Config.freeByte s.free)
  let s := ({ s.drawn with belv := { s.belv with mboxRsp := bytes, mboxLen := n } } : State).setPf 0x300000 (setFld v 0 1 0)
  if v.getLsbD 2 then s.interrupt 7 else s

/-- An answer leaves on the path of its message. -/
def State.answer (s : State) (via : Path) (ty cmd code : Nat) (body : List Byte) : State :=
  let s : State := { s with belv := { s.belv with answers := s.belv.answers ++ [(via, { ty := ty, cmd := cmd, code := code, body := body })] } }
  match via with
  | .mailbox => s.mboxAnswer
  | _ => s

def State.discardMsg (s : State) : State :=
  { s with belv := { s.belv with discarded := min (s.belv.discarded + 1) 0xFFFFFFFF } }

/-- Whether Belvedere serves a message type: all while it runs, MCTP control and PLDM Type 5 while it stays in boot
ROM, none while its processor restarts (22 R510, R514). -/
def State.serves (s : State) (inRom : Bool) : Bool := s.dev.aon && (s.belv.running || (s.belv.rom && inRom))

/-- A message has arrived whole: in the mailbox once GO has submitted it, as a VDM while VDM_EN is 1. -/
def State.arrived (s : State) (via : Path) : Bool :=
  match via with
  | .sideband => true
  | .mailbox => (s.pfReg 0x300000).getLsbD 0
  | .vdm => (s.pfReg 0x300000).getLsbD 1

/-- Serves a message; a VDM that is not accepted is discarded and counted. -/
def serveMsg (s : State) (via : Path) (inRom : Bool) (k : State → State) : State :=
  if !s.serves inRom then s
  else if s.arrived via then k s
  else match via with
    | .vdm => s.discardMsg
    | _ => s

/-! ### MCTP control (22 R518) -/

def mctp (s : State) (via : Path) (cmd : Nat) (body : State → List Byte) : State :=
  serveMsg s via true (fun s => s.drawn.answer via 0x00 cmd 0 (body s))

def execSetEndpointId (via : Path) (eid : BitVec 8) (s : State) : Host.Outcome State Fault Refusal :=
  .next (serveMsg s via true (fun s =>
    ({ s with belv := { s.belv with eid := eid.toNat } } : State).answer via 0x00 0x01 0 [eid]))

def execGetEndpointId (via : Path) (s : State) : Host.Outcome State Fault Refusal :=
  .next (serveMsg s via true (fun s => s.answer via 0x00 0x02 0 [BitVec.ofNat 8 s.belv.eid]))

def execGetMctpVersionSupport (via : Path) (s : State) : Host.Outcome State Fault Refusal :=
  .next (mctp s via 0x04 State.freeBody)

/-- The message types of R518. -/
def execGetMessageTypeSupport (via : Path) (s : State) : Host.Outcome State Fault Refusal :=
  .next (serveMsg s via true (fun s => s.answer via 0x00 0x05 0 [0x00, 0x01, 0x05, 0x7F]))

def execGetVendorDefinedMessageSupport (via : Path) (s : State) : Host.Outcome State Fault Refusal :=
  .next (mctp s via 0x06 State.freeBody)

def execUnsupportedMctpMessage (_vdmFromVf : Bool) (s : State) : Host.Outcome State Fault Refusal :=
  .next (if s.dev.aon then s.discardMsg else s)

/-! ### The side-band port (22 R517, R521, 24 R541) -/

/-- Packets that are not all received within 100 ms: nothing of the message was kept in the model's state. -/
def execMctpMessageTimeout (_via : Path) (s : State) : Host.Outcome State Fault Refusal := .next s

/-- The target's bus interface resets, its dynamic address with it (DEDUCED, log 69). -/
def execI3cSclLowTimeout (s : State) : Host.Outcome State Fault Refusal :=
  .next { s with belv := { s.belv with dynAddr := none } }

def execSetdasa (s : State) : Host.Outcome State Fault Refusal :=
  .next (if s.dev.aon then { s with belv := { s.belv with dynAddr := some (0x30 + s.dev.moduleId) } } else s)

def execEntdaa (addr : BitVec 7) (s : State) : Host.Outcome State Fault Refusal :=
  .next (if s.dev.aon then { s with belv := { s.belv with dynAddr := some addr.toNat } } else s)

/-! ### Sensors and PLDM Type 2 (22 R511, R518) -/

/-- The sensor IDs of R511. -/
def sensorId (id : Nat) : Bool :=
  (1 ≤ id && id ≤ 264) || (301 ≤ id && id ≤ 316) || (401 ≤ id && id ≤ 408) || (501 ≤ id && id ≤ 522)
    || (531 ≤ id && id ≤ 552) || (600 ≤ id && id ≤ 602)

/-- A sample, or none after 1 ms without an answer: the last value is not used again. -/
def execSensorSample (id : Nat) (reading : Option Int) (s : State) : Host.Outcome State Fault Refusal :=
  .next (if s.serves false && sensorId id then
      { s with belv := { s.belv with sensors := Tab.put s.belv.sensors id reading } }
    else s)

/-- A PLDM Type 2 answer about a sensor; an ID that names none has the family's completion code 0x80 (PRESUMED,
log 65). -/
def sensorAnswer (s : State) (via : Path) (cmd id : Nat) (body : State → List Byte) : State :=
  serveMsg s via false (fun s => if sensorId id then s.drawn.answer via 0x01 cmd 0 (body s) else s.answer via 0x01 cmd 0x80 [])

/-- Operational state 0 enabled with the value in thousandths, or 2 unavailable. -/
def readingBody (s : State) (id : Nat) : List Byte :=
  match Tab.val none s.belv.sensors id with
  | some v => 0 :: leBytes 4 (unsgn 32 v)
  | none => [2]

/-- The base unit of a sensor as PLDM Type 2 numbers it: 2 degrees Celsius, 5 volt, 6 ampere, 7 watt (PRESUMED, log 65). -/
def sensorUnit (id : Nat) : Nat :=
  if id < 500 then 2
  else if (501 ≤ id && id ≤ 522) || id = 600 then 5
  else if (531 ≤ id && id ≤ 552) || id = 601 then 6
  else 7

/-- What the spec gives a sensor's descriptor: its ID, its unit, and the power of ten of a reading. -/
def pdrBody (id : Nat) : List Byte := leBytes 2 id ++ [BitVec.ofNat 8 (sensorUnit id), BitVec.ofInt 8 (-3)]

def execGetSensorReading (via : Path) (id : BitVec 16) (s : State) : Host.Outcome State Fault Refusal :=
  .next (sensorAnswer s via 0x11 id.toNat (fun s => readingBody s id.toNat))

def execGetSensorThresholds (via : Path) (id : BitVec 16) (s : State) : Host.Outcome State Fault Refusal :=
  .next (sensorAnswer s via 0x12 id.toNat State.freeBody)

def execGetPdr (via : Path) (id : BitVec 16) (s : State) : Host.Outcome State Fault Refusal :=
  .next (sensorAnswer s via 0x51 id.toNat (fun s => pdrBody id.toNat ++ s.freeBody))

def execPldmDiscovery (via : Path) (cmd : BitVec 8) (s : State) : Host.Outcome State Fault Refusal :=
  .next (serveMsg s via false (fun s => s.drawn.answer via 0x01 cmd.toNat 0 s.freeBody))

/-! ### Firmware update: PLDM Type 5 (22 R516) -/

def updCode : UpdSt → Nat
  | .idle => 0 | .learn => 1 | .ready => 2 | .download => 3 | .verify => 4 | .apply => 5 | .activate => 6

def State.inactive (s : State) : Slot := s.belv.slot (!s.belv.activeB)

def State.setInactive (s : State) (x : Slot) : State := { s with belv := s.belv.setSlot (!s.belv.activeB) x }

def State.setUpd (s : State) (u : UpdSt) : State := { s with belv := { s.belv with upd := u } }

/-- A Type 5 command that is only for state `want`; in another it answers the family's code for that and changes nothing
(PRESUMED, log 65). -/
def inUpdate (s : State) (via : Path) (cmd : Nat) (want : UpdSt) (k : State → State) : State :=
  serveMsg s via true (fun s =>
    if s.belv.upd = want then (k s).answer via 0x01 cmd 0 []
    else s.answer via 0x01 cmd (if s.belv.upd = .idle then 0x80 else 0x84) [])

/-- A second request while an update is in progress changes nothing. -/
def execRequestUpdate (via : Path) (s : State) : Host.Outcome State Fault Refusal :=
  .next (serveMsg s via true (fun s =>
    if s.belv.upd = .idle then (s.setUpd .learn).answer via 0x01 0x10 0 [] else s.answer via 0x01 0x10 0x81 []))

/-- Versions of the active and the other image. -/
def execGetFirmwareParameters (via : Path) (s : State) : Host.Outcome State Fault Refusal :=
  .next (serveMsg s via true (fun s =>
    s.answer via 0x01 0x02 0 (leBytes 4 (s.belv.version s.belv.activeB) ++ leBytes 4 (s.belv.version (!s.belv.activeB)))))

def execPassComponentTable (via : Path) (s : State) : Host.Outcome State Fault Refusal :=
  .next (inUpdate s via 0x13 .learn (fun s => s.setUpd .ready))

/-- The inactive slot holds no image until the new one has been verified. -/
def execUpdateComponent (via : Path) (s : State) : Host.Outcome State Fault Refusal :=
  .next (inUpdate s via 0x14 .ready (fun s =>
    (s.setInactive { valid := false, wiped := true, fails := 0, data := [] }).setUpd .download))

/-- Image data for the inactive slot of 16 MiB. -/
def execRequestFirmwareData (via : Path) (off : Nat) (data : List Byte) (s : State) :
    Host.Outcome State Fault Refusal :=
  .next (serveMsg s via true (fun s =>
    if s.belv.upd = .download && off + data.length ≤ 0x1000000 then
      s.setInactive { s.inactive with data := hostWrite s.inactive.data off data }
    else s))

def execTransferComplete (via : Path) (s : State) : Host.Outcome State Fault Refusal :=
  .next (inUpdate s via 0x16 .download (fun s => s.setUpd .verify))

/-- Verification under R513: `sigOk` is what the crypto engine answers about the signature, and `version` the security version
that the header gives; an answer that the slot does not give is none. A bad image goes back to the state before its
download. -/
def execVerifyComplete (via : Path) (sigOk : Bool) (version : Nat) (s : State) : Host.Outcome State Fault Refusal :=
  .next (inUpdate s via 0x17 .verify (fun s =>
    let b := s.belv
    if sigOk ≠ b.signed (!b.activeB) || version ≠ b.version (!b.activeB) then s
    else if sigOk && version ≥ b.minVer then (s.setInactive { s.inactive with valid := true }).setUpd .apply
    else s.setUpd .ready))

def execApplyComplete (via : Path) (s : State) : Host.Outcome State Fault Refusal :=
  .next (inUpdate s via 0x18 .apply (fun s => s.setUpd .activate))

/-- The new slot is active for the next boot of the processor. -/
def execActivateFirmware (via : Path) (s : State) : Host.Outcome State Fault Refusal :=
  .next (inUpdate s via 0x1A .activate (fun s =>
    let b := !s.belv.activeB
    ({ s with belv := { s.belv with activeB := b, newImage := true, upd := .idle } } : State).logIn (.firmware 1 (b2n b))))

def execGetStatus (via : Path) (s : State) : Host.Outcome State Fault Refusal :=
  .next (serveMsg s via true (fun s => s.answer via 0x01 0x1B 0 [BitVec.ofNat 8 (updCode s.belv.upd)]))

/-- Outside an update the command changes nothing. -/
def execCancelUpdate (via : Path) (s : State) : Host.Outcome State Fault Refusal :=
  .next (serveMsg s via true (fun s =>
    if s.belv.upd = .idle then s.answer via 0x01 0x1D 0x80 [] else (s.setUpd .idle).answer via 0x01 0x1D 0 []))

/-! ### SPDM (22 R519) -/

/-- A request that needs the negotiation to have come to `need`; before it the answer is the family's error
UnexpectedRequest (PRESUMED, log 65). -/
def spdm (s : State) (via : Path) (cmd need got : Nat) (ok : Bool) (body : List Byte) : State :=
  serveMsg s via false (fun s =>
    if s.belv.spdm < need then s.answer via 0x05 cmd 0x04 []
    else if !ok then s.answer via 0x05 cmd 0x01 []
    else
      let s : State := { s with belv := { s.belv with spdm := if got = 0 then s.belv.spdm else got } }
      s.drawn.answer via 0x05 cmd 0 (body ++ s.freeBody))

/-- The version that SPDM 1.3 answers with (PRESUMED, log 65). -/
def spdmVersion : Byte := 0x13

def execGetVersion (via : Path) (s : State) : Host.Outcome State Fault Refusal := .next (spdm s via 0x84 0 1 true [spdmVersion])
def execGetCapabilities (via : Path) (s : State) : Host.Outcome State Fault Refusal := .next (spdm s via 0xE1 1 2 true [])
def execNegotiateAlgorithms (via : Path) (s : State) : Host.Outcome State Fault Refusal :=
  .next (spdm s via 0xE3 2 3 true [])
def execGetDigests (via : Path) (s : State) : Host.Outcome State Fault Refusal := .next (spdm s via 0x81 3 0 true [])
/-- The certificate chain is in slot 0. -/
def execGetCertificate (via : Path) (slot : BitVec 8) (_off _len : BitVec 16) (s : State) :
    Host.Outcome State Fault Refusal := .next (spdm s via 0x82 3 0 (slot = 0) [])
def execChallenge (via : Path) (slot : BitVec 8) (_nonce : BitVec 256) (s : State) :
    Host.Outcome State Fault Refusal := .next (spdm s via 0x83 3 0 (slot = 0) [])

/-- The digest and the security version of an image; all zero for a slot that holds none. -/
def Belv.measure (b : Belv) (second : Bool) : List Byte :=
  if (b.slot second).valid then sha384 (b.image second) ++ leBytes 4 (b.version second) else List.replicate 52 0

/-- Measurement block `i`. -/
def State.measurement (s : State) (i : Nat) : List Byte :=
  match i with
  | 1 => sha384 ((List.range 0x10000).map Config.romByte)
  | 2 => s.belv.measure s.belv.activeB
  | 3 => s.belv.measure (!s.belv.activeB)
  | 4 => Config.fuseBytes
  | 5 => Config.keyHash ++ leBytes 4 s.belv.minVer
  | 6 => leBytes 8 (s.pfRead 0).toNat
  | _ => []

/-- Index 0 asks for the number of blocks, 0xFF for all of them. -/
def State.measurements (s : State) (index : Nat) : List Byte :=
  if index = 0 then [6]
  else if index = 0xFF then ((List.range 7).map s.measurement).flatten
  else s.measurement index

def execGetMeasurements (via : Path) (index : BitVec 8) (s : State) : Host.Outcome State Fault Refusal :=
  .next (spdm s via 0xE0 3 0 (index.toNat ≤ 6 || index = 0xFF) (s.measurements index.toNat))

/-! ### Krovund management commands (22 R520) -/

def success : Nat := 0
def invalid : Nat := 1
def claimBusy : Nat := 2
def timeout : Nat := 3
def notReady : Nat := 4
def denied : Nat := 5

def vendor (s : State) (via : Path) (k : State → State) : State := serveMsg s via false k

def State.reply (s : State) (via : Path) (cmd code : Nat) (body : List Byte) : State := s.answer via 0x7F cmd code body

/-- The sender of a management command as a claimant: the side-band port, else the supervisor (DEDUCED, log 70). -/
def claimant (via : Path) : Nat :=
  match via with
  | .sideband => byPort
  | _ => bySupervisor

/-- An aligned offset of a register that Belvedere may access. -/
def regOk (off : Nat) : Bool := off % 8 = 0 && off < 0x4000000 && !pfOnly off

/-- The rails do not carry the register's block: before they are on, and during the rail stage of recovery. -/
def State.regDark (s : State) (off : Nat) : Bool :=
  let blocks : Bool := off < 0x1000 || (0x2000 ≤ off && off < 0x3000) || 0x300000 ≤ off
  let dark : Bool := match s.dev.st with
    | .starting => !s.dev.stages.contains .rails
    | .recovering => s.dev.recStage = 3
    | .powerStop => true
    | .ready => false
  dark && !blocks

/-- A check that fails is answered, and nothing else happens. -/
def regCommand (s : State) (via : Path) (cmd off : Nat) (k : State → State) : State :=
  vendor s via (fun s =>
    if !regOk off then s.reply via cmd invalid []
    else if s.regDark off then s.reply via cmd notReady []
    else k s)

def execRegRead (via : Path) (off : Nat) (s : State) : Host.Outcome State Fault Refusal :=
  .next (regCommand s via 0x01 off (fun s => s.drawn.reply via 0x01 success (leBytes 8 (s.pfRead off).toNat)))

def execRegWrite (via : Path) (off : Nat) (v : W64) (s : State) : Host.Outcome State Fault Refusal :=
  .next (regCommand s via 0x02 off (fun s => (pfWrite s (claimant via) off v).reply via 0x02 success []))

/-- The access has had no answer from its unit for 2 ms: TIMEOUT with zero, and an error record (22 R521). -/
def execSidebandRegisterTimeout (via : Path) (off : Nat) (s : State) : Host.Outcome State Fault Refusal :=
  .next (regCommand s via 0x01 off (fun s =>
    (s.logError (.plain 10 1 0x0D 0 off)).reply via 0x01 timeout (List.replicate 8 0)))

/-- Marks the first `n` unread entries as read. -/
def markRead : Nat → List Alarm → List Alarm
  | _, [] => []
  | 0, l => l
  | n + 1, a :: r => if a.unread then { a with unread := false } :: markRead n r else a :: markRead (n + 1) r

def Alarm.bytes (a : Alarm) : List Byte := leBytes 4 a.kind ++ leBytes 4 a.unit ++ leBytes 4 a.count ++ leBytes 8 a.tick

def execAlarmRead (via : Path) (s : State) : Host.Outcome State Fault Refusal :=
  .next (vendor s via (fun s =>
    let l := (s.belv.alarms.filter (fun a => a.unread)).take 16
    let s : State := { s with belv := { s.belv with alarms := markRead 16 s.belv.alarms } }
    s.reply via 0x03 success ((l.map Alarm.bytes).flatten)))

/-- A read through the management port takes from its share of the interval (21 R507). -/
def State.logReads (s : State) (via : Path) (n : Nat) : State :=
  if via = .sideband then { s with belv := { s.belv with logRead := s.belv.logRead + n } } else s

/-- Up to 1 KiB within the log of 64 MiB. -/
def execLogRead (via : Path) (off len : Nat) (s : State) : Host.Outcome State Fault Refusal :=
  .next (vendor s via (fun s =>
    if len > 1024 || off + len > 0x4000000 then s.reply via 0x04 invalid []
    else (s.logReads via len).drawn.reply via 0x04 success (s.freeBytes len)))

/-- The bytes of a dump as it reads out, in the layout of the firmware; it has a first piece at least. -/
def Dump.size (d : Dump) : Nat := max 1 (Config.dumpSize d.all)

def execDumpRead (via : Path) (index piece : Nat) (s : State) : Host.Outcome State Fault Refusal :=
  .next (vendor s via (fun s =>
    match s.belv.dumps[index]? with
    | none => s.reply via 0x05 invalid []
    | some d =>
      if index > 7 || d.size ≤ 1024 * piece then s.reply via 0x05 invalid []
      else (s.logReads via 1024).reply via 0x05 success ((List.range 1024).map (fun i => Config.dumpByte d.all (1024 * piece + i)))))

/-- Starts module recovery; in the stop only a restart command acts, and the answer is NOT_READY too (DESIGN CHOICE,
log 71). -/
def execRecover (via : Path) (s : State) : Host.Outcome State Fault Refusal :=
  .next (vendor s via (fun s =>
    if s.dev.st = .recovering || s.dev.st = .powerStop then s.reply via 0x06 notReady []
    else (startRecovery s .management).reply via 0x06 success []))

/-- The code for a claim's result; a release by one that does not hold the resource is DENIED. -/
def claimCode (op : ClaimOp) (r : Nat) : Nat :=
  if r = 0 then success else if r = 2 && op = .claim then invalid else if op = .claim then claimBusy else denied

/-- A forced release is for the management port alone, and is logged. -/
def forceRelease (s : State) (via : Path) (res : Nat) : State :=
  if via ≠ .sideband then s.reply via 0x07 denied []
  else
    let s : State := (s.setHolder res 0)
    (s.logIn (.forcedRelease res)).reply via 0x07 success []

def execClaim (via : Path) (res : BitVec 8) (op : ClaimOp) (s : State) : Host.Outcome State Fault Refusal :=
  .next (vendor s via (fun s =>
    if res.toNat > 12 then s.reply via 0x07 invalid []
    else match op with
      | .claim =>
        let g := s.claimFor (claimant via) res.toNat
        g.1.reply via 0x07 (claimCode .claim g.2) []
      | .release =>
        let g := s.releaseFor (claimant via) res.toNat
        g.1.reply via 0x07 (claimCode .release g.2) []
      | .force => forceRelease s via res.toNat))

def execStatus (via : Path) (s : State) : Host.Outcome State Fault Refusal :=
  .next (vendor s via (fun s =>
    s.reply via 0x08 success (leBytes 8 s.devStatus.toNat ++ leBytes 8 s.pwrStatus.toNat ++ leBytes 8 s.pwr.alarm)))

end Sys2Proof.Machine
end

