-- ==== Sys2Proof/Machine/HostIf.lean ====
section
/-! DEFINITION. The host interface: register writes of a function, the memory window, function level reset, and PERST_N
(10 R228, 17 R410, R413, R414, 19 R461, R463, R472, 23 R530, R531, 24 R544). -/

namespace Sys2Proof.Machine

/-! ### Function level reset (17 R410) -/

/-- The records in the ring go without a completion. -/
def Ctx.dropRing (x : Ctx) : Ctx := { x with head := x.tail }

def State.dropRings (s : State) : List Nat → State
  | [] => s
  | n :: l => (s.onCtx n Ctx.dropRing).dropRings l

def State.clearWindow (s : State) (fn : Nat) : State :=
  if fn = 0 then { s with pf := Tab.del s.pf 0x80 } else { s with vf := Tab.del s.vf (fn * 0x100000 + 0x80) }

/-- Every context of the function's partition resets, and its window's base is 0. -/
def funcReset (s : State) (fn : Nat) : State :=
  let ns := s.ctxsOf fn
  (((s.noteHangs ns).beginResets ns).dropRings ns).clearWindow fn

def execFunctionLevelReset (fn : Fin 256) (s : State) : Host.Outcome State Fault Refusal := .next (funcReset s fn)

def State.funcResets (s : State) : List Nat → State
  | [] => s
  | fn :: l => (funcReset s fn).funcResets l

/-! ### PERST_N (20 R484, 23 R530, 24 R544) -/

/-- The endpoint is in reset: its link is down and its configuration the one of power-on. -/
def State.endpointReset (s : State) : State :=
  { s with dev := { s.dev with
    perstN := false, linkTrain := false, linkUp := false, aer := 0, config := [], masked := [], irqWaits := [] } }

/-- Asserted: in READY every function resets, in function order; in every state the endpoint resets. -/
def execPerstNAssert (s : State) : Host.Outcome State Fault Refusal :=
  .next (let s := if s.dev.st = .ready then s.funcResets (List.range 256) else s
    s.endpointReset)

/-- Deasserted: the endpoint trains once PWR_GOOD is high; in the stop it is a restart command. -/
def execPerstNDeassert (s : State) : Host.Outcome State Fault Refusal :=
  .next (
    let s : State := { s with dev := { s.dev with perstN := true, linkTrain := s.dev.pwrGood, linkUp := s.dev.pwrGood } }
    restartCommand s)

/-! ### The registers of a VF (17 R412, 21 R494, R503) -/

/-- The fields of a VF register that a write may name. -/
def vfMask (off : Nat) : Option W64 :=
  if off = 0x80 then some winMask
  else if off = 0x1000 then some 0x0000FFFF00001FFF
  else if off = 0x10000 then some 0xFFF
  else if off = 0x1F000 then some 7
  else if off = 0x1F008 then some bufMask
  else if off = 0x1F010 || off = 0x1F018 then some 0xFFFFFFFFFFFFFFFF
  else if off = 0x1F020 then some 0xFFFFFFFF00000001
  else if 0x20000 ≤ off && off < 0xA0000 then some 0x1FFFFFFFF
  else if off = 0 || off = 0x40 || (0x10100 ≤ off && off < 0x10190) || (0x10800 ≤ off && off < 0x10848) then
    some 0xFFFFFFFFFFFFFFFF
  else none

def State.vfStore (s : State) (fn off : Nat) (m v : W64) : State :=
  s.setVf fn off ((s.vfReg fn off &&& ~~~m) ||| (v &&& m))

/-- What a write does in a VF register whose fields it keeps to. -/
def vfAct (s : State) (fn off : Nat) (v : W64) : State :=
  if off = 0x80 || off = 0x10000 || off = 0x1F000 || off = 0x1F018 then s.setVf fn off v
  else if off = 0x1000 then doorbellWrite s fn v
  else if off = 0x1F008 then (s.setVf fn off v).setVf fn 0x1F010 0
  else if off = 0x1F010 then s.vfStore fn off 0xFFFFFFFF00000000 v
  else if off = 0x1F020 then s.setVf fn off (s.vfReg fn off &&& ~~~(v &&& 0xFFFFFFFF00000000))
  else if 0x20000 ≤ off then
    sigObjWrite s fn ((off - 0x20000) / 0x20000) ((off - 0x20000) % 0x20000 / 8) (v.setWidth 32) (v.getLsbD 32)
  else s

/-- A write to a reserved register, or one that sets a reserved field, is a violation and is dropped (15 R372). -/
def vfWrite (s : State) (fn off : Nat) (v : W64) : State :=
  match vfMask off with
  | none => s.violate fn 0 fn .reservedRegister off
  | some m => if v &&& ~~~m ≠ 0 then s.violate fn 0 fn .reservedRegister off else vfAct s fn off v

/-- What a register of a VF reads as (17 R412, R423, 14 R346, 21 R494, R503); a write-only one reads as zero. -/
def State.vfValue (s : State) (fn off : Nat) : W64 :=
  if off = 0 then packed [(0, 8, fn), (8, 2, partCode (s.part fn).st)]
  else if off = 0x40 then BitVec.ofNat 64 s.nowNs
  else if off = 0x80 || off = 0x10000 || off = 0x1F000 || off = 0x1F008 || off = 0x1F010 || off = 0x1F018 then s.vfReg fn off
  else if off = 0x1F020 then
    packed [(0, 1, b2n (ringFull (s.vfReg fn 0x1F008) (s.vfReg fn 0x1F010))), (32, 32, fld (s.vfReg fn off) 32 32)]
  else if 0x10100 ≤ off && off < 0x10190 then s.ctxCounter (fld (s.vfReg fn 0x10000) 0 12) ((off - 0x10100) / 8)
  else if 0x10800 ≤ off && off < 0x10848 then s.partCounter fn ((off - 0x10800) / 8)
  else if 0x20000 ≤ off && off < 0xA0000 then
    ((s.windowObj fn ((off - 0x20000) / 0x20000) ((off - 0x20000) % 0x20000 / 8)).elim 0 (fun o => s.sigVal o)).setWidth 64
  else 0

/-- The context counters of a context that the partition does not own. -/
def State.foreignSel (s : State) (fn off : Nat) : Bool :=
  let n := fld (s.vfReg fn 0x10000) 0 12
  0x10100 ≤ off && off < 0x10190 && ((s.ctx n).st = .free || (s.ctx n).part ≠ fn)

/-- A read by a VF of one of its registers: its value, and the violation that it can be (15 R372, 17 R414, 21 R494). The
table has no command for a register read (log 18). -/
def vfRead (s : State) (fn off size : Nat) : State × W64 :=
  if size ≠ 8 || off % 8 ≠ 0 then ((s.writeDropped off).violate fn 0 fn .reservedRegister off, 0)
  else if 0x18000 ≤ off && off < 0x1F000 then (s.violate fn 0 fn .privilegedCounter off, 0)
  else if (vfMask off).isNone || s.foreignSel fn off then (s.violate fn 0 fn .reservedRegister off, 0)
  else (s, s.vfValue fn off)

/-- A read by the PF of a register: one of another size or alignment reads as zero, with an error record (17 R414). The table
has no command for a register read (log 18). -/
def pfRegRead (s : State) (off size : Nat) : State × W64 :=
  if size ≠ 8 || off % 8 ≠ 0 then (s.writeDropped off, 0) else (s, s.pfRead off)

/-! ### Register accesses (17 R414, 19 R461) -/

/-- A write of another size or alignment is dropped with an error record; from a VF it is a violation too. -/
def State.badAccess (s : State) (fn off : Nat) : State :=
  let s := s.writeDropped off
  if fn = 0 then s else s.violate fn 0 fn .reservedRegister off

/-- A poisoned TLP: the write is dropped with an error record, and AER reports it. -/
def State.poisonedTlp (s : State) : State := { s with dev := { s.dev with aer := s.dev.aer + 1 } }

def execRegisterWrite (fn : Fin 256) (off size : Nat) (v : W64) (poisoned : Bool) (s : State) :
    Host.Outcome State Fault Refusal :=
  .next (
    if s.dev.st ≠ .ready && (fn.val ≠ 0 || !earlyBlock off) then s
    else if poisoned then (s.poisonedTlp).writeDropped off
    else if size ≠ 8 || off % 8 ≠ 0 then s.badAccess fn off
    else if fn.val = 0 then pfWrite s bySupervisor off v
    else vfWrite s fn off v)

/-- A read that has not completed within 2 ms returns zero: a register's 8 bytes, or those of a BAR2 read, which the
model counts as 8 as well (DESIGN CHOICE, log 72). -/
def execRegisterReadTimeout (_fn : Fin 256) (off : Nat) (_bar2 : Bool) (s : State) : Host.Outcome State Fault Refusal :=
  .next { s.logError (.plain 8 1 0x0D 0 off) with rdata := List.replicate 8 0 }

def execErrTailWrite (v : W64) (s : State) : Host.Outcome State Fault Refusal := .next (errTail s v)

/-- The wheel takes the map at the start of its next revolution. -/
def execStkSlotMapWrite (st : Fin 16) (i : Fin 8) (v : W64) (s : State) : Host.Outcome State Fault Refusal :=
  .next (s.whenReady (fun s => s.setPf (slotMapOff st i) v))

/-! ### The memory window (17 R413, 19 R461 to R463) -/

/-- WIN_BASE of a function. -/
def State.winBase (s : State) (fn : Nat) : Nat := (if fn = 0 then s.pfReg 0x80 else s.vfReg fn 0x80).toNat

def hostWho (fn : Nat) : Who := { part := fn, ctx := none, core := none, layer := 0, op := 0, prog := false }

/-- A read past the 4 GiB of BAR2 is none of this window. -/
def inBar2 (off len : Nat) : Bool := off + len ≤ 0x100000000

def execBar2Read (fn : Fin 256) (off len : Nat) (s : State) : Host.Outcome State Fault Refusal :=
  .next (
    if s.dev.st ≠ .ready then { s with rdata := List.replicate len 0 }
    else if !inBar2 off len then s
    else
      let va := s.winBase fn + off
      let g := s.readData (hostWho fn) va len
      let s := if g.stop then g.s.poisonedEntry (hostWho fn) va len else g.s
      { s with rdata := plain g.bs })

/-- Every granule that a poisoned write touches. -/
def poisonAll (va : Nat) (data : List Byte) : Nat × List PByte :=
  (va / 8 * 8, List.replicate ((va + data.length + 7) / 8 * 8 - va / 8 * 8) (0xFF, true))

/-- A write; the granules of a poisoned TLP land as poisoned. -/
def execBar2Write (fn : Fin 256) (off : Nat) (data : List Byte) (poisoned : Bool) (s : State) :
    Host.Outcome State Fault Refusal :=
  .next (
    if s.dev.st ≠ .ready || !inBar2 off data.length then s
    else
      let va := s.winBase fn + off
      let s := if poisoned then s.poisonedTlp else s
      let w := if poisoned && !data.isEmpty then poisonAll va data else (va, clean data)
      let g := s.writeVirt (hostWho fn) w.1 w.2
      if g.stop then g.s.poisonedEntry (hostWho fn) w.1 w.2.length else g.s)

end Sys2Proof.Machine
end

