-- ==== Sys2Proof/Machine/Dispatch.lean ====
section
/-! DEFINITION. One arm for each constructor of `Instr`: a direct call of its meaning, or a rejection by name. -/

namespace Sys2Proof.Machine

def exec (i : Instr) (s : State) : Host.Outcome State Fault Refusal :=
  match i with
  | .sqHalt c => Sys2Proof.Machine.execSqHalt c s
  | .sqLi c sD imm => Sys2Proof.Machine.execSqLi c sD imm s
  | .sqAdd c f => Sys2Proof.Machine.execSqAdd c f s
  | .sqSub c f => Sys2Proof.Machine.execSqSub c f s
  | .sqMul c f => Sys2Proof.Machine.execSqMul c f s
  | .sqAnd c f => Sys2Proof.Machine.execSqAnd c f s
  | .sqOr c f => Sys2Proof.Machine.execSqOr c f s
  | .sqXor c f => Sys2Proof.Machine.execSqXor c f s
  | .sqShl c f => Sys2Proof.Machine.execSqShl c f s
  | .sqShr c f => Sys2Proof.Machine.execSqShr c f s
  | .sqSra c f => Sys2Proof.Machine.execSqSra c f s
  | .sqMin c f => Sys2Proof.Machine.execSqMin c f s
  | .sqMax c f => Sys2Proof.Machine.execSqMax c f s
  | .sqCmp c f cond => Sys2Proof.Machine.execSqCmp c f cond s
  | .sqLd c sD aS sO => Sys2Proof.Machine.execSqLd c sD aS sO s
  | .sqSt c aS sO sV => Sys2Proof.Machine.execSqSt c aS sO sV s
  | .sqDesc c aD sB sE => Sys2Proof.Machine.execSqDesc c aD sB sE s
  | .sqRds c sD index => Sys2Proof.Machine.execSqRds c sD index s
  | .sqWrs c index sS => Sys2Proof.Machine.execSqWrs c index sS s
  | .sqBr c cond sA sB ofs => Sys2Proof.Machine.execSqBr c cond sA sB ofs s
  | .sqLoop c lN sC body => Sys2Proof.Machine.execSqLoop c lN sC body s
  | .sqMark c layer op => Sys2Proof.Machine.execSqMark c layer op s
  | .sqDeadline c sS => Sys2Proof.Machine.execSqDeadline c sS s
  | .sqPhase c phase => Sys2Proof.Machine.execSqPhase c phase s
  | .sqYield c => Sys2Proof.Machine.execSqYield c s
  | .sqLive c index => Sys2Proof.Machine.execSqLive c index s
  | .sqIcinv c aS sO sL => Sys2Proof.Machine.execSqIcinv c aS sO sL s
  | .instructionStart c e => Sys2Proof.Machine.execInstructionStart c e s
  | .mxForm c form => Sys2Proof.Machine.execMxForm c form s
  | .mxWld c f => Sys2Proof.Machine.execMxWld c f s
  | .mxSwap c => Sys2Proof.Machine.execMxSwap c s
  | .mxRun c f => Sys2Proof.Machine.execMxRun c f s
  | .mxDrain c f => Sys2Proof.Machine.execMxDrain c f s
  | .mxNmv c f => Sys2Proof.Machine.execMxNmv c f s
  | .wellSlot st => Sys2Proof.Machine.execWellSlot st s
  | .vxSetvl c sD sS => Sys2Proof.Machine.execVxSetvl c sD sS s
  | .vxSetm c mD sS => Sys2Proof.Machine.execVxSetm c mD sS s
  | .vxEp c f => Sys2Proof.Machine.execVxEp c f s
  | .vxRed c f => Sys2Proof.Machine.execVxRed c f s
  | .xpDef c xN aS sO => Sys2Proof.Machine.execXpDef c xN aS sO s
  | .atQk c f => Sys2Proof.Machine.execAtQk c f s
  | .atSmInit c f => Sys2Proof.Machine.execAtSmInit c f s
  | .atSmUpdate c f => Sys2Proof.Machine.execAtSmUpdate c f s
  | .atSmFinal c f => Sys2Proof.Machine.execAtSmFinal c f s
  | .atSmMerge c f => Sys2Proof.Machine.execAtSmMerge c f s
  | .atPv c f => Sys2Proof.Machine.execAtPv c f s
  | .atDec c f => Sys2Proof.Machine.execAtDec c f s
  | .atPageAlloc c aA aR aO => Sys2Proof.Machine.execAtPageAlloc c aA aR aO s
  | .atPageFree c aA aR aO => Sys2Proof.Machine.execAtPageFree c aA aR aO s
  | .atPageFork c aA aR aO => Sys2Proof.Machine.execAtPageFork c aA aR aO s
  | .atPagePrep c aA aR aO => Sys2Proof.Machine.execAtPagePrep c aA aR aO s
  | .atPageLookup c aA aR aO => Sys2Proof.Machine.execAtPageLookup c aA aR aO s
  | .atPageInsert c aA aR aO => Sys2Proof.Machine.execAtPageInsert c aA aR aO s
  | .rnKey c sS => Sys2Proof.Machine.execRnKey c sS s
  | .rnStream c mode sS => Sys2Proof.Machine.execRnStream c mode sS s
  | .rnDraw c aD wq draw sL => Sys2Proof.Machine.execRnDraw c aD wq draw sL s
  | .dmCopy c f => Sys2Proof.Machine.execDmCopy c f s
  | .dmXpose c f => Sys2Proof.Machine.execDmXpose c f s
  | .dmGather c f => Sys2Proof.Machine.execDmGather c f s
  | .dmExpand c f => Sys2Proof.Machine.execDmExpand c f s
  | .dmPack c f => Sys2Proof.Machine.execDmPack c f s
  | .dmTblCore c aS sO slot => Sys2Proof.Machine.execDmTblCore c aS sO slot s
  | .dmTblStack c aS sO slot st => Sys2Proof.Machine.execDmTblStack c aS sO slot st s
  | .tableBankSwitch c x => Sys2Proof.Machine.execTableBankSwitch c x s
  | .tableLoadRelease c x => Sys2Proof.Machine.execTableLoadRelease c x s
  | .ergBlockDecode c x => Sys2Proof.Machine.execErgBlockDecode c x s
  | .dmAtom c f => Sys2Proof.Machine.execDmAtom c f s
  | .sySig c sS sV => Sys2Proof.Machine.execSySig c sS sV s
  | .sySet c sS sV => Sys2Proof.Machine.execSySet c sS sV s
  | .signalUpdateApply r k => Sys2Proof.Machine.execSignalUpdateApply r k s
  | .syWait c f => Sys2Proof.Machine.execSyWait c f s
  | .syWaitTimeout w => Sys2Proof.Machine.execSyWaitTimeout w s
  | .syQput c sQ aS sL => Sys2Proof.Machine.execSyQput c sQ aS sL s
  | .syQputResume c => Sys2Proof.Machine.execSyQputResume c s
  | .syQget c sD sQ aD sM => Sys2Proof.Machine.execSyQget c sD sQ aD sM s
  | .syQgetResume c => Sys2Proof.Machine.execSyQgetResume c s
  | .syQcnt c sD sQ => Sys2Proof.Machine.execSyQcnt c sD sQ s
  | .clPut c f => Sys2Proof.Machine.execClPut c f s
  | .clReduce c f => Sys2Proof.Machine.execClReduce c f s
  | .clStep c sS sW => Sys2Proof.Machine.execClStep c sS sW s
  | .clTimesync c sD jg => Sys2Proof.Machine.execClTimesync c sD jg s
  | .dbWatch c f => Sys2Proof.Machine.execDbWatch c f s
  | .dbEvent c code sS => Sys2Proof.Machine.execDbEvent c code sS s
  | .scoreboardWatchdogExpiry c => Sys2Proof.Machine.execScoreboardWatchdogExpiry c s
  | .doorbellSubmissionTail fn ctx index => Sys2Proof.Machine.execDoorbellSubmissionTail fn ctx index s
  | .doorbellCompletionHead fn ctx index => Sys2Proof.Machine.execDoorbellCompletionHead fn ctx index s
  | .run ctx r => Sys2Proof.Machine.execRun ctx r s
  | .signal ctx r => Sys2Proof.Machine.execSignal ctx r s
  | .wait ctx r => Sys2Proof.Machine.execWait ctx r s
  | .resetContext ctx r => Sys2Proof.Machine.execResetContext ctx r s
  | .timesync ctx r => Sys2Proof.Machine.execTimesync ctx r s
  | .dispatchSelection p => Sys2Proof.Machine.execDispatchSelection p s
  | .contextStart ctx => Sys2Proof.Machine.execContextStart ctx s
  | .contextSaveDone ctx => Sys2Proof.Machine.execContextSaveDone ctx s
  | .contextRestoreDone ctx => Sys2Proof.Machine.execContextRestoreDone ctx s
  | .deadlineExpiry ctx => Sys2Proof.Machine.execDeadlineExpiry ctx s
  | .implicitDeadlineExpiry ctx => Sys2Proof.Machine.execImplicitDeadlineExpiry ctx s
  | .partCreate p => Sys2Proof.Machine.execPartCreate p s
  | .partRelease p => Sys2Proof.Machine.execPartRelease p s
  | .partReleaseStepDone p => Sys2Proof.Machine.execPartReleaseStepDone p s
  | .memoryZeroingDone st p => Sys2Proof.Machine.execMemoryZeroingDone st p s
  | .xlatUpdate p arg0 arg1 => Sys2Proof.Machine.execXlatUpdate p arg0 arg1 s
  | .xlatUpdateComplete => Sys2Proof.Machine.execXlatUpdateComplete s
  | .cacheClear p => Sys2Proof.Machine.execCacheClear p s
  | .coreSetAssign p arg0 => Sys2Proof.Machine.execCoreSetAssign p arg0 s
  | .coreSetRemove p arg0 => Sys2Proof.Machine.execCoreSetRemove p arg0 s
  | .coreScrubDone c => Sys2Proof.Machine.execCoreScrubDone c s
  | .ctxAssign ctx p arg0 => Sys2Proof.Machine.execCtxAssign ctx p arg0 s
  | .ctxFree ctx => Sys2Proof.Machine.execCtxFree ctx s
  | .keyApply p => Sys2Proof.Machine.execKeyApply p s
  | .registerWrite fn off size v poisoned => Sys2Proof.Machine.execRegisterWrite fn off size v poisoned s
  | .registerReadTimeout fn off bar2 => Sys2Proof.Machine.execRegisterReadTimeout fn off bar2 s
  | .bar2Read fn off len => Sys2Proof.Machine.execBar2Read fn off len s
  | .bar2Write fn off data poisoned => Sys2Proof.Machine.execBar2Write fn off data poisoned s
  | .errTailWrite v => Sys2Proof.Machine.execErrTailWrite v s
  | .queueEnable r q v => Sys2Proof.Machine.execQueueEnable r q v s
  | .queueDisable r q => Sys2Proof.Machine.execQueueDisable r q s
  | .queueFlush r q => Sys2Proof.Machine.execQueueFlush r q s
  | .queueFlushDone r q => Sys2Proof.Machine.execQueueFlushDone r q s
  | .sigObjAdd p r k v => Sys2Proof.Machine.execSigObjAdd p r k v s
  | .sigObjSet p r k v => Sys2Proof.Machine.execSigObjSet p r k v s
  | .stkSlotMapWrite st k v => Sys2Proof.Machine.execStkSlotMapWrite st k v s
  | .jobApply p => Sys2Proof.Machine.execJobApply p s
  | .jobUnbind p => Sys2Proof.Machine.execJobUnbind p s
  | .lnkModeWrite port v => Sys2Proof.Machine.execLnkModeWrite port v s
  | .selftest c => Sys2Proof.Machine.execSelftest c s
  | .selftestDone c pass => Sys2Proof.Machine.execSelftestDone c pass s
  | .recoveryStartWrite => Sys2Proof.Machine.execRecoveryStartWrite s
  | .restart byPerst => Sys2Proof.Machine.execRestart byPerst s
  | .traceEnable => Sys2Proof.Machine.execTraceEnable s
  | .traceSnap ty unit => Sys2Proof.Machine.execTraceSnap ty unit s
  | .traceBufWrite v => Sys2Proof.Machine.execTraceBufWrite v s
  | .claimSupervisor res => Sys2Proof.Machine.execClaimSupervisor res s
  | .releaseSupervisor res => Sys2Proof.Machine.execReleaseSupervisor res s
  | .mboxGo => Sys2Proof.Machine.execMboxGo s
  | .timerFire k => Sys2Proof.Machine.execTimerFire k s
  | .functionLevelReset fn => Sys2Proof.Machine.execFunctionLevelReset fn s
  | .perstNAssert => Sys2Proof.Machine.execPerstNAssert s
  | .perstNDeassert => Sys2Proof.Machine.execPerstNDeassert s
  | .put port f => Sys2Proof.Machine.execPut port f s
  | .finWriteRelease p src score => Sys2Proof.Machine.execFinWriteRelease p src score s
  | .sig port f => Sys2Proof.Machine.execSig port f s
  | .landed port f => Sys2Proof.Machine.execLanded port f s
  | .red port f => Sys2Proof.Machine.execRed port f s
  | .redResult port f => Sys2Proof.Machine.execRedResult port f s
  | .reductionWindowExpiry port k => Sys2Proof.Machine.execReductionWindowExpiry port k s
  | .stepRetry port f => Sys2Proof.Machine.execStepRetry port f s
  | .resetNotice port f => Sys2Proof.Machine.execResetNotice port f s
  | .join port f => Sys2Proof.Machine.execJoin port f s
  | .peerDown port f => Sys2Proof.Machine.execPeerDown port f s
  | .timesyncRequest port f t2 t3 => Sys2Proof.Machine.execTimesyncRequest port f t2 t3 s
  | .timesyncResponse port f t4 => Sys2Proof.Machine.execTimesyncResponse port f t4 s
  | .timesyncNeighbourTimeout port => Sys2Proof.Machine.execTimesyncNeighbourTimeout port s
  | .nak e ack => Sys2Proof.Machine.execNak e ack s
  | .flitCrcFail e => Sys2Proof.Machine.execFlitCrcFail e s
  | .linkRetrainDone port lanes => Sys2Proof.Machine.execLinkRetrainDone port lanes s
  | .laneAlignmentLoss port => Sys2Proof.Machine.execLaneAlignmentLoss port s
  | .memberLost p rank => Sys2Proof.Machine.execMemberLost p rank s
  | .pauseFrame port => Sys2Proof.Machine.execPauseFrame port s
  | .pfcFrame port prio pause => Sys2Proof.Machine.execPfcFrame port prio pause s
  | .capLoopEvaluation pIn pUp => Sys2Proof.Machine.execCapLoopEvaluation pIn pUp s
  | .energyReconcile measured modelled => Sys2Proof.Machine.execEnergyReconcile measured modelled s
  | .regionPointStep r => Sys2Proof.Machine.execRegionPointStep r s
  | .fastLimit rail => Sys2Proof.Machine.execFastLimit rail s
  | .droopDetect c => Sys2Proof.Machine.execDroopDetect c s
  | .droopEnd c => Sys2Proof.Machine.execDroopEnd c s
  | .droopQuietEnd r => Sys2Proof.Machine.execDroopQuietEnd r s
  | .throttleNAssert => Sys2Proof.Machine.execThrottleNAssert s
  | .throttleNRelease => Sys2Proof.Machine.execThrottleNRelease s
  | .thermalSample r temp => Sys2Proof.Machine.execThermalSample r temp s
  | .stackThermalStep st temp => Sys2Proof.Machine.execStackThermalStep st temp s
  | .flowLossAssert => Sys2Proof.Machine.execFlowLossAssert s
  | .flowLossRelease => Sys2Proof.Machine.execFlowLossRelease s
  | .inputVoltageTrip => Sys2Proof.Machine.execInputVoltageTrip s
  | .inputLoss => Sys2Proof.Machine.execInputLoss s
  | .inputOvercurrent => Sys2Proof.Machine.execInputOvercurrent s
  | .powerGood moduleId => Sys2Proof.Machine.execPowerGood moduleId s
  | .pllIdleStop pll => Sys2Proof.Machine.execPllIdleStop pll s
  | .wakeDone pll => Sys2Proof.Machine.execWakeDone pll s
  | .selfRefreshEntry st => Sys2Proof.Machine.execSelfRefreshEntry st s
  | .stackWakeDone st => Sys2Proof.Machine.execStackWakeDone st s
  | .stackPointChange st => Sys2Proof.Machine.execStackPointChange st s
  | .patrolScrub st found => Sys2Proof.Machine.execPatrolScrub st found s
  | .bankRetireCopyDone st => Sys2Proof.Machine.execBankRetireCopyDone st s
  | .coreFence c cause => Sys2Proof.Machine.execCoreFence c cause s
  | .ceLimitFence c => Sys2Proof.Machine.execCeLimitFence c s
  | .hangTest => Sys2Proof.Machine.execHangTest s
  | .progressWindowExpiry ctx => Sys2Proof.Machine.execProgressWindowExpiry ctx s
  | .contextResetDone ctx => Sys2Proof.Machine.execContextResetDone ctx s
  | .moduleRecovery cause => Sys2Proof.Machine.execModuleRecovery cause s
  | .recoveryStageDone => Sys2Proof.Machine.execRecoveryStageDone s
  | .crashDump silent => Sys2Proof.Machine.execCrashDump silent s
  | .startStageDone stage res => Sys2Proof.Machine.execStartStageDone stage res s
  | .lockstepMismatch => Sys2Proof.Machine.execLockstepMismatch s
  | .firmwareBoot okA okB => Sys2Proof.Machine.execFirmwareBoot okA okB s
  | .securityVersionRaise => Sys2Proof.Machine.execSecurityVersionRaise s
  | .sensorSample id reading => Sys2Proof.Machine.execSensorSample id reading s
  | .setEndpointId via eid => Sys2Proof.Machine.execSetEndpointId via eid s
  | .getEndpointId via => Sys2Proof.Machine.execGetEndpointId via s
  | .getMctpVersionSupport via => Sys2Proof.Machine.execGetMctpVersionSupport via s
  | .getMessageTypeSupport via => Sys2Proof.Machine.execGetMessageTypeSupport via s
  | .getVendorDefinedMessageSupport via => Sys2Proof.Machine.execGetVendorDefinedMessageSupport via s
  | .pldmDiscovery via cmd => Sys2Proof.Machine.execPldmDiscovery via cmd s
  | .getSensorReading via id => Sys2Proof.Machine.execGetSensorReading via id s
  | .getSensorThresholds via id => Sys2Proof.Machine.execGetSensorThresholds via id s
  | .getPdr via id => Sys2Proof.Machine.execGetPdr via id s
  | .requestUpdate via => Sys2Proof.Machine.execRequestUpdate via s
  | .getFirmwareParameters via => Sys2Proof.Machine.execGetFirmwareParameters via s
  | .passComponentTable via => Sys2Proof.Machine.execPassComponentTable via s
  | .updateComponent via => Sys2Proof.Machine.execUpdateComponent via s
  | .requestFirmwareData via off data => Sys2Proof.Machine.execRequestFirmwareData via off data s
  | .transferComplete via => Sys2Proof.Machine.execTransferComplete via s
  | .verifyComplete via sigOk version => Sys2Proof.Machine.execVerifyComplete via sigOk version s
  | .applyComplete via => Sys2Proof.Machine.execApplyComplete via s
  | .activateFirmware via => Sys2Proof.Machine.execActivateFirmware via s
  | .getStatus via => Sys2Proof.Machine.execGetStatus via s
  | .cancelUpdate via => Sys2Proof.Machine.execCancelUpdate via s
  | .getVersion via => Sys2Proof.Machine.execGetVersion via s
  | .getCapabilities via => Sys2Proof.Machine.execGetCapabilities via s
  | .negotiateAlgorithms via => Sys2Proof.Machine.execNegotiateAlgorithms via s
  | .getDigests via => Sys2Proof.Machine.execGetDigests via s
  | .getCertificate via slot off len => Sys2Proof.Machine.execGetCertificate via slot off len s
  | .challenge via slot nonce => Sys2Proof.Machine.execChallenge via slot nonce s
  | .getMeasurements via index => Sys2Proof.Machine.execGetMeasurements via index s
  | .regRead via off => Sys2Proof.Machine.execRegRead via off s
  | .regWrite via off v => Sys2Proof.Machine.execRegWrite via off v s
  | .alarmRead via => Sys2Proof.Machine.execAlarmRead via s
  | .logRead via off len => Sys2Proof.Machine.execLogRead via off len s
  | .dumpRead via index piece => Sys2Proof.Machine.execDumpRead via index piece s
  | .recover via => Sys2Proof.Machine.execRecover via s
  | .claim via res op => Sys2Proof.Machine.execClaim via res op s
  | .status via => Sys2Proof.Machine.execStatus via s
  | .mctpMessageTimeout via => Sys2Proof.Machine.execMctpMessageTimeout via s
  | .i3cSclLowTimeout => Sys2Proof.Machine.execI3cSclLowTimeout s
  | .sidebandRegisterTimeout via off => Sys2Proof.Machine.execSidebandRegisterTimeout via off s
  | .tagRelease c tag => Sys2Proof.Machine.execTagRelease c tag s
  | .instructionComplete c id => Sys2Proof.Machine.execInstructionComplete c id s
  | .inputRangeReturn => Sys2Proof.Machine.execInputRangeReturn s
  | .inputSwitchClose => Sys2Proof.Machine.execInputSwitchClose s
  | .tapStateChange target => Sys2Proof.Machine.execTapStateChange target s
  | .setdasa => Sys2Proof.Machine.execSetdasa s
  | .entdaa addr => Sys2Proof.Machine.execEntdaa addr s
  | .unsupportedMctpMessage vdmFromVf => Sys2Proof.Machine.execUnsupportedMctpMessage vdmFromVf s
  | .idle e ack chan credits => Sys2Proof.Machine.execIdle e ack chan credits s
  | .reservedTypeFlit f => Sys2Proof.Machine.execReservedTypeFlit f s
  | .foreignEthertypeFrame f => Sys2Proof.Machine.execForeignEthertypeFrame f s

end Sys2Proof.Machine
end

