-- ==== Sys2Proof/Machine/Tick.lean ====
section
/-! DEFINITION. What one tick of the always-on clock does while no command waits: DEVTIME advances, the counters of
time count, queue counts cross their synchronisers, and what was waiting for a core to stand still goes on. -/

namespace Sys2Proof.Machine

/-- A partition waits for a requested preemption: of a context of its own, or of a core that is tested in place
(15 R361, 19 R470). -/
def State.preemptWait (s : State) (p : Nat) : Bool :=
  s.ctxs.any (fun x => x.2.part = p &&
    ((x.2.st = .stopping && x.2.preempt)
      || ((x.2.st = .ready || x.2.st = .saved) && x.2.cores.any (fun l => (s.phys l).any (fun c => (s.core c).inPlace)))))

def State.countPreempt (s : State) : List Nat → State
  | [] => s
  | p :: r => (if s.preemptWait p then s.countPart p 1 1 else s).countPreempt r

/-- Each core held accrues its static energy (18 R454). -/
def State.actHold (s : State) (n : Nat) : List Nat → State
  | [] => s
  | c :: r => (s.act n actHeld (s.region (regionOf c)).point 40).actHold n r

/-- Core time held, in nanoseconds (21 R495). -/
def State.countHeld (s : State) : List Nat → State
  | [] => s
  | n :: r => ((s.count n 1 (40 * (s.heldCores n).length)).actHold n (s.heldCores n)).countHeld r

/-- The consumer's end of each queue of a region counts one more consumed cell (14 R333; DESIGN CHOICE, log 154). -/
def State.countQueues (s : State) (r : Nat) : List Nat → State
  | [] => s
  | q :: l => (s.countCell r q).countQueues r l

/-- Since when no partition has been active in the region (18 R433). The fabric cycles in which its mesh carried data
are a free count (log 48). -/
def State.regionTick (s : State) (r : Nat) : State :=
  let idle := (s.region r).pll && !s.active (some r)
  let s := s.onRegion r (fun g => { g with
    idleTick := if idle then some (g.idleTick.getD s.time) else none
    meshBusy := g.meshBusy + Config.freeWord s.free
    queues := g.queues.map (fun q => (q.1, q.2.sync)) })
  s.drawn.countQueues r ((s.region r).queues.map (fun q => q.1))

def State.regionTicks (s : State) : List Nat → State
  | [] => s
  | r :: l => (s.regionTick r).regionTicks l

/-- Since when no partition has been active anywhere. -/
def State.fabricTick (s : State) : State :=
  let idle := s.pwr.fabric && !s.active none
  { s with pwr := { s.pwr with fabricIdle := if idle then some (s.pwr.fabricIdle.getD s.time) else none } }

/-- What waits for the log is written within its rate, in intervals of 10 ms (21 R507, R508). -/
def State.logTick (s : State) : State :=
  { s with belv := if s.time % 10000000 = 0 then s.belv.nextInterval else s.belv.writeLog }

/-- The state after one tick of 40 ns (01 R17); without a running always-on clock nothing happens. -/
def tick (s : State) : State :=
  if !s.dev.aon then s
  else
    let s : State := s.watchWaits
    let s : State := s.portTicks (s.cores.map (fun c : Nat × PCore => c.1))
    let s : State := s.moveAll (s.cores.map (fun c : Nat × PCore => c.1))
    let held := (s.ctxs.filter (fun x => x.2.holds || x.2.st = .saving || x.2.st = .restoring)).map (fun x => x.1)
    let s : State := (s.countPreempt (s.ctxs.map (fun x => x.2.part)).eraseDups).countHeld held
    let s : State := (s.regionTicks (List.range 4)).fabricTick.releaseCredits
    let s : State := (({ s with time := s.time + 40 } : State).logTick).errRoll.strike
    s.renewWatch (s.cores.map (fun c : Nat × PCore => c.1))

end Sys2Proof.Machine
end

