-- ==== Sys2Proof/Safety.lean ====
section
/-! DEFINITION. What counts as a good state and a safe run, in the terms the statements use. -/

namespace Sys2Proof.Machine

/-- No entry of a byte memory equals what an unlisted address reads as. -/
def noZero (t : Tab Byte) : Bool := t.all (fun p => p.2 ≠ 0)

/-- The canonical form of a byte memory: addresses strictly rising, no entry that reads as an unlisted address would;
the poison marks of granules rising too. -/
def Ram.wf (m : Ram) : Bool := Tab.rising m.bytes && noZero m.bytes && Tab.rising m.poison

/-- The stack memory is in its canonical form, and the owners of its units are listed once each, rising. -/
def State.memOk (s : State) : Bool := s.mem.wf && Tab.rising s.unitKey

/-- Every allocated page is listed once and has a share count of at least 1: a page whose count comes to 0 is free
(09 R193). -/
def State.pagesOk (s : State) : Bool := Tab.rising s.frames && s.frames.all (fun p => 1 ≤ p.2.count)

/-- The error ring's indices name slots of its 64, and its count of dropped records is 32 bits wide (19 R472). -/
def State.ringOk (s : State) : Bool := s.err.head < 64 && s.err.tail < 64 && s.err.dropped < 2 ^ 32

/-- The invariant that every step keeps. -/
def State.inv (s : State) : Bool := s.memOk && s.pagesOk && s.ringOk

/-- A path from `s` to `t` that a command may take: the queue is left alone, no draw of a free value is used twice,
the minimum security version stays (22 R515), and the invariant is kept. -/
structure Keeps (s t : State) : Prop where
  pending : t.pending = s.pending
  free    : s.free ≤ t.free
  minVer  : t.belv.minVer = s.belv.minVer
  inv     : s.inv = true → t.inv = true

/-! ### When an instruction completes -/

/-- The sequencer of core `c` fetches the instruction `i`: context `n` runs the RUN `r` there with the registers `g`, and
the words at the pc, whose lines have come to the control cache, spell `i`; the fetch leaves `t`. No stack is in self-refresh (10 R237). -/
structure Fetches (s : State) (c : Nat) (i : Instr) (n : Nat) (r : Run) (g : Regs) (t : State) : Prop where
  awake   : ∀ st : Fin 16, (s.stack st).selfRef = false ∧ (t.stack st).selfRef = false
  issuing : s.issuing c = some (n, r, g)
  word    : s.fetch c n r g = (t, .instr i)

/-- What an issue of `i` leaves of the core's context, before the instruction has its place in the queue or the engine: its
tags, the watchdog's start, the next numbers, whether it ends a load of Erg weights, the registers past it. -/
def Exec.issued (x : Exec) (words now : Nat) (i : Instr) (ranges : List SpRange) (g : Regs) : Exec :=
  { x.retag (x.tags ++ makeTags x.nextTag x.nextId (mergeRanges ranges)) now with
    nextTag := x.nextTag + (mergeRanges ranges).length
    nextId := x.nextId + 1
    breaks := x.breaks + b2n (breaksErg i)
    regs := g.past words }

/-- The instruction `i` of core `c` issues to engine `e` as `k`, and the core's context is then `x`: the fetch leaves `t`,
nothing holds the core, the checks pass, and the queue and the scoreboard have room (04 R74, R78, 12 R271). -/
structure Issues (s : State) (c words : Nat) (e : Engine) (i : Instr) (ready : State → Nat → Bool)
    (check : State → Nat → Regs → Check) (next : Regs → Regs) (n : Nat) (t : State) (k : Issued) (x : Exec) : Prop where
  fetch  : ∃ r, Fetches s c i n r k.regs t
  ready  : ready t c = true
  record : k = { id := (t.x c).nextId, group := (t.x c).groupNo, eng := e, instr := i, regs := k.regs, stks := k.stks
                 brk := (t.x c).breaks, step := (t.x c).step.map (fun o => (o.num.toNat % 2 ^ 24, o.rep)) }
  checks : ∃ ranges, check t n k.regs = .ok ranges k.stks ∧ (t.x c).tags.length + (mergeRanges ranges).length ≤ 64
    ∧ x = (t.x c).issued words t.time i ranges (next k.regs)
  room   : ((t.x c).queueOf e).length < 8

/-- The state in which the issued instruction `k` starts: it is in its engine. -/
def startOf (t : State) (c : Nat) (x : Exec) (k : Issued) : State := t.setX c (x.begin k t.time)

/-- The state in which the issued instruction `k` waits in its engine's queue. -/
def queuedOf (t : State) (c : Nat) (x : Exec) (k : Issued) : State := t.setX c { x with queue := x.queue ++ [k] }

/-- How an instruction issues to an engine: its core, its words, the engine, what must hold before, its checks, the
registers after the issue, and its work. -/
structure Form where
  core  : Nat
  words : Nat
  eng   : Engine
  ready : State → Nat → Bool
  check : State → Nat → Regs → Check
  next  : Regs → Regs
  run   : Effect

/-- The instructions that issue to an engine. -/
def formOf (i : Instr) : Option Form :=
  match i with
  | .mxForm c f => some ⟨c, 1, .matrix, always, mxFormCheck f, id, runMxForm f⟩
  | .mxWld c f => some ⟨c, 1, .matrix, always, mxWldCheck c f, id, runMxWld f⟩
  | .mxSwap c => some ⟨c, 1, .matrix, always, mxSwapCheck c, id, runMxSwap⟩
  | .mxRun c f => some ⟨c, 1, .matrix, always, mxRunCheck c f, id, runMxRun f⟩
  | .mxDrain c f => some ⟨c, 1, .matrix, always, mxDrainCheck f, id, runMxDrain f⟩
  | .mxNmv c f => some ⟨c, 1, .nearMem, always, mxNmvCheck c f, id, runMxNmv f⟩
  | .xpDef c n a o => some ⟨c, 1, .vector, slotFree n.toNat, xpDefCheck c a.toNat o.toNat, id, runXpDef n.toNat a.toNat o.toNat⟩
  | .vxEp c f => some ⟨c, 2, .vector, slotFree f.xs.toNat, vxEpCheck c f, f.after, runVxEp f⟩
  | .vxRed c f => some ⟨c, 1, .vector, always, vxRedCheck c f, id, runVxRed f⟩
  | .rnDraw c a w d l =>
    some ⟨c, 1, .vector, always, rnDrawCheck c a.toNat w.toNat l.toNat, rnDrawAfter, runRnDraw a.toNat w.toNat d.toNat l.toNat⟩
  | .dbWatch c f => some ⟨c, 1, .vector, always, dbWatchCheck c f, id, runDbWatch f⟩
  | .atQk c f => some ⟨c, 2, .matrix, always, atQkCheck c f, id, runAtQk f⟩
  | .atSmInit c f => some ⟨c, 2, .vector, always, smInitCheck c f, id, runSmInit f⟩
  | .atSmUpdate c f => some ⟨c, 2, .vector, always, smUpdateCheck c f, id, runSmUpdate f⟩
  | .atSmFinal c f => some ⟨c, 2, .vector, always, smFinalCheck c f, id, runSmFinal f⟩
  | .atSmMerge c f => some ⟨c, 2, .vector, always, smMergeCheck c f, id, runSmMerge f⟩
  | .atPv c f => some ⟨c, 2, .matrix, always, atPvCheck c f, id, runAtPv f⟩
  | .atDec c f => some ⟨c, 2, .nearMem, always, atDecCheck c f, id, runAtDec f⟩
  | .atPageAlloc c a r o => some ⟨c, 1, .pages, always, pageCheck c a r o true 64 8, id, runPageAlloc a r o⟩
  | .atPageFree c a r o => some ⟨c, 1, .pages, always, pageCheck c a r o false 72 0, id, runPageFree a r o⟩
  | .atPageFork c a r o => some ⟨c, 1, .pages, always, pageCheck c a r o false 72 0, id, runPageFork a r o⟩
  | .atPagePrep c a r o => some ⟨c, 1, .pages, always, pageCheck c a r o true 72 8, id, runPagePrep a r o⟩
  | .atPageLookup c a r o => some ⟨c, 1, .pages, always, pageCheck c a r o true 0x140 8, id, runPageLookup a r o⟩
  | .atPageInsert c a r o => some ⟨c, 1, .pages, always, pageCheck c a r o false 0x148 0, id, runPageInsert a r o⟩
  | .dmCopy c f => some ⟨c, 1, .dma, always, dmCopyCheck c f, id, runDmCopy f⟩
  | .dmXpose c f => some ⟨c, 1, .dma, always, dmXposeCheck c f, id, runDmXpose f⟩
  | .dmGather c f => some ⟨c, 1, .dma, always, dmGatherCheck c f, id, runDmGather f⟩
  | .dmExpand c f => some ⟨c, 1, .dma, always, dmExpandCheck c f, id, runDmExpand f⟩
  | .dmPack c f => some ⟨c, 1, .dma, always, dmPackCheck c f, id, runDmPack f⟩
  | .dmTblCore c a o k =>
    some ⟨c, 1, .dma, always, dmTblCoreCheck c a.toNat o.toNat, id, runDmTblCore a.toNat o.toNat k.toNat⟩
  | .dmTblStack c a o k st =>
    some ⟨c, 1, .dma, always, dmTblStackCheck c a.toNat o.toNat st, id, runDmTblStack a.toNat o.toNat k.toNat st⟩
  | .dmAtom c f => some ⟨c, 1, .dma, always, dmAtomCheck c f, id, runDmAtom f⟩
  | .clPut c f => some ⟨c, 1, .coll, clPutReady f, clPutCheck c f, id, runClPut f⟩
  | .clReduce c f => some ⟨c, 1, .coll, always, clReduceCheck c f, id, runClReduce f⟩
  | _ => none

/-- The engine instruction `i` issues for context `n` and starts at once: `t` is the state after its fetch, `k` its record
(id, group, the registers it read), and `u` the state in which its engine does its work. -/
def Starts (s : State) (i : Instr) (n : Nat) (t : State) (k : Issued) (u : State) : Prop :=
  ∃ F x, formOf i = some F ∧ Issues s F.core F.words F.eng i F.ready F.check F.next n t k x ∧ x.mayStart k = true
    ∧ u = startOf t F.core x k

/-- The argument block of an `at.page` is read whole: `h` its first 64 bytes, `b` the `m` bytes after them (12 R294). -/
structure BlockRead (s : State) (c : Nat) (o : PageOps) (m : Nat) (h b : List Byte) : Prop where
  head  : h = plain ((s.x c).sp.read o.arg 64)
  body  : b = plain ((s.x c).sp.read (o.arg + 64) m)
  inside : 64 + m ≤ o.argLen
  clean : anyBad ((s.x c).sp.read o.arg 64) = false ∧ anyBad ((s.x c).sp.read (o.arg + 64) m) = false

/-- What an `at.page` leaves: its output entries, then its result record (12 R294). -/
def State.pageEnd (s : State) (c : Nat) (o : PageOps) (status count hash : Nat) (out : List Nat) : State :=
  (s.writeSp c o.out (Machine.clean ((out.map (leBytes 8)).flatten))).writeSp c o.res (pageResult status count hash)

/-- The flit `f` of type `ty` arrives at port `q` for this module: the port is up and the flit is in sequence on its path,
which has room for it, and which leaves `t`, its credit returned or withheld; a job `j` of partition `p` has its tag; it is for the
own rank, not from a member held dead, and not damaged where its type may not be (16 R385, R390, R397, R404, 19 R464). -/
structure Arrives (s : State) (q ty : Nat) (f : Flit) (p : Nat) (j : Job) (t : State) : Prop where
  up    : (s.port q).up = true
  seq   : ((s.port q).link (s.pathKey q f.iface f.peer.toNat)).expect = f.tr.lseq.toNat
  path  : (s.port q).hasPath (s.pathKey q f.iface f.peer.toNat) = true
  after : t = (s.flitIn q (s.creditOf ty f) f.iface f.peer f.tr).withhold q f (s.heldBy ty f)
  job   : t.jobOf f.jobTag.toNat = some (p, j)
  own   : f.dst.toNat = j.rank
  size  : j.rank < j.size
  live  : j.fromDead ty f = false
  whole : f.badG = [] ∨ ty = 1 ∨ ty = 4

end Sys2Proof.Machine
end

