-- ==== Sys2Proof/Certificates/Slice0/Obligations.lean ====
section
/-! DEFINITION. The statements about the model: one `def Obligations.<Name> : Prop` each. A statement's docstring says what
it states; a clause that rests on a choice of the model names its log entry. -/

open Sys2Proof Sys2Proof.Machine

/-- For every command c and every state s, the step of s with c put at the front of its queue is exec of c on s, whose
queue is the rest. -/
def Obligations.StepRunsTheFrontCommand : Prop :=
  ∀ (c : Instr) (s : State), Sys2Proof.Machine.step { s with pending := c :: s.pending } = Sys2Proof.Machine.exec c s

/-- Where the sequencer of core c fetches a two-operand scalar operation (one word, or two with an extension word, whose
sB field is then 0), sq.add, sq.sub, sq.mul, sq.and, sq.or, sq.xor, sq.shl, sq.shr, sq.sra, sq.min, sq.max and
sq.cmp with COND 0 to 5 answer the state after the fetch with sD holding the result, the pc past the words, and
nothing else changed but the core's progress tick. Operand B is the extension word when there is one. Arithmetic
wraps; a shift count is taken modulo 64; sq.min, sq.max and the conditions compare as R276 says; sq.cmp writes 1 or
0. -/
def Obligations.SequencerArithmetic : Prop :=
  ∀ (s : State) (c : Fin 264) (f : Alu) (n : Nat) (r : Run) (g : Regs) (t : State),
    (f.ext.isSome = true → f.sB = 0) →
    let runs (i : Instr) (u : State) : Prop := Fetches s c i n r g t → Sys2Proof.Machine.exec i s = .next u
    let b (h : Regs) : W64 := f.ext.getD (h.getS f.sB.toNat)
    let done (op : W64 → W64 → W64) : State :=
      t.pass c (if f.ext.isSome then 2 else 1) (fun h => h.setS f.sD.toNat (op (h.getS f.sA.toNat) (b h)))
    runs (.sqAdd c f) (done (fun x y => x + y))
      ∧ runs (.sqSub c f) (done (fun x y => x - y))
      ∧ runs (.sqMul c f) (done (fun x y => x * y))
      ∧ runs (.sqAnd c f) (done (fun x y => x &&& y))
      ∧ runs (.sqOr c f) (done (fun x y => x ||| y))
      ∧ runs (.sqXor c f) (done (fun x y => x ^^^ y))
      ∧ runs (.sqShl c f) (done (fun x y => x <<< (y.toNat % 64)))
      ∧ runs (.sqShr c f) (done (fun x y => x >>> (y.toNat % 64)))
      ∧ runs (.sqSra c f) (done (fun x y => x.sshiftRight (y.toNat % 64)))
      ∧ runs (.sqMin c f) (done (fun x y => if x.toInt ≤ y.toInt then x else y))
      ∧ runs (.sqMax c f) (done (fun x y => if y.toInt ≤ x.toInt then x else y))
      ∧ ∀ cond : BitVec 3, cond.toNat < 6 →
          runs (.sqCmp c f cond) (done (fun x y =>
            if (cond = 0 ∧ x = y) ∨ (cond = 1 ∧ x ≠ y) ∨ (cond = 2 ∧ x.toInt < y.toInt) ∨ (cond = 3 ∧ y.toInt ≤ x.toInt)
              ∨ (cond = 4 ∧ x.toNat < y.toNat) ∨ (cond = 5 ∧ y.toNat ≤ x.toNat) then 1 else 0))

/-- Where the sequencer of core c fetches it, sq.li writes its 64-bit constant, sq.desc writes base and extent of a
descriptor, sq.mark sets the layer to the record's LAYER_BASE plus its LAYER modulo 2^16 and the op, sq.phase sets
the phase, sq.rds writes the item of the sequencer state that its index names (flags once every earlier instruction
has completed; the two readings of DEVTIME; mark; phase; the open group's deadline and number; context; 16,384;
core; 0 for any other index), and sq.wrs at index 0 clears the flags named by 1 bits, once every earlier instruction
has completed, and at any other index nothing; each passes on. The interpolated DEVTIME of index 2 is a free value. -/
def Obligations.SequencerMoves : Prop :=
  ∀ (s : State) (c : Fin 264) (n : Nat) (r : Run) (g : Regs) (t : State),
    let runs (i : Instr) (u : State) : Prop := Fetches s c i n r g t → Sys2Proof.Machine.exec i s = .next u
    (∀ (sD : BitVec 5) (v : W64), runs (.sqLi c sD v) (t.pass c 2 (fun h => h.setS sD.toNat v)))
      ∧ (∀ (aD : BitVec 4) (sB sE : BitVec 5), runs (.sqDesc c aD sB sE) (t.pass c 1 (fun h => { h with a := Tab.put h.a aD.toNat (h.getS sB.toNat, h.getS sE.toNat) })))
      ∧ (∀ layer op : BitVec 16, runs (.sqMark c layer op) (t.pass c 1 (fun h => { h with layer := r.sub.layerBase + layer, op := op })))
      ∧ (∀ ph : BitVec 3, runs (.sqPhase c ph) (t.pass c 1 (fun h => { h with phase := ph })))
      ∧ (∀ (sD : BitVec 5) (i : BitVec 8), (i = 0 → (t.x c).drained = true) →
        runs (.sqRds c sD i) ((if i = 2 then t.drawn else t).pass c 1 (fun h => h.setS sD.toNat (
              if i = 0 then g.flags.word else if i = 1 then BitVec.ofNat 64 t.time else if i = 2 then BitVec.ofNat 64 t.nowNs
              else if i = 3 then BitVec.ofNat 64 (g.layer.toNat * 65536 + g.op.toNat) else if i = 4 then g.phase.setWidth 64
              else if i = 5 then BitVec.ofNat 64 (r.groupDeadline (t.x c).groupNo)
              else if i = 6 then BitVec.ofNat 64 (t.x c).groupNo else if i = 7 then BitVec.ofNat 64 n
              else if i = 8 then 16384 else if i = 9 then BitVec.ofNat 64 c.val else 0))))
      ∧ (∀ (i : BitVec 8) (sS : BitVec 5), (i = 0 → (t.x c).drained = true) →
        runs (.sqWrs c i sS) (t.pass c 1 (fun h => if i = 0 then { h with flags := h.flags.clear (h.getS sS.toNat) } else h)))

/-- Where the sequencer of core c fetches it, its eight bytes lie inside the descriptor's extent at an 8-byte aligned
address, and neither a tag nor an earlier access holds it, sq.ld writes the little-endian number read at base plus
offset into sD, and sq.st writes the eight little-endian bytes of sV at base plus offset; each passes on. The read
and the write are those of the core's own partition through translation; the premises say that neither meets a
poisoned entry or poisoned bytes. -/
def Obligations.ScalarLoadsAndStores : Prop :=
  ∀ (s : State) (c : Fin 264) (n : Nat) (r : Run) (g : Regs) (t : State) (aS : BitVec 4) (sO : BitVec 5),
    let runs (i : Instr) (u : State) : Prop := Fetches s c i n r g t → Sys2Proof.Machine.exec i s = .next u
    let off := (g.getS sO.toNat).toNat
    let va := (g.getA aS.toNat).1.toNat + off
    let w := t.who c g
    off + 8 ≤ (g.getA aS.toNat).2.toNat → va % 8 = 0 →
    (∀ sD : BitVec 5, t.ldstWaits c w va false = false → (t.readVirt w va 8).stop = false → anyBad (t.readVirt w va 8).bs = false →
      runs (.sqLd c sD aS sO) ((t.readVirt w va 8).s.pass c 1 (fun h =>
        h.setS sD.toNat (BitVec.ofNat 64 (leNat (plain (t.readVirt w va 8).bs))))))
    ∧ (∀ sV : BitVec 5, t.ldstWaits c w va true = false →
      let b := clean (leBytes 8 (g.getS sV.toNat).toNat)
      (t.writeVirt w va b).stop = false →
      runs (.sqSt c aS sO sV) ((t.writeVirt w va b).s.pass c 1 id))

/-- Where the sequencer of core c fetches it: sq.br with COND 0 to 6 goes to the branch word plus 8 times OFS when the
condition holds (COND 6 always, with sA and sB 0), else passes on; sq.loop with a body of at least one word and a
count below 2^32 sets the counter, drops the record that held it, and with a count of 0 goes on at E, else pushes
the record and passes on; sq.deadline closes the open group, opens the next with the deadline in sS and captures its
state, and is a preemption point; sq.yield passes on and is a preemption point; sq.halt closes the open group and
the open step and halts the core, which ends the RUN when every core has halted with its instructions complete. -/
def Obligations.SequencerControlFlow : Prop :=
  ∀ (s : State) (c : Fin 264) (n : Nat) (r : Run) (g : Regs) (t : State),
    let runs (i : Instr) (u : State) : Prop := Fetches s c i n r g t → Sys2Proof.Machine.exec i s = .next u
    (∀ (cond : BitVec 3) (sA sB : BitVec 5) (ofs : BitVec 32), cond ≠ 7 → (cond = 6 → sA = 0 ∧ sB = 0) →
      let x := g.getS sA.toNat
      let y := g.getS sB.toNat
      runs (.sqBr c cond sA sB ofs) (
        if (cond = 0 ∧ x = y) ∨ (cond = 1 ∧ x ≠ y) ∨ (cond = 2 ∧ x.toInt < y.toInt) ∨ (cond = 3 ∧ y.toInt ≤ x.toInt)
            ∨ (cond = 4 ∧ x.toNat < y.toNat) ∨ (cond = 5 ∧ y.toNat ≤ x.toNat) ∨ cond = 6
        then t.jump c { g with pc := (((g.pc : Int) + 8 * ofs.toInt) % 2 ^ 64).toNat }
        else t.pass c 1 id))
    ∧ (∀ (lN : BitVec 2) (sC : BitVec 5) (body : BitVec 16), body ≠ 0 → (g.getS sC.toNat).toNat < 2 ^ 32 →
      let v := g.getS sC.toNat
      let fin := g.pc + 8 + 8 * body.toNat
      let h := { g with loops := g.loops.filter (fun k => k.ctr ≠ lN.toNat), l := Tab.put g.l lN.toNat (v.setWidth 32) }
      runs (.sqLoop c lN sC body) (t.jump c (
        if v = 0 then { h with pc := fin }
        else { h with loops := { ctr := lN.toNat, body := g.pc + 8, fin := fin } :: h.loops }.past 1)))
    ∧ (∀ sS : BitVec 5, runs (.sqDeadline c sS) ((t.openGroup c n (g.getS sS.toNat).toNat).pausePoint c n g.pc))
    ∧ runs (.sqYield c) ((t.pass c 1 id).pausePoint c n g.pc)
    ∧ runs (.sqHalt c) (
        ((((t.closeGroup c n).coreEvent c 0x04 0).onCore c (fun p => { p with
          run := .halted, x := { p.x with step := none, regs := p.x.regs.past 1,
                                          progress := ((t.closeGroup c n).coreEvent c 0x04 0).time } })).maybeFinish n).maybeSave n)

/-- Where the sequencer of core c fetches it: sq.live with an index below LIVE_SIZE, whose 64-byte entry is fetched
through the control cache and is well formed, selects that entry (accumulator extent and nonempty ranges); sq.icinv
with a range inside the descriptor's extent, once every earlier instruction of the core has completed, drops every
line when SL exceeds 64 KiB and else the lines of its partition's contexts that the range touches. Each passes on. -/
def Obligations.LiveMapsAndCacheInvalidation : Prop :=
  ∀ (s : State) (c : Fin 264) (n : Nat) (r : Run) (g : Regs) (t : State),
    let runs (i : Instr) (u : State) : Prop := Fetches s c i n r g t → Sys2Proof.Machine.exec i s = .next u
    (∀ i : BitVec 12, i.toNat < r.liveSize →
      let a := r.liveMap + 64 * i.toNat
      let f := t.fillLine c n (t.who c g) a
      let e := plain ((f.bs.drop (a % 256)).take 64)
      f.stop = false → liveOk e = true →
      runs (.sqLive c i) (f.s.pass c 1 (fun h =>
        let l : LiveSel := { index := i.toNat, accExt := leNat (e.take 4), ranges := (liveRanges e).filter (fun q => q.2 ≠ 0) }
        { h with live := some l })))
    ∧ (∀ (aS : BitVec 4) (sO sL : BitVec 5),
      let off := (g.getS sO.toNat).toNat
      let len := (g.getS sL.toNat).toNat
      let lo := (g.getA aS.toNat).1.toNat + off
      off + len ≤ (g.getA aS.toNat).2.toNat → (t.x c).drained = true →
      runs (.sqIcinv c aS sO sL) ((t.onCore c (fun p => { p with
        cache := p.cache.filter (fun e => !(len > 65536 || ((t.ctx e.1).part = (t.ctx n).part && len ≠ 0 && 256 * e.2.1 < lo + len
          && lo < 256 * e.2.1 + 256))) })).pass c 1 id))

/-- Where the sequencer of core c fetches it, an operation with an extension word whose sB field is not 0, sq.cmp with
COND 6 or 7, sq.br with COND 7, or COND 6 and a register field that is not 0, sq.loop with a body of 0 words or a
count of 2^32 or more, and a scalar access that leaves its extent or is not aligned to 8 bytes end the RUN by a
group abort with ILLEGAL. A fetch that fails with a status code ends the RUN with it, shown for sq.yield and
sq.mark: a fetch outside the code extent and a word that spells no instruction fail with code 4. -/
def Obligations.IllegalSequencerForms : Prop :=
  ∀ (s : State) (c : Fin 264) (n : Nat) (r : Run) (g : Regs) (t : State),
    let runs (i : Instr) (u : State) : Prop := Fetches s c i n r g t → Sys2Proof.Machine.exec i s = .next u
    (∀ f : Alu, f.ext.isSome = true → f.sB ≠ 0 →
      runs (.sqAdd c f) (t.abortRun n 4) ∧ runs (.sqMul c f) (t.abortRun n 4)
        ∧ runs (.sqSra c f) (t.abortRun n 4))
    ∧ (∀ (f : Alu) (cond : BitVec 3), 6 ≤ cond.toNat →
      runs (.sqCmp c f cond) (t.abortRun n 4))
    ∧ (∀ (cond : BitVec 3) (sA sB : BitVec 5) (ofs : BitVec 32), cond = 7 ∨ (cond = 6 ∧ (sA ≠ 0 ∨ sB ≠ 0)) →
      runs (.sqBr c cond sA sB ofs) (t.abortRun n 4))
    ∧ (∀ (lN : BitVec 2) (sC : BitVec 5) (body : BitVec 16), (body = 0 ∨ 2 ^ 32 ≤ (g.getS sC.toNat).toNat) →
      runs (.sqLoop c lN sC body) (t.abortRun n 4))
    ∧ (∀ (sD : BitVec 5) (aS : BitVec 4) (sO : BitVec 5),
        let off := (g.getS sO.toNat).toNat
        ((g.getA aS.toNat).2.toNat < off + 8 ∨ ((g.getA aS.toNat).1.toNat + off) % 8 ≠ 0) →
        runs (.sqLd c sD aS sO) (t.abortRun n 4))
    ∧ (∀ i code, (∀ st : Fin 16, (s.stack st).selfRef = false) → s.issuing c = some (n, r, g) → s.fetch c n r g = (t, .fail code) → i = .sqYield c ∨ (∃ l op, i = .sqMark c l op) →
      Sys2Proof.Machine.exec i s = .next (t.abortRun n code))
    ∧ (s.issuing c = some (n, r, g) →
      (r.codeSize < g.pc + 8 → s.fetch c n r g = (s, .fail 4))
      ∧ (∀ f w, badFetch r g 1 = false → s.fillLine c n (s.who c g) (r.code + g.pc) = f → f.stop = false →
        wordAt f.bs (r.code + g.pc) = w → hasExt w = false → decodeWords c w 0 = none → s.fetch c n r g = (f.s, .fail 4)))

/-- For every instruction that issues to an engine (all of mx, at, dm, and vx.ep, vx.red, xp.def, rn.draw, db.watch;
cl.put and cl.reduce also count for the epoch rule and are left out here): where it issues and something holds its
start (a conflicting tag, an earlier access of its stack, an earlier instruction in its engine's queue, a full
engine), the command answers the state in which its record stands last in its engine's queue, its tags are taken and
the pc is past it; where its checks at issue fail with a status code, the RUN ends by a group abort with that code. -/
def Obligations.EngineInstructionsIssueOrAbort : Prop :=
  ∀ (i : Instr) (F : Form) (s t : State) (n : Nat), formOf i = some F → F.eng ≠ .coll →
    (∀ (k : Issued) (x : Exec), Issues s F.core F.words F.eng i F.ready F.check F.next n t k x → x.mayStart k = false →
      Sys2Proof.Machine.exec i s = .next (queuedOf t F.core x k))
    ∧ (∀ (r : Run) (g : Regs) (code : Nat), Fetches s F.core i n r g t → F.ready t F.core = true →
      F.check t n g = .fail code → Sys2Proof.Machine.exec i s = .next (t.abortRun n code))

/-- Where k is the oldest instruction in the queue of engine e of core c, nothing holds its start, and the core has
context n, INSTRUCTION_START answers what k's own work gives in the state in which k is in the engine and no longer
in the queue, when no stack is in self-refresh; where k's work requests the one stack that is, the stack starts to wake and k
stays queued; where k's work still waits for data of its own core, k stays queued and takes the tiles that have come
for it. A core that waits at a preemption point where a stop is wanted then stops, once nothing keeps it from it. -/
def Obligations.QueuedInstructionsStart : Prop :=
  ∀ (s v : State) (c : Fin 264) (e : Engine) (k : Issued) (rest : List Issued) (n : Nat) (F : Form),
    (s.x c).queueOf e = k :: rest → (s.x c).mayStart k = true → (s.core c).ctx = some n → formOf k.instr = some F →
    let awake := ∀ st : Fin 16, (s.stack st).selfRef = false
    let w := F.run (s.setX c ({ s.x c with queue := (s.x c).queue.filter (fun q => q.id ≠ k.id) }.begin k s.time)) c k
    (w = some (.done v) → awake → Sys2Proof.Machine.exec (.instructionStart c e) s = .next ((v.absorb c k).stopHere c))
    ∧ (∀ st : Fin 16, w = some (.done v) → (∀ j : Fin 16, (s.stack j).selfRef = decide (j = st)) →
      (v.stack st).ifBursts ≠ (s.stack st).ifBursts →
      Sys2Proof.Machine.exec (.instructionStart c e) s
        = .next (((s.onStack st (fun x => { x with waking := true })).absorb c k).stopHere c))
    ∧ (w = none → Sys2Proof.Machine.exec (.instructionStart c e) s = .next ((s.absorb c k).stopHere c))

/-- TAG_RELEASE drops the tag with its number where its owner has no more use of it. INSTRUCTION_COMPLETE, where nothing
of the instruction is left to do, counts the errors that the core corrected (a free number, log 54) and its free
count of waiting cycles, keeps a completed table load in the table shadow, drops its tags and its record, and lets
the RUN end or the context save; it waits while an expired deadline has still to act. WELL_SLOT has each well work
for the partition whose slot it is, or the round-robin choice, or the next partition with work for that well, unless
the stack sleeps, the slot is marked idle or nothing waits there, and passes to the next slot; after slot 63 the slot map is taken anew. -/
def Obligations.TagsAndInstructionsEnd : Prop :=
  ∀ (s : State) (c : Fin 264),
    (∀ (no : Nat) (g : Tag), (s.x c).tags.find? (fun q => q.no = no) = some g → s.mayRelease c g = true →
      Sys2Proof.Machine.exec (.tagRelease c no) s = .next (s.onX c (fun x => x.retag (x.tags.filter (fun q => q.no ≠ no)) s.time)))
    ∧ (∀ (id n : Nat) (k : Issued), (s.core c).ctx = some n → (s.x c).inflight.find? (fun q => q.id = id) = some k →
      s.worked c id = true → s.overdue n = false →
      let now := s.time
      Sys2Proof.Machine.exec (.instructionComplete c id) s = .next ((((((s.corrected c).countWaits n k.instr).onX c (fun x =>
        let y := (x.shadowed k.instr).moves k.eng now
        { y.retag (y.tags.filter (fun q => q.owner ≠ k.id)) now with
          inflight := y.inflight.filter (fun q => q.id ≠ k.id), puts := y.puts.filter (fun q => q.1 ≠ k.id)
          progress := now })).stopHere c).maybeFinish n).maybeSave n))
    ∧ (∀ (st : Fin 16),
      let k := s.stack st
      let rests := k.selfRef || k.waking || s.slotIdle st k.slot || k.reqs.isEmpty
      let after (q : Stk) : Stk := if k.slot = 63 then { q with slot := 0, mapNow := s.slotMap st } else { q with slot := k.slot + 1 }
      Sys2Proof.Machine.exec (.wellSlot st) s = .next (if rests then s.onStack st after
        else s.onStack st (fun q => after { q with
          reqs := s.serveWells (s.slotFor st k.slot).1 (List.range 16) q.reqs, ptr := (s.slotFor st k.slot).2, idleTick := s.time })))

/-- Where it starts: mx.form, once no earlier mx instruction is left, sets the form and empties both banks when the form
changes; mx.swap exchanges the two banks; mx.drain puts its tiles, row block by row block and slice by slice, behind
the drains that wait, and tiles enter the queue while it has room for 8, each with the entries as they are then. -/
def Obligations.MatrixFormsSwapsAndDrains : Prop :=
  ∀ (s t u : State) (c : Fin 264) (n : Nat) (k : Issued),
    (∀ f : BitVec 2, Starts s (.mxForm c f) n t k u → (u.x c).earlierMx k.id = false →
      Sys2Proof.Machine.exec (.mxForm c f) s = .next (u.onX c (fun x =>
        if f.toNat = x.form then { x with ergPos := none }
        else { x with form := f.toNat, bankA := none, bankB := none, ergPos := none })))
    ∧ (Starts s (.mxSwap c) n t k u → Sys2Proof.Machine.exec (.mxSwap c) s = .next (u.onX c (fun x => { x with active := !x.active })))
    ∧ (∀ f : MxDrain, Starts s (.mxDrain c f) n t k u →
      Sys2Proof.Machine.exec (.mxDrain c f) s = .next (u.onX c (fun x => { x with
        drains := x.drains ++ (List.range (f.rows / 16 * (f.cols / 64))).map (fun i =>
          let first := f.base k.regs + i / (f.cols / 64) * 16 * f.pitch + i % (f.cols / 64) * 64
          { id := k.id, first := first, pitch := f.pitch : DrainTile }) }.fillTiles)))

/-- Where it starts: mx.wld completes (an Erg load once the expanders are open to it and no at.dec between it and the load
before has still to run); mx.run completes (one with an Erg
operand once the expanders are open to it, and each once no earlier drain has still to read its entries); mx.nmv
completes where none of its columns meets a poisoned translation entry or, with DA, a damaged block: it writes its
results to the scratchpad, joins its flags, counts K times N and the wells' activity, and its request waits in the wells of its
stack. -/
def Obligations.MatrixLoadsRunsAndProducts : Prop :=
  ∀ (s t u : State) (c : Fin 264) (n : Nat) (k : Issued),
    (∀ f : MxWld, Starts s (.mxWld c f) n t k u →
      (f.erg = true → (u.x c).expanderOpen k.id = true ∧ (u.x c).decOpen k.id = false) →
      ∃ v, runMxWld f u c k = some (.done v) ∧ Sys2Proof.Machine.exec (.mxWld c f) s = .next v)
    ∧ (∀ f : MxRun, Starts s (.mxRun c f) n t k u → (f.sfmt = 12 ∨ f.bfmt = 12 → (u.x c).expanderOpen k.id = true) →
      (u.x c).undrained k.id (f.base k.regs) (f.m * nTile (u.x c).form) = false → ∃ v, runMxRun f u c k = some (.done v) ∧ Sys2Proof.Machine.exec (.mxRun c f) s = .next v)
    ∧ (∀ f : MxNmv, Starts s (.mxNmv c f) n t k u →
      let w := u.who c k.regs
      let a := f.args k.regs
      let st := (oneStack (u.stackMask w.part a.base (a.n * a.pitch * 64)) c).getD 0
      let x := readOp u w c k (f.vecs k.regs) f.da
      let r := nmvColumns w n st a f x.2 a.n x.1
      r.stop = false →
      let v := (r.s.writeSp c ((spAt k.regs (u.window c) f.aR.toNat (a.n * a.v * 4)).getD 0)
        (nmvBytes a.v r.cols)).addFlags c (joinAll ((r.cols.flatten).map (fun q => q.f)))
      Sys2Proof.Machine.exec (.mxNmv c f) s = .next (((v.count n 9 (a.k * a.n)).act n (actWell (tierOf f.wfmt.toNat f.vfmt.toNat).rank)
        (v.stack st).wpoint (a.k * a.n)).askWells st
        { core := c, id := k.id, part := w.part, wells := r.wells, pins := r.pins }))

/-- Where an mx.run without an Erg operand starts and no earlier drain has still to read its entries, it completes, and
afterwards accumulator entry base plus r times N_tile plus j holds the result of row r and column j (added to the
entry's old value when WA is set), every other accumulator entry is as before, and the core's form and weight banks
are as before. -/
def Obligations.RunsWriteTheirAccumulatorEntries : Prop :=
  ∀ (s t u : State) (c : Fin 264) (n : Nat) (k : Issued) (f : MxRun), Starts s (.mxRun c f) n t k u → f.sfmt ≠ 12 → f.bfmt ≠ 12 →
    let x := u.x c
    x.undrained k.id (f.base k.regs) (f.m * nTile x.form) = false →
    let w := u.who c k.regs
    let tier := x.active?.elim Tier.t32 (fun l => l.tier)
    let a := readOp u w c k (f.opA k.regs (f.k x.form tier)) f.da
    let b := if x.form = 2 then readOp a.1 w c k (f.opB k.regs) f.da else (a.1, [])
    let rs := runResults x f (f.base k.regs) a.2 b.2
    ∃ v, Sys2Proof.Machine.exec (.mxRun c f) s = .next v
      ∧ rs.length = f.m * nTile x.form
      ∧ (∀ i, i < rs.length → Tab.val 0 (v.x c).acc (f.base k.regs + i) = (rs.getD i (.pure 0)).v)
      ∧ (∀ e, e < f.base k.regs ∨ f.base k.regs + rs.length ≤ e → Tab.val 0 (v.x c).acc e = Tab.val 0 x.acc e)
      ∧ (v.x c).form = x.form ∧ (v.x c).bankA = x.bankA ∧ (v.x c).bankB = x.bankB ∧ (v.x c).active = x.active

/-- Where the sequencer of core c fetches it: vx.setvl sets VL to the lesser of sS and 16,384, writes that to sD, and
keeps the request and the registers as they were for a restore; vx.setm sets mask mD where bits 63 to 26 of sS are
0; rn.key sets the key; rn.stream sets the stream mode and the low 32 bits of sS as the step. Each passes on. -/
def Obligations.VectorState : Prop :=
  ∀ (s : State) (c : Fin 264) (n : Nat) (r : Run) (g : Regs) (t : State),
    let runs (i : Instr) (u : State) : Prop := Fetches s c i n r g t → Sys2Proof.Machine.exec i s = .next u
    (∀ sD sS : BitVec 5,
      let v := min (g.getS sS.toNat).toNat 16384
      runs (.vxSetvl c sD sS) ((t.onX c (fun x => { x with setvl := some g })).pass c 1 (fun h =>
        { h.setS sD.toNat (BitVec.ofNat 64 v) with vl := BitVec.ofNat 32 v, vlReq := g.getS sS.toNat })))
    ∧ (∀ (mD : BitVec 3) (sS : BitVec 5), (g.getS sS.toNat).toNat < 2 ^ 26 →
      runs (.vxSetm c mD sS) (t.pass c 1 (fun h => { h with m := Tab.put h.m mD.toNat (g.getS sS.toNat) })))
    ∧ (∀ sS : BitVec 5, runs (.rnKey c sS) (t.pass c 1 (fun h => { h with key := h.getS sS.toNat })))
    ∧ (∀ (mode : BitVec 1) (sS : BitVec 5), runs (.rnStream c mode sS) (t.pass c 1 (fun h => { h with lane := mode = 1, step := (h.getS sS.toNat).setWidth 32 })))

/-- Where it starts: xp.def loads the 128 bytes of its operand into its slot where they are not poisoned and make a
valid program. vx.ep with VL 0 does nothing; without a tile stream it does its work on VL elements; with one, once
VL / 1,024 tiles of the stated path have come, it takes them from the queue and does its work on them. -/
def Obligations.ElementPrograms : Prop :=
  ∀ (s t u : State) (c : Fin 264) (n : Nat) (k : Issued),
    (∀ (xN : BitVec 3) (aS : BitVec 4) (sO : BitVec 5), Starts s (.xpDef c xN aS sO) n t k u →
      let a := (k.regs.getA aS.toNat).1.toNat + (k.regs.getS sO.toNat).toNat
      let bs := (u.x c).sp.read ((ownOff (u.window c) a 128).getD 0) 128
      anyBad bs = false → (Prog.ofBytes (plain bs)).ok = true →
      Sys2Proof.Machine.exec (.xpDef c xN aS sO) s = .next (u.onRegs c (fun g => { g with xs := Tab.put g.xs xN.toNat (clean (plain bs)) })))
    ∧ (∀ (f : VxEp) (p : Prog), Starts s (.vxEp c f) n t k u → k.regs.prog f.xs.toNat = some p →
      (k.regs.vl = 0 → Sys2Proof.Machine.exec (.vxEp c f) s = .next u)
      ∧ (k.regs.vl ≠ 0 → f.tq = 0 →
        Sys2Proof.Machine.exec (.vxEp c f) s = .next (epBody u c k f p k.regs.vl.toNat k.regs.vl.toNat []))
      ∧ (k.regs.vl ≠ 0 → f.tq ≠ 0 → 1024 ∣ k.regs.vl.toNat → (u.x c).tilesReady (k.regs.vl.toNat / 1024) f.ti = some (k.regs.vl.toNat / 1024) →
        Sys2Proof.Machine.exec (.vxEp c f) s = .next (epBody (u.onX c (fun x => x.dropTiles (k.regs.vl.toNat / 1024))) c k f p k.regs.vl.toNat
          k.regs.vl.toNat ((u.x c).tileVals (k.regs.vl.toNat / 1024)))))

/-- Where it starts: vx.red with VL 0 does nothing, else reduces each group of G elements from its stream or from the
tiles that have come; rn.draw writes the words of elements 0 to VL - 1 of its stream, nothing with VL 0; db.watch
completes. Where the sequencer fetches it, db.event writes its event with its code and the low 16 bits of sS and
passes on. -/
def Obligations.ReductionsDrawsAndRecords : Prop :=
  ∀ (s t u : State) (c : Fin 264) (n : Nat) (k : Issued),
    (∀ f : VxRed, Starts s (.vxRed c f) n t k u →
      (k.regs.vl = 0 → Sys2Proof.Machine.exec (.vxRed c f) s = .next u)
      ∧ (k.regs.vl ≠ 0 → f.tq = false →
        Sys2Proof.Machine.exec (.vxRed c f) s = .next (redBody u c k f k.regs.vl.toNat k.regs.vl.toNat []))
      ∧ (k.regs.vl ≠ 0 → f.tq = true → 1024 ∣ k.regs.vl.toNat → (u.x c).tilesReady (k.regs.vl.toNat / 1024) f.ti = some (k.regs.vl.toNat / 1024) →
        Sys2Proof.Machine.exec (.vxRed c f) s = .next (redBody (u.onX c (fun x => x.dropTiles (k.regs.vl.toNat / 1024))) c k f k.regs.vl.toNat
          k.regs.vl.toNat ((u.x c).tileVals (k.regs.vl.toNat / 1024)))))
    ∧ (∀ (aD : BitVec 4) (wq : BitVec 2) (draw : BitVec 8) (sL : BitVec 5), Starts s (.rnDraw c aD wq draw sL) n t k u →
      let m := k.regs.vl.toNat
      Sys2Proof.Machine.exec (.rnDraw c aD wq draw sL) s = .next (if m = 0 then u else
        u.writeSp c ((spAt k.regs (u.window c) aD.toNat (4 * m * 2 ^ wq.toNat)).getD 0)
          (drawBytes (k.regs.draws c draw.toNat (k.regs.getS sL.toNat).toNat) m (2 ^ wq.toNat))))
    ∧ (∀ f : DbWatch, Starts s (.dbWatch c f) n t k u →
      ∃ v, runDbWatch f u c k = some (.done v) ∧ Sys2Proof.Machine.exec (.dbWatch c f) s = .next v)
    ∧ (∀ (r : Run) (g : Regs) (code : BitVec 16) (sS : BitVec 5), Fetches s c (.dbEvent c code sS) n r g t →
      Sys2Proof.Machine.exec (.dbEvent c code sS) s
        = .next ((t.coreEvent c 0x01 (code.toNat * 2 ^ 16 + (g.getS sS.toNat).toNat % 2 ^ 16)).pass c 1 id))

/-- Where it starts, its expanders are open for an Erg operand, no earlier drain has still to read its entries, and its
length entries read with reserved bits 0: at.qk whose query block and key tile lie inside the entries, and these
inside the tensors, reads both, leaves the scores in the accumulator and in its drain, and counts its widened and
matrix passes and their activity; at.pv whose tile lies inside its entry, and that inside the tensor, reads the values, P and the row
states, updates O and counts alike. -/
def Obligations.AttentionScoresAndValues : Prop :=
  ∀ (s t u : State) (c : Fin 264) (n : Nat) (k : Issued),
    let g := k.regs
    let w := u.who c g
    (∀ (f : AtQk) (s1 s2 : State) (te tf : LenEnt), Starts s (.atQk c f) n t k u →
      (f.qfmt = 12 ∨ f.kfmt = 12 → (u.x c).expanderOpen k.id = true) →
      (u.x c).undrained k.id (f.base g) (cdiv f.m 16 * 16 * 64) = false →
      (∀ K, withEntry u w c g f.aL.toNat (g.getS f.sE.toNat).toNat K = K s1 te) →
      (∀ K, withEntry s1 w c g f.aL.toNat (g.getS f.sF.toNat).toNat K = K s2 tf) →
      let j := (g.getS f.sJ.toNat).toNat
      let keys : TenRows := { d := f.aK.toNat, fmt := f.kfmt.toNat, r0 := tf.start + 64 * j, n := tileRows tf j, dim := f.dim,
                              tok := false }
      te.start + te.len ≤ rowExtent g f.aQ.toNat f.qfmt.toNat f.dim f.grp → tf.start + tf.len ≤ rowExtent g f.aK.toNat f.kfmt.toNat f.dim 1 →
      blockIn te (g.getS f.sT.toNat).toNat f.m f.grp = true → tileIn tf j = true → (keys.ranges g (s2.window c)).isSome = true →
      let kr := readTen s2 w c k keys f.da
      let qr := readTen kr.1 w c k (f.query g) f.da
      let passes := f.m * cdiv f.dim (4 * f.tier.n)
      Sys2Proof.Machine.exec (.atQk c f) s = .next ((((qkScores qr.1 c k f qr.2 kr.2).countWork w 14
        (widened f.qfmt.toNat f.kfmt.toNat)).countWork w 3 passes).actBy w (actPass f.tier.rank) passes))
    ∧ (∀ (f : AtPv) (s1 : State) (tf : LenEnt), Starts s (.atPv c f) n t k u →
      (f.pfmt = 12 ∨ f.vfmt = 12 → (u.x c).expanderOpen k.id = true) →
      (u.x c).undrained k.id (f.base g) (f.slices * f.mp * 64) = false →
      (∀ K, withEntry u w c g f.aL.toNat (g.getS f.sF.toNat).toNat K = K s1 tf) →
      let j := (g.getS f.sJ.toNat).toNat
      let nk := tileRows tf j
      let ten : TenRows := { d := f.aV.toNat, fmt := f.vfmt.toNat, r0 := tf.start + 64 * j, n := nk, dim := f.dim, tok := true }
      tf.start + tf.len ≤ rowExtent g f.aV.toNat f.vfmt.toNat f.dim 1 → tileIn tf j = true → mxExtent f.vfmt.toNat tf.start = true →
      (ten.ranges g (s1.window c)).isSome = true →
      let v := readTen s1 w c k ten f.da
      let p := readOp v.1 w c k { d := f.aP.toNat, fmt := f.pfmt.toNat, rows := f.m, cols := 64,
                                  stride := 64 * fmtBits f.pfmt.toNat / 8 } f.da
      let b := p.1.readSp w c ((spAt g (s1.window c) f.aS.toNat (16 * f.m)).getD 0) (16 * f.m)
      let passes := f.m * f.slices
      Sys2Proof.Machine.exec (.atPv c f) s = .next ((((pvAll b.1 c k f (rowStates b.2) p.2 v.2 nk).countWork w 14
        (widened f.pfmt.toNat f.vfmt.toNat)).countWork w 3 passes).actBy w (actPass f.tier.rank) passes))

/-- Where it starts: at.sm.init writes the initial state of each row; at.sm.update, with its block inside its length
entries, its positions readable and its score tiles ready on the float path, takes the tiles and writes the rows'
new states and P; at.sm.final, with its O tiles ready, takes them and writes raw O with OUT_MODE 1, and the finished
rows (with their log-sum-exp when LSE is set) without it; at.sm.merge writes the merged states and partial O rows. -/
def Obligations.AttentionSoftmax : Prop :=
  ∀ (s t u : State) (c : Fin 264) (n : Nat) (k : Issued) (f : AtSm),
    let g := k.regs
    let w := u.who c g
    let at16 := (spAt g (u.window c) f.aS.toNat (16 * f.m)).getD 0
    (Starts s (.atSmInit c f) n t k u →
      Sys2Proof.Machine.exec (.atSmInit c f) s = .next (u.writeSp c at16 (stateBytes (List.replicate f.m RowSt.init))))
    ∧ (∀ (s1 s2 s3 s4 : State) (te tf : LenEnt) (qp kp : List Nat), Starts s (.atSmUpdate c f) n t k u →
      (u.x c).tilesReady (cdiv f.m 16) false = some (cdiv f.m 16) →
      (∀ K, withEntry u w c g f.aL.toNat (g.getS f.sE.toNat).toNat K = K s1 te) →
      (∀ K, withEntry s1 w c g f.aL.toNat (g.getS f.sF.toNat).toNat K = K s2 tf) →
      let j := (g.getS f.sJ.toNat).toNat
      let tok := (g.getS f.sT.toNat).toNat
      blockIn te tok f.m f.grp = true → tileIn tf j = true →
      (∀ K, withPositions s2 w c g f.aT.toNat tok ((f.m - 1) / f.grp + 1) K = K s3 qp) →
      (∀ K, withPositions s3 w c g f.aT.toNat (tf.start + 64 * j) (tileRows tf j) K = K s4 kp) →
      let b := s4.readSp w c ((spAt g (s4.window c) f.aS.toNat (16 * f.m)).getD 0) (16 * f.m)
      Sys2Proof.Machine.exec (.atSmUpdate c f) s = .next (smWrite (b.1.onX c (fun x => x.dropTiles (cdiv f.m 16))) c f g
        (smRows f g te tf (tileRows tf j) qp kp (rowStates b.2) ((b.1.x c).tileVals (cdiv f.m 16)) (min f.m (16 * cdiv f.m 16)))))
    ∧ (Starts s (.atSmFinal c f) n t k u →
      let q := cdiv f.m 16 * cdiv f.dim 64
      (u.x c).tilesReady q false = some q →
      let b := u.readSp w c at16 (16 * f.m)
      let v := b.1.onX c (fun x => x.dropTiles q)
      let os := (List.range f.m).map (oRow ((b.1.x c).tileVals q) f.m f.dim)
      Sys2Proof.Machine.exec (.atSmFinal c f) s = .next (
        if f.om then v.writeSp c ((spAt g (v.window c) f.aO.toNat (4 * f.m * f.dim)).getD 0) (bytesOf os.flatten)
        else finWrite v c g f.aO.toNat f.aX.toNat f.ofmt.toNat f.rnd.toNat f.sat f.lse f.m f.dim
          (((rowStates b.2).zip os).map (fun p => finRow p.1 p.2))))
    ∧ (Starts s (.atSmMerge c f) n t k u →
      let off (d m : Nat) : Nat := (spAt g (u.window c) d m).getD 0
      let a := u.readSp w c (off f.aS.toNat (16 * f.m)) (16 * f.m)
      let oa := a.1.readSp w c (off f.aO.toNat (4 * f.m * f.dim)) (4 * f.m * f.dim)
      let b := oa.1.readSp w c (off f.aP.toNat (16 * f.m)) (16 * f.m)
      let ob := b.1.readSp w c (off f.aX.toNat (4 * f.m * f.dim)) (4 * f.m * f.dim)
      let rs := ((partials f.m f.dim a.2 oa.2).zip (partials f.m f.dim b.2 ob.2)).map (fun p => mergePartial p.1 p.2)
      Sys2Proof.Machine.exec (.atSmMerge c f) s = .next (((ob.1.writeSp c (off f.aS.toNat (16 * f.m)) (stateBytes (rs.map (fun r => r.v.st)))).writeSp c
        (off f.aO.toNat (4 * f.m * f.dim)) (bytesOf (rs.map (fun r => r.v.o)).flatten)).addFlags c (joinAll (rs.map (fun r => r.f)))))

/-- Where at.dec starts, its page list and its positions can be read and no page ends its group, it writes the merged
partials (raw with OUT_MODE 1, finished without), joins its flags, counts its work, notes that it broke a continued load of
Erg weights where its blocks are Erg, and asks the wells of the stacks that its pages lie in. A row that no key reached has in its raw O row free values of the page list, the positions,
the row and the column alone (log 41). -/
def Obligations.DecodeAttention : Prop :=
  ∀ (s t u s1 s2 : State) (c : Fin 264) (n : Nat) (k : Issued) (f : AtDec) (list : List Byte) (pos : List Nat),
    Starts s (.atDec c f) n t k u →
    let g := k.regs
    let w := u.who c g
    (∀ K, withCtl u w (g.getA f.aG.toNat).1.toNat (8 * f.np g) K = K s1 list) →
    (∀ K, withPositions s1 w c g f.aT.toNat 0 f.q K = K s2 pos) →
    let es := (List.range (f.np g)).map (fun i => (i, leNat ((list.drop (8 * i)).take 8)))
    let home := s2.wellAt w.part (pteAddr ((es.headD (0, 0)).2)) (4 * regionOf c)
    let s3 := if AtDec.ergs f es then s2.onX c (fun x => { x with decs := k.id :: x.decs }) else s2
    let q := readQuery s3 w n c k f (home / 16)
    let d := decPages f w n c g q.els (pos ++ List.replicate f.q 0) es
      { s := q.s, parts := none, flags := Flags.none, wide := 0, work := 0, wells := [], pins := pinsOf (home / 16) q.pins,
         stop := if q.stop then some 6 else none }
    let ps := d.parts.getD (List.replicate f.q { st := RowSt.init, o := List.replicate f.dim 0 })
    w.ctx = some n → d.stop = none →
    let wells := joinSet d.wells [home]
    Sys2Proof.Machine.exec (.atDec c f) s = .next (((((decWrite d.s c g f (fillFresh list pos f.dim ps)).addFlags c d.flags).countWork w 14 d.wide).countWork
      w 9 d.work).askAll c k.id w.part wells d.pins (joinSet [] (wells.map (fun x => x / 16))))

/-- Where it starts and its argument block reads whole and well formed: ALLOC writes the entries of the pages it
allocated, or NO_PAGE, after replacing the partition's oldest replaceable entries while it found no room and no poisoned
control read stopped it; FREE, once every earlier access has been made, and FORK change the share count of every listed
page, or change nothing and write the status, or end the group where a poisoned translation entry stops them; PREP of an
unshared page answers its own entry, and of one that is not a page BAD_PAGE. -/
def Obligations.PageAllocationAndCounts : Prop :=
  ∀ (s t u : State) (c : Fin 264) (n : Nat) (k : Issued) (aA aR aO : BitVec 4) (o : PageOps) (h b : List Byte),
    let w := u.who c k.regs
    (Starts s (.atPageAlloc c aA aR aO) n t k u → pageOps k.regs (u.window c) aA aR aO true = some o → BlockRead u c o 0 h b →
      let m := leNat (h.take 2)
      let fr := (h.getD 2 0).toNat
      let st := (h.getD 5 0).toNat
      1 ≤ m → m ≤ 64 → 1 ≤ fr → fr ≤ 32 → kvFormat (h.getD 3 0).toNat = true → kvFormat (h.getD 4 0).toNat = true → (st < 16 ∨ st = 0xFF) →
      (h.drop 6).all (fun x => x = 0) = true → 8 * m ≤ o.outLen →
      let r := u.withReclaim w (fun q => (q.allocMany w.part fr st (u.part w.part).lastAlloc m).map (fun x => (x.1, x.2)))
        (u.dirEntries w.part).length
      r.stop = false →
      Sys2Proof.Machine.exec (.atPageAlloc c aA aR aO) s = .next (match r.val with
        | none => r.s.pageEnd c o 2 0 0 []
        | some (vas, j) => (r.s.onPart w.part (fun q => { q with lastAlloc := j })).pageEnd c o 0 m 0
            (vas.map (mkPte (h.getD 3 0).toNat (h.getD 4 0).toNat fr))))
    ∧ (pageOps k.regs (u.window c) aA aR aO false = some o →
      let m := leNat (h.take 2)
      BlockRead u c o (8 * m) h b → 1 ≤ m → m ≤ 64 → (h.drop 2).all (fun x => x = 0) = true →
      (Starts s (.atPageFree c aA aR aO) n t k u → (u.x c).released k.id = true → Sys2Proof.Machine.exec (.atPageFree c aA aR aO) s = .next (
        match u.freeList w.part (words8 b) with
        | .ok v => v.pageEnd c o 0 m 0 []
        | .error (.status e) => u.pageEnd c o e 0 0 []
        | .error (.stop a) => (u.poisonRead w a).abortRun n 5))
      ∧ (Starts s (.atPageFork c aA aR aO) n t k u → Sys2Proof.Machine.exec (.atPageFork c aA aR aO) s = .next (
        match u.forkList w.part (words8 b) with
        | .ok v => v.pageEnd c o 0 m 0 []
        | .error (.status e) => u.pageEnd c o e 0 0 []
        | .error (.stop a) => (u.poisonRead w a).abortRun n 5)))
    ∧ (Starts s (.atPagePrep c aA aR aO) n t k u → pageOps k.regs (u.window c) aA aR aO true = some o → BlockRead u c o 8 h b →
      h.all (fun x => x = 0) = true → 8 ≤ o.outLen →
      let e := leNat b
      pteValid e = true → pteWell e = true → u.inSet (w.ctx.getD 0) [pteK e, pteV e] = true →
      (∀ fr q, u.pageOf w.part e = .ok fr → Tab.at? u.frames fr = some q → q.count ≤ 1 →
        Sys2Proof.Machine.exec (.atPagePrep c aA aR aO) s = .next (u.pageEnd c o 0 1 0 [e]))
      ∧ (∀ fr, u.pageOf w.part e = .error (.status 6) → u.frameOf w.part (pteAddr e) = .ok fr →
        Sys2Proof.Machine.exec (.atPagePrep c aA aR aO) s = .next (u.pageEnd c o 6 0 0 [])))

/-- Where it starts and its argument block reads whole and well formed: LOOKUP walks the chunks from the given parent
while they hit, writes the entries found, and counts its chunks and hits; INSERT, once every earlier access has been made,
inserts its chunk with its pages, or answers why it did not, or ends the group where a poisoned translation entry stops it.
Neither says what happens where a chunk record meets poison. -/
def Obligations.PrefixDirectoryOperations : Prop :=
  ∀ (s t u : State) (c : Fin 264) (n : Nat) (k : Issued) (aA aR aO : BitVec 4) (o : PageOps) (h b : List Byte),
    let w := u.who c k.regs
    (Starts s (.atPageLookup c aA aR aO) n t k u → pageOps k.regs (u.window c) aA aR aO true = some o →
      let m := leNat (h.take 2)
      let nl := leNat ((h.drop 2).take 2)
      BlockRead u c o (256 * m) h b → 1 ≤ m → m ≤ 256 → 1 ≤ nl → nl ≤ 512 → (h.drop 16).all (fun x => x = 0) = true → 8 * nl * m ≤ o.outLen →
      let x := u.lookupAll w (leNat ((h.drop 4).take 4)) nl (leNat ((h.drop 8).take 8)) ((chunks 256 m b).map words4)
      x.stop = false →
      Sys2Proof.Machine.exec (.atPageLookup c aA aR aO) s = .next (((x.s.countPart w.part 3 m).countPart w.part 4 x.hits).pageEnd c o x.status
        x.hits x.hash x.pages))
    ∧ (Starts s (.atPageInsert c aA aR aO) n t k u → (u.x c).released k.id = true → pageOps k.regs (u.window c) aA aR aO false = some o →
      let nl := leNat ((h.drop 0x14).take 2)
      BlockRead u c o (256 + 8 * nl) h b → 1 ≤ nl → nl ≤ 512 → (h.drop 0x16).all (fun x => x = 0) = true →
      let q : Chunk := { parent := leNat ((h.drop 8).take 8), model := leNat ((h.drop 0x10).take 4), nl := nl, tokens := words4 (b.take 256) }
      let x := u.insertChunk w q (words8 (b.drop 256))
      x.2 = false →
      Sys2Proof.Machine.exec (.atPageInsert c aA aR aO) s = .next (match x.1.2 with
        | .ok hash => x.1.1.pageEnd c o 0 nl hash []
        | .error (.status e) => x.1.1.pageEnd c o e 0 0 []
        | .error (.stop a) => (x.1.1.poisonRead w a).abortRun n 5))

/-- Where it starts and its reads and writes meet no poisoned translation entry: dm.copy writes the rows of its source
to its destination; dm.xpose writes the transpose's rows; each counts its bytes. dm.gather reads its indices and
copies the rows that they name, in order; it completes where every row lies inside the source's extent. -/
def Obligations.Movements : Prop :=
  ∀ (s t u s1 s2 : State) (c : Fin 264) (n : Nat) (k : Issued) (rows : List (List PByte)),
    let g := k.regs
    let w := u.who c g
    (∀ f : DmCopy, Starts s (.dmCopy c f) n t k u →
      (∀ K, readSide u w (f.src g) (List.range (f.rows g)) [] K = K s1 rows) → (∀ K, writeSide s1 w (f.dst g) 0 rows K = K s2) →
      Sys2Proof.Machine.exec (.dmCopy c f) s = .next (s2.moved w (f.rows g * f.row g)))
    ∧ (∀ f : DmXpose, Starts s (.dmXpose c f) n t k u →
      (∀ K, readSide u w (f.src g) (List.range (f.rows g)) [] K = K s1 rows) →
      (∀ K, writeSide s1 w (f.dst g) 0 ((List.range (f.cols g)).map (xposeRow f.bytes rows)) K = K s2) →
      Sys2Proof.Machine.exec (.dmXpose c f) s = .next (s2.moved w (f.rows g * f.cols g * f.bytes)))
    ∧ (∀ f : DmGather, Starts s (.dmGather c f) n t k u →
      let b := u.readSp w c ((spAt g (u.window c) f.aI.toNat (4 * f.rows g)).getD 0) (4 * f.rows g)
      gatherRows b.1 w f g 0 (wordsOf b.2) = .done s2 → Sys2Proof.Machine.exec (.dmGather c f) s = .next s2)

/-- Where it starts: dm.expand, once the expanders are open to it, completes; dm.pack, once they are and its slot's
table can be packed, completes; dm.atom, where no element meets a poisoned translation entry, applies its elements
in ascending order, writes the old values when RET is set, joins its flags and counts its bytes. Where it starts,
its image reads whole and is valid: a dm.tbl of the core, once the expanders are open to it, arrives in both
expanders; one of a stack, where no request that waits there pins it, writes the slot's other bank in the
partition's wells, which becomes current with a new generation. TABLE_BANK_SWITCH makes the written bank current;
TABLE_LOAD_RELEASE writes a held image once no block pins the bank. ERG_BLOCK_DECODE takes the next block out, the
stream queue first; a damaged one is noted, and with DAMAGE_ABORT ends the group. -/
def Obligations.ExpansionPackingAtomicsAndTables : Prop :=
  (∀ (s t u : State) (c : Fin 264) (n : Nat) (k : Issued),
    let g := k.regs
    let w := u.who c g
    let win := u.window c
    (∀ f : DmExpand, Starts s (.dmExpand c f) n t k u → (u.x c).expanderOpen k.id = true →
      ∃ v, runDmExpand f u c k = some (.done v) ∧ Sys2Proof.Machine.exec (.dmExpand c f) s = .next v)
    ∧ (∀ f : DmPack, Starts s (.dmPack c f) n t k u → (u.x c).expanderOpen k.id = true →
      packable (((u.x c).expander 0).slot f.slot.toNat).image = true →
      ∃ v, runDmPack f u c k = some (.done v) ∧ Sys2Proof.Machine.exec (.dmPack c f) s = .next v)
    ∧ (∀ f : DmAtom, Starts s (.dmAtom c f) n t k u →
      let len := f.size * f.n g
      let v := u.readSp w c ((spAt g win f.aV.toNat len).getD 0) len
      let q := if f.aop = 4 then v.1.readSp w c ((spAt g win f.aC.toNat len).getD 0) len else (v.1, [])
      let es := (List.range (f.n g)).map (fun i => (i, (numbersOf f.size v.2).getD i 0, (numbersOf f.size q.2).getD i 0))
      let o := atomElements w f.aop.toNat f.size (f.target g).va es q.1 [] Flags.none
      o.1.stop = false →
      Sys2Proof.Machine.exec (.dmAtom c f) s = .next (((if f.ret then
          o.1.s.writeSp c ((spAt g win f.aR.toNat len).getD 0) ((o.2.map (fun x => clean (leBytes f.size x))).flatten)
        else o.1.s).addFlags c o.1.f).moved w len)))
  ∧ (∀ (s t u s1 : State) (c : Fin 264) (n : Nat) (k : Issued) (bs : List Byte),
    let w := u.who c k.regs
    (∀ (aS : BitVec 4) (sO : BitVec 5), (Image.ofBytes bs).valid = true →
      (∀ K, withCtl u w ((k.regs.getA aS.toNat).1.toNat + (k.regs.getS sO.toNat).toNat) 128 K = K s1 bs) →
      (∀ slot : BitVec 4, Starts s (.dmTblCore c aS sO slot) n t k u → (u.x c).expanderOpen k.id = true →
        Sys2Proof.Machine.exec (.dmTblCore c aS sO slot) s = .next ((s1.onX c (fun x =>
          ({ x with ergPos := none }.onExpander 0 (fun e => e.takeTable slot.toNat (Image.ofBytes bs) k.id)).onExpander 1
            (fun e => e.takeTable slot.toNat (Image.ofBytes bs) k.id))).moved w 128))
      ∧ (∀ (slot : BitVec 4) (st : Fin 16), Starts s (.dmTblStack c aS sO slot st) n t k u →
        u.wellPinned w.part st slot.toNat = false →
        Sys2Proof.Machine.exec (.dmTblStack c aS sO slot st) s = .next ((s1.onPart w.part (fun p =>
          { p with wells := Tab.put p.wells (st * 16 + slot.toNat) ((p.well st slot.toNat).writeOther (Image.ofBytes bs)).switch })).moved
            w 128)))
    ∧ (∀ (x : Fin 2) (l : TblLoad), ((s.x c).expander x).load = some l →
      (l.held = false → Sys2Proof.Machine.exec (.tableBankSwitch c x) s = .next (s.onX c (fun q => q.onExpander x (fun e =>
        { e.onSlot l.slot (fun p => { p with cur := !p.cur, gen := (p.gen + 1) % 65536 }) with load := none }))))
      ∧ (l.held = true → ((s.x c).expander x).otherPinned l.slot = false →
        Sys2Proof.Machine.exec (.tableLoadRelease c x) s = .next (s.onX c (fun q => q.onExpander x (fun e =>
          { e.onSlot l.slot (fun p => p.writeOther l.image) with load := some { l with held := false } })))))
    ∧ (∀ (x : Fin 2) (b : Blk) (e : Expander), ((s.x c).expander x).next = some (b, e) → (s.core c).ctx = some n →
      let v := s.onX c (fun q => (q.onExpander x (fun _ => e)).fed b.id s.time)
      Sys2Proof.Machine.exec (.ergBlockDecode c x) s = .next (match b.out with
        | .vals _ _ => v
        | .bad cause sub =>
          let d := v.ergDamage { part := (v.ctx n).part, ctx := some n, core := some c, layer := b.layer, op := b.op } n (.core c) 2 c b.slot
            b.gen cause sub b.addr
          if b.da then d.abortRun n 6 else d)))

/-- Where the sequencer of core c fetches sy.sig or sy.set with a handle below 2^18, its update of an object granted to
the partition goes behind the updates of the object's region, leaves for the store once its release conditions hold,
and the sequencer passes on; an object that is not granted is a violation and nothing else. SIGNAL_UPDATE_APPLY
takes an update that has left and before which no other that left the same unit waits, sets or adds its value (which
decides the waits held on the object), and ends the SIGNAL record that waits for it, where the object carries no damage
and none was found on it in this tick; where the command brings damage, the object is lost instead, and the contexts
that update it in this tick, the update's own among them, and its record see code 5 (log 164). A write to the signal
window of a granted entry adds to, or sets, its object. -/
def Obligations.SignalUpdates : Prop :=
  (∀ (s : State) (c : Fin 264) (n : Nat) (r : Run) (g : Regs) (t : State) (sS sV : BitVec 5),
    (g.getS sS.toNat).toNat < 2 ^ 18 →
    let runs (i : Instr) (u : State) : Prop := Fetches s c i n r g t → Sys2Proof.Machine.exec i s = .next u
    let w := t.who c g
    let upd (set : Bool) (o : Nat × Nat) : Upd :=
      { obj := o.2, val := (g.getS sV.toNat).setWidth 32, set := set, core := some c.val, id := (t.x c).nextId, ctx := n
        sent := false }
    let behind (set : Bool) (o : Nat × Nat) : State :=
      ((t.sendUpdates o.1).onRegion o.1 (fun q => { q with updates := q.updates ++ [upd set o] })).sendUpdates o.1
    (∀ o, t.handle w.part (g.getS sS.toNat).toNat = some o →
      runs (.sySig c sS sV) ((behind false o).pass c 1 id) ∧ runs (.sySet c sS sV) ((behind true o).pass c 1 id))
    ∧ (t.handle w.part (g.getS sS.toNat).toNat = none →
      runs (.sySig c sS sV) ((t.violateBy w .foreignHandle (g.getS sS.toNat).toNat).pass c 1 id)
      ∧ runs (.sySet c sS sV) ((t.violateBy w .foreignHandle (g.getS sS.toNat).toNat).pass c 1 id)))
  ∧ (∀ (s : State) (r : Fin 4) (k : Nat) (u : Upd),
    let z := s.sendUpdates r
    (z.region r).updates[k]? = some u → u.sent = true → (∀ v ∈ (z.region r).updates.take k, v.core ≠ u.core) →
    let y := (z.onRegion r (fun q => { q with updates := q.updates.eraseIdx k })).onRegion r (Region.noteUpd z.time u)
    (∀ d ∈ z.upsets, d.spot ≠ .sig r u.obj) →
    (let v := y.sigApply (r.val, u.obj) u.val u.set u.core
     u.obj ∉ (v.region r).sigGone →
     Sys2Proof.Machine.exec (.signalUpdateApply r ⟨k, false⟩) s = .next (if u.core = none ∧ u.id ≠ 0 then v.endRec u.ctx 0 0 0 else v))
    ∧ (let q := y.drawn.sigLost (r.val, u.obj) (someUncorrectable (Config.freeWord y.free).toNat)
       let l := q.onRegion r (fun g => { g with sigGone := u.obj :: g.sigGone })
       let v := l.statuses 5 (((l.region r).sigUpds.filter (fun e => e.1 = u.obj)).map (fun e => e.2))
       Sys2Proof.Machine.exec (.signalUpdateApply r ⟨k, true⟩) s = .next (if u.core = none ∧ u.id ≠ 0 then v.endRec u.ctx 5 0 0 else v)))
  ∧ (∀ (s : State) (p : Fin 256) (r : Fin 4) (i : Fin 16384) (v : W32) (o : Nat × Nat), s.dev.st = .ready → s.windowObj p r i = some o →
    Sys2Proof.Machine.exec (.sigObjAdd p r i v) s = .next (s.sigWrite o (s.sigVal o + v) none)
      ∧ Sys2Proof.Machine.exec (.sigObjSet p r i v) s = .next (s.sigWrite o v none))

/-- Where the sequencer of core c fetches sy.wait with a handle below 2^18 of an object granted to the partition, which
carries no damage:
satisfied (equal to the target with EQ, else the difference modulo 2^32 below 2^31), it writes 1 to sD and passes
on; not satisfied, it holds the core, with the expiry tick that an interrupted wait kept, else now plus 40 ns times
the low 32 bits of sT unless these are 0, and is a preemption point. SY_WAIT_TIMEOUT past the expiry tick, and past
the tick at which the instruction executed, writes 0 and passes on, and with FT ends the RUN with status code 12; a
WAIT record past its expiry tick completes with that code. -/
def Obligations.SignalWaits : Prop :=
  (∀ (s : State) (c : Fin 264) (n : Nat) (r : Run) (g : Regs) (t : State) (f : SyWait) (o : Nat × Nat),
    (g.getS f.sS.toNat).toNat < 2 ^ 18 → t.handle (t.who c g).part (g.getS f.sS.toNat).toNat = some o →
    let runs (i : Instr) (u : State) : Prop := Fetches s c i n r g t → Sys2Proof.Machine.exec i s = .next u
    let v := (g.getS f.sV.toNat).setWidth 32
    let d := (g.getS f.sT.toNat).toNat % 2 ^ 32
    let e := if (t.x c).savedE.isSome then (t.x c).savedE else if d = 0 then none else some (t.time + 40 * d)
    let u := t.onX c (fun x => { x with savedE := none })
    let met := if f.cond then t.sigVal o = v else (t.sigVal o - v).toNat < 2 ^ 31
    (∀ d ∈ t.upsets, d.spot ≠ .sig o.1 o.2) →
    (met → runs (.syWait c f) (u.endHold c f.sD.toNat 1))
    ∧ (¬ met → runs (.syWait c f)
        ((u.onX c (fun x => { x with hold := Hold.wait f.sD (some o) v f.cond e f.ft t.time })).pausePoint c n g.pc)))
  ∧ (∀ (s : State) (c : Fin 264) (n : Nat) (sD : BitVec 5) (o : Option (Nat × Nat)) (v : W32) (eq : Bool) (e since : Nat),
    (s.core c).ctx = some n → (s.core c).run = .running → e < s.time → since < s.time →
    ((s.x c).hold = .wait sD o v eq (some e) false since → Sys2Proof.Machine.exec (.syWaitTimeout (.core c)) s = .next (s.endHold c sD.toNat 0))
    ∧ ((s.x c).hold = .wait sD o v eq (some e) true since →
      Sys2Proof.Machine.exec (.syWaitTimeout (.core c)) s = .next ((s.endHold c sD.toNat 0).abortRun n 12)))
  ∧ (∀ (s : State) (n : Fin 4096) (o : Option (Nat × Nat)) (v : W32) (eq : Bool) (e : Nat),
    (s.ctx n).hostWait = some (o, v, eq, some e) → e < s.time →
    Sys2Proof.Machine.exec (.syWaitTimeout (.ctx n)) s = .next ((s.onCtx n (fun x => { x with hostWait := none })).endRec n 12 0 0))

/-- Where the sequencer of core c fetches it and its handle is below 2^14: sy.qput of 1 to 65,536 bytes that fit the
capacity, from the core that holds the producer's end, with a free tag and no conflict, takes its tag; with room as the
producer sees it its first cell is written, and on Full it holds the core. sy.qget from the core that holds the
consumer's end, likewise, first consumes aborted packets undelivered, then writes the first cell of the head packet that
counts as written at the consumer; on Empty it holds the core. sy.qcnt writes the occupancy as its end sees it, as the
consumer's when the core holds both. From another core each is a violation and writes 0. A cell that sy.qput writes is
the next 256 bytes of its packet, and after the last one the sequencer passes on; with the last cell that sy.qget
writes, where it met neither damage nor poison, sD takes the packet's length and the sequencer passes on. -/
def Obligations.QueueInstructions : Prop :=
  (∀ (s : State) (c : Fin 264) (n : Nat) (ru : Run) (g : Regs) (t : State) (sQ sL sD : BitVec 5) (aS : BitVec 4) (off : Nat),
    let runs (i : Instr) (u : State) : Prop := Fetches s c i n ru g t → Sys2Proof.Machine.exec i s = .next u
    let h := (g.getS sQ.toNat).toNat
    let len := (g.getS sL.toNat).toNat
    let r := h / 4096
    let i := h % 4096
    let q := t.que r i
    let w := t.who c g
    let l := (t.core c).logical
    let foreign := t.violateBy w .foreignHandle h
    h < 2 ^ 14 →
    (1 ≤ len → len ≤ 65536 → spAt g (t.window c) aS.toNat len = some off →
      (q.serves w.part l = true → cellsOf len ≤ q.cap → (t.x c).portWaits (rd off len) = false →
        let held := t.holdPort c (rd off len) (.qput r i off len 0)
        (q.full len = false → runs (.syQput c sQ aS sL) (held.qputCell c))
        ∧ (q.full len = true → runs (.syQput c sQ aS sL) held))
      ∧ (q.serves w.part l = false → runs (.syQput c sQ aS sL) (foreign.endHold c 0 0))
      ∧ (q.delivers w.part l = true → (t.x c).portWaits (wr off len) = false →
        let held := (t.holdPort c (wr off len) (.qget sD r i off len 0)).setQue r i q.skipAborted
        (q.skipAborted.head.isSome = true → runs (.syQget c sD sQ aS sL) (held.qgetCell c))
        ∧ (q.skipAborted.head = none → runs (.syQget c sD sQ aS sL) held))
      ∧ (q.delivers w.part l = false → runs (.syQget c sD sQ aS sL) (foreign.endHold c sD.toNat 0)))
    ∧ (q.delivers w.part l = true → runs (.syQcnt c sD sQ) (t.endHold c sD.toNat (BitVec.ofNat 64 q.consOcc)))
    ∧ (q.delivers w.part l = false → q.serves w.part l = true → runs (.syQcnt c sD sQ) (t.endHold c sD.toNat (BitVec.ofNat 64 q.prodOcc)))
    ∧ (q.delivers w.part l = false → q.serves w.part l = false → runs (.syQcnt c sD sQ) (foreign.endHold c sD.toNat 0)))
  ∧ (∀ (s : State) (c : Fin 264) (r i off len k : Nat), (s.x c).hold = .qput r i off len k →
      let b := s.readSp (s.who c (s.regs c)) c (off + 256 * k) (min 256 (len - 256 * k))
      (len ≤ 256 * (k + 1) → s.qputCell c = (b.1.putCell r i b.2 true false).endHold c 0 0)
      ∧ (256 * (k + 1) < len →
        s.qputCell c = (b.1.putCell r i b.2 false false).onX c (fun x => { x with hold := .qput r i off len (k + 1) })))
  ∧ (∀ (s : State) (c : Fin 264) (sD : BitVec 5) (r i off len k : Nat) (p : List QCell) (b : QCell),
      (s.x c).hold = .qget sD r i off len k → (s.que r i).head = some p → p[k]? = some b →
      (∀ d ∈ s.upsets, inCell r b.no d = none) →
      let bs := (b.data.take b.used).take (len - 256 * k)
      anyBad bs = false →
      let v := s.writeSp c (off + 256 * k) bs
      (b.last = true → s.qgetCell c =
        (v.setQue r i ((v.que r i).consume [p])).endHold c sD.toNat (BitVec.ofNat 64 (packetBytes p).length))
      ∧ (b.last = false → s.qgetCell c = v.onX c (fun x => { x with hold := .qget sD r i off len (k + 1) })))

/-- SY_QPUT_RESUME and SY_QGET_RESUME take the other end's count anew; one that has room, or a packet, or that has moved a
cell already, moves all the cells that are left; a sy.qput that has none stays held. While the device is READY: a Q_CFG
write to a disabled queue binds and may enable it when an enabling write keeps the capacity rule and names cores of the
queue's partition; to an enabled queue it is dropped with an error record. QUEUE_DISABLE requests a flush and the
disable; QUEUE_FLUSH requests a flush at the producer's next packet boundary, once. QUEUE_FLUSH_DONE, once those packets
are whole and none is being taken, consumes the packets before the boundary and counts their cells, which return to the
free list; when the queue is being disabled it takes every packet, disables the queue and ends the instructions that wait
on it. That a flush waits for a packet being taken and that a resumed packet moves whole is the model's choice (logs 87
and 154). -/
def Obligations.QueueResumesAndRegisters : Prop :=
  (∀ (s : State) (c : Fin 264) (r i off len k : Nat) (sD : BitVec 5),
    ((s.x c).hold = .qput r i off len k →
      let q : Que := { s.que r i with cSeen := (s.que r i).c }
      (0 < k ∨ q.full len = false → Sys2Proof.Machine.exec (.syQputResume c) s = .next ((s.setQue r i q).qputCells c (cellsOf len - k)))
      ∧ (k = 0 → q.full len = true → Sys2Proof.Machine.exec (.syQputResume c) s = .next (s.setQue r i q)))
    ∧ ((s.x c).hold = .qget sD r i off len k →
      let q : Que := { s.que r i with wSeen := (s.que r i).w }
      let v := s.setQue r i (if k = 0 then q.skipAborted else q)
      Sys2Proof.Machine.exec (.syQgetResume c) s = .next (v.qgetCells c ((v.que r i).head.elim 0 List.length - k))))
  ∧ (∀ (s : State) (r : Fin 4) (q : Fin 4096) (v : W64), s.dev.st = .ready →
    (let old := s.que r q
     let new : Que := { old with en := v.getLsbD 56, part := fld v 48 8, prod := fld v 40 8, cons := fld v 32 8, cap := fld v 0 17
                                 prodCut := false, consCut := false }
     let ok := old.en = false ∧ (new.en = true → new.cap ≤ 65536 ∧ s.capSum r + new.cap ≤ 65536 ∧ s.owner new.prod = some new.part
           ∧ s.owner new.cons = some new.part)
     (ok → Sys2Proof.Machine.exec (.queueEnable r q v) s = .next (s.setQue r q new))
     ∧ (¬ ok → Sys2Proof.Machine.exec (.queueEnable r q v) s = .next (s.writeDropped (0x80000 + r * 0x10000 + q * 0x10))))
    ∧ (let x := s.que r q
       let asked : Que := { x with flush := some (x.flush.getD (x.packets.length + b2n x.open)) }
       (x.en = true → Sys2Proof.Machine.exec (.queueDisable r q) s = .next (s.setQue r q { asked with disable := true }))
       ∧ (x.en = false → Sys2Proof.Machine.exec (.queueDisable r q) s = .next s)
       ∧ Sys2Proof.Machine.exec (.queueFlush r q) s = .next (s.setQue r q asked)))
  ∧ (∀ (s : State) (r : Fin 4) (q : Fin 4096) (k : Nat),
    let x := s.que r q
    (if x.disable then x.flush.isSome = true ∧ x.open = false ∧ k = x.packets.length else x.flush = some k ∧ k ≤ x.packets.length) →
    s.taking r q = false →
    let gone := (x.packets.take k).foldl (fun a p => a + p.length) 0
    let y : Que := { x with wSeen := x.w, owed := x.owed + gone, flush := none }
    let v (z : Que) (d : Nat) : State := ((s.setQue r q z).countCells r q (x.owed + gone)).event (.fabric r) 0x0E
      (d + bits (r * 4096 + q) 0 13 * 2) { Work.none with part := x.part }
    (x.disable = false → Sys2Proof.Machine.exec (.queueFlushDone r q) s = .next (v y 0))
    ∧ (x.disable = true →
      let u := v { y with en := false, disable := false } 1
      Sys2Proof.Machine.exec (.queueFlushDone r q) s = .next (u.endQueueHolds r q (u.cores.map (fun p => p.1)))))

/-- Where it starts and its operand reads without a poisoned translation entry: cl.put sends its write to its
destination, or discards it when the member is lost; cl.reduce begins its reduction in the step that was open as it
issued, and contributes. A cl
instruction that has issued counts for the epoch rule. Where the sequencer fetches it: cl.step, in a partition with
a job and with no cl.reduce of the core outstanding, opens its step with the state of the instruction after it, and where
no core of the partition is in a step of that number forgets what an earlier one left (log 185);
cl.timesync sends its requests, and holds the core while it has neighbours, else writes 0 and passes on. -/
def Obligations.CollectiveInstructions : Prop :=
  (∀ (s t u s1 : State) (c : Fin 264) (n : Nat) (k : Issued) (bs : List PByte) (j : Job) (g : JobGroup),
    let w := u.who c k.regs
    w.ctx = some n →
    (∀ (f : ClPut) (d : Nat), Starts s (.clPut c f) n t k u →
      (∀ K, withData (u.usesCl n) w (k.regs.getA f.aS.toNat).1.toNat (f.len k.regs) K = K s1 bs) →
      s1.clGroup n f.jg.toNat = some (j, g) → f.dst k.regs g = some d →
      let v := if j.isLost d then s1.discardTo j d
        else (s1.putSend w.part c k.id f k.regs j d bs).actBy w actFlit (cdiv bs.length 232)
      Sys2Proof.Machine.exec (.clPut c f) s = .next (if (v.x c).nextId = (s.x c).nextId then v else v.usesCl n))
    ∧ (∀ (f : ClReduce) (st : Nat × Nat), Starts s (.clReduce c f) n t k u →
      (∀ K, withData (u.usesCl n) w (k.regs.getA f.aS.toNat).1.toNat (f.inBytes k.regs) K = K s1 bs) →
      s1.clGroup n f.jg.toNat = some (j, g) → k.step = some st →
      let v := (s1.redStart c n k f st j g bs).actBy w actElem (f.n k.regs)
      Sys2Proof.Machine.exec (.clReduce c f) s = .next (if (v.x c).nextId = (s.x c).nextId then v else v.usesCl n)))
  ∧ (∀ (s : State) (c : Fin 264) (n : Nat) (r : Run) (g : Regs) (t : State),
    let runs (i : Instr) (u : State) : Prop := Fetches s c i n r g t → Sys2Proof.Machine.exec i s = .next u
    (∀ sS sW : BitVec 5, (t.part (t.ctx n).part).job.isSome = true → (t.x c).reducing = false →
      let p := (t.ctx n).part
      let num : W32 := (g.getS sS.toNat).setWidth 32
      let v := (((t.usesCl n).onX c (fun x => { x with step := none })).newStep p (num.toNat % 2 ^ 24)).pass c 1 id
      runs (.clStep c sS sW) (v.onX c (fun x =>
        let o : OpenStep :=
          { num := num, window := (g.getS sW.toNat).setWidth 32, kidx := [], rep := 0, cap := x.capture, lanes := t.jobLanes p,
            mark := x.nextId, joins := [], acted := [], joined := (v.part p).joins }
        { x with step := some o })))
    ∧ (∀ (sD : BitVec 5) (jg : BitVec 8) (v : State) (ports : List Nat), t.startSync (t.ctx n).part jg.toNat = some (v, ports) →
      runs (.clTimesync c sD jg) (if ports = [] then (v.usesCl n).endHold c sD.toNat 0
        else (v.usesCl n).onX c (fun x => { x with hold := .timesync sD ports 0 }))))

/-- While the device is READY: a submission doorbell of the owning function with an index inside the ring sets the
ring's tail, and a completion doorbell sets the completion head and frees the slots before it; a doorbell for a
context that the function does not own is a violation of kind 7 at the doorbell's offset and nothing else; an index
beyond the ring is a dropped write with an error record. Where it is the turn of a context's partition and the
dispatcher may accept the next record of its ring, the turn passes: a record that it could read and whose fields
keep the table of R424 is accepted. RUN, SIGNAL, WAIT and TIMESYNC wait behind the records before them and begin at
once when there is none; RESET_CONTEXT begins a context reset, or joins one, and ends with it as do the records before it. A record with a field that fails
completes with RANGE and that field's offset; one that the dispatcher could not read with RANGE and DETAIL all ones. -/
def Obligations.DoorbellsAndSubmissionRecords : Prop :=
  (∀ (s : State) (fn : Fin 256) (n : Fin 4096) (i : BitVec 16), s.dev.st = .ready →
    (s.rings fn n = true → i.toNat < 2 ^ (s.ctx n).sqLog2 →
      Sys2Proof.Machine.exec (.doorbellSubmissionTail fn n i) s = .next (s.onCtx n (fun x => { x with tail := i.toNat }))
      ∧ Sys2Proof.Machine.exec (.doorbellCompletionHead fn n i) s = .next (s.onCtx n (fun x => { x with
          cqHead := i.toNat, reserved := x.reserved - (i.toNat + 2 ^ x.sqLog2 - x.cqHead) % 2 ^ x.sqLog2 })))
    ∧ (s.rings fn n = false →
      Sys2Proof.Machine.exec (.doorbellSubmissionTail fn n i) s = .next (s.violate fn n fn .droppedDoorbell (if fn = 0 then 0x1040 else 0x1000))
      ∧ Sys2Proof.Machine.exec (.doorbellCompletionHead fn n i) s = .next (s.violate fn n fn .droppedDoorbell (if fn = 0 then 0x1040 else 0x1000)))
    ∧ (s.rings fn n = true → 2 ^ (s.ctx n).sqLog2 ≤ i.toNat →
      Sys2Proof.Machine.exec (.doorbellSubmissionTail fn n i) s = .next (s.writeDropped (if fn = 0 then 0x1040 else 0x1000))))
  ∧ (∀ (s : State) (n : Fin 4096) (r : SubRec), s.mayAccept n = true →
    let t := ({ s with dev := { s.dev with lastPart := (s.ctx n).part } } : State).onCtx n (fun x =>
      { x with head := (x.head + 1) % 2 ^ x.sqLog2, reserved := x.reserved + 1 })
    (r.unread = false →
      (recFail 1 n r = none → Sys2Proof.Machine.exec (.run n r) s = .next (t.enqueue n r))
      ∧ (recFail 2 n r = none → Sys2Proof.Machine.exec (.signal n r) s = .next (t.enqueue n r))
      ∧ (recFail 3 n r = none → Sys2Proof.Machine.exec (.wait n r) s = .next (t.enqueue n r))
      ∧ (recFail 5 n r = none → Sys2Proof.Machine.exec (.timesync n r) s = .next (t.enqueue n r))
      ∧ (recFail 4 n r = none →
        let h := t.noteHang n
        let v := State.wakeFor { h with dev := { h.dev with records := h.dev.records + 1 } } n
        Sys2Proof.Machine.exec (.resetContext n r) s = .next ((v.beginReset n).onCtx n (fun x => { x with
          accepted := x.accepted ++ [{ sub := r, tick := v.time, missed := false, energy := 0 }], resetCut := x.accepted.length + 1 })))
      ∧ (∀ off, recFail 1 n r = some off → Sys2Proof.Machine.exec (.run n r) s = .next (t.post n r 3 off 0)))
    ∧ (r.unread = true → Sys2Proof.Machine.exec (.run n r) s = .next (t.post n r 3 0xFFFFFFFF 0) ∧ Sys2Proof.Machine.exec (.wait n r) s = .next (t.post n r 3 0xFFFFFFFF 0)))

/-- DISPATCH_SELECTION takes the partition's competing contexts in the order of effective deadline, held cores and
context id, selects each whose cores are free of the ones before it, preempts the running ones that are not
selected, and begins the restores that can. CONTEXT_START of a selected READY context with free startable cores,
whose deadline has not passed, and a header that passes its checks makes it RUNNING with every core at the entry; a
header that fails, neither it nor a translation entry of its image being poisoned, ends the RUN with its code and leaves
what the context keeps. CONTEXT_SAVE_DONE of a SAVING context none of whose explicit deadlines expires keeps its images,
frees its cores and counts the save; CONTEXT_RESTORE_DONE of a RESTORING context with
startable cores puts its images back and makes it RUNNING. DEADLINE_EXPIRY once the expiry tick of an explicit
deadline of the RUN or of an open group is over: with DL_POLICY ABORT the RUN ends by a group abort with code 2
(joined by a wait that times out then), else each missed deadline counts DEADLINE_MISS with an event on every core of
the set and sets code 1, and the RUN goes on, with a restart that waited. IMPLICIT_DEADLINE_EXPIRY marks each expired
implicit deadline and adds 1 to LATE_COUNT for it, and nothing else. Either first notes the expired deadlines of its kind
of the RUNs that wait behind other records, and with no other expired does nothing more. -/
def Obligations.DispatchingAndDeadlines : Prop :=
  ((∀ (s : State) (p : Fin 256),
    let ns := (s.ctxs.filter (fun x => x.2.st ≠ .free && x.2.part = p.val)).map (fun x => x.1)
    let sel := s.choose (sortBy s.ahead (ns.filter (fun n => (s.ctx n).competes))) []
    Sys2Proof.Machine.exec (.dispatchSelection p) s = .next ((s.selectEach sel ns).beginRestores ns))
  ∧ (∀ (s : State) (n : Fin 4096) (r : Run), (s.ctx n).run = some r → (s.ctx n).st = .ready → (s.ctx n).selected = true → s.startable n = true →
    (s.ctxCores n).all (fun c => (s.core c).ctx.isNone) = true → s.overdue n = false → s.barred n = false →
    let cs := s.ctxCores n
    let p := (s.ctx n).part
    let base := r.sub.op0.toNat
    let h := s.readHeaders n base cs
    let bs := plain ((h.bs.drop (base % 256)).take 64)
    let run := r.begin base (Nuo.of bs) cs.length h.s.time
    let go := h.s.onCtx n (fun x => { x with st := .running, run := some run, progTick := h.s.time })
    h.stop = false → h.s.imageStop p base (Nuo.of bs) = none →
    Sys2Proof.Machine.exec (.contextStart n) s = .next (match h.s.headerFails p base bs with
      | some code => h.s.failRun n code
      | none => (go.startCores n r.sub (Nuo.of bs).entry cs.length cs).wakeStacks (go.mappedStacks p)))
  ∧ (∀ (s : State) (n : Fin 4096), (s.ctx n).st = .saving → s.expiring n = false →
    let cs := s.heldCores n
    let t := (((s.noteLeaving n cs).onCores (fun p => { p with ctx := none, run := .idle, x := p.x.removed }) cs).count n 16 1).onCtx n (fun x =>
      { x with st := .saved, preempt := false, restart := false, saved := s.images n })
    Sys2Proof.Machine.exec (.contextSaveDone n) s = .next (t.beginRestores (t.ctxsOf (t.ctx n).part)))
  ∧ (∀ (s : State) (n : Fin 4096), (s.ctx n).st = .restoring → s.startable n = true →
    let t := s.onCtx n (fun x => { x with st := .running, restart := false, progTick := s.time })
    Sys2Proof.Machine.exec (.contextRestoreDone n) s = .next (((t.restoreCores n (t.jobLanes (s.ctx n).part) (s.ctxCores n)).onCtx n (fun x =>
      { x with saved := [] })).maybeFinish n)))
  ∧ (∀ (s : State) (n : Fin 4096),
    let dues (u : State) (implicit : Bool) : List Nat := u.dueRun true n implicit ++ u.dueGroups true n implicit
    let m := s.missAccs n 10 (s.dueAccs n false)
    (dues m false ≠ [] →
      Sys2Proof.Machine.exec (.deadlineExpiry n) s = .next (if (m.ctx n).policy = 1 then (m.waitsDue n).abortRun n 2
        else (((dues m false).foldl (fun t g => ((t.onRun n (fun r => r.miss g)).count n 10 1).ctxEvents n
          0x07 g (t.ctxCores n)) m).status n 1).restartGroup n))
    ∧ (dues m false = [] → Sys2Proof.Machine.exec (.deadlineExpiry n) s = .next m)
    ∧ Sys2Proof.Machine.exec (.implicitDeadlineExpiry n) s = .next ((dues s true).foldl (fun t g =>
        (t.onRun n (fun r => r.miss g)).count n 11 1) (s.missAccs n 11 (s.dueAccs n true))))

/-- While the device is READY and no command is in progress, and the command's checks hold in the state that holds its
words: PART_CREATE clears the translation table, JOB_VALID and the partition's record, sets BE_HORIZON to 50 ms and
makes it ACTIVE with new keys and salt; PART_RELEASE makes it RELEASING at step 1; CACHE_CLEAR frees the frames of
its pool and drops its entries; KEY_APPLY installs the staged halves and salt (a new salt drops the directory) and
clears the staging registers. -/
def Obligations.DeviceCommandsForPartitions : Prop :=
  ∀ (s : State) (p : Fin 256), s.dev.st = .ready → s.dev.hcmdBusy = false →
    let go (h : Hcmd) : State := { s.stage h with dev := { (s.stage h).dev with hcmdRej := false, hcmdWhy := 0 } }
    let h (opc : Nat) : Hcmd := hcmdOf opc p 0 (s.pfReg 0x1008) (s.pfReg 0x1010)
    (firstReason (createChecks p (s.stage (h 1))) = none →
      let t := go (h 1)
      let u := (t.drawn.clearXlat p).setPf (partReg p 6) (setFld (t.pfReg (partReg p 6)) 0 1 0)
      Sys2Proof.Machine.exec (.partCreate p) s = .next ((u.setPf (partReg p 0) (setFld (u.pfReg (partReg p 0)) 16 10 50)).setPart p { Part.fresh p with
        st := .active, key := freshKey t.free, salt := Config.freeWord t.free, violations := (t.part p).violations
        violLog := (t.part p).violLog, acts := (t.part p).acts, energy0 := spent (t.part p).acts }))
    ∧ (p.val ≠ 0 → ((s.stage (h 2)).part p).st = .active →
      Sys2Proof.Machine.exec (.partRelease p) s = .next ((((go (h 2)).onPart p (fun q => { q with st := .releasing }))).onPart p (fun q => { q with release := 1 })))
    ∧ (((s.stage (h 4)).part p).st = .active → Sys2Proof.Machine.exec (.cacheClear p) s = .next ((go (h 4)).cacheClear p))
    ∧ (((s.stage (h 8)).part p).st = .active →
      ((s.stage (h 8)).ctxsOf p).all (fun n => ((s.stage (h 8)).ctx n).isIdle && !((s.stage (h 8)).ctx n).resetting) = true →
      Sys2Proof.Machine.exec (.keyApply p) s = .next ((go (h 8)).installKeys p))

/-- While the device is READY and no command is in progress, and the command's checks hold in the state that holds its
words: XLAT_UPDATE takes its staged entries and is in progress until XLAT_UPDATE_COMPLETE, which writes them into
the partition's table; CORE_SET gives its cores to the partition and scrubs them, or takes them from it with the queue
ends that they hold; CTX_ASSIGN makes the context IDLE with its descriptor; CTX_FREE of an IDLE one frees it, but for its
counters, preferences and progress window. -/
def Obligations.DeviceCommandsForTranslationCoresAndContexts : Prop :=
  (∀ (s : State) (p : Fin 256) (n : Fin 4096) (arg0 arg1 : W64), s.dev.st = .ready → s.dev.hcmdBusy = false →
    let go (h : Hcmd) : State := { s.stage h with dev := { (s.stage h).dev with hcmdRej := false, hcmdWhy := 0 } }
    let ok (h : Hcmd) (cs : State → List (Bool × Nat)) : Prop := firstReason (cs (s.stage h)) = none
    (let h := hcmdOf 3 p 0 arg0 arg1
     ok h (xlatChecks h) →
      let es := ((go h).staged arg0 (xlatCount arg1)).map (BitVec.ofNat 64)
      let v := (go h).touchSup arg0.toNat (8 * xlatCount arg1)
      Sys2Proof.Machine.exec (.xlatUpdate p arg0 arg1) s = .next { v with dev := { v.dev with
        hcmdBusy := true, xlatPart := some (p.val, xlatFirst arg1, es) } })
    ∧ (let h := hcmdOf 5 p 0 arg0 1
       setRange h = true → (setCores h).all (fun l => ((s.stage h).owner l).isNone && ((s.stage h).phys l).isSome) = true →
      Sys2Proof.Machine.exec (.coreSetAssign p arg0) s = .next (((go h).own p (setCores h)).scrubCores (setCores h)))
    ∧ (let h := hcmdOf 5 p 0 arg0 0
       setRange h = true → (setCores h).all (fun l => (s.stage h).owner l = some p.val && !(s.stage h).inContext l) = true →
      Sys2Proof.Machine.exec (.coreSetRemove p arg0) s = .next ((go h).disown (setCores h)))
    ∧ (let h := hcmdOf 6 p n arg0 (s.pfReg 0x1010)
       ok h (assignChecks h) →
      Sys2Proof.Machine.exec (.ctxAssign n p arg0) s = .next (((go h).touchSup arg0.toNat 64).setCtx n (Ctx.assigned p ((go h).descAt arg0.toNat))))
    ∧ (let h := hcmdOf 7 0 n (s.pfReg 0x1008) (s.pfReg 0x1010)
       ((s.stage h).ctx n).isIdle = true → ((s.stage h).ctx n).resetting = false →
      let x := (go h).ctx n
      Sys2Proof.Machine.exec (.ctxFree n) s = .next (((go h).detachUpds n).setCtx n { Ctx.fresh with
        counters := x.counters, acts := x.acts, prefs := x.prefs, progEn := x.progEn, progWin := x.progWin })))
  ∧ (∀ (s : State) (p first : Nat) (es : List W64), s.dev.xlatPart = some (p, first, es) → p ≠ 0 →
    let t : State := { s with dev := { s.dev with hcmdBusy := false, xlatPart := none } }
    Sys2Proof.Machine.exec .xlatUpdateComplete s = .next (((t.touchSup (t.xlatBase p + 8 * first) (8 * es.length)).writePhys t.supKey
      (t.xlatBase p + 8 * first) (clean ((es.map (fun e => leBytes 8 e.toNat)).flatten))).onPart p (fun q => { q with
        mapped := t.newMapped p first (es.map BitVec.toNat) })))

/-- A device command before the device is READY changes nothing; while another is in progress it is a dropped write with
an error record; where one of its checks fails, the state holds its words and is otherwise as it was but for
HCMD_REJ and the REASON of the first check that fails: memory, partitions, contexts, cores and owners are as before.
Stated for PART_CREATE, PART_RELEASE, XLAT_UPDATE, CACHE_CLEAR and CTX_FREE. -/
def Obligations.DeviceCommandsAreRejectedInOrder : Prop :=
  ∀ (s : State) (p : Fin 256) (n : Fin 4096) (a b : W64) (i : Instr) (h : Hcmd) (cs : State → List (Bool × Nat)),
    ((i, h) = (.partCreate p, hcmdOf 1 p 0 (s.pfReg 0x1008) (s.pfReg 0x1010)) ∧ cs = createChecks p)
      ∨ ((i, h) = (.partRelease p, hcmdOf 2 p 0 (s.pfReg 0x1008) (s.pfReg 0x1010)) ∧ cs = fun t => [(p.val ≠ 0 && t.isActive p, 2)])
      ∨ ((i, h) = (.xlatUpdate p a b, hcmdOf 3 p 0 a b) ∧ cs = xlatChecks h)
      ∨ ((i, h) = (.cacheClear p, hcmdOf 4 p 0 (s.pfReg 0x1008) (s.pfReg 0x1010)) ∧ cs = fun t => [(t.isActive p, 2)])
      ∨ ((i, h) = (.ctxFree n, hcmdOf 7 0 n (s.pfReg 0x1008) (s.pfReg 0x1010))
          ∧ cs = fun t => [((t.ctx n).isIdle && !(t.ctx n).resetting, 8)]) →
    (s.dev.st ≠ .ready → Sys2Proof.Machine.exec i s = .next s)
    ∧ (s.dev.st = .ready → s.dev.hcmdBusy = true → Sys2Proof.Machine.exec i s = .next (s.writeDropped 0x1000))
    ∧ (s.dev.st = .ready → s.dev.hcmdBusy = false → ∀ why, firstReason (cs (s.stage h)) = some why →
      ∃ t, Sys2Proof.Machine.exec i s = .next t ∧ t.dev.hcmdRej = true ∧ t.dev.hcmdWhy = why ∧ t.mem = s.mem ∧ t.unitKey = s.unitKey ∧ t.frames = s.frames
        ∧ t.parts = s.parts ∧ t.ctxs = s.ctxs ∧ t.cores = s.cores ∧ t.owners = s.owners
        ∧ ∀ off, off ≠ 0x1000 → off ≠ 0x1008 → off ≠ 0x1010 → t.pfReg off = s.pfReg off)

/-- PART_RELEASE_STEP_DONE begins the next step once the step in progress has done its work. MEMORY_ZEROING_DONE of a
stack that the partition's release zeroes gives every unit of the partition's pages there the cleared state.
CORE_SCRUB_DONE of a core under scrub leaves its storage zero but for the capture slot, and a context that waits for
it restarts its group. JOB_VALID written 1 applies the record that keeps the rules, else is a dropped write; written
0 it unbinds the job. -/
def Obligations.ReleaseZeroingScrubAndJobs : Prop :=
  ∀ (s : State) (p : Fin 256) (st : Fin 16) (c : Fin 264),
    ((s.part p).st = .releasing → s.stepOver p = true →
      Sys2Proof.Machine.exec (.partReleaseStepDone p) s = .next (s.beginStep p ((s.part p).release + 1)))
    ∧ ((s.part p).zeroing.contains st.val = true →
      Sys2Proof.Machine.exec (.memoryZeroingDone st p) s = .next ((s.zeroPages ((s.mappedPages p).filter (fun q => q / 32768 = st.val))).onPart p
        (fun q => { q with zeroing := q.zeroing.filter (fun k => k ≠ st.val) })))
    ∧ ((s.core c).scrub = true →
      let t := s.onCore c (fun q => { q with
        scrub := false, ring := [], cache := []
        x := { Exec.zero with cap := q.x.cap, groupNo := q.x.groupNo, progress := q.x.progress, regs := if q.run = .halted then q.x.regs else Regs.zero } })
      Sys2Proof.Machine.exec (.coreScrubDone c) s = .next ((s.core c).ctx.elim t (fun n => t.restartGroup n)))
    ∧ (s.dev.st = .ready →
      let v := s.touchJob p
      (∀ j, s.readJob p = some j → Sys2Proof.Machine.exec (.jobApply p) s = .next (((((v.dropJob p).clearCl p).setValid p true)).setJob p j))
      ∧ (s.readJob p = none → Sys2Proof.Machine.exec (.jobApply p) s = .next (v.writeDropped (partReg p 6)))
      ∧ Sys2Proof.Machine.exec (.jobUnbind p) s = .next ((s.dropJob p).setValid p false))

/-- A REGISTER_WRITE of 8 aligned bytes acts on the register of its function: on one of PF BAR0 in READY or in a block
that answers earlier, on one of a VF in READY; before that it changes nothing; one of another size or alignment is a
dropped write with an error record, and one of a poisoned TLP as well with a count of AER. The tail write sets TAIL
of the error ring. In READY a slot map write sets its register, a link mode write the writable bits of LNK_CTRL and
retrains the port, which ends a pause that the register no longer obeys and cuts off members that only it reached. A register read that times out returns zeros with an error record. A window access in READY reads
or writes the bytes at WIN_BASE plus its offset; where a poisoned translation stops it, it is dropped with a record;
a read before READY gives zeros. The count of 8 bytes of a read that times out is the model's choice (log 72). -/
def Obligations.HostAccesses : Prop :=
  ∀ (s : State) (fn : Fin 256) (off : Nat) (v : W64),
    (s.dev.st = .ready ∨ (fn = 0 ∧ earlyBlock off = true) →
      (off % 8 = 0 → fn = 0 → Sys2Proof.Machine.exec (.registerWrite fn off 8 v false) s = .next (pfWrite s bySupervisor off v))
      ∧ (off % 8 = 0 → fn ≠ 0 → Sys2Proof.Machine.exec (.registerWrite fn off 8 v false) s = .next (vfWrite s fn off v))
      ∧ (∀ size, size ≠ 8 ∨ off % 8 ≠ 0 → Sys2Proof.Machine.exec (.registerWrite fn off size v false) s = .next (s.badAccess fn off))
      ∧ (∀ size, Sys2Proof.Machine.exec (.registerWrite fn off size v true) s = .next (s.poisonedTlp.writeDropped off)))
    ∧ (s.dev.st ≠ .ready → fn ≠ 0 ∨ earlyBlock off = false → ∀ size b, Sys2Proof.Machine.exec (.registerWrite fn off size v b) s = .next s)
    ∧ (∀ b, Sys2Proof.Machine.exec (.registerReadTimeout fn off b) s = .next { s.logError (.plain 8 1 0x0D 0 off) with rdata := List.replicate 8 0 })
    ∧ Sys2Proof.Machine.exec (.errTailWrite v) s = .next { s with err := { s.err with tail := fld v 0 6 } }
    ∧ (s.dev.st = .ready → ∀ (st : Fin 16) (k : Fin 8) (port : Fin 18),
      let m := s.setPf (lnkCtrl port) (v &&& BitVec.ofNat 64 lnkMask)
      let keeps := m.obeysPfc port && fld (m.pfReg (lnkCtrl port)) 33 3 = fld (s.pfReg (lnkCtrl port)) 33 3
      Sys2Proof.Machine.exec (.stkSlotMapWrite st k v) s = .next (s.setPf (slotMapOff st k) v)
      ∧ Sys2Proof.Machine.exec (.lnkModeWrite port v) s = .next (((m.onPort port (fun q =>
          { q.remode (m.linkMode port ≠ 0) with paused := q.paused && keeps })).portEvent port 0 0x0D 0).cutAll))
    ∧ (s.dev.st = .ready → ∀ (len : Nat) (data : List Byte), inBar2 off len = true → inBar2 off data.length = true →
      let va := s.winBase fn + off
      let r := s.readData (hostWho fn) va len
      let w := s.writeVirt (hostWho fn) va (clean data)
      Sys2Proof.Machine.exec (.bar2Read fn off len) s = .next { (if r.stop then r.s.poisonedEntry (hostWho fn) va len else r.s) with rdata := plain r.bs }
      ∧ Sys2Proof.Machine.exec (.bar2Write fn off data false) s = .next (if w.stop then w.s.poisonedEntry (hostWho fn) va data.length else w.s))
    ∧ (s.dev.st ≠ .ready → ∀ (len : Nat) (data : List Byte) (b : Bool),
      Sys2Proof.Machine.exec (.bar2Read fn off len) s = .next { s with rdata := List.replicate len 0 } ∧ Sys2Proof.Machine.exec (.bar2Write fn off data b) s = .next s)

/-- A function level reset begins a reset of every context of the function's partition, one that a hang of this tick stops
with that noted, drops the records in their rings and clears WIN_BASE. PERST_N asserted in READY resets every function so and resets the endpoint; deasserted, it lets
the endpoint train while PWR_GOOD is high, and in the stop it is a restart command. A restart command outside the
stop changes nothing; in the stop it begins recovery once its conditions hold, and is logged and discarded before.
An armed timer whose tick has come disarms and does what its action bits say. GO of the mailbox with a length of 1
to 4,096 reads 1; another length only sets BAD_LENGTH. -/
def Obligations.FunctionResetsTimersAndMailbox : Prop :=
  ∀ (s : State) (fn : Fin 256) (k : Fin 8) (byPerst : Bool),
    let reset (s : State) (p : Nat) : State :=
      let ns := s.ctxsOf p
      (((s.noteHangs ns).beginResets ns).dropRings ns).clearWindow p
    Sys2Proof.Machine.exec (.functionLevelReset fn) s = .next (reset s fn)
    ∧ (s.dev.st = .ready → Sys2Proof.Machine.exec .perstNAssert s = .next ((List.range 256).foldl reset s).endpointReset)
    ∧ (s.dev.st ≠ .ready → Sys2Proof.Machine.exec .perstNAssert s = .next s.endpointReset)
    ∧ (let t : State := { s with dev := { s.dev with perstN := true, linkTrain := s.dev.pwrGood, linkUp := s.dev.pwrGood } }
       (s.dev.st ≠ .powerStop → Sys2Proof.Machine.exec .perstNDeassert s = .next t ∧ Sys2Proof.Machine.exec (.restart byPerst) s = .next s)
       ∧ (s.dev.st = .powerStop → s.mayRestart = true →
         Sys2Proof.Machine.exec .perstNDeassert s = .next (t.beginRecovery .restart) ∧ Sys2Proof.Machine.exec (.restart byPerst) s = .next (s.beginRecovery .restart)))
    ∧ (s.dev.st = .powerStop → s.mayRestart = false →
      Sys2Proof.Machine.exec (.restart byPerst) s = .next (s.logIn LogEnt.restartDiscarded))
    ∧ (let v := s.pfReg (tmrOff k)
       v.getLsbD 59 = true → 40 * fld v 0 59 ≤ s.time →
       let a := s.setPf (tmrOff k) (setFld v 59 1 0)
       let b := if v.getLsbD 62 then a.pulse (k % 4) else a
       let c := if v.getLsbD 61 then { b with belv := { b.belv with irqs := b.belv.irqs + 1 } } else b
       Sys2Proof.Machine.exec (.timerFire k) s = .next (if v.getLsbD 60 then c.interrupt 6 else c))
    ∧ (let v := s.pfReg 0x300000
       v.getLsbD 0 = false →
       (1 ≤ fld v 8 13 → fld v 8 13 ≤ 4096 →
         Sys2Proof.Machine.exec .mboxGo s = .next (({ s with belv := { s.belv with badLen := false } } : State).setPf 0x300000 (setFld v 0 1 1)))
       ∧ (fld v 8 13 = 0 ∨ 4096 < fld v 8 13 → Sys2Proof.Machine.exec .mboxGo s = .next { s with belv := { s.belv with badLen := true } }))

/-- A claim of a free resource makes the supervisor its holder with result 0, a claim of a held one leaves the holder
with result 1, and a number above 12 has result 2; the holder's release frees the resource. In READY, EN is set when
the supervisor holds the trace buffer and is a dropped write otherwise; SNAP copies the named ring's events, oldest
first; a write of TRACE_BUF places the buffer and clears TRACE_PTR. A SNAP record's partition and context are free
values (log 66). -/
def Obligations.ClaimsAndTheTraceBlock : Prop :=
  ∀ (s : State) (res : BitVec 8),
    let left (t : State) (r : Nat) : State := { t with belv := { t.belv with claimId := res.toNat, claimRes := r } }
    (12 < res.toNat → Sys2Proof.Machine.exec (.claimSupervisor res) s = .next (left s 2) ∧ Sys2Proof.Machine.exec (.releaseSupervisor res) s = .next (left s 2))
    ∧ (res.toNat ≤ 12 → s.holder res.toNat = 0 → Sys2Proof.Machine.exec (.claimSupervisor res) s = .next (left (s.setHolder res.toNat bySupervisor) 0))
    ∧ (res.toNat ≤ 12 → s.holder res.toNat ≠ 0 → Sys2Proof.Machine.exec (.claimSupervisor res) s = .next (left s 1))
    ∧ (res.toNat ≤ 12 → s.holder res.toNat = bySupervisor → Sys2Proof.Machine.exec (.releaseSupervisor res) s = .next (left (s.setHolder res.toNat 0) 0))
    ∧ (s.dev.st = .ready → ∀ (ty : BitVec 3) (unit : BitVec 9) (v : W64),
      (s.holder 0 = bySupervisor → Sys2Proof.Machine.exec .traceEnable s = .next (s.setPf 0x200000 (setFld (s.pfReg 0x200000) 0 1 1)))
      ∧ (s.holder 0 ≠ bySupervisor → Sys2Proof.Machine.exec .traceEnable s = .next (s.writeDropped 0x200000))
      ∧ (let t := s.setPf 0x200000 (setFld (setFld (s.pfReg 0x200000) 25 3 ty.toNat) 16 9 unit.toNat)
         let r := s.ringOf ty.toNat unit.toNat
         Sys2Proof.Machine.exec (.traceSnap ty unit) s = .next (t.snapEvents r.2 r.1))
      ∧ Sys2Proof.Machine.exec (.traceBufWrite v) s = .next ((s.setPf 0x200008 (v &&& bufMask)).setPf 0x200010 0))

/-- A fault of an ACTIVE core whose turn it is in this tick (no fault of a higher core of its region has been taken in it)
writes its record, counts a fence, passes the logical core to the lowest spare of its region or out of its partition,
notes the FENCE events, and lets the context restart its group unless the core had halted with its work done; a fault of
a SPARE core fences it. The scoreboard watchdog is such a fault when the engine that holds the oldest tag awaits nothing
from outside the core and has stood for its window. A core whose corrected errors of the last second reached CE_LIMIT
gives its work away where its context stands still, at once or later. SELFTEST of a FENCED or SPARE core begins its test,
of an ACTIVE one after its work has moved to a spare, and of one that is to be fenced follows the fence (log 178); a core
that passes serves a logical core that none serves or becomes a SPARE, one that fails is FAILED. -/
def Obligations.CoreFencesAndSelfTests : Prop :=
  ∀ (s : State) (c : Fin 264) (cause : FaultCause) (pass : Bool),
    ((s.core c).st = .active → s.faultTurn c = true →
      let done := (s.core c).run = .halted && (s.x c).drained
      let t := ((((s.noteFault c).faultRecord c cause).countFence (s.core c).logical).onCore c (fun p => { p with ue := min (p.ue + 1) 65535 })).dropOutside c
      let u := (t.passOn c done !done).fenceEvents c (s.spareFor c) (s.core c).ctx
      let v := (s.core c).ctx.elim u (fun n => u.fencedCtx n !done)
      Sys2Proof.Machine.exec (.coreFence c cause) s = .next v
      ∧ (∀ tag rest, cause = .watchdog → (s.x c).tags = tag :: rest → s.awaitsNothing c tag.owner = true →
          (s.x c).watch + 524288 ≤ s.time → Sys2Proof.Machine.exec (.scoreboardWatchdogExpiry c) s = .next v))
    ∧ ((s.core c).st = .spare → s.faultTurn c = true → Sys2Proof.Machine.exec (.coreFence c cause) s =
        .next ((((s.noteFault c).faultRecord c cause).onCore c (fun p => { p.out .fenced with ue := min (p.ue + 1) 65535 })).fenceEvents
          c none none))
    ∧ (let lim := fld (s.pfReg (0x40000 + c * 0x200)) 8 8
       lim ≠ 0 → lim ≤ (s.core c).ceSum (s.time / 1000000) → (s.core c).st = .active → (s.core c).moveOut ≠ some true →
       let t := (s.onCore c PCore.toFence).stopHere c
       (t.core c).inPlace = false → (t.core c).moveOut = some true →
       (t.movable c = true → Sys2Proof.Machine.exec (.ceLimitFence c) s = .next (t.moveFenced c))
       ∧ (t.movable c = false → Sys2Proof.Machine.exec (.ceLimitFence c) s = .next t))
    ∧ (s.dev.st = .ready →
      ((s.core c).st = .fenced ∨ (s.core c).st = .spare → Sys2Proof.Machine.exec (.selftest c) s = .next (s.onCore c (fun p => { p with st := .testing })))
      ∧ ((s.core c).st = .active → (s.core c).moveOut = none → (s.core c).inPlace = false →
        (let t := s.onCore c (fun p => { p with moveOut := some false })
         (s.spareFor c).isSome = true → t.movable c = true → Sys2Proof.Machine.exec (.selftest c) s = .next (t.moveTested c))
        ∧ (s.spareFor c = none → Sys2Proof.Machine.exec (.selftest c) s = .next (s.testInPlace c)))
      ∧ ((s.core c).st = .active → (s.core c).moveOut = some true →
        Sys2Proof.Machine.exec (.selftest c) s = .next (s.onCore c (fun p => { p with testNext := true }))))
    ∧ ((s.core c).st = .testing →
      Sys2Proof.Machine.exec (.selftestDone c pass) s = .next (if pass then (s.logError (.plain 1 0 0x0B c 0)).testPassed c
        else (s.logError (.plain 1 0 0x0C c 0)).testFailed c))

/-- HANG_TEST takes the graph of waits as it stands (where taking it again gives the same graph, as it does in one
tick); at a whole millisecond, with a window that is not 0, it reports a cycle whose window has ended: the report in
the next slot, a HANG event for each member, and an abort with code 11 of each context of the cycle. A running
context with progress enabled whose window has passed without progress gets a report and the same abort, unless the
graph's test of that tick has ended its run already. CONTEXT_RESET_DONE of a context under reset advances its job's
epoch, posts the records that the reset ends, and starts the ones behind them. -/
def Obligations.HangsProgressAndContextResets : Prop :=
  ∀ (s : State) (n : Fin 4096),
    (let t := s.watchWaits
     (s.time % 1000000 ≠ 0 ∨ s.hangWindow = 0 → Sys2Proof.Machine.exec .hangTest s = .next t)
     ∧ (t.watchWaits = t → t.dueCycle = none → Sys2Proof.Machine.exec .hangTest s = .next t)
     ∧ (∀ ms k, s.time % 1000000 = 0 → s.hangWindow ≠ 0 → t.watchWaits = t → t.hang.edges.length = k + 1 → t.dueCycle = some ms →
       Sys2Proof.Machine.exec .hangTest s = .next ((((t.hangReport (t.cycleWords ms)).hangEvents ms ms).hangAborts
         (ms.filterMap (fun m => (t.core m.core).ctx)).eraseDups).hangs k)))
    ∧ (let late := fun (z : State) => (z.ctx n).progEn = true ∧ (z.ctx n).st = .running
         ∧ z.lastProgress n + max 1 (z.ctx n).progWin * 1000000 ≤ z.time
       let h := s.hangTest
       (late s → ¬ late h → Sys2Proof.Machine.exec (.progressWindowExpiry n) s = .next h)
       ∧ (late s → late h → Sys2Proof.Machine.exec (.progressWindowExpiry n) s = .next
        (let t := h.hangReport [BitVec.ofNat 64 (n.val + 2 ^ 12), BitVec.ofNat 64 h.time, 0, 0, 0, 0, 0, 0]
         (t.count n 17 1).abortRun n 11)))
    ∧ ((s.ctx n).resetting = true →
      let l := (s.ctx n).accepted
      let k := (s.ctx n).resetCut
      Sys2Proof.Machine.exec (.contextResetDone n) s = .next ((((s.epochAfter n).onCtx n (fun x => { x with
        resetting := false, resetCut := 0 })).postAfterReset n (l.take k)).startRecs n (l.drop k)))

/-- In READY a start of recovery ends all work, puts the stacks to self-refresh, counts the start with its cause and
enters stage 1 (a fatal error after three starts within 60 s stops the module instead: the model's reading of R487,
log 59); RECOVERY_CTRL.START then reads 1. During recovery only a fatal error acts: it starts recovery again. A
stage's end leads to the next one: the trace buffer is taken for the dump, the dies reset, the rails and clocks come
up and the ports train, the cores are tested and the stacks leave self-refresh, and the last ends recovery in READY. Which
cores fail their test is a free value (log 187). CRASH_DUMP in stage 2 keeps the dump, what every unit that is not silent
then holds, among the latest 8 and logs it, with an alarm for each silent unit, and gives the trace buffer back. -/
def Obligations.RecoveryAndCrashDumps : Prop :=
  ∀ (s : State) (cause : RecoveryCause) (silent : List Nat),
    (let started (s : State) : State :=
       let t := (s.endWork cause).sleepStacks (List.range 16)
       (({ t with
         pwr := { t.pwr with stopped := false }
         dev := { t.dev with
           st := .recovering, stage := 0, recStage := 1, recCount := min (t.dev.recCount + 1) 255, recCause := recoveryCode cause
           recStarts := s.time :: s.recentStarts, hcmdBusy := false, xlatPart := none } } : State).alarm alarmRecovery 0).brakeAgain cause
     (s.dev.st = .ready → cause ≠ .fatal ∨ s.recentStarts.length < 3 → Sys2Proof.Machine.exec (.moduleRecovery cause) s = .next (started s)
       ∧ (cause = .host → Sys2Proof.Machine.exec .recoveryStartWrite s = .next { started s with dev := { (started s).dev with recStart := true } }))
     ∧ (s.dev.st = .recovering → cause = .fatal → s.recentStarts.length < 3 → Sys2Proof.Machine.exec (.moduleRecovery cause) s = .next (started s)))
    ∧ (s.dev.st = .recovering → cause ≠ .fatal → Sys2Proof.Machine.exec (.moduleRecovery cause) s = .next s)
    ∧ (s.dev.st = .ready ∨ s.dev.st = .recovering → cause = .fatal → 3 ≤ s.recentStarts.length →
      Sys2Proof.Machine.exec (.moduleRecovery cause) s = .next s.powerStop)
    ∧ (s.dev.st = .recovering →
      let next (t : State) (k : Nat) : State := { t with dev := { t.dev with recStage := k } }
      (s.dev.recStage = 1 → Sys2Proof.Machine.exec .recoveryStageDone s = .next (next (s.holdTrace true) 2))
      ∧ (s.dev.recStage = 2 → Sys2Proof.Machine.exec .recoveryStageDone s = .next (next (s.holdTrace false).resetDies.bootNew 3))
      ∧ (s.dev.recStage = 3 → s.belv.running = true → s.belv.tapHold = false →
        Sys2Proof.Machine.exec .recoveryStageDone s = .next (next (s.railsGood.clocksOn.trainPorts (List.range 18)) 4))
      ∧ (s.dev.recStage = 4 → Sys2Proof.Machine.exec .recoveryStageDone s = .next (next (s.reducedTest.unsleep (List.range 16)) 5))
      ∧ (s.dev.recStage = 5 → Sys2Proof.Machine.exec .recoveryStageDone s = .next s.recovered)
      ∧ (s.dev.recStage = 2 → s.dev.dumpHold = true →
        let lost := silent.eraseDups.filter (fun u => u < 559)
        let t := (s.holdTrace false).alarms alarmUnreachable lost
        let d : Dump := { cause := s.dev.recCause, tick := s.dev.recStarts.headD 0, units := 559 - lost.length, silent := lost
                          body := ((List.range 559).filter (fun u => !lost.contains u)).map (fun u => (u, s.dumpUnit u)) }
        Sys2Proof.Machine.exec (.crashDump silent) s = .next (({ t with belv := { t.belv with dumps := (d :: t.belv.dumps).take 8 } } : State).logIn (LogEnt.dump d))))

/-- A PUT flit that arrives counts its payload and lands at its address; once every byte of its write is in, whatever
the order of its flits, the write is marked as landed and acknowledged. A flit of a FIN write is held instead, and
the write lands whole once every lower number of its source core has landed, its signals after it: as its last byte
comes, or by FIN_WRITE_RELEASE. A SIG flit is applied once its FIN write has landed and kept until then. LANDED sets
the count of writes that its source core still awaits. The marker of a write's first flit is the model's choice (log
157). -/
def Obligations.RemoteWritesLand : Prop :=
  ∀ (s t : State) (port : Fin 18) (f : Flit) (p : Nat) (j : Job),
    let seq := fld f.hdrB 48 16
    let src := f.src.toNat
    let score := f.score.toNat
    (Arrives s port 1 f p j t →
      let va := fld f.hdrB 0 48
      let h := t.inbound p src score seq va f
      let u := (t.countPart p 7 f.payload.length).onPart p (fun q =>
        { q with held := q.held.filter (fun k => !k.is src score seq) ++ [h] })
      let v := u.landBytes p va (markedBytes f)
      (f.fin = false → h.whole = false → Sys2Proof.Machine.exec (.put port f) s = .next v)
      ∧ (f.fin = false → h.whole = true → Sys2Proof.Machine.exec (.put port f) s = .next (v.landed p h))
      ∧ (f.fin = true → h.whole = false ∨ (u.landedOf p src score).next ≠ seq → Sys2Proof.Machine.exec (.put port f) s = .next u)
      ∧ (∀ w, f.fin = true → h.whole = true → (u.landedOf p src score).next = seq → u.finReady p src score = some w →
        Sys2Proof.Machine.exec (.put port f) s = .next (u.landed p w)))
    ∧ (Arrives s port 2 f p j t →
      ((t.landedOf p src score).has seq = true → Sys2Proof.Machine.exec (.sig port f) s = .next (t.applySig p (fld f.hdrB 0 18)))
      ∧ ((t.landedOf p src score).has seq = false → Sys2Proof.Machine.exec (.sig port f) s =
          .next (t.onPart p (fun q => { q with earlySig := q.earlySig ++ [(src, score, seq, fld f.hdrB 0 18)] }))))
    ∧ (Arrives s port 3 f p j t →
      let key := putKey score src
      Sys2Proof.Machine.exec (.landed port f) s = .next (t.onPart p (fun q => { q with
        unacked := Tab.put q.unacked key ((Tab.val 0 q.msgseq key + 65536 - fld f.hdrB 0 16) % 65536) })))
    ∧ (∀ (a : Fin 256) (r : Fin 4096) (c : Fin 256) h, s.finReady a r c = some h →
      Sys2Proof.Machine.exec (.finWriteRelease a r c) s = .next (s.landed a h))

/-- A RED flit that arrives from a member of its group counts its payload and joins that member's contribution in the
unit of the group's REDUCE_PORT; one from another rank is a discarded contribution. A RED_RESULT flit lands at the
output range of the reduction that waits for it and counts its payload, or is discarded. A reduction whose window
has expired is abandoned; one that has not is left alone. STEP_RETRY notes a REPEAT event and repeats the open step
that it names, or is discarded when none is open. -/
def Obligations.RemoteReductionsAndRetries : Prop :=
  ∀ (s t : State) (port : Fin 18) (f : Flit) (p : Nat) (j : Job),
    let k := RedKey.of f.hdrB
    (Arrives s port 4 f p j t → ∀ g, j.group k.jg = some g →
      let u := t.countPart p 7 f.payload.length
      (f.src.toNat ∈ g.members → Sys2Proof.Machine.exec (.red port f) s =
        .next (u.redReceive p g.port j g k (g.members.idxOf f.src.toNat) f.last (!f.badG.isEmpty) f.payload))
      ∧ (f.src.toNat ∉ g.members → Sys2Proof.Machine.exec (.red port f) s = .next (u.countPart p 8 1)))
    ∧ (Arrives s port 5 f p j t → ∀ g, j.group k.jg = some g →
      (∀ u, t.landResult p (g.members.idxOf f.src.toNat) k f.payload = some u →
        Sys2Proof.Machine.exec (.redResult port f) s = .next (u.countPart p 7 f.payload.length))
      ∧ (t.landResult p (g.members.idxOf f.src.toNat) k f.payload = none → Sys2Proof.Machine.exec (.redResult port f) s = .next (t.discardAt port)))
    ∧ (∀ i r, (s.port port).reds[i]? = some r →
      (r.got ≠ [] → r.frozen = false → r.start + 40 * r.length < s.time →
        Sys2Proof.Machine.exec (.reductionWindowExpiry port i) s = .next (s.abandon port r))
      ∧ (s.time ≤ r.start + 40 * r.length → Sys2Proof.Machine.exec (.reductionWindowExpiry port i) s = .next s))
    ∧ (Arrives s port 6 f p j t →
      let key : RedKey := { k with off := 0 }
      let join := f.hdrB.getLsbD 42
      let u := t.portEvent port p 0x0C (k.step + k.rep * 2 ^ 24 + b2n join * 2 ^ 26)
      (∀ w, u.stepRetry p f.src.toNat key join = some w → Sys2Proof.Machine.exec (.stepRetry port f) s = .next w)
      ∧ (u.stepRetry p f.src.toNat key join = none → Sys2Proof.Machine.exec (.stepRetry port f) s = .next (u.discardAt port)))

/-- RESET_NOTICE holds its sender dead. JOIN of a dead member with a new epoch rejoins it; of a lost member it changes
nothing but the event; with the dead epoch it is discarded and answered by PEER_DOWN; of a live one it gives its
epoch (log 49). PEER_DOWN that names another member at the epoch held of it holds that member dead; one that names
this module at its current epoch advances the epoch. A member dead for longer than REJOIN_MS is lost, and the
contexts with an open step of its groups abort with code 9. A port that loses alignment goes down and trains, with a
record (log 151), and neighbours that no port reaches any more are held dead and told of. -/
def Obligations.MembersComeAndGo : Prop :=
  (∀ (s t : State) (port : Fin 18) (f : Flit) (p : Nat) (j : Job),
    let r := f.src.toNat
    (Arrives s port 7 f p j t → Sys2Proof.Machine.exec (.resetNotice port f) s = .next ((t.portEvent port p 0x0D (3 + r * 2 ^ 16)).markDead p r))
    ∧ (Arrives s port 8 f p j t →
      let u := t.portEvent port p 0x0D (5 + r * 2 ^ 16)
      let e := fld f.hdrB 0 16
      ((j.member r).lost = true → Sys2Proof.Machine.exec (.join port f) s = .next u)
      ∧ ((j.member r).lost = false → (j.member r).dead = none →
        Sys2Proof.Machine.exec (.join port f) s = .next (u.setJob p (j.setMember r { j.member r with epoch := e })))
      ∧ ((j.member r).lost = false → (j.member r).dead ≠ none → (j.member r).epoch ≠ e → Sys2Proof.Machine.exec (.join port f) s = .next (u.rejoin p r e j))
      ∧ ((j.member r).lost = false → (j.member r).dead ≠ none → (j.member r).epoch = e →
        Sys2Proof.Machine.exec (.join port f) s = .next ((u.discardAt port).sendDown p r r e)))
    ∧ (Arrives s port 9 f p j t →
      let who := fld f.hdrB 0 12
      let e := fld f.hdrB 16 16
      let u := t.portEvent port p 0x0D (4 + who * 2 ^ 16)
      (who = j.rank → e = j.epoch → Sys2Proof.Machine.exec (.peerDown port f) s = .next (u.advanceEpoch p))
      ∧ (who = j.rank → e ≠ j.epoch → Sys2Proof.Machine.exec (.peerDown port f) s = .next u)
      ∧ (who ≠ j.rank → (j.member who).epoch = e → Sys2Proof.Machine.exec (.peerDown port f) s = .next (u.markDead p who))
      ∧ (who ≠ j.rank → (j.member who).epoch ≠ e → Sys2Proof.Machine.exec (.peerDown port f) s = .next u)))
  ∧ (∀ (s : State) (p : Fin 256) (rank : Fin 4096) (j : Job) (since : Nat), (s.part p).job = some j → (j.member rank).dead = some since →
      ((j.member rank).lost = false → since + j.rejoin * 1000000 < s.time →
        let t := s.setJob p (j.setMember rank { j.member rank with lost := true })
        Sys2Proof.Machine.exec (.memberLost p rank) s = .next (t.abortAll 9 (t.stepsWith p rank j)))
      ∧ (s.time ≤ since + j.rejoin * 1000000 → Sys2Proof.Machine.exec (.memberLost p rank) s = .next s))
  ∧ (∀ (s : State) (port : Fin 18), (s.port port).up = true →
      let t := (s.onPort port (fun q => { q with
        links := q.links.map (fun l => (l.1, { l.2 with nakRun := 0 })), up := false, training := true, lanes := 0 })).portEvent port 0 0x0D 0
      let t := t.logError (.plain 7 0 0x0F port 0)
      Sys2Proof.Machine.exec (.laneAlignmentLoss port) s = .next (t.cutParts (t.parts.map (fun x => x.1))))

/-- At a whole millisecond, with Belvedere running, the cap loop takes the input power, sets
persisting conditions again, clears CAP_UNREACHABLE where the input power is within the cap, ends fast limits, and
steps down above the effective cap, up where 98 % of the cap has room, and not at all between or in the first 200 µs
of the brake. What the energy model counts and attributes to no context, and what the measured input energy differs
from it by, add to the unattributed total. A region whose point differs from the one it is to run at steps by one, no
sooner than 20 µs after its last step: slower at once, unless a droop holds it; faster first by its rail, and by its
clock when the rail has settled, unless a droop holds the clock change. DROOP_DETECT stretches its core, counts and
writes the event; the droop's end notes its tick, and 10 µs of quiet take the held clock change. A fast limit of a
region relevels it, one of a stack halves its slots, with an alarm. THROTTLE_N asserted in READY or in module recovery
applies the brake; its release ends the brake. -/
def Obligations.CapLoopPointsAndDroops : Prop :=
  ∀ (s : State) (pIn pUp : Nat) (r : Fin 4) (c : Fin 264) (k : Fin 16),
    (s.time % 1000000 = 0 → s.time ≠ s.pwr.evalTick → s.belv.running = true →
      let a : State := { s with pwr := { s.pwr with pInput := pIn, evalTick := s.time, unreach := s.pwr.unreach && pIn > s.capW } }
      let b := a.persist.fastEnd
      (b.pwr.brake = true → b.time < b.pwr.brakeTick + 200000 → Sys2Proof.Machine.exec (.capLoopEvaluation pIn pUp) s = .next b)
      ∧ (b.pwr.brake = false ∨ b.pwr.brakeTick + 200000 ≤ b.time →
        (b.effectiveCap < pIn → Sys2Proof.Machine.exec (.capLoopEvaluation pIn pUp) s = .next b.capDown)
        ∧ (pIn ≤ b.effectiveCap → 100 * pUp ≤ 98 * b.effectiveCap → Sys2Proof.Machine.exec (.capLoopEvaluation pIn pUp) s = .next b.capUp)
        ∧ (pIn ≤ b.effectiveCap → 98 * b.effectiveCap < 100 * pUp → Sys2Proof.Machine.exec (.capLoopEvaluation pIn pUp) s = .next b)))
    ∧ Sys2Proof.Machine.exec (.energyReconcile pIn pUp) s = .next { s with pwr := { s.pwr with
        unattr := s.pwr.unattr + (BitVec.ofNat 64 pUp - BitVec.ofNat 64 (s.attributed - s.pwr.billed))
          + (BitVec.ofNat 64 pIn - BitVec.ofNat 64 pUp)
        billed := s.attributed } }
    ∧ (let g := s.region r
       g.pll = true → s.active (some r.val) = true → g.held = none → g.stepTick + 20000 ≤ s.time →
       (s.pointOf r < g.point → Sys2Proof.Machine.exec (.regionPointStep r) s =
         .next (s.onRegion r (fun g => { g with held := some (g.point - 1), settled := false, stepTick := s.time })))
       ∧ (g.point < s.pointOf r → s.drooping r = false → Sys2Proof.Machine.exec (.regionPointStep r) s =
         .next ((s.onRegion r (fun g => { g with point := g.point + 1, stepTick := s.time })).powerEvent r))
       ∧ (g.point < s.pointOf r → s.drooping r = true → Sys2Proof.Machine.exec (.regionPointStep r) s = .next s))
    ∧ (∀ n, (s.region r).held = some n → (s.region r).settled = false →
       (s.drooping r = true → Sys2Proof.Machine.exec (.regionPointStep r) s = .next (s.onRegion r (fun g => { g with settled := true })))
       ∧ (s.drooping r = false → Sys2Proof.Machine.exec (.regionPointStep r) s =
         .next ((s.onRegion r (fun g => { g with point := n, held := none, settled := false })).powerEvent r)))
    ∧ Sys2Proof.Machine.exec (.droopDetect c) s = .next (((s.onCore c (fun p => { p with stretch := true })).onRegion (regionOf c) (fun g =>
        { g with droops := g.droops + 1, droopTick := some s.time })).event (.fabric (regionOf c)) 0x10 c.val Work.none)
    ∧ ((s.core c).stretch = true → Sys2Proof.Machine.exec (.droopEnd c) s =
        .next ((s.onCore c (fun p => { p with stretch := false })).onRegion (regionOf c) (fun g => { g with droopTick := some s.time })))
    ∧ (∀ t, (s.region r).droopTick = some t → (∀ q ∈ s.cores, regionOf q.1 = r.val → q.2.stretch = false) → t + 10000 ≤ s.time →
        let u := s.onRegion r (fun g => { g with droopTick := none })
        ((s.region r).settled = false → Sys2Proof.Machine.exec (.droopQuietEnd r) s = .next u)
        ∧ (∀ n, (s.region r).held = some n → (s.region r).settled = true → Sys2Proof.Machine.exec (.droopQuietEnd r) s =
            .next ((u.onRegion r (fun g => { g with point := n, held := none, settled := false })).powerEvent r)))
    ∧ Sys2Proof.Machine.exec (.fastLimit (.region r)) s = .next (((s.onRegion r (fun g => { g with fast := true })).relevel r).pwrAlarm 1 r)
    ∧ Sys2Proof.Machine.exec (.fastLimit (.stack k)) s = .next ((s.onStack k (fun x => { x with fastIdle := true })).pwrAlarm 1 (16 + k))
    ∧ (let t : State := { s with dev := { s.dev with throttleN := false } }
       (s.dev.throttleN = true → s.dev.st = .ready ∨ s.dev.st = .recovering →
         Sys2Proof.Machine.exec .throttleNAssert s = .next t.applyBrake)
       ∧ (s.dev.throttleN = false ∨ (s.dev.st ≠ .ready ∧ s.dev.st ≠ .recovering) → Sys2Proof.Machine.exec .throttleNAssert s = .next t))
    ∧ Sys2Proof.Machine.exec .throttleNRelease s = .next { s with dev := { s.dev with throttleN := true }, pwr := { s.pwr with brake := false } }

/-- On an up port, a NAK frees the acknowledged flits of its path and replays the rest; the 16th in a row for one number
gives up a lane, an interface or the link. An IDLE flit in sequence frees acknowledged flits, adds the credits it
returns and sends what waited; one of a reserved type acts so and is counted and discarded; out of sequence each is
only answered with NAK, and from a remote interface beyond the 64 of its local interface each is discarded (log 183). A
flit that fails its check counts and is answered with NAK. Training that ends with lanes
takes the port up with them and replays; in start-up a RAMMO port that comes up with 7 lanes has retired one, and an
up one follows a far end that retires a lane. In an Ethernet mode a PAUSE frame is counted, and so is a frame that
is dropped; PFC on the port's priority pauses or releases it, and any other one changes nothing. A TIMESYNC request
that arrives is answered over its port with its own time, the time of its arrival and the time of the answer, or
discarded where another partition owns that port. A response to the request in progress, at most 10 ms after it, ends
it: the port holds delay and offset, each half of
a sum or difference of the four times, rounded toward zero, and every cl.timesync or TIMESYNC record that awaits the
port goes on with one more port measured; any other response is discarded. After 10 ms without an answer the port is
not valid and they go on without it. The order of the times in the payload is the model's (log 51). -/
def Obligations.LinkRetryFramesAndTime : Prop :=
  (∀ (s : State) (e : PathEnd) (port : Fin 18) (ack : BitVec 12) (a : LinkAck) (ch : BitVec 3) (cr : BitVec 4) (lanes : Fin 9) (prio : BitVec 3)
      (pause : Bool),
    let key := s.pathKey e.port e.iface e.peer.toNat
    let l := (s.port e.port).link key
    ((s.port e.port).up = true →
      (let m := l.acked ack.toNat
       let n := if m.nakAck = ack.toNat && m.nakRun ≠ 0 then m.nakRun + 1 else 1
       let t := s.onPort e.port (fun q => (q.setLink key { m with nakAck := ack.toNat, nakRun := n }).replayed key)
       (n < 16 → Sys2Proof.Machine.exec (.nak e ack) s = .next t) ∧ (16 ≤ n → Sys2Proof.Machine.exec (.nak e ack) s = .next (t.failLane e.port)))
      ∧ (let m := ({ l with expect := (l.expect + 1) % 4096, nak := false } : Link).acked a.ack.toNat
         let m := if ch.toNat < 3 then { m with credits := Tab.put m.credits ch.toNat (Tab.val 0 m.credits ch.toNat + cr.toNat) } else m
         let t := (s.onPort e.port (fun q => { q.setLink key m with rxFlits := q.rxFlits + 1 })).drain e.port
         let bad := s.onPort e.port (fun q => q.setLink key { l with nak := true })
         let r : BareFlit := { came := e, tr := { lseq := a.lseq, ack := a.ack, nak := a.nak, chan := ch, credits := cr } }
         let full := s.onPort e.port (fun q => { q with discarded := q.discarded + 1 })
         ((s.port e.port).hasPath key = true → l.expect = a.lseq.toNat → a.nak = false →
           Sys2Proof.Machine.exec (.idle e a ch cr) s = .next t ∧ Sys2Proof.Machine.exec (.reservedTypeFlit r) s = .next (t.discardAt e.port))
         ∧ ((s.port e.port).hasPath key = true → l.expect ≠ a.lseq.toNat →
           Sys2Proof.Machine.exec (.idle e a ch cr) s = .next bad ∧ Sys2Proof.Machine.exec (.reservedTypeFlit r) s = .next bad)
         ∧ ((s.port e.port).hasPath key = false →
           Sys2Proof.Machine.exec (.idle e a ch cr) s = .next full ∧ Sys2Proof.Machine.exec (.reservedTypeFlit r) s = .next full)))
    ∧ Sys2Proof.Machine.exec (.flitCrcFail e) s = .next (s.onPort e.port (fun q => { q.setLink key { l with nak := true } with crc := min (q.crc + 1) 65535 }))
    ∧ (let q := s.port port
       (q.training = true → s.linkMode port ≠ 0 → lanes.val ≠ 0 →
        let b : Port := { q with links := q.links.map (fun l => (l.1, { l.2 with nakRun := 0 })), up := true, training := false, lanes := lanes }
        Sys2Proof.Machine.exec (.linkRetrainDone port lanes) s =
          .next (((s.setPort port (b.replayAll (q.links.map (fun l => l.1)))).drain port).startLane port lanes))
       ∧ (q.training = false → q.up = true → s.linkMode port = 1 → q.lanes = 8 → lanes.val = 7 →
        Sys2Proof.Machine.exec (.linkRetrainDone port lanes) s = .next ((s.setPort port { q with lanes := 7 }).portEvent port 0 0x0D 1))
       ∧ (2 ≤ s.linkMode port →
        Sys2Proof.Machine.exec (.pauseFrame port) s = .next (s.setPort port { q with pauses := q.pauses + 1 })
        ∧ Sys2Proof.Machine.exec (.foreignEthertypeFrame { port := port, why := .etherType }) s = .next (s.setPort port { q with foreign := q.foreign + 1 })
        ∧ Sys2Proof.Machine.exec (.foreignEthertypeFrame { port := port, why := .partialFlits }) s = .next (s.setPort port { q with partials := q.partials + 1 })
        ∧ Sys2Proof.Machine.exec (.foreignEthertypeFrame { port := port, why := .badFcs }) s = .next (s.setPort port { q with badFcs := q.badFcs + 1 }))
       ∧ (let on := (s.pfReg (lnkCtrl port)).getLsbD 32 && fld (s.pfReg (lnkCtrl port)) 33 3 = prio.toNat && 2 ≤ s.linkMode port
          (on = true → Sys2Proof.Machine.exec (.pfcFrame port prio pause) s = .next ((s.setPort port { q with paused := pause }).drain port))
          ∧ (on = false → Sys2Proof.Machine.exec (.pfcFrame port prio pause) s = .next s))))
  ∧ (∀ (s t : State) (port : Fin 18) (f : Flit) (p : Nat) (j : Job) (t2 t3 t4 : W64),
    (Arrives s port 0xA f p j t →
      (let pay := leBytes 8 (syncStamp f 0) ++ leBytes 8 t2.toNat ++ leBytes 8 t3.toNat
       (t.mayEnter p port = true → Sys2Proof.Machine.exec (.timesyncRequest port f t2 t3) s =
         .next (t.portSend port p 0xA (t.pathKey port f.iface f.peer.toNat) (mkFlit j f.src.toNat 0 false true 1 (clean pay))))
       ∧ (t.mayEnter p port = false → Sys2Proof.Machine.exec (.timesyncRequest port f t2 t3) s = .next (t.discardAt port)))
      ∧ (∀ t1 : W64, (t.port port).syncT1 = some t1 →
        (t1.toNat = syncStamp f 0 → t.time ≤ (t.port port).syncAt + 10000000 →
         let a : Int := (syncStamp f 1 : Int) - t1.toNat
         let b : Int := (t4.toNat : Int) - syncStamp f 2
         Sys2Proof.Machine.exec (.timesyncResponse port f t4) s = .next ((t.onPort port (fun x => { x with
           syncT1 := none, tsValid := true, tsDelay := min ((a + b).tdiv 2).toNat 65535
           tsOffset := BitVec.ofInt 32 ((a - b).tdiv 2) })).syncPort port 1))
        ∧ (t1.toNat ≠ syncStamp f 0 ∨ (t.port port).syncAt + 10000000 < t.time →
         Sys2Proof.Machine.exec (.timesyncResponse port f t4) s = .next (t.discardAt port)))
      ∧ ((t.port port).syncT1 = none → Sys2Proof.Machine.exec (.timesyncResponse port f t4) s = .next (t.discardAt port)))
    ∧ ((s.port port).syncT1.isSome = true →
      ((s.port port).syncAt + 10000000 < s.time → Sys2Proof.Machine.exec (.timesyncNeighbourTimeout port) s =
        .next ((s.onPort port (fun x => { x with syncT1 := none, tsValid := false })).syncPort port 0))
      ∧ (s.time ≤ (s.port port).syncAt + 10000000 → Sys2Proof.Machine.exec (.timesyncNeighbourTimeout port) s = .next s)))

/-- A region's sample is its temperature; from 115 °C it trips the stop, from 105 °C it takes a step hotter with an
alarm, below 100 °C a step cooler, which clears THERMAL_THROTTLE where no region has a limit left, and between it
restarts the count of cool time. A stack does so at 110, 95 and 90 °C. Loss of coolant stops the module with an
alarm while the main rails are on or it is stopped, else it only holds RAILS; before RAILS the times of the start
count from its release. An input out of range for its time stops the module with an alarm, or in start-up turns the
main rails off; back in range, it is good again. Loss of input leaves the flash, the fuses and what is outside the
module; an overcurrent also opens the input switch. Power good starts DEVTIME and samples MODULE_ID while the switch
is closed. That start times count from the input's return is a reading (log 63). -/
def Obligations.TemperaturesCoolantAndInput : Prop :=
  ∀ (s : State) (r : Fin 4) (st : Fin 16) (temp : Nat) (m : BitVec 3),
    (let t := s.onRegion r (fun g => { g with temp := min temp 255 })
     (115 ≤ temp → Sys2Proof.Machine.exec (.thermalSample r temp) s = .next t.thermalTrip)
     ∧ (105 ≤ temp → temp < 115 →
       Sys2Proof.Machine.exec (.thermalSample r temp) s = .next (((t.onRegion r (fun g => g.hotStep s.time)).relevel r).pwrAlarm 3 r))
     ∧ (100 ≤ temp → temp < 105 → Sys2Proof.Machine.exec (.thermalSample r temp) s = .next (t.onRegion r (fun g => { g with coolTick := none })))
     ∧ (temp < 100 → Sys2Proof.Machine.exec (.thermalSample r temp) s = .next ((t.onRegion r (fun g => g.coolStep s.time)).relevel r).thermalEnd))
    ∧ (let t := s.onStack st (fun k => { k with temp := min temp 255 })
       (110 ≤ temp → Sys2Proof.Machine.exec (.stackThermalStep st temp) s = .next t.thermalTrip)
       ∧ (95 ≤ temp → temp < 110 → Sys2Proof.Machine.exec (.stackThermalStep st temp) s =
         .next ((t.onStack st (fun k => k.hotStep s.time (s.stackPoint st))).pwrAlarm 4 st))
       ∧ (90 ≤ temp → temp < 95 → Sys2Proof.Machine.exec (.stackThermalStep st temp) s = .next (t.onStack st (fun k => { k with coolTick := none })))
       ∧ (temp < 90 → Sys2Proof.Machine.exec (.stackThermalStep st temp) s = .next (t.onStack st (fun k => k.coolStep s.time (s.askedPoint st)))))
    ∧ (let t : State := { s with dev := { s.dev with flowN := false } }
       (s.railsOn = true ∨ s.dev.st = .powerStop → Sys2Proof.Machine.exec .flowLossAssert s = .next (t.powerStop.pwrAlarm 6 0))
       ∧ (s.railsOn = false → s.dev.st ≠ .powerStop → Sys2Proof.Machine.exec .flowLossAssert s = .next t))
    ∧ Sys2Proof.Machine.exec .flowLossRelease s = .next { s with dev := { s.dev with
        flowN := true, t0 := if s.dev.st = .starting && !s.dev.stages.contains .rails then s.time else s.dev.t0 } }
    ∧ (s.dev.aon = true →
      (let t : State := { s with dev := { s.dev with inputOk := false } }
       (s.dev.st = .starting → Sys2Proof.Machine.exec .inputVoltageTrip s = .next t.railsLost)
       ∧ (s.dev.st ≠ .starting → Sys2Proof.Machine.exec .inputVoltageTrip s = .next (t.powerStop.alarm alarmInput 0)))
      ∧ (s.dev.inputOk = false → Sys2Proof.Machine.exec .inputRangeReturn s = .next { s with dev := { s.dev with
          inputOk := true, t0 := if s.dev.st = .starting then s.time else s.dev.t0 } }))
    ∧ Sys2Proof.Machine.exec .inputLoss s = .next s.unpowered
    ∧ Sys2Proof.Machine.exec .inputOvercurrent s = .next { s.unpowered with dev := { s.unpowered.dev with swClosed := false } }
    ∧ Sys2Proof.Machine.exec .inputSwitchClose s = .next { s with dev := { s.dev with swClosed := true } }
    ∧ (s.dev.aon = false → s.dev.swClosed = true → Sys2Proof.Machine.exec (.powerGood m) s =
        .next { s with time := 0, dev := { s.dev with aon := true, inputOk := true, t0 := 0, moduleId := m.toNat } })

/-- A PLL whose region or module has been idle for PLL_IDLE stops; one that wakes runs again, a region at P7 (log 53). A
stack without a request for SR_IDLE, where that is not 0, enters self-refresh, and one that wakes leaves it. A stack
takes the point that it is to run at when no request is in progress; back at the point it is asked for, it is no
longer THROTTLED. PATROL_SCRUB records and marks what it found in its row, notes the row's errors, and goes to the
next row; a stack in self-refresh, or with SCRUB_HOURS 0, does not scrub. The copy of a retired bank ends with its
count, a spare less and a record. -/
def Obligations.SleepWakeAndScrub : Prop :=
  ∀ (s : State) (r : Fin 4) (st : Fin 16) (found : List ScrubFinding),
    (let g := s.region r
     (g.pll = true → s.active (some r.val) = false → s.idleFor g.idleTick = true → Sys2Proof.Machine.exec (.pllIdleStop (.region r)) s =
       .next (s.onRegion r (fun g => { g with
         pll := false, point := 7, held := none, settled := false, idleTick := none })))
     ∧ (g.waking = true → Sys2Proof.Machine.exec (.wakeDone (.region r)) s = .next (s.onRegion r (fun g => { g with pll := true, waking := false, point := 7 })))
     ∧ (g.waking = false → Sys2Proof.Machine.exec (.wakeDone (.region r)) s = .next s))
    ∧ (s.pwr.fabric = true → s.active none = false → s.idleFor s.pwr.fabricIdle = true → Sys2Proof.Machine.exec (.pllIdleStop .fabric) s =
        .next { s with pwr := { s.pwr with fabric := false, fabricIdle := none } })
    ∧ (s.pwr.fabricWake = true → Sys2Proof.Machine.exec (.wakeDone .fabric) s = .next { s with pwr := { s.pwr with fabric := true, fabricWake := false } })
    ∧ (let k := s.stack st
       (s.srIdle st ≠ 0 → k.selfRef = false → k.reqs = [] → k.idleTick + s.srIdle st ≤ s.time →
         Sys2Proof.Machine.exec (.selfRefreshEntry st) s = .next (s.onStack st (fun k => { k with selfRef := true })))
       ∧ (s.srIdle st = 0 → Sys2Proof.Machine.exec (.selfRefreshEntry st) s = .next s)
       ∧ (k.waking = true → Sys2Proof.Machine.exec (.stackWakeDone st) s =
         .next (s.onStack st (fun k => { k with selfRef := false, waking := false, idleTick := s.time })))
       ∧ (k.reqs = [] → k.selfRef = false → Sys2Proof.Machine.exec (.stackPointChange st) s = .next (s.onStack st (fun k => { k with
         wpoint := s.stackPoint st, throttle := k.throttle && !(k.thermPt = 0 && s.stackPoint st = s.askedPoint st) })))
       ∧ (k.reqs ≠ [] → Sys2Proof.Machine.exec (.stackPointChange st) s = .next s)
       ∧ (k.selfRef = true ∨ fld (s.pfReg (0x20000 + st * 0x1000)) 0 6 = 0 → Sys2Proof.Machine.exec (.patrolScrub st found) s = .next s)
       ∧ (k.selfRef = false → fld (s.pfReg (0x20000 + st * 0x1000)) 0 6 ≠ 0 →
         Sys2Proof.Machine.exec (.patrolScrub st []) s = .next (s.onStack st Stk.nextRow)
         ∧ (found ≠ [] → Sys2Proof.Machine.exec (.patrolScrub st found) s =
           .next (((s.scrubFind st found).scrubRow st k.scrubRow found).onStack st Stk.nextRow)))
       ∧ (∀ b l, k.copying = b :: l → Sys2Proof.Machine.exec (.bankRetireCopyDone st) s = .next ((s.onStack st (fun k => { k with
           copying := l, banks := min (k.banks + 1) 255, spares := k.spares - 1, rowsBank := Tab.del k.rowsBank b })).retireError
           0x08 st)))

/-- A stage of start-up that is in progress and has what it needs ends with its work done: RAILS raises PWR_GOOD,
TIMEBASE starts the clocks and the training of the ports, CORES logs its failed cores, and the last writes
START_RESULT and makes the module READY. A stage that fails leaves its failure code, RAILS with an alarm. A lockstep
mismatch resets Belvedere's processor, from boot ROM too; a reset before it ran counts against the slot that was
tried. Where the crypto engine answers what the slots give, the boot ROM takes the active slot if it accepts that,
else the other slot, else it stays in boot ROM; it accepts an image whose signature verifies, whose version is not
below the minimum and that has failed fewer than 3 times. A sample of a sensor that exists is its reading or none.
The test access port drives pins only while the main rails are off, holds RAILS then,
and gives them back in Test-Logic-Reset. -/
def Obligations.StartUpAndBoot : Prop :=
  ∀ (s : State) (bad : List Nat) (a b : Bool) (id : Nat) (v : Option Int),
    (∀ g, s.inStage g = true → s.stageReady g = true →
      let t : State := { s with dev := { s.dev with stages := s.dev.stages ++ [g] } }
      Sys2Proof.Machine.exec (.startStageDone g (.done bad)) s = .next (match g with
        | .rails => t.railsGood
        | .timebase => t.clocksOn.trainPorts (List.range 18)
        | .cores => { t with belv := t.belv.logBad bad t.time }
        | .final => ((t.mapCores).writeResult (t.time / 1000000)).serve
        | _ => t))
    ∧ (s.inStage .boot = true → Sys2Proof.Machine.exec (.startStageDone .boot .imagesBad) s =
        .next (({ s with belv := { s.belv with running := false, rom := true } } : State).failStage 0xF1))
    ∧ (s.inStage .rails = true → s.railsFree = true → Sys2Proof.Machine.exec (.startStageDone .rails .railBad) s = .next ((s.failStage 0xF2).alarm alarmRail 0))
    ∧ (s.inStage .stks = true → Sys2Proof.Machine.exec (.startStageDone .stks .stackBad) s = .next (s.failStage 0xF3))
    ∧ (s.inStage .cores = true → Sys2Proof.Machine.exec (.startStageDone .cores .fabricBad) s = .next (s.failStage 0xF4))
    ∧ (s.dev.aon = true →
      let reset (b : Belv) : State :=
        { s with belv := { b with running := false, rom := false, spdm := 0, sram := [], restarted := true } }
      (s.belv.running = true ∨ s.belv.rom = true → Sys2Proof.Machine.exec .lockstepMismatch s = .next (reset s.belv))
      ∧ (s.belv.running = false → s.belv.rom = false → Sys2Proof.Machine.exec .lockstepMismatch s = .next (reset s.belv.failedBoot)))
    ∧ (s.dev.aon = true → s.belv.running = false → s.belv.rom = false → a = s.belv.signed false → b = s.belv.signed true →
      let x := s.belv.activeB
      let ok (y : Bool) : Bool := s.belv.signed y && (s.belv.slot y).valid && s.belv.version y ≥ s.belv.minVer && (s.belv.slot y).fails < 3
      let t : State := { s with belv := { s.belv with rom := true } }
      Sys2Proof.Machine.exec (.firmwareBoot a b) s = .next (if ok x then s.bootSlotOf x else if ok (!x) then s.bootSlotOf (!x)
        else if s.dev.st = .starting then t.failStage 0xF1 else t))
    ∧ (s.serves false = true → sensorId id = true →
        Sys2Proof.Machine.exec (.sensorSample id v) s = .next { s with belv := { s.belv with sensors := Tab.put s.belv.sensors id v } })
    ∧ Sys2Proof.Machine.exec (.tapStateChange .testLogicReset) s = .next { s with belv := { s.belv with tap := .testLogicReset, tapHold := false } }
    ∧ (∀ t, drivesPins t = true →
      (s.railsOn = false → Sys2Proof.Machine.exec (.tapStateChange t) s = .next { s with belv := { s.belv with tap := t, tapHold := true } })
      ∧ (s.railsOn = true → Sys2Proof.Machine.exec (.tapStateChange t) s = .next { s with belv := { s.belv with tap := .bypass } }))

/-- An MCTP control message that arrives whole, while Belvedere runs or stays in boot ROM, is answered on its path with
completion code 0: SET_ENDPOINT_ID takes the endpoint id, GET_ENDPOINT_ID gives it, GET_MESSAGE_TYPE_SUPPORT names
the types 0, 1, 5 and 0x7F, and the version answers have bytes that the spec leaves to other standards (free, log
65). A VDM that is not accepted and an unsupported message are discarded and counted. SETDASA sets the dynamic
address 0x30 plus MODULE_ID and ENTDAA the one given; an SCL-low timeout drops it (a reading, log 69); a message
that is not complete in time leaves nothing. -/
def Obligations.MctpAndSidebandPort : Prop :=
  ∀ (s : State) (via : Path) (eid : BitVec 8) (addr : BitVec 7) (vf : Bool),
    (s.serves true = true → s.arrived via = true →
      Sys2Proof.Machine.exec (.setEndpointId via eid) s = .next (({ s with belv := { s.belv with eid := eid.toNat } } : State).answer via 0x00 0x01 0 [eid])
      ∧ Sys2Proof.Machine.exec (.getEndpointId via) s = .next (s.answer via 0x00 0x02 0 [BitVec.ofNat 8 s.belv.eid])
      ∧ Sys2Proof.Machine.exec (.getMctpVersionSupport via) s = .next (s.drawn.answer via 0x00 0x04 0 s.freeBody)
      ∧ Sys2Proof.Machine.exec (.getMessageTypeSupport via) s = .next (s.answer via 0x00 0x05 0 [0x00, 0x01, 0x05, 0x7F])
      ∧ Sys2Proof.Machine.exec (.getVendorDefinedMessageSupport via) s = .next (s.drawn.answer via 0x00 0x06 0 s.freeBody))
    ∧ (s.serves true = true → s.arrived .vdm = false →
      let t : State := { s with belv := { s.belv with discarded := min (s.belv.discarded + 1) 0xFFFFFFFF } }
      Sys2Proof.Machine.exec (.getEndpointId .vdm) s = .next t ∧ Sys2Proof.Machine.exec (.setEndpointId .vdm eid) s = .next t)
    ∧ (s.dev.aon = true →
      Sys2Proof.Machine.exec (.unsupportedMctpMessage vf) s = .next { s with belv := { s.belv with discarded := min (s.belv.discarded + 1) 0xFFFFFFFF } }
      ∧ Sys2Proof.Machine.exec .setdasa s = .next { s with belv := { s.belv with dynAddr := some (0x30 + s.dev.moduleId) } }
      ∧ Sys2Proof.Machine.exec (.entdaa addr) s = .next { s with belv := { s.belv with dynAddr := some addr.toNat } })
    ∧ Sys2Proof.Machine.exec .i3cSclLowTimeout s = .next { s with belv := { s.belv with dynAddr := none } }
    ∧ Sys2Proof.Machine.exec (.mctpMessageTimeout via) s = .next s

/-- A PLDM message about a sensor that exists is answered with code 0, its reading or that it is unavailable; about
another id with 0x80. The commands of a firmware update act each in its own state and lead to the next:
REQUEST_UPDATE from idle, PASS_COMPONENT_TABLE, UPDATE_COMPONENT which empties the inactive slot,
REQUEST_FIRMWARE_DATA which fills it, TRANSFER_COMPLETE, VERIFY_COMPLETE which accepts an image whose signature
verifies and whose security version is not below the minimum, where it gives what the slot gives, APPLY_COMPLETE, and ACTIVATE_FIRMWARE which makes the
other slot active and is logged; CANCEL_UPDATE ends an update. In another state than its own such a command only
answers. The bytes that other standards give an answer are free and the codes 0x80, 0x81 and 0x84 are the family's
(log 65). -/
def Obligations.SensorsAndFirmwareUpdate : Prop :=
  ∀ (s : State) (via : Path), s.arrived via = true →
    (s.serves false = true → ∀ (id : BitVec 16) (cmd : BitVec 8),
      let ok (cmd : Nat) (body : List Byte) : State := s.drawn.answer via 0x01 cmd 0 body
      Sys2Proof.Machine.exec (.pldmDiscovery via cmd) s = .next (ok cmd.toNat s.freeBody)
      ∧ (sensorId id.toNat = true → Sys2Proof.Machine.exec (.getSensorReading via id) s = .next (ok 0x11 (readingBody s id.toNat))
        ∧ Sys2Proof.Machine.exec (.getSensorThresholds via id) s = .next (ok 0x12 s.freeBody)
        ∧ Sys2Proof.Machine.exec (.getPdr via id) s = .next (ok 0x51 (pdrBody id.toNat ++ s.freeBody)))
      ∧ (sensorId id.toNat = false → Sys2Proof.Machine.exec (.getSensorReading via id) s = .next (s.answer via 0x01 0x11 0x80 [])))
    ∧ (s.serves true = true →
      let ok (t : State) (cmd : Nat) : State := t.answer via 0x01 cmd 0 []
      let u := s.belv.upd
      Sys2Proof.Machine.exec (.getStatus via) s = .next (s.answer via 0x01 0x1B 0 [BitVec.ofNat 8 (updCode u)])
      ∧ Sys2Proof.Machine.exec (.getFirmwareParameters via) s = .next (s.answer via 0x01 0x02 0
          (leBytes 4 (s.belv.version s.belv.activeB) ++ leBytes 4 (s.belv.version (!s.belv.activeB))))
      ∧ (u = .idle → Sys2Proof.Machine.exec (.requestUpdate via) s = .next (ok (s.setUpd .learn) 0x10)
        ∧ Sys2Proof.Machine.exec (.passComponentTable via) s = .next (s.answer via 0x01 0x13 0x80 []))
      ∧ (u = .learn → Sys2Proof.Machine.exec (.passComponentTable via) s = .next (ok (s.setUpd .ready) 0x13)
        ∧ Sys2Proof.Machine.exec (.requestUpdate via) s = .next (s.answer via 0x01 0x10 0x81 []))
      ∧ (u = .ready → Sys2Proof.Machine.exec (.updateComponent via) s =
          .next (ok ((s.setInactive { valid := false, wiped := true, fails := 0, data := [] }).setUpd .download) 0x14)
        ∧ Sys2Proof.Machine.exec (.applyComplete via) s = .next (s.answer via 0x01 0x18 0x84 []))
      ∧ (u = .download →
        (∀ (off : Nat) (data : List Byte), off + data.length ≤ 0x1000000 → Sys2Proof.Machine.exec (.requestFirmwareData via off data) s =
          .next (s.setInactive { s.inactive with data := hostWrite s.inactive.data off data }))
        ∧ Sys2Proof.Machine.exec (.transferComplete via) s = .next (ok (s.setUpd .verify) 0x16))
      ∧ (u = .verify →
        let sig := s.belv.signed (!s.belv.activeB)
        let version := s.belv.version (!s.belv.activeB)
        Sys2Proof.Machine.exec (.verifyComplete via sig version) s = .next (ok (if sig ∧ s.belv.minVer ≤ version
          then (s.setInactive { s.inactive with valid := true }).setUpd .apply else s.setUpd .ready) 0x17))
      ∧ (u = .apply → Sys2Proof.Machine.exec (.applyComplete via) s = .next (ok (s.setUpd .activate) 0x18))
      ∧ (u = .activate → Sys2Proof.Machine.exec (.activateFirmware via) s = .next (ok (({ s with belv := { s.belv with
          activeB := !s.belv.activeB, newImage := true, upd := .idle } } : State).logIn (LogEnt.firmware 1 (b2n (!s.belv.activeB)))) 0x1A))
      ∧ (u ≠ .idle → Sys2Proof.Machine.exec (.cancelUpdate via) s = .next (ok (s.setUpd .idle) 0x1D)))

/-- While Belvedere serves its path: the SPDM requests GET_VERSION, GET_CAPABILITIES and NEGOTIATE_ALGORITHMS advance
the negotiation one by one, and the others are answered once it is complete, GET_MEASUREMENTS with the measurements
asked for. REG_READ and REG_WRITE of a register
that Belvedere may access and that is powered read and write it with SUCCESS, and one that is not such a register
has INVALID and no effect. A register access without an answer has TIMEOUT, zero and an error record. ALARM_READ
gives the oldest 16 unread alarms and marks them read; LOG_READ gives up to 1 KiB of the log and DUMP_READ a piece
of a dump as the firmware lays it out, each from its share of the log's interval; RECOVER starts recovery, or has NOT_READY during one; CLAIM
takes a free resource for its claimant; STATUS gives three registers. Bytes that other standards give an answer are
free (log 65). -/
def Obligations.SpdmAndManagementCommands : Prop :=
  ∀ (s : State) (via : Path), s.arrived via = true → s.serves false = true →
    let spdm (k : Nat) (cmd : Nat) (body : List Byte) : State :=
      ({ s with belv := { s.belv with spdm := k } } : State).drawn.answer via 0x05 cmd 0 (body ++ s.freeBody)
    let ok (t : State) (cmd : Nat) (body : List Byte) : State := t.answer via 0x7F cmd 0 body
    Sys2Proof.Machine.exec (.getVersion via) s = .next (spdm 1 0x84 [0x13])
    ∧ (1 ≤ s.belv.spdm → Sys2Proof.Machine.exec (.getCapabilities via) s = .next (spdm 2 0xE1 []))
    ∧ (2 ≤ s.belv.spdm → Sys2Proof.Machine.exec (.negotiateAlgorithms via) s = .next (spdm 3 0xE3 []))
    ∧ (3 ≤ s.belv.spdm → ∀ (off len : BitVec 16) (nonce : BitVec 256) (i : BitVec 8),
      Sys2Proof.Machine.exec (.getDigests via) s = .next (spdm s.belv.spdm 0x81 []) ∧ Sys2Proof.Machine.exec (.getCertificate via 0 off len) s = .next (spdm s.belv.spdm 0x82 [])
      ∧ Sys2Proof.Machine.exec (.challenge via 0 nonce) s = .next (spdm s.belv.spdm 0x83 [])
      ∧ (i.toNat ≤ 6 ∨ i = 0xFF → Sys2Proof.Machine.exec (.getMeasurements via i) s = .next (spdm s.belv.spdm 0xE0 (s.measurements i.toNat))))
    ∧ (∀ (off : Nat) (v : W64),
      (regOk off = true → s.regDark off = false →
        Sys2Proof.Machine.exec (.regRead via off) s = .next (ok s.drawn 0x01 (leBytes 8 (s.pfRead off).toNat))
        ∧ Sys2Proof.Machine.exec (.regWrite via off v) s = .next (ok (pfWrite s (claimant via) off v) 0x02 [])
        ∧ Sys2Proof.Machine.exec (.sidebandRegisterTimeout via off) s =
            .next ((s.logError (.plain 10 1 0x0D 0 off)).answer via 0x7F 0x01 3 (List.replicate 8 0)))
      ∧ (regOk off = false → Sys2Proof.Machine.exec (.regRead via off) s = .next (s.answer via 0x7F 0x01 1 [])
        ∧ Sys2Proof.Machine.exec (.regWrite via off v) s = .next (s.answer via 0x7F 0x02 1 [])))
    ∧ Sys2Proof.Machine.exec (.alarmRead via) s = .next (ok { s with belv := { s.belv with alarms := markRead 16 s.belv.alarms } } 0x03
        ((((s.belv.alarms.filter (fun a => a.unread)).take 16).map Alarm.bytes).flatten))
    ∧ (∀ off len, len ≤ 1024 → off + len ≤ 0x4000000 → Sys2Proof.Machine.exec (.logRead via off len) s = .next (ok (s.logReads via len).drawn 0x04 (s.freeBytes len)))
    ∧ (∀ i n d, i ≤ 7 → s.belv.dumps[i]? = some d →
      Sys2Proof.Machine.exec (.dumpRead via i n) s = .next (if 1024 * n < d.size
        then ok (s.logReads via 1024) 0x05 ((List.range 1024).map (fun k => Config.dumpByte d.all (1024 * n + k)))
        else s.answer via 0x7F 0x05 1 []))
    ∧ (s.dev.st = .ready → Sys2Proof.Machine.exec (.recover via) s = .next (ok (s.beginRecovery .management) 0x06 []))
    ∧ (s.dev.st = .recovering → Sys2Proof.Machine.exec (.recover via) s = .next (s.answer via 0x7F 0x06 4 []))
    ∧ (∀ res : BitVec 8, res.toNat ≤ 12 →
      (s.holder res.toNat = 0 → Sys2Proof.Machine.exec (.claim via res .claim) s = .next (ok (s.setHolder res.toNat (claimant via)) 0x07 []))
      ∧ (s.holder res.toNat ≠ 0 → Sys2Proof.Machine.exec (.claim via res .claim) s = .next (s.answer via 0x7F 0x07 2 []))
      ∧ (s.holder res.toNat = claimant via → Sys2Proof.Machine.exec (.claim via res .release) s = .next (ok (s.setHolder res.toNat 0) 0x07 [])))
    ∧ Sys2Proof.Machine.exec (.status via) s = .next (ok s 0x08 (leBytes 8 s.devStatus.toNat ++ leBytes 8 s.pwrStatus.toNat ++ leBytes 8 s.pwr.alarm))

/-- At reset no command waits; DEV_STATUS reads STARTING with no stage complete and no error or alarm pending; the cap
is 2,400 W, the hang window 100 ms, SCRUB_HOURS and the other stack settings, CE_LIMIT 64, the partition records'
BE_HORIZON and every format, link mode 1 and PRESERVE_CFG read their reset values; partition 0 is ACTIVE and every
other one UNUSED, every context FREE and every signal object 0; fused core maps hold 256 logical cores and 8 spares;
stack memory reads as zero under any keys, with no damage in flight; the error ring is empty; and the invariant holds. -/
def Obligations.ResetState : Prop :=
  State.reset.inv = true ∧ State.reset.pending = [] ∧ State.reset.upsets = [] ∧ State.reset.devStatus = 0
    ∧ State.reset.pfRead 0x20 = 2 ∧ State.reset.pfRead 0x1300 = 100 ∧ State.reset.pfRead 0x2000 = 2400
    ∧ State.reset.pfRead 0x3000 = 0 ∧ State.reset.pfRead 0x3008 = 0 ∧ State.reset.pfRead 0x3010 = 0
    ∧ (∀ p : Fin 256, State.reset.pfRead (partReg p 0) = 0x320040 ∧ State.reset.pfRead (partReg p 7) = 0x3FFF
        ∧ (State.reset.part p).st = (if p = 0 then PartSt.active else PartSt.unused))
    ∧ (∀ q : Fin 18, State.reset.linkMode q = 1 ∧ (State.reset.port q).up = false)
    ∧ (∀ k : Fin 16, State.reset.pfRead (0x20000 + k * 0x1000) = 0xA0108)
    ∧ (∀ c : Fin 264, State.reset.pfRead (0x40000 + c * 0x200) = 0x4000
        ∧ State.reset.pfRead (0x40008 + c * 0x200) = (if c.val % 66 < 64 then 0 else 1) ∧ (State.reset.core c).run = .idle
        ∧ (State.reset.core c).st = (if c.val % 66 < 64 then CoreSt.active else CoreSt.spare)
        ∧ (c.val % 66 < 64 → (State.reset.core c).logical = c.val / 66 * 64 + c.val % 66))
    ∧ (∀ n : Fin 4096, (State.reset.ctx n).st = .free)
    ∧ (∀ (k : Key) (a : Nat), State.reset.readByte k a = (0, false))
    ∧ (∀ (r : Fin 4) (o : Nat), State.reset.sigVal (r.val, o) = 0)

/-- From every state whose stack memory is in its canonical form (addresses rising, no entry that reads as an unlisted
byte would, unit owners and poison marks listed once), whose frame table lists every allocated page once with a
share count of at least 1, and whose error ring has HEAD and TAIL below 64 and a 32-bit DROPPED, every step, of any
command or of an empty queue, leads to a state that keeps all of these. -/
def Obligations.StepKeepsTheInvariant : Prop :=
  ∀ s t : State, s.inv = true → step s = .next t → t.inv = true

/-- Whatever command stands in front, a step leaves the rest of the queue as it was: no command adds one, drops one or
reorders them, and an empty queue stays empty. The counter of free values never falls, so no draw is used twice. On an
empty queue a step answers the state after one tick of the always-on clock; while that clock does not run (the input is
not good) nothing changes. These are the model's own conventions (log 1 and log 4). -/
def Obligations.StepTakesOneCommand : Prop :=
  (∀ s t : State, step s = .next t → t.pending = s.pending.tail ∧ s.free ≤ t.free)
  ∧ (∀ s : State, s.pending = [] →
    Sys2Proof.Machine.step s = .next (Sys2Proof.Machine.tick s) ∧ (s.dev.aon = false → Sys2Proof.Machine.step s = .next s))

/-- SECURITY_VERSION_RAISE, where Belvedere's image has run for 60 s since its boot, raises the minimum in OTP to the
version of the image that runs, which its boot noted, when that is higher, and changes nothing else; before 60 s it
changes nothing. No other command changes the minimum, so until then a fallback to the other slot is accepted as before the boot:
FIRMWARE_BOOT takes the other slot whose image verifies and is not below the minimum once the active one has failed
3 times. -/
def Obligations.MinimumSecurityVersion : Prop :=
  ∀ s : State,
    (s.belv.running = true → s.belv.bootTick + 60000000000 ≤ s.time →
      Sys2Proof.Machine.exec .securityVersionRaise s = .next { s with belv := { s.belv with
        minVer := max s.belv.minVer s.belv.runVer } })
    ∧ (s.belv.running = false ∨ s.time < s.belv.bootTick + 60000000000 → Sys2Proof.Machine.exec .securityVersionRaise s = .next s)
    ∧ (∀ y : Bool, (s.bootSlotOf y).belv.runVer = s.belv.version y ∧ (s.bootSlotOf y).belv.bootTick = s.time)
    ∧ (∀ (i : Instr) (t : State), i ≠ .securityVersionRaise → Sys2Proof.Machine.exec i s = .next t → t.belv.minVer = s.belv.minVer)
    ∧ (s.dev.aon = true → s.belv.running = false → s.belv.rom = false → 3 ≤ (s.belv.slot s.belv.activeB).fails →
      let y := !s.belv.activeB
      let t : State := { s with belv := { s.belv with rom := true } }
      Sys2Proof.Machine.exec (.firmwareBoot (s.belv.signed false) (s.belv.signed true)) s =
        .next (if s.belv.signed y ∧ (s.belv.slot y).valid ∧ s.belv.minVer ≤ s.belv.version y ∧ (s.belv.slot y).fails < 3 then s.bootSlotOf y
          else if s.dev.st = .starting then t.failStage 0xF1 else t))

/-- A write of bytes under a partition's keys reads back under those keys, wherever no poisoned granule is written in
part, and no granule written in part holds damage (whose reading is 10 R233). Every byte outside its range reads as
before: in the units it touches under the same keys when they held the unit, and in every other unit under any keys.
A poisoned granule that it does not write whole stays poisoned under any keys, also in a unit that it takes over from
other keys. Damage in a granule that it writes whole is gone. -/
def Obligations.PhysicalWritesReadBack : Prop :=
  ∀ (s : State) (k : Key) (a : Nat) (bs : List Byte),
    let t := s.writePhys k a (clean bs)
    let sound (y : Nat) : Prop := ∀ u ∈ s.upsets, u.within a bs.length = true → u.granule = some (y / 8) →
      wholeGranule a bs.length y = true
    (∀ (i : Nat) (b : Byte), bs[i]? = some b → s.mem.bad (a + i) = false → sound (a + i) → t.readByte k (a + i) = (b, false))
    ∧ (∀ y, y < a ∨ a + bs.length ≤ y → sound y → Tab.at? s.unitKey (y / 64) = some k → t.readByte k y = s.readByte k y)
    ∧ (∀ u ∈ t.upsets, ∀ g, u.granule = some g → wholeGranule a bs.length (8 * g) = false)
    ∧ (∀ (y : Nat) (k' : Key), y / 64 < a / 64 ∨ (a + bs.length - 1) / 64 < y / 64 → t.readByte k' y = s.readByte k' y)
    ∧ (∀ (y : Nat) (k' : Key), s.mem.bad y = true → wholeGranule a bs.length y = false → t.readByte k' y = (0xFF, true))

/-- With K = 0, S = 0 and C = 0 the state after rounds 1 to 10 of the generator is that of the table of R57, and the
state after round 10 is what the generator gives. -/
def Obligations.GeneratorRounds : Prop :=
  let after (n : Nat) : Quad := (List.range n).foldl (rngRound 0 0) ⟨0, 0, 0, 0⟩
  after 1 = ⟨0x9E3779B9, 0x7F4A7C15, 0x7F4A7C15, 0x9E3779B9⟩ ∧ after 2 = ⟨0x59F0E940, 0x878F0E8F, 0x1C16EDF8, 0xFE31BEB4⟩
    ∧ after 3 = ⟨0xBC2664FA, 0x7367C3F0, 0x982820EB, 0x4CCE9C82⟩ ∧ after 4 = ⟨0xA86C0FCE, 0x2A046128, 0xE220ADC1, 0xD45308F8⟩
    ∧ after 5 = ⟨0xE985D193, 0xBD656612, 0x32E82322, 0xAF975333⟩ ∧ after 6 = ⟨0x5C3811FB, 0xED04A7A6, 0xDE3E5ED3, 0x0A593A2D⟩
    ∧ after 7 = ⟨0x9CC10DB0, 0xC1705800, 0x63A0FD93, 0xD6BB6360⟩ ∧ after 8 = ⟨0x4FED3378, 0x02BD2A2D, 0x34B0419B, 0x4A6D3F6F⟩
    ∧ after 9 = ⟨0xE29DA526, 0x0E4F7B14, 0xF8BBDDC7, 0x303F750D⟩ ∧ after 10 = ⟨0x1F17E174, 0x71372851, 0x21E42BA6, 0xE8A6A190⟩
    ∧ rng 0 0 0 = after 10

/-- After a register write of CAP_W by the supervisor the module cap is the written 12-bit value, 800 for a smaller one
and 2,600 for a larger one, in every state of the device; the other registers keep their values; at reset the cap is
2,400. -/
def Obligations.ModuleCap : Prop :=
  State.reset.capW = 2400 ∧ ∀ (s : State) (v : W64), ∃ t, Sys2Proof.Machine.exec (.registerWrite 0 0x2000 8 v false) s = .next t
    ∧ t.capW = (if fld v 0 12 < 800 then 800 else if 2600 < fld v 0 12 then 2600 else fld v 0 12)
    ∧ ∀ off, off ≠ 0x2000 → t.pfReg off = s.pfReg off

/-- A taken sq.br that the sequencer of core c fetches goes to the address of its word plus 8 times OFS, modulo 2^64;
with an OFS of 0 it goes to itself. It raises nothing by itself: where the sequencer then stands at a pc outside the
code extent, the instruction that it would fetch, of the sequencer or of an engine, ends the RUN with ILLEGAL, with
every stack awake. -/
def Obligations.BranchTargets : Prop :=
  (∀ (s t : State) (c : Fin 264) (n : Nat) (r : Run) (g : Regs) (sA sB : BitVec 5) (ofs : BitVec 32) (cond : BitVec 3),
    Fetches s c (.sqBr c cond sA sB ofs) n r g t → g.pc < 2 ^ 64 →
    let x := g.getS sA.toNat
    let y := g.getS sB.toNat
    (cond = 0 ∧ x = y) ∨ (cond = 1 ∧ x ≠ y) ∨ (cond = 2 ∧ x.toInt < y.toInt) ∨ (cond = 3 ∧ y.toInt ≤ x.toInt)
        ∨ (cond = 4 ∧ x.toNat < y.toNat) ∨ (cond = 5 ∧ y.toNat ≤ x.toNat) ∨ (cond = 6 ∧ sA = 0 ∧ sB = 0) →
    ∃ pc : Nat, Sys2Proof.Machine.exec (.sqBr c cond sA sB ofs) s = .next (t.jump c { g with pc := pc }) ∧ pc < 2 ^ 64
      ∧ (pc : Int) % 2 ^ 64 = ((g.pc : Int) + 8 * ofs.toInt) % 2 ^ 64 ∧ (ofs = 0 → pc = g.pc))
  ∧ (∀ (s : State) (c : Fin 264) (n : Nat) (r : Run) (g : Regs), s.issuing c = some (n, r, g) → (∀ st : Fin 16, (s.stack st).selfRef = false) → r.codeSize < g.pc + 8 →
      Sys2Proof.Machine.exec (.sqHalt c) s = .next (s.abortRun n 4) ∧ Sys2Proof.Machine.exec (.sqYield c) s = .next (s.abortRun n 4)
      ∧ (∀ (cond : BitVec 3) (sA sB : BitVec 5) (ofs : BitVec 32), Sys2Proof.Machine.exec (.sqBr c cond sA sB ofs) s = .next (s.abortRun n 4))
      ∧ (∀ (l op : BitVec 16), Sys2Proof.Machine.exec (.sqMark c l op) s = .next (s.abortRun n 4))
      ∧ (∀ (i : Instr) (F : Form), formOf i = some F → F.core = c.val → F.eng ≠ .coll → Sys2Proof.Machine.exec i s = .next (s.abortRun n 4)))

/-- For every instruction, with every operand at every value of its field, decoding its one or two words gives the
instruction on its core, and bit X says whether there is a second word; and words that decode to an instruction are
the words of that instruction, so no bit of a word is dropped. The words of the worked examples of sy.wait and
mx.wld decode to these. A word of a reserved class, of at.page with OPER 6 or 7, and of dm.tbl with TGT 1 to 15
decodes to nothing. -/
def Obligations.WordsDecodeToTheirInstruction : Prop :=
  (∀ i : Instr, encode i ≠ [] → ∃ c w e, encode i = (if hasExt w then [w, e] else [w]) ∧ decodeWords c w e = some i)
  ∧ (∀ (c : Fin 264) (w e : W64) (i : Instr), decodeWords c w e = some i → encode i = if hasExt w then [w, e] else [w])
  ∧ (∀ (c : Fin 264) (e : W64),
      decodeWords c 0x504952D880000000 e = some (.syWait c { sD := 9, sS := 10, sV := 11, sT := 12, cond := false, ft := true })
      ∧ decodeWords c 0x1047467F3F002000 e = some (.mxWld c
          { aW := 3, wfmt := 0xA, sfmt := 3, kx := 127, nx := 63, sS := 0, fq := 0, da := true }))
  ∧ (∀ (c : Fin 264) (w e : W64),
      (10 ≤ wordField w 60 4 → decodeWords c w e = none)
      ∧ (wordField w 60 4 = 6 → wordField w 54 6 = 4 → 6 ≤ wordField w 50 3 → decodeWords c w e = none)
      ∧ (wordField w 60 4 = 4 → wordField w 54 6 = 5 → 1 ≤ wordField w 35 5 → wordField w 35 5 ≤ 15 → decodeWords c w e = none))
end

