-- ==== Sys2Proof/Laws/Tab.lean ====
section
/-! SUPPORT. The laws of tables: a read after a write to the same key gives what was written, a write leaves every
other key alone, and the keys stay rising. -/

namespace Sys2Proof.Machine

variable {α : Type}

@[simp] theorem Tab.at?_nil (k : Nat) : Tab.at? ([] : Tab α) k = none := rfl

@[simp] theorem Tab.val_nil (d : α) (k : Nat) : Tab.val d ([] : Tab α) k = d := rfl

@[simp] theorem Tab.at?_put_same (t : Tab α) (k : Nat) (v : α) : Tab.at? (Tab.put t k v) k = some v := by
  induction t with
  | nil => simp [Tab.put, Tab.at?]
  | cons p r ih =>
    obtain ⟨a, x⟩ := p
    simp only [Tab.put]
    split
    · simp [Tab.at?]
    · split
      · simp [Tab.at?]
      · simp [Tab.at?, *]

@[simp] theorem Tab.at?_put_ne (t : Tab α) (k j : Nat) (v : α) (h : j ≠ k) :
    Tab.at? (Tab.put t k v) j = Tab.at? t j := by
  induction t with
  | nil => simp [Tab.put, Tab.at?, h.symm]
  | cons p r ih =>
    obtain ⟨a, x⟩ := p
    simp only [Tab.put]
    split
    · simp [Tab.at?, h.symm]
    · split
      · next e => subst e; simp [Tab.at?, h.symm]
      · simp [Tab.at?, ih]

theorem Tab.at?_put (t : Tab α) (k j : Nat) (v : α) :
    Tab.at? (Tab.put t k v) j = if j = k then some v else Tab.at? t j := by
  split
  · next h => subst h; simp
  · next h => simp [h]

@[simp] theorem Tab.at?_del_same (t : Tab α) (k : Nat) : Tab.at? (Tab.del t k) k = none := by
  induction t with
  | nil => rfl
  | cons p r ih =>
    obtain ⟨a, x⟩ := p
    by_cases e : a = k <;> simp_all [Tab.del, Tab.at?]

@[simp] theorem Tab.at?_del_ne (t : Tab α) (k j : Nat) (h : j ≠ k) : Tab.at? (Tab.del t k) j = Tab.at? t j := by
  induction t with
  | nil => rfl
  | cons p r ih =>
    obtain ⟨a, x⟩ := p
    by_cases e : a = k
    · subst e; simpa [Tab.del, Tab.at?, h.symm] using ih
    · by_cases e' : a = j <;> simp_all [Tab.del, Tab.at?]

@[simp] theorem Tab.val_put_same (d : α) (t : Tab α) (k : Nat) (v : α) : Tab.val d (Tab.put t k v) k = v := by
  simp [Tab.val]

@[simp] theorem Tab.val_put_ne (d : α) (t : Tab α) (k j : Nat) (v : α) (h : j ≠ k) :
    Tab.val d (Tab.put t k v) j = Tab.val d t j := by simp [Tab.val, h]

@[simp] theorem Tab.val_del_same (d : α) (t : Tab α) (k : Nat) : Tab.val d (Tab.del t k) k = d := by simp [Tab.val]

@[simp] theorem Tab.val_del_ne (d : α) (t : Tab α) (k j : Nat) (h : j ≠ k) :
    Tab.val d (Tab.del t k) j = Tab.val d t j := by simp [Tab.val, h]

/-- Rising keys, read as a pairwise order. -/
theorem Tab.rising_iff (t : Tab α) : Tab.rising t = true ↔ t.Pairwise (fun p q => p.1 < q.1) := by
  rw [← List.isChain_iff_pairwise]
  induction t with
  | nil => simp [Tab.rising]
  | cons p r ih => cases r <;> simp_all [Tab.rising]

/-- A key that a write adds is the written one or was there before. -/
theorem Tab.mem_put {t : Tab α} {k : Nat} {v : α} {p : Nat × α} (h : p ∈ Tab.put t k v) : p = (k, v) ∨ p ∈ t := by
  induction t with
  | nil => simpa [Tab.put] using h
  | cons q r ih =>
    obtain ⟨a, x⟩ := q
    simp only [Tab.put] at h
    split at h
    · simpa using h
    · split at h
      · simp only [List.mem_cons] at h ⊢; tauto
      · simp only [List.mem_cons] at h ⊢
        rcases h with h | h
        · exact .inr (.inl h)
        · rcases ih h with h | h
          · exact .inl h
          · exact .inr (.inr h)

theorem Tab.rising_put {t : Tab α} (h : Tab.rising t = true) (k : Nat) (v : α) : Tab.rising (Tab.put t k v) = true := by
  rw [Tab.rising_iff] at *
  induction t with
  | nil => simp [Tab.put]
  | cons q r ih =>
    obtain ⟨a, x⟩ := q
    rw [List.pairwise_cons] at h
    simp only [Tab.put]
    split
    · next lt =>
      simp only [List.pairwise_cons, List.mem_cons]
      refine ⟨?_, h⟩
      rintro p (rfl | hp)
      · exact lt
      · exact lt.trans (h.1 p hp)
    · split
      · next _ e => subst e; exact List.pairwise_cons.2 h
      · refine List.pairwise_cons.2 ⟨fun p hp => ?_, ih h.2⟩
        rcases Tab.mem_put hp with rfl | hp
        · simp only; omega
        · exact h.1 p hp

theorem Tab.rising_filter {t : Tab α} (h : Tab.rising t = true) (f : Nat × α → Bool) :
    Tab.rising (t.filter f) = true := by
  rw [Tab.rising_iff] at *
  exact h.filter f

theorem Tab.rising_del {t : Tab α} (h : Tab.rising t = true) (k : Nat) : Tab.rising (Tab.del t k) = true :=
  Tab.rising_filter h _

end Sys2Proof.Machine
end

