-- ==== Sys2Proof/Laws/State.lean ====
section
/-! SUPPORT. What each named update of the state leaves alone, one lemma for each field, and what it makes of the
part that it updates. -/

namespace Sys2Proof.Machine

variable (s : State)

/-! ### `State.setCore` -/

@[simp] theorem State.setCore_pending (c : Nat) (p : PCore) : (s.setCore c p).pending = s.pending := rfl
@[simp] theorem State.setCore_free (c : Nat) (p : PCore) : (s.setCore c p).free = s.free := rfl
@[simp] theorem State.setCore_time (c : Nat) (p : PCore) : (s.setCore c p).time = s.time := rfl
@[simp] theorem State.setCore_dev (c : Nat) (p : PCore) : (s.setCore c p).dev = s.dev := rfl
@[simp] theorem State.setCore_pf (c : Nat) (p : PCore) : (s.setCore c p).pf = s.pf := rfl
@[simp] theorem State.setCore_vf (c : Nat) (p : PCore) : (s.setCore c p).vf = s.vf := rfl
@[simp] theorem State.setCore_owners (c : Nat) (p : PCore) : (s.setCore c p).owners = s.owners := rfl
@[simp] theorem State.setCore_ctxs (c : Nat) (p : PCore) : (s.setCore c p).ctxs = s.ctxs := rfl
@[simp] theorem State.setCore_parts (c : Nat) (p : PCore) : (s.setCore c p).parts = s.parts := rfl
@[simp] theorem State.setCore_regions (c : Nat) (p : PCore) : (s.setCore c p).regions = s.regions := rfl
@[simp] theorem State.setCore_stks (c : Nat) (p : PCore) : (s.setCore c p).stks = s.stks := rfl
@[simp] theorem State.setCore_ports (c : Nat) (p : PCore) : (s.setCore c p).ports = s.ports := rfl
@[simp] theorem State.setCore_wellEv (c : Nat) (p : PCore) : (s.setCore c p).wellEv = s.wellEv := rfl
@[simp] theorem State.setCore_mem (c : Nat) (p : PCore) : (s.setCore c p).mem = s.mem := rfl
@[simp] theorem State.setCore_upsets (c : Nat) (p : PCore) : (s.setCore c p).upsets = s.upsets := rfl
@[simp] theorem State.setCore_unitKey (c : Nat) (p : PCore) : (s.setCore c p).unitKey = s.unitKey := rfl
@[simp] theorem State.setCore_frames (c : Nat) (p : PCore) : (s.setCore c p).frames = s.frames := rfl
@[simp] theorem State.setCore_dirs (c : Nat) (p : PCore) : (s.setCore c p).dirs = s.dirs := rfl
@[simp] theorem State.setCore_err (c : Nat) (p : PCore) : (s.setCore c p).err = s.err := rfl
@[simp] theorem State.setCore_hang (c : Nat) (p : PCore) : (s.setCore c p).hang = s.hang := rfl
@[simp] theorem State.setCore_belv (c : Nat) (p : PCore) : (s.setCore c p).belv = s.belv := rfl
@[simp] theorem State.setCore_pwr (c : Nat) (p : PCore) : (s.setCore c p).pwr = s.pwr := rfl
@[simp] theorem State.setCore_host (c : Nat) (p : PCore) : (s.setCore c p).host = s.host := rfl
@[simp] theorem State.setCore_msix (c : Nat) (p : PCore) : (s.setCore c p).msix = s.msix := rfl
@[simp] theorem State.setCore_rdata (c : Nat) (p : PCore) : (s.setCore c p).rdata = s.rdata := rfl
@[simp] theorem State.ctx_setCore (c : Nat) (p : PCore) (j : Nat) : (s.setCore c p).ctx j = s.ctx j := rfl
@[simp] theorem State.part_setCore (c : Nat) (p : PCore) (j : Nat) : (s.setCore c p).part j = s.part j := rfl
@[simp] theorem State.region_setCore (c : Nat) (p : PCore) (j : Nat) : (s.setCore c p).region j = s.region j := rfl
@[simp] theorem State.stack_setCore (c : Nat) (p : PCore) (j : Nat) : (s.setCore c p).stack j = s.stack j := rfl
@[simp] theorem State.port_setCore (c : Nat) (p : PCore) (j : Nat) : (s.setCore c p).port j = s.port j := rfl
@[simp] theorem State.pfReg_setCore (c : Nat) (p : PCore) (j : Nat) : (s.setCore c p).pfReg j = s.pfReg j := rfl
@[simp] theorem State.vfReg_setCore (c : Nat) (p : PCore) (j i : Nat) : (s.setCore c p).vfReg j i = s.vfReg j i := rfl

/-! ### `State.setCtx` -/

@[simp] theorem State.setCtx_pending (n : Nat) (x : Ctx) : (s.setCtx n x).pending = s.pending := rfl
@[simp] theorem State.setCtx_free (n : Nat) (x : Ctx) : (s.setCtx n x).free = s.free := rfl
@[simp] theorem State.setCtx_time (n : Nat) (x : Ctx) : (s.setCtx n x).time = s.time := rfl
@[simp] theorem State.setCtx_dev (n : Nat) (x : Ctx) : (s.setCtx n x).dev = s.dev := rfl
@[simp] theorem State.setCtx_pf (n : Nat) (x : Ctx) : (s.setCtx n x).pf = s.pf := rfl
@[simp] theorem State.setCtx_vf (n : Nat) (x : Ctx) : (s.setCtx n x).vf = s.vf := rfl
@[simp] theorem State.setCtx_owners (n : Nat) (x : Ctx) : (s.setCtx n x).owners = s.owners := rfl
@[simp] theorem State.setCtx_cores (n : Nat) (x : Ctx) : (s.setCtx n x).cores = s.cores := rfl
@[simp] theorem State.setCtx_parts (n : Nat) (x : Ctx) : (s.setCtx n x).parts = s.parts := rfl
@[simp] theorem State.setCtx_regions (n : Nat) (x : Ctx) : (s.setCtx n x).regions = s.regions := rfl
@[simp] theorem State.setCtx_stks (n : Nat) (x : Ctx) : (s.setCtx n x).stks = s.stks := rfl
@[simp] theorem State.setCtx_ports (n : Nat) (x : Ctx) : (s.setCtx n x).ports = s.ports := rfl
@[simp] theorem State.setCtx_wellEv (n : Nat) (x : Ctx) : (s.setCtx n x).wellEv = s.wellEv := rfl
@[simp] theorem State.setCtx_mem (n : Nat) (x : Ctx) : (s.setCtx n x).mem = s.mem := rfl
@[simp] theorem State.setCtx_upsets (n : Nat) (x : Ctx) : (s.setCtx n x).upsets = s.upsets := rfl
@[simp] theorem State.setCtx_unitKey (n : Nat) (x : Ctx) : (s.setCtx n x).unitKey = s.unitKey := rfl
@[simp] theorem State.setCtx_frames (n : Nat) (x : Ctx) : (s.setCtx n x).frames = s.frames := rfl
@[simp] theorem State.setCtx_dirs (n : Nat) (x : Ctx) : (s.setCtx n x).dirs = s.dirs := rfl
@[simp] theorem State.setCtx_err (n : Nat) (x : Ctx) : (s.setCtx n x).err = s.err := rfl
@[simp] theorem State.setCtx_hang (n : Nat) (x : Ctx) : (s.setCtx n x).hang = s.hang := rfl
@[simp] theorem State.setCtx_belv (n : Nat) (x : Ctx) : (s.setCtx n x).belv = s.belv := rfl
@[simp] theorem State.setCtx_pwr (n : Nat) (x : Ctx) : (s.setCtx n x).pwr = s.pwr := rfl
@[simp] theorem State.setCtx_host (n : Nat) (x : Ctx) : (s.setCtx n x).host = s.host := rfl
@[simp] theorem State.setCtx_msix (n : Nat) (x : Ctx) : (s.setCtx n x).msix = s.msix := rfl
@[simp] theorem State.setCtx_rdata (n : Nat) (x : Ctx) : (s.setCtx n x).rdata = s.rdata := rfl
@[simp] theorem State.core_setCtx (n : Nat) (x : Ctx) (j : Nat) : (s.setCtx n x).core j = s.core j := rfl
@[simp] theorem State.part_setCtx (n : Nat) (x : Ctx) (j : Nat) : (s.setCtx n x).part j = s.part j := rfl
@[simp] theorem State.region_setCtx (n : Nat) (x : Ctx) (j : Nat) : (s.setCtx n x).region j = s.region j := rfl
@[simp] theorem State.stack_setCtx (n : Nat) (x : Ctx) (j : Nat) : (s.setCtx n x).stack j = s.stack j := rfl
@[simp] theorem State.port_setCtx (n : Nat) (x : Ctx) (j : Nat) : (s.setCtx n x).port j = s.port j := rfl
@[simp] theorem State.pfReg_setCtx (n : Nat) (x : Ctx) (j : Nat) : (s.setCtx n x).pfReg j = s.pfReg j := rfl
@[simp] theorem State.vfReg_setCtx (n : Nat) (x : Ctx) (j i : Nat) : (s.setCtx n x).vfReg j i = s.vfReg j i := rfl

/-! ### `State.setPart` -/

@[simp] theorem State.setPart_pending (p : Nat) (x : Part) : (s.setPart p x).pending = s.pending := rfl
@[simp] theorem State.setPart_free (p : Nat) (x : Part) : (s.setPart p x).free = s.free := rfl
@[simp] theorem State.setPart_time (p : Nat) (x : Part) : (s.setPart p x).time = s.time := rfl
@[simp] theorem State.setPart_dev (p : Nat) (x : Part) : (s.setPart p x).dev = s.dev := rfl
@[simp] theorem State.setPart_pf (p : Nat) (x : Part) : (s.setPart p x).pf = s.pf := rfl
@[simp] theorem State.setPart_vf (p : Nat) (x : Part) : (s.setPart p x).vf = s.vf := rfl
@[simp] theorem State.setPart_owners (p : Nat) (x : Part) : (s.setPart p x).owners = s.owners := rfl
@[simp] theorem State.setPart_cores (p : Nat) (x : Part) : (s.setPart p x).cores = s.cores := rfl
@[simp] theorem State.setPart_ctxs (p : Nat) (x : Part) : (s.setPart p x).ctxs = s.ctxs := rfl
@[simp] theorem State.setPart_regions (p : Nat) (x : Part) : (s.setPart p x).regions = s.regions := rfl
@[simp] theorem State.setPart_stks (p : Nat) (x : Part) : (s.setPart p x).stks = s.stks := rfl
@[simp] theorem State.setPart_ports (p : Nat) (x : Part) : (s.setPart p x).ports = s.ports := rfl
@[simp] theorem State.setPart_wellEv (p : Nat) (x : Part) : (s.setPart p x).wellEv = s.wellEv := rfl
@[simp] theorem State.setPart_mem (p : Nat) (x : Part) : (s.setPart p x).mem = s.mem := rfl
@[simp] theorem State.setPart_upsets (p : Nat) (x : Part) : (s.setPart p x).upsets = s.upsets := rfl
@[simp] theorem State.setPart_unitKey (p : Nat) (x : Part) : (s.setPart p x).unitKey = s.unitKey := rfl
@[simp] theorem State.setPart_frames (p : Nat) (x : Part) : (s.setPart p x).frames = s.frames := rfl
@[simp] theorem State.setPart_dirs (p : Nat) (x : Part) : (s.setPart p x).dirs = s.dirs := rfl
@[simp] theorem State.setPart_err (p : Nat) (x : Part) : (s.setPart p x).err = s.err := rfl
@[simp] theorem State.setPart_hang (p : Nat) (x : Part) : (s.setPart p x).hang = s.hang := rfl
@[simp] theorem State.setPart_belv (p : Nat) (x : Part) : (s.setPart p x).belv = s.belv := rfl
@[simp] theorem State.setPart_pwr (p : Nat) (x : Part) : (s.setPart p x).pwr = s.pwr := rfl
@[simp] theorem State.setPart_host (p : Nat) (x : Part) : (s.setPart p x).host = s.host := rfl
@[simp] theorem State.setPart_msix (p : Nat) (x : Part) : (s.setPart p x).msix = s.msix := rfl
@[simp] theorem State.setPart_rdata (p : Nat) (x : Part) : (s.setPart p x).rdata = s.rdata := rfl
@[simp] theorem State.core_setPart (p : Nat) (x : Part) (j : Nat) : (s.setPart p x).core j = s.core j := rfl
@[simp] theorem State.ctx_setPart (p : Nat) (x : Part) (j : Nat) : (s.setPart p x).ctx j = s.ctx j := rfl
@[simp] theorem State.region_setPart (p : Nat) (x : Part) (j : Nat) : (s.setPart p x).region j = s.region j := rfl
@[simp] theorem State.stack_setPart (p : Nat) (x : Part) (j : Nat) : (s.setPart p x).stack j = s.stack j := rfl
@[simp] theorem State.port_setPart (p : Nat) (x : Part) (j : Nat) : (s.setPart p x).port j = s.port j := rfl
@[simp] theorem State.pfReg_setPart (p : Nat) (x : Part) (j : Nat) : (s.setPart p x).pfReg j = s.pfReg j := rfl
@[simp] theorem State.vfReg_setPart (p : Nat) (x : Part) (j i : Nat) : (s.setPart p x).vfReg j i = s.vfReg j i := rfl

/-! ### `State.setRegion` -/

@[simp] theorem State.setRegion_pending (r : Nat) (x : Region) : (s.setRegion r x).pending = s.pending := rfl
@[simp] theorem State.setRegion_free (r : Nat) (x : Region) : (s.setRegion r x).free = s.free := rfl
@[simp] theorem State.setRegion_time (r : Nat) (x : Region) : (s.setRegion r x).time = s.time := rfl
@[simp] theorem State.setRegion_dev (r : Nat) (x : Region) : (s.setRegion r x).dev = s.dev := rfl
@[simp] theorem State.setRegion_pf (r : Nat) (x : Region) : (s.setRegion r x).pf = s.pf := rfl
@[simp] theorem State.setRegion_vf (r : Nat) (x : Region) : (s.setRegion r x).vf = s.vf := rfl
@[simp] theorem State.setRegion_owners (r : Nat) (x : Region) : (s.setRegion r x).owners = s.owners := rfl
@[simp] theorem State.setRegion_cores (r : Nat) (x : Region) : (s.setRegion r x).cores = s.cores := rfl
@[simp] theorem State.setRegion_ctxs (r : Nat) (x : Region) : (s.setRegion r x).ctxs = s.ctxs := rfl
@[simp] theorem State.setRegion_parts (r : Nat) (x : Region) : (s.setRegion r x).parts = s.parts := rfl
@[simp] theorem State.setRegion_stks (r : Nat) (x : Region) : (s.setRegion r x).stks = s.stks := rfl
@[simp] theorem State.setRegion_ports (r : Nat) (x : Region) : (s.setRegion r x).ports = s.ports := rfl
@[simp] theorem State.setRegion_wellEv (r : Nat) (x : Region) : (s.setRegion r x).wellEv = s.wellEv := rfl
@[simp] theorem State.setRegion_mem (r : Nat) (x : Region) : (s.setRegion r x).mem = s.mem := rfl
@[simp] theorem State.setRegion_upsets (r : Nat) (x : Region) : (s.setRegion r x).upsets = s.upsets := rfl
@[simp] theorem State.setRegion_unitKey (r : Nat) (x : Region) : (s.setRegion r x).unitKey = s.unitKey := rfl
@[simp] theorem State.setRegion_frames (r : Nat) (x : Region) : (s.setRegion r x).frames = s.frames := rfl
@[simp] theorem State.setRegion_dirs (r : Nat) (x : Region) : (s.setRegion r x).dirs = s.dirs := rfl
@[simp] theorem State.setRegion_err (r : Nat) (x : Region) : (s.setRegion r x).err = s.err := rfl
@[simp] theorem State.setRegion_hang (r : Nat) (x : Region) : (s.setRegion r x).hang = s.hang := rfl
@[simp] theorem State.setRegion_belv (r : Nat) (x : Region) : (s.setRegion r x).belv = s.belv := rfl
@[simp] theorem State.setRegion_pwr (r : Nat) (x : Region) : (s.setRegion r x).pwr = s.pwr := rfl
@[simp] theorem State.setRegion_host (r : Nat) (x : Region) : (s.setRegion r x).host = s.host := rfl
@[simp] theorem State.setRegion_msix (r : Nat) (x : Region) : (s.setRegion r x).msix = s.msix := rfl
@[simp] theorem State.setRegion_rdata (r : Nat) (x : Region) : (s.setRegion r x).rdata = s.rdata := rfl
@[simp] theorem State.core_setRegion (r : Nat) (x : Region) (j : Nat) : (s.setRegion r x).core j = s.core j := rfl
@[simp] theorem State.ctx_setRegion (r : Nat) (x : Region) (j : Nat) : (s.setRegion r x).ctx j = s.ctx j := rfl
@[simp] theorem State.part_setRegion (r : Nat) (x : Region) (j : Nat) : (s.setRegion r x).part j = s.part j := rfl
@[simp] theorem State.stack_setRegion (r : Nat) (x : Region) (j : Nat) : (s.setRegion r x).stack j = s.stack j := rfl
@[simp] theorem State.port_setRegion (r : Nat) (x : Region) (j : Nat) : (s.setRegion r x).port j = s.port j := rfl
@[simp] theorem State.pfReg_setRegion (r : Nat) (x : Region) (j : Nat) : (s.setRegion r x).pfReg j = s.pfReg j := rfl
@[simp] theorem State.vfReg_setRegion (r : Nat) (x : Region) (j i : Nat) : (s.setRegion r x).vfReg j i = s.vfReg j i := rfl

/-! ### `State.setStack` -/

@[simp] theorem State.setStack_pending (k : Nat) (x : Stk) : (s.setStack k x).pending = s.pending := rfl
@[simp] theorem State.setStack_free (k : Nat) (x : Stk) : (s.setStack k x).free = s.free := rfl
@[simp] theorem State.setStack_time (k : Nat) (x : Stk) : (s.setStack k x).time = s.time := rfl
@[simp] theorem State.setStack_dev (k : Nat) (x : Stk) : (s.setStack k x).dev = s.dev := rfl
@[simp] theorem State.setStack_pf (k : Nat) (x : Stk) : (s.setStack k x).pf = s.pf := rfl
@[simp] theorem State.setStack_vf (k : Nat) (x : Stk) : (s.setStack k x).vf = s.vf := rfl
@[simp] theorem State.setStack_owners (k : Nat) (x : Stk) : (s.setStack k x).owners = s.owners := rfl
@[simp] theorem State.setStack_cores (k : Nat) (x : Stk) : (s.setStack k x).cores = s.cores := rfl
@[simp] theorem State.setStack_ctxs (k : Nat) (x : Stk) : (s.setStack k x).ctxs = s.ctxs := rfl
@[simp] theorem State.setStack_parts (k : Nat) (x : Stk) : (s.setStack k x).parts = s.parts := rfl
@[simp] theorem State.setStack_regions (k : Nat) (x : Stk) : (s.setStack k x).regions = s.regions := rfl
@[simp] theorem State.setStack_ports (k : Nat) (x : Stk) : (s.setStack k x).ports = s.ports := rfl
@[simp] theorem State.setStack_wellEv (k : Nat) (x : Stk) : (s.setStack k x).wellEv = s.wellEv := rfl
@[simp] theorem State.setStack_mem (k : Nat) (x : Stk) : (s.setStack k x).mem = s.mem := rfl
@[simp] theorem State.setStack_upsets (k : Nat) (x : Stk) : (s.setStack k x).upsets = s.upsets := rfl
@[simp] theorem State.setStack_unitKey (k : Nat) (x : Stk) : (s.setStack k x).unitKey = s.unitKey := rfl
@[simp] theorem State.setStack_frames (k : Nat) (x : Stk) : (s.setStack k x).frames = s.frames := rfl
@[simp] theorem State.setStack_dirs (k : Nat) (x : Stk) : (s.setStack k x).dirs = s.dirs := rfl
@[simp] theorem State.setStack_err (k : Nat) (x : Stk) : (s.setStack k x).err = s.err := rfl
@[simp] theorem State.setStack_hang (k : Nat) (x : Stk) : (s.setStack k x).hang = s.hang := rfl
@[simp] theorem State.setStack_belv (k : Nat) (x : Stk) : (s.setStack k x).belv = s.belv := rfl
@[simp] theorem State.setStack_pwr (k : Nat) (x : Stk) : (s.setStack k x).pwr = s.pwr := rfl
@[simp] theorem State.setStack_host (k : Nat) (x : Stk) : (s.setStack k x).host = s.host := rfl
@[simp] theorem State.setStack_msix (k : Nat) (x : Stk) : (s.setStack k x).msix = s.msix := rfl
@[simp] theorem State.setStack_rdata (k : Nat) (x : Stk) : (s.setStack k x).rdata = s.rdata := rfl
@[simp] theorem State.core_setStack (k : Nat) (x : Stk) (j : Nat) : (s.setStack k x).core j = s.core j := rfl
@[simp] theorem State.ctx_setStack (k : Nat) (x : Stk) (j : Nat) : (s.setStack k x).ctx j = s.ctx j := rfl
@[simp] theorem State.part_setStack (k : Nat) (x : Stk) (j : Nat) : (s.setStack k x).part j = s.part j := rfl
@[simp] theorem State.region_setStack (k : Nat) (x : Stk) (j : Nat) : (s.setStack k x).region j = s.region j := rfl
@[simp] theorem State.port_setStack (k : Nat) (x : Stk) (j : Nat) : (s.setStack k x).port j = s.port j := rfl
@[simp] theorem State.pfReg_setStack (k : Nat) (x : Stk) (j : Nat) : (s.setStack k x).pfReg j = s.pfReg j := rfl
@[simp] theorem State.vfReg_setStack (k : Nat) (x : Stk) (j i : Nat) : (s.setStack k x).vfReg j i = s.vfReg j i := rfl

/-! ### `State.setPort` -/

@[simp] theorem State.setPort_pending (p : Nat) (x : Port) : (s.setPort p x).pending = s.pending := rfl
@[simp] theorem State.setPort_free (p : Nat) (x : Port) : (s.setPort p x).free = s.free := rfl
@[simp] theorem State.setPort_time (p : Nat) (x : Port) : (s.setPort p x).time = s.time := rfl
@[simp] theorem State.setPort_dev (p : Nat) (x : Port) : (s.setPort p x).dev = s.dev := rfl
@[simp] theorem State.setPort_pf (p : Nat) (x : Port) : (s.setPort p x).pf = s.pf := rfl
@[simp] theorem State.setPort_vf (p : Nat) (x : Port) : (s.setPort p x).vf = s.vf := rfl
@[simp] theorem State.setPort_owners (p : Nat) (x : Port) : (s.setPort p x).owners = s.owners := rfl
@[simp] theorem State.setPort_cores (p : Nat) (x : Port) : (s.setPort p x).cores = s.cores := rfl
@[simp] theorem State.setPort_ctxs (p : Nat) (x : Port) : (s.setPort p x).ctxs = s.ctxs := rfl
@[simp] theorem State.setPort_parts (p : Nat) (x : Port) : (s.setPort p x).parts = s.parts := rfl
@[simp] theorem State.setPort_regions (p : Nat) (x : Port) : (s.setPort p x).regions = s.regions := rfl
@[simp] theorem State.setPort_stks (p : Nat) (x : Port) : (s.setPort p x).stks = s.stks := rfl
@[simp] theorem State.setPort_wellEv (p : Nat) (x : Port) : (s.setPort p x).wellEv = s.wellEv := rfl
@[simp] theorem State.setPort_mem (p : Nat) (x : Port) : (s.setPort p x).mem = s.mem := rfl
@[simp] theorem State.setPort_upsets (p : Nat) (x : Port) : (s.setPort p x).upsets = s.upsets := rfl
@[simp] theorem State.setPort_unitKey (p : Nat) (x : Port) : (s.setPort p x).unitKey = s.unitKey := rfl
@[simp] theorem State.setPort_frames (p : Nat) (x : Port) : (s.setPort p x).frames = s.frames := rfl
@[simp] theorem State.setPort_dirs (p : Nat) (x : Port) : (s.setPort p x).dirs = s.dirs := rfl
@[simp] theorem State.setPort_err (p : Nat) (x : Port) : (s.setPort p x).err = s.err := rfl
@[simp] theorem State.setPort_hang (p : Nat) (x : Port) : (s.setPort p x).hang = s.hang := rfl
@[simp] theorem State.setPort_belv (p : Nat) (x : Port) : (s.setPort p x).belv = s.belv := rfl
@[simp] theorem State.setPort_pwr (p : Nat) (x : Port) : (s.setPort p x).pwr = s.pwr := rfl
@[simp] theorem State.setPort_host (p : Nat) (x : Port) : (s.setPort p x).host = s.host := rfl
@[simp] theorem State.setPort_msix (p : Nat) (x : Port) : (s.setPort p x).msix = s.msix := rfl
@[simp] theorem State.setPort_rdata (p : Nat) (x : Port) : (s.setPort p x).rdata = s.rdata := rfl
@[simp] theorem State.core_setPort (p : Nat) (x : Port) (j : Nat) : (s.setPort p x).core j = s.core j := rfl
@[simp] theorem State.ctx_setPort (p : Nat) (x : Port) (j : Nat) : (s.setPort p x).ctx j = s.ctx j := rfl
@[simp] theorem State.part_setPort (p : Nat) (x : Port) (j : Nat) : (s.setPort p x).part j = s.part j := rfl
@[simp] theorem State.region_setPort (p : Nat) (x : Port) (j : Nat) : (s.setPort p x).region j = s.region j := rfl
@[simp] theorem State.stack_setPort (p : Nat) (x : Port) (j : Nat) : (s.setPort p x).stack j = s.stack j := rfl
@[simp] theorem State.pfReg_setPort (p : Nat) (x : Port) (j : Nat) : (s.setPort p x).pfReg j = s.pfReg j := rfl
@[simp] theorem State.vfReg_setPort (p : Nat) (x : Port) (j i : Nat) : (s.setPort p x).vfReg j i = s.vfReg j i := rfl

/-! ### `State.setPf` -/

@[simp] theorem State.setPf_pending (off : Nat) (v : W64) : (s.setPf off v).pending = s.pending := rfl
@[simp] theorem State.setPf_free (off : Nat) (v : W64) : (s.setPf off v).free = s.free := rfl
@[simp] theorem State.setPf_time (off : Nat) (v : W64) : (s.setPf off v).time = s.time := rfl
@[simp] theorem State.setPf_dev (off : Nat) (v : W64) : (s.setPf off v).dev = s.dev := rfl
@[simp] theorem State.setPf_vf (off : Nat) (v : W64) : (s.setPf off v).vf = s.vf := rfl
@[simp] theorem State.setPf_owners (off : Nat) (v : W64) : (s.setPf off v).owners = s.owners := rfl
@[simp] theorem State.setPf_cores (off : Nat) (v : W64) : (s.setPf off v).cores = s.cores := rfl
@[simp] theorem State.setPf_ctxs (off : Nat) (v : W64) : (s.setPf off v).ctxs = s.ctxs := rfl
@[simp] theorem State.setPf_parts (off : Nat) (v : W64) : (s.setPf off v).parts = s.parts := rfl
@[simp] theorem State.setPf_regions (off : Nat) (v : W64) : (s.setPf off v).regions = s.regions := rfl
@[simp] theorem State.setPf_stks (off : Nat) (v : W64) : (s.setPf off v).stks = s.stks := rfl
@[simp] theorem State.setPf_ports (off : Nat) (v : W64) : (s.setPf off v).ports = s.ports := rfl
@[simp] theorem State.setPf_wellEv (off : Nat) (v : W64) : (s.setPf off v).wellEv = s.wellEv := rfl
@[simp] theorem State.setPf_mem (off : Nat) (v : W64) : (s.setPf off v).mem = s.mem := rfl
@[simp] theorem State.setPf_upsets (off : Nat) (v : W64) : (s.setPf off v).upsets = s.upsets := rfl
@[simp] theorem State.setPf_unitKey (off : Nat) (v : W64) : (s.setPf off v).unitKey = s.unitKey := rfl
@[simp] theorem State.setPf_frames (off : Nat) (v : W64) : (s.setPf off v).frames = s.frames := rfl
@[simp] theorem State.setPf_dirs (off : Nat) (v : W64) : (s.setPf off v).dirs = s.dirs := rfl
@[simp] theorem State.setPf_err (off : Nat) (v : W64) : (s.setPf off v).err = s.err := rfl
@[simp] theorem State.setPf_hang (off : Nat) (v : W64) : (s.setPf off v).hang = s.hang := rfl
@[simp] theorem State.setPf_belv (off : Nat) (v : W64) : (s.setPf off v).belv = s.belv := rfl
@[simp] theorem State.setPf_pwr (off : Nat) (v : W64) : (s.setPf off v).pwr = s.pwr := rfl
@[simp] theorem State.setPf_host (off : Nat) (v : W64) : (s.setPf off v).host = s.host := rfl
@[simp] theorem State.setPf_msix (off : Nat) (v : W64) : (s.setPf off v).msix = s.msix := rfl
@[simp] theorem State.setPf_rdata (off : Nat) (v : W64) : (s.setPf off v).rdata = s.rdata := rfl
@[simp] theorem State.core_setPf (off : Nat) (v : W64) (j : Nat) : (s.setPf off v).core j = s.core j := rfl
@[simp] theorem State.ctx_setPf (off : Nat) (v : W64) (j : Nat) : (s.setPf off v).ctx j = s.ctx j := rfl
@[simp] theorem State.part_setPf (off : Nat) (v : W64) (j : Nat) : (s.setPf off v).part j = s.part j := rfl
@[simp] theorem State.region_setPf (off : Nat) (v : W64) (j : Nat) : (s.setPf off v).region j = s.region j := rfl
@[simp] theorem State.stack_setPf (off : Nat) (v : W64) (j : Nat) : (s.setPf off v).stack j = s.stack j := rfl
@[simp] theorem State.port_setPf (off : Nat) (v : W64) (j : Nat) : (s.setPf off v).port j = s.port j := rfl
@[simp] theorem State.vfReg_setPf (off : Nat) (v : W64) (j i : Nat) : (s.setPf off v).vfReg j i = s.vfReg j i := rfl

/-! ### `State.setVf` -/

@[simp] theorem State.setVf_pending (fn off : Nat) (v : W64) : (s.setVf fn off v).pending = s.pending := rfl
@[simp] theorem State.setVf_free (fn off : Nat) (v : W64) : (s.setVf fn off v).free = s.free := rfl
@[simp] theorem State.setVf_time (fn off : Nat) (v : W64) : (s.setVf fn off v).time = s.time := rfl
@[simp] theorem State.setVf_dev (fn off : Nat) (v : W64) : (s.setVf fn off v).dev = s.dev := rfl
@[simp] theorem State.setVf_pf (fn off : Nat) (v : W64) : (s.setVf fn off v).pf = s.pf := rfl
@[simp] theorem State.setVf_owners (fn off : Nat) (v : W64) : (s.setVf fn off v).owners = s.owners := rfl
@[simp] theorem State.setVf_cores (fn off : Nat) (v : W64) : (s.setVf fn off v).cores = s.cores := rfl
@[simp] theorem State.setVf_ctxs (fn off : Nat) (v : W64) : (s.setVf fn off v).ctxs = s.ctxs := rfl
@[simp] theorem State.setVf_parts (fn off : Nat) (v : W64) : (s.setVf fn off v).parts = s.parts := rfl
@[simp] theorem State.setVf_regions (fn off : Nat) (v : W64) : (s.setVf fn off v).regions = s.regions := rfl
@[simp] theorem State.setVf_stks (fn off : Nat) (v : W64) : (s.setVf fn off v).stks = s.stks := rfl
@[simp] theorem State.setVf_ports (fn off : Nat) (v : W64) : (s.setVf fn off v).ports = s.ports := rfl
@[simp] theorem State.setVf_wellEv (fn off : Nat) (v : W64) : (s.setVf fn off v).wellEv = s.wellEv := rfl
@[simp] theorem State.setVf_mem (fn off : Nat) (v : W64) : (s.setVf fn off v).mem = s.mem := rfl
@[simp] theorem State.setVf_upsets (fn off : Nat) (v : W64) : (s.setVf fn off v).upsets = s.upsets := rfl
@[simp] theorem State.setVf_unitKey (fn off : Nat) (v : W64) : (s.setVf fn off v).unitKey = s.unitKey := rfl
@[simp] theorem State.setVf_frames (fn off : Nat) (v : W64) : (s.setVf fn off v).frames = s.frames := rfl
@[simp] theorem State.setVf_dirs (fn off : Nat) (v : W64) : (s.setVf fn off v).dirs = s.dirs := rfl
@[simp] theorem State.setVf_err (fn off : Nat) (v : W64) : (s.setVf fn off v).err = s.err := rfl
@[simp] theorem State.setVf_hang (fn off : Nat) (v : W64) : (s.setVf fn off v).hang = s.hang := rfl
@[simp] theorem State.setVf_belv (fn off : Nat) (v : W64) : (s.setVf fn off v).belv = s.belv := rfl
@[simp] theorem State.setVf_pwr (fn off : Nat) (v : W64) : (s.setVf fn off v).pwr = s.pwr := rfl
@[simp] theorem State.setVf_host (fn off : Nat) (v : W64) : (s.setVf fn off v).host = s.host := rfl
@[simp] theorem State.setVf_msix (fn off : Nat) (v : W64) : (s.setVf fn off v).msix = s.msix := rfl
@[simp] theorem State.setVf_rdata (fn off : Nat) (v : W64) : (s.setVf fn off v).rdata = s.rdata := rfl
@[simp] theorem State.core_setVf (fn off : Nat) (v : W64) (j : Nat) : (s.setVf fn off v).core j = s.core j := rfl
@[simp] theorem State.ctx_setVf (fn off : Nat) (v : W64) (j : Nat) : (s.setVf fn off v).ctx j = s.ctx j := rfl
@[simp] theorem State.part_setVf (fn off : Nat) (v : W64) (j : Nat) : (s.setVf fn off v).part j = s.part j := rfl
@[simp] theorem State.region_setVf (fn off : Nat) (v : W64) (j : Nat) : (s.setVf fn off v).region j = s.region j := rfl
@[simp] theorem State.stack_setVf (fn off : Nat) (v : W64) (j : Nat) : (s.setVf fn off v).stack j = s.stack j := rfl
@[simp] theorem State.port_setVf (fn off : Nat) (v : W64) (j : Nat) : (s.setVf fn off v).port j = s.port j := rfl
@[simp] theorem State.pfReg_setVf (fn off : Nat) (v : W64) (j : Nat) : (s.setVf fn off v).pfReg j = s.pfReg j := rfl

/-! ### `State.drawn` -/

@[simp] theorem State.drawn_pending : (s.drawn).pending = s.pending := rfl
@[simp] theorem State.drawn_time : (s.drawn).time = s.time := rfl
@[simp] theorem State.drawn_dev : (s.drawn).dev = s.dev := rfl
@[simp] theorem State.drawn_pf : (s.drawn).pf = s.pf := rfl
@[simp] theorem State.drawn_vf : (s.drawn).vf = s.vf := rfl
@[simp] theorem State.drawn_owners : (s.drawn).owners = s.owners := rfl
@[simp] theorem State.drawn_cores : (s.drawn).cores = s.cores := rfl
@[simp] theorem State.drawn_ctxs : (s.drawn).ctxs = s.ctxs := rfl
@[simp] theorem State.drawn_parts : (s.drawn).parts = s.parts := rfl
@[simp] theorem State.drawn_regions : (s.drawn).regions = s.regions := rfl
@[simp] theorem State.drawn_stks : (s.drawn).stks = s.stks := rfl
@[simp] theorem State.drawn_ports : (s.drawn).ports = s.ports := rfl
@[simp] theorem State.drawn_wellEv : (s.drawn).wellEv = s.wellEv := rfl
@[simp] theorem State.drawn_mem : (s.drawn).mem = s.mem := rfl
@[simp] theorem State.drawn_upsets : (s.drawn).upsets = s.upsets := rfl
@[simp] theorem State.drawn_unitKey : (s.drawn).unitKey = s.unitKey := rfl
@[simp] theorem State.drawn_frames : (s.drawn).frames = s.frames := rfl
@[simp] theorem State.drawn_dirs : (s.drawn).dirs = s.dirs := rfl
@[simp] theorem State.drawn_err : (s.drawn).err = s.err := rfl
@[simp] theorem State.drawn_hang : (s.drawn).hang = s.hang := rfl
@[simp] theorem State.drawn_belv : (s.drawn).belv = s.belv := rfl
@[simp] theorem State.drawn_pwr : (s.drawn).pwr = s.pwr := rfl
@[simp] theorem State.drawn_host : (s.drawn).host = s.host := rfl
@[simp] theorem State.drawn_msix : (s.drawn).msix = s.msix := rfl
@[simp] theorem State.drawn_rdata : (s.drawn).rdata = s.rdata := rfl
@[simp] theorem State.core_drawn (j : Nat) : (s.drawn).core j = s.core j := rfl
@[simp] theorem State.ctx_drawn (j : Nat) : (s.drawn).ctx j = s.ctx j := rfl
@[simp] theorem State.part_drawn (j : Nat) : (s.drawn).part j = s.part j := rfl
@[simp] theorem State.region_drawn (j : Nat) : (s.drawn).region j = s.region j := rfl
@[simp] theorem State.stack_drawn (j : Nat) : (s.drawn).stack j = s.stack j := rfl
@[simp] theorem State.port_drawn (j : Nat) : (s.drawn).port j = s.port j := rfl
@[simp] theorem State.pfReg_drawn (j : Nat) : (s.drawn).pfReg j = s.pfReg j := rfl
@[simp] theorem State.vfReg_drawn (j i : Nat) : (s.drawn).vfReg j i = s.vfReg j i := rfl

/-! ### `State.onCore` -/

@[simp] theorem State.onCore_pending (c : Nat) (f : PCore → PCore) : (s.onCore c f).pending = s.pending := rfl
@[simp] theorem State.onCore_free (c : Nat) (f : PCore → PCore) : (s.onCore c f).free = s.free := rfl
@[simp] theorem State.onCore_time (c : Nat) (f : PCore → PCore) : (s.onCore c f).time = s.time := rfl
@[simp] theorem State.onCore_dev (c : Nat) (f : PCore → PCore) : (s.onCore c f).dev = s.dev := rfl
@[simp] theorem State.onCore_pf (c : Nat) (f : PCore → PCore) : (s.onCore c f).pf = s.pf := rfl
@[simp] theorem State.onCore_vf (c : Nat) (f : PCore → PCore) : (s.onCore c f).vf = s.vf := rfl
@[simp] theorem State.onCore_owners (c : Nat) (f : PCore → PCore) : (s.onCore c f).owners = s.owners := rfl
@[simp] theorem State.onCore_ctxs (c : Nat) (f : PCore → PCore) : (s.onCore c f).ctxs = s.ctxs := rfl
@[simp] theorem State.onCore_parts (c : Nat) (f : PCore → PCore) : (s.onCore c f).parts = s.parts := rfl
@[simp] theorem State.onCore_regions (c : Nat) (f : PCore → PCore) : (s.onCore c f).regions = s.regions := rfl
@[simp] theorem State.onCore_stks (c : Nat) (f : PCore → PCore) : (s.onCore c f).stks = s.stks := rfl
@[simp] theorem State.onCore_ports (c : Nat) (f : PCore → PCore) : (s.onCore c f).ports = s.ports := rfl
@[simp] theorem State.onCore_wellEv (c : Nat) (f : PCore → PCore) : (s.onCore c f).wellEv = s.wellEv := rfl
@[simp] theorem State.onCore_mem (c : Nat) (f : PCore → PCore) : (s.onCore c f).mem = s.mem := rfl
@[simp] theorem State.onCore_upsets (c : Nat) (f : PCore → PCore) : (s.onCore c f).upsets = s.upsets := rfl
@[simp] theorem State.onCore_unitKey (c : Nat) (f : PCore → PCore) : (s.onCore c f).unitKey = s.unitKey := rfl
@[simp] theorem State.onCore_frames (c : Nat) (f : PCore → PCore) : (s.onCore c f).frames = s.frames := rfl
@[simp] theorem State.onCore_dirs (c : Nat) (f : PCore → PCore) : (s.onCore c f).dirs = s.dirs := rfl
@[simp] theorem State.onCore_err (c : Nat) (f : PCore → PCore) : (s.onCore c f).err = s.err := rfl
@[simp] theorem State.onCore_hang (c : Nat) (f : PCore → PCore) : (s.onCore c f).hang = s.hang := rfl
@[simp] theorem State.onCore_belv (c : Nat) (f : PCore → PCore) : (s.onCore c f).belv = s.belv := rfl
@[simp] theorem State.onCore_pwr (c : Nat) (f : PCore → PCore) : (s.onCore c f).pwr = s.pwr := rfl
@[simp] theorem State.onCore_host (c : Nat) (f : PCore → PCore) : (s.onCore c f).host = s.host := rfl
@[simp] theorem State.onCore_msix (c : Nat) (f : PCore → PCore) : (s.onCore c f).msix = s.msix := rfl
@[simp] theorem State.onCore_rdata (c : Nat) (f : PCore → PCore) : (s.onCore c f).rdata = s.rdata := rfl
@[simp] theorem State.ctx_onCore (c : Nat) (f : PCore → PCore) (j : Nat) : (s.onCore c f).ctx j = s.ctx j := rfl
@[simp] theorem State.part_onCore (c : Nat) (f : PCore → PCore) (j : Nat) : (s.onCore c f).part j = s.part j := rfl
@[simp] theorem State.region_onCore (c : Nat) (f : PCore → PCore) (j : Nat) : (s.onCore c f).region j = s.region j := rfl
@[simp] theorem State.stack_onCore (c : Nat) (f : PCore → PCore) (j : Nat) : (s.onCore c f).stack j = s.stack j := rfl
@[simp] theorem State.port_onCore (c : Nat) (f : PCore → PCore) (j : Nat) : (s.onCore c f).port j = s.port j := rfl
@[simp] theorem State.pfReg_onCore (c : Nat) (f : PCore → PCore) (j : Nat) : (s.onCore c f).pfReg j = s.pfReg j := rfl
@[simp] theorem State.vfReg_onCore (c : Nat) (f : PCore → PCore) (j i : Nat) : (s.onCore c f).vfReg j i = s.vfReg j i := rfl

/-! ### `State.onCtx` -/

@[simp] theorem State.onCtx_pending (n : Nat) (f : Ctx → Ctx) : (s.onCtx n f).pending = s.pending := rfl
@[simp] theorem State.onCtx_free (n : Nat) (f : Ctx → Ctx) : (s.onCtx n f).free = s.free := rfl
@[simp] theorem State.onCtx_time (n : Nat) (f : Ctx → Ctx) : (s.onCtx n f).time = s.time := rfl
@[simp] theorem State.onCtx_dev (n : Nat) (f : Ctx → Ctx) : (s.onCtx n f).dev = s.dev := rfl
@[simp] theorem State.onCtx_pf (n : Nat) (f : Ctx → Ctx) : (s.onCtx n f).pf = s.pf := rfl
@[simp] theorem State.onCtx_vf (n : Nat) (f : Ctx → Ctx) : (s.onCtx n f).vf = s.vf := rfl
@[simp] theorem State.onCtx_owners (n : Nat) (f : Ctx → Ctx) : (s.onCtx n f).owners = s.owners := rfl
@[simp] theorem State.onCtx_cores (n : Nat) (f : Ctx → Ctx) : (s.onCtx n f).cores = s.cores := rfl
@[simp] theorem State.onCtx_parts (n : Nat) (f : Ctx → Ctx) : (s.onCtx n f).parts = s.parts := rfl
@[simp] theorem State.onCtx_regions (n : Nat) (f : Ctx → Ctx) : (s.onCtx n f).regions = s.regions := rfl
@[simp] theorem State.onCtx_stks (n : Nat) (f : Ctx → Ctx) : (s.onCtx n f).stks = s.stks := rfl
@[simp] theorem State.onCtx_ports (n : Nat) (f : Ctx → Ctx) : (s.onCtx n f).ports = s.ports := rfl
@[simp] theorem State.onCtx_wellEv (n : Nat) (f : Ctx → Ctx) : (s.onCtx n f).wellEv = s.wellEv := rfl
@[simp] theorem State.onCtx_mem (n : Nat) (f : Ctx → Ctx) : (s.onCtx n f).mem = s.mem := rfl
@[simp] theorem State.onCtx_upsets (n : Nat) (f : Ctx → Ctx) : (s.onCtx n f).upsets = s.upsets := rfl
@[simp] theorem State.onCtx_unitKey (n : Nat) (f : Ctx → Ctx) : (s.onCtx n f).unitKey = s.unitKey := rfl
@[simp] theorem State.onCtx_frames (n : Nat) (f : Ctx → Ctx) : (s.onCtx n f).frames = s.frames := rfl
@[simp] theorem State.onCtx_dirs (n : Nat) (f : Ctx → Ctx) : (s.onCtx n f).dirs = s.dirs := rfl
@[simp] theorem State.onCtx_err (n : Nat) (f : Ctx → Ctx) : (s.onCtx n f).err = s.err := rfl
@[simp] theorem State.onCtx_hang (n : Nat) (f : Ctx → Ctx) : (s.onCtx n f).hang = s.hang := rfl
@[simp] theorem State.onCtx_belv (n : Nat) (f : Ctx → Ctx) : (s.onCtx n f).belv = s.belv := rfl
@[simp] theorem State.onCtx_pwr (n : Nat) (f : Ctx → Ctx) : (s.onCtx n f).pwr = s.pwr := rfl
@[simp] theorem State.onCtx_host (n : Nat) (f : Ctx → Ctx) : (s.onCtx n f).host = s.host := rfl
@[simp] theorem State.onCtx_msix (n : Nat) (f : Ctx → Ctx) : (s.onCtx n f).msix = s.msix := rfl
@[simp] theorem State.onCtx_rdata (n : Nat) (f : Ctx → Ctx) : (s.onCtx n f).rdata = s.rdata := rfl
@[simp] theorem State.core_onCtx (n : Nat) (f : Ctx → Ctx) (j : Nat) : (s.onCtx n f).core j = s.core j := rfl
@[simp] theorem State.part_onCtx (n : Nat) (f : Ctx → Ctx) (j : Nat) : (s.onCtx n f).part j = s.part j := rfl
@[simp] theorem State.region_onCtx (n : Nat) (f : Ctx → Ctx) (j : Nat) : (s.onCtx n f).region j = s.region j := rfl
@[simp] theorem State.stack_onCtx (n : Nat) (f : Ctx → Ctx) (j : Nat) : (s.onCtx n f).stack j = s.stack j := rfl
@[simp] theorem State.port_onCtx (n : Nat) (f : Ctx → Ctx) (j : Nat) : (s.onCtx n f).port j = s.port j := rfl
@[simp] theorem State.pfReg_onCtx (n : Nat) (f : Ctx → Ctx) (j : Nat) : (s.onCtx n f).pfReg j = s.pfReg j := rfl
@[simp] theorem State.vfReg_onCtx (n : Nat) (f : Ctx → Ctx) (j i : Nat) : (s.onCtx n f).vfReg j i = s.vfReg j i := rfl

/-! ### `State.onPart` -/

@[simp] theorem State.onPart_pending (p : Nat) (f : Part → Part) : (s.onPart p f).pending = s.pending := rfl
@[simp] theorem State.onPart_free (p : Nat) (f : Part → Part) : (s.onPart p f).free = s.free := rfl
@[simp] theorem State.onPart_time (p : Nat) (f : Part → Part) : (s.onPart p f).time = s.time := rfl
@[simp] theorem State.onPart_dev (p : Nat) (f : Part → Part) : (s.onPart p f).dev = s.dev := rfl
@[simp] theorem State.onPart_pf (p : Nat) (f : Part → Part) : (s.onPart p f).pf = s.pf := rfl
@[simp] theorem State.onPart_vf (p : Nat) (f : Part → Part) : (s.onPart p f).vf = s.vf := rfl
@[simp] theorem State.onPart_owners (p : Nat) (f : Part → Part) : (s.onPart p f).owners = s.owners := rfl
@[simp] theorem State.onPart_cores (p : Nat) (f : Part → Part) : (s.onPart p f).cores = s.cores := rfl
@[simp] theorem State.onPart_ctxs (p : Nat) (f : Part → Part) : (s.onPart p f).ctxs = s.ctxs := rfl
@[simp] theorem State.onPart_regions (p : Nat) (f : Part → Part) : (s.onPart p f).regions = s.regions := rfl
@[simp] theorem State.onPart_stks (p : Nat) (f : Part → Part) : (s.onPart p f).stks = s.stks := rfl
@[simp] theorem State.onPart_ports (p : Nat) (f : Part → Part) : (s.onPart p f).ports = s.ports := rfl
@[simp] theorem State.onPart_wellEv (p : Nat) (f : Part → Part) : (s.onPart p f).wellEv = s.wellEv := rfl
@[simp] theorem State.onPart_mem (p : Nat) (f : Part → Part) : (s.onPart p f).mem = s.mem := rfl
@[simp] theorem State.onPart_upsets (p : Nat) (f : Part → Part) : (s.onPart p f).upsets = s.upsets := rfl
@[simp] theorem State.onPart_unitKey (p : Nat) (f : Part → Part) : (s.onPart p f).unitKey = s.unitKey := rfl
@[simp] theorem State.onPart_frames (p : Nat) (f : Part → Part) : (s.onPart p f).frames = s.frames := rfl
@[simp] theorem State.onPart_dirs (p : Nat) (f : Part → Part) : (s.onPart p f).dirs = s.dirs := rfl
@[simp] theorem State.onPart_err (p : Nat) (f : Part → Part) : (s.onPart p f).err = s.err := rfl
@[simp] theorem State.onPart_hang (p : Nat) (f : Part → Part) : (s.onPart p f).hang = s.hang := rfl
@[simp] theorem State.onPart_belv (p : Nat) (f : Part → Part) : (s.onPart p f).belv = s.belv := rfl
@[simp] theorem State.onPart_pwr (p : Nat) (f : Part → Part) : (s.onPart p f).pwr = s.pwr := rfl
@[simp] theorem State.onPart_host (p : Nat) (f : Part → Part) : (s.onPart p f).host = s.host := rfl
@[simp] theorem State.onPart_msix (p : Nat) (f : Part → Part) : (s.onPart p f).msix = s.msix := rfl
@[simp] theorem State.onPart_rdata (p : Nat) (f : Part → Part) : (s.onPart p f).rdata = s.rdata := rfl
@[simp] theorem State.core_onPart (p : Nat) (f : Part → Part) (j : Nat) : (s.onPart p f).core j = s.core j := rfl
@[simp] theorem State.ctx_onPart (p : Nat) (f : Part → Part) (j : Nat) : (s.onPart p f).ctx j = s.ctx j := rfl
@[simp] theorem State.region_onPart (p : Nat) (f : Part → Part) (j : Nat) : (s.onPart p f).region j = s.region j := rfl
@[simp] theorem State.stack_onPart (p : Nat) (f : Part → Part) (j : Nat) : (s.onPart p f).stack j = s.stack j := rfl
@[simp] theorem State.port_onPart (p : Nat) (f : Part → Part) (j : Nat) : (s.onPart p f).port j = s.port j := rfl
@[simp] theorem State.pfReg_onPart (p : Nat) (f : Part → Part) (j : Nat) : (s.onPart p f).pfReg j = s.pfReg j := rfl
@[simp] theorem State.vfReg_onPart (p : Nat) (f : Part → Part) (j i : Nat) : (s.onPart p f).vfReg j i = s.vfReg j i := rfl

/-! ### `State.onRegion` -/

@[simp] theorem State.onRegion_pending (r : Nat) (f : Region → Region) : (s.onRegion r f).pending = s.pending := rfl
@[simp] theorem State.onRegion_free (r : Nat) (f : Region → Region) : (s.onRegion r f).free = s.free := rfl
@[simp] theorem State.onRegion_time (r : Nat) (f : Region → Region) : (s.onRegion r f).time = s.time := rfl
@[simp] theorem State.onRegion_dev (r : Nat) (f : Region → Region) : (s.onRegion r f).dev = s.dev := rfl
@[simp] theorem State.onRegion_pf (r : Nat) (f : Region → Region) : (s.onRegion r f).pf = s.pf := rfl
@[simp] theorem State.onRegion_vf (r : Nat) (f : Region → Region) : (s.onRegion r f).vf = s.vf := rfl
@[simp] theorem State.onRegion_owners (r : Nat) (f : Region → Region) : (s.onRegion r f).owners = s.owners := rfl
@[simp] theorem State.onRegion_cores (r : Nat) (f : Region → Region) : (s.onRegion r f).cores = s.cores := rfl
@[simp] theorem State.onRegion_ctxs (r : Nat) (f : Region → Region) : (s.onRegion r f).ctxs = s.ctxs := rfl
@[simp] theorem State.onRegion_parts (r : Nat) (f : Region → Region) : (s.onRegion r f).parts = s.parts := rfl
@[simp] theorem State.onRegion_stks (r : Nat) (f : Region → Region) : (s.onRegion r f).stks = s.stks := rfl
@[simp] theorem State.onRegion_ports (r : Nat) (f : Region → Region) : (s.onRegion r f).ports = s.ports := rfl
@[simp] theorem State.onRegion_wellEv (r : Nat) (f : Region → Region) : (s.onRegion r f).wellEv = s.wellEv := rfl
@[simp] theorem State.onRegion_mem (r : Nat) (f : Region → Region) : (s.onRegion r f).mem = s.mem := rfl
@[simp] theorem State.onRegion_upsets (r : Nat) (f : Region → Region) : (s.onRegion r f).upsets = s.upsets := rfl
@[simp] theorem State.onRegion_unitKey (r : Nat) (f : Region → Region) : (s.onRegion r f).unitKey = s.unitKey := rfl
@[simp] theorem State.onRegion_frames (r : Nat) (f : Region → Region) : (s.onRegion r f).frames = s.frames := rfl
@[simp] theorem State.onRegion_dirs (r : Nat) (f : Region → Region) : (s.onRegion r f).dirs = s.dirs := rfl
@[simp] theorem State.onRegion_err (r : Nat) (f : Region → Region) : (s.onRegion r f).err = s.err := rfl
@[simp] theorem State.onRegion_hang (r : Nat) (f : Region → Region) : (s.onRegion r f).hang = s.hang := rfl
@[simp] theorem State.onRegion_belv (r : Nat) (f : Region → Region) : (s.onRegion r f).belv = s.belv := rfl
@[simp] theorem State.onRegion_pwr (r : Nat) (f : Region → Region) : (s.onRegion r f).pwr = s.pwr := rfl
@[simp] theorem State.onRegion_host (r : Nat) (f : Region → Region) : (s.onRegion r f).host = s.host := rfl
@[simp] theorem State.onRegion_msix (r : Nat) (f : Region → Region) : (s.onRegion r f).msix = s.msix := rfl
@[simp] theorem State.onRegion_rdata (r : Nat) (f : Region → Region) : (s.onRegion r f).rdata = s.rdata := rfl
@[simp] theorem State.core_onRegion (r : Nat) (f : Region → Region) (j : Nat) : (s.onRegion r f).core j = s.core j := rfl
@[simp] theorem State.ctx_onRegion (r : Nat) (f : Region → Region) (j : Nat) : (s.onRegion r f).ctx j = s.ctx j := rfl
@[simp] theorem State.part_onRegion (r : Nat) (f : Region → Region) (j : Nat) : (s.onRegion r f).part j = s.part j := rfl
@[simp] theorem State.stack_onRegion (r : Nat) (f : Region → Region) (j : Nat) : (s.onRegion r f).stack j = s.stack j := rfl
@[simp] theorem State.port_onRegion (r : Nat) (f : Region → Region) (j : Nat) : (s.onRegion r f).port j = s.port j := rfl
@[simp] theorem State.pfReg_onRegion (r : Nat) (f : Region → Region) (j : Nat) : (s.onRegion r f).pfReg j = s.pfReg j := rfl
@[simp] theorem State.vfReg_onRegion (r : Nat) (f : Region → Region) (j i : Nat) : (s.onRegion r f).vfReg j i = s.vfReg j i := rfl

/-! ### `State.onStack` -/

@[simp] theorem State.onStack_pending (k : Nat) (f : Stk → Stk) : (s.onStack k f).pending = s.pending := rfl
@[simp] theorem State.onStack_free (k : Nat) (f : Stk → Stk) : (s.onStack k f).free = s.free := rfl
@[simp] theorem State.onStack_time (k : Nat) (f : Stk → Stk) : (s.onStack k f).time = s.time := rfl
@[simp] theorem State.onStack_dev (k : Nat) (f : Stk → Stk) : (s.onStack k f).dev = s.dev := rfl
@[simp] theorem State.onStack_pf (k : Nat) (f : Stk → Stk) : (s.onStack k f).pf = s.pf := rfl
@[simp] theorem State.onStack_vf (k : Nat) (f : Stk → Stk) : (s.onStack k f).vf = s.vf := rfl
@[simp] theorem State.onStack_owners (k : Nat) (f : Stk → Stk) : (s.onStack k f).owners = s.owners := rfl
@[simp] theorem State.onStack_cores (k : Nat) (f : Stk → Stk) : (s.onStack k f).cores = s.cores := rfl
@[simp] theorem State.onStack_ctxs (k : Nat) (f : Stk → Stk) : (s.onStack k f).ctxs = s.ctxs := rfl
@[simp] theorem State.onStack_parts (k : Nat) (f : Stk → Stk) : (s.onStack k f).parts = s.parts := rfl
@[simp] theorem State.onStack_regions (k : Nat) (f : Stk → Stk) : (s.onStack k f).regions = s.regions := rfl
@[simp] theorem State.onStack_ports (k : Nat) (f : Stk → Stk) : (s.onStack k f).ports = s.ports := rfl
@[simp] theorem State.onStack_wellEv (k : Nat) (f : Stk → Stk) : (s.onStack k f).wellEv = s.wellEv := rfl
@[simp] theorem State.onStack_mem (k : Nat) (f : Stk → Stk) : (s.onStack k f).mem = s.mem := rfl
@[simp] theorem State.onStack_upsets (k : Nat) (f : Stk → Stk) : (s.onStack k f).upsets = s.upsets := rfl
@[simp] theorem State.onStack_unitKey (k : Nat) (f : Stk → Stk) : (s.onStack k f).unitKey = s.unitKey := rfl
@[simp] theorem State.onStack_frames (k : Nat) (f : Stk → Stk) : (s.onStack k f).frames = s.frames := rfl
@[simp] theorem State.onStack_dirs (k : Nat) (f : Stk → Stk) : (s.onStack k f).dirs = s.dirs := rfl
@[simp] theorem State.onStack_err (k : Nat) (f : Stk → Stk) : (s.onStack k f).err = s.err := rfl
@[simp] theorem State.onStack_hang (k : Nat) (f : Stk → Stk) : (s.onStack k f).hang = s.hang := rfl
@[simp] theorem State.onStack_belv (k : Nat) (f : Stk → Stk) : (s.onStack k f).belv = s.belv := rfl
@[simp] theorem State.onStack_pwr (k : Nat) (f : Stk → Stk) : (s.onStack k f).pwr = s.pwr := rfl
@[simp] theorem State.onStack_host (k : Nat) (f : Stk → Stk) : (s.onStack k f).host = s.host := rfl
@[simp] theorem State.onStack_msix (k : Nat) (f : Stk → Stk) : (s.onStack k f).msix = s.msix := rfl
@[simp] theorem State.onStack_rdata (k : Nat) (f : Stk → Stk) : (s.onStack k f).rdata = s.rdata := rfl
@[simp] theorem State.core_onStack (k : Nat) (f : Stk → Stk) (j : Nat) : (s.onStack k f).core j = s.core j := rfl
@[simp] theorem State.ctx_onStack (k : Nat) (f : Stk → Stk) (j : Nat) : (s.onStack k f).ctx j = s.ctx j := rfl
@[simp] theorem State.part_onStack (k : Nat) (f : Stk → Stk) (j : Nat) : (s.onStack k f).part j = s.part j := rfl
@[simp] theorem State.region_onStack (k : Nat) (f : Stk → Stk) (j : Nat) : (s.onStack k f).region j = s.region j := rfl
@[simp] theorem State.port_onStack (k : Nat) (f : Stk → Stk) (j : Nat) : (s.onStack k f).port j = s.port j := rfl
@[simp] theorem State.pfReg_onStack (k : Nat) (f : Stk → Stk) (j : Nat) : (s.onStack k f).pfReg j = s.pfReg j := rfl
@[simp] theorem State.vfReg_onStack (k : Nat) (f : Stk → Stk) (j i : Nat) : (s.onStack k f).vfReg j i = s.vfReg j i := rfl

/-! ### `State.onPort` -/

@[simp] theorem State.onPort_pending (p : Nat) (f : Port → Port) : (s.onPort p f).pending = s.pending := rfl
@[simp] theorem State.onPort_free (p : Nat) (f : Port → Port) : (s.onPort p f).free = s.free := rfl
@[simp] theorem State.onPort_time (p : Nat) (f : Port → Port) : (s.onPort p f).time = s.time := rfl
@[simp] theorem State.onPort_dev (p : Nat) (f : Port → Port) : (s.onPort p f).dev = s.dev := rfl
@[simp] theorem State.onPort_pf (p : Nat) (f : Port → Port) : (s.onPort p f).pf = s.pf := rfl
@[simp] theorem State.onPort_vf (p : Nat) (f : Port → Port) : (s.onPort p f).vf = s.vf := rfl
@[simp] theorem State.onPort_owners (p : Nat) (f : Port → Port) : (s.onPort p f).owners = s.owners := rfl
@[simp] theorem State.onPort_cores (p : Nat) (f : Port → Port) : (s.onPort p f).cores = s.cores := rfl
@[simp] theorem State.onPort_ctxs (p : Nat) (f : Port → Port) : (s.onPort p f).ctxs = s.ctxs := rfl
@[simp] theorem State.onPort_parts (p : Nat) (f : Port → Port) : (s.onPort p f).parts = s.parts := rfl
@[simp] theorem State.onPort_regions (p : Nat) (f : Port → Port) : (s.onPort p f).regions = s.regions := rfl
@[simp] theorem State.onPort_stks (p : Nat) (f : Port → Port) : (s.onPort p f).stks = s.stks := rfl
@[simp] theorem State.onPort_wellEv (p : Nat) (f : Port → Port) : (s.onPort p f).wellEv = s.wellEv := rfl
@[simp] theorem State.onPort_mem (p : Nat) (f : Port → Port) : (s.onPort p f).mem = s.mem := rfl
@[simp] theorem State.onPort_upsets (p : Nat) (f : Port → Port) : (s.onPort p f).upsets = s.upsets := rfl
@[simp] theorem State.onPort_unitKey (p : Nat) (f : Port → Port) : (s.onPort p f).unitKey = s.unitKey := rfl
@[simp] theorem State.onPort_frames (p : Nat) (f : Port → Port) : (s.onPort p f).frames = s.frames := rfl
@[simp] theorem State.onPort_dirs (p : Nat) (f : Port → Port) : (s.onPort p f).dirs = s.dirs := rfl
@[simp] theorem State.onPort_err (p : Nat) (f : Port → Port) : (s.onPort p f).err = s.err := rfl
@[simp] theorem State.onPort_hang (p : Nat) (f : Port → Port) : (s.onPort p f).hang = s.hang := rfl
@[simp] theorem State.onPort_belv (p : Nat) (f : Port → Port) : (s.onPort p f).belv = s.belv := rfl
@[simp] theorem State.onPort_pwr (p : Nat) (f : Port → Port) : (s.onPort p f).pwr = s.pwr := rfl
@[simp] theorem State.onPort_host (p : Nat) (f : Port → Port) : (s.onPort p f).host = s.host := rfl
@[simp] theorem State.onPort_msix (p : Nat) (f : Port → Port) : (s.onPort p f).msix = s.msix := rfl
@[simp] theorem State.onPort_rdata (p : Nat) (f : Port → Port) : (s.onPort p f).rdata = s.rdata := rfl
@[simp] theorem State.core_onPort (p : Nat) (f : Port → Port) (j : Nat) : (s.onPort p f).core j = s.core j := rfl
@[simp] theorem State.ctx_onPort (p : Nat) (f : Port → Port) (j : Nat) : (s.onPort p f).ctx j = s.ctx j := rfl
@[simp] theorem State.part_onPort (p : Nat) (f : Port → Port) (j : Nat) : (s.onPort p f).part j = s.part j := rfl
@[simp] theorem State.region_onPort (p : Nat) (f : Port → Port) (j : Nat) : (s.onPort p f).region j = s.region j := rfl
@[simp] theorem State.stack_onPort (p : Nat) (f : Port → Port) (j : Nat) : (s.onPort p f).stack j = s.stack j := rfl
@[simp] theorem State.pfReg_onPort (p : Nat) (f : Port → Port) (j : Nat) : (s.onPort p f).pfReg j = s.pfReg j := rfl
@[simp] theorem State.vfReg_onPort (p : Nat) (f : Port → Port) (j i : Nat) : (s.onPort p f).vfReg j i = s.vfReg j i := rfl

/-! ### `State.setX` -/

@[simp] theorem State.setX_pending (c : Nat) (x : Exec) : (s.setX c x).pending = s.pending := rfl
@[simp] theorem State.setX_free (c : Nat) (x : Exec) : (s.setX c x).free = s.free := rfl
@[simp] theorem State.setX_time (c : Nat) (x : Exec) : (s.setX c x).time = s.time := rfl
@[simp] theorem State.setX_dev (c : Nat) (x : Exec) : (s.setX c x).dev = s.dev := rfl
@[simp] theorem State.setX_pf (c : Nat) (x : Exec) : (s.setX c x).pf = s.pf := rfl
@[simp] theorem State.setX_vf (c : Nat) (x : Exec) : (s.setX c x).vf = s.vf := rfl
@[simp] theorem State.setX_owners (c : Nat) (x : Exec) : (s.setX c x).owners = s.owners := rfl
@[simp] theorem State.setX_ctxs (c : Nat) (x : Exec) : (s.setX c x).ctxs = s.ctxs := rfl
@[simp] theorem State.setX_parts (c : Nat) (x : Exec) : (s.setX c x).parts = s.parts := rfl
@[simp] theorem State.setX_regions (c : Nat) (x : Exec) : (s.setX c x).regions = s.regions := rfl
@[simp] theorem State.setX_stks (c : Nat) (x : Exec) : (s.setX c x).stks = s.stks := rfl
@[simp] theorem State.setX_ports (c : Nat) (x : Exec) : (s.setX c x).ports = s.ports := rfl
@[simp] theorem State.setX_wellEv (c : Nat) (x : Exec) : (s.setX c x).wellEv = s.wellEv := rfl
@[simp] theorem State.setX_mem (c : Nat) (x : Exec) : (s.setX c x).mem = s.mem := rfl
@[simp] theorem State.setX_upsets (c : Nat) (x : Exec) : (s.setX c x).upsets = s.upsets := rfl
@[simp] theorem State.setX_unitKey (c : Nat) (x : Exec) : (s.setX c x).unitKey = s.unitKey := rfl
@[simp] theorem State.setX_frames (c : Nat) (x : Exec) : (s.setX c x).frames = s.frames := rfl
@[simp] theorem State.setX_dirs (c : Nat) (x : Exec) : (s.setX c x).dirs = s.dirs := rfl
@[simp] theorem State.setX_err (c : Nat) (x : Exec) : (s.setX c x).err = s.err := rfl
@[simp] theorem State.setX_hang (c : Nat) (x : Exec) : (s.setX c x).hang = s.hang := rfl
@[simp] theorem State.setX_belv (c : Nat) (x : Exec) : (s.setX c x).belv = s.belv := rfl
@[simp] theorem State.setX_pwr (c : Nat) (x : Exec) : (s.setX c x).pwr = s.pwr := rfl
@[simp] theorem State.setX_host (c : Nat) (x : Exec) : (s.setX c x).host = s.host := rfl
@[simp] theorem State.setX_msix (c : Nat) (x : Exec) : (s.setX c x).msix = s.msix := rfl
@[simp] theorem State.setX_rdata (c : Nat) (x : Exec) : (s.setX c x).rdata = s.rdata := rfl
@[simp] theorem State.ctx_setX (c : Nat) (x : Exec) (j : Nat) : (s.setX c x).ctx j = s.ctx j := rfl
@[simp] theorem State.part_setX (c : Nat) (x : Exec) (j : Nat) : (s.setX c x).part j = s.part j := rfl
@[simp] theorem State.region_setX (c : Nat) (x : Exec) (j : Nat) : (s.setX c x).region j = s.region j := rfl
@[simp] theorem State.stack_setX (c : Nat) (x : Exec) (j : Nat) : (s.setX c x).stack j = s.stack j := rfl
@[simp] theorem State.port_setX (c : Nat) (x : Exec) (j : Nat) : (s.setX c x).port j = s.port j := rfl
@[simp] theorem State.pfReg_setX (c : Nat) (x : Exec) (j : Nat) : (s.setX c x).pfReg j = s.pfReg j := rfl
@[simp] theorem State.vfReg_setX (c : Nat) (x : Exec) (j i : Nat) : (s.setX c x).vfReg j i = s.vfReg j i := rfl

/-! ### `State.onX` -/

@[simp] theorem State.onX_pending (c : Nat) (f : Exec → Exec) : (s.onX c f).pending = s.pending := rfl
@[simp] theorem State.onX_free (c : Nat) (f : Exec → Exec) : (s.onX c f).free = s.free := rfl
@[simp] theorem State.onX_time (c : Nat) (f : Exec → Exec) : (s.onX c f).time = s.time := rfl
@[simp] theorem State.onX_dev (c : Nat) (f : Exec → Exec) : (s.onX c f).dev = s.dev := rfl
@[simp] theorem State.onX_pf (c : Nat) (f : Exec → Exec) : (s.onX c f).pf = s.pf := rfl
@[simp] theorem State.onX_vf (c : Nat) (f : Exec → Exec) : (s.onX c f).vf = s.vf := rfl
@[simp] theorem State.onX_owners (c : Nat) (f : Exec → Exec) : (s.onX c f).owners = s.owners := rfl
@[simp] theorem State.onX_ctxs (c : Nat) (f : Exec → Exec) : (s.onX c f).ctxs = s.ctxs := rfl
@[simp] theorem State.onX_parts (c : Nat) (f : Exec → Exec) : (s.onX c f).parts = s.parts := rfl
@[simp] theorem State.onX_regions (c : Nat) (f : Exec → Exec) : (s.onX c f).regions = s.regions := rfl
@[simp] theorem State.onX_stks (c : Nat) (f : Exec → Exec) : (s.onX c f).stks = s.stks := rfl
@[simp] theorem State.onX_ports (c : Nat) (f : Exec → Exec) : (s.onX c f).ports = s.ports := rfl
@[simp] theorem State.onX_wellEv (c : Nat) (f : Exec → Exec) : (s.onX c f).wellEv = s.wellEv := rfl
@[simp] theorem State.onX_mem (c : Nat) (f : Exec → Exec) : (s.onX c f).mem = s.mem := rfl
@[simp] theorem State.onX_upsets (c : Nat) (f : Exec → Exec) : (s.onX c f).upsets = s.upsets := rfl
@[simp] theorem State.onX_unitKey (c : Nat) (f : Exec → Exec) : (s.onX c f).unitKey = s.unitKey := rfl
@[simp] theorem State.onX_frames (c : Nat) (f : Exec → Exec) : (s.onX c f).frames = s.frames := rfl
@[simp] theorem State.onX_dirs (c : Nat) (f : Exec → Exec) : (s.onX c f).dirs = s.dirs := rfl
@[simp] theorem State.onX_err (c : Nat) (f : Exec → Exec) : (s.onX c f).err = s.err := rfl
@[simp] theorem State.onX_hang (c : Nat) (f : Exec → Exec) : (s.onX c f).hang = s.hang := rfl
@[simp] theorem State.onX_belv (c : Nat) (f : Exec → Exec) : (s.onX c f).belv = s.belv := rfl
@[simp] theorem State.onX_pwr (c : Nat) (f : Exec → Exec) : (s.onX c f).pwr = s.pwr := rfl
@[simp] theorem State.onX_host (c : Nat) (f : Exec → Exec) : (s.onX c f).host = s.host := rfl
@[simp] theorem State.onX_msix (c : Nat) (f : Exec → Exec) : (s.onX c f).msix = s.msix := rfl
@[simp] theorem State.onX_rdata (c : Nat) (f : Exec → Exec) : (s.onX c f).rdata = s.rdata := rfl
@[simp] theorem State.ctx_onX (c : Nat) (f : Exec → Exec) (j : Nat) : (s.onX c f).ctx j = s.ctx j := rfl
@[simp] theorem State.part_onX (c : Nat) (f : Exec → Exec) (j : Nat) : (s.onX c f).part j = s.part j := rfl
@[simp] theorem State.region_onX (c : Nat) (f : Exec → Exec) (j : Nat) : (s.onX c f).region j = s.region j := rfl
@[simp] theorem State.stack_onX (c : Nat) (f : Exec → Exec) (j : Nat) : (s.onX c f).stack j = s.stack j := rfl
@[simp] theorem State.port_onX (c : Nat) (f : Exec → Exec) (j : Nat) : (s.onX c f).port j = s.port j := rfl
@[simp] theorem State.pfReg_onX (c : Nat) (f : Exec → Exec) (j : Nat) : (s.onX c f).pfReg j = s.pfReg j := rfl
@[simp] theorem State.vfReg_onX (c : Nat) (f : Exec → Exec) (j i : Nat) : (s.onX c f).vfReg j i = s.vfReg j i := rfl

/-! ### `State.onRegs` -/

@[simp] theorem State.onRegs_pending (c : Nat) (f : Regs → Regs) : (s.onRegs c f).pending = s.pending := rfl
@[simp] theorem State.onRegs_free (c : Nat) (f : Regs → Regs) : (s.onRegs c f).free = s.free := rfl
@[simp] theorem State.onRegs_time (c : Nat) (f : Regs → Regs) : (s.onRegs c f).time = s.time := rfl
@[simp] theorem State.onRegs_dev (c : Nat) (f : Regs → Regs) : (s.onRegs c f).dev = s.dev := rfl
@[simp] theorem State.onRegs_pf (c : Nat) (f : Regs → Regs) : (s.onRegs c f).pf = s.pf := rfl
@[simp] theorem State.onRegs_vf (c : Nat) (f : Regs → Regs) : (s.onRegs c f).vf = s.vf := rfl
@[simp] theorem State.onRegs_owners (c : Nat) (f : Regs → Regs) : (s.onRegs c f).owners = s.owners := rfl
@[simp] theorem State.onRegs_ctxs (c : Nat) (f : Regs → Regs) : (s.onRegs c f).ctxs = s.ctxs := rfl
@[simp] theorem State.onRegs_parts (c : Nat) (f : Regs → Regs) : (s.onRegs c f).parts = s.parts := rfl
@[simp] theorem State.onRegs_regions (c : Nat) (f : Regs → Regs) : (s.onRegs c f).regions = s.regions := rfl
@[simp] theorem State.onRegs_stks (c : Nat) (f : Regs → Regs) : (s.onRegs c f).stks = s.stks := rfl
@[simp] theorem State.onRegs_ports (c : Nat) (f : Regs → Regs) : (s.onRegs c f).ports = s.ports := rfl
@[simp] theorem State.onRegs_wellEv (c : Nat) (f : Regs → Regs) : (s.onRegs c f).wellEv = s.wellEv := rfl
@[simp] theorem State.onRegs_mem (c : Nat) (f : Regs → Regs) : (s.onRegs c f).mem = s.mem := rfl
@[simp] theorem State.onRegs_upsets (c : Nat) (f : Regs → Regs) : (s.onRegs c f).upsets = s.upsets := rfl
@[simp] theorem State.onRegs_unitKey (c : Nat) (f : Regs → Regs) : (s.onRegs c f).unitKey = s.unitKey := rfl
@[simp] theorem State.onRegs_frames (c : Nat) (f : Regs → Regs) : (s.onRegs c f).frames = s.frames := rfl
@[simp] theorem State.onRegs_dirs (c : Nat) (f : Regs → Regs) : (s.onRegs c f).dirs = s.dirs := rfl
@[simp] theorem State.onRegs_err (c : Nat) (f : Regs → Regs) : (s.onRegs c f).err = s.err := rfl
@[simp] theorem State.onRegs_hang (c : Nat) (f : Regs → Regs) : (s.onRegs c f).hang = s.hang := rfl
@[simp] theorem State.onRegs_belv (c : Nat) (f : Regs → Regs) : (s.onRegs c f).belv = s.belv := rfl
@[simp] theorem State.onRegs_pwr (c : Nat) (f : Regs → Regs) : (s.onRegs c f).pwr = s.pwr := rfl
@[simp] theorem State.onRegs_host (c : Nat) (f : Regs → Regs) : (s.onRegs c f).host = s.host := rfl
@[simp] theorem State.onRegs_msix (c : Nat) (f : Regs → Regs) : (s.onRegs c f).msix = s.msix := rfl
@[simp] theorem State.onRegs_rdata (c : Nat) (f : Regs → Regs) : (s.onRegs c f).rdata = s.rdata := rfl
@[simp] theorem State.ctx_onRegs (c : Nat) (f : Regs → Regs) (j : Nat) : (s.onRegs c f).ctx j = s.ctx j := rfl
@[simp] theorem State.part_onRegs (c : Nat) (f : Regs → Regs) (j : Nat) : (s.onRegs c f).part j = s.part j := rfl
@[simp] theorem State.region_onRegs (c : Nat) (f : Regs → Regs) (j : Nat) : (s.onRegs c f).region j = s.region j := rfl
@[simp] theorem State.stack_onRegs (c : Nat) (f : Regs → Regs) (j : Nat) : (s.onRegs c f).stack j = s.stack j := rfl
@[simp] theorem State.port_onRegs (c : Nat) (f : Regs → Regs) (j : Nat) : (s.onRegs c f).port j = s.port j := rfl
@[simp] theorem State.pfReg_onRegs (c : Nat) (f : Regs → Regs) (j : Nat) : (s.onRegs c f).pfReg j = s.pfReg j := rfl
@[simp] theorem State.vfReg_onRegs (c : Nat) (f : Regs → Regs) (j i : Nat) : (s.onRegs c f).vfReg j i = s.vfReg j i := rfl

/-! ### A part after its update -/

@[simp] theorem State.core_setCore_same (c : Nat) (p : PCore) : (s.setCore c p).core c = p := by
  simp [State.core, State.setCore]
@[simp] theorem State.core_setCore_ne (c d : Nat) (p : PCore) (h : d ≠ c) : (s.setCore c p).core d = s.core d := by
  simp [State.core, State.setCore, h]
@[simp] theorem State.core_onCore_same (c : Nat) (f : PCore → PCore) : (s.onCore c f).core c = f (s.core c) := by
  simp [State.onCore]
@[simp] theorem State.core_onCore_ne (c d : Nat) (f : PCore → PCore) (h : d ≠ c) :
    (s.onCore c f).core d = s.core d := by simp [State.onCore, h]
@[simp] theorem State.x_onX_same (c : Nat) (f : Exec → Exec) : (s.onX c f).x c = f (s.x c) := by
  simp [State.onX, State.setX, State.x]
@[simp] theorem State.core_onX_same (c : Nat) (f : Exec → Exec) :
    (s.onX c f).core c = { s.core c with x := f (s.core c).x } := by simp [State.onX, State.setX, State.x]
@[simp] theorem State.core_onX_ne (c d : Nat) (f : Exec → Exec) (h : d ≠ c) : (s.onX c f).core d = s.core d := by
  simp [State.onX, State.setX, h]
@[simp] theorem State.x_onX_ne (c d : Nat) (f : Exec → Exec) (h : d ≠ c) : (s.onX c f).x d = s.x d := by
  simp [State.x, h]
@[simp] theorem State.regs_onRegs_same (c : Nat) (f : Regs → Regs) : (s.onRegs c f).regs c = f (s.regs c) := by
  simp [State.onRegs, State.regs]
@[simp] theorem State.regs_onRegs_ne (c d : Nat) (f : Regs → Regs) (h : d ≠ c) :
    (s.onRegs c f).regs d = s.regs d := by simp [State.onRegs, State.regs, h]
@[simp] theorem State.core_onRegs_ne (c d : Nat) (f : Regs → Regs) (h : d ≠ c) :
    (s.onRegs c f).core d = s.core d := by simp [State.onRegs, h]

@[simp] theorem State.ctx_setCtx_same (k : Nat) (x : Ctx) : (s.setCtx k x).ctx k = x := by
  simp [State.ctx, State.setCtx]
@[simp] theorem State.ctx_setCtx_ne (k j : Nat) (x : Ctx) (h : j ≠ k) : (s.setCtx k x).ctx j = s.ctx j := by
  simp [State.ctx, State.setCtx, h]
@[simp] theorem State.ctx_onCtx_same (k : Nat) (f : Ctx → Ctx) : (s.onCtx k f).ctx k = f (s.ctx k) := by
  simp [State.onCtx]
@[simp] theorem State.ctx_onCtx_ne (k j : Nat) (f : Ctx → Ctx) (h : j ≠ k) : (s.onCtx k f).ctx j = s.ctx j := by
  simp [State.onCtx, h]

@[simp] theorem State.part_setPart_same (k : Nat) (x : Part) : (s.setPart k x).part k = x := by
  simp [State.part, State.setPart]
@[simp] theorem State.part_setPart_ne (k j : Nat) (x : Part) (h : j ≠ k) : (s.setPart k x).part j = s.part j := by
  simp [State.part, State.setPart, h]
@[simp] theorem State.part_onPart_same (k : Nat) (f : Part → Part) : (s.onPart k f).part k = f (s.part k) := by
  simp [State.onPart]
@[simp] theorem State.part_onPart_ne (k j : Nat) (f : Part → Part) (h : j ≠ k) : (s.onPart k f).part j = s.part j := by
  simp [State.onPart, h]

@[simp] theorem State.region_setRegion_same (k : Nat) (x : Region) : (s.setRegion k x).region k = x := by
  simp [State.region, State.setRegion]
@[simp] theorem State.region_setRegion_ne (k j : Nat) (x : Region) (h : j ≠ k) : (s.setRegion k x).region j = s.region j := by
  simp [State.region, State.setRegion, h]
@[simp] theorem State.region_onRegion_same (k : Nat) (f : Region → Region) : (s.onRegion k f).region k = f (s.region k) := by
  simp [State.onRegion]
@[simp] theorem State.region_onRegion_ne (k j : Nat) (f : Region → Region) (h : j ≠ k) : (s.onRegion k f).region j = s.region j := by
  simp [State.onRegion, h]

@[simp] theorem State.stack_setStack_same (k : Nat) (x : Stk) : (s.setStack k x).stack k = x := by
  simp [State.stack, State.setStack]
@[simp] theorem State.stack_setStack_ne (k j : Nat) (x : Stk) (h : j ≠ k) : (s.setStack k x).stack j = s.stack j := by
  simp [State.stack, State.setStack, h]
@[simp] theorem State.stack_onStack_same (k : Nat) (f : Stk → Stk) : (s.onStack k f).stack k = f (s.stack k) := by
  simp [State.onStack]
@[simp] theorem State.stack_onStack_ne (k j : Nat) (f : Stk → Stk) (h : j ≠ k) : (s.onStack k f).stack j = s.stack j := by
  simp [State.onStack, h]

@[simp] theorem State.port_setPort_same (k : Nat) (x : Port) : (s.setPort k x).port k = x := by
  simp [State.port, State.setPort]
@[simp] theorem State.port_setPort_ne (k j : Nat) (x : Port) (h : j ≠ k) : (s.setPort k x).port j = s.port j := by
  simp [State.port, State.setPort, h]
@[simp] theorem State.port_onPort_same (k : Nat) (f : Port → Port) : (s.onPort k f).port k = f (s.port k) := by
  simp [State.onPort]
@[simp] theorem State.port_onPort_ne (k j : Nat) (f : Port → Port) (h : j ≠ k) : (s.onPort k f).port j = s.port j := by
  simp [State.onPort, h]

@[simp] theorem State.pfReg_setPf_same (off : Nat) (v : W64) : (s.setPf off v).pfReg off = v := by
  simp [State.pfReg, State.setPf]
@[simp] theorem State.pfReg_setPf_ne (off o : Nat) (v : W64) (h : o ≠ off) : (s.setPf off v).pfReg o = s.pfReg o := by
  simp [State.pfReg, State.setPf, h]
@[simp] theorem State.vfReg_setVf_same (fn off : Nat) (v : W64) : (s.setVf fn off v).vfReg fn off = v := by
  simp [State.vfReg, State.setVf]

end Sys2Proof.Machine
end

