-- ==== Sys2Proof/Laws/Issue.lean ====
section
/-! SUPPORT. What a fetch and an issue do, once: the lemmas that statements about instructions cite in place of
unfolding `fetched` and `issue`. -/

namespace Sys2Proof.Machine

/-- With every stack awake, nothing that is asked of them waits. -/
theorem State.slept_awake {s : State} (h : ∀ st : Fin 16, (s.stack st).selfRef = false) (t : State) : s.slept t = [] := by
  simp only [State.slept, List.filter_eq_nil_iff, List.mem_range]
  intro k hk
  simp [h ⟨k, hk⟩]

theorem State.orWait_awake {s : State} (h : ∀ st : Fin 16, (s.stack st).selfRef = false) (t : State) : s.orWait t = t := by
  simp [State.orWait, State.slept_awake h]

/-- A fetch that succeeds runs the instruction's work in the state after it. -/
theorem Fetches.run {s t : State} {c n : Nat} {i : Instr} {r : Run} {g : Regs} (h : Fetches s c i n r g t)
    (k : State → Nat → Run → Regs → Eff) : fetched s c i k = (k t n r g).settle n := by
  simp [fetched, h.issuing, h.word, State.orWait_awake (fun st => (h.awake st).1)]

/-- An instruction that issues starts at once, where nothing holds it and its engine has what it needs. -/
theorem Issues.starts {s t : State} {c words n : Nat} {e : Engine} {i : Instr} {ready check next} {k : Issued} {x : Exec}
    (h : Issues s c words e i ready check next n t k x) (run : Effect) (m : x.mayStart k = true) {w : Eff}
    (hr : run (startOf t c x k) c k = some w) : issue s c words e i ready check next run = w.settle n := by
  obtain ⟨⟨r, hf⟩, hy, hk, ⟨ranges, hc, ht, hx⟩, hq⟩ := h
  obtain ⟨id, grp, eng, ins, rg, stk, br, stp⟩ := k
  simp only [Issued.mk.injEq] at hk
  obtain ⟨rfl, rfl, rfl, rfl, -, -, rfl, rfl⟩ := hk
  subst hx
  have ha : ∀ st : Fin 16, ((startOf t c ((t.x c).issued words t.time ins ranges (next rg))
      { id := (t.x c).nextId, group := (t.x c).groupNo, eng := eng, instr := ins, regs := rg, stks := stk,
        brk := (t.x c).breaks, step := (t.x c).step.map (fun o => (o.num.toNat % 2 ^ 24, o.rep)) }).stack st).selfRef = false :=
    fun st => by simp only [startOf, State.stack_setX]; exact (hf.awake st).2
  unfold issue
  rw [hf.run]
  simp only [startOf, Exec.issued, Nat.reducePow] at hr m ha
  simp [hy, hc, Nat.not_le.2 hq, Nat.not_lt.2 ht, m, hr, State.slept_awake ha]

/-- An instruction that issues waits in its engine's queue, where something holds it or its engine waits for data. -/
theorem Issues.waits {s t : State} {c words n : Nat} {e : Engine} {i : Instr} {ready check next} {k : Issued} {x : Exec}
    (h : Issues s c words e i ready check next n t k x) (run : Effect)
    (m : x.mayStart k = false ∨ run (startOf t c x k) c k = none) :
    issue s c words e i ready check next run = queuedOf t c x k := by
  obtain ⟨⟨r, hf⟩, hy, hk, ⟨ranges, hc, ht, hx⟩, hq⟩ := h
  obtain ⟨id, grp, eng, ins, rg, stk, br, stp⟩ := k
  simp only [Issued.mk.injEq] at hk
  obtain ⟨rfl, rfl, rfl, rfl, -, -, rfl, rfl⟩ := hk
  subst hx
  unfold issue
  rw [hf.run]
  simp only [startOf, Exec.issued, Nat.reducePow] at m
  rcases m with m | m
  · simp [hy, hc, Nat.not_le.2 hq, Nat.not_lt.2 ht, m, Eff.settle, queuedOf, Exec.issued]
  · simp [hy, hc, Nat.not_le.2 hq, Nat.not_lt.2 ht, m, Eff.settle, queuedOf, Exec.issued]

/-- The state after an engine instruction's command: a cl instruction that has issued counts for the epoch rule. -/
def Form.after (F : Form) (s t : State) : State :=
  if F.eng = .coll then
    match (s.core F.core).ctx with
    | some n => if (t.x F.core).nextId = (s.x F.core).nextId then t else t.usesCl n
    | none => t
  else t

/-- Every engine instruction issues by its form. -/
theorem exec_formOf {i : Instr} {F : Form} (h : formOf i = some F) (s : State) :
    exec i s = .next (F.after s (issue s F.core F.words F.eng i F.ready F.check F.next F.run)) := by
  cases i <;> first | (cases h; done) | (cases h; rfl)

theorem issuing_ctx {s : State} {c n : Nat} {r : Run} {g : Regs} (h : s.issuing c = some (n, r, g)) :
    (s.core c).ctx = some n := by
  simp only [State.issuing] at h
  split at h
  · cases h
  · rename_i m e
    split at h
    · cases h
    · split at h
      · cases h; exact e
      · cases h

/-- The work of an engine instruction that starts decides what its command answers. -/
theorem Starts.done {s t u v : State} {i : Instr} {n : Nat} {k : Issued} {F : Form} (hF : formOf i = some F)
    (h : Starts s i n t k u) (hr : F.run u F.core k = some (.done v)) (hc : F.eng ≠ .coll) : exec i s = .next v := by
  obtain ⟨G, x, hG, hi, hm, rfl⟩ := h
  rw [hF] at hG
  cases hG
  rw [exec_formOf hF, hi.starts F.run hm hr]
  simp [Form.after, hc, Eff.settle]

/-- The same for the collective engine. -/
theorem Starts.doneCl {s t u v : State} {i : Instr} {n : Nat} {k : Issued} {F : Form} (hF : formOf i = some F)
    (h : Starts s i n t k u) (hr : F.run u F.core k = some (.done v)) (hc : F.eng = .coll) :
    exec i s = .next (if (v.x F.core).nextId = (s.x F.core).nextId then v else v.usesCl n) := by
  obtain ⟨G, x, hG, hi, hm, rfl⟩ := h
  rw [hF] at hG
  cases hG
  have hn := issuing_ctx (hi.fetch.choose_spec).issuing
  rw [exec_formOf hF, hi.starts F.run hm hr]
  simp only [Form.after, hc, Eff.settle, hn, if_true]
  rfl

/-- A flit that arrives for this module reaches its meaning. -/
theorem Arrives.received {s t : State} {q ty : Nat} {f : Flit} {p : Nat} {j : Job} (h : Arrives s q ty f p j t)
    (k : State → Nat → Job → State) : receive s q ty f k = k t p j := by
  obtain ⟨hu, hs, hp, ha, hj, ho, hz, hl, hw⟩ := h
  have hn : ¬ j.rank ≥ j.size := by omega
  have hb : (!f.badG.isEmpty && decide (ty ≠ 1) && decide (ty ≠ 4)) = false := by rcases hw with e | e | e <;> simp [e]
  simp only [receive, State.inOrder, hu, hp, hs, Bool.not_true, Bool.false_eq_true, if_false, ne_eq, not_true_eq_false, ← ha, hj, hn, ho,
    hl, hb]

end Sys2Proof.Machine
end

