-- ==== Sys2Proof/Laws/Ram.lean ====
section
/-! SUPPORT. Every operation on a byte memory keeps its canonical form, and a byte that was written reads back. -/

namespace Sys2Proof.Machine

theorem Ram.wf_iff (m : Ram) :
    m.wf = true ↔ Tab.rising m.bytes = true ∧ noZero m.bytes = true ∧ Tab.rising m.poison = true := by
  simp [Ram.wf, and_assoc]

theorem Ram.wf_zero : Ram.zero.wf = true := by decide

theorem setByte_rising {t : Tab Byte} (h : Tab.rising t = true) (a : Nat) (b : Byte) :
    Tab.rising (setByte t a b) = true := by
  unfold setByte
  split
  · exact Tab.rising_del h a
  · exact Tab.rising_put h a b

theorem setByte_noZero {t : Tab Byte} (h : noZero t = true) (a : Nat) (b : Byte) : noZero (setByte t a b) = true := by
  simp only [noZero, List.all_eq_true] at *
  unfold setByte
  split
  · intro p hp
    exact h p (List.mem_of_mem_filter hp)
  · next hb =>
    intro p hp
    rcases Tab.mem_put hp with rfl | hp
    · simpa using hb
    · exact h p hp

@[simp] theorem setByte_val_same (t : Tab Byte) (a : Nat) (b : Byte) : Tab.val 0 (setByte t a b) a = b := by
  unfold setByte
  split <;> simp_all

@[simp] theorem setByte_val_ne (t : Tab Byte) (a x : Nat) (b : Byte) (h : x ≠ a) :
    Tab.val 0 (setByte t a b) x = Tab.val 0 t x := by
  unfold setByte
  split <;> simp_all

theorem Ram.wf_poke {m : Ram} (h : m.wf = true) (a n x : Nat) (b : PByte) : (m.poke a n x b).wf = true := by
  rw [Ram.wf_iff] at h
  unfold Ram.poke
  split
  · exact (Ram.wf_iff m).2 h
  · refine (Ram.wf_iff _).2 ⟨setByte_rising h.1 _ _, setByte_noZero h.2.1 _ _, ?_⟩
    dsimp only
    split
    · exact Tab.rising_put h.2.2 _ _
    · exact h.2.2

theorem Ram.wf_heal {m : Ram} (h : m.wf = true) (a n : Nat) : (m.heal a n).wf = true := by
  rw [Ram.wf_iff] at *
  exact ⟨h.1, h.2.1, Tab.rising_filter h.2.2 _⟩

theorem Ram.wf_pokes {m : Ram} (h : m.wf = true) (a n x : Nat) (bs : List PByte) :
    (m.pokes a n x bs).wf = true := by
  induction bs generalizing m x with
  | nil => exact h
  | cons b r ih => exact ih (Ram.wf_poke h a n x b) (x + 1)

theorem Ram.wf_write {m : Ram} (h : m.wf = true) (a : Nat) (bs : List PByte) : (m.write a bs).wf = true :=
  Ram.wf_pokes (Ram.wf_heal h a _) a _ a bs

/-- A write leaves every byte outside its range, and the poison marks of granules outside it, alone. -/
theorem Ram.peek_poke_ne (m : Ram) (a n x y : Nat) (b : PByte) (h : y / 8 ≠ x / 8) :
    (m.poke a n x b).peek y = m.peek y := by
  have hne : y ≠ x := fun e => h (by rw [e])
  unfold Ram.poke
  split
  · rfl
  · unfold Ram.peek Ram.bad Ram.get
    dsimp only
    rw [setByte_val_ne _ _ _ _ hne]
    split <;> simp [h]

theorem Ram.peek_pokes_ne (m : Ram) (a n x y : Nat) (bs : List PByte)
    (h : y / 8 < x / 8 ∨ (x + bs.length - 1) / 8 < y / 8) : (m.pokes a n x bs).peek y = m.peek y := by
  induction bs generalizing m x with
  | nil => rfl
  | cons b r ih =>
    simp only [List.length_cons] at h
    rw [Ram.pokes]
    cases r with
    | nil =>
      simp only [Ram.pokes]
      exact Ram.peek_poke_ne _ _ _ _ _ _ (by simp only [List.length_nil] at h; omega)
    | cons c r' =>
      rw [ih]
      · exact Ram.peek_poke_ne _ _ _ _ _ _ (by simp only [List.length_cons] at h; omega)
      · simp only [List.length_cons] at h ⊢; omega

theorem wholeGranule_mul (a n x : Nat) : wholeGranule a n (8 * (x / 8)) = wholeGranule a n x := by
  have : 8 * (x / 8) / 8 = x / 8 := by omega
  simp [wholeGranule, this]

theorem Tab.at?_filter {α : Type} (t : Tab α) (f : Nat → Bool) (k : Nat) (h : f k = true) :
    Tab.at? (t.filter (fun p => f p.1)) k = Tab.at? t k := by
  induction t with
  | nil => rfl
  | cons q r ih =>
    obtain ⟨g, u⟩ := q
    by_cases e : g = k
    · subst e
      rw [List.filter_cons_of_pos (by simpa using h)]
      simp [Tab.at?]
    · by_cases w : f g = true
      · rw [List.filter_cons_of_pos (by simpa using w)]
        simp [Tab.at?, e, ih]
      · rw [List.filter_cons_of_neg (by simpa using w)]
        simpa [Tab.at?, e] using ih

theorem Ram.peek_heal (m : Ram) (a n y : Nat) (h : wholeGranule a n y = false) : (m.heal a n).peek y = m.peek y := by
  have key : Tab.at? (m.heal a n).poison (y / 8) = Tab.at? m.poison (y / 8) :=
    Tab.at?_filter m.poison (fun g => !wholeGranule a n (8 * g)) (y / 8) (by simp [wholeGranule_mul, h])
  unfold Ram.peek Ram.bad
  rw [key]
  rfl

/-- A write leaves every byte of every granule that it does not touch. -/
theorem Ram.peek_write_out (m : Ram) (a y : Nat) (bs : List PByte)
    (h : y / 8 < a / 8 ∨ (a + bs.length - 1) / 8 < y / 8) : (m.write a bs).peek y = m.peek y := by
  unfold Ram.write
  rw [Ram.peek_pokes_ne _ _ _ _ _ _ h, Ram.peek_heal]
  simp only [wholeGranule, Bool.and_eq_false_iff, decide_eq_false_iff_not]
  omega

/-- One byte without a poison mark leaves every other byte alone. -/
theorem Ram.peek_poke_clean (m : Ram) (a n x y : Nat) (b : Byte) (h : y ≠ x) :
    (m.poke a n x (b, false)).peek y = m.peek y := by
  unfold Ram.poke
  split
  · rfl
  · unfold Ram.peek Ram.bad Ram.get
    dsimp only
    rw [setByte_val_ne _ _ _ _ h]
    rfl

theorem Ram.peek_pokes_clean (m : Ram) (a n x y : Nat) (bs : List Byte) (h : y < x ∨ x + bs.length ≤ y) :
    (m.pokes a n x (clean bs)).peek y = m.peek y := by
  induction bs generalizing m x with
  | nil => rfl
  | cons b r ih =>
    simp only [List.length_cons] at h
    show (Ram.pokes (m.poke a n x (b, false)) a n (x + 1) (clean r)).peek y = _
    rw [ih _ _ (by omega), Ram.peek_poke_clean _ _ _ _ _ _ (by omega)]

/-- A write of bytes without poison marks leaves every byte outside its range alone. -/
theorem Ram.peek_write_clean (m : Ram) (a y : Nat) (bs : List Byte) (h : y < a ∨ a + bs.length ≤ y) :
    (m.write a (clean bs)).peek y = m.peek y := by
  unfold Ram.write
  rw [Ram.peek_pokes_clean _ _ _ _ _ _ h, Ram.peek_heal]
  simp only [wholeGranule, clean, List.length_map, Bool.and_eq_false_iff, decide_eq_false_iff_not]
  omega

end Sys2Proof.Machine
end

