-- ==== Sys2Proof/Laws/Keeps.lean ====
section
/-! SUPPORT. `Keeps`, the path that every command and every named operation takes: how it is built up, and that the
operations of Ops.lean take it. -/

namespace Sys2Proof.Machine

theorem Keeps.refl (s : State) : Keeps s s := ⟨rfl, Nat.le_refl _, rfl, id⟩

theorem Keeps.trans {a b c : State} (h : Keeps a b) (k : Keeps b c) : Keeps a c :=
  ⟨k.pending.trans h.pending, h.free.trans k.free, k.minVer.trans h.minVer, fun i => k.inv (h.inv i)⟩

theorem State.inv_iff (s : State) : s.inv = true ↔
    s.mem.wf = true ∧ Tab.rising s.unitKey = true ∧ (Tab.rising s.frames = true ∧ ∀ p ∈ s.frames, 1 ≤ p.2.count)
      ∧ s.err.head < 64 ∧ s.err.tail < 64 ∧ s.err.dropped < 2 ^ 32 := by
  simp [State.inv, State.memOk, State.pagesOk, State.ringOk, and_assoc]

/-- Any field other than the queue, the stack memory, its pages and the error ring may change freely. -/
theorem Keeps.upd {z s : State} (h : Keeps z s) {free time dev pf vf owners cores ctxs parts regions stks ports wellEv
    dirs hang belv pwr host msix rdata upsets} (hf : s.free ≤ free) (hb : belv.minVer = s.belv.minVer) :
    Keeps z { pending := s.pending, free := free, time := time, dev := dev, pf := pf, vf := vf, owners := owners
              cores := cores, ctxs := ctxs, parts := parts, regions := regions, stks := stks, ports := ports
              wellEv := wellEv, mem := s.mem, upsets := upsets, unitKey := s.unitKey, frames := s.frames, dirs := dirs, err := s.err
              hang := hang, belv := belv, pwr := pwr, host := host, msix := msix, rdata := rdata } :=
  ⟨h.pending, h.free.trans hf, hb.trans h.minVer, fun i => by simpa [State.inv_iff] using h.inv i⟩

theorem Keeps.updMem {z s : State} (h : Keeps z s) {m : Ram} {u : Tab Key} (hm : s.mem.wf = true → m.wf = true)
    (hu : Tab.rising s.unitKey = true → Tab.rising u = true) : Keeps z { s with mem := m, unitKey := u } := by
  refine ⟨h.pending, h.free, h.minVer, fun i => ?_⟩
  have j := (State.inv_iff s).1 (h.inv i)
  exact (State.inv_iff _).2 ⟨hm j.1, hu j.2.1, j.2.2⟩

theorem Keeps.updFrames {z s : State} (h : Keeps z s) {f : Tab Frame}
    (hf : (Tab.rising s.frames = true ∧ ∀ p ∈ s.frames, 1 ≤ p.2.count) →
      Tab.rising f = true ∧ ∀ p ∈ f, 1 ≤ p.2.count) : Keeps z { s with frames := f } := by
  refine ⟨h.pending, h.free, h.minVer, fun i => ?_⟩
  have j := (State.inv_iff s).1 (h.inv i)
  exact (State.inv_iff _).2 ⟨j.1, j.2.1, hf j.2.2.1, j.2.2.2⟩

theorem Keeps.updErr {z s : State} (h : Keeps z s) {e : ErrRing}
    (he : s.err.head < 64 ∧ s.err.tail < 64 ∧ s.err.dropped < 2 ^ 32 → e.head < 64 ∧ e.tail < 64 ∧ e.dropped < 2 ^ 32) :
    Keeps z { s with err := e } := by
  refine ⟨h.pending, h.free, h.minVer, fun i => ?_⟩
  have j := (State.inv_iff s).1 (h.inv i)
  exact (State.inv_iff _).2 ⟨j.1, j.2.1, j.2.2.1, he j.2.2.2⟩

/-- A conditional update: the second part may use that the first is already on the path. -/
theorem Keeps.ite {z s t : State} {c : Prop} [Decidable c] (h : Keeps z s) (k : Keeps z s → Keeps z t) :
    Keeps z (if c then t else s) := by
  split
  · exact k h
  · exact h

@[simp] theorem Eff.state_done (s : State) : (Eff.done s).state = s := rfl
@[simp] theorem Eff.state_abort (n : Nat) (s : State) : (Eff.abort n s).state = s := rfl

theorem Keeps.foldl {α : Type} {z s : State} (h : Keeps z s) (f : State → α → State)
    (hf : ∀ t a, Keeps z t → Keeps z (f t a)) (l : List α) : Keeps z (l.foldl f s) := by
  induction l generalizing s with
  | nil => exact h
  | cons a r ih => exact ih (hf s a h)

theorem Keeps.getD {z s : State} (h : Keeps z s) (o : Option State) (ho : ∀ t, o = some t → Keeps z t) :
    Keeps z (o.getD s) := by
  cases o with
  | none => exact h
  | some t => exact ho t rfl

end Sys2Proof.Machine
end

