-- ==== Sys2Proof/Laws/KeepsOps.lean ====
section
/-! SUPPORT. `Keeps` for the named operations over the state, sending, queues, contexts and their RUNs, and the issue of an instruction. -/

namespace Sys2Proof.Machine

theorem State.setCore_keeps {z s} {c p} (h : Keeps z s) : Keeps z (State.setCore s c p) := by
  unfold State.setCore
  repeat' first
    | with_reducible assumption
    | fail_if_no_progress refine Keeps.upd ?_ (Nat.le_refl _) rfl

theorem State.onCore_keeps {z s} {c f} (h : Keeps z s) : Keeps z (State.onCore s c f) := by
  unfold State.onCore
  repeat' first
    | with_reducible assumption
    | with_reducible refine State.setCore_keeps ?_

theorem State.setCtx_keeps {z s} {n x} (h : Keeps z s) : Keeps z (State.setCtx s n x) := by
  unfold State.setCtx
  repeat' first
    | with_reducible assumption
    | fail_if_no_progress refine Keeps.upd ?_ (Nat.le_refl _) rfl

theorem State.onCtx_keeps {z s} {n f} (h : Keeps z s) : Keeps z (State.onCtx s n f) := by
  unfold State.onCtx
  repeat' first
    | with_reducible assumption
    | with_reducible refine State.setCtx_keeps ?_

theorem State.setPart_keeps {z s} {p x} (h : Keeps z s) : Keeps z (State.setPart s p x) := by
  unfold State.setPart
  repeat' first
    | with_reducible assumption
    | fail_if_no_progress refine Keeps.upd ?_ (Nat.le_refl _) rfl

theorem State.onPart_keeps {z s} {p f} (h : Keeps z s) : Keeps z (State.onPart s p f) := by
  unfold State.onPart
  repeat' first
    | with_reducible assumption
    | with_reducible refine State.setPart_keeps ?_

theorem State.setRegion_keeps {z s} {r x} (h : Keeps z s) : Keeps z (State.setRegion s r x) := by
  unfold State.setRegion
  repeat' first
    | with_reducible assumption
    | fail_if_no_progress refine Keeps.upd ?_ (Nat.le_refl _) rfl

theorem State.onRegion_keeps {z s} {r f} (h : Keeps z s) : Keeps z (State.onRegion s r f) := by
  unfold State.onRegion
  repeat' first
    | with_reducible assumption
    | with_reducible refine State.setRegion_keeps ?_

theorem State.setStack_keeps {z s} {k x} (h : Keeps z s) : Keeps z (State.setStack s k x) := by
  unfold State.setStack
  repeat' first
    | with_reducible assumption
    | fail_if_no_progress refine Keeps.upd ?_ (Nat.le_refl _) rfl

theorem State.onStack_keeps {z s} {k f} (h : Keeps z s) : Keeps z (State.onStack s k f) := by
  unfold State.onStack
  repeat' first
    | with_reducible assumption
    | with_reducible refine State.setStack_keeps ?_

theorem State.setPort_keeps {z s} {p x} (h : Keeps z s) : Keeps z (State.setPort s p x) := by
  unfold State.setPort
  repeat' first
    | with_reducible assumption
    | fail_if_no_progress refine Keeps.upd ?_ (Nat.le_refl _) rfl

theorem State.onPort_keeps {z s} {p f} (h : Keeps z s) : Keeps z (State.onPort s p f) := by
  unfold State.onPort
  repeat' first
    | with_reducible assumption
    | with_reducible refine State.setPort_keeps ?_

theorem State.setX_keeps {z s} {c x} (h : Keeps z s) : Keeps z (State.setX s c x) := by
  unfold State.setX
  repeat' first
    | with_reducible assumption
    | with_reducible refine State.onCore_keeps ?_

theorem State.onX_keeps {z s} {c f} (h : Keeps z s) : Keeps z (State.onX s c f) := by
  unfold State.onX
  repeat' first
    | with_reducible assumption
    | with_reducible refine State.setX_keeps ?_

theorem State.onRegs_keeps {z s} {c f} (h : Keeps z s) : Keeps z (State.onRegs s c f) := by
  unfold State.onRegs
  repeat' first
    | with_reducible assumption
    | with_reducible refine State.onX_keeps ?_

theorem State.drawn_keeps {z s} (h : Keeps z s) : Keeps z (State.drawn s) :=
  h.upd (Nat.le_succ _) rfl

theorem State.setPf_keeps {z s} {off v} (h : Keeps z s) : Keeps z (State.setPf s off v) := by
  unfold State.setPf
  repeat' first
    | with_reducible assumption
    | fail_if_no_progress refine Keeps.upd ?_ (Nat.le_refl _) rfl

theorem State.setVf_keeps {z s} {fn off v} (h : Keeps z s) : Keeps z (State.setVf s fn off v) := by
  unfold State.setVf
  repeat' first
    | with_reducible assumption
    | fail_if_no_progress refine Keeps.upd ?_ (Nat.le_refl _) rfl

theorem State.logIn_keeps {z s} {e} (h : Keeps z s) : Keeps z (State.logIn s e) := by
  unfold State.logIn
  repeat' first
    | with_reducible assumption
    | fail_if_no_progress refine Keeps.upd ?_ (Nat.le_refl _) rfl

theorem State.alarm_keeps {z s} {kind unit} (h : Keeps z s) : Keeps z (State.alarm s kind unit) := by
  unfold State.alarm
  repeat' first
    | with_reducible assumption
    | split
    | fail_if_no_progress refine Keeps.upd ?_ (Nat.le_refl _) rfl

theorem State.pushRec_keeps {z s} {r} (h : Keeps z s) : Keeps z (State.pushRec s r) := by
  unfold State.pushRec
  dsimp only
  have hb : Keeps z (s.logIn (.error r)) := State.logIn_keeps h
  split
  · exact hb.updErr (fun i => ⟨i.1, i.2.1, by simp only; omega⟩)
  · exact hb.updErr (fun i => ⟨by simp only [ErrRing.push]; omega, i.2⟩)

theorem State.pushRecs_keeps {z s} {l} (h : Keeps z s) : Keeps z (State.pushRecs s l) := by
  induction l generalizing s with
  | nil => exact h
  | cons r rs ih =>
    unfold State.pushRecs
    split
    · exact h.updErr id
    · exact ih (State.logIn_keeps (h.updErr (fun i => ⟨by simp only [ErrRing.push]; omega, i.2⟩)))

theorem State.errRoll_keeps {z s} (h : Keeps z s) : Keeps z (State.errRoll s) := by
  unfold State.errRoll
  split
  · exact h
  · exact State.pushRecs_keeps (h.updErr id)

theorem State.logError_keeps {z s} {e} (h : Keeps z s) : Keeps z (State.logError s e) := by
  unfold State.logError
  dsimp only
  have hr : Keeps z s.errRoll := State.errRoll_keeps h
  have hs : Keeps z (if e.cls = 2 then s.errRoll.alarm alarmFatal e.unit else s.errRoll) :=
    Keeps.ite hr (fun k => State.alarm_keeps k)
  generalize (if e.cls = 2 then s.errRoll.alarm alarmFatal e.unit else s.errRoll) = t at hs
  repeat' split
  all_goals first
    | exact hs.updErr id
    | exact State.pushRec_keeps (hs.updErr id)

theorem State.logCorrected_keeps {z s} {e n} (h : Keeps z s) : Keeps z (State.logCorrected s e n) := by
  unfold State.logCorrected
  split
  · exact h
  · dsimp only
    split
    · exact State.logError_keeps h
    · exact (State.logError_keeps h).updErr id

theorem State.writeDropped_keeps {z s} {off} (h : Keeps z s) : Keeps z (State.writeDropped s off) := by
  unfold State.writeDropped
  repeat' first
    | with_reducible assumption
    | with_reducible refine State.logError_keeps ?_

theorem State.damageRec_keeps {z s} {ty unit addr u ok} (h : Keeps z s) : Keeps z (State.damageRec s ty unit addr u ok) := by
  unfold State.damageRec
  repeat' first
    | with_reducible assumption
    | with_reducible refine State.logError_keeps ?_

theorem State.dropUpset_keeps {z s} {u} (h : Keeps z s) : Keeps z (State.dropUpset s u) := by
  unfold State.dropUpset
  repeat' first
    | with_reducible assumption
    | fail_if_no_progress refine Keeps.upd ?_ (Nat.le_refl _) rfl

theorem State.settleGranule_keeps {z s} {u g w} (h : Keeps z s) : Keeps z (State.settleGranule s u g w) := by
  have hw (bs : List PByte) : Keeps z { s with mem := s.mem.write (8 * g) bs } := h.updMem (fun i => Ram.wf_write i _ _) id
  cases w with
  | clean v => exact hw _
  | corrected v => exact State.damageRec_keeps (hw _)
  | poison => exact hw _
  | uncorrectable => exact State.damageRec_keeps (hw _)

theorem State.meetGranule_keeps {z s} {u g} (h : Keeps z s) : Keeps z (State.meetGranule s u g) := by
  have hd : Keeps z (s.dropUpset u) := State.dropUpset_keeps h
  unfold State.meetGranule
  dsimp only
  split
  · exact hd
  · exact State.settleGranule_keeps hd

theorem State.meetAll_keeps {z s} {x1} (h : Keeps z s) : Keeps z (State.meetAll s x1) := by
  induction x1 generalizing s with
  | nil =>
    unfold State.meetAll
    repeat' first
      | with_reducible assumption
  | cons a0 r0 ih =>
    unfold State.meetAll
    repeat' first
      | with_reducible assumption
      | with_reducible refine ih ?_
      | with_reducible refine State.meetGranule_keeps ?_
      | split

theorem State.meet_keeps {z s} {a n} (h : Keeps z s) : Keeps z (State.meet s a n) := by
  unfold State.meet
  repeat' first
    | with_reducible assumption
    | with_reducible refine State.meetAll_keeps ?_

theorem State.overwrite_keeps {z s} {a n} (h : Keeps z s) : Keeps z (State.overwrite s a n) := by
  unfold State.overwrite
  repeat' first
    | with_reducible assumption
    | with_reducible refine State.meet_keeps ?_
    | fail_if_no_progress refine Keeps.upd ?_ (Nat.le_refl _) rfl

theorem State.settleRec_keeps {z s} {a u w} (h : Keeps z s) : Keeps z (State.settleRec s a u w) := by
  cases w with
  | corrected v => exact State.damageRec_keeps h
  | _ => exact h

theorem State.meetFirst_keeps {z s} {a bs u} (h : Keeps z s) : Keeps z (State.meetFirst s a bs u).1 := by
  have hd : Keeps z (s.dropUpset u) := State.dropUpset_keeps h
  unfold State.meetFirst
  dsimp only
  split
  · exact hd
  · exact State.settleRec_keeps hd

theorem State.meetEach_keeps {z s} {a bs x3} (h : Keeps z s) : Keeps z (State.meetEach s a bs x3).1 := by
  induction x3 generalizing s a bs with
  | nil =>
    unfold State.meetEach
    repeat' first
      | with_reducible assumption
  | cons a0 r0 ih =>
    unfold State.meetEach
    repeat' first
      | with_reducible assumption
      | with_reducible refine ih ?_
      | with_reducible refine State.meetFirst_keeps ?_

theorem State.meetSig_keeps {z s} {r obj} (h : Keeps z s) : Keeps z (State.meetSig s r obj).1 := by
  unfold State.meetSig
  repeat' first
    | with_reducible assumption
    | lift_lets
    | (intro x; subst x)
    | with_reducible refine State.damageRec_keeps ?_
    | split
    | fail_if_no_progress refine Keeps.upd ?_ (Nat.le_refl _) rfl

theorem State.carried_keeps {z s} {a ps bs} (h : Keeps z s) : Keeps z (State.carried s a ps bs).1 := by
  unfold State.carried
  repeat' first
    | with_reducible assumption
    | with_reducible refine State.meetEach_keeps ?_
    | split

theorem State.strike_keeps {z s} (h : Keeps z s) : Keeps z (State.strike s) := by
  unfold State.strike
  repeat' first
    | with_reducible assumption
    | with_reducible refine State.drawn_keeps ?_
    | split
    | fail_if_no_progress refine Keeps.upd ?_ (Nat.le_refl _) rfl

theorem State.rekey_keeps {z s} {k a n u} (h : Keeps z s) : Keeps z (State.rekey s k a n u) := by
  unfold State.rekey
  dsimp only
  split
  · exact h.updMem id (fun i => Tab.rising_put i _ _)
  · split
    · exact h.updMem id (fun i => Tab.rising_put i _ _)
    · exact h.updMem (fun i => Ram.wf_write i _ _) (fun i => Tab.rising_put i _ _)

theorem State.rekeys_keeps {z s} {k a n l} (h : Keeps z s) : Keeps z (State.rekeys s k a n l) := by
  induction l generalizing s with
  | nil => exact h
  | cons i r ih => exact ih (State.rekey_keeps h)

theorem State.writePhys_keeps {z s} {k a bs} (h : Keeps z s) : Keeps z (State.writePhys s k a bs) := by
  unfold State.writePhys
  dsimp only
  split
  · exact h
  · exact (State.rekeys_keeps (State.overwrite_keeps h)).updMem (fun i => Ram.wf_write i _ _) id

theorem State.clearUnit_keeps {z s} {u} (h : Keeps z s) : Keeps z (State.clearUnit s u) :=
  h.updMem (fun i => Ram.wf_write i _ _) (fun i => Tab.rising_del i _)

theorem State.violate_keeps {z s} {p ctx unit v addr} (h : Keeps z s) : Keeps z (State.violate s p ctx unit v addr) := by
  unfold State.violate
  repeat' first
    | with_reducible assumption
    | with_reducible refine Keeps.ite ?_ (fun _ => ?_)
    | fail_if_no_progress refine Keeps.upd ?_ (Nat.le_refl _) rfl

theorem State.violateBy_keeps {z s} {w v addr} (h : Keeps z s) : Keeps z (State.violateBy s w v addr) := by
  unfold State.violateBy
  repeat' first
    | with_reducible assumption
    | with_reducible refine State.violate_keeps ?_

theorem State.count_keeps {z s} {n i v} (h : Keeps z s) : Keeps z (State.count s n i v) := by
  unfold State.count
  repeat' first
    | with_reducible assumption
    | with_reducible refine State.onCtx_keeps ?_

theorem State.countPart_keeps {z s} {p i v} (h : Keeps z s) : Keeps z (State.countPart s p i v) := by
  unfold State.countPart
  repeat' first
    | with_reducible assumption
    | with_reducible refine State.onPart_keeps ?_

theorem State.act_keeps {z s} {n cls pt k} (h : Keeps z s) : Keeps z (State.act s n cls pt k) := by
  unfold State.act
  repeat' first
    | with_reducible assumption
    | with_reducible refine State.onPart_keeps ?_
    | with_reducible refine State.onCtx_keeps ?_

theorem State.actBy_keeps {z s} {w cls k} (h : Keeps z s) : Keeps z (State.actBy s w cls k) := by
  unfold State.actBy
  repeat' first
    | with_reducible assumption
    | with_reducible refine State.act_keeps ?_
    | split

theorem State.interrupt_keeps {z s} {v} (h : Keeps z s) : Keeps z (State.interrupt s v) := by
  unfold State.interrupt
  repeat' first
    | with_reducible assumption
    | with_reducible refine Keeps.ite ?_ (fun _ => ?_)
    | fail_if_no_progress refine Keeps.upd ?_ (Nat.le_refl _) rfl

theorem State.missed_keeps {z s} {w foreign va} (h : Keeps z s) : Keeps z (State.missed s w foreign va) := by
  unfold State.missed
  repeat' first
    | with_reducible assumption
    | with_reducible refine State.count_keeps ?_
    | with_reducible refine State.violateBy_keeps ?_
    | split

theorem State.touch_keeps {z s} {w pa n} (h : Keeps z s) : Keeps z (State.touch s w pa n) := by
  unfold State.touch
  repeat' first
    | with_reducible assumption
    | with_reducible refine State.act_keeps ?_
    | with_reducible refine State.onStack_keeps ?_
    | split

theorem State.touchSup_keeps {z s} {pa n} (h : Keeps z s) : Keeps z (State.touchSup s pa n) := by
  unfold State.touchSup
  repeat' first
    | with_reducible assumption
    | with_reducible refine State.touch_keeps ?_

theorem State.wakeStacks_keeps {z s} {x1} (h : Keeps z s) : Keeps z (State.wakeStacks s x1) := by
  induction x1 generalizing s with
  | nil =>
    unfold State.wakeStacks
    repeat' first
      | with_reducible assumption
  | cons a0 r0 ih =>
    unfold State.wakeStacks
    repeat' first
      | with_reducible assumption
      | with_reducible refine ih ?_
      | with_reducible refine State.onStack_keeps ?_

theorem State.orWait_keeps {z s t} (h : Keeps z s) (k : Keeps z t) : Keeps z (State.orWait s t) := by
  unfold State.orWait
  split
  · exact k
  · exact State.wakeStacks_keeps h

theorem State.readPiece_keeps {z s} {w va n} (h : Keeps z s) : Keeps z (State.readPiece s w va n).s := by
  unfold State.readPiece
  repeat' first
    | with_reducible assumption
    | with_reducible refine State.touch_keeps ?_
    | with_reducible refine State.meet_keeps ?_
    | with_reducible refine State.carried_keeps ?_
    | with_reducible refine State.missed_keeps ?_
    | with_reducible refine State.violateBy_keeps ?_
    | split

theorem State.readPieces_keeps {z s} {w l} (h : Keeps z s) : Keeps z (State.readPieces s w l).s := by
  induction l generalizing s with
  | nil => exact h
  | cons p r ih => exact ih (State.readPiece_keeps h)

theorem State.readVirt_keeps {z s} {w va n} (h : Keeps z s) : Keeps z (State.readVirt s w va n).s := by
  unfold State.readVirt
  repeat' first
    | with_reducible assumption
    | with_reducible refine State.readPieces_keeps ?_

theorem State.writePiece_keeps {z s} {w va bs} (h : Keeps z s) : Keeps z (State.writePiece s w va bs).s := by
  unfold State.writePiece
  repeat' first
    | with_reducible assumption
    | dsimp only [Eff.state_done, Eff.state_abort]
    | with_reducible refine State.carried_keeps ?_
    | with_reducible refine State.writePhys_keeps ?_
    | with_reducible refine State.touch_keeps ?_
    | with_reducible refine State.onX_keeps ?_
    | with_reducible refine State.missed_keeps ?_
    | with_reducible refine State.violateBy_keeps ?_
    | split

theorem State.writePieces_keeps {z s} {w l bs} (h : Keeps z s) : Keeps z (State.writePieces s w l bs).s := by
  induction l generalizing s bs with
  | nil => exact h
  | cons p r ih => exact ih (State.writePiece_keeps h)

theorem State.writeVirt_keeps {z s} {w va bs} (h : Keeps z s) : Keeps z (State.writeVirt s w va bs).s := by
  unfold State.writeVirt
  repeat' first
    | with_reducible assumption
    | with_reducible refine State.writePieces_keeps ?_

theorem State.tracePut_keeps {z s t} {r} (h : Keeps z s) (e : State.tracePut s r = some t) : Keeps z t := by
  unfold State.tracePut at e
  try dsimp only at e
  repeat' split at e
  all_goals try cases e
  repeat' first
    | with_reducible assumption
    | with_reducible refine State.writePhys_keeps ?_
    | with_reducible refine State.touchSup_keeps ?_
    | with_reducible refine State.setPf_keeps ?_

theorem State.traceDrop_keeps {z s} (h : Keeps z s) : Keeps z (State.traceDrop s) := by
  unfold State.traceDrop
  repeat' first
    | with_reducible assumption
    | fail_if_no_progress refine Keeps.upd ?_ (Nat.le_refl _) rfl

theorem State.traceCatch_keeps {z s t} (h : Keeps z s) (e : State.traceCatch s = some t) : Keeps z t := by
  unfold State.traceCatch at e
  split at e
  · injection e with e
    exact e ▸ h
  · obtain ⟨u, hu, rfl⟩ := Option.map_eq_some_iff.1 e
    exact (State.tracePut_keeps h hu).upd (Nat.le_refl _) rfl

theorem State.traceModule_keeps {z s} {r force} (h : Keeps z s) : Keeps z (State.traceModule s r force) := by
  unfold State.traceModule
  dsimp only
  split
  · exact h
  · split
    · exact State.traceDrop_keeps h
    · next t ht =>
      have k := State.traceCatch_keeps h ht
      cases hu : t.tracePut r with
      | none => exact State.traceDrop_keeps k
      | some u => exact State.tracePut_keeps k hu

theorem State.partPut_keeps {z s t} {p r} (h : Keeps z s) (e : State.partPut s p r = some t) : Keeps z t := by
  unfold State.partPut at e
  dsimp only at e
  split at e
  · cases e
  · injection e with e
    subst e
    exact State.setVf_keeps (State.writeVirt_keeps h)

theorem State.partDrop_keeps {z s} {p} (h : Keeps z s) : Keeps z (State.partDrop s p) := by
  unfold State.partDrop
  repeat' first
    | with_reducible assumption
    | with_reducible refine State.onPart_keeps ?_
    | with_reducible refine State.setVf_keeps ?_

theorem State.partCatch_keeps {z s t} {p} (h : Keeps z s) (e : State.partCatch s p = some t) : Keeps z t := by
  unfold State.partCatch at e
  split at e
  · injection e with e
    exact e ▸ h
  · obtain ⟨u, hu, rfl⟩ := Option.map_eq_some_iff.1 e
    exact State.onPart_keeps (State.partPut_keeps h hu)

theorem State.tracePart_keeps {z s} {r} (h : Keeps z s) : Keeps z (State.tracePart s r) := by
  unfold State.tracePart
  dsimp only
  split
  · exact h
  · split
    · exact State.partDrop_keeps h
    · next t ht =>
      have k := State.partCatch_keeps h ht
      cases hu : t.partPut r.part r with
      | none => exact State.partDrop_keeps k
      | some u => exact State.partPut_keeps k hu

theorem State.trace_keeps {z s} {r} (h : Keeps z s) : Keeps z (State.trace s r) := by
  unfold State.trace
  repeat' first
    | with_reducible assumption
    | with_reducible refine State.tracePart_keeps ?_
    | with_reducible refine State.traceModule_keeps ?_

theorem State.ringPut_keeps {z s} {u e} (h : Keeps z s) : Keeps z (State.ringPut s u e) := by
  unfold State.ringPut
  repeat' first
    | with_reducible assumption
    | split
    | fail_if_no_progress refine Keeps.upd ?_ (Nat.le_refl _) rfl

theorem State.event_keeps {z s} {u kind data w} (h : Keeps z s) : Keeps z (State.event s u kind data w) := by
  unfold State.event
  repeat' first
    | with_reducible assumption
    | with_reducible refine State.ringPut_keeps ?_
    | with_reducible refine State.drawn_keeps ?_
    | with_reducible refine State.trace_keeps ?_

theorem State.coreEvent_keeps {z s} {c kind data} (h : Keeps z s) : Keeps z (State.coreEvent s c kind data) := by
  unfold State.coreEvent
  repeat' first
    | with_reducible assumption
    | with_reducible refine State.event_keeps ?_

theorem State.whenReady_keeps {z s} {k} (h : Keeps z s) (hk : ∀ b0, Keeps z b0 → Keeps z (k b0)) : Keeps z (State.whenReady s k) := by
  unfold State.whenReady
  repeat' first
    | with_reducible assumption
    | with_reducible refine Keeps.ite ?_ (fun _ => ?_)
    | with_reducible refine hk _ ?_

theorem State.status_keeps {z s} {n code} (h : Keeps z s) : Keeps z (State.status s n code) := by
  unfold State.status
  repeat' first
    | with_reducible assumption
    | with_reducible refine State.onCtx_keeps ?_

theorem State.poisonRead_keeps {z s} {w addr} (h : Keeps z s) : Keeps z (State.poisonRead s w addr) := by
  unfold State.poisonRead
  repeat' first
    | with_reducible assumption
    | with_reducible refine State.logError_keeps ?_
    | with_reducible refine State.event_keeps ?_
    | with_reducible refine State.status_keeps ?_
    | split

theorem State.poisonedEntry_keeps {z s} {w va n} (h : Keeps z s) : Keeps z (State.poisonedEntry s w va n) := by
  unfold State.poisonedEntry
  repeat' first
    | with_reducible assumption
    | with_reducible refine State.logError_keeps ?_

theorem State.readData_keeps {z s} {w va n} (h : Keeps z s) : Keeps z (State.readData s w va n).s := by
  unfold State.readData
  repeat' first
    | with_reducible assumption
    | lift_lets
    | (intro x; subst x)
    | with_reducible refine State.readVirt_keeps ?_
    | with_reducible refine State.poisonRead_keeps ?_
    | split

theorem State.readSp_keeps {z s} {w c off n} (h : Keeps z s) : Keeps z (State.readSp s w c off n).1 := by
  unfold State.readSp
  repeat' first
    | with_reducible assumption
    | with_reducible refine Keeps.ite ?_ (fun _ => ?_)
    | with_reducible refine State.actBy_keeps ?_
    | with_reducible refine State.poisonRead_keeps ?_

theorem State.writeSp_keeps {z s} {c off bs} (h : Keeps z s) : Keeps z (State.writeSp s c off bs) := by
  unfold State.writeSp
  repeat' first
    | with_reducible assumption
    | with_reducible refine State.onX_keeps ?_

theorem withData_keeps {z s} {w va n k} (h : Keeps z s) (hk : ∀ t bs, Keeps z t → Keeps z (k t bs).state) :
    Keeps z (withData s w va n k).state := by
  unfold withData
  dsimp only
  split
  · exact State.poisonRead_keeps (State.readData_keeps h)
  · exact hk _ _ (State.readData_keeps h)

theorem withCtl_keeps {z s} {w va n k} (h : Keeps z s) (hk : ∀ t bs, Keeps z t → Keeps z (k t bs).state) :
    Keeps z (withCtl s w va n k).state := by
  unfold withCtl
  dsimp only
  split
  · exact State.poisonRead_keeps (State.readVirt_keeps h)
  · exact hk _ _ (State.readVirt_keeps h)

theorem withWrite_keeps {z s} {w va bs k} (h : Keeps z s) (hk : ∀ t, Keeps z t → Keeps z (k t).state) :
    Keeps z (withWrite s w va bs k).state := by
  unfold withWrite
  dsimp only
  split
  · exact State.poisonRead_keeps (State.writeVirt_keeps h)
  · exact hk _ (State.writeVirt_keeps h)

theorem State.leavePort_keeps {z s} {q t r} (h : Keeps z s) : Keeps z (State.leavePort s q t r) := by
  unfold State.leavePort
  repeat' first
    | with_reducible assumption
    | with_reducible refine Keeps.ite ?_ (fun _ => ?_)
    | with_reducible refine State.setPort_keeps ?_
    | with_reducible refine State.drawn_keeps ?_

theorem State.sendOne_keeps {z s t} {q} (h : Keeps z s) (e : State.sendOne s q = some t) : Keeps z t := by
  unfold State.sendOne at e
  dsimp only at e
  split at e
  · cases e
  · obtain ⟨x, _, rfl⟩ := Option.map_eq_some_iff.1 e
    exact State.leavePort_keeps h

theorem State.drainPort_keeps {z s} {q x2} (h : Keeps z s) : Keeps z (State.drainPort s q x2) := by
  induction x2 generalizing s q with
  | zero =>
    unfold State.drainPort
    repeat' first
      | with_reducible assumption
  | succ n0 ih =>
    unfold State.drainPort
    repeat' first
      | with_reducible assumption
      | with_reducible refine ih ?_
      | with_reducible refine State.sendOne_keeps ?_ (by assumption)
      | split

theorem State.drain_keeps {z s} {q} (h : Keeps z s) : Keeps z (State.drain s q) := by
  unfold State.drain
  repeat' first
    | with_reducible assumption
    | with_reducible refine State.drainPort_keeps ?_

theorem State.portSend_keeps {z s} {q p ty path f} (h : Keeps z s) : Keeps z (State.portSend s q p ty path f) := by
  unfold State.portSend
  repeat' first
    | with_reducible assumption
    | with_reducible refine State.drain_keeps ?_
    | with_reducible refine State.onPort_keeps ?_

theorem State.sendFlit_keeps {z s} {p ty dst f} (h : Keeps z s) : Keeps z (State.sendFlit s p ty dst f) := by
  unfold State.sendFlit
  repeat' first
    | with_reducible assumption
    | with_reducible refine State.portSend_keeps ?_
    | split

theorem State.linkEvent_keeps {z s} {p what rank} (h : Keeps z s) : Keeps z (State.linkEvent s p what rank) := by
  unfold State.linkEvent
  repeat' first
    | with_reducible assumption
    | with_reducible refine State.event_keeps ?_
    | split

theorem State.sendEach_keeps {z s} {p ty hdr x4} (h : Keeps z s) : Keeps z (State.sendEach s p ty hdr x4) := by
  induction x4 generalizing s p ty hdr with
  | nil =>
    unfold State.sendEach
    repeat' first
      | with_reducible assumption
  | cons a0 r0 ih =>
    unfold State.sendEach
    repeat' first
      | with_reducible assumption
      | with_reducible refine Keeps.ite ?_ (fun _ => ?_)
      | with_reducible refine ih ?_
      | with_reducible refine State.sendFlit_keeps ?_
      | with_reducible refine State.linkEvent_keeps ?_

theorem State.sendMembers_keeps {z s} {p ty hdr} (h : Keeps z s) : Keeps z (State.sendMembers s p ty hdr) := by
  unfold State.sendMembers
  repeat' first
    | with_reducible assumption
    | with_reducible refine State.sendEach_keeps ?_
    | split

theorem State.writeJob_keeps {z s} {p j} (h : Keeps z s) : Keeps z (State.writeJob s p j) := by
  unfold State.writeJob
  repeat' first
    | with_reducible assumption
    | with_reducible refine State.writePhys_keeps ?_
    | with_reducible refine State.touchSup_keeps ?_

theorem State.setJob_keeps {z s} {p j} (h : Keeps z s) : Keeps z (State.setJob s p j) := by
  unfold State.setJob
  repeat' first
    | with_reducible assumption
    | with_reducible refine State.writeJob_keeps ?_
    | with_reducible refine State.onPart_keeps ?_

theorem State.advanceEpoch_keeps {z s} {p} (h : Keeps z s) : Keeps z (State.advanceEpoch s p) := by
  unfold State.advanceEpoch
  repeat' first
    | with_reducible assumption
    | with_reducible refine State.sendMembers_keeps ?_
    | with_reducible refine State.setJob_keeps ?_
    | with_reducible refine State.onPart_keeps ?_
    | split

theorem State.setQue_keeps {z s} {r q x} (h : Keeps z s) : Keeps z (State.setQue s r q x) := by
  unfold State.setQue
  repeat' first
    | with_reducible assumption
    | with_reducible refine State.onRegion_keeps ?_

theorem State.cutQueues_keeps {z s} {l} (h : Keeps z s) : Keeps z (State.cutQueues s l) := by
  unfold State.cutQueues
  repeat' first
    | with_reducible assumption
    | fail_if_no_progress refine Keeps.upd ?_ (Nat.le_refl _) rfl

theorem State.freshCell_keeps {z s} {r no} (h : Keeps z s) : Keeps z (State.freshCell s r no) := by
  unfold State.freshCell
  repeat' first
    | with_reducible assumption
    | fail_if_no_progress refine Keeps.upd ?_ (Nat.le_refl _) rfl

theorem State.meetCell_keeps {z s} {r no bs x4} (h : Keeps z s) : Keeps z (State.meetCell s r no bs x4).1 := by
  induction x4 generalizing s r no bs with
  | nil =>
    unfold State.meetCell
    repeat' first
      | with_reducible assumption
  | cons a0 r0 ih =>
    unfold State.meetCell
    repeat' first
      | with_reducible assumption
      | with_reducible refine ih ?_
      | with_reducible refine State.meetFirst_keeps ?_
      | split

theorem State.putCell_keeps {z s} {r q bs last aborted} (h : Keeps z s) : Keeps z (State.putCell s r q bs last aborted) := by
  unfold State.putCell
  repeat' first
    | with_reducible assumption
    | with_reducible refine State.setQue_keeps ?_
    | with_reducible refine State.onRegion_keeps ?_
    | with_reducible refine State.freshCell_keeps ?_

theorem State.countCell_keeps {z s} {r q} (h : Keeps z s) : Keeps z (State.countCell s r q) := by
  unfold State.countCell
  repeat' first
    | with_reducible assumption
    | lift_lets
    | (intro x; subst x)
    | with_reducible refine State.setQue_keeps ?_
    | with_reducible refine State.onRegion_keeps ?_
    | split

theorem State.countCells_keeps {z s} {r q x3} (h : Keeps z s) : Keeps z (State.countCells s r q x3) := by
  induction x3 generalizing s r q with
  | zero =>
    unfold State.countCells
    repeat' first
      | with_reducible assumption
  | succ n0 ih =>
    unfold State.countCells
    repeat' first
      | with_reducible assumption
      | with_reducible refine ih ?_
      | with_reducible refine State.countCell_keeps ?_

theorem State.abortPut_keeps {z s} {c} (h : Keeps z s) : Keeps z (State.abortPut s c) := by
  unfold State.abortPut
  repeat' first
    | with_reducible assumption
    | with_reducible refine State.putCell_keeps ?_
    | split

theorem State.onCores_keeps {z s} {f x2} (h : Keeps z s) : Keeps z (State.onCores s f x2) := by
  induction x2 generalizing s with
  | nil =>
    unfold State.onCores
    repeat' first
      | with_reducible assumption
  | cons a0 r0 ih =>
    unfold State.onCores
    repeat' first
      | with_reducible assumption
      | with_reducible refine ih ?_
      | with_reducible refine State.onCore_keeps ?_

theorem State.post_keeps {z s} {n sub status detail energy} (h : Keeps z s) : Keeps z (State.post s n sub status detail energy) := by
  unfold State.post
  repeat' first
    | with_reducible assumption
    | with_reducible refine Keeps.ite ?_ (fun _ => ?_)
    | with_reducible refine State.drawn_keeps ?_
    | with_reducible refine State.interrupt_keeps ?_
    | fail_if_no_progress refine Keeps.upd ?_ (Nat.le_refl _) rfl

theorem State.postAcc_keeps {z s} {n a status detail} (h : Keeps z s) : Keeps z (State.postAcc s n a status detail) := by
  unfold State.postAcc
  repeat' first
    | with_reducible assumption
    | with_reducible refine State.post_keeps ?_

theorem State.pass_keeps {z s} {c words f} (h : Keeps z s) : Keeps z (State.pass s c words f) := by
  unfold State.pass
  repeat' first
    | with_reducible assumption
    | with_reducible refine State.onX_keeps ?_

theorem State.endHold_keeps {z s} {c sD v} (h : Keeps z s) : Keeps z (State.endHold s c sD v) := by
  unfold State.endHold
  repeat' first
    | with_reducible assumption
    | with_reducible refine State.onX_keeps ?_

theorem State.decideCore_keeps {z s} {o c} (h : Keeps z s) : Keeps z (State.decideCore s o c) := by
  unfold State.decideCore
  repeat' first
    | with_reducible assumption
    | with_reducible refine State.endHold_keeps ?_
    | split

theorem State.decideCores_keeps {z s} {o x2} (h : Keeps z s) : Keeps z (State.decideCores s o x2) := by
  induction x2 generalizing s o with
  | nil =>
    unfold State.decideCores
    repeat' first
      | with_reducible assumption
  | cons a0 r0 ih =>
    unfold State.decideCores
    repeat' first
      | with_reducible assumption
      | with_reducible refine ih ?_
      | with_reducible refine State.decideCore_keeps ?_

theorem State.sendSyncs_keeps {z s} {p x2} (h : Keeps z s) : Keeps z (State.sendSyncs s p x2) := by
  induction x2 generalizing s p with
  | nil =>
    unfold State.sendSyncs
    repeat' first
      | with_reducible assumption
  | cons a0 r0 ih =>
    unfold State.sendSyncs
    repeat' first
      | with_reducible assumption
      | lift_lets
      | (intro x; subst x)
      | with_reducible refine ih ?_
      | with_reducible refine State.onPort_keeps ?_
      | with_reducible refine State.drawn_keeps ?_
      | with_reducible refine State.portSend_keeps ?_
      | split

theorem State.startSync_keeps {z s} {p jg} {t a} (h : Keeps z s) (e : State.startSync s p jg = some (t, a)) : Keeps z t := by
  unfold State.startSync at e
  split at e
  · cases e
  · split at e
    · cases e
    · injection e with e
      cases e
      exact State.sendSyncs_keeps h

theorem State.loseCore_keeps {z s} {o c} (h : Keeps z s) : Keeps z (State.loseCore s o c) := by
  unfold State.loseCore
  repeat' first
    | with_reducible assumption
    | with_reducible refine State.status_keeps ?_
    | with_reducible refine State.endHold_keeps ?_
    | split

theorem State.loseCores_keeps {z s} {o x2} (h : Keeps z s) : Keeps z (State.loseCores s o x2) := by
  induction x2 generalizing s o with
  | nil =>
    unfold State.loseCores
    repeat' first
      | with_reducible assumption
  | cons a0 r0 ih =>
    unfold State.loseCores
    repeat' first
      | with_reducible assumption
      | with_reducible refine ih ?_
      | with_reducible refine State.loseCore_keeps ?_

theorem State.sigClear_keeps {z s} {o syn} (h : Keeps z s) : Keeps z (State.sigClear s o syn) := by
  unfold State.sigClear
  repeat' first
    | with_reducible assumption
    | with_reducible refine State.onRegion_keeps ?_
    | with_reducible refine State.logError_keeps ?_
    | with_reducible refine State.event_keeps ?_
    | with_reducible refine State.loseCores_keeps ?_

theorem State.hostRead_keeps {z s} {o} (h : Keeps z s) : Keeps z (State.hostRead s o).1 := by
  unfold State.hostRead
  repeat' first
    | with_reducible assumption
    | lift_lets
    | (intro x; subst x)
    | with_reducible refine State.meetSig_keeps ?_
    | with_reducible refine State.sigClear_keeps ?_
    | split

theorem State.startRecs_keeps {z s} {n x2} (h : Keeps z s) : Keeps z (State.startRecs s n x2) := by
  induction x2 generalizing s n with
  | nil =>
    unfold State.startRecs
    repeat' first
      | with_reducible assumption
      | with_reducible refine State.onCtx_keeps ?_
  | cons a0 r0 ih =>
    unfold State.startRecs
    repeat' first
      | with_reducible assumption
      | lift_lets
      | (intro x; subst x)
      | with_reducible refine ih ?_
      | with_reducible refine State.onCtx_keeps ?_
      | with_reducible refine State.postAcc_keeps ?_
      | with_reducible refine State.post_keeps ?_
      | with_reducible refine State.violate_keeps ?_
      | with_reducible refine State.onRegion_keeps ?_
      | with_reducible refine State.hostRead_keeps ?_
      | with_reducible refine State.startSync_keeps ?_ (by assumption)
      | split

theorem State.endRec_keeps {z s} {n status detail energy} (h : Keeps z s) : Keeps z (State.endRec s n status detail energy) := by
  unfold State.endRec
  repeat' first
    | with_reducible assumption
    | with_reducible refine State.startRecs_keeps ?_
    | with_reducible refine State.post_keeps ?_
    | split

theorem State.decideHost_keeps {z s} {o n} (h : Keeps z s) : Keeps z (State.decideHost s o n) := by
  unfold State.decideHost
  repeat' first
    | with_reducible assumption
    | with_reducible refine State.endRec_keeps ?_
    | with_reducible refine State.onCtx_keeps ?_
    | split

theorem State.decideHosts_keeps {z s} {o x2} (h : Keeps z s) : Keeps z (State.decideHosts s o x2) := by
  induction x2 generalizing s o with
  | nil =>
    unfold State.decideHosts
    repeat' first
      | with_reducible assumption
  | cons a0 r0 ih =>
    unfold State.decideHosts
    repeat' first
      | with_reducible assumption
      | with_reducible refine ih ?_
      | with_reducible refine State.decideHost_keeps ?_

theorem State.sigWrite_keeps {z s} {o v source} (h : Keeps z s) : Keeps z (State.sigWrite s o v source) := by
  unfold State.sigWrite
  repeat' first
    | with_reducible assumption
    | with_reducible refine State.onRegion_keeps ?_
    | with_reducible refine State.decideHosts_keeps ?_
    | with_reducible refine State.decideCores_keeps ?_

theorem State.sigApply_keeps {z s} {o v set source} (h : Keeps z s) : Keeps z (State.sigApply s o v set source) := by
  unfold State.sigApply
  repeat' first
    | with_reducible assumption
    | with_reducible refine State.sigWrite_keeps ?_

theorem State.loseHost_keeps {z s} {o n} (h : Keeps z s) : Keeps z (State.loseHost s o n) := by
  unfold State.loseHost
  repeat' first
    | with_reducible assumption
    | with_reducible refine State.endRec_keeps ?_
    | with_reducible refine State.onCtx_keeps ?_
    | split

theorem State.loseHosts_keeps {z s} {o x2} (h : Keeps z s) : Keeps z (State.loseHosts s o x2) := by
  induction x2 generalizing s o with
  | nil =>
    unfold State.loseHosts
    repeat' first
      | with_reducible assumption
  | cons a0 r0 ih =>
    unfold State.loseHosts
    repeat' first
      | with_reducible assumption
      | with_reducible refine ih ?_
      | with_reducible refine State.loseHost_keeps ?_

theorem State.sigLost_keeps {z s} {o syn} (h : Keeps z s) : Keeps z (State.sigLost s o syn) := by
  unfold State.sigLost
  repeat' first
    | with_reducible assumption
    | with_reducible refine State.loseHosts_keeps ?_
    | with_reducible refine State.sigClear_keeps ?_

theorem State.dropReds_keeps {z s} {p whole x3} (h : Keeps z s) : Keeps z (State.dropReds s p whole x3) := by
  induction x3 generalizing s p whole with
  | nil =>
    unfold State.dropReds
    repeat' first
      | with_reducible assumption
  | cons a0 r0 ih =>
    unfold State.dropReds
    repeat' first
      | with_reducible assumption
      | with_reducible refine ih ?_
      | with_reducible refine State.onPort_keeps ?_
      | split

theorem State.dropOutside_keeps {z s} {c} (h : Keeps z s) : Keeps z (State.dropOutside s c) := by
  unfold State.dropOutside
  repeat' first
    | with_reducible assumption
    | with_reducible refine State.dropReds_keeps ?_
    | with_reducible refine State.abortPut_keeps ?_
    | fail_if_no_progress refine Keeps.upd ?_ (Nat.le_refl _) rfl

theorem State.dropOutsides_keeps {z s} {x1} (h : Keeps z s) : Keeps z (State.dropOutsides s x1) := by
  induction x1 generalizing s with
  | nil =>
    unfold State.dropOutsides
    repeat' first
      | with_reducible assumption
  | cons a0 r0 ih =>
    unfold State.dropOutsides
    repeat' first
      | with_reducible assumption
      | with_reducible refine ih ?_
      | with_reducible refine State.dropOutside_keeps ?_

theorem State.removeCtx_keeps {z s} {n} (h : Keeps z s) : Keeps z (State.removeCtx s n) := by
  unfold State.removeCtx
  repeat' first
    | with_reducible assumption
    | with_reducible refine State.onCores_keeps ?_
    | with_reducible refine State.dropOutsides_keeps ?_

theorem State.resetNotice_keeps {z s} {n} (h : Keeps z s) : Keeps z (State.resetNotice s n) := by
  unfold State.resetNotice
  repeat' first
    | with_reducible assumption
    | with_reducible refine Keeps.ite ?_ (fun _ => ?_)
    | with_reducible refine State.sendMembers_keeps ?_

theorem State.epochAfter_keeps {z s} {n} (h : Keeps z s) : Keeps z (State.epochAfter s n) := by
  unfold State.epochAfter
  repeat' first
    | with_reducible assumption
    | with_reducible refine Keeps.ite ?_ (fun _ => ?_)
    | with_reducible refine State.advanceEpoch_keeps ?_

theorem State.postRun_keeps {z s} {n} (h : Keeps z s) : Keeps z (State.postRun s n) := by
  unfold State.postRun
  repeat' first
    | with_reducible assumption
    | with_reducible refine State.countPart_keeps ?_
    | with_reducible refine State.count_keeps ?_
    | with_reducible refine State.drawn_keeps ?_
    | with_reducible refine State.post_keeps ?_
    | split

theorem State.nextRec_keeps {z s} {n} (h : Keeps z s) : Keeps z (State.nextRec s n) := by
  unfold State.nextRec
  repeat' first
    | with_reducible assumption
    | with_reducible refine State.startRecs_keeps ?_

theorem State.onRun_keeps {z s} {n f} (h : Keeps z s) : Keeps z (State.onRun s n f) := by
  unfold State.onRun
  repeat' first
    | with_reducible assumption
    | with_reducible refine State.onCtx_keeps ?_

theorem State.ctxEvents_keeps {z s} {n kind data x4} (h : Keeps z s) : Keeps z (State.ctxEvents s n kind data x4) := by
  induction x4 generalizing s n kind data with
  | nil =>
    unfold State.ctxEvents
    repeat' first
      | with_reducible assumption
  | cons a0 r0 ih =>
    unfold State.ctxEvents
    repeat' first
      | with_reducible assumption
      | with_reducible refine ih ?_
      | with_reducible refine State.event_keeps ?_

theorem State.missOne_keeps {z s} {n g} (h : Keeps z s) : Keeps z (State.missOne s n g) := by
  unfold State.missOne
  repeat' first
    | with_reducible assumption
    | with_reducible refine State.ctxEvents_keeps ?_
    | with_reducible refine State.count_keeps ?_
    | with_reducible refine State.onRun_keeps ?_

theorem State.missAll_keeps {z s} {n x2} (h : Keeps z s) : Keeps z (State.missAll s n x2) := by
  induction x2 generalizing s n with
  | nil =>
    unfold State.missAll
    repeat' first
      | with_reducible assumption
  | cons a0 r0 ih =>
    unfold State.missAll
    repeat' first
      | with_reducible assumption
      | with_reducible refine ih ?_
      | with_reducible refine State.missOne_keeps ?_

theorem State.noteDue_keeps {z s} {past n} (h : Keeps z s) : Keeps z (State.noteDue s past n) := by
  unfold State.noteDue
  repeat' first
    | with_reducible assumption
    | with_reducible refine Keeps.ite ?_ (fun _ => ?_)
    | with_reducible refine State.status_keeps ?_
    | with_reducible refine State.missAll_keeps ?_

theorem State.abortRun_keeps {z s} {n code} (h : Keeps z s) : Keeps z (State.abortRun s n code) := by
  unfold State.abortRun
  repeat' first
    | with_reducible assumption
    | with_reducible refine State.removeCtx_keeps ?_
    | with_reducible refine State.resetNotice_keeps ?_
    | with_reducible refine State.status_keeps ?_
    | with_reducible refine State.noteDue_keeps ?_
    | with_reducible refine State.postRun_keeps ?_
    | with_reducible refine State.onCtx_keeps ?_
    | with_reducible refine State.nextRec_keeps ?_
    | with_reducible refine State.epochAfter_keeps ?_

theorem State.missAccs_keeps {z s} {n k x3} (h : Keeps z s) : Keeps z (State.missAccs s n k x3) := by
  induction x3 generalizing s n k with
  | nil =>
    unfold State.missAccs
    repeat' first
      | with_reducible assumption
  | cons a0 r0 ih =>
    unfold State.missAccs
    repeat' first
      | with_reducible assumption
      | with_reducible refine Keeps.ite ?_ (fun _ => ?_)
      | with_reducible refine ih ?_
      | with_reducible refine State.count_keeps ?_
      | with_reducible refine State.onCtx_keeps ?_
      | with_reducible refine State.ctxEvents_keeps ?_

theorem Eff.settle_keeps {z} {n} {e : Eff} (h : Keeps z e.state) : Keeps z (Eff.settle n e) := by
  cases e with
  | done s => exact h
  | abort c s => exact State.abortRun_keeps h

theorem State.noteLeaving_keeps {z s} {n cs} (h : Keeps z s) : Keeps z (State.noteLeaving s n cs) := by
  unfold State.noteLeaving
  repeat' first
    | with_reducible assumption
    | with_reducible refine Keeps.ite ?_ (fun _ => ?_)
    | with_reducible refine State.status_keeps ?_

theorem State.maybeFinish_keeps {z s} {n} (h : Keeps z s) : Keeps z (State.maybeFinish s n) := by
  unfold State.maybeFinish
  repeat' first
    | with_reducible assumption
    | with_reducible refine Keeps.ite ?_ (fun _ => ?_)
    | with_reducible refine State.onCores_keeps ?_
    | with_reducible refine State.noteLeaving_keeps ?_
    | with_reducible refine State.nextRec_keeps ?_
    | with_reducible refine State.postRun_keeps ?_
    | with_reducible refine State.onCtx_keeps ?_

theorem State.maybeSave_keeps {z s} {n} (h : Keeps z s) : Keeps z (State.maybeSave s n) := by
  unfold State.maybeSave
  repeat' first
    | with_reducible assumption
    | with_reducible refine Keeps.ite ?_ (fun _ => ?_)
    | with_reducible refine State.onCtx_keeps ?_

theorem State.addFlags_keeps {z s} {c f} (h : Keeps z s) : Keeps z (State.addFlags s c f) := by
  unfold State.addFlags
  repeat' first
    | with_reducible assumption
    | with_reducible refine State.onRegs_keeps ?_

theorem withSpCtl_keeps {z s} {w c off n k} (h : Keeps z s) (hk : ∀ b0, Keeps z (k b0).state) : Keeps z (withSpCtl s w c off n k).state := by
  unfold withSpCtl
  repeat' first
    | with_reducible assumption
    | dsimp only [Eff.state_done, Eff.state_abort]
    | with_reducible refine hk _ 
    | with_reducible refine State.poisonRead_keeps ?_
    | split

theorem State.fillLine_keeps {z s} {c n w va} (h : Keeps z s) : Keeps z (State.fillLine s c n w va).s := by
  unfold State.fillLine
  repeat' first
    | with_reducible assumption
    | lift_lets
    | (intro x; subst x)
    | with_reducible refine State.readVirt_keeps ?_
    | with_reducible refine State.onCore_keeps ?_
    | split

theorem State.poisonLine_keeps {z s} {w va bs} (h : Keeps z s) : Keeps z (State.poisonLine s w va bs) := by
  unfold State.poisonLine
  repeat' first
    | with_reducible assumption
    | with_reducible refine State.poisonRead_keeps ?_

theorem State.fetchExt_keeps {z s} {c n r g w a} (h : Keeps z s) : Keeps z (State.fetchExt s c n r g w a).1 := by
  unfold State.fetchExt
  repeat' first
    | with_reducible assumption
    | lift_lets
    | (intro x; subst x)
    | with_reducible refine State.fillLine_keeps ?_
    | with_reducible refine State.poisonLine_keeps ?_
    | split

theorem State.fetch_keeps {z s} {c n r g} (h : Keeps z s) : Keeps z (State.fetch s c n r g).1 := by
  unfold State.fetch
  repeat' first
    | with_reducible assumption
    | lift_lets
    | (intro x; subst x)
    | with_reducible refine State.fillLine_keeps ?_
    | with_reducible refine State.poisonLine_keeps ?_
    | with_reducible refine State.fetchExt_keeps ?_
    | split

theorem fetched_keeps {z s} {c i k} (h : Keeps z s) (hk : ∀ b0 b1 b2 b3, Keeps z b0 → Keeps z (k b0 b1 b2 b3).state) :
    Keeps z (fetched s c i k) := by
  unfold fetched
  split
  · exact h
  · next n r g _ =>
    refine State.orWait_keeps h ?_
    have hf : Keeps z (s.fetch c n r g).1 := State.fetch_keeps h
    generalize s.fetch c n r g = q at hf
    obtain ⟨t, w⟩ := q
    cases w with
    | fail code => exact State.abortRun_keeps hf
    | instr j =>
      dsimp only
      split
      · exact Eff.settle_keeps (hk _ _ _ _ hf)
      · exact h

theorem scalar_keeps {z s} {c i words f} (h : Keeps z s) : Keeps z (scalar s c i words f) := by
  unfold scalar
  repeat' first
    | with_reducible assumption
    | dsimp only [Eff.state_done, Eff.state_abort]
    | with_reducible refine fetched_keeps ?_ (fun _ _ _ _ _ => ?_)
    | with_reducible refine State.pass_keeps ?_

theorem issue_keeps {z s} {c words e i ready check next run} (h : Keeps z s)
    (hrun : ∀ t k f, Keeps z t → run t c k = some f → Keeps z f.state) :
    Keeps z (issue s c words e i ready check next run) := by
  unfold issue
  refine fetched_keeps h (fun t n r g ht => ?_)
  dsimp only
  split
  · exact ht
  · split
    · exact ht
    · split
      · exact ht
      · split
        · split
          · exact State.setX_keeps ht
          · next f hf =>
            split
            · exact hrun _ _ _ (State.setX_keeps ht) hf
            · exact State.wakeStacks_keeps (State.setX_keeps ht)
        · exact State.setX_keeps ht

theorem startQueued_keeps {z s} {c k run} (h : Keeps z s)
    (hrun : ∀ t k f, Keeps z t → run t c k = some f → Keeps z f.state) : Keeps z (startQueued s c k run) := by
  unfold startQueued
  dsimp only
  split
  · split
    · next e he =>
      split
      · exact State.orWait_keeps h (Eff.settle_keeps (hrun _ _ _ (State.setX_keeps h) he))
      · exact h
    · exact h
  · exact h

end Sys2Proof.Machine
end

