-- ==== Sys2Proof/Laws/KeepsCompute.lean ====
section
/-! SUPPORT. `Keeps` for the sequencer, signals and queues, and the engines that compute. -/

namespace Sys2Proof.Machine

theorem alu_keeps {z s} {c i f op} (h : Keeps z s) : Keeps z (alu s c i f op) := by
  unfold alu
  repeat' first
    | with_reducible assumption
    | dsimp only [Eff.state_done, Eff.state_abort]
    | with_reducible refine fetched_keeps ?_ (fun _ _ _ _ _ => ?_)
    | with_reducible refine State.pass_keeps ?_
    | split

theorem State.jump_keeps {z s} {c g} (h : Keeps z s) : Keeps z (State.jump s c g) := by
  unfold State.jump
  repeat' first
    | with_reducible assumption
    | with_reducible refine State.onX_keeps ?_

theorem State.stopCore_keeps {z s} {c n pc} (h : Keeps z s) : Keeps z (State.stopCore s c n pc) := by
  unfold State.stopCore
  repeat' first
    | with_reducible assumption
    | with_reducible refine State.coreEvent_keeps ?_
    | with_reducible refine State.maybeSave_keeps ?_
    | with_reducible refine State.onCore_keeps ?_

theorem State.leaveGroup_keeps {z s} {c n} (h : Keeps z s) : Keeps z (State.leaveGroup s c n) := by
  unfold State.leaveGroup
  repeat' first
    | with_reducible assumption
    | with_reducible refine State.onRun_keeps ?_

theorem State.closeGroup_keeps {z s} {c n} (h : Keeps z s) : Keeps z (State.closeGroup s c n) := by
  unfold State.closeGroup
  repeat' first
    | with_reducible assumption
    | with_reducible refine State.leaveGroup_keeps ?_
    | with_reducible refine State.coreEvent_keeps ?_

theorem State.openGroup_keeps {z s} {c n d} (h : Keeps z s) : Keeps z (State.openGroup s c n d) := by
  unfold State.openGroup
  repeat' first
    | with_reducible assumption
    | with_reducible refine State.leaveGroup_keeps ?_
    | with_reducible refine State.onRun_keeps ?_
    | with_reducible refine State.onX_keeps ?_
    | with_reducible refine State.coreEvent_keeps ?_

theorem State.pausePoint_keeps {z s} {c n pc} (h : Keeps z s) : Keeps z (State.pausePoint s c n pc) := by
  unfold State.pausePoint
  repeat' first
    | with_reducible assumption
    | with_reducible refine Keeps.ite ?_ (fun _ => ?_)
    | with_reducible refine State.stopCore_keeps ?_

theorem State.sendUpdates_keeps {z s} {r} (h : Keeps z s) : Keeps z (State.sendUpdates s r) := by
  unfold State.sendUpdates
  repeat' first
    | with_reducible assumption
    | with_reducible refine State.onRegion_keeps ?_

theorem sigIssue_keeps {z s} {c i set sS sV} (h : Keeps z s) : Keeps z (sigIssue s c i set sS sV) := by
  unfold sigIssue
  repeat' first
    | with_reducible assumption
    | dsimp only [Eff.state_done, Eff.state_abort]
    | with_reducible refine fetched_keeps ?_ (fun _ _ _ _ _ => ?_)
    | with_reducible refine State.violateBy_keeps ?_
    | with_reducible refine State.sendUpdates_keeps ?_
    | with_reducible refine State.onRegion_keeps ?_
    | with_reducible refine State.pass_keeps ?_
    | split

theorem State.statuses_keeps {z s} {code x2} (h : Keeps z s) : Keeps z (State.statuses s code x2) := by
  induction x2 generalizing s code with
  | nil =>
    unfold State.statuses
    repeat' first
      | with_reducible assumption
  | cons a0 r0 ih =>
    unfold State.statuses
    repeat' first
      | with_reducible assumption
      | with_reducible refine ih ?_
      | with_reducible refine State.status_keeps ?_

theorem State.updRead_keeps {z s} {r u damaged} (h : Keeps z s) : Keeps z (State.updRead s r u damaged).1 := by
  unfold State.updRead
  repeat' first
    | with_reducible assumption
    | with_reducible refine State.meetSig_keeps ?_
    | with_reducible refine State.drawn_keeps ?_
    | split

theorem State.applyUpd_keeps {z s} {r u damaged} (h : Keeps z s) : Keeps z (State.applyUpd s r u damaged) := by
  unfold State.applyUpd
  repeat' first
    | with_reducible assumption
    | lift_lets
    | (intro x; subst x)
    | with_reducible refine State.onRegion_keeps ?_
    | with_reducible refine State.updRead_keeps ?_
    | with_reducible refine State.sigLost_keeps ?_
    | with_reducible refine State.statuses_keeps ?_
    | with_reducible refine State.sigApply_keeps ?_
    | with_reducible refine State.status_keeps ?_
    | with_reducible refine State.endRec_keeps ?_
    | split

theorem State.waitLost_keeps {z s} {c n sD o} (h : Keeps z s) : Keeps z (State.waitLost s c n sD o).1 := by
  unfold State.waitLost
  repeat' first
    | with_reducible assumption
    | lift_lets
    | (intro x; subst x)
    | with_reducible refine State.meetSig_keeps ?_
    | with_reducible refine State.status_keeps ?_
    | with_reducible refine State.endHold_keeps ?_
    | with_reducible refine State.sigLost_keeps ?_
    | split

theorem State.holdPort_keeps {z s} {c r x3} (h : Keeps z s) : Keeps z (State.holdPort s c r x3) := by
  unfold State.holdPort
  repeat' first
    | with_reducible assumption
    | with_reducible refine State.onX_keeps ?_

theorem State.qputCell_keeps {z s} {c} (h : Keeps z s) : Keeps z (State.qputCell s c) := by
  unfold State.qputCell
  repeat' first
    | with_reducible assumption
    | lift_lets
    | (intro x; subst x)
    | with_reducible refine State.readSp_keeps ?_
    | with_reducible refine State.putCell_keeps ?_
    | with_reducible refine State.endHold_keeps ?_
    | with_reducible refine State.onX_keeps ?_
    | split

theorem State.qputCells_keeps {z s} {c x2} (h : Keeps z s) : Keeps z (State.qputCells s c x2) := by
  induction x2 generalizing s c with
  | zero =>
    unfold State.qputCells
    repeat' first
      | with_reducible assumption
  | succ n0 ih =>
    unfold State.qputCells
    repeat' first
      | with_reducible assumption
      | with_reducible refine ih ?_
      | with_reducible refine State.qputCell_keeps ?_

theorem State.qgetCell_keeps {z s} {c} (h : Keeps z s) : Keeps z (State.qgetCell s c) := by
  unfold State.qgetCell
  repeat' first
    | with_reducible assumption
    | with_reducible refine State.meetCell_keeps ?_
    | with_reducible refine State.poisonRead_keeps ?_
    | with_reducible refine State.writeSp_keeps ?_
    | with_reducible refine State.endHold_keeps ?_
    | with_reducible refine State.setQue_keeps ?_
    | with_reducible refine State.onX_keeps ?_
    | split

theorem State.qgetCells_keeps {z s} {c x2} (h : Keeps z s) : Keeps z (State.qgetCells s c x2) := by
  induction x2 generalizing s c with
  | zero =>
    unfold State.qgetCells
    repeat' first
      | with_reducible assumption
  | succ n0 ih =>
    unfold State.qgetCells
    repeat' first
      | with_reducible assumption
      | with_reducible refine ih ?_
      | with_reducible refine State.qgetCell_keeps ?_

theorem State.portTick_keeps {z s} {c} (h : Keeps z s) : Keeps z (State.portTick s c) := by
  unfold State.portTick
  repeat' first
    | with_reducible assumption
    | with_reducible refine State.qputCell_keeps ?_
    | with_reducible refine State.qgetCell_keeps ?_
    | split

theorem State.portTicks_keeps {z s} {x1} (h : Keeps z s) : Keeps z (State.portTicks s x1) := by
  induction x1 generalizing s with
  | nil =>
    unfold State.portTicks
    repeat' first
      | with_reducible assumption
  | cons a0 r0 ih =>
    unfold State.portTicks
    repeat' first
      | with_reducible assumption
      | with_reducible refine ih ?_
      | with_reducible refine State.portTick_keeps ?_

theorem queueConfigure_keeps {z s} {r q v} (h : Keeps z s) : Keeps z (queueConfigure s r q v) := by
  unfold queueConfigure
  repeat' first
    | with_reducible assumption
    | with_reducible refine Keeps.ite ?_ (fun _ => ?_)
    | with_reducible refine State.writeDropped_keeps ?_
    | with_reducible refine State.setQue_keeps ?_

theorem queueDisable_keeps {z s} {r q} (h : Keeps z s) : Keeps z (queueDisable s r q) := by
  unfold queueDisable
  repeat' first
    | with_reducible assumption
    | with_reducible refine Keeps.ite ?_ (fun _ => ?_)
    | with_reducible refine State.setQue_keeps ?_

theorem queueFlush_keeps {z s} {r q} (h : Keeps z s) : Keeps z (queueFlush s r q) := by
  unfold queueFlush
  repeat' first
    | with_reducible assumption
    | with_reducible refine State.setQue_keeps ?_

theorem State.endQueueHold_keeps {z s} {r q c} (h : Keeps z s) : Keeps z (State.endQueueHold s r q c) := by
  unfold State.endQueueHold
  repeat' first
    | with_reducible assumption
    | with_reducible refine State.endHold_keeps ?_
    | with_reducible refine State.violateBy_keeps ?_
    | split

theorem State.endQueueHolds_keeps {z s} {r q x3} (h : Keeps z s) : Keeps z (State.endQueueHolds s r q x3) := by
  induction x3 generalizing s r q with
  | nil =>
    unfold State.endQueueHolds
    repeat' first
      | with_reducible assumption
  | cons a0 r0 ih =>
    unfold State.endQueueHolds
    repeat' first
      | with_reducible assumption
      | with_reducible refine ih ?_
      | with_reducible refine State.endQueueHold_keeps ?_

theorem queueFlushDone_keeps {z s} {r q} (h : Keeps z s) : Keeps z (queueFlushDone s r q) := by
  unfold queueFlushDone
  repeat' first
    | with_reducible assumption
    | lift_lets
    | (intro x; subst x)
    | with_reducible refine State.countCells_keeps ?_
    | with_reducible refine State.setQue_keeps ?_
    | with_reducible refine State.event_keeps ?_
    | with_reducible refine State.endQueueHolds_keeps ?_
    | split

theorem sigObjWrite_keeps {z s} {p r i v set} (h : Keeps z s) : Keeps z (sigObjWrite s p r i v set) := by
  unfold sigObjWrite
  repeat' first
    | with_reducible assumption
    | with_reducible refine State.sigApply_keeps ?_
    | split

theorem readRows_keeps {z s} {w c off soff o x6} (h : Keeps z s) : Keeps z (readRows s w c off soff o x6).1 := by
  induction x6 generalizing s w c off soff o with
  | zero =>
    unfold readRows
    repeat' first
      | with_reducible assumption
  | succ n0 ih =>
    unfold readRows
    repeat' first
      | with_reducible assumption
      | with_reducible refine ih ?_
      | with_reducible refine State.readSp_keeps ?_
      | split

theorem State.countWork_keeps {z s} {w i v} (h : Keeps z s) : Keeps z (State.countWork s w i v) := by
  unfold State.countWork
  repeat' first
    | with_reducible assumption
    | with_reducible refine State.count_keeps ?_
    | split

theorem State.ergDamage_keeps {z s} {w n ring ty unit slot gen cause sub addr} (h : Keeps z s) : Keeps z (State.ergDamage s w n ring ty unit slot gen cause sub addr) := by
  unfold State.ergDamage
  repeat' first
    | with_reducible assumption
    | with_reducible refine State.logError_keeps ?_
    | with_reducible refine State.event_keeps ?_
    | with_reducible refine State.status_keeps ?_
    | with_reducible refine State.count_keeps ?_

theorem State.expands_keeps {z s} {w x2} (h : Keeps z s) : Keeps z (State.expands s w x2) := by
  induction x2 generalizing s w with
  | nil =>
    unfold State.expands
    repeat' first
      | with_reducible assumption
  | cons a0 r0 ih =>
    unfold State.expands
    repeat' first
      | with_reducible assumption
      | with_reducible refine ih ?_
      | with_reducible refine State.actBy_keeps ?_

theorem readErg_keeps {z s} {w c k fmt off n da stream} (h : Keeps z s) : Keeps z (readErg s w c k fmt off n da stream).1 := by
  unfold readErg
  repeat' first
    | with_reducible assumption
    | with_reducible refine State.readSp_keeps ?_
    | with_reducible refine State.expands_keeps ?_
    | with_reducible refine State.setX_keeps ?_

theorem readOp_keeps {z s} {w c k o da} (h : Keeps z s) : Keeps z (readOp s w c k o da).1 := by
  unfold readOp
  repeat' first
    | with_reducible assumption
    | with_reducible refine readErg_keeps ?_
    | with_reducible refine readRows_keeps ?_
    | split

theorem runMxForm_keeps {z s t} {f x2 x3} (h : Keeps z s) (e : runMxForm f s x2 x3 = some t) : Keeps z t.state := by
  unfold runMxForm at e
  try dsimp only at e
  repeat' split at e
  all_goals try cases e
  repeat' first
    | with_reducible assumption
    | dsimp only [Eff.state_done, Eff.state_abort]
    | with_reducible refine State.onX_keeps ?_

theorem readWeights_keeps {z s} {w c k f off} (h : Keeps z s) : Keeps z (readWeights s w c k f off).1 := by
  unfold readWeights
  repeat' first
    | with_reducible assumption
    | lift_lets
    | (intro x; subst x)
    | with_reducible refine readErg_keeps ?_
    | split

theorem runMxWld_keeps {z s t} {f x2 x3} (h : Keeps z s) (e : runMxWld f s x2 x3 = some t) : Keeps z t.state := by
  unfold runMxWld at e
  try dsimp only at e
  repeat' split at e
  all_goals try cases e
  repeat' first
    | with_reducible assumption
    | dsimp only [Eff.state_done, Eff.state_abort]
    | with_reducible refine readWeights_keeps ?_
    | with_reducible refine State.onX_keeps ?_
    | with_reducible refine readRows_keeps ?_
    | with_reducible refine State.readSp_keeps ?_

theorem runMxSwap_keeps {z s t} {x1 x2} (h : Keeps z s) (e : runMxSwap s x1 x2 = some t) : Keeps z t.state := by
  unfold runMxSwap at e
  try dsimp only at e
  repeat' split at e
  all_goals try cases e
  repeat' first
    | with_reducible assumption
    | dsimp only [Eff.state_done, Eff.state_abort]
    | with_reducible refine State.onX_keeps ?_

theorem runMxRun_keeps {z s t} {f x2 x3} (h : Keeps z s) (e : runMxRun f s x2 x3 = some t) : Keeps z t.state := by
  unfold runMxRun at e
  try dsimp only at e
  repeat' split at e
  all_goals try cases e
  repeat' first
    | with_reducible assumption
    | dsimp only [Eff.state_done, Eff.state_abort]
    | with_reducible refine readOp_keeps ?_
    | with_reducible refine State.onX_keeps ?_
    | with_reducible refine State.addFlags_keeps ?_
    | with_reducible refine State.actBy_keeps ?_
    | with_reducible refine State.count_keeps ?_

theorem runMxDrain_keeps {z s t} {f x2 x3} (h : Keeps z s) (e : runMxDrain f s x2 x3 = some t) : Keeps z t.state := by
  unfold runMxDrain at e
  try dsimp only at e
  repeat' split at e
  all_goals try cases e
  repeat' first
    | with_reducible assumption
    | dsimp only [Eff.state_done, Eff.state_abort]
    | with_reducible refine State.onX_keeps ?_

theorem wellSegment_keeps {z s} {w n st wl wfmt addr da bs} (h : Keeps z s) : Keeps z (wellSegment s w n st wl wfmt addr da bs).s := by
  unfold wellSegment
  repeat' first
    | with_reducible assumption
    | lift_lets
    | (intro x; subst x)
    | with_reducible refine State.ergDamage_keeps ?_
    | split

theorem wellSegments_keeps {z s} {w n st wl wfmt addr da x8} (h : Keeps z s) : Keeps z (wellSegments s w n st wl wfmt addr da x8).s := by
  induction x8 generalizing s w n st wl wfmt addr da with
  | nil =>
    unfold wellSegments
    repeat' first
      | with_reducible assumption
  | cons a0 r0 ih =>
    unfold wellSegments
    repeat' first
      | with_reducible assumption
      | with_reducible refine ih ?_
      | with_reducible refine wellSegment_keeps ?_

theorem nmvColumns_keeps {z s} {w n st a f xs x6} (h : Keeps z s) : Keeps z (nmvColumns w n st a f xs x6 s).s := by
  induction x6 generalizing w n st a f xs s with
  | zero =>
    unfold nmvColumns
    repeat' first
      | with_reducible assumption
  | succ n0 ih =>
    unfold nmvColumns
    repeat' first
      | with_reducible assumption
      | lift_lets
      | (intro x; subst x)
      | with_reducible refine ih ?_
      | with_reducible refine State.readData_keeps ?_
      | with_reducible refine wellSegments_keeps ?_
      | with_reducible refine State.poisonRead_keeps ?_
      | split

theorem State.askWells_keeps {z s} {st r} (h : Keeps z s) : Keeps z (State.askWells s st r) := by
  unfold State.askWells
  repeat' first
    | with_reducible assumption
    | with_reducible refine State.onStack_keeps ?_

theorem runMxNmv_keeps {z s t} {f x2 x3} (h : Keeps z s) (e : runMxNmv f s x2 x3 = some t) : Keeps z t.state := by
  unfold runMxNmv at e
  try dsimp only at e
  repeat' split at e
  all_goals try cases e
  repeat' first
    | with_reducible assumption
    | dsimp only [Eff.state_done, Eff.state_abort]
    | with_reducible refine readOp_keeps ?_
    | with_reducible refine nmvColumns_keeps ?_
    | with_reducible refine State.writeSp_keeps ?_
    | with_reducible refine State.addFlags_keeps ?_
    | with_reducible refine State.askWells_keeps ?_
    | with_reducible refine State.act_keeps ?_
    | with_reducible refine State.count_keeps ?_

theorem runXpDef_keeps {z s t} {xN aS sO x4 x5} (h : Keeps z s) (e : runXpDef xN aS sO s x4 x5 = some t) : Keeps z t.state := by
  unfold runXpDef at e
  try dsimp only at e
  repeat' split at e
  all_goals try cases e
  repeat' first
    | with_reducible assumption
    | dsimp only [Eff.state_done, Eff.state_abort]
    | with_reducible refine withSpCtl_keeps ?_ (fun _ => ?_)
    | with_reducible refine State.onRegs_keeps ?_
    | split

theorem readMask_keeps {z s} {w c m n} (h : Keeps z s) : Keeps z (readMask s w c m n).1 := by
  unfold readMask
  repeat' first
    | with_reducible assumption
    | with_reducible refine State.readSp_keeps ?_
    | split

theorem readIns_keeps {z s} {w c k n tiles x6} (h : Keeps z s) : Keeps z (readIns s w c k n tiles x6).1 := by
  induction x6 generalizing s w c k n tiles with
  | nil =>
    unfold readIns
    repeat' first
      | with_reducible assumption
  | cons a0 r0 ih =>
    unfold readIns
    repeat' first
      | with_reducible assumption
      | with_reducible refine ih ?_
      | with_reducible refine readOp_keeps ?_
      | split

theorem writeOut_keeps {z s} {c k f p xs o t n} (h : Keeps z s) : Keeps z (writeOut s c k f p xs o t n) := by
  unfold writeOut
  repeat' first
    | with_reducible assumption
    | with_reducible refine Keeps.ite ?_ (fun _ => ?_)
    | with_reducible refine State.writeSp_keeps ?_
    | with_reducible refine State.addFlags_keeps ?_

theorem writeOuts_keeps {z s} {c k f p xs n o x8} (h : Keeps z s) : Keeps z (writeOuts s c k f p xs n o x8) := by
  induction x8 generalizing s c k f p xs n o with
  | nil =>
    unfold writeOuts
    repeat' first
      | with_reducible assumption
  | cons a0 r0 ih =>
    unfold writeOuts
    repeat' first
      | with_reducible assumption
      | with_reducible refine ih ?_
      | with_reducible refine writeOut_keeps ?_

theorem epBody_keeps {z s} {c k f p n m tiles} (h : Keeps z s) : Keeps z (epBody s c k f p n m tiles) := by
  unfold epBody
  repeat' first
    | with_reducible assumption
    | with_reducible refine readIns_keeps ?_
    | with_reducible refine readMask_keeps ?_
    | with_reducible refine writeOuts_keeps ?_
    | with_reducible refine State.addFlags_keeps ?_
    | with_reducible refine State.actBy_keeps ?_
    | with_reducible refine State.countWork_keeps ?_

theorem runVxEp_keeps {z s t} {f x2 x3} (h : Keeps z s) (e : runVxEp f s x2 x3 = some t) : Keeps z t.state := by
  unfold runVxEp at e
  try dsimp only at e
  repeat' split at e
  all_goals try cases e
  repeat' first
    | with_reducible assumption
    | dsimp only [Eff.state_done, Eff.state_abort]
    | with_reducible refine epBody_keeps ?_
    | with_reducible refine State.onX_keeps ?_

theorem redBody_keeps {z s} {c k f n m tiles} (h : Keeps z s) : Keeps z (redBody s c k f n m tiles) := by
  unfold redBody
  repeat' first
    | with_reducible assumption
    | with_reducible refine readOp_keeps ?_
    | with_reducible refine readMask_keeps ?_
    | with_reducible refine State.writeSp_keeps ?_
    | with_reducible refine State.addFlags_keeps ?_
    | split

theorem runVxRed_keeps {z s t} {f x2 x3} (h : Keeps z s) (e : runVxRed f s x2 x3 = some t) : Keeps z t.state := by
  unfold runVxRed at e
  try dsimp only at e
  repeat' split at e
  all_goals try cases e
  repeat' first
    | with_reducible assumption
    | dsimp only [Eff.state_done, Eff.state_abort]
    | with_reducible refine redBody_keeps ?_
    | with_reducible refine State.onX_keeps ?_

theorem runRnDraw_keeps {z s t} {aD wq draw sL x5 x6} (h : Keeps z s) (e : runRnDraw aD wq draw sL s x5 x6 = some t) : Keeps z t.state := by
  unfold runRnDraw at e
  try dsimp only at e
  repeat' split at e
  all_goals try cases e
  repeat' first
    | with_reducible assumption
    | dsimp only [Eff.state_done, Eff.state_abort]
    | with_reducible refine State.writeSp_keeps ?_

theorem State.allocOne_keeps {z s t} {a p n ks} (h : Keeps z s) (e : State.allocOne s p n ks = some (t, a)) : Keeps z t := by
  unfold State.allocOne at e
  split at e
  · cases e
  · cases e
    refine h.updFrames (fun i => ⟨Tab.rising_put i.1 _ _, fun q hq => ?_⟩)
    rcases Tab.mem_put hq with rfl | hq
    · exact Nat.le_refl 1
    · exact i.2 q hq

theorem State.allocMany_keeps {z s t} {a p f k last n} (h : Keeps z s) (e : State.allocMany s p f k last n = some (t, a)) :
    Keeps z t := by
  induction n generalizing s t a last with
  | zero => cases e; exact h
  | succ n ih =>
    simp only [State.allocMany] at e
    split at e
    · cases e
    · next s' va j hs =>
      split at e
      · cases e
      · next s2 vas j2 h2 =>
        cases e
        exact ih (State.allocOne_keeps h hs) h2

theorem State.release1_keeps {z s} {f} (h : Keeps z s) : Keeps z (State.release1 s f) := by
  unfold State.release1
  split
  · exact h
  · split
    · exact h.updFrames (fun i => ⟨Tab.rising_del i.1 _, fun q hq => i.2 q (List.mem_of_mem_filter hq)⟩)
    · next q _ hc =>
      refine h.updFrames (fun i => ⟨Tab.rising_put i.1 _ _, fun r hr => ?_⟩)
      rcases Tab.mem_put hr with rfl | hr
      · simp only; omega
      · exact i.2 r hr

theorem State.freeList_keeps {z s t} {p l} (h : Keeps z s) (e : State.freeList s p l = .ok t) : Keeps z t := by
  induction l generalizing s with
  | nil => cases e; exact h
  | cons x r ih =>
    unfold State.freeList at e
    split at e
    · cases e
    · exact ih (State.release1_keeps h) e

theorem State.forkList_keeps {z s t} {p l} (h : Keeps z s) (e : State.forkList s p l = .ok t) : Keeps z t := by
  induction l generalizing s with
  | nil => cases e; exact h
  | cons x r ih =>
    unfold State.forkList at e
    split at e
    · cases e
    · split at e
      · cases e
      · next q _ =>
        split at e
        · cases e
        · refine ih (h.updFrames (fun i => ⟨Tab.rising_put i.1 _ _, fun r hr => ?_⟩)) e
          rcases Tab.mem_put hr with rfl | hr
          · exact Nat.le_add_left 1 _
          · exact i.2 r hr

theorem State.ctlRecord_keeps {z s} {w va n} (h : Keeps z s) : Keeps z (State.ctlRecord s w va n).s := by
  unfold State.ctlRecord
  repeat' first
    | with_reducible assumption
    | lift_lets
    | (intro x; subst x)
    | with_reducible refine State.readVirt_keeps ?_
    | with_reducible refine State.poisonRead_keeps ?_
    | split

theorem State.recordHead_keeps {z s} {w e} (h : Keeps z s) : Keeps z (State.recordHead s w e).s := by
  unfold State.recordHead
  repeat' first
    | with_reducible assumption
    | lift_lets
    | (intro x; subst x)
    | with_reducible refine State.readVirt_keeps ?_
    | with_reducible refine State.poisonRead_keeps ?_
    | split

theorem State.recordPages_keeps {z s} {w e} (h : Keeps z s) : Keeps z (State.recordPages s w e).s := by
  unfold State.recordPages
  repeat' first
    | with_reducible assumption
    | with_reducible refine State.ctlRecord_keeps ?_

theorem State.findIn_keeps {z s} {w x2 k x4} (h : Keeps z s) : Keeps z (State.findIn s w x2 k x4).s := by
  induction x4 generalizing s w x2 k with
  | nil =>
    unfold State.findIn
    repeat' first
      | with_reducible assumption
  | cons a0 r0 ih =>
    unfold State.findIn
    repeat' first
      | with_reducible assumption
      | lift_lets
      | (intro x; subst x)
      | with_reducible refine ih ?_
      | with_reducible refine State.recordHead_keeps ?_
      | split

theorem State.findChunk_keeps {z s} {w set x3 k} (h : Keeps z s) : Keeps z (State.findChunk s w set x3 k).s := by
  unfold State.findChunk
  repeat' first
    | with_reducible assumption
    | with_reducible refine State.findIn_keeps ?_

theorem State.replaceable_keeps {z s} {w x2} (h : Keeps z s) : Keeps z (State.replaceable s w x2).s := by
  induction x2 generalizing s w with
  | nil =>
    unfold State.replaceable
    repeat' first
      | with_reducible assumption
  | cons a0 r0 ih =>
    unfold State.replaceable
    repeat' first
      | with_reducible assumption
      | lift_lets
      | (intro x; subst x)
      | with_reducible refine ih ?_
      | with_reducible refine State.recordPages_keeps ?_
      | with_reducible refine State.poisonRead_keeps ?_
      | split

theorem State.releaseAll_keeps {z s} {p x2} (h : Keeps z s) : Keeps z (State.releaseAll s p x2) := by
  induction x2 generalizing s p with
  | nil =>
    unfold State.releaseAll
    repeat' first
      | with_reducible assumption
  | cons a0 r0 ih =>
    unfold State.releaseAll
    repeat' first
      | with_reducible assumption
      | with_reducible refine ih ?_
      | with_reducible refine State.release1_keeps ?_
      | split

theorem State.evict_keeps {z s} {p set e pages} (h : Keeps z s) : Keeps z (State.evict s p set e pages) := by
  unfold State.evict
  repeat' first
    | with_reducible assumption
    | with_reducible refine State.releaseAll_keeps ?_
    | fail_if_no_progress refine Keeps.upd ?_ (Nat.le_refl _) rfl

theorem State.withReclaim_keeps {α : Type} {z s} {w n} {k : State → Option (State × α)} (h : Keeps z s)
    (hk : ∀ t u a, Keeps z t → k t = some (u, a) → Keeps z u) : Keeps z (State.withReclaim s w k n).s := by
  induction n generalizing s with
  | zero =>
    unfold State.withReclaim
    split
    · next hs => exact hk _ _ _ h hs
    · exact h
  | succ n ih =>
    unfold State.withReclaim
    split
    · next hs => exact hk _ _ _ h hs
    · dsimp only
      split
      · exact State.replaceable_keeps h
      · exact ih (State.evict_keeps (State.replaceable_keeps h))

theorem State.dropEntries_keeps {z s} {w x2} (h : Keeps z s) : Keeps z (State.dropEntries s w x2) := by
  induction x2 generalizing s w with
  | nil =>
    unfold State.dropEntries
    repeat' first
      | with_reducible assumption
  | cons a0 r0 ih =>
    unfold State.dropEntries
    repeat' first
      | with_reducible assumption
      | with_reducible refine ih ?_
      | with_reducible refine State.recordPages_keeps ?_
      | with_reducible refine State.evict_keeps ?_

theorem State.dropDirectory_keeps {z s} {p} (h : Keeps z s) : Keeps z (State.dropDirectory s p) := by
  unfold State.dropDirectory
  repeat' first
    | with_reducible assumption
    | with_reducible refine State.dropEntries_keeps ?_

theorem State.cacheClear_keeps {z s} {p} (h : Keeps z s) : Keeps z (State.cacheClear s p) := by
  unfold State.cacheClear
  dsimp only
  exact (h.updFrames (fun i => ⟨Tab.rising_filter i.1 _, fun q hq => i.2 q (List.mem_of_mem_filter hq)⟩)).upd
    (Nat.le_refl _) rfl

theorem State.pageDone_keeps {z s} {c o status count hash out} (h : Keeps z s) : Keeps z (State.pageDone s c o status count hash out).state := by
  unfold State.pageDone
  repeat' first
    | with_reducible assumption
    | dsimp only [Eff.state_done, Eff.state_abort]
    | with_reducible refine State.writeSp_keeps ?_

theorem State.pageFail_keeps {z s} {c o w x4} (h : Keeps z s) : Keeps z (State.pageFail s c o w x4).state := by
  unfold State.pageFail
  repeat' first
    | with_reducible assumption
    | dsimp only [Eff.state_done, Eff.state_abort]
    | with_reducible refine State.pageDone_keeps ?_
    | with_reducible refine State.poisonRead_keeps ?_
    | split

theorem pageRun_keeps {z s t} {aA aR aO out k c i} (h : Keeps z s)
    (hk : ∀ t c w o, Keeps z t → Keeps z (k t c w o).state) (e : pageRun aA aR aO out k s c i = some t) :
    Keeps z t.state := by
  unfold pageRun at e
  generalize pageOps i.regs (s.window c) aA aR aO out = p at e
  cases p with
  | none => exact Option.some.inj e ▸ h
  | some o => exact Option.some.inj e ▸ hk _ _ _ _ h

theorem withBlock_keeps {z s} {w c o n k} (h : Keeps z s) (hk : ∀ b0 b1, Keeps z (k b0 b1).state) : Keeps z (withBlock s w c o n k).state := by
  unfold withBlock
  repeat' first
    | with_reducible assumption
    | dsimp only [Eff.state_done, Eff.state_abort]
    | with_reducible refine hk _ _ 
    | with_reducible refine withSpCtl_keeps ?_ (fun _ => ?_)
    | split

theorem pageAlloc_keeps {z s} {c w o} (h : Keeps z s) : Keeps z (pageAlloc s c w o).state := by
  unfold pageAlloc
  refine withBlock_keeps h (fun b _ => ?_)
  dsimp only
  have hr : Keeps z (s.withReclaim w (fun u => (u.allocMany w.part (b.getD 2 0).toNat (b.getD 5 0).toNat
      ((s.part w.part).lastAlloc) (countOf b)).map (fun x => (x.1, x.2))) (s.dirEntries w.part).length).s := by
    refine State.withReclaim_keeps h (fun t u a ht e => ?_)
    obtain ⟨x, hx, hy⟩ := Option.map_eq_some_iff.1 e
    cases hy
    exact State.allocMany_keeps ht hx
  split
  · split
    · exact hr
    · exact State.pageDone_keeps hr
  · exact State.pageDone_keeps (State.onPart_keeps hr)

theorem pageCount_keeps {z s} {fork c w o} (h : Keeps z s) : Keeps z (pageCount fork s c w o).state := by
  unfold pageCount
  refine withBlock_keeps h (fun b t => ?_)
  split
  · next u hu =>
    split at hu
    · exact State.pageDone_keeps (State.forkList_keeps h hu)
    · exact State.pageDone_keeps (State.freeList_keeps h hu)
  · exact State.pageFail_keeps h

theorem pagePrep_keeps {z s} {c w o} (h : Keeps z s) : Keeps z (pagePrep s c w o).state := by
  unfold pagePrep
  refine withBlock_keeps h (fun b t => ?_)
  dsimp only
  split
  · exact h
  · split
    · exact h
    · split
      · refine State.pageFail_keeps ?_
        split
        · exact State.violateBy_keeps h
        · exact h
      · next f _ =>
        split
        · exact State.pageDone_keeps h
        · have hr : Keeps z (s.withReclaim w (fun s =>
              (s.allocOne w.part (pteFrames (leNat t)) (f / 2 ^ 20 :: s.poolStacks w.part (s.part w.part).lastAlloc)).map
                (fun x => (x.1, x.2.1))) (s.dirEntries w.part).length).s := by
            refine State.withReclaim_keeps h (fun t u a ht e => ?_)
            obtain ⟨x, hx, hy⟩ := Option.map_eq_some_iff.1 e
            cases hy
            exact State.allocOne_keeps ht hx
          split
          · split
            · exact hr
            · exact State.pageDone_keeps hr
          · exact withData_keeps hr (fun u _ hu => withWrite_keeps hu (fun v hv =>
              State.pageDone_keeps (State.release1_keeps hv)))

theorem Walk.miss_keeps {z s} {status} (h : Keeps z s) : Keeps z (Walk.miss s status).s := by
  unfold Walk.miss
  repeat' first
    | with_reducible assumption

theorem Walk.halt_keeps {z s} (h : Keeps z s) : Keeps z (Walk.halt s).s := by
  unfold Walk.halt
  repeat' first
    | with_reducible assumption
    | with_reducible refine Walk.miss_keeps ?_

theorem State.takeHit_keeps {z s} {w set x3 e} (h : Keeps z s) : Keeps z (State.takeHit s w set x3 e).s := by
  unfold State.takeHit
  repeat' first
    | with_reducible assumption
    | lift_lets
    | (intro x; subst x)
    | with_reducible refine State.recordPages_keeps ?_
    | with_reducible refine Walk.halt_keeps ?_
    | with_reducible refine State.forkList_keeps ?_ (by assumption)
    | with_reducible refine State.poisonRead_keeps ?_
    | with_reducible refine Walk.miss_keeps ?_
    | split
    | fail_if_no_progress refine Keeps.upd ?_ (Nat.le_refl _) rfl

theorem State.lookup1_keeps {z s} {w k} (h : Keeps z s) : Keeps z (State.lookup1 s w k).s := by
  unfold State.lookup1
  repeat' first
    | with_reducible assumption
    | lift_lets
    | (intro x; subst x)
    | with_reducible refine Walk.miss_keeps ?_
    | with_reducible refine State.findChunk_keeps ?_
    | with_reducible refine Walk.halt_keeps ?_
    | with_reducible refine State.takeHit_keeps ?_
    | split

theorem State.lookupAll_keeps {z s} {w model nl parent x5} (h : Keeps z s) : Keeps z (State.lookupAll s w model nl parent x5).s := by
  induction x5 generalizing s w model nl parent with
  | nil =>
    unfold State.lookupAll
    repeat' first
      | with_reducible assumption
      | with_reducible refine Walk.miss_keeps ?_
  | cons a0 r0 ih =>
    unfold State.lookupAll
    repeat' first
      | with_reducible assumption
      | lift_lets
      | (intro x; subst x)
      | with_reducible refine ih ?_
      | with_reducible refine State.lookup1_keeps ?_
      | split

theorem pageLookup_keeps {z s} {c w o} (h : Keeps z s) : Keeps z (pageLookup s c w o).state := by
  unfold pageLookup
  repeat' first
    | with_reducible assumption
    | dsimp only [Eff.state_done, Eff.state_abort]
    | with_reducible refine withBlock_keeps ?_ (fun _ _ => ?_)
    | with_reducible refine State.lookupAll_keeps ?_
    | with_reducible refine State.countPart_keeps ?_
    | with_reducible refine State.pageDone_keeps ?_
    | split

theorem State.roomInSet_keeps {z s} {w set} (h : Keeps z s) : Keeps z (State.roomInSet s w set).s := by
  unfold State.roomInSet
  repeat' first
    | with_reducible assumption
    | lift_lets
    | (intro x; subst x)
    | with_reducible refine State.replaceable_keeps ?_
    | with_reducible refine State.evict_keeps ?_
    | split

theorem State.enterChunk_keeps {z s} {w set x3 k pages a kib} (h : Keeps z s) : Keeps z (State.enterChunk s w set x3 k pages a kib).1 := by
  unfold State.enterChunk
  repeat' first
    | with_reducible assumption
    | lift_lets
    | (intro x; subst x)
    | with_reducible refine State.forkList_keeps ?_ (by assumption)
    | with_reducible refine State.writeVirt_keeps ?_
    | split
    | fail_if_no_progress refine Keeps.upd ?_ (Nat.le_refl _) rfl

theorem State.placeChunk_keeps {z s} {w set x3 k pages} (h : Keeps z s) : Keeps z (State.placeChunk s w set x3 k pages).1.1 := by
  unfold State.placeChunk
  repeat' first
    | with_reducible assumption
    | lift_lets
    | (intro x; subst x)
    | with_reducible refine State.roomInSet_keeps ?_
    | with_reducible refine State.enterChunk_keeps ?_
    | split

theorem State.insertChunk_keeps {z s} {w k pages} (h : Keeps z s) : Keeps z (State.insertChunk s w k pages).1.1 := by
  unfold State.insertChunk
  repeat' first
    | with_reducible assumption
    | lift_lets
    | (intro x; subst x)
    | with_reducible refine State.findChunk_keeps ?_
    | with_reducible refine State.placeChunk_keeps ?_
    | split

theorem pageInsert_keeps {z s} {c w o} (h : Keeps z s) : Keeps z (pageInsert s c w o).state := by
  unfold pageInsert
  repeat' first
    | with_reducible assumption
    | dsimp only [Eff.state_done, Eff.state_abort]
    | with_reducible refine withBlock_keeps ?_ (fun _ _ => ?_)
    | with_reducible refine State.insertChunk_keeps ?_
    | with_reducible refine State.pageFail_keeps ?_
    | with_reducible refine State.pageDone_keeps ?_
    | split

theorem afterWrites_keeps {z s t} {run : Effect} {c k} (hr : ∀ u, run s c k = some u → Keeps z u.state)
    (e : afterWrites run s c k = some t) : Keeps z t.state := by
  unfold afterWrites at e
  split at e
  · exact hr _ e
  · cases e

theorem runPageAlloc_keeps {z s t} {aA aR aO c i} (h : Keeps z s) (e : runPageAlloc aA aR aO s c i = some t) :
    Keeps z t.state := pageRun_keeps h (fun _ _ _ _ k => pageAlloc_keeps k) e

theorem runPageFree_keeps {z s t} {aA aR aO c i} (h : Keeps z s) (e : runPageFree aA aR aO s c i = some t) :
    Keeps z t.state := afterWrites_keeps (fun _ hu => pageRun_keeps h (fun _ _ _ _ k => pageCount_keeps k) hu) e

theorem runPageFork_keeps {z s t} {aA aR aO c i} (h : Keeps z s) (e : runPageFork aA aR aO s c i = some t) :
    Keeps z t.state := pageRun_keeps h (fun _ _ _ _ k => pageCount_keeps k) e

theorem runPagePrep_keeps {z s t} {aA aR aO c i} (h : Keeps z s) (e : runPagePrep aA aR aO s c i = some t) :
    Keeps z t.state := pageRun_keeps h (fun _ _ _ _ k => pagePrep_keeps k) e

theorem runPageLookup_keeps {z s t} {aA aR aO c i} (h : Keeps z s) (e : runPageLookup aA aR aO s c i = some t) :
    Keeps z t.state := pageRun_keeps h (fun _ _ _ _ k => pageLookup_keeps k) e

theorem runPageInsert_keeps {z s t} {aA aR aO c i} (h : Keeps z s) (e : runPageInsert aA aR aO s c i = some t) :
    Keeps z t.state := afterWrites_keeps (fun _ hu => pageRun_keeps h (fun _ _ _ _ k => pageInsert_keeps k) hu) e

theorem withEntry_keeps {z s} {w c g d i k} (h : Keeps z s) (hk : ∀ b0 b1, Keeps z b0 → Keeps z (k b0 b1).state) : Keeps z (withEntry s w c g d i k).state := by
  unfold withEntry
  repeat' first
    | with_reducible assumption
    | dsimp only [Eff.state_done, Eff.state_abort]
    | with_reducible refine hk _ _ ?_
    | with_reducible refine withSpCtl_keeps ?_ (fun _ => ?_)
    | split

theorem readTen_keeps {z s} {w c k t da} (h : Keeps z s) : Keeps z (readTen s w c k t da).1 := by
  unfold readTen
  repeat' first
    | with_reducible assumption
    | with_reducible refine readErg_keeps ?_
    | with_reducible refine State.readSp_keeps ?_
    | split

theorem writeRows_keeps {z s} {c g d fmt m dim o} (h : Keeps z s) : Keeps z (writeRows s c g d fmt m dim o) := by
  unfold writeRows
  repeat' first
    | with_reducible assumption
    | with_reducible refine Keeps.ite ?_ (fun _ => ?_)
    | with_reducible refine State.writeSp_keeps ?_
    | with_reducible refine State.addFlags_keeps ?_

theorem qkScores_keeps {z s} {c k f q keys} (h : Keeps z s) : Keeps z (qkScores s c k f q keys) := by
  unfold qkScores
  repeat' first
    | with_reducible assumption
    | with_reducible refine State.onX_keeps ?_
    | with_reducible refine State.addFlags_keeps ?_

theorem runAtQk_keeps {z s t} {f x2 x3} (h : Keeps z s) (e : runAtQk f s x2 x3 = some t) : Keeps z t.state := by
  unfold runAtQk at e
  try dsimp only at e
  repeat' split at e
  all_goals try cases e
  repeat' first
    | with_reducible assumption
    | dsimp only [Eff.state_done, Eff.state_abort]
    | with_reducible refine withEntry_keeps ?_ (fun _ _ _ => ?_)
    | with_reducible refine readTen_keeps ?_
    | with_reducible refine qkScores_keeps ?_
    | with_reducible refine State.countWork_keeps ?_
    | with_reducible refine State.actBy_keeps ?_
    | split

theorem runSmInit_keeps {z s t} {f x2 x3} (h : Keeps z s) (e : runSmInit f s x2 x3 = some t) : Keeps z t.state := by
  unfold runSmInit at e
  try dsimp only at e
  repeat' split at e
  all_goals try cases e
  repeat' first
    | with_reducible assumption
    | dsimp only [Eff.state_done, Eff.state_abort]
    | with_reducible refine State.writeSp_keeps ?_

theorem withPositions_keeps {z s} {w c g d t0 n k} (h : Keeps z s) (hk : ∀ b0 b1, Keeps z b0 → Keeps z (k b0 b1).state) : Keeps z (withPositions s w c g d t0 n k).state := by
  unfold withPositions
  repeat' first
    | with_reducible assumption
    | dsimp only [Eff.state_done, Eff.state_abort]
    | with_reducible refine hk _ _ ?_
    | with_reducible refine withSpCtl_keeps ?_ (fun _ => ?_)
    | split

theorem smWrite_keeps {z s} {c f g rs} (h : Keeps z s) : Keeps z (smWrite s c f g rs) := by
  unfold smWrite
  repeat' first
    | with_reducible assumption
    | with_reducible refine State.writeSp_keeps ?_
    | with_reducible refine State.addFlags_keeps ?_

theorem withSmBlock_keeps {z s} {w c g f k} (h : Keeps z s)
    (hk : ∀ b0 b1 b2 b3 b4, Keeps z b0 → Keeps z (k b0 b1 b2 b3 b4).state) : Keeps z (withSmBlock s w c g f k).state := by
  unfold withSmBlock
  dsimp only
  repeat' first
    | with_reducible assumption
    | dsimp only [Eff.state_done, Eff.state_abort]
    | with_reducible refine hk _ _ _ _ _ ?_
    | with_reducible refine withEntry_keeps ?_ (fun _ _ _ => ?_)
    | with_reducible refine withPositions_keeps ?_ (fun _ _ _ => ?_)
    | split

theorem startFault_state {e t} (h : startFault e = some t) : t = e := by
  unfold startFault at h
  split at h
  · exact (Option.some.inj h).symm
  · cases h
theorem runSmUpdate_keeps {z s t} {f x2 x3} (h : Keeps z s) (e : runSmUpdate f s x2 x3 = some t) : Keeps z t.state := by
  unfold runSmUpdate at e
  try dsimp only at e
  split at e
  · rw [startFault_state e]
    exact withSmBlock_keeps h (fun _ _ _ _ _ hb => hb)
  · cases e
    refine withSmBlock_keeps h (fun _ _ _ _ _ hb => ?_)
    repeat' first
      | with_reducible assumption
      | dsimp only [Eff.state_done, Eff.state_abort]
      | with_reducible refine State.readSp_keeps ?_
      | with_reducible refine State.onX_keeps ?_
      | with_reducible refine smWrite_keeps ?_
      | split

theorem finWrite_keeps {z s} {c g aO aX fmt rnd sat lse m dim rs} (h : Keeps z s) : Keeps z (finWrite s c g aO aX fmt rnd sat lse m dim rs) := by
  unfold finWrite
  repeat' first
    | with_reducible assumption
    | with_reducible refine Keeps.ite ?_ (fun _ => ?_)
    | with_reducible refine writeRows_keeps ?_
    | with_reducible refine State.addFlags_keeps ?_
    | with_reducible refine State.writeSp_keeps ?_

theorem runSmFinal_keeps {z s t} {f x2 x3} (h : Keeps z s) (e : runSmFinal f s x2 x3 = some t) : Keeps z t.state := by
  unfold runSmFinal at e
  try dsimp only at e
  repeat' split at e
  all_goals try cases e
  repeat' first
    | with_reducible assumption
    | dsimp only [Eff.state_done, Eff.state_abort]
    | with_reducible refine State.readSp_keeps ?_
    | with_reducible refine State.onX_keeps ?_
    | with_reducible refine State.writeSp_keeps ?_
    | with_reducible refine finWrite_keeps ?_

theorem runSmMerge_keeps {z s t} {f x2 x3} (h : Keeps z s) (e : runSmMerge f s x2 x3 = some t) : Keeps z t.state := by
  unfold runSmMerge at e
  try dsimp only at e
  repeat' split at e
  all_goals try cases e
  repeat' first
    | with_reducible assumption
    | dsimp only [Eff.state_done, Eff.state_abort]
    | with_reducible refine State.readSp_keeps ?_
    | with_reducible refine State.writeSp_keeps ?_
    | with_reducible refine State.addFlags_keeps ?_

theorem pvAll_keeps {z s} {c k f sts p vals nk} (h : Keeps z s) : Keeps z (pvAll s c k f sts p vals nk) := by
  unfold pvAll
  repeat' first
    | with_reducible assumption
    | with_reducible refine State.onX_keeps ?_
    | with_reducible refine State.addFlags_keeps ?_

theorem runAtPv_keeps {z s t} {f x2 x3} (h : Keeps z s) (e : runAtPv f s x2 x3 = some t) : Keeps z t.state := by
  unfold runAtPv at e
  try dsimp only at e
  repeat' split at e
  all_goals try cases e
  repeat' first
    | with_reducible assumption
    | dsimp only [Eff.state_done, Eff.state_abort]
    | with_reducible refine withEntry_keeps ?_ (fun _ _ _ => ?_)
    | with_reducible refine readTen_keeps ?_
    | with_reducible refine readOp_keeps ?_
    | with_reducible refine State.readSp_keeps ?_
    | with_reducible refine pvAll_keeps ?_
    | with_reducible refine State.countWork_keeps ?_
    | with_reducible refine State.actBy_keeps ?_
    | split

theorem readSection_keeps {z s} {w ctx st wl fmt dim n va tok da} (h : Keeps z s) : Keeps z (readSection s w ctx st wl fmt dim n va tok da).1.s := by
  unfold readSection
  repeat' first
    | with_reducible assumption
    | with_reducible refine State.readData_keeps ?_
    | with_reducible refine wellSegments_keeps ?_
    | split

theorem decPage_keeps {z f w ctx c g qs pos p e d} (h : Keeps z d.s) :
    Keeps z (decPage f w ctx c g qs pos p e d).s := by
  unfold decPage
  dsimp only
  have hv := readSection_keeps (w := w) (ctx := ctx) (st := d.s.wellAt w.part (pteAddr e) (4 * regionOf c) / 16)
    (wl := d.s.wellAt w.part (pteAddr e) (4 * regionOf c)) (fmt := pteK e) (dim := f.dim)
    (n := min 64 (f.seqLen g - 64 * p)) (va := pteAddr e + f.head g * sectionBytes (pteK e) f.dim)
    (tok := false) (da := f.da) h
  split
  · exact State.poisonRead_keeps (readSection_keeps hv)
  · split
    · exact readSection_keeps hv
    · exact readSection_keeps hv

theorem decPages_keeps {z f w ctx c g qs pos l d} (h : Keeps z d.s) :
    Keeps z (decPages f w ctx c g qs pos l d).s := by
  induction l generalizing d with
  | nil => exact h
  | cons a r ih =>
    unfold decPages
    split
    · exact h
    · split
      · exact ih h
      · split
        · exact h
        · exact ih (decPage_keeps h)

theorem readQuery_keeps {z s} {w ctx c k f st} (h : Keeps z s) : Keeps z (readQuery s w ctx c k f st).s := by
  unfold readQuery
  repeat' first
    | with_reducible assumption
    | with_reducible refine State.readSp_keeps ?_
    | with_reducible refine wellSegments_keeps ?_
    | with_reducible refine readTen_keeps ?_
    | split

theorem decWrite_keeps {z s} {c g f ps} (h : Keeps z s) : Keeps z (decWrite s c g f ps) := by
  unfold decWrite
  repeat' first
    | with_reducible assumption
    | with_reducible refine Keeps.ite ?_ (fun _ => ?_)
    | with_reducible refine fillFresh_keeps ?_
    | with_reducible refine State.writeSp_keeps ?_
    | with_reducible refine finWrite_keeps ?_

theorem State.askAll_keeps {z s} {c id p wells pins x6} (h : Keeps z s) : Keeps z (State.askAll s c id p wells pins x6) := by
  induction x6 generalizing s c id p wells pins with
  | nil =>
    unfold State.askAll
    repeat' first
      | with_reducible assumption
  | cons a0 r0 ih =>
    unfold State.askAll
    repeat' first
      | with_reducible assumption
      | with_reducible refine ih ?_
      | with_reducible refine State.askWells_keeps ?_

theorem decBody_keeps {z s} {w ctx c k f list pos} (h : Keeps z s) : Keeps z (decBody s w ctx c k f list pos).state := by
  unfold decBody
  repeat' first
    | with_reducible assumption
    | dsimp only [Eff.state_done, Eff.state_abort]
    | with_reducible refine State.onX_keeps ?_
    | with_reducible refine readQuery_keeps ?_
    | with_reducible refine decPages_keeps ?_
    | with_reducible refine State.addFlags_keeps ?_
    | with_reducible refine decWrite_keeps ?_
    | with_reducible refine State.countWork_keeps ?_
    | with_reducible refine State.askAll_keeps ?_
    | split

theorem runAtDec_keeps {z s t} {f x2 x3} (h : Keeps z s) (e : runAtDec f s x2 x3 = some t) : Keeps z t.state := by
  unfold runAtDec at e
  try dsimp only at e
  repeat' split at e
  all_goals try cases e
  repeat' first
    | with_reducible assumption
    | dsimp only [Eff.state_done, Eff.state_abort]
    | with_reducible refine withCtl_keeps ?_ (fun _ _ _ => ?_)
    | with_reducible refine withPositions_keeps ?_ (fun _ _ _ => ?_)
    | with_reducible refine decBody_keeps ?_

end Sys2Proof.Machine
end

