-- ==== Sys2Proof/Laws/KeepsWork.lean ====
section
/-! SUPPORT. `Keeps` for restarts, the dispatcher, partitions, movement, reductions, the collective and debug classes, and the engines. -/

namespace Sys2Proof.Machine

theorem State.rerankCores_keeps {z s} {n total x3} (h : Keeps z s) : Keeps z (State.rerankCores s n total x3) := by
  induction x3 generalizing s n total with
  | nil =>
    unfold State.rerankCores
    repeat' first
      | with_reducible assumption
  | cons a0 r0 ih =>
    unfold State.rerankCores
    repeat' first
      | with_reducible assumption
      | with_reducible refine ih ?_
      | with_reducible refine State.onX_keeps ?_

theorem State.restartCores_keeps {z s} {x1} (h : Keeps z s) : Keeps z (State.restartCores s x1) := by
  induction x1 generalizing s with
  | nil =>
    unfold State.restartCores
    repeat' first
      | with_reducible assumption
  | cons a0 r0 ih =>
    unfold State.restartCores
    repeat' first
      | with_reducible assumption
      | with_reducible refine Keeps.ite ?_ (fun _ => ?_)
      | with_reducible refine ih ?_
      | with_reducible refine State.onX_keeps ?_
      | with_reducible refine State.onCore_keeps ?_

theorem State.restartGroup_keeps {z s} {n} (h : Keeps z s) : Keeps z (State.restartGroup s n) := by
  unfold State.restartGroup
  repeat' first
    | with_reducible assumption
    | with_reducible refine Keeps.ite ?_ (fun _ => ?_)
    | with_reducible refine State.onCtx_keeps ?_
    | with_reducible refine State.restartCores_keeps ?_

theorem State.wakeRegions_keeps {z s} {x1} (h : Keeps z s) : Keeps z (State.wakeRegions s x1) := by
  induction x1 generalizing s with
  | nil =>
    unfold State.wakeRegions
    repeat' first
      | with_reducible assumption
  | cons a0 r0 ih =>
    unfold State.wakeRegions
    repeat' first
      | with_reducible assumption
      | with_reducible refine ih ?_
      | with_reducible refine State.onRegion_keeps ?_

theorem State.wakeFor_keeps {z s} {n} (h : Keeps z s) : Keeps z (State.wakeFor s n) := by
  unfold State.wakeFor
  repeat' first
    | with_reducible assumption
    | with_reducible refine State.wakeRegions_keeps ?_
    | fail_if_no_progress refine Keeps.upd ?_ (Nat.le_refl _) rfl

theorem State.doorbell_keeps {z s} {fn n index k} (h : Keeps z s) : Keeps z (State.doorbell s fn n index k) := by
  unfold State.doorbell
  repeat' first
    | with_reducible assumption
    | with_reducible refine Keeps.ite ?_ (fun _ => ?_)
    | with_reducible refine State.violate_keeps ?_
    | with_reducible refine State.writeDropped_keeps ?_
    | with_reducible refine State.onCtx_keeps ?_

theorem submissionTail_keeps {z s} {fn n index} (h : Keeps z s) : Keeps z (submissionTail s fn n index) := by
  unfold submissionTail
  repeat' first
    | with_reducible assumption
    | with_reducible refine State.doorbell_keeps ?_

theorem completionHead_keeps {z s} {fn n index} (h : Keeps z s) : Keeps z (completionHead s fn n index) := by
  unfold completionHead
  repeat' first
    | with_reducible assumption
    | with_reducible refine State.doorbell_keeps ?_

theorem State.turnOver_keeps {z s} {n} (h : Keeps z s) : Keeps z (State.turnOver s n) := by
  unfold State.turnOver
  repeat' first
    | with_reducible assumption
    | fail_if_no_progress refine Keeps.upd ?_ (Nat.le_refl _) rfl

theorem State.enqueue_keeps {z s} {n r} (h : Keeps z s) : Keeps z (State.enqueue s n r) := by
  unfold State.enqueue
  repeat' first
    | with_reducible assumption
    | with_reducible refine Keeps.ite ?_ (fun _ => ?_)
    | with_reducible refine State.wakeFor_keeps ?_
    | with_reducible refine State.startRecs_keeps ?_
    | fail_if_no_progress refine Keeps.upd ?_ (Nat.le_refl _) rfl

theorem acceptRec_keeps {z s} {n op r k} (h : Keeps z s) (hk : ∀ b0, Keeps z b0 → Keeps z (k b0)) : Keeps z (acceptRec s n op r k) := by
  unfold acceptRec
  repeat' first
    | with_reducible assumption
    | with_reducible refine hk _ ?_
    | with_reducible refine State.onCtx_keeps ?_
    | with_reducible refine State.turnOver_keeps ?_
    | with_reducible refine State.post_keeps ?_
    | split

theorem State.postEnded_keeps {z s} {n a} (h : Keeps z s) : Keeps z (State.postEnded s n a) := by
  unfold State.postEnded
  repeat' first
    | with_reducible assumption
    | with_reducible refine State.postAcc_keeps ?_

theorem State.postEndeds_keeps {z s} {n x2} (h : Keeps z s) : Keeps z (State.postEndeds s n x2) := by
  induction x2 generalizing s n with
  | nil =>
    unfold State.postEndeds
    repeat' first
      | with_reducible assumption
  | cons a0 r0 ih =>
    unfold State.postEndeds
    repeat' first
      | with_reducible assumption
      | with_reducible refine ih ?_
      | with_reducible refine State.postEnded_keeps ?_

theorem State.postReset_keeps {z s} {n} (h : Keeps z s) : Keeps z (State.postReset s n) := by
  unfold State.postReset
  repeat' first
    | with_reducible assumption
    | with_reducible refine Keeps.ite ?_ (fun _ => ?_)
    | with_reducible refine State.postEndeds_keeps ?_
    | with_reducible refine State.postRun_keeps ?_
    | with_reducible refine State.status_keeps ?_

theorem State.detachUpds_keeps {z s} {n} (h : Keeps z s) : Keeps z (State.detachUpds s n) := by
  unfold State.detachUpds
  repeat' first
    | with_reducible assumption
    | fail_if_no_progress refine Keeps.upd ?_ (Nat.le_refl _) rfl

theorem State.beginReset_keeps {z s} {n} (h : Keeps z s) : Keeps z (State.beginReset s n) := by
  unfold State.beginReset
  repeat' first
    | with_reducible assumption
    | with_reducible refine Keeps.ite ?_ (fun _ => ?_)
    | with_reducible refine State.onCtx_keeps ?_
    | with_reducible refine State.postReset_keeps ?_
    | with_reducible refine State.detachUpds_keeps ?_
    | with_reducible refine State.removeCtx_keeps ?_
    | with_reducible refine State.resetNotice_keeps ?_
    | with_reducible refine State.noteDue_keeps ?_

theorem State.beginResets_keeps {z s} {x1} (h : Keeps z s) : Keeps z (State.beginResets s x1) := by
  induction x1 generalizing s with
  | nil =>
    unfold State.beginResets
    repeat' first
      | with_reducible assumption
  | cons a0 r0 ih =>
    unfold State.beginResets
    repeat' first
      | with_reducible assumption
      | with_reducible refine ih ?_
      | with_reducible refine State.beginReset_keeps ?_

theorem State.resetRecord_keeps {z s} {n r} (h : Keeps z s) : Keeps z (State.resetRecord s n r) := by
  unfold State.resetRecord
  repeat' first
    | with_reducible assumption
    | with_reducible refine State.wakeFor_keeps ?_
    | with_reducible refine State.beginReset_keeps ?_
    | fail_if_no_progress refine Keeps.upd ?_ (Nat.le_refl _) rfl

theorem State.postAfterReset_keeps {z s} {n x2} (h : Keeps z s) : Keeps z (State.postAfterReset s n x2) := by
  induction x2 generalizing s n with
  | nil =>
    unfold State.postAfterReset
    repeat' first
      | with_reducible assumption
  | cons a0 r0 ih =>
    unfold State.postAfterReset
    repeat' first
      | with_reducible assumption
      | with_reducible refine Keeps.ite ?_ (fun _ => ?_)
      | with_reducible refine ih ?_
      | with_reducible refine State.post_keeps ?_
      | with_reducible refine State.postEnded_keeps ?_

theorem State.endReset_keeps {z s} {n} (h : Keeps z s) : Keeps z (State.endReset s n) := by
  unfold State.endReset
  repeat' first
    | with_reducible assumption
    | with_reducible refine Keeps.ite ?_ (fun _ => ?_)
    | with_reducible refine State.onCtx_keeps ?_
    | with_reducible refine State.epochAfter_keeps ?_
    | with_reducible refine State.startRecs_keeps ?_
    | with_reducible refine State.postAfterReset_keeps ?_

theorem State.stopWaiting_keeps {z s} {n x2} (h : Keeps z s) : Keeps z (State.stopWaiting s n x2) := by
  induction x2 generalizing s n with
  | nil =>
    unfold State.stopWaiting
    repeat' first
      | with_reducible assumption
  | cons a0 r0 ih =>
    unfold State.stopWaiting
    repeat' first
      | with_reducible assumption
      | with_reducible refine ih ?_
      | with_reducible refine State.pausePoint_keeps ?_
      | split

theorem State.preempt_keeps {z s} {n} (h : Keeps z s) : Keeps z (State.preempt s n) := by
  unfold State.preempt
  repeat' first
    | with_reducible assumption
    | with_reducible refine State.onCtx_keeps ?_
    | with_reducible refine State.maybeSave_keeps ?_
    | with_reducible refine State.stopWaiting_keeps ?_

theorem State.beginRestore_keeps {z s} {n} (h : Keeps z s) : Keeps z (State.beginRestore s n) := by
  unfold State.beginRestore
  repeat' first
    | with_reducible assumption
    | with_reducible refine Keeps.ite ?_ (fun _ => ?_)
    | with_reducible refine State.onCores_keeps ?_
    | with_reducible refine State.onCtx_keeps ?_
    | with_reducible refine State.wakeStacks_keeps ?_

theorem State.beginRestores_keeps {z s} {x1} (h : Keeps z s) : Keeps z (State.beginRestores s x1) := by
  induction x1 generalizing s with
  | nil =>
    unfold State.beginRestores
    repeat' first
      | with_reducible assumption
  | cons a0 r0 ih =>
    unfold State.beginRestores
    repeat' first
      | with_reducible assumption
      | with_reducible refine ih ?_
      | with_reducible refine State.beginRestore_keeps ?_

theorem State.selectEach_keeps {z s} {sel x2} (h : Keeps z s) : Keeps z (State.selectEach s sel x2) := by
  induction x2 generalizing s sel with
  | nil =>
    unfold State.selectEach
    repeat' first
      | with_reducible assumption
  | cons a0 r0 ih =>
    unfold State.selectEach
    repeat' first
      | with_reducible assumption
      | with_reducible refine Keeps.ite ?_ (fun _ => ?_)
      | with_reducible refine ih ?_
      | with_reducible refine State.onCtx_keeps ?_
      | with_reducible refine State.wakeStacks_keeps ?_
      | with_reducible refine State.preempt_keeps ?_

theorem State.select_keeps {z s} {p} (h : Keeps z s) : Keeps z (State.select s p) := by
  unfold State.select
  repeat' first
    | with_reducible assumption
    | with_reducible refine State.beginRestores_keeps ?_
    | with_reducible refine State.selectEach_keeps ?_

theorem State.readHeaders_keeps {z s} {n base x3} (h : Keeps z s) : Keeps z (State.readHeaders s n base x3).s := by
  induction x3 generalizing s n base with
  | nil =>
    unfold State.readHeaders
    repeat' first
      | with_reducible assumption
  | cons a0 r0 ih =>
    unfold State.readHeaders
    repeat' first
      | with_reducible assumption
      | with_reducible refine ih ?_
      | with_reducible refine State.onCore_keeps ?_
      | with_reducible refine State.fillLine_keeps ?_

theorem State.startCores_keeps {z s} {n r entry total x5} (h : Keeps z s) : Keeps z (State.startCores s n r entry total x5) := by
  induction x5 generalizing s n r entry total with
  | nil =>
    unfold State.startCores
    repeat' first
      | with_reducible assumption
  | cons a0 r0 ih =>
    unfold State.startCores
    repeat' first
      | with_reducible assumption
      | with_reducible refine ih ?_
      | with_reducible refine State.onCore_keeps ?_

theorem State.failRun_keeps {z s} {n code} (h : Keeps z s) : Keeps z (State.failRun s n code) := by
  unfold State.failRun
  repeat' first
    | with_reducible assumption
    | with_reducible refine State.nextRec_keeps ?_
    | with_reducible refine State.postRun_keeps ?_
    | with_reducible refine State.onCtx_keeps ?_
    | with_reducible refine State.status_keeps ?_

theorem State.startRun_keeps {z s} {n} (h : Keeps z s) : Keeps z (State.startRun s n) := by
  unfold State.startRun
  repeat' first
    | with_reducible assumption
    | lift_lets
    | (intro x; subst x)
    | with_reducible refine State.readHeaders_keeps ?_
    | with_reducible refine State.failRun_keeps ?_
    | with_reducible refine State.poisonRead_keeps ?_
    | with_reducible refine State.onCtx_keeps ?_
    | with_reducible refine State.wakeStacks_keeps ?_
    | with_reducible refine State.startCores_keeps ?_
    | split

theorem State.endSave_keeps {z s} {n} (h : Keeps z s) : Keeps z (State.endSave s n) := by
  unfold State.endSave
  repeat' first
    | with_reducible assumption
    | with_reducible refine Keeps.ite ?_ (fun _ => ?_)
    | with_reducible refine State.count_keeps ?_
    | with_reducible refine State.onCores_keeps ?_
    | with_reducible refine State.noteLeaving_keeps ?_
    | with_reducible refine State.onCtx_keeps ?_
    | with_reducible refine State.beginRestores_keeps ?_

theorem State.restoreCores_keeps {z s} {n lanes x3} (h : Keeps z s) : Keeps z (State.restoreCores s n lanes x3) := by
  induction x3 generalizing s n lanes with
  | nil =>
    unfold State.restoreCores
    repeat' first
      | with_reducible assumption
  | cons a0 r0 ih =>
    unfold State.restoreCores
    repeat' first
      | with_reducible assumption
      | with_reducible refine ih ?_
      | with_reducible refine State.onCore_keeps ?_
      | with_reducible refine State.coreEvent_keeps ?_
      | split

theorem State.endRestore_keeps {z s} {n} (h : Keeps z s) : Keeps z (State.endRestore s n) := by
  unfold State.endRestore
  repeat' first
    | with_reducible assumption
    | with_reducible refine Keeps.ite ?_ (fun _ => ?_)
    | with_reducible refine State.onCtx_keeps ?_
    | with_reducible refine State.restoreCores_keeps ?_
    | with_reducible refine State.maybeFinish_keeps ?_

theorem State.waitsDue_keeps {z s} {n} (h : Keeps z s) : Keeps z (State.waitsDue s n) := by
  unfold State.waitsDue
  repeat' first
    | with_reducible assumption
    | with_reducible refine Keeps.ite ?_ (fun _ => ?_)
    | with_reducible refine State.status_keeps ?_

theorem State.deadlineExpiry_keeps {z s} {n} (h : Keeps z s) : Keeps z (State.deadlineExpiry s n) := by
  unfold State.deadlineExpiry
  repeat' first
    | with_reducible assumption
    | with_reducible refine Keeps.ite ?_ (fun _ => ?_)
    | with_reducible refine State.missAccs_keeps ?_
    | with_reducible refine State.abortRun_keeps ?_
    | with_reducible refine State.waitsDue_keeps ?_
    | with_reducible refine State.restartGroup_keeps ?_
    | with_reducible refine State.noteDue_keeps ?_

theorem State.lateAll_keeps {z s} {n x2} (h : Keeps z s) : Keeps z (State.lateAll s n x2) := by
  induction x2 generalizing s n with
  | nil =>
    unfold State.lateAll
    repeat' first
      | with_reducible assumption
  | cons a0 r0 ih =>
    unfold State.lateAll
    repeat' first
      | with_reducible assumption
      | with_reducible refine ih ?_
      | with_reducible refine State.count_keeps ?_
      | with_reducible refine State.onRun_keeps ?_

theorem State.stage_keeps {z s} {x1} (h : Keeps z s) : Keeps z (State.stage s x1) := by
  unfold State.stage
  repeat' first
    | with_reducible assumption
    | with_reducible refine State.setPf_keeps ?_

theorem hostCommand_keeps {z s} {x1 checks act} (h : Keeps z s) (hact : ∀ b0, Keeps z b0 → Keeps z (act b0)) : Keeps z (hostCommand s x1 checks act) := by
  unfold hostCommand
  repeat' first
    | with_reducible assumption
    | lift_lets
    | (intro x; subst x)
    | with_reducible refine hact _ ?_
    | with_reducible refine State.writeDropped_keeps ?_
    | split
    | fail_if_no_progress refine Keeps.upd ?_ (Nat.le_refl _) rfl

theorem State.clearXlat_keeps {z s} {p} (h : Keeps z s) : Keeps z (State.clearXlat s p) := by
  unfold State.clearXlat
  repeat' first
    | with_reducible assumption
    | with_reducible refine Keeps.ite ?_ (fun _ => ?_)
    | with_reducible refine State.writePhys_keeps ?_
    | with_reducible refine State.touchSup_keeps ?_

theorem State.create_keeps {z s} {p} (h : Keeps z s) : Keeps z (State.create s p) := by
  unfold State.create
  repeat' first
    | with_reducible assumption
    | with_reducible refine State.setPf_keeps ?_
    | with_reducible refine State.clearXlat_keeps ?_
    | with_reducible refine State.drawn_keeps ?_
    | with_reducible refine State.setPart_keeps ?_

theorem partCreate_keeps {z s} {x1} (h : Keeps z s) : Keeps z (partCreate s x1) := by
  unfold partCreate
  repeat' first
    | with_reducible assumption
    | with_reducible refine hostCommand_keeps ?_ (fun _ _ => ?_)
    | with_reducible refine State.create_keeps ?_

theorem State.endGrant_keeps {z s} {p gone x3} (h : Keeps z s) : Keeps z (State.endGrant s p gone x3) := by
  induction x3 generalizing s p with
  | nil =>
    unfold State.endGrant
    repeat' first
      | with_reducible assumption
  | cons a0 r0 ih =>
    unfold State.endGrant
    repeat' first
      | with_reducible assumption
      | with_reducible refine ih ?_
      | with_reducible refine State.endHold_keeps ?_
      | split

theorem State.zeroSigs_keeps {z s} {r x2} (h : Keeps z s) : Keeps z (State.zeroSigs s r x2) := by
  induction x2 generalizing s r with
  | nil =>
    unfold State.zeroSigs
    repeat' first
      | with_reducible assumption
  | cons a0 r0 ih =>
    unfold State.zeroSigs
    repeat' first
      | with_reducible assumption
      | with_reducible refine ih ?_
      | with_reducible refine State.sigWrite_keeps ?_

theorem State.zeroRegion_keeps {z s} {r old new} (h : Keeps z s) : Keeps z (State.zeroRegion s r old new) := by
  unfold State.zeroRegion
  repeat' first
    | with_reducible assumption
    | with_reducible refine State.zeroSigs_keeps ?_

theorem State.setGrants_keeps {z s} {p v} (h : Keeps z s) : Keeps z (State.setGrants s p v) := by
  unfold State.setGrants
  repeat' first
    | with_reducible assumption
    | with_reducible refine State.setPf_keeps ?_
    | with_reducible refine State.endGrant_keeps ?_
    | with_reducible refine State.zeroRegion_keeps ?_

theorem State.disableQueues_keeps {z s} {r x2} (h : Keeps z s) : Keeps z (State.disableQueues s r x2) := by
  induction x2 generalizing s r with
  | nil =>
    unfold State.disableQueues
    repeat' first
      | with_reducible assumption
  | cons a0 r0 ih =>
    unfold State.disableQueues
    repeat' first
      | with_reducible assumption
      | with_reducible refine ih ?_
      | with_reducible refine queueDisable_keeps ?_

theorem State.disableAll_keeps {z s} {p x2} (h : Keeps z s) : Keeps z (State.disableAll s p x2) := by
  induction x2 generalizing s p with
  | nil =>
    unfold State.disableAll
    repeat' first
      | with_reducible assumption
  | cons a0 r0 ih =>
    unfold State.disableAll
    repeat' first
      | with_reducible assumption
      | with_reducible refine ih ?_
      | with_reducible refine State.disableQueues_keeps ?_

theorem State.scrubCores_keeps {z s} {ls} (h : Keeps z s) : Keeps z (State.scrubCores s ls) := by
  unfold State.scrubCores
  repeat' first
    | with_reducible assumption
    | with_reducible refine State.onCores_keeps ?_

theorem State.beginStep_keeps {z s} {p k} (h : Keeps z s) : Keeps z (State.beginStep s p k) := by
  unfold State.beginStep
  repeat' first
    | with_reducible assumption
    | with_reducible refine State.onPart_keeps ?_
    | with_reducible refine State.beginResets_keeps ?_
    | with_reducible refine State.cacheClear_keeps ?_
    | with_reducible refine State.setGrants_keeps ?_
    | with_reducible refine State.disableAll_keeps ?_
    | with_reducible refine State.setPf_keeps ?_
    | with_reducible refine State.scrubCores_keeps ?_
    | with_reducible refine State.clearXlat_keeps ?_
    | split

theorem partRelease_keeps {z s} {x1} (h : Keeps z s) : Keeps z (partRelease s x1) := by
  unfold partRelease
  repeat' first
    | with_reducible assumption
    | with_reducible refine hostCommand_keeps ?_ (fun _ _ => ?_)
    | with_reducible refine State.beginStep_keeps ?_
    | with_reducible refine State.onPart_keeps ?_

theorem State.zeroPages_keeps {z s} {ps} (h : Keeps z s) : Keeps z (State.zeroPages s ps) := by
  refine h.updMem (fun i => ?_) (fun i => Tab.rising_filter i _)
  rw [Ram.wf_iff] at i
  refine (Ram.wf_iff _).2 ⟨Tab.rising_filter i.1 _, ?_, Tab.rising_filter i.2.2 _⟩
  have j := List.all_eq_true.1 i.2.1
  exact List.all_eq_true.2 (fun q hq => j q (List.mem_of_mem_filter hq))

theorem xlatUpdate_keeps {z s} {x1} (h : Keeps z s) : Keeps z (xlatUpdate s x1) := by
  unfold xlatUpdate
  repeat' first
    | with_reducible assumption
    | with_reducible refine hostCommand_keeps ?_ (fun _ _ => ?_)
    | fail_if_no_progress refine Keeps.upd ?_ (Nat.le_refl _) rfl

theorem cacheClear_keeps {z s} {x1} (h : Keeps z s) : Keeps z (cacheClear s x1) := by
  unfold cacheClear
  repeat' first
    | with_reducible assumption
    | with_reducible refine hostCommand_keeps ?_ (fun _ _ => ?_)
    | with_reducible refine State.cacheClear_keeps ?_

theorem State.own_keeps {z s} {p ls} (h : Keeps z s) : Keeps z (State.own s p ls) := by
  unfold State.own
  repeat' first
    | with_reducible assumption
    | fail_if_no_progress refine Keeps.upd ?_ (Nat.le_refl _) rfl

theorem coreSetAssign_keeps {z s} {x1} (h : Keeps z s) : Keeps z (coreSetAssign s x1) := by
  unfold coreSetAssign
  repeat' first
    | with_reducible assumption
    | with_reducible refine hostCommand_keeps ?_ (fun _ _ => ?_)
    | with_reducible refine State.scrubCores_keeps ?_
    | with_reducible refine State.own_keeps ?_

theorem State.disown_keeps {z s} {x1} (h : Keeps z s) : Keeps z (State.disown s x1) := by
  induction x1 generalizing s with
  | nil =>
    unfold State.disown
    repeat' first
      | with_reducible assumption
  | cons a0 r0 ih =>
    unfold State.disown
    repeat' first
      | with_reducible assumption
      | with_reducible refine ih ?_
      | fail_if_no_progress refine Keeps.upd ?_ (Nat.le_refl _) rfl

theorem coreSetRemove_keeps {z s} {x1} (h : Keeps z s) : Keeps z (coreSetRemove s x1) := by
  unfold coreSetRemove
  repeat' first
    | with_reducible assumption
    | with_reducible refine hostCommand_keeps ?_ (fun _ _ => ?_)
    | with_reducible refine State.disown_keeps ?_

theorem ctxAssign_keeps {z s} {x1} (h : Keeps z s) : Keeps z (ctxAssign s x1) := by
  unfold ctxAssign
  repeat' first
    | with_reducible assumption
    | with_reducible refine hostCommand_keeps ?_ (fun _ _ => ?_)
    | with_reducible refine State.setCtx_keeps ?_
    | with_reducible refine State.touchSup_keeps ?_

theorem ctxFree_keeps {z s} {x1} (h : Keeps z s) : Keeps z (ctxFree s x1) := by
  unfold ctxFree
  repeat' first
    | with_reducible assumption
    | with_reducible refine hostCommand_keeps ?_ (fun _ _ => ?_)
    | with_reducible refine State.setCtx_keeps ?_
    | with_reducible refine State.detachUpds_keeps ?_

theorem State.clearStaging_keeps {z s} (h : Keeps z s) : Keeps z (State.clearStaging s) := by
  unfold State.clearStaging
  repeat' first
    | with_reducible assumption
    | fail_if_no_progress refine Keeps.upd ?_ (Nat.le_refl _) rfl

theorem State.installKeys_keeps {z s} {p} (h : Keeps z s) : Keeps z (State.installKeys s p) := by
  unfold State.installKeys
  repeat' first
    | with_reducible assumption
    | with_reducible refine Keeps.ite ?_ (fun _ => ?_)
    | with_reducible refine State.onPart_keeps ?_
    | with_reducible refine State.dropDirectory_keeps ?_
    | with_reducible refine State.clearStaging_keeps ?_

theorem keyApply_keeps {z s} {x1} (h : Keeps z s) : Keeps z (keyApply s x1) := by
  unfold keyApply
  repeat' first
    | with_reducible assumption
    | with_reducible refine hostCommand_keeps ?_ (fun _ _ => ?_)
    | with_reducible refine State.installKeys_keeps ?_

theorem hcmdWrite_keeps {z s} {v} (h : Keeps z s) : Keeps z (hcmdWrite s v) := by
  unfold hcmdWrite
  repeat' first
    | with_reducible assumption
    | lift_lets
    | (intro x; subst x)
    | with_reducible refine partCreate_keeps ?_
    | with_reducible refine partRelease_keeps ?_
    | with_reducible refine xlatUpdate_keeps ?_
    | with_reducible refine cacheClear_keeps ?_
    | with_reducible refine coreSetAssign_keeps ?_
    | with_reducible refine coreSetRemove_keeps ?_
    | with_reducible refine ctxAssign_keeps ?_
    | with_reducible refine ctxFree_keeps ?_
    | with_reducible refine keyApply_keeps ?_
    | with_reducible refine hostCommand_keeps ?_ (fun _ _ => ?_)
    | split
    | fail_if_no_progress refine Keeps.upd ?_ (Nat.le_refl _) rfl

theorem State.clearCl_keeps {z s} {p} (h : Keeps z s) : Keeps z (State.clearCl s p) := by
  unfold State.clearCl
  repeat' first
    | with_reducible assumption
    | fail_if_no_progress refine Keeps.upd ?_ (Nat.le_refl _) rfl

theorem State.dropJob_keeps {z s} {p} (h : Keeps z s) : Keeps z (State.dropJob s p) := by
  unfold State.dropJob
  repeat' first
    | with_reducible assumption
    | fail_if_no_progress refine Keeps.upd ?_ (Nat.le_refl _) rfl

theorem State.setValid_keeps {z s} {p v} (h : Keeps z s) : Keeps z (State.setValid s p v) := by
  unfold State.setValid
  repeat' first
    | with_reducible assumption
    | with_reducible refine State.setPf_keeps ?_

theorem State.applyJob_keeps {z s} {p x2} (h : Keeps z s) : Keeps z (State.applyJob s p x2) := by
  unfold State.applyJob
  repeat' first
    | with_reducible assumption
    | with_reducible refine State.writeDropped_keeps ?_
    | with_reducible refine State.setJob_keeps ?_
    | with_reducible refine State.setValid_keeps ?_
    | with_reducible refine State.clearCl_keeps ?_
    | with_reducible refine State.dropJob_keeps ?_
    | split

theorem State.touchJob_keeps {z s} {p} (h : Keeps z s) : Keeps z (State.touchJob s p) := by
  unfold State.touchJob
  repeat' first
    | with_reducible assumption
    | with_reducible refine Keeps.ite ?_ (fun _ => ?_)
    | with_reducible refine State.touchSup_keeps ?_

theorem jobApply_keeps {z s} {p} (h : Keeps z s) : Keeps z (jobApply s p) := by
  unfold jobApply
  repeat' first
    | with_reducible assumption
    | with_reducible refine State.applyJob_keeps ?_
    | with_reducible refine State.touchJob_keeps ?_

theorem jobUnbind_keeps {z s} {p} (h : Keeps z s) : Keeps z (jobUnbind s p) := by
  unfold jobUnbind
  repeat' first
    | with_reducible assumption
    | with_reducible refine State.setValid_keeps ?_
    | with_reducible refine State.dropJob_keeps ?_

theorem readSide_keeps {z s} {w t x3 x4 x5} (h : Keeps z s) (hx5 : ∀ b0 b1, Keeps z b0 → Keeps z (x5 b0 b1).state) : Keeps z (readSide s w t x3 x4 x5).state := by
  induction x3 generalizing s w t x4 with
  | nil =>
    unfold readSide
    repeat' first
      | with_reducible assumption
      | with_reducible refine hx5 _ _ ?_
  | cons a0 r0 ih =>
    unfold readSide
    repeat' first
      | with_reducible assumption
      | with_reducible refine ih ?_
      | with_reducible refine withData_keeps ?_ (fun _ _ _ => ?_)

theorem writeSide_keeps {z s} {w t x3 x4 x5} (h : Keeps z s) (hx5 : ∀ b0, Keeps z b0 → Keeps z (x5 b0).state) : Keeps z (writeSide s w t x3 x4 x5).state := by
  induction x4 generalizing s w t x3 with
  | nil =>
    unfold writeSide
    repeat' first
      | with_reducible assumption
      | with_reducible refine hx5 _ ?_
  | cons a0 r0 ih =>
    unfold writeSide
    repeat' first
      | with_reducible assumption
      | with_reducible refine ih ?_
      | with_reducible refine withWrite_keeps ?_ (fun _ _ => ?_)

theorem State.moved_keeps {z s} {w n} (h : Keeps z s) : Keeps z (State.moved s w n) := by
  unfold State.moved
  repeat' first
    | with_reducible assumption
    | with_reducible refine State.actBy_keeps ?_
    | with_reducible refine State.countWork_keeps ?_

theorem runDmCopy_keeps {z s t} {f x2 x3} (h : Keeps z s) (e : runDmCopy f s x2 x3 = some t) : Keeps z t.state := by
  unfold runDmCopy at e
  try dsimp only at e
  repeat' split at e
  all_goals try cases e
  repeat' first
    | with_reducible assumption
    | dsimp only [Eff.state_done, Eff.state_abort]
    | with_reducible refine readSide_keeps ?_ (fun _ _ _ => ?_)
    | with_reducible refine writeSide_keeps ?_ (fun _ _ => ?_)
    | with_reducible refine State.moved_keeps ?_

theorem runDmXpose_keeps {z s t} {f x2 x3} (h : Keeps z s) (e : runDmXpose f s x2 x3 = some t) : Keeps z t.state := by
  unfold runDmXpose at e
  try dsimp only at e
  repeat' split at e
  all_goals try cases e
  repeat' first
    | with_reducible assumption
    | dsimp only [Eff.state_done, Eff.state_abort]
    | with_reducible refine readSide_keeps ?_ (fun _ _ _ => ?_)
    | with_reducible refine writeSide_keeps ?_ (fun _ _ => ?_)
    | with_reducible refine State.moved_keeps ?_

theorem gatherRows_keeps {z s} {w f g x4 x5} (h : Keeps z s) : Keeps z (gatherRows s w f g x4 x5).state := by
  induction x5 generalizing s w f g x4 with
  | nil =>
    unfold gatherRows
    repeat' first
      | with_reducible assumption
      | dsimp only [Eff.state_done, Eff.state_abort]
      | with_reducible refine State.moved_keeps ?_
  | cons a0 r0 ih =>
    unfold gatherRows
    repeat' first
      | with_reducible assumption
      | dsimp only [Eff.state_done, Eff.state_abort]
      | with_reducible refine ih ?_
      | with_reducible refine withData_keeps ?_ (fun _ _ _ => ?_)
      | with_reducible refine withWrite_keeps ?_ (fun _ _ => ?_)
      | split

theorem runDmGather_keeps {z s t} {f x2 x3} (h : Keeps z s) (e : runDmGather f s x2 x3 = some t) : Keeps z t.state := by
  unfold runDmGather at e
  try dsimp only at e
  repeat' split at e
  all_goals try cases e
  repeat' first
    | with_reducible assumption
    | with_reducible refine State.readSp_keeps ?_
    | with_reducible refine gatherRows_keeps ?_

theorem runDmExpand_keeps {z s t} {f x2 x3} (h : Keeps z s) (e : runDmExpand f s x2 x3 = some t) : Keeps z t.state := by
  unfold runDmExpand at e
  try dsimp only at e
  repeat' split at e
  all_goals try cases e
  repeat' first
    | with_reducible assumption
    | dsimp only [Eff.state_done, Eff.state_abort]
    | with_reducible refine readErg_keeps ?_
    | with_reducible refine State.writeSp_keeps ?_
    | with_reducible refine State.moved_keeps ?_
    | with_reducible refine State.addFlags_keeps ?_

theorem runDmPack_keeps {z s t} {f x2 x3} (h : Keeps z s) (e : runDmPack f s x2 x3 = some t) : Keeps z t.state := by
  unfold runDmPack at e
  try dsimp only at e
  repeat' split at e
  all_goals try cases e
  repeat' first
    | with_reducible assumption
    | dsimp only [Eff.state_done, Eff.state_abort]
    | with_reducible refine readOp_keeps ?_
    | with_reducible refine State.writeSp_keeps ?_
    | with_reducible refine State.moved_keeps ?_
    | with_reducible refine State.addFlags_keeps ?_

theorem runDmTblCore_keeps {z s t} {aS sO slot x4 x5} (h : Keeps z s) (e : runDmTblCore aS sO slot s x4 x5 = some t) : Keeps z t.state := by
  unfold runDmTblCore at e
  try dsimp only at e
  repeat' split at e
  all_goals try cases e
  repeat' first
    | with_reducible assumption
    | dsimp only [Eff.state_done, Eff.state_abort]
    | with_reducible refine withCtl_keeps ?_ (fun _ _ _ => ?_)
    | with_reducible refine State.onX_keeps ?_
    | with_reducible refine State.moved_keeps ?_
    | split

theorem runDmTblStack_keeps {z s t} {aS sO slot st x5 x6} (h : Keeps z s) (e : runDmTblStack aS sO slot st s x5 x6 = some t) : Keeps z t.state := by
  unfold runDmTblStack at e
  try dsimp only at e
  repeat' split at e
  all_goals try cases e
  repeat' first
    | with_reducible assumption
    | dsimp only [Eff.state_done, Eff.state_abort]
    | with_reducible refine withCtl_keeps ?_ (fun _ _ _ => ?_)
    | with_reducible refine State.onPart_keeps ?_
    | with_reducible refine State.moved_keeps ?_
    | split

theorem blockLeaves_keeps {z s} {c n b} (h : Keeps z s) : Keeps z (blockLeaves s c n b).state := by
  unfold blockLeaves
  repeat' first
    | with_reducible assumption
    | dsimp only [Eff.state_done, Eff.state_abort]
    | with_reducible refine State.ergDamage_keeps ?_
    | split

theorem atomElement_keeps {z s} {w aop size va v cmp first} (h : Keeps z s) : Keeps z (atomElement s w aop size va v cmp first).s := by
  unfold atomElement
  repeat' first
    | with_reducible assumption
    | dsimp only [Eff.state_done, Eff.state_abort]
    | with_reducible refine State.poisonRead_keeps ?_
    | with_reducible refine State.touch_keeps ?_
    | with_reducible refine State.meet_keeps ?_
    | with_reducible refine State.writePhys_keeps ?_
    | with_reducible refine State.onX_keeps ?_
    | with_reducible refine State.missed_keeps ?_
    | with_reducible refine State.violateBy_keeps ?_
    | split

theorem atomElements_keeps {z s} {w aop size va0 x4 x6 x7} (h : Keeps z s) : Keeps z (atomElements w aop size va0 x4 s x6 x7).1.s := by
  induction x4 generalizing w aop size va0 s x6 x7 with
  | nil =>
    unfold atomElements
    repeat' first
      | with_reducible assumption
  | cons a0 r0 ih =>
    unfold atomElements
    repeat' first
      | with_reducible assumption
      | lift_lets
      | (intro x; subst x)
      | with_reducible refine ih ?_
      | with_reducible refine atomElement_keeps ?_
      | split

theorem runDmAtom_keeps {z s t} {f x2 x3} (h : Keeps z s) (e : runDmAtom f s x2 x3 = some t) : Keeps z t.state := by
  unfold runDmAtom at e
  try dsimp only at e
  repeat' split at e
  all_goals try cases e
  repeat' first
    | with_reducible assumption
    | dsimp only [Eff.state_done, Eff.state_abort]
    | with_reducible refine State.readSp_keeps ?_
    | with_reducible refine atomElements_keeps ?_
    | with_reducible refine State.writeSp_keeps ?_
    | with_reducible refine State.moved_keeps ?_
    | with_reducible refine State.addFlags_keeps ?_

theorem State.landParts_keeps {z s} {w x2} (h : Keeps z s) : Keeps z (State.landParts s w x2).s := by
  induction x2 generalizing s w with
  | nil =>
    unfold State.landParts
    repeat' first
      | with_reducible assumption
  | cons a0 r0 ih =>
    unfold State.landParts
    repeat' first
      | with_reducible assumption
      | lift_lets
      | (intro x; subst x)
      | with_reducible refine ih ?_
      | with_reducible refine State.writeVirt_keeps ?_
      | with_reducible refine State.poisonRead_keeps ?_
      | split

theorem State.takeResult_keeps {z s} {c o i n va bs} (h : Keeps z s) : Keeps z (State.takeResult s c o i n va bs) := by
  unfold State.takeResult
  repeat' first
    | with_reducible assumption
    | lift_lets
    | (intro x; subst x)
    | with_reducible refine State.landParts_keeps ?_
    | with_reducible refine State.abortRun_keeps ?_
    | split
    | fail_if_no_progress refine Keeps.upd ?_ (Nat.le_refl _) rfl

theorem State.landResult_keeps {z s t} {p i k bs} (h : Keeps z s) (e : State.landResult s p i k bs = some t) : Keeps z t := by
  unfold State.landResult at e
  try dsimp only at e
  repeat' split at e
  all_goals try cases e
  repeat' first
    | with_reducible assumption
    | with_reducible refine State.takeResult_keeps ?_

theorem State.sendResult_keeps {z s} {p dst w k x5} (h : Keeps z s) : Keeps z (State.sendResult s p dst w k x5) := by
  induction x5 generalizing s p dst w k with
  | nil =>
    unfold State.sendResult
    repeat' first
      | with_reducible assumption
  | cons a0 r0 ih =>
    unfold State.sendResult
    repeat' first
      | with_reducible assumption
      | with_reducible refine ih ?_
      | with_reducible refine State.sendFlit_keeps ?_

theorem State.sendResults_keeps {z s} {p own w k bs x6} (h : Keeps z s) : Keeps z (State.sendResults s p own w k bs x6) := by
  induction x6 generalizing s p own w k bs with
  | nil =>
    unfold State.sendResults
    repeat' first
      | with_reducible assumption
  | cons a0 r0 ih =>
    unfold State.sendResults
    repeat' first
      | with_reducible assumption
      | with_reducible refine ih ?_
      | with_reducible refine State.landResult_keeps ?_ (by assumption)
      | with_reducible refine State.sendResult_keeps ?_
      | split
      | fail_if_no_progress refine Keeps.upd ?_ (Nat.le_refl _) rfl

theorem State.redChunks_keeps {z s} {p q g sp r x6} (h : Keeps z s) : Keeps z (State.redChunks s p q g sp r x6) := by
  induction x6 generalizing s p q g sp r with
  | nil =>
    unfold State.redChunks
    repeat' first
      | with_reducible assumption
      | with_reducible refine Keeps.ite ?_ (fun _ => ?_)
      | with_reducible refine State.onPort_keeps ?_
  | cons a0 r0 ih =>
    unfold State.redChunks
    repeat' first
      | with_reducible assumption
      | with_reducible refine Keeps.ite ?_ (fun _ => ?_)
      | with_reducible refine ih ?_
      | with_reducible refine State.sendResults_keeps ?_

theorem State.redAdvance_keeps {z s} {p q g k} (h : Keeps z s) : Keeps z (State.redAdvance s p q g k) := by
  unfold State.redAdvance
  repeat' first
    | with_reducible assumption
    | lift_lets
    | (intro x; subst x)
    | with_reducible refine State.countPart_keeps ?_
    | with_reducible refine State.onPort_keeps ?_
    | with_reducible refine State.redChunks_keeps ?_
    | split

theorem State.putRed_keeps {z s} {p q k r} (h : Keeps z s) : Keeps z (State.putRed s p q k r) := by
  unfold State.putRed
  repeat' first
    | with_reducible assumption
    | with_reducible refine State.onPort_keeps ?_

theorem State.dropSteps_keeps {z s} {p c} (h : Keeps z s) : Keeps z (State.dropSteps s p c) := by
  unfold State.dropSteps
  repeat' first
    | with_reducible assumption
    | with_reducible refine State.dropReds_keeps ?_
    | with_reducible refine State.abortPut_keeps ?_
    | fail_if_no_progress refine Keeps.upd ?_ (Nat.le_refl _) rfl

theorem State.dropStepReds_keeps {z s} {p step x3} (h : Keeps z s) : Keeps z (State.dropStepReds s p step x3) := by
  induction x3 generalizing s p step with
  | nil =>
    unfold State.dropStepReds
    repeat' first
      | with_reducible assumption
  | cons a0 r0 ih =>
    unfold State.dropStepReds
    repeat' first
      | with_reducible assumption
      | with_reducible refine ih ?_
      | with_reducible refine State.onX_keeps ?_
      | with_reducible refine State.dropReds_keeps ?_

theorem State.retryCores_keeps {z s} {p step rep join who jc x7} (h : Keeps z s) : Keeps z (State.retryCores s p step rep join who jc x7) := by
  induction x7 generalizing s p step rep join who jc with
  | nil =>
    unfold State.retryCores
    repeat' first
      | with_reducible assumption
  | cons a0 r0 ih =>
    unfold State.retryCores
    repeat' first
      | with_reducible assumption
      | with_reducible refine Keeps.ite ?_ (fun _ => ?_)
      | with_reducible refine ih ?_
      | with_reducible refine State.coreEvent_keeps ?_
      | with_reducible refine State.dropSteps_keeps ?_
      | with_reducible refine State.onCore_keeps ?_
      | with_reducible refine State.onX_keeps ?_

theorem State.countAll_keeps {z s} {i x2} (h : Keeps z s) : Keeps z (State.countAll s i x2) := by
  induction x2 generalizing s i with
  | nil =>
    unfold State.countAll
    repeat' first
      | with_reducible assumption
  | cons a0 r0 ih =>
    unfold State.countAll
    repeat' first
      | with_reducible assumption
      | with_reducible refine ih ?_
      | with_reducible refine State.count_keeps ?_

theorem State.abortAll_keeps {z s} {code x2} (h : Keeps z s) : Keeps z (State.abortAll s code x2) := by
  induction x2 generalizing s code with
  | nil =>
    unfold State.abortAll
    repeat' first
      | with_reducible assumption
  | cons a0 r0 ih =>
    unfold State.abortAll
    repeat' first
      | with_reducible assumption
      | with_reducible refine ih ?_
      | with_reducible refine State.abortRun_keeps ?_

theorem State.retrySaveds_keeps {z s} {step rep join who jc x6} (h : Keeps z s) : Keeps z (State.retrySaveds s step rep join who jc x6) := by
  induction x6 generalizing s step rep join who jc with
  | nil =>
    unfold State.retrySaveds
    repeat' first
      | with_reducible assumption
  | cons a0 r0 ih =>
    unfold State.retrySaveds
    repeat' first
      | with_reducible assumption
      | with_reducible refine ih ?_
      | with_reducible refine State.onCtx_keeps ?_

theorem State.recountStep_keeps {z s} {p step} (h : Keeps z s) : Keeps z (State.recountStep s p step) := by
  unfold State.recountStep
  repeat' first
    | with_reducible assumption
    | with_reducible refine State.onPart_keeps ?_

theorem State.stepRetry_keeps {z s t} {p src k join} (h : Keeps z s) (e : State.stepRetry s p src k join = some t) : Keeps z t := by
  unfold State.stepRetry at e
  try dsimp only at e
  repeat' split at e
  all_goals try cases e
  repeat' first
    | with_reducible assumption
    | with_reducible refine State.abortAll_keeps ?_
    | with_reducible refine State.countAll_keeps ?_
    | with_reducible refine State.dropStepReds_keeps ?_
    | with_reducible refine State.recountStep_keeps ?_
    | with_reducible refine State.retrySaveds_keeps ?_
    | with_reducible refine State.retryCores_keeps ?_

theorem State.sendRetry_keeps {z s} {p k join x4} (h : Keeps z s) : Keeps z (State.sendRetry s p k join x4) := by
  induction x4 generalizing s p k join with
  | nil =>
    unfold State.sendRetry
    repeat' first
      | with_reducible assumption
  | cons a0 r0 ih =>
    unfold State.sendRetry
    repeat' first
      | with_reducible assumption
      | with_reducible refine ih ?_
      | with_reducible refine State.stepRetry_keeps ?_ (by assumption)
      | with_reducible refine State.sendFlit_keeps ?_
      | split
      | fail_if_no_progress refine Keeps.upd ?_ (Nat.le_refl _) rfl

theorem State.abandon_keeps {z s} {q r} (h : Keeps z s) : Keeps z (State.abandon s q r) := by
  unfold State.abandon
  repeat' first
    | with_reducible assumption
    | lift_lets
    | (intro x; subst x)
    | with_reducible refine State.countPart_keeps ?_
    | with_reducible refine State.onPort_keeps ?_
    | with_reducible refine State.sendRetry_keeps ?_
    | split

theorem State.redExpire_keeps {z s} {p q k} (h : Keeps z s) : Keeps z (State.redExpire s p q k) := by
  unfold State.redExpire
  repeat' first
    | with_reducible assumption
    | with_reducible refine State.abandon_keeps ?_
    | split

theorem State.redSpec_keeps {z s} {p q j g k sp} (h : Keeps z s) : Keeps z (State.redSpec s p q j g k sp) := by
  unfold State.redSpec
  repeat' first
    | with_reducible assumption
    | with_reducible refine Keeps.ite ?_ (fun _ => ?_)
    | with_reducible refine State.redExpire_keeps ?_
    | with_reducible refine State.putRed_keeps ?_

theorem State.redReceive_keeps {z s} {p q j g k m last bad bs} (h : Keeps z s) : Keeps z (State.redReceive s p q j g k m last bad bs) := by
  unfold State.redReceive
  repeat' first
    | with_reducible assumption
    | with_reducible refine Keeps.ite ?_ (fun _ => ?_)
    | with_reducible refine State.redExpire_keeps ?_
    | with_reducible refine State.countPart_keeps ?_
    | with_reducible refine State.redAdvance_keeps ?_
    | with_reducible refine State.putRed_keeps ?_

theorem State.rejoinReds_keeps {z s} {p j x3} (h : Keeps z s) : Keeps z (State.rejoinReds s p j x3) := by
  induction x3 generalizing s p j with
  | nil =>
    unfold State.rejoinReds
    repeat' first
      | with_reducible assumption
  | cons a0 r0 ih =>
    unfold State.rejoinReds
    repeat' first
      | with_reducible assumption
      | with_reducible refine ih ?_
      | with_reducible refine State.sendRetry_keeps ?_
      | split

theorem State.usesCl_keeps {z s} {n} (h : Keeps z s) : Keeps z (State.usesCl s n) := by
  unfold State.usesCl
  repeat' first
    | with_reducible assumption
    | with_reducible refine State.onCtx_keeps ?_

theorem issueCl_keeps {z s} {c i ready check run} (h : Keeps z s)
    (hrun : ∀ t k f, Keeps z t → run t c k = some f → Keeps z f.state) : Keeps z (issueCl s c i ready check run) := by
  unfold issueCl
  dsimp only
  have k : Keeps z (issue s c 1 .coll i ready check id run) := issue_keeps h hrun
  split
  · split
    · exact k
    · exact State.usesCl_keeps k
  · exact k

theorem State.sendPuts_keeps {z s} {p l dst va seq fin first x8} (h : Keeps z s) : Keeps z (State.sendPuts s p l dst va seq fin first x8) := by
  induction x8 generalizing s p l dst va seq fin first with
  | nil =>
    unfold State.sendPuts
    repeat' first
      | with_reducible assumption
  | cons a0 r0 ih =>
    unfold State.sendPuts
    repeat' first
      | with_reducible assumption
      | with_reducible refine ih ?_
      | with_reducible refine State.sendFlit_keeps ?_

theorem State.discardAt_keeps {z s} {q} (h : Keeps z s) : Keeps z (State.discardAt s q) := by
  unfold State.discardAt
  repeat' first
    | with_reducible assumption
    | with_reducible refine State.onPort_keeps ?_

theorem State.discardTo_keeps {z s} {j dst} (h : Keeps z s) : Keeps z (State.discardTo s j dst) := by
  unfold State.discardTo
  repeat' first
    | with_reducible assumption
    | with_reducible refine State.discardAt_keeps ?_
    | split

theorem State.putSend_keeps {z s} {p c id f g j dst bs} (h : Keeps z s) : Keeps z (State.putSend s p c id f g j dst bs) := by
  unfold State.putSend
  repeat' first
    | with_reducible assumption
    | with_reducible refine Keeps.ite ?_ (fun _ => ?_)
    | with_reducible refine State.onPart_keeps ?_
    | with_reducible refine State.sendPuts_keeps ?_
    | with_reducible refine State.countPart_keeps ?_
    | with_reducible refine State.onX_keeps ?_
    | with_reducible refine State.sendFlit_keeps ?_

theorem runClPut_keeps {z s t} {f x2 x3} (h : Keeps z s) (e : runClPut f s x2 x3 = some t) : Keeps z t.state := by
  unfold runClPut at e
  try dsimp only at e
  repeat' split at e
  all_goals try cases e
  repeat' first
    | with_reducible assumption
    | dsimp only [Eff.state_done, Eff.state_abort]
    | with_reducible refine State.usesCl_keeps ?_
    | with_reducible refine withData_keeps ?_ (fun _ _ _ => ?_)
    | with_reducible refine State.discardTo_keeps ?_
    | with_reducible refine State.actBy_keeps ?_
    | with_reducible refine State.putSend_keeps ?_
    | split

theorem State.redPiecesOut_keeps {z s} {p c i dst w k j g x9} (h : Keeps z s) : Keeps z (State.redPiecesOut s p c i dst w k j g x9) := by
  induction x9 generalizing s p c i dst w k j g with
  | nil =>
    unfold State.redPiecesOut
    repeat' first
      | with_reducible assumption
  | cons a0 r0 ih =>
    unfold State.redPiecesOut
    repeat' first
      | with_reducible assumption
      | with_reducible refine Keeps.ite ?_ (fun _ => ?_)
      | with_reducible refine ih ?_
      | with_reducible refine State.redReceive_keeps ?_
      | with_reducible refine State.sendFlit_keeps ?_
      | with_reducible refine State.countPart_keeps ?_

theorem State.redShards_keeps {z s} {p c n w k j g bs x9} (h : Keeps z s) : Keeps z (State.redShards s p c n w k j g bs x9) := by
  induction x9 generalizing s p c n w k j g bs with
  | nil =>
    unfold State.redShards
    repeat' first
      | with_reducible assumption
  | cons a0 r0 ih =>
    unfold State.redShards
    repeat' first
      | with_reducible assumption
      | with_reducible refine ih ?_
      | with_reducible refine State.redPiecesOut_keeps ?_

theorem State.redBegin_keeps {z s} {p c o} (h : Keeps z s) : Keeps z (State.redBegin s p c o) := by
  unfold State.redBegin
  repeat' first
    | with_reducible assumption
    | with_reducible refine State.onX_keeps ?_
    | with_reducible refine State.onPart_keeps ?_

theorem State.redStart_keeps {z s} {c n k f st j g bs} (h : Keeps z s) : Keeps z (State.redStart s c n k f st j g bs) := by
  unfold State.redStart
  repeat' first
    | with_reducible assumption
    | with_reducible refine Keeps.ite ?_ (fun _ => ?_)
    | with_reducible refine State.redBegin_keeps ?_
    | with_reducible refine State.redSpec_keeps ?_
    | with_reducible refine State.redShards_keeps ?_

theorem runClReduce_keeps {z s t} {f x2 x3} (h : Keeps z s) (e : runClReduce f s x2 x3 = some t) : Keeps z t.state := by
  unfold runClReduce at e
  try dsimp only at e
  repeat' split at e
  all_goals try cases e
  repeat' first
    | with_reducible assumption
    | dsimp only [Eff.state_done, Eff.state_abort]
    | with_reducible refine State.usesCl_keeps ?_
    | with_reducible refine withData_keeps ?_ (fun _ _ _ => ?_)
    | with_reducible refine State.actBy_keeps ?_
    | with_reducible refine State.redStart_keeps ?_
    | split

theorem State.newStep_keeps {z s} {p step} (h : Keeps z s) : Keeps z (State.newStep s p step) := by
  unfold State.newStep
  repeat' first
    | with_reducible assumption
    | with_reducible refine Keeps.ite ?_ (fun _ => ?_)
    | fail_if_no_progress refine Keeps.upd ?_ (Nat.le_refl _) rfl

theorem runDbWatch_keeps {z s t} {f x2 x3} (h : Keeps z s) (e : runDbWatch f s x2 x3 = some t) : Keeps z t.state := by
  unfold runDbWatch at e
  try dsimp only at e
  repeat' split at e
  all_goals try cases e
  repeat' first
    | with_reducible assumption
    | dsimp only [Eff.state_done, Eff.state_abort]
    | with_reducible refine readOp_keeps ?_
    | with_reducible refine State.addFlags_keeps ?_
    | with_reducible refine State.trace_keeps ?_
    | with_reducible refine State.drawn_keeps ?_
    | with_reducible refine State.writeSp_keeps ?_
    | with_reducible refine State.event_keeps ?_

theorem effectOf_keeps {z s t} {i c k} (h : Keeps z s) (e : effectOf i s c k = some t) : Keeps z t.state := by
  unfold effectOf at e
  split at e
  · exact runMxForm_keeps h e
  · exact runMxWld_keeps h e
  · exact runMxSwap_keeps h e
  · exact runMxRun_keeps h e
  · exact runMxDrain_keeps h e
  · exact runMxNmv_keeps h e
  · exact runVxEp_keeps h e
  · exact runVxRed_keeps h e
  · exact runXpDef_keeps h e
  · exact runRnDraw_keeps h e
  · exact runDbWatch_keeps h e
  · exact runAtQk_keeps h e
  · exact runSmInit_keeps h e
  · exact runSmUpdate_keeps h e
  · exact runSmFinal_keeps h e
  · exact runSmMerge_keeps h e
  · exact runAtPv_keeps h e
  · exact runAtDec_keeps h e
  · exact runPageAlloc_keeps h e
  · exact runPageFree_keeps h e
  · exact runPageFork_keeps h e
  · exact runPagePrep_keeps h e
  · exact runPageLookup_keeps h e
  · exact runPageInsert_keeps h e
  · exact runDmCopy_keeps h e
  · exact runDmXpose_keeps h e
  · exact runDmGather_keeps h e
  · exact runDmExpand_keeps h e
  · exact runDmPack_keeps h e
  · exact runDmTblCore_keeps h e
  · exact runDmTblStack_keeps h e
  · exact runDmAtom_keeps h e
  · exact runClPut_keeps h e
  · exact runClReduce_keeps h e
  · cases e
    exact h

theorem State.stopHere_keeps {z s} {c} (h : Keeps z s) : Keeps z (State.stopHere s c) := by
  unfold State.stopHere
  repeat' first
    | with_reducible assumption
    | with_reducible refine State.stopWaiting_keeps ?_
    | split

theorem State.absorb_keeps {z s} {c k} (h : Keeps z s) : Keeps z (State.absorb s c k) := by
  unfold State.absorb
  repeat' first
    | with_reducible assumption
    | with_reducible refine Keeps.ite ?_ (fun _ => ?_)
    | with_reducible refine State.stopHere_keeps ?_
    | with_reducible refine State.onX_keeps ?_

theorem State.countWaits_keeps {z s} {n i} (h : Keeps z s) : Keeps z (State.countWaits s n i) := by
  unfold State.countWaits
  repeat' first
    | with_reducible assumption
    | with_reducible refine State.count_keeps ?_
    | with_reducible refine State.drawn_keeps ?_
    | split

theorem State.corrected_keeps {z s} {c} (h : Keeps z s) : Keeps z (State.corrected s c) := by
  unfold State.corrected
  repeat' first
    | with_reducible assumption
    | with_reducible refine State.onCore_keeps ?_
    | with_reducible refine State.drawn_keeps ?_
    | with_reducible refine State.logCorrected_keeps ?_

end Sys2Proof.Machine
end

