-- ==== Sys2Proof/Laws/KeepsDevice.lean ====
section
/-! SUPPORT. `Keeps` for fencing, links, power, hangs, recovery, start-up, registers, management, the host interface, and the tick. -/

namespace Sys2Proof.Machine

theorem State.quietCores_keeps {z s} {cs} (h : Keeps z s) : Keeps z (State.quietCores s cs) := by
  unfold State.quietCores
  repeat' first
    | with_reducible assumption
    | with_reducible refine State.onCores_keeps ?_
    | with_reducible refine State.dropOutsides_keeps ?_

theorem State.haltForRestart_keeps {z s} {n} (h : Keeps z s) : Keeps z (State.haltForRestart s n) := by
  unfold State.haltForRestart
  repeat' first
    | with_reducible assumption
    | with_reducible refine State.onCtx_keeps ?_
    | with_reducible refine State.quietCores_keeps ?_

theorem State.postLost_keeps {z s} {n x2} (h : Keeps z s) : Keeps z (State.postLost s n x2) := by
  induction x2 generalizing s n with
  | nil =>
    unfold State.postLost
    repeat' first
      | with_reducible assumption
  | cons a0 r0 ih =>
    unfold State.postLost
    repeat' first
      | with_reducible assumption
      | with_reducible refine ih ?_
      | with_reducible refine State.postAcc_keeps ?_

theorem State.lostReset_keeps {z s} {n} (h : Keeps z s) : Keeps z (State.lostReset s n) := by
  unfold State.lostReset
  repeat' first
    | with_reducible assumption
    | with_reducible refine Keeps.ite ?_ (fun _ => ?_)
    | with_reducible refine State.detachUpds_keeps ?_
    | with_reducible refine State.removeCtx_keeps ?_
    | with_reducible refine State.resetNotice_keeps ?_
    | with_reducible refine State.postLost_keeps ?_
    | with_reducible refine State.postRun_keeps ?_
    | with_reducible refine State.status_keeps ?_
    | with_reducible refine State.onCtx_keeps ?_

theorem State.leaveCtx_keeps {z s} {l again n} (h : Keeps z s) : Keeps z (State.leaveCtx s l again n) := by
  unfold State.leaveCtx
  repeat' first
    | with_reducible assumption
    | lift_lets
    | (intro x; subst x)
    | with_reducible refine State.onCtx_keeps ?_
    | with_reducible refine State.lostReset_keeps ?_
    | with_reducible refine State.status_keeps ?_
    | with_reducible refine State.rerankCores_keeps ?_
    | with_reducible refine State.haltForRestart_keeps ?_
    | split

theorem State.leaveCtxs_keeps {z s} {l again x3} (h : Keeps z s) : Keeps z (State.leaveCtxs s l again x3) := by
  induction x3 generalizing s l again with
  | nil =>
    unfold State.leaveCtxs
    repeat' first
      | with_reducible assumption
  | cons a0 r0 ih =>
    unfold State.leaveCtxs
    repeat' first
      | with_reducible assumption
      | with_reducible refine ih ?_
      | with_reducible refine State.leaveCtx_keeps ?_

theorem State.leave_keeps {z s} {l again} (h : Keeps z s) : Keeps z (State.leave s l again) := by
  unfold State.leave
  repeat' first
    | with_reducible assumption
    | with_reducible refine State.leaveCtxs_keeps ?_
    | fail_if_no_progress refine Keeps.upd ?_ (Nat.le_refl _) rfl

theorem State.handOver_keeps {z s} {c q halted} (h : Keeps z s) : Keeps z (State.handOver s c q halted) := by
  unfold State.handOver
  repeat' first
    | with_reducible assumption
    | with_reducible refine State.onCore_keeps ?_

theorem State.fenceEvents_keeps {z s} {c q n} (h : Keeps z s) : Keeps z (State.fenceEvents s c q n) := by
  unfold State.fenceEvents
  repeat' first
    | with_reducible assumption
    | with_reducible refine State.event_keeps ?_
    | with_reducible refine State.ctxEvents_keeps ?_
    | split

theorem State.countFence_keeps {z s} {l} (h : Keeps z s) : Keeps z (State.countFence s l) := by
  unfold State.countFence
  repeat' first
    | with_reducible assumption
    | with_reducible refine State.countPart_keeps ?_
    | split

theorem State.faultRecord_keeps {z s} {c cause} (h : Keeps z s) : Keeps z (State.faultRecord s c cause) := by
  unfold State.faultRecord
  repeat' first
    | with_reducible assumption
    | with_reducible refine State.logError_keeps ?_
    | with_reducible refine State.drawn_keeps ?_

theorem State.passOn_keeps {z s} {c halted again} (h : Keeps z s) : Keeps z (State.passOn s c halted again) := by
  unfold State.passOn
  repeat' first
    | with_reducible assumption
    | with_reducible refine State.onCore_keeps ?_
    | with_reducible refine State.handOver_keeps ?_
    | with_reducible refine State.leave_keeps ?_
    | split

theorem State.fencedCtx_keeps {z s} {n again} (h : Keeps z s) : Keeps z (State.fencedCtx s n again) := by
  unfold State.fencedCtx
  repeat' first
    | with_reducible assumption
    | with_reducible refine State.status_keeps ?_
    | with_reducible refine State.restartGroup_keeps ?_
    | with_reducible refine State.haltForRestart_keeps ?_
    | with_reducible refine State.maybeFinish_keeps ?_
    | with_reducible refine State.onCtx_keeps ?_
    | split

theorem State.noteFault_keeps {z s} {c} (h : Keeps z s) : Keeps z (State.noteFault s c) := by
  unfold State.noteFault
  repeat' first
    | with_reducible assumption
    | with_reducible refine State.onRegion_keeps ?_

theorem State.coreFault_keeps {z s} {c cause} (h : Keeps z s) : Keeps z (State.coreFault s c cause) := by
  unfold State.coreFault
  repeat' first
    | with_reducible assumption
    | lift_lets
    | (intro x; subst x)
    | with_reducible refine State.countFence_keeps ?_
    | with_reducible refine State.faultRecord_keeps ?_
    | with_reducible refine State.noteFault_keeps ?_
    | with_reducible refine State.onCore_keeps ?_
    | with_reducible refine State.passOn_keeps ?_
    | with_reducible refine State.dropOutside_keeps ?_
    | with_reducible refine State.fenceEvents_keeps ?_
    | with_reducible refine State.fencedCtx_keeps ?_
    | split

theorem State.renewWatch_keeps {z s} {x1} (h : Keeps z s) : Keeps z (State.renewWatch s x1) := by
  induction x1 generalizing s with
  | nil =>
    unfold State.renewWatch
    repeat' first
      | with_reducible assumption
  | cons a0 r0 ih =>
    unfold State.renewWatch
    repeat' first
      | with_reducible assumption
      | with_reducible refine ih ?_
      | with_reducible refine State.onX_keeps ?_
      | split

theorem State.moveTo_keeps {z s} {c q} (h : Keeps z s) : Keeps z (State.moveTo s c q) := by
  unfold State.moveTo
  repeat' first
    | with_reducible assumption
    | with_reducible refine State.onCore_keeps ?_

theorem State.statusOf_keeps {z s} {n} (h : Keeps z s) : Keeps z (State.statusOf s n) := by
  unfold State.statusOf
  repeat' first
    | with_reducible assumption
    | with_reducible refine State.status_keeps ?_
    | split

theorem State.moveFenced_keeps {z s} {c} (h : Keeps z s) : Keeps z (State.moveFenced s c) := by
  unfold State.moveFenced
  repeat' first
    | with_reducible assumption
    | lift_lets
    | (intro x; subst x)
    | with_reducible refine State.countFence_keeps ?_
    | with_reducible refine State.logError_keeps ?_
    | with_reducible refine State.statusOf_keeps ?_
    | with_reducible refine State.fenceEvents_keeps ?_
    | with_reducible refine State.onCore_keeps ?_
    | with_reducible refine State.moveTo_keeps ?_
    | with_reducible refine State.leave_keeps ?_
    | with_reducible refine State.restartGroup_keeps ?_
    | split

theorem State.testInPlace_keeps {z s} {c} (h : Keeps z s) : Keeps z (State.testInPlace s c) := by
  unfold State.testInPlace
  repeat' first
    | with_reducible assumption
    | lift_lets
    | (intro x; subst x)
    | with_reducible refine State.onCore_keeps ?_
    | with_reducible refine State.preempt_keeps ?_
    | split

theorem State.moveTested_keeps {z s} {c} (h : Keeps z s) : Keeps z (State.moveTested s c) := by
  unfold State.moveTested
  repeat' first
    | with_reducible assumption
    | with_reducible refine State.statusOf_keeps ?_
    | with_reducible refine State.onCore_keeps ?_
    | with_reducible refine State.moveTo_keeps ?_
    | with_reducible refine State.testInPlace_keeps ?_
    | split

theorem State.moveIfReady_keeps {z s} {c} (h : Keeps z s) : Keeps z (State.moveIfReady s c) := by
  unfold State.moveIfReady
  repeat' first
    | with_reducible assumption
    | lift_lets
    | (intro x; subst x)
    | with_reducible refine State.onCore_keeps ?_
    | with_reducible refine State.moveFenced_keeps ?_
    | with_reducible refine State.moveTested_keeps ?_
    | split

theorem State.moveAll_keeps {z s} {x1} (h : Keeps z s) : Keeps z (State.moveAll s x1) := by
  induction x1 generalizing s with
  | nil =>
    unfold State.moveAll
    repeat' first
      | with_reducible assumption
  | cons a0 r0 ih =>
    unfold State.moveAll
    repeat' first
      | with_reducible assumption
      | with_reducible refine ih ?_
      | with_reducible refine State.moveIfReady_keeps ?_

theorem selfTest_keeps {z s} {c} (h : Keeps z s) : Keeps z (selfTest s c) := by
  unfold selfTest
  repeat' first
    | with_reducible assumption
    | lift_lets
    | (intro x; subst x)
    | with_reducible refine State.onCore_keeps ?_
    | with_reducible refine State.moveIfReady_keeps ?_
    | with_reducible refine State.testInPlace_keeps ?_
    | split

theorem State.testPassed_keeps {z s} {c} (h : Keeps z s) : Keeps z (State.testPassed s c) := by
  unfold State.testPassed
  repeat' first
    | with_reducible assumption
    | lift_lets
    | (intro x; subst x)
    | with_reducible refine State.onCore_keeps ?_
    | split

theorem State.testFailed_keeps {z s} {c} (h : Keeps z s) : Keeps z (State.testFailed s c) := by
  unfold State.testFailed
  repeat' first
    | with_reducible assumption
    | with_reducible refine Keeps.ite ?_ (fun _ => ?_)
    | with_reducible refine State.leave_keeps ?_
    | fail_if_no_progress refine Keeps.upd ?_ (Nat.le_refl _) rfl

theorem State.failReduced_keeps {z s} {x1} (h : Keeps z s) : Keeps z (State.failReduced s x1) := by
  induction x1 generalizing s with
  | nil =>
    unfold State.failReduced
    repeat' first
      | with_reducible assumption
  | cons a0 r0 ih =>
    unfold State.failReduced
    repeat' first
      | with_reducible assumption
      | lift_lets
      | (intro x; subst x)
      | with_reducible refine ih ?_
      | with_reducible refine State.leave_keeps ?_
      | split
      | fail_if_no_progress refine Keeps.upd ?_ (Nat.le_refl _) rfl

theorem State.reducedTest_keeps {z s} (h : Keeps z s) : Keeps z (State.reducedTest s) := by
  unfold State.reducedTest
  repeat' first
    | with_reducible assumption
    | with_reducible refine State.failReduced_keeps ?_
    | with_reducible refine State.drawn_keeps ?_

theorem State.sendDown_keeps {z s} {p dst r epoch} (h : Keeps z s) : Keeps z (State.sendDown s p dst r epoch) := by
  unfold State.sendDown
  repeat' first
    | with_reducible assumption
    | with_reducible refine State.sendFlit_keeps ?_

theorem State.markDead_keeps {z s} {p r} (h : Keeps z s) : Keeps z (State.markDead s p r) := by
  unfold State.markDead
  repeat' first
    | with_reducible assumption
    | lift_lets
    | (intro x; subst x)
    | with_reducible refine State.setJob_keeps ?_
    | split
    | fail_if_no_progress refine Keeps.upd ?_ (Nat.le_refl _) rfl

theorem State.sendDowns_keeps {z s} {p r epoch x4} (h : Keeps z s) : Keeps z (State.sendDowns s p r epoch x4) := by
  induction x4 generalizing s p r epoch with
  | nil =>
    unfold State.sendDowns
    repeat' first
      | with_reducible assumption
  | cons a0 r0 ih =>
    unfold State.sendDowns
    repeat' first
      | with_reducible assumption
      | with_reducible refine ih ?_
      | with_reducible refine State.sendDown_keeps ?_

theorem State.cutOffs_keeps {z s} {p x2} (h : Keeps z s) : Keeps z (State.cutOffs s p x2) := by
  induction x2 generalizing s p with
  | nil =>
    unfold State.cutOffs
    repeat' first
      | with_reducible assumption
  | cons a0 r0 ih =>
    unfold State.cutOffs
    repeat' first
      | with_reducible assumption
      | lift_lets
      | (intro x; subst x)
      | with_reducible refine ih ?_
      | with_reducible refine State.markDead_keeps ?_
      | with_reducible refine State.sendDowns_keeps ?_
      | split

theorem State.cutParts_keeps {z s} {x1} (h : Keeps z s) : Keeps z (State.cutParts s x1) := by
  induction x1 generalizing s with
  | nil =>
    unfold State.cutParts
    repeat' first
      | with_reducible assumption
  | cons a0 r0 ih =>
    unfold State.cutParts
    repeat' first
      | with_reducible assumption
      | with_reducible refine ih ?_
      | with_reducible refine State.cutOffs_keeps ?_

theorem State.cutAll_keeps {z s} (h : Keeps z s) : Keeps z (State.cutAll s) := by
  unfold State.cutAll
  repeat' first
    | with_reducible assumption
    | with_reducible refine State.cutParts_keeps ?_

theorem State.linkError_keeps {z s} {p cause} (h : Keeps z s) : Keeps z (State.linkError s p cause) := by
  unfold State.linkError
  exact State.logError_keeps h

theorem State.portEvent_keeps {z s} {q p kind data} (h : Keeps z s) : Keeps z (State.portEvent s q p kind data) := by
  unfold State.portEvent
  repeat' first
    | with_reducible assumption
    | with_reducible refine State.event_keeps ?_

theorem State.failLane_keeps {z s} {p} (h : Keeps z s) : Keeps z (State.failLane s p) := by
  unfold State.failLane
  repeat' first
    | with_reducible assumption
    | with_reducible refine Keeps.ite ?_ (fun _ => ?_)
    | with_reducible refine State.linkError_keeps ?_
    | with_reducible refine State.portEvent_keeps ?_
    | with_reducible refine State.setPort_keeps ?_
    | with_reducible refine State.cutAll_keeps ?_

theorem State.naked_keeps {z s} {p k ack} (h : Keeps z s) : Keeps z (State.naked s p k ack) := by
  unfold State.naked
  repeat' first
    | with_reducible assumption
    | with_reducible refine Keeps.ite ?_ (fun _ => ?_)
    | with_reducible refine State.onPort_keeps ?_
    | with_reducible refine State.failLane_keeps ?_

theorem State.flitIn_keeps {z s} {q ch iface peer tr} (h : Keeps z s) : Keeps z (State.flitIn s q ch iface peer tr) := by
  unfold State.flitIn
  repeat' first
    | with_reducible assumption
    | with_reducible refine Keeps.ite ?_ (fun _ => ?_)
    | with_reducible refine State.onPort_keeps ?_
    | with_reducible refine State.naked_keeps ?_
    | with_reducible refine State.drain_keeps ?_

theorem State.inOrder_keeps {z s} {q ch iface peer tr k} (h : Keeps z s) (hk : ∀ b0, Keeps z b0 → Keeps z (k b0)) : Keeps z (State.inOrder s q ch iface peer tr k) := by
  unfold State.inOrder
  repeat' first
    | with_reducible assumption
    | with_reducible refine Keeps.ite ?_ (fun _ => ?_)
    | with_reducible refine hk _ ?_
    | with_reducible refine State.onPort_keeps ?_
    | with_reducible refine State.flitIn_keeps ?_

theorem State.forward_keeps {z s} {q p ty j f} (h : Keeps z s) : Keeps z (State.forward s q p ty j f) := by
  unfold State.forward
  repeat' first
    | with_reducible assumption
    | with_reducible refine State.portSend_keeps ?_
    | with_reducible refine State.discardAt_keeps ?_
    | split

theorem State.releaseCredits_keeps {z s} (h : Keeps z s) : Keeps z (State.releaseCredits s) := by
  unfold State.releaseCredits
  repeat' first
    | with_reducible assumption
    | with_reducible refine Keeps.ite ?_ (fun _ => ?_)
    | fail_if_no_progress refine Keeps.upd ?_ (Nat.le_refl _) rfl

theorem State.withhold_keeps {z s} {q f x2} (h : Keeps z s) : Keeps z (State.withhold s q f x2) := by
  unfold State.withhold
  repeat' first
    | with_reducible assumption
    | with_reducible refine State.onPort_keeps ?_
    | split

theorem receive_keeps {z s} {q ty f k} (h : Keeps z s) (hk : ∀ b0 b1 b2, Keeps z b0 → Keeps z (k b0 b1 b2)) : Keeps z (receive s q ty f k) := by
  unfold receive
  repeat' first
    | with_reducible assumption
    | lift_lets
    | (intro x; subst x)
    | with_reducible refine hk _ _ _ ?_
    | with_reducible refine State.inOrder_keeps ?_ (fun _ _ => ?_)
    | with_reducible refine State.withhold_keeps ?_
    | with_reducible refine State.discardAt_keeps ?_
    | with_reducible refine State.forward_keeps ?_
    | with_reducible refine State.sendDown_keeps ?_
    | split

theorem State.landBytes_keeps {z s} {p va bs} (h : Keeps z s) : Keeps z (State.landBytes s p va bs) := by
  unfold State.landBytes
  repeat' first
    | with_reducible assumption
    | with_reducible refine Keeps.ite ?_ (fun _ => ?_)
    | with_reducible refine State.writeVirt_keeps ?_
    | with_reducible refine State.poisonedEntry_keeps ?_

theorem State.landAll_keeps {z s} {p x2} (h : Keeps z s) : Keeps z (State.landAll s p x2) := by
  induction x2 generalizing s p with
  | nil =>
    unfold State.landAll
    repeat' first
      | with_reducible assumption
  | cons a0 r0 ih =>
    unfold State.landAll
    repeat' first
      | with_reducible assumption
      | with_reducible refine ih ?_
      | with_reducible refine State.landBytes_keeps ?_

theorem State.markLanded_keeps {z s} {p src score seq} (h : Keeps z s) : Keeps z (State.markLanded s p src score seq) := by
  unfold State.markLanded
  repeat' first
    | with_reducible assumption
    | with_reducible refine State.onPart_keeps ?_
    | with_reducible refine State.sendFlit_keeps ?_

theorem State.applySig_keeps {z s} {p x2} (h : Keeps z s) : Keeps z (State.applySig s p x2) := by
  unfold State.applySig
  repeat' first
    | with_reducible assumption
    | with_reducible refine State.sigApply_keeps ?_
    | with_reducible refine State.violateBy_keeps ?_
    | split

theorem State.applySigs_keeps {z s} {p x2} (h : Keeps z s) : Keeps z (State.applySigs s p x2) := by
  induction x2 generalizing s p with
  | nil =>
    unfold State.applySigs
    repeat' first
      | with_reducible assumption
  | cons a0 r0 ih =>
    unfold State.applySigs
    repeat' first
      | with_reducible assumption
      | with_reducible refine ih ?_
      | with_reducible refine State.applySig_keeps ?_

theorem State.landed_keeps {z s} {p x2} (h : Keeps z s) : Keeps z (State.landed s p x2) := by
  unfold State.landed
  repeat' first
    | with_reducible assumption
    | with_reducible refine State.onPart_keeps ?_
    | with_reducible refine State.applySigs_keeps ?_
    | with_reducible refine State.markLanded_keeps ?_
    | with_reducible refine State.landAll_keeps ?_

theorem State.releaseFin_keeps {z s} {p src score} (h : Keeps z s) : Keeps z (State.releaseFin s p src score) := by
  unfold State.releaseFin
  repeat' first
    | with_reducible assumption
    | with_reducible refine State.landed_keeps ?_
    | split

theorem State.rejoin_keeps {z s} {p r epoch j} (h : Keeps z s) : Keeps z (State.rejoin s p r epoch j) := by
  unfold State.rejoin
  repeat' first
    | with_reducible assumption
    | with_reducible refine State.setJob_keeps ?_
    | with_reducible refine State.rejoinReds_keeps ?_
    | fail_if_no_progress refine Keeps.upd ?_ (Nat.le_refl _) rfl

theorem State.syncCore_keeps {z s} {q got c} (h : Keeps z s) : Keeps z (State.syncCore s q got c) := by
  unfold State.syncCore
  repeat' first
    | with_reducible assumption
    | dsimp only [Eff.state_done, Eff.state_abort]
    | with_reducible refine State.endHold_keeps ?_
    | with_reducible refine State.onX_keeps ?_
    | split

theorem State.syncCores_keeps {z s} {q got x3} (h : Keeps z s) : Keeps z (State.syncCores s q got x3) := by
  induction x3 generalizing s q got with
  | nil =>
    unfold State.syncCores
    repeat' first
      | with_reducible assumption
  | cons a0 r0 ih =>
    unfold State.syncCores
    repeat' first
      | with_reducible assumption
      | with_reducible refine ih ?_
      | with_reducible refine State.syncCore_keeps ?_

theorem State.syncHost_keeps {z s} {q got n} (h : Keeps z s) : Keeps z (State.syncHost s q got n) := by
  unfold State.syncHost
  repeat' first
    | with_reducible assumption
    | dsimp only [Eff.state_done, Eff.state_abort]
    | with_reducible refine State.endRec_keeps ?_
    | with_reducible refine State.onCtx_keeps ?_
    | split

theorem State.syncHosts_keeps {z s} {q got x3} (h : Keeps z s) : Keeps z (State.syncHosts s q got x3) := by
  induction x3 generalizing s q got with
  | nil =>
    unfold State.syncHosts
    repeat' first
      | with_reducible assumption
  | cons a0 r0 ih =>
    unfold State.syncHosts
    repeat' first
      | with_reducible assumption
      | with_reducible refine ih ?_
      | with_reducible refine State.syncHost_keeps ?_

theorem State.syncPort_keeps {z s} {q got} (h : Keeps z s) : Keeps z (State.syncPort s q got) := by
  unfold State.syncPort
  repeat' first
    | with_reducible assumption
    | with_reducible refine State.syncHosts_keeps ?_
    | with_reducible refine State.syncCores_keeps ?_

theorem State.startLane_keeps {z s} {p lanes} (h : Keeps z s) : Keeps z (State.startLane s p lanes) := by
  unfold State.startLane
  repeat' first
    | with_reducible assumption
    | with_reducible refine Keeps.ite ?_ (fun _ => ?_)
    | with_reducible refine State.linkError_keeps ?_
    | with_reducible refine State.portEvent_keeps ?_

theorem lnkModeWrite_keeps {z s} {p v} (h : Keeps z s) : Keeps z (lnkModeWrite s p v) := by
  unfold lnkModeWrite
  repeat' first
    | with_reducible assumption
    | with_reducible refine State.setPf_keeps ?_
    | with_reducible refine State.cutAll_keeps ?_
    | with_reducible refine State.portEvent_keeps ?_
    | with_reducible refine State.onPort_keeps ?_

theorem State.pwrAlarm_keeps {z s} {b unit} (h : Keeps z s) : Keeps z (State.pwrAlarm s b unit) := by
  unfold State.pwrAlarm
  repeat' first
    | with_reducible assumption
    | with_reducible refine State.alarm_keeps ?_
    | fail_if_no_progress refine Keeps.upd ?_ (Nat.le_refl _) rfl

theorem State.alarmOff_keeps {z s} {b} (h : Keeps z s) : Keeps z (State.alarmOff s b) := by
  unfold State.alarmOff
  repeat' first
    | with_reducible assumption
    | fail_if_no_progress refine Keeps.upd ?_ (Nat.le_refl _) rfl

theorem State.powerEvent_keeps {z s} {r} (h : Keeps z s) : Keeps z (State.powerEvent s r) := by
  unfold State.powerEvent
  repeat' first
    | with_reducible assumption
    | with_reducible refine State.event_keeps ?_

theorem State.relevel_keeps {z s} {r} (h : Keeps z s) : Keeps z (State.relevel s r) := by
  unfold State.relevel
  repeat' first
    | with_reducible assumption
    | with_reducible refine Keeps.ite ?_ (fun _ => ?_)
    | with_reducible refine State.powerEvent_keeps ?_
    | with_reducible refine State.onRegion_keeps ?_

theorem State.relevels_keeps {z s} (h : Keeps z s) : Keeps z (State.relevels s) := by
  unfold State.relevels
  repeat' first
    | with_reducible assumption
    | with_reducible refine State.relevel_keeps ?_

theorem State.changeClock_keeps {z s} {r} (h : Keeps z s) : Keeps z (State.changeClock s r) := by
  unfold State.changeClock
  repeat' first
    | with_reducible assumption
    | with_reducible refine State.powerEvent_keeps ?_
    | with_reducible refine State.onRegion_keeps ?_
    | split

theorem State.railSettles_keeps {z s} {r} (h : Keeps z s) : Keeps z (State.railSettles s r) := by
  unfold State.railSettles
  repeat' first
    | with_reducible assumption
    | with_reducible refine Keeps.ite ?_ (fun _ => ?_)
    | with_reducible refine State.onRegion_keeps ?_
    | with_reducible refine State.changeClock_keeps ?_

theorem State.stackCeils_keeps {z s} {f x2} (h : Keeps z s) : Keeps z (State.stackCeils s f x2) := by
  induction x2 generalizing s with
  | nil =>
    unfold State.stackCeils
    repeat' first
      | with_reducible assumption
  | cons a0 r0 ih =>
    unfold State.stackCeils
    repeat' first
      | with_reducible assumption
      | with_reducible refine ih ?_
      | with_reducible refine State.onStack_keeps ?_

theorem State.allCeils_keeps {z s} {f} (h : Keeps z s) : Keeps z (State.allCeils s f) := by
  unfold State.allCeils
  repeat' first
    | with_reducible assumption
    | with_reducible refine State.stackCeils_keeps ?_

theorem State.countDown_keeps {z s} (h : Keeps z s) : Keeps z (State.countDown s) := by
  unfold State.countDown
  repeat' first
    | with_reducible assumption
    | fail_if_no_progress refine Keeps.upd ?_ (Nat.le_refl _) rfl

theorem State.capDown_keeps {z s} (h : Keeps z s) : Keeps z (State.capDown s) := by
  unfold State.capDown
  repeat' first
    | with_reducible assumption
    | with_reducible refine State.relevels_keeps ?_
    | split
    | fail_if_no_progress refine Keeps.upd ?_ (Nat.le_refl _) rfl

theorem State.capUp_keeps {z s} (h : Keeps z s) : Keeps z (State.capUp s) := by
  unfold State.capUp
  repeat' first
    | with_reducible assumption
    | with_reducible refine State.relevels_keeps ?_
    | split
    | fail_if_no_progress refine Keeps.upd ?_ (Nat.le_refl _) rfl

theorem State.fastRegion_keeps {z s} {r} (h : Keeps z s) : Keeps z (State.fastRegion s r) := by
  unfold State.fastRegion
  repeat' first
    | with_reducible assumption
    | with_reducible refine Keeps.ite ?_ (fun _ => ?_)
    | with_reducible refine State.relevel_keeps ?_
    | with_reducible refine State.onRegion_keeps ?_

theorem State.fastStacks_keeps {z s} {x1} (h : Keeps z s) : Keeps z (State.fastStacks s x1) := by
  induction x1 generalizing s with
  | nil =>
    unfold State.fastStacks
    repeat' first
      | with_reducible assumption
  | cons a0 r0 ih =>
    unfold State.fastStacks
    repeat' first
      | with_reducible assumption
      | with_reducible refine Keeps.ite ?_ (fun _ => ?_)
      | with_reducible refine ih ?_
      | with_reducible refine State.onStack_keeps ?_

theorem State.fastEnd_keeps {z s} (h : Keeps z s) : Keeps z (State.fastEnd s) := by
  unfold State.fastEnd
  repeat' first
    | with_reducible assumption
    | with_reducible refine State.fastStacks_keeps ?_
    | with_reducible refine State.fastRegion_keeps ?_

theorem State.persist_keeps {z s} (h : Keeps z s) : Keeps z (State.persist s) := by
  unfold State.persist
  repeat' first
    | with_reducible assumption
    | with_reducible refine Keeps.ite ?_ (fun _ => ?_)
    | with_reducible refine State.alarmOff_keeps ?_
    | with_reducible refine State.pwrAlarm_keeps ?_

theorem State.regionFloors_keeps {z s} {x1} (h : Keeps z s) : Keeps z (State.regionFloors s x1) := by
  induction x1 generalizing s with
  | nil =>
    unfold State.regionFloors
    repeat' first
      | with_reducible assumption
  | cons a0 r0 ih =>
    unfold State.regionFloors
    repeat' first
      | with_reducible assumption
      | with_reducible refine ih ?_
      | with_reducible refine State.onRegion_keeps ?_

theorem State.applyBrake_keeps {z s} (h : Keeps z s) : Keeps z (State.applyBrake s) := by
  unfold State.applyBrake
  repeat' first
    | with_reducible assumption
    | with_reducible refine State.pwrAlarm_keeps ?_
    | with_reducible refine State.relevels_keeps ?_
    | fail_if_no_progress refine Keeps.upd ?_ (Nat.le_refl _) rfl

theorem State.postGone_keeps {z s} {n code x3} (h : Keeps z s) : Keeps z (State.postGone s n code x3) := by
  induction x3 generalizing s n code with
  | nil =>
    unfold State.postGone
    repeat' first
      | with_reducible assumption
  | cons a0 r0 ih =>
    unfold State.postGone
    repeat' first
      | with_reducible assumption
      | with_reducible refine ih ?_
      | with_reducible refine State.postAcc_keeps ?_

theorem State.postAll_keeps {z s} {n code} (h : Keeps z s) : Keeps z (State.postAll s n code) := by
  unfold State.postAll
  repeat' first
    | with_reducible assumption
    | with_reducible refine Keeps.ite ?_ (fun _ => ?_)
    | with_reducible refine State.postGone_keeps ?_
    | with_reducible refine State.postRun_keeps ?_
    | with_reducible refine State.status_keeps ?_

theorem State.endContexts_keeps {z s} {code x2} (h : Keeps z s) : Keeps z (State.endContexts s code x2) := by
  induction x2 generalizing s code with
  | nil =>
    unfold State.endContexts
    repeat' first
      | with_reducible assumption
  | cons a0 r0 ih =>
    unfold State.endContexts
    repeat' first
      | with_reducible assumption
      | with_reducible refine ih ?_
      | with_reducible refine State.postAll_keeps ?_
      | with_reducible refine State.detachUpds_keeps ?_
      | with_reducible refine State.removeCtx_keeps ?_
      | with_reducible refine State.onCtx_keeps ?_

theorem State.notices_keeps {z s} {x1} (h : Keeps z s) : Keeps z (State.notices s x1) := by
  induction x1 generalizing s with
  | nil =>
    unfold State.notices
    repeat' first
      | with_reducible assumption
  | cons a0 r0 ih =>
    unfold State.notices
    repeat' first
      | with_reducible assumption
      | with_reducible refine ih ?_
      | with_reducible refine State.sendMembers_keeps ?_

theorem State.stopPorts_keeps {z s} (h : Keeps z s) : Keeps z (State.stopPorts s) := by
  unfold State.stopPorts
  repeat' first
    | with_reducible assumption
    | fail_if_no_progress refine Keeps.upd ?_ (Nat.le_refl _) rfl

theorem State.sleepStacks_keeps {z s} {x1} (h : Keeps z s) : Keeps z (State.sleepStacks s x1) := by
  induction x1 generalizing s with
  | nil =>
    unfold State.sleepStacks
    repeat' first
      | with_reducible assumption
  | cons a0 r0 ih =>
    unfold State.sleepStacks
    repeat' first
      | with_reducible assumption
      | with_reducible refine ih ?_
      | with_reducible refine State.onStack_keeps ?_

theorem State.stopPlls_keeps {z s} {x1} (h : Keeps z s) : Keeps z (State.stopPlls s x1) := by
  induction x1 generalizing s with
  | nil =>
    unfold State.stopPlls
    repeat' first
      | with_reducible assumption
  | cons a0 r0 ih =>
    unfold State.stopPlls
    repeat' first
      | with_reducible assumption
      | with_reducible refine ih ?_
      | with_reducible refine State.onRegion_keeps ?_

theorem State.powerStop_keeps {z s} (h : Keeps z s) : Keeps z (State.powerStop s) := by
  unfold State.powerStop
  repeat' first
    | with_reducible assumption
    | with_reducible refine Keeps.ite ?_ (fun _ => ?_)
    | with_reducible refine State.endContexts_keeps ?_
    | with_reducible refine State.notices_keeps ?_
    | fail_if_no_progress refine Keeps.upd ?_ (Nat.le_refl _) rfl

theorem State.thermalTrip_keeps {z s} (h : Keeps z s) : Keeps z (State.thermalTrip s) := by
  unfold State.thermalTrip
  repeat' first
    | with_reducible assumption
    | with_reducible refine Keeps.ite ?_ (fun _ => ?_)
    | with_reducible refine State.pwrAlarm_keeps ?_
    | with_reducible refine State.powerStop_keeps ?_

theorem State.thermalEnd_keeps {z s} (h : Keeps z s) : Keeps z (State.thermalEnd s) := by
  unfold State.thermalEnd
  repeat' first
    | with_reducible assumption
    | with_reducible refine Keeps.ite ?_ (fun _ => ?_)
    | with_reducible refine State.alarmOff_keeps ?_

theorem State.retireError_keeps {z s} {cause st} (h : Keeps z s) : Keeps z (State.retireError s cause st) := by
  unfold State.retireError
  repeat' first
    | with_reducible assumption
    | with_reducible refine State.logError_keeps ?_
    | with_reducible refine State.drawn_keeps ?_

theorem State.retireRow_keeps {z s} {st row} (h : Keeps z s) : Keeps z (State.retireRow s st row) := by
  unfold State.retireRow
  repeat' first
    | with_reducible assumption
    | with_reducible refine Keeps.ite ?_ (fun _ => ?_)
    | with_reducible refine State.retireError_keeps ?_
    | with_reducible refine State.onStack_keeps ?_

theorem State.retireBank_keeps {z s} {st b} (h : Keeps z s) : Keeps z (State.retireBank s st b) := by
  unfold State.retireBank
  repeat' first
    | with_reducible assumption
    | with_reducible refine Keeps.ite ?_ (fun _ => ?_)
    | with_reducible refine State.onStack_keeps ?_

theorem State.poisonGranule_keeps {z s} {g} (h : Keeps z s) : Keeps z (State.poisonGranule s g) := by
  exact h.updMem (fun i => Ram.wf_write i _ _) id

theorem State.scrubError_keeps {z s} {st f} (h : Keeps z s) : Keeps z (State.scrubError s st f) := by
  unfold State.scrubError
  repeat' first
    | with_reducible assumption
    | with_reducible refine State.logError_keeps ?_
    | with_reducible refine State.drawn_keeps ?_

theorem State.scrubFind_keeps {z s} {st x2} (h : Keeps z s) : Keeps z (State.scrubFind s st x2) := by
  induction x2 generalizing s st with
  | nil =>
    unfold State.scrubFind
    repeat' first
      | with_reducible assumption
  | cons a0 r0 ih =>
    unfold State.scrubFind
    repeat' first
      | with_reducible assumption
      | with_reducible refine Keeps.ite ?_ (fun _ => ?_)
      | with_reducible refine ih ?_
      | with_reducible refine State.meet_keeps ?_
      | with_reducible refine State.scrubError_keeps ?_
      | with_reducible refine State.poisonGranule_keeps ?_

theorem State.scrubRow_keeps {z s} {st row found} (h : Keeps z s) : Keeps z (State.scrubRow s st row found) := by
  unfold State.scrubRow
  repeat' first
    | with_reducible assumption
    | with_reducible refine Keeps.ite ?_ (fun _ => ?_)
    | with_reducible refine State.onStack_keeps ?_
    | with_reducible refine State.retireRow_keeps ?_
    | with_reducible refine State.retireBank_keeps ?_

theorem State.watchWaits_keeps {z s} (h : Keeps z s) : Keeps z (State.watchWaits s) := by
  unfold State.watchWaits
  repeat' first
    | with_reducible assumption
    | fail_if_no_progress refine Keeps.upd ?_ (Nat.le_refl _) rfl

theorem State.noteHang_keeps {z s} {n} (h : Keeps z s) : Keeps z (State.noteHang s n) := by
  unfold State.noteHang
  repeat' first
    | with_reducible assumption
    | with_reducible refine Keeps.ite ?_ (fun _ => ?_)
    | with_reducible refine State.status_keeps ?_

theorem State.noteHangs_keeps {z s} {x1} (h : Keeps z s) : Keeps z (State.noteHangs s x1) := by
  induction x1 generalizing s with
  | nil =>
    unfold State.noteHangs
    repeat' first
      | with_reducible assumption
  | cons a0 r0 ih =>
    unfold State.noteHangs
    repeat' first
      | with_reducible assumption
      | with_reducible refine ih ?_
      | with_reducible refine State.noteHang_keeps ?_

theorem State.hangReport_keeps {z s} {ws} (h : Keeps z s) : Keeps z (State.hangReport s ws) := by
  unfold State.hangReport
  repeat' first
    | with_reducible assumption
    | with_reducible refine State.alarm_keeps ?_
    | fail_if_no_progress refine Keeps.upd ?_ (Nat.le_refl _) rfl

theorem State.hangEvents_keeps {z s} {ms x2} (h : Keeps z s) : Keeps z (State.hangEvents s ms x2) := by
  induction x2 generalizing s ms with
  | nil =>
    unfold State.hangEvents
    repeat' first
      | with_reducible assumption
  | cons a0 r0 ih =>
    unfold State.hangEvents
    repeat' first
      | with_reducible assumption
      | with_reducible refine ih ?_
      | with_reducible refine State.coreEvent_keeps ?_

theorem State.hangAborts_keeps {z s} {x1} (h : Keeps z s) : Keeps z (State.hangAborts s x1) := by
  induction x1 generalizing s with
  | nil =>
    unfold State.hangAborts
    repeat' first
      | with_reducible assumption
  | cons a0 r0 ih =>
    unfold State.hangAborts
    repeat' first
      | with_reducible assumption
      | with_reducible refine ih ?_
      | with_reducible refine State.abortRun_keeps ?_
      | with_reducible refine State.count_keeps ?_

theorem State.reportHang_keeps {z s} {ms} (h : Keeps z s) : Keeps z (State.reportHang s ms) := by
  unfold State.reportHang
  repeat' first
    | with_reducible assumption
    | with_reducible refine State.hangAborts_keeps ?_
    | with_reducible refine State.hangEvents_keeps ?_
    | with_reducible refine State.hangReport_keeps ?_

theorem State.hangs_keeps {z s} {x1} (h : Keeps z s) : Keeps z (State.hangs s x1) := by
  induction x1 generalizing s with
  | zero =>
    unfold State.hangs
    repeat' first
      | with_reducible assumption
  | succ n0 ih =>
    unfold State.hangs
    repeat' first
      | with_reducible assumption
      | lift_lets
      | (intro x; subst x)
      | with_reducible refine ih ?_
      | with_reducible refine State.watchWaits_keeps ?_
      | with_reducible refine State.reportHang_keeps ?_
      | split

theorem State.hangTest_keeps {z s} (h : Keeps z s) : Keeps z (State.hangTest s) := by
  unfold State.hangTest
  repeat' first
    | with_reducible assumption
    | with_reducible refine Keeps.ite ?_ (fun _ => ?_)
    | with_reducible refine State.watchWaits_keeps ?_
    | with_reducible refine State.hangs_keeps ?_

theorem State.emptyContexts_keeps {z s} {x1} (h : Keeps z s) : Keeps z (State.emptyContexts s x1) := by
  induction x1 generalizing s with
  | nil =>
    unfold State.emptyContexts
    repeat' first
      | with_reducible assumption
  | cons a0 r0 ih =>
    unfold State.emptyContexts
    repeat' first
      | with_reducible assumption
      | with_reducible refine ih ?_
      | with_reducible refine State.onCtx_keeps ?_
      | with_reducible refine State.detachUpds_keeps ?_
      | with_reducible refine State.removeCtx_keeps ?_

theorem State.endWork_keeps {z s} {cause} (h : Keeps z s) : Keeps z (State.endWork s cause) := by
  unfold State.endWork
  repeat' first
    | with_reducible assumption
    | with_reducible refine Keeps.ite ?_ (fun _ => ?_)
    | with_reducible refine State.notices_keeps ?_
    | with_reducible refine State.drawn_keeps ?_
    | with_reducible refine State.endContexts_keeps ?_
    | with_reducible refine State.emptyContexts_keeps ?_
    | fail_if_no_progress refine Keeps.upd ?_ (Nat.le_refl _) rfl

theorem State.brakeAgain_keeps {z s} {cause} (h : Keeps z s) : Keeps z (State.brakeAgain s cause) := by
  unfold State.brakeAgain
  repeat' first
    | with_reducible assumption
    | with_reducible refine Keeps.ite ?_ (fun _ => ?_)
    | with_reducible refine State.applyBrake_keeps ?_

theorem State.beginRecovery_keeps {z s} {cause} (h : Keeps z s) : Keeps z (State.beginRecovery s cause) := by
  unfold State.beginRecovery
  repeat' first
    | with_reducible assumption
    | with_reducible refine State.endWork_keeps ?_
    | with_reducible refine State.brakeAgain_keeps ?_
    | with_reducible refine State.alarm_keeps ?_
    | fail_if_no_progress refine Keeps.upd ?_ (Nat.le_refl _) rfl

theorem startRecovery_keeps {z s} {cause} (h : Keeps z s) : Keeps z (startRecovery s cause) := by
  unfold startRecovery
  repeat' first
    | with_reducible assumption
    | lift_lets
    | (intro x; subst x)
    | with_reducible refine State.powerStop_keeps ?_
    | with_reducible refine State.beginRecovery_keeps ?_
    | split

theorem recoveryStart_keeps {z s} (h : Keeps z s) : Keeps z (recoveryStart s) := by
  unfold recoveryStart
  repeat' first
    | with_reducible assumption
    | with_reducible refine Keeps.ite ?_ (fun _ => ?_)
    | with_reducible refine startRecovery_keeps ?_
    | fail_if_no_progress refine Keeps.upd ?_ (Nat.le_refl _) rfl

theorem restartCommand_keeps {z s} (h : Keeps z s) : Keeps z (restartCommand s) := by
  unfold restartCommand
  repeat' first
    | with_reducible assumption
    | with_reducible refine Keeps.ite ?_ (fun _ => ?_)
    | with_reducible refine State.beginRecovery_keeps ?_
    | fail_if_no_progress refine Keeps.upd ?_ (Nat.le_refl _) rfl

theorem State.holdTrace_keeps {z s} {on} (h : Keeps z s) : Keeps z (State.holdTrace s on) := by
  unfold State.holdTrace
  repeat' first
    | with_reducible assumption
    | fail_if_no_progress refine Keeps.upd ?_ (Nat.le_refl _) rfl

theorem State.alarms_keeps {z s} {kind x2} (h : Keeps z s) : Keeps z (State.alarms s kind x2) := by
  induction x2 generalizing s kind with
  | nil =>
    unfold State.alarms
    repeat' first
      | with_reducible assumption
  | cons a0 r0 ih =>
    unfold State.alarms
    repeat' first
      | with_reducible assumption
      | with_reducible refine ih ?_
      | with_reducible refine State.alarm_keeps ?_

theorem State.resetDies_keeps {z s} (h : Keeps z s) : Keeps z (State.resetDies s) := by
  unfold State.resetDies
  repeat' first
    | with_reducible assumption
    | fail_if_no_progress refine Keeps.upd ?_ (Nat.le_refl _) rfl

theorem State.bootNew_keeps {z s} (h : Keeps z s) : Keeps z (State.bootNew s) := by
  unfold State.bootNew
  repeat' first
    | with_reducible assumption
    | with_reducible refine Keeps.ite ?_ (fun _ => ?_)
    | fail_if_no_progress refine Keeps.upd ?_ (Nat.le_refl _) rfl

theorem State.pllsOn_keeps {z s} {x1} (h : Keeps z s) : Keeps z (State.pllsOn s x1) := by
  induction x1 generalizing s with
  | nil =>
    unfold State.pllsOn
    repeat' first
      | with_reducible assumption
  | cons a0 r0 ih =>
    unfold State.pllsOn
    repeat' first
      | with_reducible assumption
      | with_reducible refine ih ?_
      | with_reducible refine State.onRegion_keeps ?_

theorem State.clocksOn_keeps {z s} (h : Keeps z s) : Keeps z (State.clocksOn s) := by
  unfold State.clocksOn
  repeat' first
    | with_reducible assumption
    | fail_if_no_progress refine Keeps.upd ?_ (Nat.le_refl _) rfl

theorem State.trainPorts_keeps {z s} {x1} (h : Keeps z s) : Keeps z (State.trainPorts s x1) := by
  induction x1 generalizing s with
  | nil =>
    unfold State.trainPorts
    repeat' first
      | with_reducible assumption
  | cons a0 r0 ih =>
    unfold State.trainPorts
    repeat' first
      | with_reducible assumption
      | with_reducible refine ih ?_
      | with_reducible refine State.onPort_keeps ?_

theorem State.railsGood_keeps {z s} (h : Keeps z s) : Keeps z (State.railsGood s) := by
  unfold State.railsGood
  repeat' first
    | with_reducible assumption
    | fail_if_no_progress refine Keeps.upd ?_ (Nat.le_refl _) rfl

theorem State.unsleep_keeps {z s} {x1} (h : Keeps z s) : Keeps z (State.unsleep s x1) := by
  induction x1 generalizing s with
  | nil =>
    unfold State.unsleep
    repeat' first
      | with_reducible assumption
  | cons a0 r0 ih =>
    unfold State.unsleep
    repeat' first
      | with_reducible assumption
      | with_reducible refine ih ?_
      | with_reducible refine State.onStack_keeps ?_

theorem State.writeResult_keeps {z s} {ms} (h : Keeps z s) : Keeps z (State.writeResult s ms) := by
  unfold State.writeResult
  repeat' first
    | with_reducible assumption
    | fail_if_no_progress refine Keeps.upd ?_ (Nat.le_refl _) rfl

theorem State.serve_keeps {z s} (h : Keeps z s) : Keeps z (State.serve s) := by
  unfold State.serve
  repeat' first
    | with_reducible assumption
    | with_reducible refine Keeps.ite ?_ (fun _ => ?_)
    | with_reducible refine State.applyBrake_keeps ?_
    | fail_if_no_progress refine Keeps.upd ?_ (Nat.le_refl _) rfl

theorem State.postKept_keeps {z s} {x1} (h : Keeps z s) : Keeps z (State.postKept s x1) := by
  induction x1 generalizing s with
  | nil =>
    unfold State.postKept
    repeat' first
      | with_reducible assumption
  | cons a0 r0 ih =>
    unfold State.postKept
    repeat' first
      | with_reducible assumption
      | with_reducible refine Keeps.ite ?_ (fun _ => ?_)
      | with_reducible refine ih ?_
      | with_reducible refine State.post_keeps ?_
      | with_reducible refine State.drawn_keeps ?_

theorem State.newEpochs_keeps {z s} {x1} (h : Keeps z s) : Keeps z (State.newEpochs s x1) := by
  induction x1 generalizing s with
  | nil =>
    unfold State.newEpochs
    repeat' first
      | with_reducible assumption
  | cons a0 r0 ih =>
    unfold State.newEpochs
    repeat' first
      | with_reducible assumption
      | with_reducible refine ih ?_
      | with_reducible refine State.advanceEpoch_keeps ?_

theorem State.restartRing_keeps {z s} (h : Keeps z s) : Keeps z (State.restartRing s) := by
  unfold State.restartRing
  dsimp only
  exact State.alarm_keeps (State.pushRec_keeps (h.updErr (fun i => ⟨i.2.1, i.2.1, i.2.2⟩)))

theorem State.recovered_keeps {z s} (h : Keeps z s) : Keeps z (State.recovered s) := by
  unfold State.recovered
  repeat' first
    | with_reducible assumption
    | with_reducible refine State.newEpochs_keeps ?_
    | with_reducible refine State.restartRing_keeps ?_
    | with_reducible refine State.postKept_keeps ?_
    | with_reducible refine State.serve_keeps ?_
    | fail_if_no_progress refine Keeps.upd ?_ (Nat.le_refl _) rfl

theorem State.unpowered_keeps {z s} (h : Keeps z s) : Keeps z (State.unpowered s) :=
  ⟨h.pending, h.free, h.minVer, fun _ => rfl⟩

theorem State.railsLost_keeps {z s} (h : Keeps z s) : Keeps z (State.railsLost s) := by
  unfold State.railsLost
  repeat' first
    | with_reducible assumption
    | fail_if_no_progress refine Keeps.upd ?_ (Nat.le_refl _) rfl

theorem State.placeCores_keeps {z s} {r x2} (h : Keeps z s) : Keeps z (State.placeCores s r x2) := by
  induction x2 generalizing s r with
  | nil =>
    unfold State.placeCores
    repeat' first
      | with_reducible assumption
  | cons a0 r0 ih =>
    unfold State.placeCores
    repeat' first
      | with_reducible assumption
      | with_reducible refine ih ?_
      | with_reducible refine State.setCore_keeps ?_

theorem State.failCores_keeps {z s} {x1} (h : Keeps z s) : Keeps z (State.failCores s x1) := by
  induction x1 generalizing s with
  | nil =>
    unfold State.failCores
    repeat' first
      | with_reducible assumption
  | cons a0 r0 ih =>
    unfold State.failCores
    repeat' first
      | with_reducible assumption
      | with_reducible refine ih ?_
      | with_reducible refine State.setCore_keeps ?_

theorem State.mapRegion_keeps {z s} {bad r} (h : Keeps z s) : Keeps z (State.mapRegion s bad r) := by
  unfold State.mapRegion
  repeat' first
    | with_reducible assumption
    | with_reducible refine Keeps.ite ?_ (fun _ => ?_)
    | with_reducible refine State.placeCores_keeps ?_
    | with_reducible refine State.failCores_keeps ?_

theorem State.mapCores_keeps {z s} (h : Keeps z s) : Keeps z (State.mapCores s) := by
  unfold State.mapCores
  repeat' first
    | with_reducible assumption
    | with_reducible refine State.mapRegion_keeps ?_

theorem State.started_keeps {z s} (h : Keeps z s) : Keeps z (State.started s) := by
  unfold State.started
  repeat' first
    | with_reducible assumption
    | with_reducible refine State.serve_keeps ?_
    | with_reducible refine State.writeResult_keeps ?_
    | with_reducible refine State.mapCores_keeps ?_

theorem Belv.minVer_logFailed (b : Belv) (l : List Nat) (now : Nat) : (b.logFailed l now).minVer = b.minVer := by
  induction l generalizing b with
  | nil => rfl
  | cons c r ih => exact ih (b.logEntry (.failedCore c) now)

theorem State.stageWork_keeps {z s} {x1 bad} (h : Keeps z s) : Keeps z (State.stageWork s x1 bad) := by
  unfold State.stageWork
  split
  · exact State.railsGood_keeps h
  · exact State.trainPorts_keeps (State.clocksOn_keeps h)
  · exact h.upd (Nat.le_refl _) (Belv.minVer_logFailed _ _ _)
  · exact State.started_keeps h
  · exact h

theorem State.endStage_keeps {z s} {g bad} (h : Keeps z s) : Keeps z (State.endStage s g bad) := by
  unfold State.endStage
  repeat' first
    | with_reducible assumption
    | with_reducible refine State.stageWork_keeps ?_
    | fail_if_no_progress refine Keeps.upd ?_ (Nat.le_refl _) rfl

theorem State.failStage_keeps {z s} {code} (h : Keeps z s) : Keeps z (State.failStage s code) := by
  unfold State.failStage
  repeat' first
    | with_reducible assumption
    | fail_if_no_progress refine Keeps.upd ?_ (Nat.le_refl _) rfl

theorem State.bootSlotOf_keeps {z s} {x} (h : Keeps z s) : Keeps z (State.bootSlotOf s x) := by
  have hb : Keeps z (({ s with
      belv := { s.belv.setSlot x { s.belv.slot x with fails := 0 } with
        activeB := x, running := true, rom := false, bootTick := s.time, runVer := s.belv.version x, newImage := false, restarted := false }
      dev := { s.dev with bootSlot := b2n x } } : State).logIn (.firmware 0 (b2n x))) := by
    refine State.logIn_keeps (h.upd (Nat.le_refl _) ?_)
    cases x <;> rfl
  unfold State.bootSlotOf
  dsimp only
  split
  · exact State.alarm_keeps hb
  · exact hb

theorem State.setHolder_keeps {z s} {res who} (h : Keeps z s) : Keeps z (State.setHolder s res who) := by
  unfold State.setHolder
  repeat' first
    | with_reducible assumption
    | fail_if_no_progress refine Keeps.upd ?_ (Nat.le_refl _) rfl

theorem State.claimFor_keeps {z s} {who res} (h : Keeps z s) : Keeps z (State.claimFor s who res).1 := by
  unfold State.claimFor
  repeat' first
    | with_reducible assumption
    | with_reducible refine State.setHolder_keeps ?_
    | split

theorem State.releaseFor_keeps {z s} {who res} (h : Keeps z s) : Keeps z (State.releaseFor s who res).1 := by
  unfold State.releaseFor
  repeat' first
    | with_reducible assumption
    | with_reducible refine State.setHolder_keeps ?_
    | split

theorem claimCmd_keeps {z s} {res claim} (h : Keeps z s) : Keeps z (claimCmd s res claim) := by
  unfold claimCmd
  repeat' first
    | with_reducible assumption
    | with_reducible refine State.claimFor_keeps ?_
    | with_reducible refine State.releaseFor_keeps ?_
    | split
    | fail_if_no_progress refine Keeps.upd ?_ (Nat.le_refl _) rfl

theorem State.pulse_keeps {z s} {g} (h : Keeps z s) : Keeps z (State.pulse s g) := by
  unfold State.pulse
  repeat' first
    | with_reducible assumption
    | with_reducible refine Keeps.ite ?_ (fun _ => ?_)
    | fail_if_no_progress refine Keeps.upd ?_ (Nat.le_refl _) rfl

theorem State.ibi_keeps {z s} (h : Keeps z s) : Keeps z (State.ibi s) := by
  unfold State.ibi
  repeat' first
    | with_reducible assumption
    | fail_if_no_progress refine Keeps.upd ?_ (Nat.le_refl _) rfl

theorem mboxGo_keeps {z s} (h : Keeps z s) : Keeps z (mboxGo s) := by
  unfold mboxGo
  repeat' first
    | with_reducible assumption
    | with_reducible refine Keeps.ite ?_ (fun _ => ?_)
    | fail_if_no_progress refine Keeps.upd ?_ (Nat.le_refl _) rfl

theorem traceEnable_keeps {z s} (h : Keeps z s) : Keeps z (traceEnable s) := by
  unfold traceEnable
  repeat' first
    | with_reducible assumption
    | with_reducible refine Keeps.ite ?_ (fun _ => ?_)
    | with_reducible refine State.setPf_keeps ?_
    | with_reducible refine State.writeDropped_keeps ?_

theorem State.snapEvents_keeps {z s} {src x2} (h : Keeps z s) : Keeps z (State.snapEvents s src x2) := by
  induction x2 generalizing s src with
  | nil =>
    unfold State.snapEvents
    repeat' first
      | with_reducible assumption
  | cons a0 r0 ih =>
    unfold State.snapEvents
    repeat' first
      | with_reducible assumption
      | with_reducible refine ih ?_
      | with_reducible refine State.traceModule_keeps ?_
      | with_reducible refine State.drawn_keeps ?_

theorem traceSnap_keeps {z s} {ty unit} (h : Keeps z s) : Keeps z (traceSnap s ty unit) := by
  unfold traceSnap
  repeat' first
    | with_reducible assumption
    | with_reducible refine State.setPf_keeps ?_
    | with_reducible refine State.snapEvents_keeps ?_

theorem traceBuf_keeps {z s} {v} (h : Keeps z s) : Keeps z (traceBuf s v) := by
  unfold traceBuf
  repeat' first
    | with_reducible assumption
    | with_reducible refine State.setPf_keeps ?_

theorem State.store_keeps {z s} {off m v} (h : Keeps z s) : Keeps z (State.store s off m v) := by
  unfold State.store
  repeat' first
    | with_reducible assumption
    | with_reducible refine State.setPf_keeps ?_

theorem writeDev_keeps {z s} {off v} (h : Keeps z s) : Keeps z (writeDev s off v) := by
  unfold writeDev
  repeat' first
    | with_reducible assumption
    | with_reducible refine State.store_keeps ?_
    | with_reducible refine recoveryStart_keeps ?_
    | split

theorem doorbellWrite_keeps {z s} {fn v} (h : Keeps z s) : Keeps z (doorbellWrite s fn v) := by
  unfold doorbellWrite
  repeat' first
    | with_reducible assumption
    | with_reducible refine Keeps.ite ?_ (fun _ => ?_)
    | with_reducible refine completionHead_keeps ?_
    | with_reducible refine submissionTail_keeps ?_

theorem writeSched_keeps {z s} {off v} (h : Keeps z s) : Keeps z (writeSched s off v) := by
  unfold writeSched
  repeat' first
    | with_reducible assumption
    | with_reducible refine hcmdWrite_keeps ?_
    | with_reducible refine State.setPf_keeps ?_
    | with_reducible refine doorbellWrite_keeps ?_
    | with_reducible refine State.store_keeps ?_
    | with_reducible refine State.onCtx_keeps ?_
    | split

theorem writePwr_keeps {z s} {who off v} (h : Keeps z s) : Keeps z (writePwr s who off v) := by
  unfold writePwr
  repeat' first
    | with_reducible assumption
    | with_reducible refine restartCommand_keeps ?_
    | split
    | fail_if_no_progress refine Keeps.upd ?_ (Nat.le_refl _) rfl

theorem errTail_keeps {z s} {v} (h : Keeps z s) : Keeps z (errTail s v) :=
  h.updErr (fun i => ⟨i.1, Nat.mod_lt _ (by decide), i.2.2⟩)

theorem writeErr_keeps {z s} {off v} (h : Keeps z s) : Keeps z (writeErr s off v) := by
  unfold writeErr
  split
  · exact errTail_keeps h
  · refine Keeps.updErr h (fun i => ⟨i.1, i.2.1, ?_⟩)
    have := i.2.2
    have hle : (BitVec.ofNat 64 s.err.dropped &&& ~~~v).toNat ≤ (BitVec.ofNat 64 s.err.dropped).toNat := by
      rw [BitVec.toNat_and]
      exact Nat.and_le_left
    have : (BitVec.ofNat 64 s.err.dropped).toNat ≤ s.err.dropped := by
      rw [BitVec.toNat_ofNat]
      exact Nat.mod_le _ _
    show (BitVec.ofNat 64 s.err.dropped &&& ~~~v).toNat < 2 ^ 32
    omega
  · exact h

theorem State.notePart_keeps {z s} {p i v} (h : Keeps z s) : Keeps z (State.notePart s p i v) := by
  unfold State.notePart
  repeat' first
    | with_reducible assumption
    | with_reducible refine Keeps.ite ?_ (fun _ => ?_)
    | with_reducible refine State.writeDropped_keeps ?_

theorem writeSets_keeps {z s} {p i v} (h : Keeps z s) : Keeps z (writeSets s p i v) := by
  unfold writeSets
  repeat' first
    | with_reducible assumption
    | with_reducible refine Keeps.ite ?_ (fun _ => ?_)
    | with_reducible refine State.writeDropped_keeps ?_
    | with_reducible refine State.dropDirectory_keeps ?_
    | with_reducible refine State.setPf_keeps ?_

theorem writePart_keeps {z s} {p i v} (h : Keeps z s) : Keeps z (writePart s p i v) := by
  unfold writePart
  repeat' first
    | with_reducible assumption
    | lift_lets
    | (intro x; subst x)
    | with_reducible refine State.notePart_keeps ?_
    | with_reducible refine State.writeDropped_keeps ?_
    | with_reducible refine State.setPf_keeps ?_
    | with_reducible refine writeSets_keeps ?_
    | with_reducible refine State.setGrants_keeps ?_
    | with_reducible refine jobApply_keeps ?_
    | with_reducible refine jobUnbind_keeps ?_
    | split

theorem writeStack_keeps {z s} {off v} (h : Keeps z s) : Keeps z (writeStack s off v) := by
  unfold writeStack
  repeat' first
    | with_reducible assumption
    | with_reducible refine Keeps.ite ?_ (fun _ => ?_)
    | with_reducible refine State.store_keeps ?_
    | with_reducible refine State.setPf_keeps ?_

theorem writeCore_keeps {z s} {off v} (h : Keeps z s) : Keeps z (writeCore s off v) := by
  unfold writeCore
  repeat' first
    | with_reducible assumption
    | with_reducible refine Keeps.ite ?_ (fun _ => ?_)
    | with_reducible refine State.store_keeps ?_
    | with_reducible refine selfTest_keeps ?_

theorem writeQpool_keeps {z s} {off v} (h : Keeps z s) : Keeps z (writeQpool s off v) := by
  unfold writeQpool
  repeat' first
    | with_reducible assumption
    | with_reducible refine Keeps.ite ?_ (fun _ => ?_)
    | with_reducible refine queueDisable_keeps ?_
    | with_reducible refine queueConfigure_keeps ?_
    | with_reducible refine queueFlush_keeps ?_

theorem writeTrace_keeps {z s} {off v} (h : Keeps z s) : Keeps z (writeTrace s off v) := by
  unfold writeTrace
  repeat' first
    | with_reducible assumption
    | with_reducible refine State.writeDropped_keeps ?_
    | with_reducible refine State.store_keeps ?_
    | with_reducible refine traceSnap_keeps ?_
    | with_reducible refine traceBuf_keeps ?_
    | with_reducible refine State.setPf_keeps ?_
    | split

theorem writePins_keeps {z s} {who v} (h : Keeps z s) : Keeps z (writePins s who v) := by
  unfold writePins
  repeat' first
    | with_reducible assumption
    | with_reducible refine Keeps.ite ?_ (fun _ => ?_)
    | with_reducible refine State.setPf_keeps ?_
    | with_reducible refine State.writeDropped_keeps ?_

theorem writeMbox_keeps {z s} {who off v} (h : Keeps z s) : Keeps z (writeMbox s who off v) := by
  unfold writeMbox
  repeat' first
    | with_reducible assumption
    | with_reducible refine Keeps.ite ?_ (fun _ => ?_)
    | with_reducible refine mboxGo_keeps ?_
    | with_reducible refine claimCmd_keeps ?_
    | with_reducible refine writePins_keeps ?_
    | with_reducible refine State.writeDropped_keeps ?_
    | fail_if_no_progress refine Keeps.upd ?_ (Nat.le_refl _) rfl

theorem pfWrite_keeps {z s} {who off v} (h : Keeps z s) : Keeps z (pfWrite s who off v) := by
  unfold pfWrite
  repeat' first
    | with_reducible assumption
    | with_reducible refine Keeps.ite ?_ (fun _ => ?_)
    | with_reducible refine writeDev_keeps ?_
    | with_reducible refine writeSched_keeps ?_
    | with_reducible refine writePwr_keeps ?_
    | with_reducible refine writeErr_keeps ?_
    | with_reducible refine writePart_keeps ?_
    | with_reducible refine State.setPf_keeps ?_
    | with_reducible refine lnkModeWrite_keeps ?_
    | with_reducible refine writeStack_keeps ?_
    | with_reducible refine writeCore_keeps ?_
    | with_reducible refine writeQpool_keeps ?_
    | with_reducible refine State.store_keeps ?_
    | with_reducible refine writeTrace_keeps ?_
    | with_reducible refine writeMbox_keeps ?_

theorem State.mboxAnswer_keeps {z s} (h : Keeps z s) : Keeps z (State.mboxAnswer s) := by
  unfold State.mboxAnswer
  repeat' first
    | with_reducible assumption
    | with_reducible refine Keeps.ite ?_ (fun _ => ?_)
    | with_reducible refine State.drawn_keeps ?_
    | with_reducible refine State.interrupt_keeps ?_
    | fail_if_no_progress refine Keeps.upd ?_ (Nat.le_refl _) rfl

theorem State.answer_keeps {z s} {via ty cmd code body} (h : Keeps z s) : Keeps z (State.answer s via ty cmd code body) := by
  unfold State.answer
  repeat' first
    | with_reducible assumption
    | with_reducible refine State.mboxAnswer_keeps ?_
    | split
    | fail_if_no_progress refine Keeps.upd ?_ (Nat.le_refl _) rfl

theorem State.discardMsg_keeps {z s} (h : Keeps z s) : Keeps z (State.discardMsg s) := by
  unfold State.discardMsg
  repeat' first
    | with_reducible assumption
    | fail_if_no_progress refine Keeps.upd ?_ (Nat.le_refl _) rfl

theorem serveMsg_keeps {z s} {via inRom k} (h : Keeps z s) (hk : ∀ b0, Keeps z b0 → Keeps z (k b0)) : Keeps z (serveMsg s via inRom k) := by
  unfold serveMsg
  repeat' first
    | with_reducible assumption
    | with_reducible refine hk _ ?_
    | with_reducible refine State.discardMsg_keeps ?_
    | split

theorem mctp_keeps {z s} {via cmd body} (h : Keeps z s) : Keeps z (mctp s via cmd body) := by
  unfold mctp
  repeat' first
    | with_reducible assumption
    | with_reducible refine serveMsg_keeps ?_ (fun _ _ => ?_)
    | with_reducible refine State.answer_keeps ?_
    | with_reducible refine State.drawn_keeps ?_

theorem sensorAnswer_keeps {z s} {via cmd id body} (h : Keeps z s) : Keeps z (sensorAnswer s via cmd id body) := by
  unfold sensorAnswer
  repeat' first
    | with_reducible assumption
    | with_reducible refine Keeps.ite ?_ (fun _ => ?_)
    | with_reducible refine serveMsg_keeps ?_ (fun _ _ => ?_)
    | with_reducible refine State.answer_keeps ?_
    | with_reducible refine State.drawn_keeps ?_

theorem State.setInactive_keeps {z s} {x} (h : Keeps z s) : Keeps z (State.setInactive s x) := by
  refine Keeps.upd h (Nat.le_refl _) ?_
  unfold Belv.setSlot
  split <;> rfl

theorem State.setUpd_keeps {z s} {u} (h : Keeps z s) : Keeps z (State.setUpd s u) := by
  unfold State.setUpd
  repeat' first
    | with_reducible assumption
    | fail_if_no_progress refine Keeps.upd ?_ (Nat.le_refl _) rfl

theorem inUpdate_keeps {z s} {via cmd want k} (h : Keeps z s) (hk : ∀ b0, Keeps z b0 → Keeps z (k b0)) : Keeps z (inUpdate s via cmd want k) := by
  unfold inUpdate
  repeat' first
    | with_reducible assumption
    | with_reducible refine Keeps.ite ?_ (fun _ => ?_)
    | with_reducible refine hk _ ?_
    | with_reducible refine serveMsg_keeps ?_ (fun _ _ => ?_)
    | with_reducible refine State.answer_keeps ?_

theorem spdm_keeps {z s} {via cmd need got ok body} (h : Keeps z s) : Keeps z (spdm s via cmd need got ok body) := by
  unfold spdm
  repeat' first
    | with_reducible assumption
    | with_reducible refine Keeps.ite ?_ (fun _ => ?_)
    | with_reducible refine serveMsg_keeps ?_ (fun _ _ => ?_)
    | with_reducible refine State.answer_keeps ?_
    | with_reducible refine State.drawn_keeps ?_
    | fail_if_no_progress refine Keeps.upd ?_ (Nat.le_refl _) rfl

theorem vendor_keeps {z s} {via k} (h : Keeps z s) (hk : ∀ b0, Keeps z b0 → Keeps z (k b0)) : Keeps z (vendor s via k) := by
  unfold vendor
  repeat' first
    | with_reducible assumption
    | with_reducible refine hk _ ?_
    | with_reducible refine serveMsg_keeps ?_ (fun _ _ => ?_)

theorem State.reply_keeps {z s} {via cmd code body} (h : Keeps z s) : Keeps z (State.reply s via cmd code body) := by
  unfold State.reply
  repeat' first
    | with_reducible assumption
    | with_reducible refine State.answer_keeps ?_

theorem regCommand_keeps {z s} {via cmd off k} (h : Keeps z s) (hk : ∀ b0, Keeps z b0 → Keeps z (k b0)) : Keeps z (regCommand s via cmd off k) := by
  unfold regCommand
  repeat' first
    | with_reducible assumption
    | with_reducible refine Keeps.ite ?_ (fun _ => ?_)
    | with_reducible refine hk _ ?_
    | with_reducible refine vendor_keeps ?_ (fun _ _ => ?_)
    | with_reducible refine State.reply_keeps ?_

theorem State.logReads_keeps {z s} {via n} (h : Keeps z s) : Keeps z (State.logReads s via n) := by
  unfold State.logReads
  repeat' first
    | with_reducible assumption
    | with_reducible refine Keeps.ite ?_ (fun _ => ?_)
    | fail_if_no_progress refine Keeps.upd ?_ (Nat.le_refl _) rfl

theorem forceRelease_keeps {z s} {via res} (h : Keeps z s) : Keeps z (forceRelease s via res) := by
  unfold forceRelease
  repeat' first
    | with_reducible assumption
    | with_reducible refine Keeps.ite ?_ (fun _ => ?_)
    | with_reducible refine State.reply_keeps ?_
    | fail_if_no_progress refine Keeps.upd ?_ (Nat.le_refl _) rfl

theorem State.dropRings_keeps {z s} {x1} (h : Keeps z s) : Keeps z (State.dropRings s x1) := by
  induction x1 generalizing s with
  | nil =>
    unfold State.dropRings
    repeat' first
      | with_reducible assumption
  | cons a0 r0 ih =>
    unfold State.dropRings
    repeat' first
      | with_reducible assumption
      | with_reducible refine ih ?_
      | with_reducible refine State.onCtx_keeps ?_

theorem State.clearWindow_keeps {z s} {fn} (h : Keeps z s) : Keeps z (State.clearWindow s fn) := by
  unfold State.clearWindow
  repeat' first
    | with_reducible assumption
    | with_reducible refine Keeps.ite ?_ (fun _ => ?_)
    | fail_if_no_progress refine Keeps.upd ?_ (Nat.le_refl _) rfl

theorem funcReset_keeps {z s} {fn} (h : Keeps z s) : Keeps z (funcReset s fn) := by
  unfold funcReset
  repeat' first
    | with_reducible assumption
    | with_reducible refine State.clearWindow_keeps ?_
    | with_reducible refine State.dropRings_keeps ?_
    | with_reducible refine State.beginResets_keeps ?_
    | with_reducible refine State.noteHangs_keeps ?_

theorem State.funcResets_keeps {z s} {x1} (h : Keeps z s) : Keeps z (State.funcResets s x1) := by
  induction x1 generalizing s with
  | nil =>
    unfold State.funcResets
    repeat' first
      | with_reducible assumption
  | cons a0 r0 ih =>
    unfold State.funcResets
    repeat' first
      | with_reducible assumption
      | with_reducible refine ih ?_
      | with_reducible refine funcReset_keeps ?_

theorem State.endpointReset_keeps {z s} (h : Keeps z s) : Keeps z (State.endpointReset s) := by
  unfold State.endpointReset
  repeat' first
    | with_reducible assumption
    | fail_if_no_progress refine Keeps.upd ?_ (Nat.le_refl _) rfl

theorem State.vfStore_keeps {z s} {fn off m v} (h : Keeps z s) : Keeps z (State.vfStore s fn off m v) := by
  unfold State.vfStore
  repeat' first
    | with_reducible assumption
    | with_reducible refine State.setVf_keeps ?_

theorem vfAct_keeps {z s} {fn off v} (h : Keeps z s) : Keeps z (vfAct s fn off v) := by
  unfold vfAct
  repeat' first
    | with_reducible assumption
    | with_reducible refine Keeps.ite ?_ (fun _ => ?_)
    | with_reducible refine State.setVf_keeps ?_
    | with_reducible refine doorbellWrite_keeps ?_
    | with_reducible refine State.vfStore_keeps ?_
    | with_reducible refine sigObjWrite_keeps ?_

theorem vfWrite_keeps {z s} {fn off v} (h : Keeps z s) : Keeps z (vfWrite s fn off v) := by
  unfold vfWrite
  repeat' first
    | with_reducible assumption
    | with_reducible refine State.violate_keeps ?_
    | with_reducible refine vfAct_keeps ?_
    | split

theorem vfRead_keeps {z s} {fn off size} (h : Keeps z s) : Keeps z (vfRead s fn off size).1 := by
  unfold vfRead
  repeat' first
    | with_reducible assumption
    | with_reducible refine State.violate_keeps ?_
    | with_reducible refine State.writeDropped_keeps ?_
    | split

theorem pfRegRead_keeps {z s} {off size} (h : Keeps z s) : Keeps z (pfRegRead s off size).1 := by
  unfold pfRegRead
  repeat' first
    | with_reducible assumption
    | with_reducible refine State.writeDropped_keeps ?_
    | split

theorem State.badAccess_keeps {z s} {fn off} (h : Keeps z s) : Keeps z (State.badAccess s fn off) := by
  unfold State.badAccess
  repeat' first
    | with_reducible assumption
    | with_reducible refine Keeps.ite ?_ (fun _ => ?_)
    | with_reducible refine State.writeDropped_keeps ?_
    | with_reducible refine State.violate_keeps ?_

theorem State.poisonedTlp_keeps {z s} (h : Keeps z s) : Keeps z (State.poisonedTlp s) := by
  unfold State.poisonedTlp
  repeat' first
    | with_reducible assumption
    | fail_if_no_progress refine Keeps.upd ?_ (Nat.le_refl _) rfl

theorem State.countPreempt_keeps {z s} {x1} (h : Keeps z s) : Keeps z (State.countPreempt s x1) := by
  induction x1 generalizing s with
  | nil =>
    unfold State.countPreempt
    repeat' first
      | with_reducible assumption
  | cons a0 r0 ih =>
    unfold State.countPreempt
    repeat' first
      | with_reducible assumption
      | with_reducible refine Keeps.ite ?_ (fun _ => ?_)
      | with_reducible refine ih ?_
      | with_reducible refine State.countPart_keeps ?_

theorem State.actHold_keeps {z s} {n x2} (h : Keeps z s) : Keeps z (State.actHold s n x2) := by
  induction x2 generalizing s n with
  | nil =>
    unfold State.actHold
    repeat' first
      | with_reducible assumption
  | cons a0 r0 ih =>
    unfold State.actHold
    repeat' first
      | with_reducible assumption
      | with_reducible refine ih ?_
      | with_reducible refine State.act_keeps ?_

theorem State.countHeld_keeps {z s} {x1} (h : Keeps z s) : Keeps z (State.countHeld s x1) := by
  induction x1 generalizing s with
  | nil =>
    unfold State.countHeld
    repeat' first
      | with_reducible assumption
  | cons a0 r0 ih =>
    unfold State.countHeld
    repeat' first
      | with_reducible assumption
      | with_reducible refine ih ?_
      | with_reducible refine State.actHold_keeps ?_
      | with_reducible refine State.count_keeps ?_

theorem State.countQueues_keeps {z s} {r x2} (h : Keeps z s) : Keeps z (State.countQueues s r x2) := by
  induction x2 generalizing s r with
  | nil =>
    unfold State.countQueues
    repeat' first
      | with_reducible assumption
  | cons a0 r0 ih =>
    unfold State.countQueues
    repeat' first
      | with_reducible assumption
      | with_reducible refine ih ?_
      | with_reducible refine State.countCell_keeps ?_

theorem State.regionTick_keeps {z s} {r} (h : Keeps z s) : Keeps z (State.regionTick s r) := by
  unfold State.regionTick
  repeat' first
    | with_reducible assumption
    | with_reducible refine State.onRegion_keeps ?_
    | with_reducible refine State.countQueues_keeps ?_
    | with_reducible refine State.drawn_keeps ?_

theorem State.regionTicks_keeps {z s} {x1} (h : Keeps z s) : Keeps z (State.regionTicks s x1) := by
  induction x1 generalizing s with
  | nil =>
    unfold State.regionTicks
    repeat' first
      | with_reducible assumption
  | cons a0 r0 ih =>
    unfold State.regionTicks
    repeat' first
      | with_reducible assumption
      | with_reducible refine ih ?_
      | with_reducible refine State.regionTick_keeps ?_

theorem State.fabricTick_keeps {z s} (h : Keeps z s) : Keeps z (State.fabricTick s) := by
  unfold State.fabricTick
  repeat' first
    | with_reducible assumption
    | fail_if_no_progress refine Keeps.upd ?_ (Nat.le_refl _) rfl

theorem State.logTick_keeps {z s} (h : Keeps z s) : Keeps z (State.logTick s) := by
  unfold State.logTick
  repeat' first
    | with_reducible assumption
    | split
    | fail_if_no_progress refine Keeps.upd ?_ (Nat.le_refl _) rfl

theorem tick_keeps {z s} (h : Keeps z s) : Keeps z (tick s) := by
  unfold tick
  repeat' first
    | with_reducible assumption
    | with_reducible refine Keeps.ite ?_ (fun _ => ?_)
    | with_reducible refine State.portTicks_keeps ?_
    | with_reducible refine State.moveAll_keeps ?_
    | with_reducible refine State.countHeld_keeps ?_
    | with_reducible refine State.countPreempt_keeps ?_
    | with_reducible refine State.releaseCredits_keeps ?_
    | with_reducible refine State.regionTicks_keeps ?_
    | with_reducible refine State.strike_keeps ?_
    | with_reducible refine State.errRoll_keeps ?_
    | with_reducible refine State.logTick_keeps ?_
    | with_reducible refine State.renewWatch_keeps ?_
    | fail_if_no_progress refine Keeps.upd ?_ (Nat.le_refl _) rfl

end Sys2Proof.Machine
end

