-- ==== Sys2Proof/Laws/KeepsExec.lean ====
section
/-! SUPPORT. `Keeps` for the meaning of every command but SECURITY_VERSION_RAISE. -/

namespace Sys2Proof.Machine

theorem execSqLi_keeps {z t} {c sD imm} (e : execSqLi c sD imm z = .next t) : Keeps z t := by
  unfold execSqLi at e
  injection e with e
  subst e
  have h := Keeps.refl z
  repeat' first
    | with_reducible assumption
    | with_reducible refine scalar_keeps ?_

theorem execSqAdd_keeps {z t} {c f} (e : execSqAdd c f z = .next t) : Keeps z t := by
  unfold execSqAdd at e
  injection e with e
  subst e
  have h := Keeps.refl z
  repeat' first
    | with_reducible assumption
    | with_reducible refine alu_keeps ?_

theorem execSqSub_keeps {z t} {c f} (e : execSqSub c f z = .next t) : Keeps z t := by
  unfold execSqSub at e
  injection e with e
  subst e
  have h := Keeps.refl z
  repeat' first
    | with_reducible assumption
    | with_reducible refine alu_keeps ?_

theorem execSqMul_keeps {z t} {c f} (e : execSqMul c f z = .next t) : Keeps z t := by
  unfold execSqMul at e
  injection e with e
  subst e
  have h := Keeps.refl z
  repeat' first
    | with_reducible assumption
    | with_reducible refine alu_keeps ?_

theorem execSqAnd_keeps {z t} {c f} (e : execSqAnd c f z = .next t) : Keeps z t := by
  unfold execSqAnd at e
  injection e with e
  subst e
  have h := Keeps.refl z
  repeat' first
    | with_reducible assumption
    | with_reducible refine alu_keeps ?_

theorem execSqOr_keeps {z t} {c f} (e : execSqOr c f z = .next t) : Keeps z t := by
  unfold execSqOr at e
  injection e with e
  subst e
  have h := Keeps.refl z
  repeat' first
    | with_reducible assumption
    | with_reducible refine alu_keeps ?_

theorem execSqXor_keeps {z t} {c f} (e : execSqXor c f z = .next t) : Keeps z t := by
  unfold execSqXor at e
  injection e with e
  subst e
  have h := Keeps.refl z
  repeat' first
    | with_reducible assumption
    | with_reducible refine alu_keeps ?_

theorem execSqShl_keeps {z t} {c f} (e : execSqShl c f z = .next t) : Keeps z t := by
  unfold execSqShl at e
  injection e with e
  subst e
  have h := Keeps.refl z
  repeat' first
    | with_reducible assumption
    | with_reducible refine alu_keeps ?_

theorem execSqShr_keeps {z t} {c f} (e : execSqShr c f z = .next t) : Keeps z t := by
  unfold execSqShr at e
  injection e with e
  subst e
  have h := Keeps.refl z
  repeat' first
    | with_reducible assumption
    | with_reducible refine alu_keeps ?_

theorem execSqSra_keeps {z t} {c f} (e : execSqSra c f z = .next t) : Keeps z t := by
  unfold execSqSra at e
  injection e with e
  subst e
  have h := Keeps.refl z
  repeat' first
    | with_reducible assumption
    | with_reducible refine alu_keeps ?_

theorem execSqMin_keeps {z t} {c f} (e : execSqMin c f z = .next t) : Keeps z t := by
  unfold execSqMin at e
  injection e with e
  subst e
  have h := Keeps.refl z
  repeat' first
    | with_reducible assumption
    | with_reducible refine alu_keeps ?_

theorem execSqMax_keeps {z t} {c f} (e : execSqMax c f z = .next t) : Keeps z t := by
  unfold execSqMax at e
  injection e with e
  subst e
  have h := Keeps.refl z
  repeat' first
    | with_reducible assumption
    | with_reducible refine alu_keeps ?_

theorem execSqCmp_keeps {z t} {c f cond} (e : execSqCmp c f cond z = .next t) : Keeps z t := by
  unfold execSqCmp at e
  injection e with e
  subst e
  have h := Keeps.refl z
  repeat' first
    | with_reducible assumption
    | dsimp only [Eff.state_done, Eff.state_abort]
    | with_reducible refine Keeps.ite ?_ (fun _ => ?_)
    | with_reducible refine fetched_keeps ?_ (fun _ _ _ _ _ => ?_)
    | with_reducible refine alu_keeps ?_

theorem execSqLd_keeps {z t} {c sD aS sO} (e : execSqLd c sD aS sO z = .next t) : Keeps z t := by
  unfold execSqLd at e
  injection e with e
  subst e
  have h := Keeps.refl z
  repeat' first
    | with_reducible assumption
    | dsimp only [Eff.state_done, Eff.state_abort]
    | with_reducible refine fetched_keeps ?_ (fun _ _ _ _ _ => ?_)
    | with_reducible refine withCtl_keeps ?_ (fun _ _ _ => ?_)
    | with_reducible refine State.pass_keeps ?_
    | split

theorem execSqSt_keeps {z t} {c aS sO sV} (e : execSqSt c aS sO sV z = .next t) : Keeps z t := by
  unfold execSqSt at e
  injection e with e
  subst e
  have h := Keeps.refl z
  repeat' first
    | with_reducible assumption
    | dsimp only [Eff.state_done, Eff.state_abort]
    | with_reducible refine fetched_keeps ?_ (fun _ _ _ _ _ => ?_)
    | with_reducible refine withWrite_keeps ?_ (fun _ _ => ?_)
    | with_reducible refine State.pass_keeps ?_
    | split

theorem execSqDesc_keeps {z t} {c aD sB sE} (e : execSqDesc c aD sB sE z = .next t) : Keeps z t := by
  unfold execSqDesc at e
  injection e with e
  subst e
  have h := Keeps.refl z
  repeat' first
    | with_reducible assumption
    | with_reducible refine scalar_keeps ?_

theorem execSqRds_keeps {z t} {c sD index} (e : execSqRds c sD index z = .next t) : Keeps z t := by
  unfold execSqRds at e
  injection e with e
  subst e
  have h := Keeps.refl z
  repeat' first
    | with_reducible assumption
    | dsimp only [Eff.state_done, Eff.state_abort]
    | with_reducible refine fetched_keeps ?_ (fun _ _ _ _ _ => ?_)
    | with_reducible refine State.pass_keeps ?_
    | with_reducible refine State.drawn_keeps ?_
    | split

theorem execSqWrs_keeps {z t} {c index sS} (e : execSqWrs c index sS z = .next t) : Keeps z t := by
  unfold execSqWrs at e
  injection e with e
  subst e
  have h := Keeps.refl z
  repeat' first
    | with_reducible assumption
    | dsimp only [Eff.state_done, Eff.state_abort]
    | with_reducible refine fetched_keeps ?_ (fun _ _ _ _ _ => ?_)
    | with_reducible refine State.pass_keeps ?_
    | split

theorem execSqBr_keeps {z t} {c cond sA sB ofs} (e : execSqBr c cond sA sB ofs z = .next t) : Keeps z t := by
  unfold execSqBr at e
  injection e with e
  subst e
  have h := Keeps.refl z
  repeat' first
    | with_reducible assumption
    | dsimp only [Eff.state_done, Eff.state_abort]
    | with_reducible refine fetched_keeps ?_ (fun _ _ _ _ _ => ?_)
    | with_reducible refine State.jump_keeps ?_
    | with_reducible refine State.pass_keeps ?_
    | split

theorem execSqLoop_keeps {z t} {c lN sC body} (e : execSqLoop c lN sC body z = .next t) : Keeps z t := by
  unfold execSqLoop at e
  injection e with e
  subst e
  have h := Keeps.refl z
  repeat' first
    | with_reducible assumption
    | dsimp only [Eff.state_done, Eff.state_abort]
    | with_reducible refine fetched_keeps ?_ (fun _ _ _ _ _ => ?_)
    | with_reducible refine State.jump_keeps ?_
    | split

theorem execSqMark_keeps {z t} {c layer op} (e : execSqMark c layer op z = .next t) : Keeps z t := by
  unfold execSqMark at e
  injection e with e
  subst e
  have h := Keeps.refl z
  repeat' first
    | with_reducible assumption
    | with_reducible refine scalar_keeps ?_

theorem execSqPhase_keeps {z t} {c phase} (e : execSqPhase c phase z = .next t) : Keeps z t := by
  unfold execSqPhase at e
  injection e with e
  subst e
  have h := Keeps.refl z
  repeat' first
    | with_reducible assumption
    | with_reducible refine scalar_keeps ?_

theorem execSqDeadline_keeps {z t} {c sS} (e : execSqDeadline c sS z = .next t) : Keeps z t := by
  unfold execSqDeadline at e
  injection e with e
  subst e
  have h := Keeps.refl z
  repeat' first
    | with_reducible assumption
    | dsimp only [Eff.state_done, Eff.state_abort]
    | with_reducible refine fetched_keeps ?_ (fun _ _ _ _ _ => ?_)
    | with_reducible refine State.pausePoint_keeps ?_
    | with_reducible refine State.openGroup_keeps ?_

theorem execSqYield_keeps {z t} {c} (e : execSqYield c z = .next t) : Keeps z t := by
  unfold execSqYield at e
  injection e with e
  subst e
  have h := Keeps.refl z
  repeat' first
    | with_reducible assumption
    | dsimp only [Eff.state_done, Eff.state_abort]
    | with_reducible refine fetched_keeps ?_ (fun _ _ _ _ _ => ?_)
    | with_reducible refine State.pausePoint_keeps ?_
    | with_reducible refine State.pass_keeps ?_

theorem execSqHalt_keeps {z t} {c} (e : execSqHalt c z = .next t) : Keeps z t := by
  unfold execSqHalt at e
  injection e with e
  subst e
  have h := Keeps.refl z
  repeat' first
    | with_reducible assumption
    | dsimp only [Eff.state_done, Eff.state_abort]
    | with_reducible refine fetched_keeps ?_ (fun _ _ _ _ _ => ?_)
    | with_reducible refine State.coreEvent_keeps ?_
    | with_reducible refine State.closeGroup_keeps ?_
    | with_reducible refine State.onCore_keeps ?_
    | with_reducible refine State.maybeSave_keeps ?_
    | with_reducible refine State.maybeFinish_keeps ?_

theorem execSqLive_keeps {z t} {c index} (e : execSqLive c index z = .next t) : Keeps z t := by
  unfold execSqLive at e
  injection e with e
  subst e
  have h := Keeps.refl z
  repeat' first
    | with_reducible assumption
    | dsimp only [Eff.state_done, Eff.state_abort]
    | with_reducible refine fetched_keeps ?_ (fun _ _ _ _ _ => ?_)
    | with_reducible refine State.fillLine_keeps ?_
    | with_reducible refine State.poisonRead_keeps ?_
    | with_reducible refine State.pass_keeps ?_
    | split

theorem execSqIcinv_keeps {z t} {c aS sO sL} (e : execSqIcinv c aS sO sL z = .next t) : Keeps z t := by
  unfold execSqIcinv at e
  injection e with e
  subst e
  have h := Keeps.refl z
  repeat' first
    | with_reducible assumption
    | dsimp only [Eff.state_done, Eff.state_abort]
    | with_reducible refine fetched_keeps ?_ (fun _ _ _ _ _ => ?_)
    | with_reducible refine State.onCore_keeps ?_
    | with_reducible refine State.pass_keeps ?_
    | split

theorem execSySig_keeps {z t} {c sS sV} (e : execSySig c sS sV z = .next t) : Keeps z t := by
  unfold execSySig at e
  injection e with e
  subst e
  have h := Keeps.refl z
  repeat' first
    | with_reducible assumption
    | with_reducible refine sigIssue_keeps ?_

theorem execSySet_keeps {z t} {c sS sV} (e : execSySet c sS sV z = .next t) : Keeps z t := by
  unfold execSySet at e
  injection e with e
  subst e
  have h := Keeps.refl z
  repeat' first
    | with_reducible assumption
    | with_reducible refine sigIssue_keeps ?_

theorem execSignalUpdateApply_keeps {z t} {r k} (e : execSignalUpdateApply r k z = .next t) : Keeps z t := by
  unfold execSignalUpdateApply at e
  injection e with e
  subst e
  have h := Keeps.refl z
  repeat' first
    | with_reducible assumption
    | lift_lets
    | (intro x; subst x)
    | with_reducible refine State.sendUpdates_keeps ?_
    | with_reducible refine State.applyUpd_keeps ?_
    | with_reducible refine State.onRegion_keeps ?_
    | split

theorem execSyWait_keeps {z t} {c f} (e : execSyWait c f z = .next t) : Keeps z t := by
  unfold execSyWait at e
  injection e with e
  subst e
  have h := Keeps.refl z
  repeat' first
    | with_reducible assumption
    | exact Nat.le_refl _
    | lift_lets
    | (intro x; refine_lift have hx : Keeps z x := ?_; ?_; on_goal 2 => clear_value x; on_goal 1 => subst x)
    | (intro x; refine_lift have hx : Keeps z x.1 := ?_; ?_; on_goal 2 => clear_value x; on_goal 1 => subst x)
    | (intro x; refine_lift have hx : Keeps z x.s := ?_; ?_; on_goal 2 => clear_value x; on_goal 1 => subst x)
    | (intro x; refine_lift have hx : Keeps z x.1.1 := ?_; ?_; on_goal 2 => clear_value x; on_goal 1 => subst x)
    | (intro x; subst x)
    | intro _
    | dsimp only [Eff.state_done, Eff.state_abort]
    | with_reducible refine Keeps.ite ?_ (fun _ => ?_)
    | with_reducible refine fetched_keeps ?_ (fun _ _ _ _ _ => ?_)
    | with_reducible refine State.violateBy_keeps ?_
    | with_reducible refine State.onX_keeps ?_
    | with_reducible refine State.waitLost_keeps ?_
    | with_reducible refine State.endHold_keeps ?_
    | with_reducible refine State.pausePoint_keeps ?_
    | split
    | fail_if_no_progress refine Keeps.upd ?_ (Nat.le_refl _) rfl
    | with_reducible refine Keeps.foldl ?_ _ (fun _ _ _ => ?_) _

theorem execSyWaitTimeout_keeps {z t} {w} (e : execSyWaitTimeout w z = .next t) : Keeps z t := by
  unfold execSyWaitTimeout at e
  injection e with e
  subst e
  have h := Keeps.refl z
  repeat' first
    | with_reducible assumption
    | dsimp only [Eff.state_done, Eff.state_abort]
    | with_reducible refine State.endHold_keeps ?_
    | with_reducible refine State.abortRun_keeps ?_
    | with_reducible refine State.endRec_keeps ?_
    | with_reducible refine State.onCtx_keeps ?_
    | split

theorem execSyQput_keeps {z t} {c sQ aS sL} (e : execSyQput c sQ aS sL z = .next t) : Keeps z t := by
  unfold execSyQput at e
  injection e with e
  subst e
  have h := Keeps.refl z
  repeat' first
    | with_reducible assumption
    | dsimp only [Eff.state_done, Eff.state_abort]
    | with_reducible refine fetched_keeps ?_ (fun _ _ _ _ _ => ?_)
    | with_reducible refine State.endHold_keeps ?_
    | with_reducible refine State.violateBy_keeps ?_
    | with_reducible refine State.holdPort_keeps ?_
    | with_reducible refine State.qputCell_keeps ?_
    | split

theorem execSyQputResume_keeps {z t} {c} (e : execSyQputResume c z = .next t) : Keeps z t := by
  unfold execSyQputResume at e
  injection e with e
  subst e
  have h := Keeps.refl z
  repeat' first
    | with_reducible assumption
    | dsimp only [Eff.state_done, Eff.state_abort]
    | with_reducible refine State.setQue_keeps ?_
    | with_reducible refine State.qputCells_keeps ?_
    | split

theorem execSyQget_keeps {z t} {c sD sQ aD sM} (e : execSyQget c sD sQ aD sM z = .next t) : Keeps z t := by
  unfold execSyQget at e
  injection e with e
  subst e
  have h := Keeps.refl z
  repeat' first
    | with_reducible assumption
    | dsimp only [Eff.state_done, Eff.state_abort]
    | with_reducible refine fetched_keeps ?_ (fun _ _ _ _ _ => ?_)
    | with_reducible refine State.endHold_keeps ?_
    | with_reducible refine State.violateBy_keeps ?_
    | with_reducible refine State.qgetCell_keeps ?_
    | with_reducible refine State.setQue_keeps ?_
    | with_reducible refine State.holdPort_keeps ?_
    | split

theorem execSyQgetResume_keeps {z t} {c} (e : execSyQgetResume c z = .next t) : Keeps z t := by
  unfold execSyQgetResume at e
  injection e with e
  subst e
  have h := Keeps.refl z
  repeat' first
    | with_reducible assumption
    | dsimp only [Eff.state_done, Eff.state_abort]
    | with_reducible refine State.setQue_keeps ?_
    | with_reducible refine State.qgetCells_keeps ?_
    | split

theorem execSyQcnt_keeps {z t} {c sD sQ} (e : execSyQcnt c sD sQ z = .next t) : Keeps z t := by
  unfold execSyQcnt at e
  injection e with e
  subst e
  have h := Keeps.refl z
  repeat' first
    | with_reducible assumption
    | dsimp only [Eff.state_done, Eff.state_abort]
    | with_reducible refine fetched_keeps ?_ (fun _ _ _ _ _ => ?_)
    | with_reducible refine State.endHold_keeps ?_
    | with_reducible refine State.violateBy_keeps ?_
    | split

theorem execQueueEnable_keeps {z t} {r q v} (e : execQueueEnable r q v z = .next t) : Keeps z t := by
  unfold execQueueEnable at e
  injection e with e
  subst e
  have h := Keeps.refl z
  repeat' first
    | with_reducible assumption
    | with_reducible refine State.whenReady_keeps ?_ (fun _ _ => ?_)
    | with_reducible refine queueConfigure_keeps ?_

theorem execQueueDisable_keeps {z t} {r q} (e : execQueueDisable r q z = .next t) : Keeps z t := by
  unfold execQueueDisable at e
  injection e with e
  subst e
  have h := Keeps.refl z
  repeat' first
    | with_reducible assumption
    | with_reducible refine State.whenReady_keeps ?_ (fun _ _ => ?_)
    | with_reducible refine queueDisable_keeps ?_

theorem execQueueFlush_keeps {z t} {r q} (e : execQueueFlush r q z = .next t) : Keeps z t := by
  unfold execQueueFlush at e
  injection e with e
  subst e
  have h := Keeps.refl z
  repeat' first
    | with_reducible assumption
    | with_reducible refine State.whenReady_keeps ?_ (fun _ _ => ?_)
    | with_reducible refine queueFlush_keeps ?_

theorem execQueueFlushDone_keeps {z t} {r q} (e : execQueueFlushDone r q z = .next t) : Keeps z t := by
  unfold execQueueFlushDone at e
  injection e with e
  subst e
  have h := Keeps.refl z
  repeat' first
    | with_reducible assumption
    | with_reducible refine queueFlushDone_keeps ?_

theorem execSigObjAdd_keeps {z t} {p r i v} (e : execSigObjAdd p r i v z = .next t) : Keeps z t := by
  unfold execSigObjAdd at e
  injection e with e
  subst e
  have h := Keeps.refl z
  repeat' first
    | with_reducible assumption
    | with_reducible refine State.whenReady_keeps ?_ (fun _ _ => ?_)
    | with_reducible refine sigObjWrite_keeps ?_

theorem execSigObjSet_keeps {z t} {p r i v} (e : execSigObjSet p r i v z = .next t) : Keeps z t := by
  unfold execSigObjSet at e
  injection e with e
  subst e
  have h := Keeps.refl z
  repeat' first
    | with_reducible assumption
    | with_reducible refine State.whenReady_keeps ?_ (fun _ _ => ?_)
    | with_reducible refine sigObjWrite_keeps ?_

theorem execMxForm_keeps {z t} {c form} (e : execMxForm c form z = .next t) : Keeps z t := by
  unfold execMxForm at e
  injection e with e
  subst e
  have h := Keeps.refl z
  repeat' first
    | with_reducible assumption
    | with_reducible refine issue_keeps ?_ (fun _ _ _ _ _ => ?_)
    | with_reducible refine runMxForm_keeps ?_ (by assumption)

theorem execMxWld_keeps {z t} {c f} (e : execMxWld c f z = .next t) : Keeps z t := by
  unfold execMxWld at e
  injection e with e
  subst e
  have h := Keeps.refl z
  repeat' first
    | with_reducible assumption
    | with_reducible refine issue_keeps ?_ (fun _ _ _ _ _ => ?_)
    | with_reducible refine runMxWld_keeps ?_ (by assumption)

theorem execMxSwap_keeps {z t} {c} (e : execMxSwap c z = .next t) : Keeps z t := by
  unfold execMxSwap at e
  injection e with e
  subst e
  have h := Keeps.refl z
  repeat' first
    | with_reducible assumption
    | with_reducible refine issue_keeps ?_ (fun _ _ _ _ _ => ?_)
    | with_reducible refine runMxSwap_keeps ?_ (by assumption)

theorem execMxRun_keeps {z t} {c f} (e : execMxRun c f z = .next t) : Keeps z t := by
  unfold execMxRun at e
  injection e with e
  subst e
  have h := Keeps.refl z
  repeat' first
    | with_reducible assumption
    | with_reducible refine issue_keeps ?_ (fun _ _ _ _ _ => ?_)
    | with_reducible refine runMxRun_keeps ?_ (by assumption)

theorem execMxDrain_keeps {z t} {c f} (e : execMxDrain c f z = .next t) : Keeps z t := by
  unfold execMxDrain at e
  injection e with e
  subst e
  have h := Keeps.refl z
  repeat' first
    | with_reducible assumption
    | with_reducible refine issue_keeps ?_ (fun _ _ _ _ _ => ?_)
    | with_reducible refine runMxDrain_keeps ?_ (by assumption)

theorem execMxNmv_keeps {z t} {c f} (e : execMxNmv c f z = .next t) : Keeps z t := by
  unfold execMxNmv at e
  injection e with e
  subst e
  have h := Keeps.refl z
  repeat' first
    | with_reducible assumption
    | with_reducible refine issue_keeps ?_ (fun _ _ _ _ _ => ?_)
    | with_reducible refine runMxNmv_keeps ?_ (by assumption)

theorem execVxSetvl_keeps {z t} {c sD sS} (e : execVxSetvl c sD sS z = .next t) : Keeps z t := by
  unfold execVxSetvl at e
  injection e with e
  subst e
  have h := Keeps.refl z
  repeat' first
    | with_reducible assumption
    | dsimp only [Eff.state_done, Eff.state_abort]
    | with_reducible refine fetched_keeps ?_ (fun _ _ _ _ _ => ?_)
    | with_reducible refine State.onX_keeps ?_
    | with_reducible refine State.pass_keeps ?_

theorem execVxSetm_keeps {z t} {c mD sS} (e : execVxSetm c mD sS z = .next t) : Keeps z t := by
  unfold execVxSetm at e
  injection e with e
  subst e
  have h := Keeps.refl z
  repeat' first
    | with_reducible assumption
    | dsimp only [Eff.state_done, Eff.state_abort]
    | with_reducible refine fetched_keeps ?_ (fun _ _ _ _ _ => ?_)
    | with_reducible refine State.pass_keeps ?_
    | split

theorem execXpDef_keeps {z t} {c xN aS sO} (e : execXpDef c xN aS sO z = .next t) : Keeps z t := by
  unfold execXpDef at e
  injection e with e
  subst e
  have h := Keeps.refl z
  repeat' first
    | with_reducible assumption
    | with_reducible refine issue_keeps ?_ (fun _ _ _ _ _ => ?_)
    | with_reducible refine runXpDef_keeps ?_ (by assumption)

theorem execVxEp_keeps {z t} {c f} (e : execVxEp c f z = .next t) : Keeps z t := by
  unfold execVxEp at e
  injection e with e
  subst e
  have h := Keeps.refl z
  repeat' first
    | with_reducible assumption
    | with_reducible refine issue_keeps ?_ (fun _ _ _ _ _ => ?_)
    | with_reducible refine runVxEp_keeps ?_ (by assumption)

theorem execVxRed_keeps {z t} {c f} (e : execVxRed c f z = .next t) : Keeps z t := by
  unfold execVxRed at e
  injection e with e
  subst e
  have h := Keeps.refl z
  repeat' first
    | with_reducible assumption
    | with_reducible refine issue_keeps ?_ (fun _ _ _ _ _ => ?_)
    | with_reducible refine runVxRed_keeps ?_ (by assumption)

theorem execRnKey_keeps {z t} {c sS} (e : execRnKey c sS z = .next t) : Keeps z t := by
  unfold execRnKey at e
  injection e with e
  subst e
  have h := Keeps.refl z
  repeat' first
    | with_reducible assumption
    | with_reducible refine scalar_keeps ?_

theorem execRnStream_keeps {z t} {c mode sS} (e : execRnStream c mode sS z = .next t) : Keeps z t := by
  unfold execRnStream at e
  injection e with e
  subst e
  have h := Keeps.refl z
  repeat' first
    | with_reducible assumption
    | with_reducible refine scalar_keeps ?_

theorem execRnDraw_keeps {z t} {c aD wq draw sL} (e : execRnDraw c aD wq draw sL z = .next t) : Keeps z t := by
  unfold execRnDraw at e
  injection e with e
  subst e
  have h := Keeps.refl z
  repeat' first
    | with_reducible assumption
    | with_reducible refine issue_keeps ?_ (fun _ _ _ _ _ => ?_)
    | with_reducible refine runRnDraw_keeps ?_ (by assumption)

theorem execAtPageAlloc_keeps {z t} {c aA aR aO} (e : execAtPageAlloc c aA aR aO z = .next t) : Keeps z t := by
  unfold execAtPageAlloc at e
  injection e with e
  subst e
  have h := Keeps.refl z
  repeat' first
    | with_reducible assumption
    | with_reducible refine issue_keeps ?_ (fun _ _ _ _ _ => ?_)
    | with_reducible refine runPageAlloc_keeps ?_ (by assumption)

theorem execAtPageFree_keeps {z t} {c aA aR aO} (e : execAtPageFree c aA aR aO z = .next t) : Keeps z t := by
  unfold execAtPageFree at e
  injection e with e
  subst e
  have h := Keeps.refl z
  repeat' first
    | with_reducible assumption
    | with_reducible refine issue_keeps ?_ (fun _ _ _ _ _ => ?_)
    | with_reducible refine runPageFree_keeps ?_ (by assumption)

theorem execAtPageFork_keeps {z t} {c aA aR aO} (e : execAtPageFork c aA aR aO z = .next t) : Keeps z t := by
  unfold execAtPageFork at e
  injection e with e
  subst e
  have h := Keeps.refl z
  repeat' first
    | with_reducible assumption
    | with_reducible refine issue_keeps ?_ (fun _ _ _ _ _ => ?_)
    | with_reducible refine runPageFork_keeps ?_ (by assumption)

theorem execAtPagePrep_keeps {z t} {c aA aR aO} (e : execAtPagePrep c aA aR aO z = .next t) : Keeps z t := by
  unfold execAtPagePrep at e
  injection e with e
  subst e
  have h := Keeps.refl z
  repeat' first
    | with_reducible assumption
    | with_reducible refine issue_keeps ?_ (fun _ _ _ _ _ => ?_)
    | with_reducible refine runPagePrep_keeps ?_ (by assumption)

theorem execAtPageLookup_keeps {z t} {c aA aR aO} (e : execAtPageLookup c aA aR aO z = .next t) : Keeps z t := by
  unfold execAtPageLookup at e
  injection e with e
  subst e
  have h := Keeps.refl z
  repeat' first
    | with_reducible assumption
    | with_reducible refine issue_keeps ?_ (fun _ _ _ _ _ => ?_)
    | with_reducible refine runPageLookup_keeps ?_ (by assumption)

theorem execAtPageInsert_keeps {z t} {c aA aR aO} (e : execAtPageInsert c aA aR aO z = .next t) : Keeps z t := by
  unfold execAtPageInsert at e
  injection e with e
  subst e
  have h := Keeps.refl z
  repeat' first
    | with_reducible assumption
    | with_reducible refine issue_keeps ?_ (fun _ _ _ _ _ => ?_)
    | with_reducible refine runPageInsert_keeps ?_ (by assumption)

theorem execAtQk_keeps {z t} {c f} (e : execAtQk c f z = .next t) : Keeps z t := by
  unfold execAtQk at e
  injection e with e
  subst e
  have h := Keeps.refl z
  repeat' first
    | with_reducible assumption
    | with_reducible refine issue_keeps ?_ (fun _ _ _ _ _ => ?_)
    | with_reducible refine runAtQk_keeps ?_ (by assumption)

theorem execAtSmInit_keeps {z t} {c f} (e : execAtSmInit c f z = .next t) : Keeps z t := by
  unfold execAtSmInit at e
  injection e with e
  subst e
  have h := Keeps.refl z
  repeat' first
    | with_reducible assumption
    | with_reducible refine issue_keeps ?_ (fun _ _ _ _ _ => ?_)
    | with_reducible refine runSmInit_keeps ?_ (by assumption)

theorem execAtSmUpdate_keeps {z t} {c f} (e : execAtSmUpdate c f z = .next t) : Keeps z t := by
  unfold execAtSmUpdate at e
  injection e with e
  subst e
  have h := Keeps.refl z
  repeat' first
    | with_reducible assumption
    | with_reducible refine issue_keeps ?_ (fun _ _ _ _ _ => ?_)
    | with_reducible refine runSmUpdate_keeps ?_ (by assumption)

theorem execAtSmFinal_keeps {z t} {c f} (e : execAtSmFinal c f z = .next t) : Keeps z t := by
  unfold execAtSmFinal at e
  injection e with e
  subst e
  have h := Keeps.refl z
  repeat' first
    | with_reducible assumption
    | with_reducible refine issue_keeps ?_ (fun _ _ _ _ _ => ?_)
    | with_reducible refine runSmFinal_keeps ?_ (by assumption)

theorem execAtSmMerge_keeps {z t} {c f} (e : execAtSmMerge c f z = .next t) : Keeps z t := by
  unfold execAtSmMerge at e
  injection e with e
  subst e
  have h := Keeps.refl z
  repeat' first
    | with_reducible assumption
    | with_reducible refine issue_keeps ?_ (fun _ _ _ _ _ => ?_)
    | with_reducible refine runSmMerge_keeps ?_ (by assumption)

theorem execAtPv_keeps {z t} {c f} (e : execAtPv c f z = .next t) : Keeps z t := by
  unfold execAtPv at e
  injection e with e
  subst e
  have h := Keeps.refl z
  repeat' first
    | with_reducible assumption
    | with_reducible refine issue_keeps ?_ (fun _ _ _ _ _ => ?_)
    | with_reducible refine runAtPv_keeps ?_ (by assumption)

theorem execAtDec_keeps {z t} {c f} (e : execAtDec c f z = .next t) : Keeps z t := by
  unfold execAtDec at e
  injection e with e
  subst e
  have h := Keeps.refl z
  repeat' first
    | with_reducible assumption
    | with_reducible refine issue_keeps ?_ (fun _ _ _ _ _ => ?_)
    | with_reducible refine runAtDec_keeps ?_ (by assumption)

theorem execDoorbellSubmissionTail_keeps {z t} {fn ctx index} (e : execDoorbellSubmissionTail fn ctx index z = .next t) : Keeps z t := by
  unfold execDoorbellSubmissionTail at e
  injection e with e
  subst e
  have h := Keeps.refl z
  repeat' first
    | with_reducible assumption
    | with_reducible refine State.whenReady_keeps ?_ (fun _ _ => ?_)
    | with_reducible refine submissionTail_keeps ?_

theorem execDoorbellCompletionHead_keeps {z t} {fn ctx index} (e : execDoorbellCompletionHead fn ctx index z = .next t) : Keeps z t := by
  unfold execDoorbellCompletionHead at e
  injection e with e
  subst e
  have h := Keeps.refl z
  repeat' first
    | with_reducible assumption
    | with_reducible refine State.whenReady_keeps ?_ (fun _ _ => ?_)
    | with_reducible refine completionHead_keeps ?_

theorem execRun_keeps {z t} {ctx r} (e : execRun ctx r z = .next t) : Keeps z t := by
  unfold execRun at e
  injection e with e
  subst e
  have h := Keeps.refl z
  repeat' first
    | with_reducible assumption
    | with_reducible refine acceptRec_keeps ?_ (fun _ _ => ?_)
    | with_reducible refine State.enqueue_keeps ?_

theorem execSignal_keeps {z t} {ctx r} (e : execSignal ctx r z = .next t) : Keeps z t := by
  unfold execSignal at e
  injection e with e
  subst e
  have h := Keeps.refl z
  repeat' first
    | with_reducible assumption
    | with_reducible refine acceptRec_keeps ?_ (fun _ _ => ?_)
    | with_reducible refine State.enqueue_keeps ?_

theorem execWait_keeps {z t} {ctx r} (e : execWait ctx r z = .next t) : Keeps z t := by
  unfold execWait at e
  injection e with e
  subst e
  have h := Keeps.refl z
  repeat' first
    | with_reducible assumption
    | with_reducible refine acceptRec_keeps ?_ (fun _ _ => ?_)
    | with_reducible refine State.enqueue_keeps ?_

theorem execTimesync_keeps {z t} {ctx r} (e : execTimesync ctx r z = .next t) : Keeps z t := by
  unfold execTimesync at e
  injection e with e
  subst e
  have h := Keeps.refl z
  repeat' first
    | with_reducible assumption
    | with_reducible refine acceptRec_keeps ?_ (fun _ _ => ?_)
    | with_reducible refine State.enqueue_keeps ?_

theorem execContextResetDone_keeps {z t} {ctx} (e : execContextResetDone ctx z = .next t) : Keeps z t := by
  unfold execContextResetDone at e
  injection e with e
  subst e
  have h := Keeps.refl z
  repeat' first
    | with_reducible assumption
    | with_reducible refine State.endReset_keeps ?_

theorem execDispatchSelection_keeps {z t} {p} (e : execDispatchSelection p z = .next t) : Keeps z t := by
  unfold execDispatchSelection at e
  injection e with e
  subst e
  have h := Keeps.refl z
  repeat' first
    | with_reducible assumption
    | with_reducible refine State.select_keeps ?_

theorem execContextStart_keeps {z t} {ctx} (e : execContextStart ctx z = .next t) : Keeps z t := by
  unfold execContextStart at e
  injection e with e
  subst e
  have h := Keeps.refl z
  repeat' first
    | with_reducible assumption
    | with_reducible refine State.startRun_keeps ?_

theorem execContextSaveDone_keeps {z t} {ctx} (e : execContextSaveDone ctx z = .next t) : Keeps z t := by
  unfold execContextSaveDone at e
  injection e with e
  subst e
  have h := Keeps.refl z
  repeat' first
    | with_reducible assumption
    | with_reducible refine State.endSave_keeps ?_

theorem execContextRestoreDone_keeps {z t} {ctx} (e : execContextRestoreDone ctx z = .next t) : Keeps z t := by
  unfold execContextRestoreDone at e
  injection e with e
  subst e
  have h := Keeps.refl z
  repeat' first
    | with_reducible assumption
    | with_reducible refine State.endRestore_keeps ?_

theorem execImplicitDeadlineExpiry_keeps {z t} {ctx} (e : execImplicitDeadlineExpiry ctx z = .next t) : Keeps z t := by
  unfold execImplicitDeadlineExpiry at e
  injection e with e
  subst e
  have h := Keeps.refl z
  repeat' first
    | with_reducible assumption
    | with_reducible refine State.lateAll_keeps ?_
    | with_reducible refine State.missAccs_keeps ?_

theorem execPartCreate_keeps {z t} {p} (e : execPartCreate p z = .next t) : Keeps z t := by
  unfold execPartCreate at e
  injection e with e
  subst e
  have h := Keeps.refl z
  repeat' first
    | with_reducible assumption
    | with_reducible refine partCreate_keeps ?_

theorem execPartRelease_keeps {z t} {p} (e : execPartRelease p z = .next t) : Keeps z t := by
  unfold execPartRelease at e
  injection e with e
  subst e
  have h := Keeps.refl z
  repeat' first
    | with_reducible assumption
    | with_reducible refine partRelease_keeps ?_

theorem execPartReleaseStepDone_keeps {z t} {p} (e : execPartReleaseStepDone p z = .next t) : Keeps z t := by
  unfold execPartReleaseStepDone at e
  injection e with e
  subst e
  have h := Keeps.refl z
  repeat' first
    | with_reducible assumption
    | with_reducible refine Keeps.ite ?_ (fun _ => ?_)
    | with_reducible refine State.beginStep_keeps ?_

theorem execMemoryZeroingDone_keeps {z t} {st p} (e : execMemoryZeroingDone st p z = .next t) : Keeps z t := by
  unfold execMemoryZeroingDone at e
  injection e with e
  subst e
  have h := Keeps.refl z
  repeat' first
    | with_reducible assumption
    | with_reducible refine Keeps.ite ?_ (fun _ => ?_)
    | with_reducible refine State.onPart_keeps ?_
    | with_reducible refine State.zeroPages_keeps ?_

theorem execXlatUpdate_keeps {z t} {p arg0 arg1} (e : execXlatUpdate p arg0 arg1 z = .next t) : Keeps z t := by
  unfold execXlatUpdate at e
  injection e with e
  subst e
  have h := Keeps.refl z
  repeat' first
    | with_reducible assumption
    | with_reducible refine xlatUpdate_keeps ?_

theorem execXlatUpdateComplete_keeps {z t} (e : execXlatUpdateComplete z = .next t) : Keeps z t := by
  unfold execXlatUpdateComplete at e
  injection e with e
  subst e
  have h := Keeps.refl z
  repeat' first
    | with_reducible assumption
    | with_reducible refine State.writePhys_keeps ?_
    | split
    | fail_if_no_progress refine Keeps.upd ?_ (Nat.le_refl _) rfl

theorem execCacheClear_keeps {z t} {p} (e : execCacheClear p z = .next t) : Keeps z t := by
  unfold execCacheClear at e
  injection e with e
  subst e
  have h := Keeps.refl z
  repeat' first
    | with_reducible assumption
    | with_reducible refine cacheClear_keeps ?_

theorem execCoreSetAssign_keeps {z t} {p arg0} (e : execCoreSetAssign p arg0 z = .next t) : Keeps z t := by
  unfold execCoreSetAssign at e
  injection e with e
  subst e
  have h := Keeps.refl z
  repeat' first
    | with_reducible assumption
    | with_reducible refine coreSetAssign_keeps ?_

theorem execCoreSetRemove_keeps {z t} {p arg0} (e : execCoreSetRemove p arg0 z = .next t) : Keeps z t := by
  unfold execCoreSetRemove at e
  injection e with e
  subst e
  have h := Keeps.refl z
  repeat' first
    | with_reducible assumption
    | with_reducible refine coreSetRemove_keeps ?_

theorem execCoreScrubDone_keeps {z t} {c} (e : execCoreScrubDone c z = .next t) : Keeps z t := by
  unfold execCoreScrubDone at e
  injection e with e
  subst e
  have h := Keeps.refl z
  repeat' first
    | with_reducible assumption
    | lift_lets
    | (intro x; subst x)
    | with_reducible refine State.onCore_keeps ?_
    | with_reducible refine State.restartGroup_keeps ?_
    | split

theorem execCtxAssign_keeps {z t} {ctx p arg0} (e : execCtxAssign ctx p arg0 z = .next t) : Keeps z t := by
  unfold execCtxAssign at e
  injection e with e
  subst e
  have h := Keeps.refl z
  repeat' first
    | with_reducible assumption
    | with_reducible refine ctxAssign_keeps ?_

theorem execCtxFree_keeps {z t} {ctx} (e : execCtxFree ctx z = .next t) : Keeps z t := by
  unfold execCtxFree at e
  injection e with e
  subst e
  have h := Keeps.refl z
  repeat' first
    | with_reducible assumption
    | with_reducible refine ctxFree_keeps ?_

theorem execKeyApply_keeps {z t} {p} (e : execKeyApply p z = .next t) : Keeps z t := by
  unfold execKeyApply at e
  injection e with e
  subst e
  have h := Keeps.refl z
  repeat' first
    | with_reducible assumption
    | with_reducible refine keyApply_keeps ?_

theorem execJobApply_keeps {z t} {p} (e : execJobApply p z = .next t) : Keeps z t := by
  unfold execJobApply at e
  injection e with e
  subst e
  have h := Keeps.refl z
  repeat' first
    | with_reducible assumption
    | with_reducible refine State.whenReady_keeps ?_ (fun _ _ => ?_)
    | with_reducible refine jobApply_keeps ?_

theorem execJobUnbind_keeps {z t} {p} (e : execJobUnbind p z = .next t) : Keeps z t := by
  unfold execJobUnbind at e
  injection e with e
  subst e
  have h := Keeps.refl z
  repeat' first
    | with_reducible assumption
    | with_reducible refine State.whenReady_keeps ?_ (fun _ _ => ?_)
    | with_reducible refine jobUnbind_keeps ?_

theorem execDmCopy_keeps {z t} {c f} (e : execDmCopy c f z = .next t) : Keeps z t := by
  unfold execDmCopy at e
  injection e with e
  subst e
  have h := Keeps.refl z
  repeat' first
    | with_reducible assumption
    | with_reducible refine issue_keeps ?_ (fun _ _ _ _ _ => ?_)
    | with_reducible refine runDmCopy_keeps ?_ (by assumption)

theorem execDmXpose_keeps {z t} {c f} (e : execDmXpose c f z = .next t) : Keeps z t := by
  unfold execDmXpose at e
  injection e with e
  subst e
  have h := Keeps.refl z
  repeat' first
    | with_reducible assumption
    | with_reducible refine issue_keeps ?_ (fun _ _ _ _ _ => ?_)
    | with_reducible refine runDmXpose_keeps ?_ (by assumption)

theorem execDmGather_keeps {z t} {c f} (e : execDmGather c f z = .next t) : Keeps z t := by
  unfold execDmGather at e
  injection e with e
  subst e
  have h := Keeps.refl z
  repeat' first
    | with_reducible assumption
    | with_reducible refine issue_keeps ?_ (fun _ _ _ _ _ => ?_)
    | with_reducible refine runDmGather_keeps ?_ (by assumption)

theorem execDmExpand_keeps {z t} {c f} (e : execDmExpand c f z = .next t) : Keeps z t := by
  unfold execDmExpand at e
  injection e with e
  subst e
  have h := Keeps.refl z
  repeat' first
    | with_reducible assumption
    | with_reducible refine issue_keeps ?_ (fun _ _ _ _ _ => ?_)
    | with_reducible refine runDmExpand_keeps ?_ (by assumption)

theorem execDmPack_keeps {z t} {c f} (e : execDmPack c f z = .next t) : Keeps z t := by
  unfold execDmPack at e
  injection e with e
  subst e
  have h := Keeps.refl z
  repeat' first
    | with_reducible assumption
    | with_reducible refine issue_keeps ?_ (fun _ _ _ _ _ => ?_)
    | with_reducible refine runDmPack_keeps ?_ (by assumption)

theorem execDmTblCore_keeps {z t} {c aS sO slot} (e : execDmTblCore c aS sO slot z = .next t) : Keeps z t := by
  unfold execDmTblCore at e
  injection e with e
  subst e
  have h := Keeps.refl z
  repeat' first
    | with_reducible assumption
    | with_reducible refine issue_keeps ?_ (fun _ _ _ _ _ => ?_)
    | with_reducible refine runDmTblCore_keeps ?_ (by assumption)

theorem execDmTblStack_keeps {z t} {c aS sO slot st} (e : execDmTblStack c aS sO slot st z = .next t) : Keeps z t := by
  unfold execDmTblStack at e
  injection e with e
  subst e
  have h := Keeps.refl z
  repeat' first
    | with_reducible assumption
    | with_reducible refine issue_keeps ?_ (fun _ _ _ _ _ => ?_)
    | with_reducible refine runDmTblStack_keeps ?_ (by assumption)

theorem execTableBankSwitch_keeps {z t} {c x} (e : execTableBankSwitch c x z = .next t) : Keeps z t := by
  unfold execTableBankSwitch at e
  injection e with e
  subst e
  have h := Keeps.refl z
  repeat' first
    | with_reducible assumption
    | with_reducible refine State.onX_keeps ?_

theorem execTableLoadRelease_keeps {z t} {c x} (e : execTableLoadRelease c x z = .next t) : Keeps z t := by
  unfold execTableLoadRelease at e
  injection e with e
  subst e
  have h := Keeps.refl z
  repeat' first
    | with_reducible assumption
    | with_reducible refine State.onX_keeps ?_

theorem execErgBlockDecode_keeps {z t} {c x} (e : execErgBlockDecode c x z = .next t) : Keeps z t := by
  unfold execErgBlockDecode at e
  injection e with e
  subst e
  have h := Keeps.refl z
  repeat' first
    | with_reducible assumption
    | with_reducible refine Eff.settle_keeps ?_
    | with_reducible refine blockLeaves_keeps ?_
    | with_reducible refine State.onX_keeps ?_
    | split

theorem execDmAtom_keeps {z t} {c f} (e : execDmAtom c f z = .next t) : Keeps z t := by
  unfold execDmAtom at e
  injection e with e
  subst e
  have h := Keeps.refl z
  repeat' first
    | with_reducible assumption
    | with_reducible refine issue_keeps ?_ (fun _ _ _ _ _ => ?_)
    | with_reducible refine runDmAtom_keeps ?_ (by assumption)

theorem execClPut_keeps {z t} {c f} (e : execClPut c f z = .next t) : Keeps z t := by
  unfold execClPut at e
  injection e with e
  subst e
  have h := Keeps.refl z
  repeat' first
    | with_reducible assumption
    | with_reducible refine issueCl_keeps ?_ (fun _ _ _ _ _ => ?_)
    | with_reducible refine runClPut_keeps ?_ (by assumption)

theorem execClReduce_keeps {z t} {c f} (e : execClReduce c f z = .next t) : Keeps z t := by
  unfold execClReduce at e
  injection e with e
  subst e
  have h := Keeps.refl z
  repeat' first
    | with_reducible assumption
    | with_reducible refine issueCl_keeps ?_ (fun _ _ _ _ _ => ?_)
    | with_reducible refine runClReduce_keeps ?_ (by assumption)

theorem execClStep_keeps {z t} {c sS sW} (e : execClStep c sS sW z = .next t) : Keeps z t := by
  unfold execClStep at e
  injection e with e
  subst e
  have h := Keeps.refl z
  repeat' first
    | with_reducible assumption
    | dsimp only [Eff.state_done, Eff.state_abort]
    | with_reducible refine fetched_keeps ?_ (fun _ _ _ _ _ => ?_)
    | with_reducible refine State.pass_keeps ?_
    | with_reducible refine State.newStep_keeps ?_
    | with_reducible refine State.onX_keeps ?_
    | with_reducible refine State.usesCl_keeps ?_
    | split

theorem execClTimesync_keeps {z t} {c sD jg} (e : execClTimesync c sD jg z = .next t) : Keeps z t := by
  unfold execClTimesync at e
  injection e with e
  subst e
  have h := Keeps.refl z
  repeat' first
    | with_reducible assumption
    | dsimp only [Eff.state_done, Eff.state_abort]
    | with_reducible refine fetched_keeps ?_ (fun _ _ _ _ _ => ?_)
    | with_reducible refine State.startSync_keeps ?_ (by assumption)
    | with_reducible refine State.usesCl_keeps ?_
    | with_reducible refine State.endHold_keeps ?_
    | with_reducible refine State.onX_keeps ?_
    | split

theorem execDbWatch_keeps {z t} {c f} (e : execDbWatch c f z = .next t) : Keeps z t := by
  unfold execDbWatch at e
  injection e with e
  subst e
  have h := Keeps.refl z
  repeat' first
    | with_reducible assumption
    | with_reducible refine issue_keeps ?_ (fun _ _ _ _ _ => ?_)
    | with_reducible refine runDbWatch_keeps ?_ (by assumption)

theorem execDbEvent_keeps {z t} {c code sS} (e : execDbEvent c code sS z = .next t) : Keeps z t := by
  unfold execDbEvent at e
  injection e with e
  subst e
  have h := Keeps.refl z
  repeat' first
    | with_reducible assumption
    | dsimp only [Eff.state_done, Eff.state_abort]
    | with_reducible refine fetched_keeps ?_ (fun _ _ _ _ _ => ?_)
    | with_reducible refine State.pass_keeps ?_
    | with_reducible refine State.coreEvent_keeps ?_

theorem execInstructionStart_keeps {z t} {c e} (e : execInstructionStart c e z = .next t) : Keeps z t := by
  unfold execInstructionStart at e
  injection e with e
  subst e
  have h := Keeps.refl z
  repeat' first
    | with_reducible assumption
    | with_reducible refine State.stopHere_keeps ?_
    | with_reducible refine State.absorb_keeps ?_
    | with_reducible refine startQueued_keeps ?_ (fun _ _ _ _ _ => ?_)
    | with_reducible refine effectOf_keeps ?_ (by assumption)
    | split

theorem execTagRelease_keeps {z t} {c tag} (e : execTagRelease c tag z = .next t) : Keeps z t := by
  unfold execTagRelease at e
  injection e with e
  subst e
  have h := Keeps.refl z
  repeat' first
    | with_reducible assumption
    | with_reducible refine State.onX_keeps ?_
    | split

theorem execInstructionComplete_keeps {z t} {c id} (e : execInstructionComplete c id z = .next t) : Keeps z t := by
  unfold execInstructionComplete at e
  injection e with e
  subst e
  have h := Keeps.refl z
  repeat' first
    | with_reducible assumption
    | with_reducible refine State.maybeSave_keeps ?_
    | with_reducible refine State.maybeFinish_keeps ?_
    | with_reducible refine State.stopHere_keeps ?_
    | with_reducible refine State.onX_keeps ?_
    | with_reducible refine State.countWaits_keeps ?_
    | with_reducible refine State.corrected_keeps ?_
    | split

theorem execWellSlot_keeps {z t} {st} (e : execWellSlot st z = .next t) : Keeps z t := by
  unfold execWellSlot at e
  injection e with e
  subst e
  have h := Keeps.refl z
  repeat' first
    | with_reducible assumption
    | with_reducible refine State.onStack_keeps ?_
    | split

theorem execCoreFence_keeps {z t} {c cause} (e : execCoreFence c cause z = .next t) : Keeps z t := by
  unfold execCoreFence at e
  injection e with e
  subst e
  have h := Keeps.refl z
  repeat' first
    | with_reducible assumption
    | with_reducible refine State.coreFault_keeps ?_

theorem execScoreboardWatchdogExpiry_keeps {z t} {c} (e : execScoreboardWatchdogExpiry c z = .next t) : Keeps z t := by
  unfold execScoreboardWatchdogExpiry at e
  injection e with e
  subst e
  have h := Keeps.refl z
  repeat' first
    | with_reducible assumption
    | with_reducible refine State.coreFault_keeps ?_
    | split

theorem execCeLimitFence_keeps {z t} {c} (e : execCeLimitFence c z = .next t) : Keeps z t := by
  unfold execCeLimitFence at e
  injection e with e
  subst e
  have h := Keeps.refl z
  repeat' first
    | with_reducible assumption
    | with_reducible refine Keeps.ite ?_ (fun _ => ?_)
    | with_reducible refine State.moveIfReady_keeps ?_
    | with_reducible refine State.stopHere_keeps ?_
    | with_reducible refine State.onCore_keeps ?_

theorem execSelftest_keeps {z t} {c} (e : execSelftest c z = .next t) : Keeps z t := by
  unfold execSelftest at e
  injection e with e
  subst e
  have h := Keeps.refl z
  repeat' first
    | with_reducible assumption
    | with_reducible refine State.whenReady_keeps ?_ (fun _ _ => ?_)
    | with_reducible refine selfTest_keeps ?_

theorem execSelftestDone_keeps {z t} {c pass} (e : execSelftestDone c pass z = .next t) : Keeps z t := by
  unfold execSelftestDone at e
  injection e with e
  subst e
  have h := Keeps.refl z
  repeat' first
    | with_reducible assumption
    | with_reducible refine Keeps.ite ?_ (fun _ => ?_)
    | with_reducible refine State.logError_keeps ?_
    | with_reducible refine State.testPassed_keeps ?_
    | with_reducible refine State.testFailed_keeps ?_

theorem execNak_keeps {z t} {e ack} (e : execNak e ack z = .next t) : Keeps z t := by
  unfold execNak at e
  injection e with e
  subst e
  have h := Keeps.refl z
  repeat' first
    | with_reducible assumption
    | with_reducible refine Keeps.ite ?_ (fun _ => ?_)
    | with_reducible refine State.naked_keeps ?_

theorem execFlitCrcFail_keeps {z t} {port} (e : execFlitCrcFail port z = .next t) : Keeps z t := by
  unfold execFlitCrcFail at e
  injection e with e
  subst e
  have h := Keeps.refl z
  repeat' first
    | with_reducible assumption
    | with_reducible refine State.onPort_keeps ?_

theorem execPut_keeps {z t} {port f} (e : execPut port f z = .next t) : Keeps z t := by
  unfold execPut at e
  injection e with e
  subst e
  have h := Keeps.refl z
  repeat' first
    | with_reducible assumption
    | with_reducible refine Keeps.ite ?_ (fun _ => ?_)
    | with_reducible refine receive_keeps ?_ (fun _ _ _ _ => ?_)
    | with_reducible refine State.countPart_keeps ?_
    | with_reducible refine State.onPart_keeps ?_
    | with_reducible refine State.landBytes_keeps ?_
    | with_reducible refine State.landed_keeps ?_
    | with_reducible refine State.releaseFin_keeps ?_

theorem execFinWriteRelease_keeps {z t} {p src score} (e : execFinWriteRelease p src score z = .next t) : Keeps z t := by
  unfold execFinWriteRelease at e
  injection e with e
  subst e
  have h := Keeps.refl z
  repeat' first
    | with_reducible assumption
    | with_reducible refine State.releaseFin_keeps ?_

theorem execSig_keeps {z t} {port f} (e : execSig port f z = .next t) : Keeps z t := by
  unfold execSig at e
  injection e with e
  subst e
  have h := Keeps.refl z
  repeat' first
    | with_reducible assumption
    | with_reducible refine Keeps.ite ?_ (fun _ => ?_)
    | with_reducible refine receive_keeps ?_ (fun _ _ _ _ => ?_)
    | with_reducible refine State.applySig_keeps ?_
    | with_reducible refine State.onPart_keeps ?_

theorem execLanded_keeps {z t} {port f} (e : execLanded port f z = .next t) : Keeps z t := by
  unfold execLanded at e
  injection e with e
  subst e
  have h := Keeps.refl z
  repeat' first
    | with_reducible assumption
    | with_reducible refine receive_keeps ?_ (fun _ _ _ _ => ?_)
    | with_reducible refine State.onPart_keeps ?_

theorem execRed_keeps {z t} {port f} (e : execRed port f z = .next t) : Keeps z t := by
  unfold execRed at e
  injection e with e
  subst e
  have h := Keeps.refl z
  repeat' first
    | with_reducible assumption
    | lift_lets
    | with_reducible refine receive_keeps ?_ (fun _ _ _ _ => ?_)
    | with_reducible refine State.countPart_keeps ?_
    | with_reducible refine State.redReceive_keeps ?_
    | split

theorem execRedResult_keeps {z t} {port f} (e : execRedResult port f z = .next t) : Keeps z t := by
  unfold execRedResult at e
  injection e with e
  subst e
  have h := Keeps.refl z
  repeat' first
    | with_reducible assumption
    | lift_lets
    | with_reducible refine receive_keeps ?_ (fun _ _ _ _ => ?_)
    | with_reducible refine State.discardAt_keeps ?_
    | with_reducible refine State.landResult_keeps ?_ (by assumption)
    | with_reducible refine State.countPart_keeps ?_
    | split

theorem execReductionWindowExpiry_keeps {z t} {port k} (e : execReductionWindowExpiry port k z = .next t) : Keeps z t := by
  unfold execReductionWindowExpiry at e
  injection e with e
  subst e
  have h := Keeps.refl z
  repeat' first
    | with_reducible assumption
    | with_reducible refine State.abandon_keeps ?_
    | split

theorem execStepRetry_keeps {z t} {port f} (e : execStepRetry port f z = .next t) : Keeps z t := by
  unfold execStepRetry at e
  injection e with e
  subst e
  have h := Keeps.refl z
  repeat' first
    | with_reducible assumption
    | lift_lets
    | with_reducible refine receive_keeps ?_ (fun _ _ _ _ => ?_)
    | with_reducible refine State.portEvent_keeps ?_
    | with_reducible refine State.stepRetry_keeps ?_ (by assumption)
    | with_reducible refine State.discardAt_keeps ?_
    | split

theorem execResetNotice_keeps {z t} {port f} (e : execResetNotice port f z = .next t) : Keeps z t := by
  unfold execResetNotice at e
  injection e with e
  subst e
  have h := Keeps.refl z
  repeat' first
    | with_reducible assumption
    | with_reducible refine receive_keeps ?_ (fun _ _ _ _ => ?_)
    | with_reducible refine State.markDead_keeps ?_
    | with_reducible refine State.portEvent_keeps ?_

theorem execJoin_keeps {z t} {port f} (e : execJoin port f z = .next t) : Keeps z t := by
  unfold execJoin at e
  injection e with e
  subst e
  have h := Keeps.refl z
  repeat' first
    | with_reducible assumption
    | with_reducible refine Keeps.ite ?_ (fun _ => ?_)
    | with_reducible refine receive_keeps ?_ (fun _ _ _ _ => ?_)
    | with_reducible refine State.portEvent_keeps ?_
    | with_reducible refine State.setJob_keeps ?_
    | with_reducible refine State.discardAt_keeps ?_
    | with_reducible refine State.sendDown_keeps ?_
    | with_reducible refine State.rejoin_keeps ?_

theorem execPeerDown_keeps {z t} {port f} (e : execPeerDown port f z = .next t) : Keeps z t := by
  unfold execPeerDown at e
  injection e with e
  subst e
  have h := Keeps.refl z
  repeat' first
    | with_reducible assumption
    | with_reducible refine Keeps.ite ?_ (fun _ => ?_)
    | with_reducible refine receive_keeps ?_ (fun _ _ _ _ => ?_)
    | with_reducible refine State.portEvent_keeps ?_
    | with_reducible refine State.advanceEpoch_keeps ?_
    | with_reducible refine State.markDead_keeps ?_

theorem execLaneAlignmentLoss_keeps {z t} {port} (e : execLaneAlignmentLoss port z = .next t) : Keeps z t := by
  unfold execLaneAlignmentLoss at e
  injection e with e
  subst e
  have h := Keeps.refl z
  repeat' first
    | with_reducible assumption
    | with_reducible refine Keeps.ite ?_ (fun _ => ?_)
    | with_reducible refine State.cutAll_keeps ?_
    | with_reducible refine State.linkError_keeps ?_
    | with_reducible refine State.portEvent_keeps ?_
    | with_reducible refine State.onPort_keeps ?_

theorem execMemberLost_keeps {z t} {p rank} (e : execMemberLost p rank z = .next t) : Keeps z t := by
  unfold execMemberLost at e
  injection e with e
  subst e
  have h := Keeps.refl z
  repeat' first
    | with_reducible assumption
    | lift_lets
    | (intro x; subst x)
    | with_reducible refine State.setJob_keeps ?_
    | with_reducible refine State.abortAll_keeps ?_
    | split

theorem execTimesyncRequest_keeps {z t} {port f t2 t3} (e : execTimesyncRequest port f t2 t3 z = .next t) : Keeps z t := by
  unfold execTimesyncRequest at e
  injection e with e
  subst e
  have h := Keeps.refl z
  repeat' first
    | with_reducible assumption
    | with_reducible refine Keeps.ite ?_ (fun _ => ?_)
    | with_reducible refine receive_keeps ?_ (fun _ _ _ _ => ?_)
    | with_reducible refine State.portSend_keeps ?_
    | with_reducible refine State.discardAt_keeps ?_

theorem execTimesyncResponse_keeps {z t} {port f t4} (e : execTimesyncResponse port f t4 z = .next t) : Keeps z t := by
  unfold execTimesyncResponse at e
  injection e with e
  subst e
  have h := Keeps.refl z
  repeat' first
    | with_reducible assumption
    | with_reducible refine receive_keeps ?_ (fun _ _ _ _ => ?_)
    | with_reducible refine State.discardAt_keeps ?_
    | with_reducible refine State.syncPort_keeps ?_
    | with_reducible refine State.onPort_keeps ?_
    | split

theorem execTimesyncNeighbourTimeout_keeps {z t} {port} (e : execTimesyncNeighbourTimeout port z = .next t) : Keeps z t := by
  unfold execTimesyncNeighbourTimeout at e
  injection e with e
  subst e
  have h := Keeps.refl z
  repeat' first
    | with_reducible assumption
    | with_reducible refine State.syncPort_keeps ?_
    | with_reducible refine State.onPort_keeps ?_
    | split

theorem execLinkRetrainDone_keeps {z t} {port lanes} (e : execLinkRetrainDone port lanes z = .next t) : Keeps z t := by
  unfold execLinkRetrainDone at e
  injection e with e
  subst e
  have h := Keeps.refl z
  repeat' first
    | with_reducible assumption
    | with_reducible refine Keeps.ite ?_ (fun _ => ?_)
    | with_reducible refine State.startLane_keeps ?_
    | with_reducible refine State.drain_keeps ?_
    | with_reducible refine State.onPort_keeps ?_
    | with_reducible refine State.portEvent_keeps ?_

theorem execIdle_keeps {z t} {e ack chan credits} (e : execIdle e ack chan credits z = .next t) : Keeps z t := by
  unfold execIdle at e
  injection e with e
  subst e
  have h := Keeps.refl z
  repeat' first
    | with_reducible assumption
    | with_reducible refine State.inOrder_keeps ?_ (fun _ _ => ?_)
    | fail_if_no_progress refine Keeps.upd ?_ (Nat.le_refl _) rfl

theorem execReservedTypeFlit_keeps {z t} {f} (e : execReservedTypeFlit f z = .next t) : Keeps z t := by
  unfold execReservedTypeFlit at e
  injection e with e
  subst e
  have h := Keeps.refl z
  repeat' first
    | with_reducible assumption
    | with_reducible refine State.inOrder_keeps ?_ (fun _ _ => ?_)
    | with_reducible refine State.discardAt_keeps ?_

theorem execLnkModeWrite_keeps {z t} {port v} (e : execLnkModeWrite port v z = .next t) : Keeps z t := by
  unfold execLnkModeWrite at e
  injection e with e
  subst e
  have h := Keeps.refl z
  repeat' first
    | with_reducible assumption
    | with_reducible refine State.whenReady_keeps ?_ (fun _ _ => ?_)
    | with_reducible refine lnkModeWrite_keeps ?_

theorem execPauseFrame_keeps {z t} {port} (e : execPauseFrame port z = .next t) : Keeps z t := by
  unfold execPauseFrame at e
  injection e with e
  subst e
  have h := Keeps.refl z
  repeat' first
    | with_reducible assumption
    | with_reducible refine Keeps.ite ?_ (fun _ => ?_)
    | with_reducible refine State.onPort_keeps ?_

theorem execPfcFrame_keeps {z t} {port prio pause} (e : execPfcFrame port prio pause z = .next t) : Keeps z t := by
  unfold execPfcFrame at e
  injection e with e
  subst e
  have h := Keeps.refl z
  repeat' first
    | with_reducible assumption
    | with_reducible refine Keeps.ite ?_ (fun _ => ?_)
    | with_reducible refine State.drain_keeps ?_
    | with_reducible refine State.onPort_keeps ?_

theorem execForeignEthertypeFrame_keeps {z t} {f} (e : execForeignEthertypeFrame f z = .next t) : Keeps z t := by
  unfold execForeignEthertypeFrame at e
  injection e with e
  subst e
  have h := Keeps.refl z
  repeat' first
    | with_reducible assumption
    | with_reducible refine Keeps.ite ?_ (fun _ => ?_)
    | with_reducible refine State.onPort_keeps ?_

theorem execRegionPointStep_keeps {z t} {r} (e : execRegionPointStep r z = .next t) : Keeps z t := by
  unfold execRegionPointStep at e
  injection e with e
  subst e
  have h := Keeps.refl z
  repeat' first
    | with_reducible assumption
    | with_reducible refine Keeps.ite ?_ (fun _ => ?_)
    | with_reducible refine State.railSettles_keeps ?_
    | with_reducible refine State.onRegion_keeps ?_
    | with_reducible refine State.powerEvent_keeps ?_

theorem execDroopDetect_keeps {z t} {c} (e : execDroopDetect c z = .next t) : Keeps z t := by
  unfold execDroopDetect at e
  injection e with e
  subst e
  have h := Keeps.refl z
  repeat' first
    | with_reducible assumption
    | with_reducible refine State.onCore_keeps ?_
    | with_reducible refine State.onRegion_keeps ?_
    | with_reducible refine State.event_keeps ?_

theorem execDroopEnd_keeps {z t} {c} (e : execDroopEnd c z = .next t) : Keeps z t := by
  unfold execDroopEnd at e
  injection e with e
  subst e
  have h := Keeps.refl z
  repeat' first
    | with_reducible assumption
    | with_reducible refine Keeps.ite ?_ (fun _ => ?_)
    | with_reducible refine State.onRegion_keeps ?_
    | with_reducible refine State.onCore_keeps ?_

theorem execDroopQuietEnd_keeps {z t} {r} (e : execDroopQuietEnd r z = .next t) : Keeps z t := by
  unfold execDroopQuietEnd at e
  injection e with e
  subst e
  have h := Keeps.refl z
  repeat' first
    | with_reducible assumption
    | lift_lets
    | (intro x; subst x)
    | with_reducible refine State.onRegion_keeps ?_
    | with_reducible refine State.changeClock_keeps ?_
    | split

theorem execCapLoopEvaluation_keeps {z t} {pIn pUp} (e : execCapLoopEvaluation pIn pUp z = .next t) : Keeps z t := by
  unfold execCapLoopEvaluation at e
  injection e with e
  subst e
  have h := Keeps.refl z
  repeat' first
    | with_reducible assumption
    | with_reducible refine Keeps.ite ?_ (fun _ => ?_)
    | with_reducible refine State.fastEnd_keeps ?_
    | with_reducible refine State.persist_keeps ?_
    | with_reducible refine State.capDown_keeps ?_
    | with_reducible refine State.capUp_keeps ?_
    | fail_if_no_progress refine Keeps.upd ?_ (Nat.le_refl _) rfl

theorem execEnergyReconcile_keeps {z t} {measured modelled} (e : execEnergyReconcile measured modelled z = .next t) : Keeps z t := by
  unfold execEnergyReconcile at e
  injection e with e
  subst e
  have h := Keeps.refl z
  repeat' first
    | with_reducible assumption
    | fail_if_no_progress refine Keeps.upd ?_ (Nat.le_refl _) rfl

theorem execFastLimit_keeps {z t} {rail} (e : execFastLimit rail z = .next t) : Keeps z t := by
  unfold execFastLimit at e
  injection e with e
  subst e
  have h := Keeps.refl z
  repeat' first
    | with_reducible assumption
    | with_reducible refine State.pwrAlarm_keeps ?_
    | with_reducible refine State.relevel_keeps ?_
    | with_reducible refine State.onRegion_keeps ?_
    | with_reducible refine State.onStack_keeps ?_
    | split

theorem execThrottleNAssert_keeps {z t} (e : execThrottleNAssert z = .next t) : Keeps z t := by
  unfold execThrottleNAssert at e
  injection e with e
  subst e
  have h := Keeps.refl z
  repeat' first
    | with_reducible assumption
    | with_reducible refine Keeps.ite ?_ (fun _ => ?_)
    | with_reducible refine State.applyBrake_keeps ?_
    | fail_if_no_progress refine Keeps.upd ?_ (Nat.le_refl _) rfl

theorem execThrottleNRelease_keeps {z t} (e : execThrottleNRelease z = .next t) : Keeps z t := by
  unfold execThrottleNRelease at e
  injection e with e
  subst e
  have h := Keeps.refl z
  repeat' first
    | with_reducible assumption
    | fail_if_no_progress refine Keeps.upd ?_ (Nat.le_refl _) rfl

theorem execFlowLossAssert_keeps {z t} (e : execFlowLossAssert z = .next t) : Keeps z t := by
  unfold execFlowLossAssert at e
  injection e with e
  subst e
  have h := Keeps.refl z
  repeat' first
    | with_reducible assumption
    | with_reducible refine Keeps.ite ?_ (fun _ => ?_)
    | with_reducible refine State.pwrAlarm_keeps ?_
    | with_reducible refine State.powerStop_keeps ?_
    | fail_if_no_progress refine Keeps.upd ?_ (Nat.le_refl _) rfl

theorem execFlowLossRelease_keeps {z t} (e : execFlowLossRelease z = .next t) : Keeps z t := by
  unfold execFlowLossRelease at e
  injection e with e
  subst e
  have h := Keeps.refl z
  repeat' first
    | with_reducible assumption
    | fail_if_no_progress refine Keeps.upd ?_ (Nat.le_refl _) rfl

theorem execThermalSample_keeps {z t} {r temp} (e : execThermalSample r temp z = .next t) : Keeps z t := by
  unfold execThermalSample at e
  injection e with e
  subst e
  have h := Keeps.refl z
  repeat' first
    | with_reducible assumption
    | with_reducible refine Keeps.ite ?_ (fun _ => ?_)
    | with_reducible refine State.onRegion_keeps ?_
    | with_reducible refine State.thermalEnd_keeps ?_
    | with_reducible refine State.thermalTrip_keeps ?_
    | with_reducible refine State.pwrAlarm_keeps ?_
    | with_reducible refine State.relevel_keeps ?_

theorem execStackThermalStep_keeps {z t} {st temp} (e : execStackThermalStep st temp z = .next t) : Keeps z t := by
  unfold execStackThermalStep at e
  injection e with e
  subst e
  have h := Keeps.refl z
  repeat' first
    | with_reducible assumption
    | with_reducible refine Keeps.ite ?_ (fun _ => ?_)
    | with_reducible refine State.onStack_keeps ?_
    | with_reducible refine State.thermalTrip_keeps ?_
    | with_reducible refine State.pwrAlarm_keeps ?_

theorem execStackPointChange_keeps {z t} {st} (e : execStackPointChange st z = .next t) : Keeps z t := by
  unfold execStackPointChange at e
  injection e with e
  subst e
  have h := Keeps.refl z
  repeat' first
    | with_reducible assumption
    | with_reducible refine Keeps.ite ?_ (fun _ => ?_)
    | with_reducible refine State.onStack_keeps ?_

theorem execPllIdleStop_keeps {z t} {pll} (e : execPllIdleStop pll z = .next t) : Keeps z t := by
  unfold execPllIdleStop at e
  injection e with e
  subst e
  have h := Keeps.refl z
  repeat' first
    | with_reducible assumption
    | split
    | fail_if_no_progress refine Keeps.upd ?_ (Nat.le_refl _) rfl

theorem execWakeDone_keeps {z t} {pll} (e : execWakeDone pll z = .next t) : Keeps z t := by
  unfold execWakeDone at e
  injection e with e
  subst e
  have h := Keeps.refl z
  repeat' first
    | with_reducible assumption
    | split
    | fail_if_no_progress refine Keeps.upd ?_ (Nat.le_refl _) rfl

theorem execSelfRefreshEntry_keeps {z t} {st} (e : execSelfRefreshEntry st z = .next t) : Keeps z t := by
  unfold execSelfRefreshEntry at e
  injection e with e
  subst e
  have h := Keeps.refl z
  repeat' first
    | with_reducible assumption
    | with_reducible refine Keeps.ite ?_ (fun _ => ?_)
    | with_reducible refine State.onStack_keeps ?_

theorem execStackWakeDone_keeps {z t} {st} (e : execStackWakeDone st z = .next t) : Keeps z t := by
  unfold execStackWakeDone at e
  injection e with e
  subst e
  have h := Keeps.refl z
  repeat' first
    | with_reducible assumption
    | with_reducible refine Keeps.ite ?_ (fun _ => ?_)
    | with_reducible refine State.onStack_keeps ?_

theorem execPatrolScrub_keeps {z t} {st found} (e : execPatrolScrub st found z = .next t) : Keeps z t := by
  unfold execPatrolScrub at e
  injection e with e
  subst e
  have h := Keeps.refl z
  repeat' first
    | with_reducible assumption
    | with_reducible refine Keeps.ite ?_ (fun _ => ?_)
    | with_reducible refine State.scrubFind_keeps ?_
    | with_reducible refine State.scrubRow_keeps ?_
    | with_reducible refine State.onStack_keeps ?_

theorem execBankRetireCopyDone_keeps {z t} {st} (e : execBankRetireCopyDone st z = .next t) : Keeps z t := by
  unfold execBankRetireCopyDone at e
  injection e with e
  subst e
  have h := Keeps.refl z
  repeat' first
    | with_reducible assumption
    | with_reducible refine State.retireError_keeps ?_
    | with_reducible refine State.onStack_keeps ?_
    | split

theorem execResetContext_keeps {z t} {ctx r} (e : execResetContext ctx r z = .next t) : Keeps z t := by
  unfold execResetContext at e
  injection e with e
  subst e
  have h := Keeps.refl z
  repeat' first
    | with_reducible assumption
    | with_reducible refine acceptRec_keeps ?_ (fun _ _ => ?_)
    | with_reducible refine State.resetRecord_keeps ?_
    | with_reducible refine State.noteHang_keeps ?_

theorem execHangTest_keeps {z t} (e : execHangTest z = .next t) : Keeps z t := by
  unfold execHangTest at e
  injection e with e
  subst e
  have h := Keeps.refl z
  repeat' first
    | with_reducible assumption
    | with_reducible refine State.hangTest_keeps ?_

theorem execDeadlineExpiry_keeps {z t} {ctx} (e : execDeadlineExpiry ctx z = .next t) : Keeps z t := by
  unfold execDeadlineExpiry at e
  injection e with e
  subst e
  have h := Keeps.refl z
  repeat' first
    | with_reducible assumption
    | with_reducible refine Keeps.ite ?_ (fun _ => ?_)
    | with_reducible refine State.hangTest_keeps ?_
    | with_reducible refine State.deadlineExpiry_keeps ?_

theorem execProgressWindowExpiry_keeps {z t} {ctx} (e : execProgressWindowExpiry ctx z = .next t) : Keeps z t := by
  unfold execProgressWindowExpiry at e
  injection e with e
  subst e
  have h := Keeps.refl z
  repeat' first
    | with_reducible assumption
    | with_reducible refine Keeps.ite ?_ (fun _ => ?_)
    | with_reducible refine State.hangTest_keeps ?_
    | with_reducible refine State.hangAborts_keeps ?_
    | with_reducible refine State.hangReport_keeps ?_

theorem execModuleRecovery_keeps {z t} {cause} (e : execModuleRecovery cause z = .next t) : Keeps z t := by
  unfold execModuleRecovery at e
  injection e with e
  subst e
  have h := Keeps.refl z
  repeat' first
    | with_reducible assumption
    | with_reducible refine startRecovery_keeps ?_

theorem execRecoveryStartWrite_keeps {z t} (e : execRecoveryStartWrite z = .next t) : Keeps z t := by
  unfold execRecoveryStartWrite at e
  injection e with e
  subst e
  have h := Keeps.refl z
  repeat' first
    | with_reducible assumption
    | with_reducible refine recoveryStart_keeps ?_

theorem execRestart_keeps {z t} {x0} (e : execRestart x0 z = .next t) : Keeps z t := by
  unfold execRestart at e
  injection e with e
  subst e
  have h := Keeps.refl z
  repeat' first
    | with_reducible assumption
    | with_reducible refine restartCommand_keeps ?_

theorem execCrashDump_keeps {z t} {silent} (e : execCrashDump silent z = .next t) : Keeps z t := by
  unfold execCrashDump at e
  injection e with e
  subst e
  have h := Keeps.refl z
  repeat' first
    | with_reducible assumption
    | with_reducible refine Keeps.ite ?_ (fun _ => ?_)
    | with_reducible refine State.alarms_keeps ?_
    | fail_if_no_progress refine Keeps.upd ?_ (Nat.le_refl _) rfl

theorem execRecoveryStageDone_keeps {z t} (e : execRecoveryStageDone z = .next t) : Keeps z t := by
  unfold execRecoveryStageDone at e
  injection e with e
  subst e
  have h := Keeps.refl z
  repeat' first
    | with_reducible assumption
    | with_reducible refine State.bootNew_keeps ?_
    | with_reducible refine State.reducedTest_keeps ?_
    | with_reducible refine State.recovered_keeps ?_
    | split
    | fail_if_no_progress refine Keeps.upd ?_ (Nat.le_refl _) rfl

theorem execPowerGood_keeps {z t} {moduleId} (e : execPowerGood moduleId z = .next t) : Keeps z t := by
  unfold execPowerGood at e
  injection e with e
  subst e
  have h := Keeps.refl z
  repeat' first
    | with_reducible assumption
    | with_reducible refine Keeps.ite ?_ (fun _ => ?_)
    | fail_if_no_progress refine Keeps.upd ?_ (Nat.le_refl _) rfl

theorem execInputVoltageTrip_keeps {z t} (e : execInputVoltageTrip z = .next t) : Keeps z t := by
  unfold execInputVoltageTrip at e
  injection e with e
  subst e
  have h := Keeps.refl z
  repeat' first
    | with_reducible assumption
    | with_reducible refine Keeps.ite ?_ (fun _ => ?_)
    | with_reducible refine State.alarm_keeps ?_
    | with_reducible refine State.powerStop_keeps ?_
    | fail_if_no_progress refine Keeps.upd ?_ (Nat.le_refl _) rfl

theorem execInputRangeReturn_keeps {z t} (e : execInputRangeReturn z = .next t) : Keeps z t := by
  unfold execInputRangeReturn at e
  injection e with e
  subst e
  have h := Keeps.refl z
  repeat' first
    | with_reducible assumption
    | with_reducible refine Keeps.ite ?_ (fun _ => ?_)
    | fail_if_no_progress refine Keeps.upd ?_ (Nat.le_refl _) rfl

theorem execInputLoss_keeps {z t} (e : execInputLoss z = .next t) : Keeps z t := by
  unfold execInputLoss at e
  injection e with e
  subst e
  have h := Keeps.refl z
  repeat' first
    | with_reducible assumption
    | with_reducible refine State.unpowered_keeps ?_

theorem execInputOvercurrent_keeps {z t} (e : execInputOvercurrent z = .next t) : Keeps z t := by
  unfold execInputOvercurrent at e
  injection e with e
  subst e
  have h := Keeps.refl z
  repeat' first
    | with_reducible assumption
    | with_reducible refine State.unpowered_keeps ?_
    | fail_if_no_progress refine Keeps.upd ?_ (Nat.le_refl _) rfl

theorem execInputSwitchClose_keeps {z t} (e : execInputSwitchClose z = .next t) : Keeps z t := by
  unfold execInputSwitchClose at e
  injection e with e
  subst e
  have h := Keeps.refl z
  repeat' first
    | with_reducible assumption
    | fail_if_no_progress refine Keeps.upd ?_ (Nat.le_refl _) rfl

theorem execStartStageDone_keeps {z t} {stage res} (e : execStartStageDone stage res z = .next t) : Keeps z t := by
  unfold execStartStageDone at e
  injection e with e
  subst e
  have h := Keeps.refl z
  repeat' first
    | with_reducible assumption
    | with_reducible refine State.endStage_keeps ?_
    | split
    | fail_if_no_progress refine Keeps.upd ?_ (Nat.le_refl _) rfl

theorem execLockstepMismatch_keeps {z t} (e : execLockstepMismatch z = .next t) : Keeps z t := by
  unfold execLockstepMismatch at e
  injection e with e
  subst e
  split
  · exact Keeps.refl z
  · refine Keeps.upd (Keeps.refl z) (Nat.le_refl _) ?_
    dsimp only
    split
    · rfl
    · unfold Belv.failedBoot
      split
      · rfl
      · next x _ => cases x <;> rfl

theorem execFirmwareBoot_keeps {z t} {okA okB} (e : execFirmwareBoot okA okB z = .next t) : Keeps z t := by
  unfold execFirmwareBoot at e
  injection e with e
  subst e
  have h := Keeps.refl z
  repeat' first
    | with_reducible assumption
    | lift_lets
    | (intro x; subst x)
    | with_reducible refine State.bootSlotOf_keeps ?_
    | split
    | fail_if_no_progress refine Keeps.upd ?_ (Nat.le_refl _) rfl

theorem execTapStateChange_keeps {z t} {target} (e : execTapStateChange target z = .next t) : Keeps z t := by
  unfold execTapStateChange at e
  injection e with e
  subst e
  have h := Keeps.refl z
  repeat' first
    | with_reducible assumption
    | fail_if_no_progress refine Keeps.upd ?_ (Nat.le_refl _) rfl

theorem execClaimSupervisor_keeps {z t} {res} (e : execClaimSupervisor res z = .next t) : Keeps z t := by
  unfold execClaimSupervisor at e
  injection e with e
  subst e
  have h := Keeps.refl z
  repeat' first
    | with_reducible assumption
    | with_reducible refine claimCmd_keeps ?_

theorem execReleaseSupervisor_keeps {z t} {res} (e : execReleaseSupervisor res z = .next t) : Keeps z t := by
  unfold execReleaseSupervisor at e
  injection e with e
  subst e
  have h := Keeps.refl z
  repeat' first
    | with_reducible assumption
    | with_reducible refine claimCmd_keeps ?_

theorem execTimerFire_keeps {z t} {i} (e : execTimerFire i z = .next t) : Keeps z t := by
  unfold execTimerFire at e
  injection e with e
  subst e
  have h := Keeps.refl z
  repeat' first
    | with_reducible assumption
    | with_reducible refine Keeps.ite ?_ (fun _ => ?_)
    | with_reducible refine State.setPf_keeps ?_
    | with_reducible refine State.pulse_keeps ?_
    | with_reducible refine State.ibi_keeps ?_
    | with_reducible refine State.interrupt_keeps ?_

theorem execMboxGo_keeps {z t} (e : execMboxGo z = .next t) : Keeps z t := by
  unfold execMboxGo at e
  injection e with e
  subst e
  have h := Keeps.refl z
  repeat' first
    | with_reducible assumption
    | with_reducible refine mboxGo_keeps ?_

theorem execTraceEnable_keeps {z t} (e : execTraceEnable z = .next t) : Keeps z t := by
  unfold execTraceEnable at e
  injection e with e
  subst e
  have h := Keeps.refl z
  repeat' first
    | with_reducible assumption
    | with_reducible refine State.whenReady_keeps ?_ (fun _ _ => ?_)
    | with_reducible refine traceEnable_keeps ?_

theorem execTraceSnap_keeps {z t} {ty unit} (e : execTraceSnap ty unit z = .next t) : Keeps z t := by
  unfold execTraceSnap at e
  injection e with e
  subst e
  have h := Keeps.refl z
  repeat' first
    | with_reducible assumption
    | with_reducible refine State.whenReady_keeps ?_ (fun _ _ => ?_)
    | with_reducible refine traceSnap_keeps ?_

theorem execTraceBufWrite_keeps {z t} {v} (e : execTraceBufWrite v z = .next t) : Keeps z t := by
  unfold execTraceBufWrite at e
  injection e with e
  subst e
  have h := Keeps.refl z
  repeat' first
    | with_reducible assumption
    | with_reducible refine State.whenReady_keeps ?_ (fun _ _ => ?_)
    | with_reducible refine traceBuf_keeps ?_

theorem execSetEndpointId_keeps {z t} {via eid} (e : execSetEndpointId via eid z = .next t) : Keeps z t := by
  unfold execSetEndpointId at e
  injection e with e
  subst e
  have h := Keeps.refl z
  repeat' first
    | with_reducible assumption
    | with_reducible refine serveMsg_keeps ?_ (fun _ _ => ?_)
    | with_reducible refine State.answer_keeps ?_
    | fail_if_no_progress refine Keeps.upd ?_ (Nat.le_refl _) rfl

theorem execGetEndpointId_keeps {z t} {via} (e : execGetEndpointId via z = .next t) : Keeps z t := by
  unfold execGetEndpointId at e
  injection e with e
  subst e
  have h := Keeps.refl z
  repeat' first
    | with_reducible assumption
    | with_reducible refine serveMsg_keeps ?_ (fun _ _ => ?_)
    | with_reducible refine State.answer_keeps ?_

theorem execGetMctpVersionSupport_keeps {z t} {via} (e : execGetMctpVersionSupport via z = .next t) : Keeps z t := by
  unfold execGetMctpVersionSupport at e
  injection e with e
  subst e
  have h := Keeps.refl z
  repeat' first
    | with_reducible assumption
    | with_reducible refine mctp_keeps ?_

theorem execGetMessageTypeSupport_keeps {z t} {via} (e : execGetMessageTypeSupport via z = .next t) : Keeps z t := by
  unfold execGetMessageTypeSupport at e
  injection e with e
  subst e
  have h := Keeps.refl z
  repeat' first
    | with_reducible assumption
    | with_reducible refine serveMsg_keeps ?_ (fun _ _ => ?_)
    | with_reducible refine State.answer_keeps ?_

theorem execGetVendorDefinedMessageSupport_keeps {z t} {via} (e : execGetVendorDefinedMessageSupport via z = .next t) : Keeps z t := by
  unfold execGetVendorDefinedMessageSupport at e
  injection e with e
  subst e
  have h := Keeps.refl z
  repeat' first
    | with_reducible assumption
    | with_reducible refine mctp_keeps ?_

theorem execUnsupportedMctpMessage_keeps {z t} {x0} (e : execUnsupportedMctpMessage x0 z = .next t) : Keeps z t := by
  unfold execUnsupportedMctpMessage at e
  injection e with e
  subst e
  have h := Keeps.refl z
  repeat' first
    | with_reducible assumption
    | with_reducible refine Keeps.ite ?_ (fun _ => ?_)
    | with_reducible refine State.discardMsg_keeps ?_

theorem execMctpMessageTimeout_keeps {z t} {x0} (e : execMctpMessageTimeout x0 z = .next t) : Keeps z t := by
  unfold execMctpMessageTimeout at e
  injection e with e
  subst e
  have h := Keeps.refl z
  repeat' first
    | with_reducible assumption

theorem execI3cSclLowTimeout_keeps {z t} (e : execI3cSclLowTimeout z = .next t) : Keeps z t := by
  unfold execI3cSclLowTimeout at e
  injection e with e
  subst e
  have h := Keeps.refl z
  repeat' first
    | with_reducible assumption
    | fail_if_no_progress refine Keeps.upd ?_ (Nat.le_refl _) rfl

theorem execSetdasa_keeps {z t} (e : execSetdasa z = .next t) : Keeps z t := by
  unfold execSetdasa at e
  injection e with e
  subst e
  have h := Keeps.refl z
  repeat' first
    | with_reducible assumption
    | with_reducible refine Keeps.ite ?_ (fun _ => ?_)
    | fail_if_no_progress refine Keeps.upd ?_ (Nat.le_refl _) rfl

theorem execEntdaa_keeps {z t} {addr} (e : execEntdaa addr z = .next t) : Keeps z t := by
  unfold execEntdaa at e
  injection e with e
  subst e
  have h := Keeps.refl z
  repeat' first
    | with_reducible assumption
    | with_reducible refine Keeps.ite ?_ (fun _ => ?_)
    | fail_if_no_progress refine Keeps.upd ?_ (Nat.le_refl _) rfl

theorem execSensorSample_keeps {z t} {id reading} (e : execSensorSample id reading z = .next t) : Keeps z t := by
  unfold execSensorSample at e
  injection e with e
  subst e
  have h := Keeps.refl z
  repeat' first
    | with_reducible assumption
    | with_reducible refine Keeps.ite ?_ (fun _ => ?_)
    | fail_if_no_progress refine Keeps.upd ?_ (Nat.le_refl _) rfl

theorem execGetSensorReading_keeps {z t} {via id} (e : execGetSensorReading via id z = .next t) : Keeps z t := by
  unfold execGetSensorReading at e
  injection e with e
  subst e
  have h := Keeps.refl z
  repeat' first
    | with_reducible assumption
    | with_reducible refine sensorAnswer_keeps ?_

theorem execGetSensorThresholds_keeps {z t} {via id} (e : execGetSensorThresholds via id z = .next t) : Keeps z t := by
  unfold execGetSensorThresholds at e
  injection e with e
  subst e
  have h := Keeps.refl z
  repeat' first
    | with_reducible assumption
    | with_reducible refine sensorAnswer_keeps ?_

theorem execGetPdr_keeps {z t} {via id} (e : execGetPdr via id z = .next t) : Keeps z t := by
  unfold execGetPdr at e
  injection e with e
  subst e
  have h := Keeps.refl z
  repeat' first
    | with_reducible assumption
    | with_reducible refine sensorAnswer_keeps ?_

theorem execPldmDiscovery_keeps {z t} {via cmd} (e : execPldmDiscovery via cmd z = .next t) : Keeps z t := by
  unfold execPldmDiscovery at e
  injection e with e
  subst e
  have h := Keeps.refl z
  repeat' first
    | with_reducible assumption
    | with_reducible refine serveMsg_keeps ?_ (fun _ _ => ?_)
    | with_reducible refine State.answer_keeps ?_
    | with_reducible refine State.drawn_keeps ?_

theorem execRequestUpdate_keeps {z t} {via} (e : execRequestUpdate via z = .next t) : Keeps z t := by
  unfold execRequestUpdate at e
  injection e with e
  subst e
  have h := Keeps.refl z
  repeat' first
    | with_reducible assumption
    | with_reducible refine Keeps.ite ?_ (fun _ => ?_)
    | with_reducible refine serveMsg_keeps ?_ (fun _ _ => ?_)
    | with_reducible refine State.answer_keeps ?_
    | with_reducible refine State.setUpd_keeps ?_

theorem execGetFirmwareParameters_keeps {z t} {via} (e : execGetFirmwareParameters via z = .next t) : Keeps z t := by
  unfold execGetFirmwareParameters at e
  injection e with e
  subst e
  have h := Keeps.refl z
  repeat' first
    | with_reducible assumption
    | with_reducible refine serveMsg_keeps ?_ (fun _ _ => ?_)
    | with_reducible refine State.answer_keeps ?_

theorem execPassComponentTable_keeps {z t} {via} (e : execPassComponentTable via z = .next t) : Keeps z t := by
  unfold execPassComponentTable at e
  injection e with e
  subst e
  have h := Keeps.refl z
  repeat' first
    | with_reducible assumption
    | with_reducible refine inUpdate_keeps ?_ (fun _ _ => ?_)
    | with_reducible refine State.setUpd_keeps ?_

theorem execUpdateComponent_keeps {z t} {via} (e : execUpdateComponent via z = .next t) : Keeps z t := by
  unfold execUpdateComponent at e
  injection e with e
  subst e
  have h := Keeps.refl z
  repeat' first
    | with_reducible assumption
    | with_reducible refine inUpdate_keeps ?_ (fun _ _ => ?_)
    | with_reducible refine State.setUpd_keeps ?_
    | with_reducible refine State.setInactive_keeps ?_

theorem execRequestFirmwareData_keeps {z t} {via off data} (e : execRequestFirmwareData via off data z = .next t) : Keeps z t := by
  unfold execRequestFirmwareData at e
  injection e with e
  subst e
  have h := Keeps.refl z
  repeat' first
    | with_reducible assumption
    | with_reducible refine Keeps.ite ?_ (fun _ => ?_)
    | with_reducible refine serveMsg_keeps ?_ (fun _ _ => ?_)
    | with_reducible refine State.setInactive_keeps ?_

theorem execTransferComplete_keeps {z t} {via} (e : execTransferComplete via z = .next t) : Keeps z t := by
  unfold execTransferComplete at e
  injection e with e
  subst e
  have h := Keeps.refl z
  repeat' first
    | with_reducible assumption
    | with_reducible refine inUpdate_keeps ?_ (fun _ _ => ?_)
    | with_reducible refine State.setUpd_keeps ?_

theorem execVerifyComplete_keeps {z t} {via sigOk version} (e : execVerifyComplete via sigOk version z = .next t) : Keeps z t := by
  unfold execVerifyComplete at e
  injection e with e
  subst e
  have h := Keeps.refl z
  repeat' first
    | with_reducible assumption
    | with_reducible refine Keeps.ite ?_ (fun _ => ?_)
    | with_reducible refine inUpdate_keeps ?_ (fun _ _ => ?_)
    | with_reducible refine State.setUpd_keeps ?_
    | with_reducible refine State.setInactive_keeps ?_

theorem execApplyComplete_keeps {z t} {via} (e : execApplyComplete via z = .next t) : Keeps z t := by
  unfold execApplyComplete at e
  injection e with e
  subst e
  have h := Keeps.refl z
  repeat' first
    | with_reducible assumption
    | with_reducible refine inUpdate_keeps ?_ (fun _ _ => ?_)
    | with_reducible refine State.setUpd_keeps ?_

theorem execActivateFirmware_keeps {z t} {via} (e : execActivateFirmware via z = .next t) : Keeps z t := by
  unfold execActivateFirmware at e
  injection e with e
  subst e
  have h := Keeps.refl z
  repeat' first
    | with_reducible assumption
    | with_reducible refine inUpdate_keeps ?_ (fun _ _ => ?_)
    | fail_if_no_progress refine Keeps.upd ?_ (Nat.le_refl _) rfl

theorem execGetStatus_keeps {z t} {via} (e : execGetStatus via z = .next t) : Keeps z t := by
  unfold execGetStatus at e
  injection e with e
  subst e
  have h := Keeps.refl z
  repeat' first
    | with_reducible assumption
    | with_reducible refine serveMsg_keeps ?_ (fun _ _ => ?_)
    | with_reducible refine State.answer_keeps ?_

theorem execCancelUpdate_keeps {z t} {via} (e : execCancelUpdate via z = .next t) : Keeps z t := by
  unfold execCancelUpdate at e
  injection e with e
  subst e
  have h := Keeps.refl z
  repeat' first
    | with_reducible assumption
    | with_reducible refine Keeps.ite ?_ (fun _ => ?_)
    | with_reducible refine serveMsg_keeps ?_ (fun _ _ => ?_)
    | with_reducible refine State.answer_keeps ?_
    | with_reducible refine State.setUpd_keeps ?_

theorem execGetVersion_keeps {z t} {via} (e : execGetVersion via z = .next t) : Keeps z t := by
  unfold execGetVersion at e
  injection e with e
  subst e
  have h := Keeps.refl z
  repeat' first
    | with_reducible assumption
    | with_reducible refine spdm_keeps ?_

theorem execGetCapabilities_keeps {z t} {via} (e : execGetCapabilities via z = .next t) : Keeps z t := by
  unfold execGetCapabilities at e
  injection e with e
  subst e
  have h := Keeps.refl z
  repeat' first
    | with_reducible assumption
    | with_reducible refine spdm_keeps ?_

theorem execNegotiateAlgorithms_keeps {z t} {via} (e : execNegotiateAlgorithms via z = .next t) : Keeps z t := by
  unfold execNegotiateAlgorithms at e
  injection e with e
  subst e
  have h := Keeps.refl z
  repeat' first
    | with_reducible assumption
    | with_reducible refine spdm_keeps ?_

theorem execGetDigests_keeps {z t} {via} (e : execGetDigests via z = .next t) : Keeps z t := by
  unfold execGetDigests at e
  injection e with e
  subst e
  have h := Keeps.refl z
  repeat' first
    | with_reducible assumption
    | with_reducible refine spdm_keeps ?_

theorem execGetCertificate_keeps {z t} {via slot x2 x3} (e : execGetCertificate via slot x2 x3 z = .next t) : Keeps z t := by
  unfold execGetCertificate at e
  injection e with e
  subst e
  have h := Keeps.refl z
  repeat' first
    | with_reducible assumption
    | with_reducible refine spdm_keeps ?_

theorem execChallenge_keeps {z t} {via slot x2} (e : execChallenge via slot x2 z = .next t) : Keeps z t := by
  unfold execChallenge at e
  injection e with e
  subst e
  have h := Keeps.refl z
  repeat' first
    | with_reducible assumption
    | with_reducible refine spdm_keeps ?_

theorem execGetMeasurements_keeps {z t} {via index} (e : execGetMeasurements via index z = .next t) : Keeps z t := by
  unfold execGetMeasurements at e
  injection e with e
  subst e
  have h := Keeps.refl z
  repeat' first
    | with_reducible assumption
    | with_reducible refine spdm_keeps ?_

theorem execRegRead_keeps {z t} {via off} (e : execRegRead via off z = .next t) : Keeps z t := by
  unfold execRegRead at e
  injection e with e
  subst e
  have h := Keeps.refl z
  repeat' first
    | with_reducible assumption
    | with_reducible refine regCommand_keeps ?_ (fun _ _ => ?_)
    | with_reducible refine State.reply_keeps ?_
    | with_reducible refine State.drawn_keeps ?_

theorem execRegWrite_keeps {z t} {via off v} (e : execRegWrite via off v z = .next t) : Keeps z t := by
  unfold execRegWrite at e
  injection e with e
  subst e
  have h := Keeps.refl z
  repeat' first
    | with_reducible assumption
    | with_reducible refine regCommand_keeps ?_ (fun _ _ => ?_)
    | with_reducible refine State.reply_keeps ?_
    | with_reducible refine pfWrite_keeps ?_

theorem execSidebandRegisterTimeout_keeps {z t} {via off} (e : execSidebandRegisterTimeout via off z = .next t) : Keeps z t := by
  unfold execSidebandRegisterTimeout at e
  injection e with e
  subst e
  have h := Keeps.refl z
  repeat' first
    | with_reducible assumption
    | with_reducible refine regCommand_keeps ?_ (fun _ _ => ?_)
    | with_reducible refine State.reply_keeps ?_
    | with_reducible refine State.logError_keeps ?_

theorem execAlarmRead_keeps {z t} {via} (e : execAlarmRead via z = .next t) : Keeps z t := by
  unfold execAlarmRead at e
  injection e with e
  subst e
  have h := Keeps.refl z
  repeat' first
    | with_reducible assumption
    | with_reducible refine vendor_keeps ?_ (fun _ _ => ?_)
    | with_reducible refine State.reply_keeps ?_
    | fail_if_no_progress refine Keeps.upd ?_ (Nat.le_refl _) rfl

theorem execLogRead_keeps {z t} {via off len} (e : execLogRead via off len z = .next t) : Keeps z t := by
  unfold execLogRead at e
  injection e with e
  subst e
  have h := Keeps.refl z
  repeat' first
    | with_reducible assumption
    | with_reducible refine Keeps.ite ?_ (fun _ => ?_)
    | with_reducible refine vendor_keeps ?_ (fun _ _ => ?_)
    | with_reducible refine State.reply_keeps ?_
    | with_reducible refine State.drawn_keeps ?_
    | with_reducible refine State.logReads_keeps ?_

theorem execDumpRead_keeps {z t} {via index piece} (e : execDumpRead via index piece z = .next t) : Keeps z t := by
  unfold execDumpRead at e
  injection e with e
  subst e
  have h := Keeps.refl z
  repeat' first
    | with_reducible assumption
    | with_reducible refine vendor_keeps ?_ (fun _ _ => ?_)
    | with_reducible refine State.reply_keeps ?_
    | with_reducible refine State.logReads_keeps ?_
    | split

theorem execRecover_keeps {z t} {via} (e : execRecover via z = .next t) : Keeps z t := by
  unfold execRecover at e
  injection e with e
  subst e
  have h := Keeps.refl z
  repeat' first
    | with_reducible assumption
    | with_reducible refine Keeps.ite ?_ (fun _ => ?_)
    | with_reducible refine vendor_keeps ?_ (fun _ _ => ?_)
    | with_reducible refine State.reply_keeps ?_
    | with_reducible refine startRecovery_keeps ?_

theorem execClaim_keeps {z t} {via res op} (e : execClaim via res op z = .next t) : Keeps z t := by
  unfold execClaim at e
  injection e with e
  subst e
  have h := Keeps.refl z
  repeat' first
    | with_reducible assumption
    | with_reducible refine vendor_keeps ?_ (fun _ _ => ?_)
    | with_reducible refine State.reply_keeps ?_
    | with_reducible refine State.claimFor_keeps ?_
    | with_reducible refine State.releaseFor_keeps ?_
    | with_reducible refine forceRelease_keeps ?_
    | split

theorem execStatus_keeps {z t} {via} (e : execStatus via z = .next t) : Keeps z t := by
  unfold execStatus at e
  injection e with e
  subst e
  have h := Keeps.refl z
  repeat' first
    | with_reducible assumption
    | with_reducible refine vendor_keeps ?_ (fun _ _ => ?_)
    | with_reducible refine State.reply_keeps ?_

theorem execFunctionLevelReset_keeps {z t} {fn} (e : execFunctionLevelReset fn z = .next t) : Keeps z t := by
  unfold execFunctionLevelReset at e
  injection e with e
  subst e
  have h := Keeps.refl z
  repeat' first
    | with_reducible assumption
    | with_reducible refine funcReset_keeps ?_

theorem execPerstNAssert_keeps {z t} (e : execPerstNAssert z = .next t) : Keeps z t := by
  unfold execPerstNAssert at e
  injection e with e
  subst e
  have h := Keeps.refl z
  repeat' first
    | with_reducible assumption
    | with_reducible refine Keeps.ite ?_ (fun _ => ?_)
    | with_reducible refine State.funcResets_keeps ?_
    | with_reducible refine State.endpointReset_keeps ?_

theorem execPerstNDeassert_keeps {z t} (e : execPerstNDeassert z = .next t) : Keeps z t := by
  unfold execPerstNDeassert at e
  injection e with e
  subst e
  have h := Keeps.refl z
  repeat' first
    | with_reducible assumption
    | with_reducible refine restartCommand_keeps ?_
    | fail_if_no_progress refine Keeps.upd ?_ (Nat.le_refl _) rfl

theorem execRegisterWrite_keeps {z t} {fn off size v poisoned} (e : execRegisterWrite fn off size v poisoned z = .next t) : Keeps z t := by
  unfold execRegisterWrite at e
  injection e with e
  subst e
  have h := Keeps.refl z
  repeat' first
    | with_reducible assumption
    | with_reducible refine Keeps.ite ?_ (fun _ => ?_)
    | with_reducible refine State.writeDropped_keeps ?_
    | with_reducible refine State.poisonedTlp_keeps ?_
    | with_reducible refine State.badAccess_keeps ?_
    | with_reducible refine pfWrite_keeps ?_
    | with_reducible refine vfWrite_keeps ?_

theorem execRegisterReadTimeout_keeps {z t} {x0 off x2} (e : execRegisterReadTimeout x0 off x2 z = .next t) : Keeps z t := by
  unfold execRegisterReadTimeout at e
  injection e with e
  subst e
  have h := Keeps.refl z
  repeat' first
    | with_reducible assumption
    | with_reducible refine State.logError_keeps ?_
    | fail_if_no_progress refine Keeps.upd ?_ (Nat.le_refl _) rfl

theorem execErrTailWrite_keeps {z t} {v} (e : execErrTailWrite v z = .next t) : Keeps z t := by
  unfold execErrTailWrite at e
  injection e with e
  subst e
  have h := Keeps.refl z
  repeat' first
    | with_reducible assumption
    | with_reducible refine errTail_keeps ?_

theorem execStkSlotMapWrite_keeps {z t} {st i v} (e : execStkSlotMapWrite st i v z = .next t) : Keeps z t := by
  unfold execStkSlotMapWrite at e
  injection e with e
  subst e
  have h := Keeps.refl z
  repeat' first
    | with_reducible assumption
    | with_reducible refine State.whenReady_keeps ?_ (fun _ _ => ?_)
    | with_reducible refine State.setPf_keeps ?_

theorem execBar2Read_keeps {z t} {fn off len} (e : execBar2Read fn off len z = .next t) : Keeps z t := by
  unfold execBar2Read at e
  injection e with e
  subst e
  have h := Keeps.refl z
  repeat' first
    | with_reducible assumption
    | with_reducible refine Keeps.ite ?_ (fun _ => ?_)
    | with_reducible refine State.readData_keeps ?_
    | with_reducible refine State.poisonedEntry_keeps ?_
    | fail_if_no_progress refine Keeps.upd ?_ (Nat.le_refl _) rfl

theorem execBar2Write_keeps {z t} {fn off data poisoned} (e : execBar2Write fn off data poisoned z = .next t) : Keeps z t := by
  unfold execBar2Write at e
  injection e with e
  subst e
  have h := Keeps.refl z
  repeat' first
    | with_reducible assumption
    | with_reducible refine Keeps.ite ?_ (fun _ => ?_)
    | with_reducible refine State.poisonedTlp_keeps ?_
    | with_reducible refine State.writeVirt_keeps ?_
    | with_reducible refine State.poisonedEntry_keeps ?_

end Sys2Proof.Machine
end

