-- ==== Sys2Proof/WellFormed.lean ====
section
/-! DEFINITION. Which commands can arrive from outside: the bounds on operands that their types do not say. `exec` is
total and does not ask for them; an ill-formed command stands for nothing that the module can receive. -/

namespace Sys2Proof

/-- The bytes of BAR0 of a function: 64 MiB of the PF and 1 MiB of a VF (17 R411, R412). -/
def bar0Bytes (fn : Nat) : Nat := if fn = 0 then 0x4000000 else 0x100000

/-- The bytes of BAR2 (17 R413). -/
def bar2Bytes : Nat := 0x100000000

/-- An access of BAR0 lies inside it and is of a size that PCIe has. -/
def wfAccess (fn off size : Nat) : Bool := off + size ≤ bar0Bytes fn && 0 < size

/-- The payload that a flit can carry: up to 29 granules of 8 bytes, 28 in a contribution and a result; its bad granules
lie inside it (16 R382, R383). -/
def Flit.wf (f : Flit) (most : Nat) : Bool :=
  f.payload.length ≤ 8 * most && f.payload.length % 8 = 0 && f.badG.all (fun g => 8 * g < f.payload.length)

/-- A flit of the control channel carries no payload (16 R383). -/
def Flit.bare (f : Flit) : Bool := f.payload.isEmpty && f.badG.isEmpty

/-- The bounds on the operands of a command. -/
def Instr.wf (i : Instr) : Bool :=
  match i with
  | .registerWrite fn off size _ _ => wfAccess fn off size
  | .registerReadTimeout fn off bar2 => if bar2 then off < bar2Bytes else off < bar0Bytes fn
  | .bar2Read _ off len => off + len ≤ bar2Bytes
  | .bar2Write _ off data _ => off + data.length ≤ bar2Bytes
  | .put _ f => f.wf 29
  | .red _ f | .redResult _ f => f.wf 28
  | .timesyncRequest _ f _ _ | .timesyncResponse _ f _ => f.wf 29
  | .sig _ f | .landed _ f | .stepRetry _ f | .resetNotice _ f | .join _ f | .peerDown _ f => f.bare
  | .regRead _ off | .regWrite _ off _ | .sidebandRegisterTimeout _ off => off < bar0Bytes 0
  | .crashDump silent => silent.all (fun u => u < 559)
  | .patrolScrub st found => found.all (fun f => 8 * f.granule / 2 ^ 36 = st)
  | .startStageDone _ (.done failed) => failed.all (fun c => c < 264)
  | _ => true

end Sys2Proof
end

