-- ==== Sys2Proof/Tests/Slice0.lean ====
section
/-! SUPPORT. Own tests: commands that cannot arrive, the spec's worked examples, and for every statement with
hypotheses a state and operands that meet them. -/

namespace Sys2Proof.Tests

open Sys2Proof Sys2Proof.Machine

set_option Elab.async false

/-! ### Small states -/

/-- A submission record with nothing set but its opcode and its context, 1. -/
def rec1 (op : Nat) : SubRec :=
  { opcode := BitVec.ofNat 8 op, phase := 0, ctx := 1, flags := 0, op0 := 0, op1 := 0, deadline := 0, layerBase := 0
    rsv22 := 0, tag := 0, rsv30 := 0, unread := false }

/-- A RUN with code at address 0 of 4 KiB, a live map of one entry behind it, and every format. -/
def run1 : Run :=
  { sub := rec1 1, tick := 0, energy := 0, deadline := 2000, implicit := true, missed := false, status := 0, formats := 0x3FFF, code := 0
    codeSize := 4096, liveMap := 0x1000, liveSize := 1, started := true, groups := [] }

/-- Context 1 of partition p runs it on logical core 0. -/
def ctx1 (p : Nat) : Ctx :=
  { Ctx.fresh with st := .running, part := p, cores := [0], run := some run1, sqLog2 := 4, accepted := [{ sub := rec1 1, tick := 0, missed := false, energy := 0 }] }

/-- The first line of the code: the words of `i`, then zeros. -/
def lineOfCode (i : Instr) : List PByte :=
  clean (((((encode i).map (fun w : W64 => leBytes 8 w.toNat)).flatten) ++ List.replicate 256 0).take 256)

/-- Physical core 0 in context 1, the first line of its code, which begins with `i`, in the control cache. -/
def core1 (i : Instr) (x : Exec) : PCore :=
  { PCore.fused 0 with ctx := some 1, run := .running, cache := [(1, 0, lineOfCode i)], x := x }

/-- Module 0 of a job of two, which partition 0 holds; group 0 is both, and reduces at port 0. -/
def job1 : Job :=
  { size := 2, rank := 0, tag := 1, epoch := 0, spray := false, adapt := false, window := 1, rejoin := 1
    groups := [(0, { members := [0, 1], index := 0, port := 0 })], routes := [(1, 1)], members := [], macs := [] }

/-- The state of these; partition 0 has a pool of one 2 MiB page, whose first frame is allocated. -/
def runsIn (p : Nat) (i : Instr) (x : Exec) : State :=
  { State.reset with
    cores := [(0, core1 i x)], ctxs := [(1, ctx1 p)], parts := [(0, { Part.fresh 0 with job := some job1 })]
    pf := [(partReg 0 3, 0x100000001)], frames := [(32, { frames := 1, count := 1 })] }

def runs (i : Instr) (x : Exec) : State := runsIn 0 i x

/-- The state with a halt at the first word, where only the core's context matters. -/
def idle (x : Exec) : State := runs (.sqHalt 0) x

/-- Registers whose descriptor i names 64 KiB of the core's scratchpad from i times 64 KiB; scalar register `i` holds
what `s` lists. -/
def regsOf (s : List (Nat × W64)) : Regs :=
  { Regs.zero with s := s, a := (List.range 16).map (fun i => (i, (BitVec.ofNat 64 (0x20000000000 + i * 0x10000), 0x10000))) }

def exec1 (g : Regs) : Exec := { Exec.zero with regs := g }

/-- The core is at its first word, nothing holds it, and the first words spell `i`. -/
def atFirst (i : Instr) (x : Exec) : Bool :=
  x.regs.pc = 0 && x.regs.loops.isEmpty && x.hold = .clear
    && decodeWords 0 (wordAt (lineOfCode i) 0)
        (if hasExt (wordAt (lineOfCode i) 0) then wordAt (lineOfCode i) 8 else 0) = some i

theorem fetchesOf (s : State) (p : Nat) (i : Instr) (x : Exec) (hc : s.core 0 = core1 i x) (hx : s.ctx 1 = ctx1 p)
    (ho : s.overdue 1 = false) (hs : ∀ st : Fin 16, (s.stack st).selfRef = false) (h : atFirst i x = true) : Fetches s 0 i 1 run1 x.regs s := by
  simp only [atFirst, Bool.and_eq_true, decide_eq_true_eq, List.isEmpty_iff] at h
  obtain ⟨⟨⟨hp, hl⟩, hh⟩, hd⟩ := h
  have h2 : ∀ v, v / 256 = 0 → ∀ w, s.fillLine 0 1 w v = { s := s, bs := lineOfCode i, stop := false } := by
    intro v hv w
    simp [State.fillLine, hc, core1, lineOf, hv]
  have h3 : ∀ m, m ≤ 2 → badFetch run1 x.regs m = false := by
    intro m hm
    simp only [badFetch, hp, hl, run1, List.any_nil, Bool.and_false, Bool.or_false, decide_eq_false_iff_not]
    omega
  refine ⟨fun st => ⟨hs st, hs st⟩, ?_, ?_⟩
  · simp [State.issuing, ho, hc, hx, core1, ctx1, PCore.fused, Ctx.fresh, hh]
  · have hr : run1.code = 0 := rfl
    have hf : (Fin.ofNat 264 0 : Fin 264) = 0 := rfl
    simp only [State.fetch, h3 1 (by decide), hp, h2 (run1.code + 0) (by rw [hr]), State.fetchExt, Bool.false_eq_true, if_false]
    rw [hr]
    simp only [Nat.zero_add]
    by_cases hy : hasExt (wordAt (lineOfCode i) 0) = true
    · rw [if_pos hy] at hd
      simp only [hy, h3 2 (by decide), h2 8 (by decide), Bool.false_eq_true, if_false, if_true, hf, hd, Option.elim]
    · rw [if_neg hy] at hd
      simp only [hy, Bool.false_eq_true, if_false, hf, hd, Option.elim]

theorem fetchesIn (p : Nat) (i : Instr) (x : Exec) (h : atFirst i x = true) :
    Fetches (runsIn p i x) 0 i 1 run1 x.regs (runsIn p i x) :=
  fetchesOf _ p i x rfl rfl rfl (fun _ => rfl) h

theorem fetches (i : Instr) (x : Exec) (h : atFirst i x = true) : Fetches (runs i x) 0 i 1 run1 x.regs (runs i x) :=
  fetchesIn 0 i x h

/-- The record with which an instruction issues on that core. -/
def issued1 (F : Form) (i : Instr) (x : Exec) (stks : Nat) : Issued :=
  { id := x.nextId, group := x.groupNo, eng := F.eng, instr := i, regs := x.regs, stks := stks, brk := x.breaks
    step := x.step.map (fun o => (o.num.toNat % 2 ^ 24, o.rep)) }


/-- The record with which `i` issues on that core. -/
def record (i : Instr) (x : Exec) : Issued :=
  match formOf i with
  | none => { id := 0, group := 0, eng := .coll, instr := i, regs := x.regs, stks := 0, brk := 0, step := none }
  | some F => match F.check (runs i x) 1 x.regs with
    | .ok _ stks => issued1 F i x stks
    | .fail _ => issued1 F i x 0

/-- The core's context once `i` has issued. -/
def issuedOf (i : Instr) (x : Exec) : Exec :=
  match formOf i with
  | none => x
  | some F => match F.check (runs i x) 1 x.regs with
    | .ok ranges _ => x.issued F.words 0 i ranges (F.next x.regs)
    | .fail _ => x

/-- The state in which it starts. -/
def begun (i : Instr) (x : Exec) : State := startOf (runs i x) 0 (issuedOf i x) (record i x)

/-- Core 0 may issue `i` there. -/
def mayIssue (i : Instr) (x : Exec) : Bool :=
  match formOf i with
  | none => false
  | some F => F.core = 0 && F.ready (runs i x) 0 && atFirst i x && (x.queueOf F.eng).length < 8
    && (match F.check (runs i x) 1 x.regs with
        | .ok ranges _ => x.tags.length + (mergeRanges ranges).length ≤ 64
        | .fail _ => false)

theorem issues {i : Instr} {F : Form} (x : Exec) (hF : formOf i = some F) (h : mayIssue i x = true) :
    Issues (runs i x) F.core F.words F.eng i F.ready F.check F.next 1 (runs i x) (record i x) (issuedOf i x) := by
  simp only [mayIssue, hF, Bool.and_eq_true, decide_eq_true_eq] at h
  obtain ⟨⟨⟨⟨hc, hr⟩, ha⟩, hq⟩, hk⟩ := h
  have hx : (runs i x).x 0 = x := rfl
  cases hv : F.check (runs i x) 1 x.regs with
  | fail c => rw [hv] at hk; cases hk
  | ok ranges stks =>
    rw [hv] at hk
    have h1 : record i x = issued1 F i x stks := by simp only [record, hF, hv]
    have h2 : issuedOf i x = x.issued F.words 0 i ranges (F.next x.regs) := by simp only [issuedOf, hF, hv]
    have hr' : (record i x).regs = x.regs := by rw [h1]; rfl
    have hs' : (record i x).stks = stks := by rw [h1]; rfl
    refine ⟨⟨run1, ?_⟩, ?_, ?_, ⟨ranges, ?_, ?_, ?_⟩, ?_⟩
    · rw [hc, hr']
      exact fetches i x ha
    · rw [hc]; exact hr
    · rw [hc, hx, h1]; rfl
    · rw [hr', hs']; exact hv
    · rw [hc, hx]; exact of_decide_eq_true hk
    · rw [hc, hx, hr', h2]; rfl
    · rw [hc, hx]; exact hq

/-- `i` issues on the core and starts at once. -/
abbrev Begins (i : Instr) (x : Exec) : Prop := Starts (runs i x) i 1 (runs i x) (record i x) (begun i x)

theorem starts (i : Instr) (x : Exec) (h : mayIssue i x = true) (hm : (issuedOf i x).mayStart (record i x) = true) :
    Begins i x := by
  cases hF : formOf i with
  | none => simp only [mayIssue, hF] at h; cases h
  | some F =>
    refine ⟨F, issuedOf i x, hF, issues x hF h, hm, ?_⟩
    have hc : F.core = 0 := by
      simp only [mayIssue, hF, Bool.and_eq_true, decide_eq_true_eq] at h
      exact h.1.1.1.1
    rw [hc]; rfl

/-- Each instruction of a list is fetched on that core. -/
theorem fetchesAll (l : List Instr) (x : Exec) (h : l.all (fun i => atFirst i x) = true) :
    ∀ i ∈ l, Fetches (runs i x) 0 i 1 run1 x.regs (runs i x) :=
  fun i hi => fetches i x (List.all_eq_true.mp h i hi)

/-- Each instruction of a list issues on that core and starts at once. -/
theorem startsAll (l : List Instr) (x : Exec) (h : l.all (fun i => mayIssue i x && (issuedOf i x).mayStart (record i x)) = true) :
    ∀ i ∈ l, Begins i x := by
  intro i hi
  have := List.all_eq_true.mp h i hi
  rw [Bool.and_eq_true] at this
  exact starts i x this.1 this.2

/-- Registers with nothing in the scalar ones, and the core's context with the registers of `l`. -/
def z : Exec := exec1 (regsOf [])
def zs (l : List (Nat × W64)) : Exec := exec1 (regsOf l)

/-- The core's context with a scratchpad that holds `l`. -/
def spOf (x : Exec) (l : List (Nat × Byte)) : Exec := { x with sp := { Ram.zero with bytes := l } }

/-- The module in READY. -/
def ready : State :=
  { State.reset with dev := { Dev.fresh with st := .ready, aon := true, inputOk := true, pwrGood := true, perstN := true } }

/-! ### Statements about the queue and the sequencer -/

theorem witness_EmptyQueueTicks : State.reset.pending = [] ∧ State.reset.dev.aon = false := by decide

/-- An operation of registers 2, 0 and 1, without and with an extension word. -/
def alu (ext : Option W64) : Alu := { sD := 2, sA := 0, sB := if ext.isSome then 0 else 1, ext := ext }

/-- Every two-operand operation, with an operand. -/
def alus (f : Alu) : List Instr :=
  [.sqAdd 0 f, .sqSub 0 f, .sqMul 0 f, .sqAnd 0 f, .sqOr 0 f, .sqXor 0 f, .sqShl 0 f, .sqShr 0 f, .sqSra 0 f, .sqMin 0 f, .sqMax 0 f,
   .sqCmp 0 f 0, .sqCmp 0 f 5]

theorem witness_SequencerArithmetic :
    (∀ i ∈ alus (alu none) ++ alus (alu (some 7)), Fetches (runs i z) 0 i 1 run1 z.regs (runs i z))
      ∧ ((alu (some 7)).ext.isSome = true → (alu (some 7)).sB = 0) ∧ (5 : BitVec 3).toNat < 6 :=
  ⟨fetchesAll _ z (by decide +kernel), by decide, by decide⟩

theorem witness_SequencerMoves :
    (∀ i ∈ ([.sqLi 0 31 (BitVec.allOnes 64), .sqDesc 0 15 0 0, .sqMark 0 0 0xFFFF, .sqPhase 0 7, .sqRds 0 1 0, .sqRds 0 1 255, .sqWrs 0 0 1,
        .sqWrs 0 1 1] : List Instr), Fetches (runs i z) 0 i 1 run1 z.regs (runs i z))
      ∧ ((0 : BitVec 8) = 0 → ((idle z).x 0).drained = true) :=
  ⟨fetchesAll _ z (by decide +kernel), by decide⟩

/-- The last eight bytes of a descriptor: offset 65,528. -/
def edge : Exec := zs [(1, 65528)]

theorem witness_ScalarLoadsAndStores :
    (∀ i ∈ ([.sqLd 0 2 3 1, .sqSt 0 3 1 2] : List Instr), Fetches (runs i edge) 0 i 1 run1 edge.regs (runs i edge)
      ∧ (let off := (edge.regs.getS 1).toNat
         let va := (edge.regs.getA 3).1.toNat + off
         let w := (runs i edge).who 0 edge.regs
         off + 8 ≤ (edge.regs.getA 3).2.toNat ∧ va % 8 = 0
           ∧ (runs i edge).ldstWaits 0 w va false = false ∧ ((runs i edge).readVirt w va 8).stop = false
           ∧ anyBad ((runs i edge).readVirt w va 8).bs = false
           ∧ (runs i edge).ldstWaits 0 w va true = false ∧ ((runs i edge).writeVirt w va (clean (leBytes 8 5))).stop = false)) :=
  fun i hi => ⟨fetchesAll [.sqLd 0 2 3 1, .sqSt 0 3 1 2] edge (by decide +kernel) i hi, by revert i; decide +kernel⟩

theorem witness_SequencerControlFlow :
    (∀ i ∈ ([.sqBr 0 6 0 0 0xFFFFFFFF, .sqBr 0 0 1 2 1, .sqLoop 0 3 1 1, .sqLoop 0 3 2 1, .sqDeadline 0 1, .sqYield 0, .sqHalt 0] : List Instr),
        Fetches (runs i (zs [(1, 0xFFFFFFFF)])) 0 i 1 run1 (zs [(1, 0xFFFFFFFF)]).regs (runs i (zs [(1, 0xFFFFFFFF)])))
      ∧ ((6 : BitVec 3) ≠ 7 ∧ ((6 : BitVec 3) = 6 → (0 : BitVec 5) = 0 ∧ (0 : BitVec 5) = 0)) ∧ (1 : BitVec 16) ≠ 0
      ∧ ((zs [(1, 0xFFFFFFFF)]).regs.getS 1).toNat < 2 ^ 32 :=
  ⟨fetchesAll _ _ (by decide +kernel), by decide, by decide, by decide⟩

theorem witness_LiveMaps :
    Fetches (runs (.sqLive 0 0) z) 0 (.sqLive 0 0) 1 run1 z.regs (runs (.sqLive 0 0) z) ∧ (0 : BitVec 12).toNat < run1.liveSize
      ∧ (let f := (runs (.sqLive 0 0) z).fillLine 0 1 ((runs (.sqLive 0 0) z).who 0 z.regs) (run1.liveMap + 64 * 0)
         f.stop = false ∧ liveOk (plain ((f.bs.drop (run1.liveMap % 256)).take 64)) = true) :=
  ⟨fetches _ z (by decide +kernel), by decide, by decide +kernel⟩

theorem witness_CacheInvalidation :
    let x := zs [(1, 65536)]
    Fetches (runs (.sqIcinv 0 3 0 1) x) 0 (.sqIcinv 0 3 0 1) 1 run1 x.regs (runs (.sqIcinv 0 3 0 1) x)
      ∧ 0 + (x.regs.getS 1).toNat ≤ (x.regs.getA 3).2.toNat ∧ ((runs (.sqIcinv 0 3 0 1) x).x 0).drained = true :=
  ⟨fetches _ _ (by decide +kernel), by decide, by decide⟩

/-- A core whose pc is the end of the code. -/
def pastEnd : Exec := { z with regs := { z.regs with pc := 4096 } }

/-- An extension word with sB 7; COND 6 for a comparison; COND 7, and 6 with a register, for a branch; an empty body; a
count of 2^32; an access of which 7 bytes lie inside, and one at 4. -/
theorem witness_IllegalSequencerForms :
    let x := zs [(1, 0x100000000), (2, 65529), (3, 4)]
    (∀ i ∈ ([.sqAdd 0 { alu (some 7) with sB := 7 }, .sqCmp 0 (alu none) 6, .sqBr 0 7 0 0 0, .sqBr 0 6 0 1 0, .sqLoop 0 0 0 0,
        .sqLoop 0 0 1 1, .sqLd 0 1 3 2, .sqLd 0 1 3 3] : List Instr), Fetches (runs i x) 0 i 1 run1 x.regs (runs i x))
      ∧ 2 ^ 32 ≤ (x.regs.getS 1).toNat ∧ (x.regs.getA 3).2.toNat < (x.regs.getS 2).toNat + 8
      ∧ ((x.regs.getA 3).1.toNat + (x.regs.getS 3).toNat) % 8 ≠ 0 :=
  ⟨fetchesAll _ _ (by decide +kernel), by decide, by decide, by decide⟩

theorem witness_FetchOutsideTheCode :
    (idle pastEnd).issuing 0 = some (1, run1, pastEnd.regs) ∧ run1.codeSize < pastEnd.regs.pc + 8
      ∧ (idle pastEnd).fetch 0 1 run1 pastEnd.regs = (idle pastEnd, .fail 4) := by
  refine ⟨by decide +kernel, by decide, ?_⟩
  simp only [State.fetch, show badFetch run1 pastEnd.regs 1 = true by decide, if_true]

/-- A line whose words have class 15, which is reserved. -/
def zeroWord : State := { idle z with cores := [(0, { core1 (.sqHalt 0) z with cache := [(1, 0, clean (leBytes 8 0xF000000000000000))] })] }

theorem witness_WordsOfNoInstruction :
    zeroWord.issuing 0 = some (1, run1, z.regs) ∧ badFetch run1 z.regs 1 = false
      ∧ (let f := zeroWord.fillLine 0 1 (zeroWord.who 0 z.regs) (run1.code + z.regs.pc)
         f.stop = false ∧ hasExt (wordAt f.bs 0) = false ∧ decodeWords 0 (wordAt f.bs 0) 0 = none) := by decide +kernel

theorem witness_BranchTargets :
    Fetches (runs (.sqBr 0 6 0 0 5) z) 0 (.sqBr 0 6 0 0 5) 1 run1 z.regs (runs (.sqBr 0 6 0 0 5) z) ∧ z.regs.pc < 2 ^ 64 :=
  ⟨fetches _ z (by decide +kernel), by decide⟩

/-! ### Statements about engine instructions -/

/-- Matrix instruction 0 waits in the queue while instruction 1 issues. -/
def behind : Exec :=
  { z with nextId := 1
           queue := [{ id := 0, group := 0, eng := .matrix, instr := .mxSwap 0, regs := z.regs, stks := 0, brk := 0, step := none }] }

theorem witness_EngineInstructionsQueue :
    (∃ F, formOf (.mxSwap 0) = some F ∧ F.eng ≠ .coll
      ∧ Issues (runs (.mxSwap 0) behind) F.core F.words F.eng (.mxSwap 0) F.ready F.check F.next 1 (runs (.mxSwap 0) behind)
          (record (.mxSwap 0) behind) (issuedOf (.mxSwap 0) behind))
      ∧ (issuedOf (.mxSwap 0) behind).mayStart (record (.mxSwap 0) behind) = false :=
  ⟨⟨_, rfl, by decide, issues behind rfl (by decide +kernel)⟩, by decide +kernel⟩

theorem witness_EngineInstructionsAbort :
    ∃ F, formOf (.mxForm 0 3) = some F ∧ F.eng ≠ .coll
      ∧ Fetches (runs (.mxForm 0 3) z) F.core (.mxForm 0 3) 1 run1 z.regs (runs (.mxForm 0 3) z)
      ∧ F.ready (runs (.mxForm 0 3) z) F.core = true ∧ F.check (runs (.mxForm 0 3) z) 1 z.regs = .fail 4 :=
  ⟨_, rfl, by decide, fetches _ z (by decide +kernel), rfl, rfl⟩

theorem witness_QueuedInstructionsStart :
    let s := idle behind
    ∃ k F v, (s.x 0).queueOf .matrix = k :: [] ∧ (s.x 0).mayStart k = true ∧ (s.core 0).ctx = some 1 ∧ formOf k.instr = some F
      ∧ F.run (s.setX 0 ({ s.x 0 with queue := (s.x 0).queue.filter (fun q => q.id ≠ k.id) }.begin k s.time)) 0 k = some (.done v) :=
  ⟨_, _, _, rfl, rfl, rfl, rfl, rfl⟩

/-- Matrix instruction 0 is in its engine, with a read tag. -/
def flying : Exec :=
  { z with nextId := 1, tags := [{ no := 0, lo := 0, hi := 64, write := false, owner := 0 }]
           inflight := [{ id := 0, group := 0, eng := .matrix, instr := .mxSwap 0, regs := z.regs, stks := 0, brk := 0, step := none }] }

theorem witness_TagsAndInstructionsEnd :
    (∃ g, ((idle flying).x 0).tags.find? (fun q => q.no = 0) = some g ∧ (idle flying).mayRelease 0 g = true)
      ∧ (∃ k, ((idle flying).core 0).ctx = some 1 ∧ ((idle flying).x 0).inflight.find? (fun q => q.id = 0) = some k)
      ∧ (idle flying).worked 0 0 = true ∧ (idle flying).overdue 1 = false :=
  ⟨⟨_, rfl, rfl⟩, ⟨_, rfl, rfl⟩, rfl, rfl⟩

theorem witness_MatrixForms :
    (∀ i ∈ ([.mxForm 0 2, .mxSwap 0, .mxDrain 0 { sC := 0, rq := 63, pt := false, cq := 0 }] : List Instr), Begins i z)
      ∧ ((begun (.mxForm 0 2) z).x 0).earlierMx (record (.mxForm 0 2) z).id = false :=
  ⟨startsAll _ z (by decide +kernel), by decide +kernel⟩

def wld : Instr := .mxWld 0 { aW := 0, wfmt := 0, sfmt := 0, kx := 0, nx := 0, sS := 0, fq := 0, da := false }
def ergWld : Instr := .mxWld 0 { aW := 0, wfmt := 9, sfmt := 0, kx := 7, nx := 0, sS := 0, fq := 0, da := false }

/-- Erg operands are read once no earlier block waits in the core's expanders. -/
theorem witness_MatrixLoads :
    (∀ i ∈ [wld, ergWld], Begins i z) ∧ ((begun ergWld z).x 0).expanderOpen (record ergWld z).id = true :=
  ⟨startsAll _ z (by decide +kernel), by decide +kernel⟩

/-- One row of a diagonal-form run. -/
def mxRunF : MxRun :=
  { aA := 0, sfmt := 4, mq := 0, sS := 0, sC := 0, kx := 0, wa := false, aB := 0, bfmt := 4, dop := false, da := false }
def diag : Exec := { z with form := 2 }

theorem witness_RunsWriteTheirAccumulatorEntries :
    let i : Instr := .mxRun 0 mxRunF
    Begins i diag ∧ mxRunF.sfmt ≠ 12 ∧ mxRunF.bfmt ≠ 12
      ∧ ((begun i diag).x 0).undrained (record i diag).id (mxRunF.base (record i diag).regs) (mxRunF.m * nTile ((begun i diag).x 0).form)
          = false :=
  ⟨starts _ _ (by decide +kernel) (by decide +kernel), by decide, by decide, by decide +kernel⟩

def mxNmvF : MxNmv :=
  { sW := 1, wfmt := 3, sK := 2, sN := 3, sP := 4, aX := 0, sV := 5, vfmt := 4, vq := 0, aR := 1, da := false }
/-- K 1, N 1, pitch 1. -/
def nmvX : Exec := zs [(2, 1), (3, 1), (4, 1)]

theorem witness_NearMemoryProducts :
    let u := begun (.mxNmv 0 mxNmvF) nmvX
    let k := record (.mxNmv 0 mxNmvF) nmvX
    Begins (.mxNmv 0 mxNmvF) nmvX
      ∧ (let w := u.who 0 k.regs
         let a := mxNmvF.args k.regs
         let x := readOp u w 0 k (mxNmvF.vecs k.regs) mxNmvF.da
         let st := (oneStack (u.stackMask w.part a.base (a.n * a.pitch * 64)) 0).getD 0
         (nmvColumns w 1 st a mxNmvF x.2 a.n x.1).stop = false) :=
  ⟨starts _ _ (by decide +kernel) (by decide +kernel), by decide +kernel⟩

/-! ### Vector, element programs -/

theorem witness_VectorState :
    (∀ i ∈ ([.vxSetvl 0 2 1, .vxSetm 0 7 1, .rnKey 0 1, .rnStream 0 1 1] : List Instr),
        Fetches (runs i (zs [(1, 0x3FFFFFF)])) 0 i 1 run1 (zs [(1, 0x3FFFFFF)]).regs (runs i (zs [(1, 0x3FFFFFF)])))
      ∧ ((zs [(1, 0x3FFFFFF)]).regs.getS 1).toNat < 2 ^ 26 :=
  ⟨fetchesAll _ _ (by decide +kernel), by decide⟩

/-- A program of one ADD of selector 0 and itself, in the scratchpad at descriptor 0. -/
def progBytes : List (Nat × Byte) := [(0, 1), (0x60, 1)]
def prog1 : List PByte := (Ram.read { Ram.zero with bytes := progBytes } 0 128)

theorem witness_ElementProgramLoads :
    let x := spOf z progBytes
    let k := record (.xpDef 0 7 0 0) x
    let u := begun (.xpDef 0 7 0 0) x
    Begins (.xpDef 0 7 0 0) x
      ∧ (let bs := (u.x 0).sp.read ((ownOff (u.window 0) ((k.regs.getA 0).1.toNat + (k.regs.getS 0).toNat) 128).getD 0) 128
         anyBad bs = false ∧ (Prog.ofBytes (plain bs)).ok = true) :=
  ⟨starts _ _ (by decide +kernel) (by decide +kernel), by decide +kernel⟩

/-- A program without input and with one output; `tq` and `ni` name the tile queue as the first input. -/
def ep (ni tq : BitVec 3) : VxEp :=
  { xs := 0, ni := ni, no := false, i0 := 0, i1 := 0, i2 := 0, i3 := 0, o0 := 0, o1 := 0, msk := 0, mz := false, f0 := 0, f1 := 0
    f2 := 0, f3 := 0, fo0 := 0, fo1 := 0, rnd := 0, sat := false, draw := 0, sL := 0, tq := tq, ti := false, bm0 := false
    bm1 := false }

/-- The program in slot 0, the vector length, and tiles that have come. -/
def vecX (vl : Nat) (tiles : List Tile) : Exec :=
  { z with regs := { z.regs with vl := BitVec.ofNat 32 vl, xs := [(0, prog1)] }, tileQ := tiles }

/-- One tile of the float path. -/
def tile1 : Tile := { int := false, vals := [] }

theorem witness_ElementPrograms :
    (∃ p, (record (.vxEp 0 (ep 0 0)) (vecX 0 [])).regs.prog 0 = some p
      ∧ Begins (.vxEp 0 (ep 0 0)) (vecX 0 [])
      ∧ (record (.vxEp 0 (ep 0 0)) (vecX 0 [])).regs.vl = 0)
    ∧ (∃ p, (record (.vxEp 0 (ep 0 0)) (vecX 16384 [])).regs.prog 0 = some p
      ∧ Begins (.vxEp 0 (ep 0 0)) (vecX 16384 [])
      ∧ (record (.vxEp 0 (ep 0 0)) (vecX 16384 [])).regs.vl ≠ 0 ∧ (ep 0 0).tq = 0)
    ∧ (let x := vecX 1024 [tile1]
       let i := Instr.vxEp 0 (ep 1 1)
       ∃ p, (record i x).regs.prog 0 = some p ∧ Begins i x
        ∧ (record i x).regs.vl ≠ 0 ∧ (ep 1 1).tq ≠ 0 ∧ 1024 ∣ (record i x).regs.vl.toNat
        ∧ ((begun i x).x 0).tilesReady ((record i x).regs.vl.toNat / 1024) (ep 1 1).ti = some ((record i x).regs.vl.toNat / 1024)) :=
  ⟨⟨_, rfl, starts _ _ (by decide +kernel) (by decide +kernel), by decide +kernel⟩,
   ⟨_, rfl, starts _ _ (by decide +kernel) (by decide +kernel), by decide +kernel, by decide⟩,
   ⟨_, rfl, starts _ _ (by decide +kernel) (by decide +kernel), by decide +kernel, by decide, by decide +kernel, by decide +kernel⟩⟩

def red (tq : Bool) : Instr := .vxRed 0 { aI := 0, ifmt := 0, aO := 0, rop := 0, sG := 1, msk := 0, tq := tq, ti := false }
def redX (vl : Nat) (tiles : List Tile) : Exec :=
  { vecX vl tiles with regs := { (vecX vl tiles).regs with s := [(1, 1)], a := [(0, (0x20000000000, 0x10000))] } }

theorem witness_Reductions :
    Begins (red false) (redX 0 [])
      ∧ Begins (red false) (redX 16384 [])
      ∧ (let x := redX 1024 [tile1]
         Begins (red true) x
          ∧ (record (red true) x).regs.vl ≠ 0 ∧ 1024 ∣ (record (red true) x).regs.vl.toNat
          ∧ ((begun (red true) x).x 0).tilesReady ((record (red true) x).regs.vl.toNat / 1024) false
              = some ((record (red true) x).regs.vl.toNat / 1024)) :=
  ⟨starts _ _ (by decide +kernel) (by decide +kernel), starts _ _ (by decide +kernel) (by decide +kernel),
   starts _ _ (by decide +kernel) (by decide +kernel), by decide +kernel, by decide +kernel, by decide +kernel⟩

def watch : Instr := .dbWatch 0 { aS := 0, fmt := 0, sN := 1, sL := 0, wm := false, wid := 0, aD := 0, wd := false }

theorem witness_DrawsAndRecords :
    Begins (.rnDraw 0 0 0 0 0) (redX 16384 [])
      ∧ Begins watch z ∧ Fetches (runs (.dbEvent 0 5 1) z) 0 (.dbEvent 0 5 1) 1 run1 z.regs (runs (.dbEvent 0 5 1) z) :=
  ⟨starts _ _ (by decide +kernel) (by decide +kernel), starts _ _ (by decide +kernel) (by decide +kernel), fetches _ z (by decide +kernel)⟩

/-! ### Attention -/

theorem entry_reads (s : State) (w : Who) (c : Nat) (g : Regs) (d i : Nat) (bs : List Byte)
    (h : anyBad ((s.x c).sp.read ((entryOff g (s.window c) d i).getD 0) 16) = false)
    (hb : plain ((s.x c).sp.read ((entryOff g (s.window c) d i).getD 0) 16) = bs) (hr : (LenEnt.ofBytes bs).rsv = 0) :
    ∀ K, withEntry s w c g d i K = K s (LenEnt.ofBytes bs) := by
  intro K
  simp only [withEntry, withSpCtl, h, hb, hr]
  rfl

/-- Length entry 0, at descriptor 2: start 0, length 64, segment 0. -/
def lens : List (Nat × Byte) := [(0x20004, 64)]
def lenX : Exec := spOf z lens
def ent : LenEnt := { start := 0, len := 64, seg := 0, rsv := 0 }

theorem entry_of (u : State) (w : Who) (g : Regs) (hx : (u.x 0).sp.read ((entryOff g (u.window 0) 2 0).getD 0) 16
    = Ram.read { Ram.zero with bytes := lens } 0x20000 16) : ∀ K, withEntry u w 0 g 2 0 K = K u ent := by
  have h := entry_reads u w 0 g 2 0 (plain (Ram.read { Ram.zero with bytes := lens } 0x20000 16)) (by rw [hx]; decide +kernel)
    (by rw [hx]) (by decide +kernel)
  exact h

def qkF : AtQk :=
  { aQ := 0, qfmt := 3, aK := 1, kfmt := 3, aL := 2, sE := 0, sF := 0, sJ := 0, sT := 0, sB := 0, mq := 63, gl := 0, dc := 7
    da := false }
def qk : Instr := .atQk 0 qkF
def pvF : AtPv :=
  { aP := 0, pfmt := 3, aV := 1, vfmt := 3, aL := 2, aS := 3, sF := 0, sJ := 0, sO := 0, mq := 63, dc := 7, da := false }
def pv : Instr := .atPv 0 pvF

theorem witness_AttentionScores :
    let u := begun qk lenX
    let k := record qk lenX
    let g := k.regs
    Begins qk lenX
      ∧ (u.x 0).undrained k.id (qkF.base g) (cdiv qkF.m 16 * 16 * 64) = false
      ∧ (∀ K, withEntry u (u.who 0 g) 0 g qkF.aL.toNat (g.getS qkF.sE.toNat).toNat K = K u ent)
      ∧ ent.start + ent.len ≤ rowExtent g qkF.aQ.toNat qkF.qfmt.toNat qkF.dim qkF.grp
      ∧ ent.start + ent.len ≤ rowExtent g qkF.aK.toNat qkF.kfmt.toNat qkF.dim 1
      ∧ blockIn ent (g.getS qkF.sT.toNat).toNat qkF.m qkF.grp = true ∧ tileIn ent (g.getS qkF.sJ.toNat).toNat = true
      ∧ (({ d := qkF.aK.toNat, fmt := qkF.kfmt.toNat, r0 := ent.start + 64 * (g.getS qkF.sJ.toNat).toNat
            n := tileRows ent (g.getS qkF.sJ.toNat).toNat, dim := qkF.dim, tok := false } : TenRows).ranges g (u.window 0)).isSome
          = true :=
  ⟨starts _ _ (by decide +kernel) (by decide +kernel), by decide +kernel, entry_of _ _ _ (by decide +kernel), by decide +kernel,
   by decide +kernel, by decide +kernel, by decide +kernel, by decide +kernel⟩

theorem witness_AttentionValues :
    let u := begun pv lenX
    let k := record pv lenX
    let g := k.regs
    Begins pv lenX
      ∧ (u.x 0).undrained k.id (pvF.base g) (pvF.slices * pvF.mp * 64) = false
      ∧ (∀ K, withEntry u (u.who 0 g) 0 g pvF.aL.toNat (g.getS pvF.sF.toNat).toNat K = K u ent)
      ∧ ent.start + ent.len ≤ rowExtent g pvF.aV.toNat pvF.vfmt.toNat pvF.dim 1
      ∧ tileIn ent (g.getS pvF.sJ.toNat).toNat = true ∧ mxExtent pvF.vfmt.toNat ent.start = true
      ∧ (({ d := pvF.aV.toNat, fmt := pvF.vfmt.toNat, r0 := ent.start + 64 * (g.getS pvF.sJ.toNat).toNat
            n := tileRows ent (g.getS pvF.sJ.toNat).toNat, dim := pvF.dim, tok := true } : TenRows).ranges g (u.window 0)).isSome
          = true :=
  ⟨starts _ _ (by decide +kernel) (by decide +kernel), by decide +kernel, entry_of _ _ _ (by decide +kernel), by decide +kernel,
   by decide +kernel, by decide +kernel, by decide +kernel⟩

/-- The softmax form with every field that its modes leave at 0, with 16 rows. -/
def sm : AtSm :=
  { aS := 0, aP := 0, aL := 0, aT := 0, sE := 0, sF := 0, sJ := 0, sT := 0, sQ := 0, mq := 15, gl := 0, dc := 0, pfmt := 0, mask := 0
    sW := 0, ofmt := 0, rnd := 0, sat := false, om := false, lse := false, aX := 0, aO := 0 }
def smU : AtSm := { sm with aP := 1, aL := 2, aT := 3, pfmt := 3 }
def smM : AtSm := { sm with aO := 1, aP := 2, aX := 3 }
/-- A score tile has come. -/
def tileX : Exec := { lenX with tileQ := [tile1] }

theorem witness_Softmax :
    (∀ i ∈ ([.atSmInit 0 sm, .atSmMerge 0 smM] : List Instr), Begins i z)
      ∧ (∀ i ∈ ([.atSmFinal 0 { sm with aO := 1 }, .atSmFinal 0 { sm with aO := 1, om := true }] : List Instr), Begins i tileX
          ∧ ((begun i tileX).x 0).tilesReady (cdiv sm.m 16 * cdiv sm.dim 64) false = some (cdiv sm.m 16 * cdiv sm.dim 64)) :=
  ⟨startsAll _ _ (by decide +kernel), fun i hi => ⟨startsAll _ _ (by decide +kernel) i hi, by revert i; decide +kernel⟩⟩

theorem positions_read (u : State) (w : Who) (g : Regs) (d t n o : Nat) (ps : List Nat)
    (ho : spOff g (u.window 0) d (4 * t) (4 * n) = some o) (hb : anyBad ((u.x 0).sp.read o (4 * n)) = false)
    (hp : (List.range n).map (fun i => word32 (plain ((u.x 0).sp.read o (4 * n))) (4 * i)) = ps) :
    ∀ K, withPositions u w 0 g d t n K = K u ps := by
  intro K
  simp only [withPositions, withSpCtl, ho, hb, hp]
  rfl

theorem witness_SoftmaxUpdate :
    let i := Instr.atSmUpdate 0 smU
    let u := begun i tileX
    let g := (record i tileX).regs
    Begins i tileX
      ∧ (u.x 0).tilesReady (cdiv smU.m 16) false = some (cdiv smU.m 16)
      ∧ (∀ K, withEntry u (u.who 0 g) 0 g smU.aL.toNat (g.getS smU.sE.toNat).toNat K = K u ent)
      ∧ blockIn ent (g.getS smU.sT.toNat).toNat smU.m smU.grp = true ∧ tileIn ent (g.getS smU.sJ.toNat).toNat = true
      ∧ (∀ K, withPositions u (u.who 0 g) 0 g smU.aT.toNat (g.getS smU.sT.toNat).toNat ((smU.m - 1) / smU.grp + 1) K
          = K u (List.replicate 16 0))
      ∧ (∀ K, withPositions u (u.who 0 g) 0 g smU.aT.toNat (ent.start + 64 * (g.getS smU.sJ.toNat).toNat)
          (tileRows ent (g.getS smU.sJ.toNat).toNat) K = K u (List.replicate 64 0)) :=
  ⟨starts _ _ (by decide +kernel) (by decide +kernel), by decide +kernel, entry_of _ _ _ (by decide +kernel), by decide +kernel,
   by decide +kernel, positions_read _ _ _ _ _ _ 0x30000 _ (by decide +kernel) (by decide +kernel) (by decide +kernel),
   positions_read _ _ _ _ _ _ 0x30000 _ (by decide +kernel) (by decide +kernel) (by decide +kernel)⟩

theorem ctl_reads (s : State) (w : Who) (va n : Nat) (v : State) (bs : List Byte) (h : (s.readVirt w va n).stop = false)
    (hb : anyBad (s.readVirt w va n).bs = false) (hv : (s.readVirt w va n).s = v) (hs : plain (s.readVirt w va n).bs = bs) :
    ∀ K, withCtl s w va n K = K v bs := by
  intro K
  simp only [withCtl, h, hb, hv, hs]
  rfl

def decF : AtDec :=
  { aQ := 0, qfmt := 3, aG := 1, aT := 2, aO := 3, sN := 1, sH := 0, sLEN := 0, sQ := 0, sW := 0, qq := 0, dc := 0, hq := 0
    pfmt := 3, mask := 0, ofmt := 0, rnd := 0, sat := false, om := false, lse := false, aX := 0, aS := 0, da := false }
/-- A list of one entry that is not valid. -/
def decX : Exec := zs [(1, 1)]

theorem witness_DecodeAttention :
    let i := Instr.atDec 0 decF
    let u := begun i decX
    let g := (record i decX).regs
    let w := u.who 0 g
    let es := [(0, 0)]
    let home := u.wellAt w.part (pteAddr 0) (4 * regionOf 0)
    let q := readQuery u w 1 0 (record i decX) decF (home / 16)
    Begins i decX ∧ AtDec.ergs decF es = false
      ∧ (∀ K, withCtl u w (g.getA decF.aG.toNat).1.toNat (8 * decF.np g) K = K u (List.replicate 8 0))
      ∧ (∀ K, withPositions u w 0 g decF.aT.toNat 0 decF.q K = K u [0])
      ∧ w.ctx = some 1
      ∧ (decPages decF w 1 0 g q.els ([0] ++ List.replicate decF.q 0) es
          { s := q.s, parts := none, flags := Flags.none, wide := 0, work := 0, wells := [], pins := pinsOf (home / 16) q.pins
            stop := if q.stop then some 6 else none }).stop = none :=
  ⟨starts _ _ (by decide +kernel) (by decide +kernel), by decide +kernel,
   ctl_reads _ _ _ _ _ _ (by decide +kernel) (by decide +kernel) rfl (by decide +kernel),
   positions_read _ _ _ _ _ _ 0x20000 _ (by decide +kernel) (by decide +kernel) (by decide +kernel), by decide +kernel,
   by decide +kernel⟩

/-! ### Pages and the prefix directory -/

/-- The argument block lies at descriptor 1, the result record at 2, the output at 3. -/
def pageX (l : List (Nat × Byte)) : Exec := spOf z (l.map (fun p => (0x10000 + p.1, p.2)))

/-- The ops of an `at.page` with those descriptors. -/
def ops (out : Bool) : PageOps :=
  { arg := 0x10000, argLen := 0x10000, res := 0x20000, out := if out then 0x30000 else 0, outLen := if out then 0x10000 else 0 }

theorem block_read (s : State) (o : PageOps) (m : Nat) (h : 64 + m ≤ o.argLen)
    (ha : anyBad ((s.x 0).sp.read o.arg 64) = false) (hb : anyBad ((s.x 0).sp.read (o.arg + 64) m) = false) :
    BlockRead s 0 o m (plain ((s.x 0).sp.read o.arg 64)) (plain ((s.x 0).sp.read (o.arg + 64) m)) := ⟨rfl, rfl, h, ha, hb⟩

/-- 64 pages of 32 frames, formats 4 and 13, on stack 15. -/
def allocX : Exec := pageX [(0, 64), (2, 32), (3, 4), (4, 13), (5, 15)]

theorem witness_PageAllocation :
    let i := Instr.atPageAlloc 0 1 2 3
    let u := begun i allocX
    let h := plain ((u.x 0).sp.read 0x10000 64)
    Begins i allocX
      ∧ pageOps (record i allocX).regs (u.window 0) 1 2 3 true = some (ops true) ∧ BlockRead u 0 (ops true) 0 h []
      ∧ (1 ≤ leNat (h.take 2) ∧ leNat (h.take 2) ≤ 64 ∧ 1 ≤ (h.getD 2 0).toNat ∧ (h.getD 2 0).toNat ≤ 32
        ∧ kvFormat (h.getD 3 0).toNat = true ∧ kvFormat (h.getD 4 0).toNat = true ∧ (h.getD 5 0).toNat < 16
        ∧ (h.drop 6).all (fun x => x = 0) = true ∧ 8 * leNat (h.take 2) ≤ (ops true).outLen)
      ∧ (u.withReclaim (u.who 0 (record i allocX).regs) (fun q => (q.allocMany 0 32 15 (u.part 0).lastAlloc 64).map
          (fun x => (x.1, x.2))) (u.dirEntries 0).length).stop = false :=
  ⟨starts _ _ (by decide +kernel) (by decide +kernel), by decide +kernel,
   block_read _ _ 0 (by decide) (by decide +kernel) (by decide +kernel), by decide +kernel, by decide +kernel⟩

/-- One entry: the pool's allocated page. -/
def listX : Exec := pageX [(0, 1), (64, 1), (66, 0x20)]

theorem witness_PageCounts :
    (∀ i ∈ [Instr.atPageFree 0 1 2 0, .atPageFork 0 1 2 0],
      (pageOps (record i listX).regs ((begun i listX).window 0) 1 2 0 false = some (ops false)
        ∧ 1 ≤ leNat ((plain (((begun i listX).x 0).sp.read 0x10000 64)).take 2)
        ∧ ((plain (((begun i listX).x 0).sp.read 0x10000 64)).drop 2).all (fun x => x = 0) = true))
      ∧ (let i := Instr.atPageFree 0 1 2 0
         Begins i listX ∧ ((begun i listX).x 0).released (record i listX).id = true
          ∧ BlockRead (begun i listX) 0 (ops false) (8 * 1) (plain (((begun i listX).x 0).sp.read 0x10000 64))
              (plain (((begun i listX).x 0).sp.read (0x10000 + 64) 8)))
      ∧ (let i := Instr.atPageFork 0 1 2 0
         Begins i listX
          ∧ BlockRead (begun i listX) 0 (ops false) (8 * 1) (plain (((begun i listX).x 0).sp.read 0x10000 64))
              (plain (((begun i listX).x 0).sp.read (0x10000 + 64) 8))) :=
  ⟨by decide +kernel,
   ⟨starts _ _ (by decide +kernel) (by decide +kernel), by decide +kernel,
    block_read _ _ _ (by decide) (by decide +kernel) (by decide +kernel)⟩,
   ⟨starts _ _ (by decide +kernel) (by decide +kernel), block_read _ _ _ (by decide) (by decide +kernel) (by decide +kernel)⟩⟩

/-- The pool's page for PREP, and an entry outside the pool. -/
def prepX : Exec := pageX [(64, 1), (66, 0x20)]
def strayX : Exec := pageX [(64, 1)]

theorem witness_PagePreparation :
    let i := Instr.atPagePrep 0 1 2 3
    let e := 0x200001
    Begins i prepX
      ∧ Begins i strayX
      ∧ (∀ x ∈ [prepX, strayX], pageOps (record i x).regs ((begun i x).window 0) 1 2 3 true = some (ops true)
          ∧ (plain (((begun i x).x 0).sp.read 0x10000 64)).all (fun y => y = 0) = true
          ∧ anyBad (((begun i x).x 0).sp.read 0x10000 64) = false ∧ anyBad (((begun i x).x 0).sp.read (0x10000 + 64) 8) = false)
      ∧ leNat (plain (((begun i prepX).x 0).sp.read (0x10000 + 64) 8)) = e
      ∧ leNat (plain (((begun i strayX).x 0).sp.read (0x10000 + 64) 8)) = 1
      ∧ (∀ x ∈ [e, 1], pteValid x = true ∧ pteWell x = true ∧ (begun i prepX).inSet 1 [pteK x, pteV x] = true)
      ∧ (∃ q, (begun i prepX).pageOf 0 e = .ok 32 ∧ Tab.at? (begun i prepX).frames 32 = some q ∧ q.count ≤ 1)
      ∧ (begun i strayX).pageOf 0 1 = .error (.status 6) ∧ (begun i strayX).frameOf 0 (pteAddr 1) = .ok 0 :=
  ⟨starts _ _ (by decide +kernel) (by decide +kernel), starts _ _ (by decide +kernel) (by decide +kernel), by decide +kernel,
   by decide +kernel, by decide +kernel, by decide +kernel, ⟨{ frames := 1, count := 1 }, by decide +kernel, by decide +kernel, by decide⟩,
   by decide +kernel, by decide +kernel⟩

/-- One chunk of 512 layers. -/
def lookX : Exec := pageX [(0, 1), (3, 2)]
def insX : Exec := pageX [(0x15, 2)]

theorem witness_PrefixDirectoryOperations :
    (let i := Instr.atPageLookup 0 1 2 3
     let u := begun i lookX
     let h := plain ((u.x 0).sp.read 0x10000 64)
     Begins i lookX
      ∧ pageOps (record i lookX).regs (u.window 0) 1 2 3 true = some (ops true)
      ∧ BlockRead u 0 (ops true) (256 * 1) h (plain ((u.x 0).sp.read (0x10000 + 64) 256))
      ∧ leNat (h.take 2) = 1 ∧ leNat ((h.drop 2).take 2) = 512 ∧ (h.drop 16).all (fun x => x = 0) = true
      ∧ 8 * leNat ((h.drop 2).take 2) * leNat (h.take 2) ≤ (ops true).outLen
      ∧ (u.lookupAll (u.who 0 (record i lookX).regs) 0 512 0 ((chunks 256 1 (plain ((u.x 0).sp.read (0x10000 + 64) 256))).map words4)).stop
        = false)
    ∧ (let i := Instr.atPageInsert 0 1 2 0
       let u := begun i insX
       let h := plain ((u.x 0).sp.read 0x10000 64)
       Begins i insX ∧ (u.x 0).released (record i insX).id = true
        ∧ pageOps (record i insX).regs (u.window 0) 1 2 0 false = some (ops false)
        ∧ BlockRead u 0 (ops false) (256 + 8 * 512) h (plain ((u.x 0).sp.read (0x10000 + 64) (256 + 8 * 512)))
        ∧ leNat ((h.drop 0x14).take 2) = 512 ∧ (h.drop 0x16).all (fun x => x = 0) = true
        ∧ (u.insertChunk (u.who 0 (record i insX).regs) { parent := 0, model := 0, nl := 512, tokens := List.replicate 64 0 }
            (List.replicate 512 0)).2 = false) :=
  ⟨⟨starts _ _ (by decide +kernel) (by decide +kernel), by decide +kernel,
    block_read _ _ _ (by decide) (by decide +kernel) (by decide +kernel), by decide +kernel⟩,
   ⟨starts _ _ (by decide +kernel) (by decide +kernel), by decide +kernel, by decide +kernel,
    block_read _ _ _ (by decide) (by decide +kernel) (by decide +kernel), by decide +kernel, by decide +kernel, by decide +kernel⟩⟩

/-! ### Movement, tables, atomics -/

/-- 8 bytes a row, one row, 4,096 elements. -/
def moveX : Exec := zs [(1, 8), (2, 1), (3, 4096)]
def copyF : DmCopy := { aS := 1, sO := 0, aD := 2, sP := 0, sB := 1, sN := 2, sT := 0, sU := 0 }
def xposeF : DmXpose := { aS := 1, sO := 0, aD := 2, sP := 0, ew := 0, sN := 2, sC := 2, sT := 1, sU := 1 }
def gatherF : DmGather := { aD := 1, aS := 2, aI := 3, sN := 2, sB := 1, sT := 1 }

theorem data_reads (s : State) (w : Who) (va n : Nat) (h : (s.readData w va n).stop = false) :
    ∀ K, withData s w va n K = K (s.readData w va n).s (s.readData w va n).bs := by
  intro K
  simp only [withData, h]
  rfl

theorem side_reads (s : State) (w : Who) (t : Side) (h : (s.readData w (t.va + 0 * t.stride) t.row).stop = false) :
    ∀ K, readSide s w t [0] [] K
      = K (s.readData w (t.va + 0 * t.stride) t.row).s [(s.readData w (t.va + 0 * t.stride) t.row).bs] := by
  intro K
  exact data_reads s w _ _ h _

theorem side_writes (s : State) (w : Who) (t : Side) (bs : List PByte) (h : (s.writeVirt w (t.va + 0 * t.stride) bs).stop = false) :
    ∀ K, writeSide s w t 0 [bs] K = K (s.writeVirt w (t.va + 0 * t.stride) bs).s := by
  intro K
  simp only [writeSide, withWrite, h]
  rfl

theorem witness_Copies :
    let i := Instr.dmCopy 0 copyF
    let u := begun i moveX
    let g := (record i moveX).regs
    Begins i moveX
      ∧ ∃ s1 s2 rows, (∀ K, readSide u (u.who 0 g) (copyF.src g) (List.range (copyF.rows g)) [] K = K s1 rows)
          ∧ (∀ K, writeSide s1 (u.who 0 g) (copyF.dst g) 0 rows K = K s2) :=
  ⟨starts _ _ (by decide +kernel) (by decide +kernel),
   ⟨_, _, _, side_reads _ _ _ (by decide +kernel), side_writes _ _ _ _ (by decide +kernel)⟩⟩

theorem witness_Transposes :
    let i := Instr.dmXpose 0 xposeF
    let u := begun i moveX
    let g := (record i moveX).regs
    Begins i moveX
      ∧ ∃ s1 s2 rows, (∀ K, readSide u (u.who 0 g) (xposeF.src g) (List.range (xposeF.rows g)) [] K = K s1 rows)
          ∧ (∀ K, writeSide s1 (u.who 0 g) (xposeF.dst g) 0 ((List.range (xposeF.cols g)).map (xposeRow xposeF.bytes rows)) K
              = K s2) :=
  ⟨starts _ _ (by decide +kernel) (by decide +kernel),
   ⟨_, _, _, side_reads _ _ _ (by decide +kernel), side_writes _ _ _ _ (by decide +kernel)⟩⟩

theorem gather_done (s : State) (w : Who) (f : DmGather) (g : Regs) (i : W32) (hi : inExtent g f.aS.toNat (i.toNat * f.step g) (f.row g) = true)
    (hr : (s.readData w (baseOf g f.aS.toNat + i.toNat * f.step g) (f.row g)).stop = false)
    (hw : ((s.readData w (baseOf g f.aS.toNat + i.toNat * f.step g) (f.row g)).s.writeVirt w (baseOf g f.aD.toNat + 0 * f.row g)
      (s.readData w (baseOf g f.aS.toNat + i.toNat * f.step g) (f.row g)).bs).stop = false) :
    ∃ t, gatherRows s w f g 0 [i] = .done t := by
  simp only [gatherRows, hi, withData, hr, withWrite, hw]
  exact ⟨_, rfl⟩

theorem witness_Gathers :
    let i := Instr.dmGather 0 gatherF
    let u := begun i moveX
    let g := (record i moveX).regs
    let b := u.readSp (u.who 0 g) 0 ((spAt g (u.window 0) gatherF.aI.toNat (4 * gatherF.rows g)).getD 0) (4 * gatherF.rows g)
    Begins i moveX
      ∧ wordsOf b.2 = [0] ∧ ∃ t, gatherRows b.1 (u.who 0 g) gatherF g 0 [0] = .done t :=
  ⟨starts _ _ (by decide +kernel) (by decide +kernel), by decide +kernel,
   gather_done _ _ _ _ _ (by decide +kernel) (by decide +kernel) (by decide +kernel)⟩

/-- Sixteen entries present, of value 1. -/
def packImage : Image := (List.range 16).map (fun e => 0x1000 + e)
def packX : Exec := { moveX with ex := [(0, { Expander.empty with slots := [(0, { TblSlot.absent with bankA := packImage })] })] }
def expandI : Instr := .dmExpand 0 { aS := 1, efmt := 12, aD := 2, dfmt := 0, aC := 0, sN := 2, rnd := 0, sat := false, da := false }
def packI : Instr := .dmPack 0 { aS := 1, sfmt := 0, aD := 2, sN := 2, slot := 0 }

theorem witness_ExpandsAndPacks :
    Begins expandI moveX
      ∧ ((begun expandI moveX).x 0).expanderOpen (record expandI moveX).id = true
      ∧ Begins packI packX
      ∧ ((begun packI packX).x 0).expanderOpen (record packI packX).id = true
      ∧ packable ((((begun packI packX).x 0).expander 0).slot 0).image = true :=
  ⟨starts _ _ (by decide +kernel) (by decide +kernel), by decide +kernel, starts _ _ (by decide +kernel) (by decide +kernel),
   by decide +kernel, by decide +kernel⟩

def atomF : DmAtom := { aop := 4, sz := true, aT := 1, sO := 0, aV := 2, aC := 3, aR := 4, ret := true, sE := 2 }

theorem witness_Atomics :
    let i := Instr.dmAtom 0 atomF
    let u := begun i moveX
    let g := (record i moveX).regs
    let w := u.who 0 g
    let len := atomF.size * atomF.n g
    let v := u.readSp w 0 ((spAt g (u.window 0) atomF.aV.toNat len).getD 0) len
    let q := v.1.readSp w 0 ((spAt g (u.window 0) atomF.aC.toNat len).getD 0) len
    let es := (List.range (atomF.n g)).map (fun i => (i, (numbersOf atomF.size v.2).getD i 0, (numbersOf atomF.size q.2).getD i 0))
    Begins i moveX
      ∧ (atomElements w atomF.aop.toNat atomF.size (atomF.target g).va es q.1 [] Flags.none).1.stop = false :=
  ⟨starts _ _ (by decide +kernel) (by decide +kernel), by decide +kernel⟩

/-- The image of one present entry at descriptor 1, which is valid. -/
def imageX : Exec := spOf z [(0x10001, 0x10)]

theorem witness_Tables :
    (∀ i ∈ [Instr.dmTblCore 0 1 0 15, .dmTblStack 0 1 0 15 15],
      let u := begun i imageX
      let g := (record i imageX).regs
      let va := (g.getA 1).1.toNat + (g.getS 0).toNat
      (Image.ofBytes (plain (u.readVirt (u.who 0 g) va 128).bs)).valid = true ∧ (u.readVirt (u.who 0 g) va 128).stop = false
        ∧ anyBad (u.readVirt (u.who 0 g) va 128).bs = false)
      ∧ (let i := Instr.dmTblCore 0 1 0 15
         Begins i imageX
          ∧ ((begun i imageX).x 0).expanderOpen (record i imageX).id = true
          ∧ ∃ s1 bs, ∀ K, withCtl (begun i imageX) ((begun i imageX).who 0 (record i imageX).regs)
              (((record i imageX).regs.getA 1).1.toNat + ((record i imageX).regs.getS 0).toNat) 128 K = K s1 bs)
      ∧ (let i := Instr.dmTblStack 0 1 0 15 15
         Begins i imageX
          ∧ (begun i imageX).wellPinned ((begun i imageX).who 0 (record i imageX).regs).part 15 (15 : BitVec 4).toNat = false) :=
  ⟨by decide +kernel,
   ⟨starts _ _ (by decide +kernel) (by decide +kernel), by decide +kernel,
    ⟨_, _, ctl_reads _ _ _ _ _ _ (by decide +kernel) (by decide +kernel) rfl rfl⟩⟩,
   starts _ _ (by decide +kernel) (by decide +kernel), by decide +kernel⟩

/-- A block of slot 0 that pins the bank that is current, a load that is held, and one that is not. -/
def blk : Blk := { id := 0, addr := 0, slot := 0, gen := 0, pin := some true, out := .vals 0 [], bad := false, da := false, layer := 0, op := 0 }
def loadX (held : Bool) : Exec :=
  { z with ex := [(1, { Expander.empty with queue := [blk], load := some { slot := 15, image := packImage, held := held, id := 0 } })] }

theorem witness_TableLoads :
    (∃ l, (((idle (loadX false)).x 0).expander 1).load = some l ∧ l.held = false)
      ∧ (∃ l, (((idle (loadX true)).x 0).expander 1).load = some l ∧ l.held = true
          ∧ (((idle (loadX true)).x 0).expander 1).otherPinned l.slot = false)
      ∧ (∃ b e, (((idle (loadX false)).x 0).expander 1).next = some (b, e) ∧ ((idle (loadX false)).core 0).ctx = some 1) :=
  ⟨⟨_, rfl, rfl⟩, ⟨_, rfl, rfl, rfl⟩, ⟨_, _, rfl, rfl⟩⟩

/-! ### Signals, queues, collectives -/

/-- Register 1 names object 65,535 of region 3. -/
def sigX : Exec := zs [(1, 0x3FFFF), (4, 0xFFFFFFFF)]

/-- A host's update of object 5 has left for the store, and one of core 0 waits behind it. -/
def updS : State :=
  ready.onRegion 3 (fun g => { g with updates := [{ obj := 5, val := 1, set := true, core := none, id := 1, ctx := 1, sent := true },
    { obj := 5, val := 2, set := false, core := some 0, id := 0, ctx := 1, sent := true }] })

theorem witness_SignalUpdates :
    (∀ i ∈ ([.sySig 0 1 4, .sySet 0 1 4] : List Instr), Fetches (runs i sigX) 0 i 1 run1 sigX.regs (runs i sigX)
        ∧ (runs i sigX).handle ((runs i sigX).who 0 sigX.regs).part (sigX.regs.getS 1).toNat = some (3, 65535)
        ∧ Fetches (runsIn 1 i sigX) 0 i 1 run1 sigX.regs (runsIn 1 i sigX)
        ∧ (runsIn 1 i sigX).handle ((runsIn 1 i sigX).who 0 sigX.regs).part (sigX.regs.getS 1).toNat = none)
      ∧ (sigX.regs.getS 1).toNat < 2 ^ 18
      ∧ (∀ k ∈ [0, 1], ∃ u, ((updS.sendUpdates 3).region 3).updates[k]? = some u ∧ u.sent = true
          ∧ ∀ v ∈ ((updS.sendUpdates 3).region 3).updates.take k, v.core ≠ u.core) := by
  refine ⟨fun i hi => ?_, by decide, fun k hk => ?_⟩
  · refine ⟨fetchesAll [.sySig 0 1 4, .sySet 0 1 4] sigX (by decide +kernel) i hi, ?_, fetchesIn 1 i sigX ?_, ?_⟩
    all_goals revert i; decide +kernel
  · have h : k = 0 ∨ k = 1 := by simpa using hk
    rcases h with rfl | rfl
    · exact ⟨_, rfl, rfl, by decide +kernel⟩
    · exact ⟨_, rfl, rfl, by decide +kernel⟩

/-- Neither object carries damage; entry 255 of the signal window is granted; a damaged object is one that no wait may meet. -/
theorem witness_SignalUpdates_window :
    (updS.sendUpdates 3).upsets = [] ∧ ready.dev.st = .ready ∧ (ready.setPf (partReg 1 5) 0x100).windowObj 1 0 255 = some (0, 255)
      ∧ 5 ∉ ((((updS.sendUpdates 3).onRegion 3 (Region.noteUpd 0 { obj := 5, val := 1, set := true, core := none, id := 1, ctx := 1,
                                                                     sent := true })).sigApply (3, 5) 1 true none).region 3).sigGone := by
  decide +kernel

/-- A core that waits since an expiry tick of 40, at tick 41; and a WAIT record. -/
def waitX : Exec := { z with hold := .wait 1 (some (0, 5)) 1 true (some 40) true 0 }
def waitS : State :=
  { idle waitX with time := 41, ctxs := [(1, { ctx1 0 with hostWait := some (some (0, 5), 1, true, some 40) })] }
def waitI : Instr := .syWait 0 { sD := 1, sS := 1, cond := false, ft := true, sV := 4, sT := 0 }

theorem witness_SignalWaits :
    Fetches (runs waitI sigX) 0 waitI 1 run1 sigX.regs (runs waitI sigX)
      ∧ (runs waitI sigX).handle ((runs waitI sigX).who 0 sigX.regs).part (sigX.regs.getS 1).toNat = some (3, 65535)
      ∧ (runs waitI sigX).upsets = []
      ∧ (waitS.x 0).hold = .wait 1 (some (0, 5)) 1 true (some 40) true 0 ∧ (waitS.core 0).ctx = some 1
      ∧ (waitS.core 0).run = .running ∧ 40 < waitS.time ∧ 0 < waitS.time
      ∧ (waitS.ctx 1).hostWait = some (some (0, 5), 1, true, some 40) :=
  ⟨fetches _ _ (by decide +kernel), by decide +kernel, rfl, rfl, rfl, rfl, by decide, by decide, rfl⟩

/-- Queue 4,095 of region 3 has core 0 at both ends; a packet of one byte waits, before a requested flush. -/
def que1 : Que := { Que.fresh with en := true, cap := 65536, cells := [QCell.of 0 true [(0, false)] true false], flush := some 1, w := 1, wSeen := 1 }
/-- The same with room for that packet alone; the same empty. -/
def queFull : Que := { que1 with cap := 1 }
def queEmpty : Que := { Que.fresh with en := true, cap := 256 }
def queX : Exec := zs [(1, 0x3FFF), (2, 1), (3, 65536)]
def withQue (q : Que) (s : State) : State := s.setQue 3 4095 q

def queIs : List Instr := [.syQput 0 1 4 2, .syQget 0 5 1 4 3, .syQcnt 0 5 1]

theorem fetches_with_queue (q : Que) (i : Instr) (h : atFirst i queX = true) :
    Fetches (withQue q (runs i queX)) 0 i 1 run1 queX.regs (withQue q (runs i queX)) :=
  fetchesOf _ 0 i queX rfl rfl rfl (fun _ => rfl) h

theorem witness_QueueInstructions :
    let g := queX.regs
    (∀ q ∈ [que1, queFull, queEmpty], ∀ i ∈ queIs,
        Fetches (withQue q (runs i queX)) 0 i 1 run1 queX.regs (withQue q (runs i queX))
          ∧ (withQue q (runs i queX)).que 3 4095 = q
          ∧ q.serves ((withQue q (runs i queX)).who 0 g).part ((withQue q (runs i queX)).core 0).logical = true
          ∧ q.delivers ((withQue q (runs i queX)).who 0 g).part ((withQue q (runs i queX)).core 0).logical = true
          ∧ ∀ k ∈ [2, 3], spAt g ((withQue q (runs i queX)).window 0) 4 (g.getS k).toNat = some 0x40000
              ∧ ((withQue q (runs i queX)).x 0).portWaits (rd 0x40000 (g.getS k).toNat) = false
              ∧ ((withQue q (runs i queX)).x 0).portWaits (wr 0x40000 (g.getS k).toNat) = false)
      ∧ (g.getS 1).toNat < 2 ^ 14 ∧ (g.getS 1).toNat / 4096 = 3 ∧ (g.getS 1).toNat % 4096 = 4095
      ∧ (∀ k ∈ [2, 3], 1 ≤ (g.getS k).toNat ∧ (g.getS k).toNat ≤ 65536 ∧ cellsOf (g.getS k).toNat ≤ que1.cap)
      ∧ que1.full 1 = false ∧ queFull.full 1 = true ∧ que1.skipAborted.head.isSome = true ∧ queEmpty.skipAborted.head = none := by
  refine ⟨fun q hq i hi => ⟨fetches_with_queue q i ?_, ?_⟩, by decide +kernel⟩
  · clear hq; revert i; decide +kernel
  · revert i q; decide +kernel

/-- The queue of another partition; one whose producer's end has left; one whose consumer's end has. -/
theorem witness_QueueInstructions_foreign :
    (∀ q ∈ [{ que1 with part := 1 }, { que1 with cap := 0 }], ∀ i ∈ queIs,
        Fetches (withQue q (runs i queX)) 0 i 1 run1 queX.regs (withQue q (runs i queX))
          ∧ q.serves ((withQue q (runs i queX)).who 0 queX.regs).part ((withQue q (runs i queX)).core 0).logical = false
          ∧ q.delivers ((withQue q (runs i queX)).who 0 queX.regs).part ((withQue q (runs i queX)).core 0).logical = false)
      ∧ Que.serves { que1 with consCut := true } 0 0 = true ∧ Que.delivers { que1 with consCut := true } 0 0 = false := by
  refine ⟨fun q hq i hi => ⟨fetches_with_queue q i ?_, ?_⟩, by decide +kernel⟩
  · clear hq; revert i; decide +kernel
  · revert i q; decide +kernel

def twoCells : List QCell :=
  [{ no := 0, first := true, data := [(7, false)], used := 1, last := false, aborted := false },
    { no := 1, first := false, data := [(8, false)], used := 1, last := true, aborted := false }]

/-- Core 0 within a packet of 257 bytes: the second cell is its last. -/
def putting (k : Nat) : State := withQue que1 (idle { queX with hold := .qput 3 4095 0 257 k })
def getting (k : Nat) : State :=
  withQue { que1 with cells := twoCells, w := 2, wSeen := 2 }
    (idle { queX with hold := .qget 5 3 4095 0 257 k })

theorem witness_QueueInstructions_cells :
    (∀ k ∈ [0, 1], ((putting k).x 0).hold = .qput 3 4095 0 257 k ∧ (decide (257 ≤ 256 * (k + 1)) = decide (k = 1)))
      ∧ (∀ k ∈ [0, 1], ((getting k).x 0).hold = .qget 5 3 4095 0 257 k ∧ (getting k).upsets = []
          ∧ ∃ p b, ((getting k).que 3 4095).head = some p ∧ p[k]? = some b
            ∧ anyBad ((b.data.take b.used).take (257 - 256 * k)) = false ∧ b.last = decide (k = 1)) := by
  refine ⟨by decide +kernel, fun k hk => ?_⟩
  have h : k = 0 ∨ k = 1 := by simpa using hk
  rcases h with rfl | rfl
  · exact ⟨by decide +kernel, by decide +kernel, twoCells, _, by decide +kernel, rfl, by decide +kernel, by decide +kernel⟩
  · exact ⟨by decide +kernel, by decide +kernel, twoCells, _, by decide +kernel, rfl, by decide +kernel, by decide +kernel⟩

/-- The queue is being disabled. -/
def queLeaves : Que := { que1 with disable := true }

theorem witness_QueueResumesAndRegisters :
    ((putting 0).x 0).hold = .qput 3 4095 0 257 0 ∧ ((getting 1).x 0).hold = .qget 5 3 4095 0 257 1
      ∧ Que.full { que1 with cSeen := que1.c } 257 = false ∧ Que.full { queFull with cSeen := queFull.c } 257 = true
      ∧ ready.dev.st = .ready
      ∧ (∀ q ∈ [que1, queLeaves],
          let s := withQue q ready
          let x := s.que 3 4095
          (if x.disable then x.flush.isSome = true ∧ x.open = false ∧ 1 = x.packets.length else x.flush = some 1 ∧ 1 ≤ x.packets.length)
            ∧ s.taking 3 4095 = false ∧ x.en = true)
      ∧ (ready.que 3 4095).en = false := by decide +kernel

/-- Core 0 is partition 0's. -/
def bindS : State := { ready with owners := [(0, 0)] }

/-- A binding to core 0 at both ends keeps the rule; one with 65,537 cells does not. -/
theorem witness_QueueEnable :
    (bindS.que 3 4095).en = false ∧ (0x0100000000010000 : W64).getLsbD 56 = true
      ∧ bindS.owner (fld (0x0100000000010000 : W64) 40 8) = some (fld (0x0100000000010000 : W64) 48 8)
      ∧ bindS.owner (fld (0x0100000000010000 : W64) 32 8) = some (fld (0x0100000000010000 : W64) 48 8)
      ∧ fld (0x0100000000010000 : W64) 0 17 ≤ 65536 ∧ bindS.capSum 3 + fld (0x0100000000010000 : W64) 0 17 ≤ 65536
      ∧ (0x0100000000010001 : W64).getLsbD 56 = true ∧ ¬ fld (0x0100000000010001 : W64) 0 17 ≤ 65536 := by decide +kernel

def putF : ClPut := { aS := 1, sL := 1, jg := 0, sM := 2, sA := 0, fin := false, sg := false, sG := 0 }
def redF : ClReduce := { rop := 0, ifmt := 0, ofmt := 0, aS := 1, aD := 2, sN := 2, jg := 0, ord := false, sat := false }
def step1 : OpenStep :=
  { num := 0, window := 0, kidx := [], rep := 0, cap := z.capture, lanes := [], mark := 0, joins := [], acted := [], joined := 0 }
def stepX : Exec := { moveX with step := some step1 }

theorem witness_CollectivePuts :
    let i := Instr.clPut 0 putF
    let u := begun i moveX
    let g := (record i moveX).regs
    let w := u.who 0 g
    Begins i moveX ∧ w.ctx = some 1
      ∧ (∃ s1 bs j t, (∀ K, withData (u.usesCl 1) w (g.getA putF.aS.toNat).1.toNat (putF.len g) K = K s1 bs)
          ∧ s1.clGroup 1 putF.jg.toNat = some (j, t) ∧ putF.dst g t = some 1) :=
  ⟨starts _ _ (by decide +kernel) (by decide +kernel), by decide +kernel,
   ⟨_, _, _, _, data_reads _ _ _ _ (by decide +kernel), rfl, by decide +kernel⟩⟩

theorem witness_CollectiveReductions :
    let i := Instr.clReduce 0 redF
    let u := begun i stepX
    let g := (record i stepX).regs
    let w := u.who 0 g
    Begins i stepX ∧ w.ctx = some 1
      ∧ (∃ s1 bs j t st, (∀ K, withData (u.usesCl 1) w (g.getA redF.aS.toNat).1.toNat (redF.inBytes g) K = K s1 bs)
          ∧ s1.clGroup 1 redF.jg.toNat = some (j, t) ∧ (issuedOf i stepX).step = some st) :=
  ⟨starts _ _ (by decide +kernel) (by decide +kernel), by decide +kernel,
   ⟨_, _, _, _, _, data_reads _ _ _ _ (by decide +kernel), rfl, rfl⟩⟩

theorem witness_StepsAndSync :
    (∀ i ∈ ([.clStep 0 1 2, .clTimesync 0 1 0] : List Instr), Fetches (runs i z) 0 i 1 run1 z.regs (runs i z)
        ∧ ((runs i z).part ((runs i z).ctx 1).part).job.isSome = true ∧ ((runs i z).x 0).reducing = false)
      ∧ ∃ v ports, (runs (.clTimesync 0 1 0) z).startSync ((runs (.clTimesync 0 1 0) z).ctx 1).part 0 = some (v, ports) :=
  ⟨fun i hi => ⟨fetchesAll [.clStep 0 1 2, .clTimesync 0 1 0] z (by decide +kernel) i hi, by revert i; decide +kernel⟩, ⟨_, _, rfl⟩⟩

/-! ### Rings, dispatching, deadlines -/

/-- Context 4,095 of partition 0, idle, whose ring of 16 holds one record. -/
def ringS : State :=
  { ready with ctxs := [(4095, { Ctx.fresh with st := .idle, sqLog2 := 4, tail := 1 })] }
def recOf (op : Nat) : SubRec := { rec1 op with ctx := 4095 }

theorem witness_Doorbells :
    ready.dev.st = .ready ∧ ringS.rings 0 4095 = true ∧ (15 : BitVec 16).toNat < 2 ^ (ringS.ctx 4095).sqLog2
      ∧ ringS.rings 1 4095 = false ∧ 2 ^ (ringS.ctx 4095).sqLog2 ≤ (16 : BitVec 16).toNat := by decide

theorem witness_SubmissionRecords :
    ringS.mayAccept 4095 = true
      ∧ (∀ k ∈ [1, 2, 3, 4, 5], (recOf k).unread = false ∧ recFail k 4095 (recOf k) = none)
      ∧ recFail 1 4095 { recOf 1 with rsv30 := 1 } = some 0x30 ∧ ({ recOf 1 with unread := true } : SubRec).unread = true := by
  decide +kernel

/-- A ready context whose program is at address 0: a code extent of 8 bytes behind the header. -/
def nuo : List (Nat × Byte) :=
  [(0, 78), (1, 85), (2, 79), (3, 49), (4, 1), (8, 64), (16, 8), (56, 172), (57, 129), (58, 144), (59, 74)]
def startS : State :=
  { (ready.writePhys ready.supKey 0 (Ram.read { Ram.zero with bytes := nuo } 0 64)) with
    pwr := { Pwr.fresh with fabric := true }, regions := [(0, { Region.fresh with pll := true })]
    ctxs := [(1, { ctx1 0 with st := .ready, selected := true, run := some { run1 with started := false } })] }

theorem witness_ContextStart :
    let cs := startS.ctxCores 1
    let h := startS.readHeaders 1 0 cs
    ((startS.ctx 1).run.isSome = true ∧ (startS.ctx 1).st = .ready ∧ (startS.ctx 1).selected = true ∧ startS.startable 1 = true
        ∧ startS.overdue 1 = false ∧ startS.barred 1 = false)
      ∧ cs.all (fun c => (startS.core c).ctx.isNone) = true ∧ h.stop = false
      ∧ h.s.imageStop 0 0 (Nuo.of (plain ((h.bs.drop 0).take 64))) = none
      ∧ h.s.headerFails 0 0 (plain ((h.bs.drop 0).take 64)) = none := by decide +kernel

/-- Other states of that context: it is saved, and comes back; its explicit deadline of 2,000 has expired. -/
def inState (st : CtxSt) : State := { startS with ctxs := [(1, { ctx1 0 with st := st })] }
def lateS : State :=
  { startS with time := 100000, ctxs := [(1, { ctx1 0 with st := .running, run := some { run1 with implicit := false } })] }

theorem witness_DispatchingAndDeadlines :
    ((inState .saving).ctx 1).st = .saving ∧ (inState .saving).expiring 1 = false ∧ ((inState .restoring).ctx 1).st = .restoring
      ∧ (inState .restoring).startable 1 = true
      ∧ (let m := lateS.missAccs 1 10 (lateS.dueAccs 1 false)
         m.dueRun true 1 false ++ m.dueGroups true 1 false ≠ [])
      ∧ (let m := startS.missAccs 1 10 (startS.dueAccs 1 false)
         m.dueRun true 1 false ++ m.dueGroups true 1 false = []) := by decide +kernel

/-! ### Device commands -/

/-- Partition 1 is active with a table of one page; the supervisor's area is 16 MiB from 2 MiB on; logical core 255 belongs to partition 1,
and context 9 is its own and idle. -/
def supS : State :=
  { ((((ready.setPf 0x10 (0x200000 + 0x80000000000)).setPf (partReg 1 2) 0x10000400000).setPf (partReg 1 1) 4).setPf (partReg 1 6)
      0x500000) with
    parts := [(1, { Part.fresh 1 with st := .active })], owners := [(255, 1)]
    ctxs := [(9, { Ctx.fresh with st := .idle, part := 1 })] }

/-- A descriptor of logical core 255 with its save area in the supervisor's area, at its base. -/
def descS : State :=
  supS.writePhys supS.supKey 0x200000 (Ram.read { Ram.zero with bytes := [(31, 0x80), (0x22, 0x40), (0x38, 4)] } 0 64)

theorem witness_DeviceCommandsForPartitions :
    ready.dev.st = .ready ∧ ready.dev.hcmdBusy = false
      ∧ firstReason (createChecks 255 (ready.stage (hcmdOf 1 255 0 (ready.pfReg 0x1008) (ready.pfReg 0x1010)))) = none
      ∧ ((supS.stage (hcmdOf 2 1 0 0 0)).part 1).st = .active ∧ ((supS.stage (hcmdOf 4 1 0 0 0)).part 1).st = .active
      ∧ ((supS.stage (hcmdOf 8 1 0 0 0)).part 1).st = .active
      ∧ ((supS.stage (hcmdOf 8 1 0 0 0)).ctxsOf 1).all (fun n => ((supS.stage (hcmdOf 8 1 0 0 0)).ctx n).isIdle
          && !((supS.stage (hcmdOf 8 1 0 0 0)).ctx n).resetting) = true
      ∧ supS.dev.st = .ready ∧ supS.dev.hcmdBusy = false := by decide +kernel

theorem witness_DeviceCommandsForTranslation :
    firstReason (xlatChecks (hcmdOf 3 1 0 0x600000 0x100000000) (supS.stage (hcmdOf 3 1 0 0x600000 0x100000000))) = none
      ∧ (∃ es, ({ supS with dev := { supS.dev with xlatPart := some (1, 0, es) } } : State).dev.xlatPart = some (1, 0, es) ∧ es ≠ []) :=
  ⟨by decide +kernel, ⟨[1], rfl, by decide⟩⟩

theorem witness_DeviceCommandsForCoresAndContexts :
    (let h := hcmdOf 5 1 0 (254 + 256) 1
     setRange h = true ∧ (setCores h).all (fun l => ((supS.stage h).owner l).isNone && ((supS.stage h).phys l).isSome) = true)
      ∧ (let h := hcmdOf 5 1 0 (255 + 256) 0
         setRange h = true ∧ (setCores h).all (fun l => (supS.stage h).owner l = some 1 && !(supS.stage h).inContext l) = true)
      ∧ firstReason (assignChecks (hcmdOf 6 1 4095 0x200000 0) (descS.stage (hcmdOf 6 1 4095 0x200000 0))) = none
      ∧ ((supS.stage (hcmdOf 7 0 9 0 0)).ctx 9).isIdle = true ∧ ((supS.stage (hcmdOf 7 0 9 0 0)).ctx 9).resetting = false := by
  decide +kernel

theorem witness_DeviceCommandsAreRejected :
    (State.reset.dev.st ≠ .ready)
      ∧ ({ ready with dev := { ready.dev with hcmdBusy := true } } : State).dev.hcmdBusy = true
      ∧ firstReason [((0 : Nat) ≠ 0 && (ready.stage (hcmdOf 2 0 0 0 0)).isActive 0, 2)] = some 2
      ∧ firstReason (createChecks 0 (ready.stage (hcmdOf 1 0 0 0 0))) = some 2
      ∧ firstReason (xlatChecks (hcmdOf 3 1 0 0 0) (ready.stage (hcmdOf 3 1 0 0 0))) = some 2
      ∧ firstReason [((ready.stage (hcmdOf 4 1 0 0 0)).isActive 1, 2)] = some 2
      ∧ firstReason [(((ready.stage (hcmdOf 7 0 9 0 0)).ctx 9).isIdle && !((ready.stage (hcmdOf 7 0 9 0 0)).ctx 9).resetting, 8)]
          = some 8 := by decide +kernel

/-- A job of this module alone, with one group that reduces at port 17. -/
def jobS : State :=
  (supS.writePhys supS.supKey 0x500000
    (Ram.read { Ram.zero with bytes := [(0, 1), (8, 1), (0x0C, 1), (0x10, 1), (0x1A, 0x60), (0x22, 0x70)] } 0 64)).writePhys
      supS.supKey 0x700000 (Ram.read { Ram.zero with bytes := [(0, 1), (4, 17)] } 0 64)

theorem witness_ReleaseZeroingScrubAndJobs :
    (let s := supS.onPart 1 (fun q => { q with st := .releasing, release := 1, zeroing := [15] })
     (s.part 1).st = .releasing ∧ s.stepOver 1 = true ∧ (s.part 1).zeroing.contains 15 = true)
      ∧ ((supS.onCore 263 (fun p => { p with scrub := true })).core 263).scrub = true ∧ supS.dev.st = .ready
      ∧ (jobS.readJob 1).isSome = true ∧ supS.readJob 1 = none := by decide +kernel

/-! ### The host, claims, fences, hangs, recovery -/

theorem witness_HostAccesses :
    ready.dev.st = .ready ∧ State.reset.dev.st ≠ .ready ∧ earlyBlock 0x3FF8 = true ∧ earlyBlock 0x1000 = false
      ∧ inBar2 0xFFFFFFF8 8 = true ∧ (0xFF8 : Nat) % 8 = 0 ∧ ((4 : Nat) ≠ 8 ∨ (0xFF8 : Nat) % 8 ≠ 0) := by decide

/-- Stopped, with the conditions of a restart, and hot. -/
def stopped (temp : Nat) : State :=
  { ready with dev := { ready.dev with st := .powerStop }, regions := [(3, { Region.fresh with temp := temp })] }

theorem witness_FunctionResetsTimersAndMailbox :
    ready.dev.st = .ready ∧ State.reset.dev.st ≠ .ready ∧ (stopped 94).dev.st = .powerStop ∧ (stopped 94).mayRestart = true
      ∧ (stopped 95).mayRestart = false
      ∧ (let s : State := { ready.setPf (tmrOff 7) (0xF800000000000000 + 25) with time := 1000 }
         (s.pfReg (tmrOff 7)).getLsbD 59 = true ∧ 40 * fld (s.pfReg (tmrOff 7)) 0 59 ≤ s.time)
      ∧ (let v := (ready.setPf 0x300000 (0x100000)).pfReg 0x300000
         v.getLsbD 0 = false ∧ 1 ≤ fld v 8 13 ∧ fld v 8 13 ≤ 4096)
      ∧ fld ((ready.setPf 0x300000 0x100100).pfReg 0x300000) 8 13 = 4097
      ∧ (ready.pfReg 0x300000).getLsbD 0 = false ∧ fld (ready.pfReg 0x300000) 8 13 = 0 := by decide

theorem witness_Claims :
    12 < (13 : BitVec 8).toNat ∧ (12 : BitVec 8).toNat ≤ 12 ∧ ready.holder 12 = 0
      ∧ (ready.setHolder 12 bySupervisor).holder 12 = bySupervisor ∧ (ready.setHolder 12 bySupervisor).holder 12 ≠ 0
      ∧ ready.dev.st = .ready ∧ ready.holder 0 ≠ bySupervisor ∧ (ready.setHolder 0 bySupervisor).holder 0 = bySupervisor := by
  decide

/-- Core 263 out of work; core 0 with an instruction in flight that holds a tag, long since. -/
def lateTag : State := { idle flying with time := 524288 }

theorem witness_CoreFences :
    (ready.core 263).st = .spare ∧ ((idle z).core 0).st = .active ∧ ready.faultTurn 263 = true ∧ (idle z).faultTurn 0 = true
      ∧ (∃ tag rest, (lateTag.x 0).tags = tag :: rest ∧ lateTag.awaitsNothing 0 tag.owner = true
          ∧ (lateTag.x 0).watch + 524288 ≤ lateTag.time) :=
  ⟨by decide +kernel, by decide +kernel, by decide +kernel, by decide +kernel, ⟨_, _, rfl, by decide +kernel, by decide +kernel⟩⟩

/-- A state whose core 0 has had 64 corrected errors in the first millisecond. -/
def worn (s : State) : State := s.onCore 0 (fun p => { p with ceWin := [(0, 64)] })

theorem witness_CeLimit :
    (∀ s ∈ [worn ready, worn (idle z)], fld (s.pfReg (0x40000 + 0 * 0x200)) 8 8 = 64 ∧ 64 ≤ (s.core 0).ceSum (s.time / 1000000)
        ∧ (s.core 0).st = .active ∧ (s.core 0).moveOut ≠ some true
        ∧ (((s.onCore 0 PCore.toFence).stopHere 0).core 0).inPlace = false
        ∧ (((s.onCore 0 PCore.toFence).stopHere 0).core 0).moveOut = some true)
      ∧ (((worn ready).onCore 0 PCore.toFence).stopHere 0).movable 0 = true
      ∧ (((worn (idle z)).onCore 0 PCore.toFence).stopHere 0).movable 0 = false := by decide +kernel

/-- The spares of region 0 have failed. -/
def noSpares : State := (ready.onCore 64 (fun p => { p with st := .failed })).onCore 65 (fun p => { p with st := .failed })

theorem witness_SelfTests :
    (ready.core 64).st = .spare ∧ ((ready.onCore 65 (fun p => { p with st := .fenced })).core 65).st = .fenced
      ∧ (ready.core 0).moveOut = none ∧ (ready.spareFor 0).isSome = true
      ∧ (ready.onCore 0 (fun p => { p with moveOut := some false })).movable 0 = true ∧ noSpares.spareFor 0 = none
      ∧ ((ready.onCore 65 (fun p => { p with st := .testing })).core 65).st = .testing := by decide +kernel

/-- Cores 0 and 1 of context 1 wait each on an object that the other one wrote last. -/
def waitOn (o : Nat) : PCore := core1 (.sqHalt 0) { z with hold := .wait 1 (some (0, o)) 1 false none false 0 }
def deadlock : State :=
  { (State.watchWaits { ready with
      cores := [(0, waitOn 1), (1, waitOn 0)], regions := [(0, { Region.fresh with sigBy := [(0, 0), (1, 1)] })]
      ctxs := [(1, { ctx1 0 with cores := [0, 1] })] }) with time := 100000000 }

theorem deadlock_watched : deadlock.watchWaits = deadlock := by rfl

theorem witness_Hangs :
    deadlock.time % 1000000 = 0 ∧ deadlock.hangWindow ≠ 0 ∧ deadlock.watchWaits.hang.edges.length = 1 + 1
      ∧ deadlock.watchWaits.dueCycle = some [{ core := 0, unit := 0 }, { core := 1, unit := 0 }]
      ∧ ready.watchWaits.dueCycle = none ∧ ({ ready with time := 1 } : State).time % 1000000 ≠ 0 := by decide +kernel

theorem witness_ProgressAndContextResets :
    (let s : State := { idle z with time := 1000000000, ctxs := [(1, { ctx1 0 with progEn := true })] }
     (s.ctx 1).progEn = true ∧ (s.ctx 1).st = .running
      ∧ s.lastProgress 1 + max 1 (s.ctx 1).progWin * 1000000 ≤ s.time
      ∧ (s.hangTest.ctx 1).progEn = true ∧ (s.hangTest.ctx 1).st = .running
      ∧ s.hangTest.lastProgress 1 + max 1 (s.hangTest.ctx 1).progWin * 1000000 ≤ s.hangTest.time)
      ∧ (let s : State := { deadlock with ctxs := [(1, { ctx1 0 with cores := [0, 1], progEn := true, progWin := 1 })] }
         (s.ctx 1).progEn = true ∧ (s.ctx 1).st = .running
          ∧ s.lastProgress 1 + max 1 (s.ctx 1).progWin * 1000000 ≤ s.time ∧ (s.hangTest.ctx 1).st ≠ .running)
      ∧ (let s : State := { ready with ctxs := [(1, { ctx1 0 with resetting := true })] }
         (s.ctx 1).resetting = true) := by decide +kernel

/-- In stage k of recovery, Belvedere running. -/
def recovering (k : Nat) : State :=
  { ready with dev := { ready.dev with st := .recovering, recStage := k, dumpHold := true }, belv := { Belv.fresh with running := true } }

theorem witness_RecoveryAndCrashDumps :
    ready.dev.st = .ready ∧ ready.recentStarts.length < 3
      ∧ (let s : State := { ready with dev := { ready.dev with recStarts := [0, 0, 0] } }
         3 ≤ s.recentStarts.length ∧ s.dev.st = .ready)
      ∧ (∀ k ∈ [1, 2, 3, 4, 5], (recovering k).dev.st = .recovering ∧ (recovering k).dev.recStage = k
          ∧ (recovering k).belv.running = true ∧ (recovering k).belv.tapHold = false ∧ (recovering k).dev.dumpHold = true
          ∧ (recovering k).recentStarts.length < 3) := by decide

/-! ### Links -/

/-- The trailer of the first flit of a path, which acknowledges nothing. -/
def tr0 : Trailer := { lseq := 0, ack := 0, nak := false, chan := 7, credits := 0 }

/-- A flit of module 1 for module 0, from core 7: the first of its write. -/
def flit1 (fin last : Bool) (hdr : W64) : Flit :=
  { dst := 0, src := 1, jobTag := 1, epoch := 0, score := 7, fin := fin, last := last, hdrB := hdr, payload := [5], badG := []
    first := true, peer := 0, iface := 0, tr := tr0 }

/-- Port 17 is up; partition 0 has the job with these members. -/
def linkS (ms : Tab Member) : State :=
  { ready with
    ports := [(17, { Port.fresh with up := true })]
    parts := [(0, { Part.fresh 0 with job := some { job1 with members := ms } })] }
def got (ty : Nat) (s : State) : State := s.flitIn 17 (chanOf ty) 0 0 tr0

theorem arrives (ty : Nat) (s : State) (ms : Tab Member) (fin last : Bool) (hdr : W64) (hs : s = linkS ms)
    (hk : s.heldBy ty (flit1 fin last hdr) = none)
    (h : ({ job1 with members := ms } : Job).fromDead ty (flit1 fin last hdr) = false) :
    Arrives s 17 ty (flit1 fin last hdr) 0 { job1 with members := ms } (got ty s) := by
  have ha : got ty s = (s.flitIn 17 (s.creditOf ty (flit1 fin last hdr)) 0 0 tr0).withhold 17 (flit1 fin last hdr)
      (s.heldBy ty (flit1 fin last hdr)) := by simp [State.creditOf, hk, got, State.withhold]
  subst hs
  exact ⟨rfl, rfl, rfl, ha, rfl, rfl, (by decide : 0 < 2), h, .inl rfl⟩

/-- What has come of the write that the flit belongs to, and the state that holds it. -/
def inb (fin last : Bool) (hdr : W64) : Inbound := (got 1 (linkS [])).inbound 0 1 7 (fld hdr 48 16) 0 (flit1 fin last hdr)
def holds (fin last : Bool) (hdr : W64) : State :=
  ((got 1 (linkS [])).countPart 0 7 1).onPart 0 (fun q =>
    { q with held := q.held.filter (fun k => !k.is 1 7 (fld hdr 48 16)) ++ [inb fin last hdr] })

theorem witness_RemoteWritesLand :
    (∀ fin last hdr, Arrives (linkS []) 17 1 (flit1 fin last hdr) 0 job1 (got 1 (linkS [])))
      ∧ Arrives (linkS []) 17 2 (flit1 false true 0) 0 job1 (got 2 (linkS []))
      ∧ Arrives (linkS []) 17 3 (flit1 false true 0) 0 job1 (got 3 (linkS []))
      ∧ ((got 2 (linkS [])).landedOf 0 1 7).has 65535 = true ∧ ((got 2 (linkS [])).landedOf 0 1 7).has 0 = false
      ∧ (inb false false 0).whole = false ∧ (inb false true 0).whole = true ∧ (inb true false 0).whole = false
      ∧ (inb true true 0).whole = true ∧ ((holds true true 0).landedOf 0 1 7).next = 0
      ∧ ((holds true true 0).finReady 0 1 7).isSome = true
      ∧ ((holds true true 0x9000000000000).landedOf 0 1 7).next ≠ fld (0x9000000000000 : W64) 48 16 :=
  ⟨fun fin last hdr => arrives 1 _ [] fin last hdr rfl rfl rfl, arrives 2 _ [] _ _ _ rfl rfl rfl, arrives 3 _ [] _ _ _ rfl rfl rfl,
   by decide +kernel⟩

/-- A reduction whose window of 40 ns began at 0, before it froze. -/
def red0 : Reduction :=
  { part := 0, jg := 0, kidx := 0, step := 0, rep := 0, spec := none, start := 0, length := 1, frozen := false
    got := [{ member := 1, flits := [], bad := false }], seen := 0, done := [] }
def redS (now : Nat) : State := { linkS [] with time := now, ports := [(17, { Port.fresh with up := true, reds := [red0] })] }

/-- Core 0 awaits the result of its reduction of two elements in its open step. -/
def waitsResult : State :=
  { linkS [] with
    ctxs := [(1, ctx1 0)]
    cores := [(0, core1 (.sqHalt 0) { stepX with reds := [{ id := 0, jg := 0, kidx := 0, step := 0, rep := 0, n := 2, ofmt := 0, dst := 0x20000000000, stks := 0, left := [], got := [] }] })] }
def outside : Job := { job1 with groups := [(1, { members := [0], index := 0, port := 17 })] }
def outsideS : State := { linkS [] with parts := [(0, { Part.fresh 0 with job := some outside })] }

theorem witness_RemoteReductions :
    Arrives (linkS []) 17 4 (flit1 false true 0) 0 job1 (got 4 (linkS []))
      ∧ (∃ g, job1.group (RedKey.of (flit1 false true 0).hdrB).jg = some g ∧ (flit1 false true 0).src.toNat ∈ g.members)
      ∧ Arrives outsideS 17 4 (flit1 false true 0x400000000) 0 outside (got 4 outsideS)
      ∧ (∃ g, outside.group (RedKey.of (flit1 false true 0x400000000).hdrB).jg = some g ∧ (flit1 false true 0x400000000).src.toNat ∉ g.members)
      ∧ Arrives waitsResult 17 5 (flit1 false true 0) 0 job1 (got 5 waitsResult)
      ∧ ((got 5 waitsResult).landResult 0 1 (RedKey.of (flit1 false true 0).hdrB) [5]).isSome = true
      ∧ (got 5 (linkS [])).landResult 0 1 (RedKey.of (flit1 false true 0).hdrB) [5] = none
      ∧ (∀ now ∈ [40, 41], ((redS now).port 17).reds[0]? = some red0) ∧ red0.got ≠ [] ∧ red0.frozen = false
      ∧ red0.start + 40 * red0.length < (redS 41).time ∧ (redS 40).time ≤ red0.start + 40 * red0.length
      ∧ Arrives waitsResult 17 6 (flit1 false true 0) 0 job1 (got 6 waitsResult)
      ∧ Arrives (linkS []) 17 6 (flit1 false true 0) 0 job1 (got 6 (linkS []))
      ∧ (let u := (got 6 waitsResult).portEvent 17 0 0x0C 0
         (u.stepRetry 0 1 { RedKey.of 0 with off := 0 } false).isSome = true)
      ∧ (let u := (got 6 (linkS [])).portEvent 17 0 0x0C 0
         (u.stepRetry 0 1 { RedKey.of 0 with off := 0 } false).isSome = false) :=
  ⟨arrives 4 _ [] _ _ _ rfl rfl rfl, ⟨_, rfl, by decide⟩, ⟨rfl, rfl, rfl, rfl, rfl, rfl, (by decide : 0 < 2), rfl, .inl rfl⟩,
   ⟨_, rfl, by decide⟩, ⟨rfl, rfl, rfl, rfl, rfl, rfl, (by decide : 0 < 2), rfl, .inl rfl⟩, by decide +kernel, by decide +kernel,
   by decide +kernel, by decide, by decide, by decide, by decide, ⟨rfl, rfl, rfl, rfl, rfl, rfl, (by decide : 0 < 2), rfl, .inl rfl⟩,
   arrives 6 _ [] _ _ _ rfl rfl rfl, by decide +kernel, by decide +kernel⟩

/-- What module 0 holds of module 1. -/
def member (dead : Option Nat) (lost : Bool) (epoch : Nat) : Tab Member := [(1, { epoch := epoch, dead := dead, lost := lost })]

theorem witness_MembersComeAndGo :
    Arrives (linkS []) 17 7 (flit1 false true 0) 0 job1 (got 7 (linkS []))
      ∧ (let ms := member (some 0) true 1
         let j : Job := { job1 with members := ms }
         Arrives (linkS ms) 17 8 (flit1 false true 0) 0 j (got 8 (linkS ms)) ∧ (j.member 1).lost = true)
      ∧ (let ms := member none false 1
         let j : Job := { job1 with members := ms }
         Arrives (linkS ms) 17 8 (flit1 false true 0) 0 j (got 8 (linkS ms)) ∧ (j.member 1).lost = false ∧ (j.member 1).dead = none)
      ∧ (let ms := member (some 0) false 1
         let j : Job := { job1 with members := ms }
         Arrives (linkS ms) 17 8 (flit1 false true 0) 0 j (got 8 (linkS ms)) ∧ (j.member 1).lost = false ∧ (j.member 1).dead ≠ none
          ∧ (j.member 1).epoch ≠ fld (flit1 false true 0).hdrB 0 16)
      ∧ (let ms := member (some 0) false 0
         let j : Job := { job1 with members := ms }
         Arrives (linkS ms) 17 8 (flit1 false true 0) 0 j (got 8 (linkS ms)) ∧ (j.member 1).lost = false ∧ (j.member 1).dead ≠ none
          ∧ (j.member 1).epoch = fld (flit1 false true 0).hdrB 0 16)
      ∧ (Arrives (linkS []) 17 9 (flit1 false true 1) 0 job1 (got 9 (linkS [])) ∧ fld (1 : W64) 0 12 ≠ job1.rank
          ∧ (job1.member (fld (1 : W64) 0 12)).epoch = fld (1 : W64) 16 16
          ∧ (job1.member (fld (0x10001 : W64) 0 12)).epoch ≠ fld (0x10001 : W64) 16 16)
      ∧ (Arrives (linkS []) 17 9 (flit1 false true 0) 0 job1 (got 9 (linkS [])) ∧ fld (0 : W64) 0 12 = job1.rank
          ∧ fld (0 : W64) 16 16 = job1.epoch ∧ fld (0x10000 : W64) 16 16 ≠ job1.epoch) :=
  ⟨arrives 7 _ [] _ _ _ rfl rfl rfl, ⟨arrives 8 _ _ _ _ _ rfl rfl (by decide), by decide⟩, ⟨arrives 8 _ _ _ _ _ rfl rfl (by decide), by decide⟩,
   ⟨arrives 8 _ _ _ _ _ rfl rfl (by decide), by decide⟩, ⟨arrives 8 _ _ _ _ _ rfl rfl (by decide), by decide⟩, ⟨arrives 9 _ [] _ _ _ rfl rfl rfl, by decide⟩,
   ⟨arrives 9 _ [] _ _ _ rfl rfl rfl, by decide⟩⟩

theorem witness_LostMembersAndPorts :
    (∀ now ∈ [1000000, 1000001], ∃ j, (({ linkS (member (some 0) false 0) with time := now } : State).part 0).job = some j
        ∧ (j.member 1).dead = some 0 ∧ (j.member 1).lost = false ∧ 0 + j.rejoin * 1000000 = 1000000)
      ∧ ((linkS []).port 17).up = true := by
  constructor
  · intro now _
    exact ⟨_, rfl, rfl, rfl, by decide⟩
  · rfl

/-- Port 17 trains; its priority 3 may be paused, in an Ethernet mode. -/
def trains : State :=
  { ready with ports := [(17, { Port.fresh with training := true })], pf := [(lnkCtrl 17, 0x700000002)] }

/-- A RAMMO port is up with 8 lanes. -/
def rammo : State :=
  { ready with ports := [(17, { Port.fresh with up := true, lanes := 8 })], pf := [(lnkCtrl 17, 1)] }

/-- A link whose last `n` NAKs named number 9. -/
def naked (n : Nat) : Link := { Link.fresh with nakAck := 9, nakRun := n }

theorem witness_LinkRetryAndFrames :
    let l := ((linkS []).port 17).link ((linkS []).pathKey 17 0 0)
    ((linkS []).port 17).up = true ∧ l.expect = tr0.lseq.toNat ∧ l.expect ≠ (1 : BitVec 12).toNat
      ∧ (∀ n ∈ [14, 15], let m := (naked n).acked 9
         let k := if m.nakAck = 9 && m.nakRun ≠ 0 then m.nakRun + 1 else 1
         (n = 14 → k < 16) ∧ (n = 15 → 16 ≤ k))
      ∧ (trains.port 17).training = true ∧ trains.linkMode 17 ≠ 0 ∧ 2 ≤ trains.linkMode 17
      ∧ ((rammo.port 17).training = false ∧ (rammo.port 17).up = true ∧ rammo.linkMode 17 = 1 ∧ (rammo.port 17).lanes = 8)
      ∧ ((trains.pfReg (lnkCtrl 17)).getLsbD 32 && fld (trains.pfReg (lnkCtrl 17)) 33 3 = 3 && 2 ≤ trains.linkMode 17) = true
      ∧ ((trains.pfReg (lnkCtrl 17)).getLsbD 32 && fld (trains.pfReg (lnkCtrl 17)) 33 3 = 2 && 2 ≤ trains.linkMode 17) = false := by
  decide +kernel

/-- Port 17, in an Ethernet mode, is up and has sequenced the paths to 64 remote interfaces. -/
def crowded : State :=
  { ready with ports := [(17, { Port.fresh with up := true, links := (List.range 64).map (fun i => (8 * i, Link.fresh)) })]
               pf := [(lnkCtrl 17, 2)] }

theorem witness_LinkRetry_paths :
    (crowded.port 17).up = true ∧ (crowded.port 17).hasPath (crowded.pathKey 17 0 63) = true
      ∧ (crowded.port 17).hasPath (crowded.pathKey 17 0 64) = false
      ∧ ((linkS []).port 17).hasPath ((linkS []).pathKey 17 0 0) = true := by decide +kernel

/-- Module 0 awaits an answer over port 17 to a request of time 5, which a flit with the payload [5] names, since tick 5. -/
def syncS (now : Nat) : State :=
  { linkS [] with ports := [(17, { Port.fresh with up := true, syncT1 := some 5, syncAt := 5 })], time := now }

/-- The same with port 17 another partition's. -/
def sealedS : State := { linkS [] with parts := [(0, { Part.fresh 0 with job := some job1 }), (1, { Part.fresh 1 with st := .active })], pf := [(partReg 1 0, 0x2000000000001)] }

theorem arrivesSync (now : Nat) : Arrives (syncS now) 17 0xA (flit1 false true 0) 0 job1 (got 0xA (syncS now)) :=
  ⟨rfl, rfl, rfl, rfl, rfl, rfl, (by decide : 0 < 2), rfl, .inl rfl⟩

theorem witness_TimeAlignment :
    Arrives (linkS []) 17 0xA (flit1 false true 0) 0 job1 (got 0xA (linkS []))
      ∧ (got 0xA (linkS [])).mayEnter 0 17 = true
      ∧ Arrives sealedS 17 0xA (flit1 false true 0) 0 job1 (got 0xA sealedS) ∧ (got 0xA sealedS).mayEnter 0 17 = false
      ∧ (∀ now, Arrives (syncS now) 17 0xA (flit1 false true 0) 0 job1 (got 0xA (syncS now)))
      ∧ (∀ now ∈ [10000005, 10000006], ((got 0xA (syncS now)).port 17).syncT1 = some 5
          ∧ ((got 0xA (syncS now)).port 17).syncAt = 5 ∧ (got 0xA (syncS now)).time = now)
      ∧ (5 : W64).toNat = syncStamp (flit1 false true 0) 0
      ∧ 10000005 ≤ 5 + 10000000 ∧ 5 + 10000000 < 10000006
      ∧ ((got 0xA (linkS [])).port 17).syncT1 = none
      ∧ ((syncS 10000006).port 17).syncT1.isSome = true :=
  ⟨arrives 0xA _ [] _ _ _ rfl rfl rfl, by decide +kernel,
   ⟨rfl, rfl, rfl, rfl, rfl, rfl, (by decide : 0 < 2), rfl, .inl rfl⟩, by decide +kernel, arrivesSync, by decide +kernel, by decide, by decide, by decide, rfl, rfl⟩

/-! ### Power, temperature, sleep -/

/-- READY at a whole millisecond, Belvedere running. -/
def evalS (brake : Bool) : State :=
  { ready with time := 1000000, belv := { Belv.fresh with running := true }, pwr := { Pwr.fresh with brake := brake, brakeTick := 900001 } }
def evaluated (s : State) (pIn : Nat) : State :=
  ({ s with pwr := { s.pwr with pInput := pIn, evalTick := s.time, unreach := s.pwr.unreach && pIn > s.capW } } : State).persist.fastEnd

theorem witness_CapLoop :
    (∀ b : Bool, (evalS b).time % 1000000 = 0 ∧ (evalS b).time ≠ (evalS b).pwr.evalTick 
        ∧ (evalS b).belv.running = true)
      ∧ ((evaluated (evalS true) 0).pwr.brake = true
          ∧ (evaluated (evalS true) 0).time < (evaluated (evalS true) 0).pwr.brakeTick + 200000)
      ∧ (evaluated (evalS false) 0).pwr.brake = false
      ∧ (evaluated (evalS false) 2401).effectiveCap < 2401
      ∧ (2400 ≤ (evaluated (evalS false) 2400).effectiveCap ∧ 100 * 2352 ≤ 98 * (evaluated (evalS false) 2400).effectiveCap
          ∧ 98 * (evaluated (evalS false) 2400).effectiveCap < 100 * 2353) := by decide +kernel

/-- Region 3 runs at P7 with an active partition that asks for P0, with and without a droop; a core of it drooped at 0. -/
def pointS (droop : Option Nat) (asked : Nat) : State :=
  { ready with
    time := 20000, parts := [(0, Part.fresh 0)], ctxs := [(1, { ctx1 0 with cores := [192] })]
    regions := [(3, { Region.fresh with pll := true, point := 1, droopTick := droop, thermPt := asked })] }

theorem witness_Points :
    (∀ d ∈ [none, some 0], ∀ a ∈ [0, 2],
      let s := pointS d a
      (s.region 3).pll = true ∧ s.active (some 3) = true ∧ (s.region 3).held = none ∧ (s.region 3).stepTick + 20000 ≤ s.time)
      ∧ ((pointS none 2).pointOf 3 ≠ 1 ∧ (pointS none 2).drooping 3 = false)
      ∧ ((pointS (some 0) 0).pointOf 3 < 1 ∧ (pointS (some 0) 0).drooping 3 = true)
      ∧ (1 < (pointS (some 0) 2).pointOf 3 ∧ (pointS (some 0) 2).drooping 3 = true)
      ∧ (((pointS (some 0) 0).region 3).droopTick = some 0 ∧ 0 + 10000 ≤ (pointS (some 0) 0).time
          ∧ (pointS (some 0) 0).cores = [])
      ∧ ((ready.onCore 263 (fun p => { p with stretch := true })).core 263).stretch = true
      ∧ ready.dev.throttleN = true ∧ ready.dev.st = .ready ∧ State.reset.dev.st ≠ .ready := by decide +kernel

/-- Region 3 rises to P0: its rail does, or stands there; a core of it drooped, or none did. -/
def rising (settled : Bool) (droop : Option Nat) : State :=
  (pointS droop 0).onRegion 3 (fun g => { g with held := some 0, settled := settled })

theorem witness_RailRises :
    (∀ d ∈ [none, some 0], ((rising false d).region 3).held = some 0 ∧ ((rising false d).region 3).settled = false
        ∧ (rising false d).drooping 3 = d.isSome)
      ∧ ((rising true (some 0)).region 3).held = some 0 ∧ ((rising true (some 0)).region 3).settled = true
      ∧ ((rising true (some 0)).region 3).droopTick = some 0 ∧ (rising true (some 0)).cores = []
      ∧ (recovering 3).dev.throttleN = true := by decide +kernel

theorem witness_TemperaturesCoolantAndInput :
    (ready.railsOn = true ∧ State.reset.railsOn = false ∧ State.reset.dev.st ≠ .powerStop ∧ (stopped 0).dev.st = .powerStop)
      ∧ ready.dev.aon = true ∧ ready.dev.st ≠ .starting
      ∧ (let s : State := { State.reset with dev := { Dev.fresh with aon := true } }
         s.dev.aon = true ∧ s.dev.st = .starting ∧ s.dev.inputOk = false)
      ∧ State.reset.dev.aon = false ∧ State.reset.dev.swClosed = true := by decide

/-- A region's PLL runs and has been idle since 0; a stack awake and idle since 0, with SR_IDLE as at reset. -/
def idleS : State :=
  { ready with
    time := 100000000, regions := [(3, { Region.fresh with pll := true, idleTick := some 0 })]
    pwr := { Pwr.fresh with fabric := true, fabricIdle := some 0 } }

theorem witness_SleepAndWake :
    (idleS.region 3).pll = true ∧ idleS.active (some 3) = false ∧ idleS.idleFor (idleS.region 3).idleTick = true
      ∧ idleS.pwr.fabric = true ∧ idleS.active none = false ∧ idleS.idleFor idleS.pwr.fabricIdle = true
      ∧ (({ idleS with regions := [(3, { Region.fresh with waking := true })] } : State).region 3).waking = true
      ∧ (idleS.region 3).waking = false ∧ ({ idleS with pwr := { Pwr.fresh with fabricWake := true } } : State).pwr.fabricWake = true
      ∧ idleS.srIdle 15 ≠ 0 ∧ (idleS.stack 15).selfRef = false ∧ (idleS.stack 15).reqs = []
      ∧ (idleS.stack 15).idleTick + idleS.srIdle 15 ≤ idleS.time ∧ (idleS.setPf 0x2F000 0x8).srIdle 15 = 0
      ∧ ((idleS.onStack 15 (fun k => { k with waking := true })).stack 15).waking = true := by decide

theorem witness_Scrub :
    (idleS.stack 15).selfRef = false ∧ fld (idleS.pfReg (0x20000 + 15 * 0x1000)) 0 6 ≠ 0
      ∧ fld ((idleS.setPf 0x2F000 0).pfReg (0x20000 + 15 * 0x1000)) 0 6 = 0
      ∧ ((idleS.onStack 15 (fun k => { k with selfRef := true })).stack 15).selfRef = true
      ∧ ((idleS.onStack 15 (fun k => { k with reqs := [{ core := 0, id := 0, part := 0, wells := [15], pins := [] }] })).stack 15).reqs ≠ []
      ∧ ((idleS.onStack 15 (fun k => { k with copying := [7] })).stack 15).copying = 7 :: [] := by decide

/-! ### Start-up, Belvedere -/

/-- In start-up, with these stages complete; port 0 and the other ports have had their 7 s. -/
def starting (done : List StartStage) : State :=
  { State.reset with
    time := 7000000000, dev := { Dev.fresh with aon := true, inputOk := true, stages := done }, belv := { Belv.fresh with running := true } }

theorem witness_StartStages :
    ((starting []).inStage .boot = true ∧ (starting []).stageReady .boot = true)
      ∧ ((starting [.boot]).inStage .rails = true ∧ (starting [.boot]).stageReady .rails = true ∧ (starting [.boot]).railsFree = true)
      ∧ (starting [.boot, .rails]).inStage .timebase = true ∧ (starting [.boot, .rails, .timebase]).inStage .stks = true
      ∧ (starting [.boot, .rails, .timebase, .stks]).inStage .cores = true
      ∧ ((starting [.boot, .rails, .timebase, .stks]).inStage .links = true
          ∧ (starting [.boot, .rails, .timebase, .stks]).stageReady .links = true)
      ∧ (starting [.boot, .rails, .timebase, .stks, .cores, .links]).inStage .final = true := by decide

/-- Before the boot, with an image in each slot, each after `fails` failed boots. -/
def booting (fails : Nat) : State :=
  { starting [] with
    belv := { Belv.fresh with slotA := { valid := true, wiped := true, fails := fails, data := [] }
                              slotB := { valid := true, wiped := true, fails := 0, data := [] }, minVer := 1 } }

theorem witness_Boot :
    (∀ n ∈ [2, 3], (booting n).dev.aon = true ∧ (booting n).belv.running = false ∧ (booting n).belv.rom = false
        ∧ (booting n).dev.st = .starting)
      ∧ ({ booting 2 with belv := { (booting 2).belv with rom := true } } : State).belv.rom = true
      ∧ (starting []).belv.running = true ∧ (starting []).dev.aon = true
      ∧ (starting []).serves false = true ∧ sensorId 602 = true
      ∧ drivesPins .highz = true ∧ (starting []).railsOn = false ∧ ready.railsOn = true := by decide

/-- Belvedere runs and serves every path. -/
def serving : State := { ready with belv := { Belv.fresh with running := true, spdm := 3 } }

theorem witness_MctpAndSidebandPort :
    serving.serves true = true ∧ serving.arrived .sideband = true ∧ serving.dev.aon = true
      ∧ (let s := serving.setPf 0x300000 0
         s.serves true = true ∧ s.arrived .vdm = false) := by decide

theorem witness_SensorsAndFirmwareUpdate :
    serving.arrived .sideband = true ∧ serving.serves false = true ∧ sensorId (552 : BitVec 16).toNat = true
      ∧ sensorId (603 : BitVec 16).toNat = false
      ∧ (∀ u ∈ [UpdSt.idle, .learn, .ready, .download, .verify, .apply, .activate], (serving.setUpd u).belv.upd = u)
      ∧ serving.belv.minVer ≤ 0 ∧ ({ serving with belv := { serving.belv with minVer := 1 } } : State).belv.minVer > 0
      ∧ 0xFFFFFF + [(0 : Byte)].length ≤ 0x1000000 := by decide

theorem witness_SpdmAndManagementCommands :
    serving.arrived .sideband = true ∧ serving.serves false = true ∧ 3 ≤ serving.belv.spdm
      ∧ regOk 0x3FFFFF8 = true ∧ serving.regDark 0x3FFFFF8 = false ∧ regOk 0x3FFFFFC = false
      ∧ 0x3FFFC00 + 1024 ≤ 0x4000000
      ∧ (let s : State := { serving with belv := { serving.belv with dumps := [{ cause := 1, tick := 0, units := 559, silent := [], body := [] }] } }
         0 < s.belv.dumps.length)
      ∧ serving.dev.st = .ready ∧ (recovering 1).dev.st = .recovering ∧ (recovering 1).serves false = true
      ∧ serving.holder 12 = 0 ∧ (serving.setHolder 12 (claimant .sideband)).holder 12 = claimant .sideband
      ∧ (serving.setHolder 12 (claimant .sideband)).holder 12 ≠ 0 ∧ (6 : BitVec 8).toNat ≤ 6 := by decide

/-! ### The statements about every step -/

/-- One page allocated, one byte written under the supervisor's keys, one record dropped. -/
def kept : State :=
  { ready with
    mem := { Ram.zero with bytes := [(64, 7)] }, unitKey := [(1, ready.supKey)], frames := [(32, { frames := 1, count := 1 })]
    err := { ErrRing.empty with head := 63, tail := 0, dropped := 1 }, pending := [.ctxFree 0] }

theorem witness_StepKeepsTheInvariant : kept.inv = true ∧ ∃ t, step kept = .next t := ⟨by decide +kernel, ⟨_, rfl⟩⟩

theorem witness_StepTakesOneCommand : ∃ t, step kept = .next t ∧ t.pending = [] := ⟨_, rfl, rfl⟩

theorem witness_MinimumSecurityVersion :
    (let s : State := { serving with time := 60000000000 }
     s.belv.running = true ∧ s.belv.bootTick + 60000000000 ≤ s.time)
      ∧ serving.time < serving.belv.bootTick + 60000000000 ∧ (booting 3).belv.running = false
      ∧ (∃ t, exec (.ctxFree 0) ready = .next t ∧ Instr.ctxFree 0 ≠ .securityVersionRaise)
      ∧ ((booting 3).dev.aon = true ∧ (booting 3).belv.rom = false ∧ 3 ≤ ((booting 3).belv.slot (booting 3).belv.activeB).fails) :=
  ⟨by decide, by decide, by decide, ⟨_, rfl, by decide⟩, by decide⟩

theorem witness_PhysicalWritesReadBack :
    [(1 : Byte), 2][1]? = some 2 ∧ kept.mem.bad (64 + 1) = false ∧ Tab.at? kept.unitKey (64 / 64) = some kept.supKey := by decide

/-- Damage in the two granules at 64: a write of 8 bytes there covers the first whole, and one of 2 bytes at 64 is sound at neither. -/
def hurt : State := { kept with upsets := [{ spot := .mem 8, flips := 1 }, { spot := .mem 9, flips := 3 }] }

theorem witness_PhysicalWritesReadBack_damage :
    (∀ u ∈ hurt.upsets, u.within 64 8 = true → u.granule = some (64 / 8) → wholeGranule 64 8 64 = true)
      ∧ kept.upsets = [] ∧ (∃ u ∈ (hurt.writePhys kept.supKey 64 (clean (List.replicate 8 1))).upsets, u.granule = some 9)
      ∧ (∀ u ∈ (hurt.writePhys kept.supKey 64 (clean (List.replicate 8 1))).upsets, u.granule ≠ some 8)
      ∧ (0 : Nat) / 64 < 64 / 64 := by decide +kernel

/-! ### The spec's worked examples -/

/-- The outcome is a next state with this property. -/
def nextIs (o : Host.Outcome State Fault Refusal) (p : State → Bool) : Bool :=
  match o with
  | .next t => p t
  | _ => false

/-- 00: a region-1 core at mesh index 5 serves logical core 69, whose window begins at 0x0200_1140_0000. -/
theorem test_logical_core_69 : State.reset.phys 69 = some 71 ∧ (idle z).window 71 = 0x20011400000 := by decide

/-- 02 R36: 464.0 and 470.0 in FP8 E4M3 under RNE, with and without SAT. -/
theorem test_e4m3_rne : (convert 3 .rne true (ofF32 0x43E80000)).v = 0x7E ∧ (convert 3 .rne false (ofF32 0x43E80000)).v = 0x7E
    ∧ (convert 3 .rne true (ofF32 0x43EB0000)).v = 0x7E ∧ (convert 3 .rne false (ofF32 0x43EB0000)).v = 0x7F := by decide +kernel

/-- 02 R37: 470.0 has D = 11 with r = 4, so U = 11 rounds up and U = 12 keeps 448. -/
theorem test_e4m3_stochastic : (convert 3 (.st 4 11) false (ofF32 0x43EB0000)).v = 0x7F
    ∧ (convert 3 (.st 4 12) false (ofF32 0x43EB0000)).v = 0x7E := by decide +kernel

/-- A BF16 pair. -/
def pair16 (a b : Nat) : Fp × Fp := (fBF16.dec a, fBF16.dec b)

/-- 02, first worked example: the window of 48 bits drops 2^-50. -/
theorem test_cell_window : (column ([pair16 0x3FC0 0x3F80, pair16 0xBFC0 0x3F80, pair16 0x30A0 0x3F80, pair16 0x2680 0x3F80]
    ++ List.replicate 12 (pair16 0 0x3F80))).v = 0x30A00000 := by decide +kernel

/-- 02, second worked example: subnormals, a tie to even. -/
theorem test_cell_subnormal : (column ([pair16 0x0001 0x4040, pair16 0x0003 0x3F00, pair16 0x0001 0x3700]
    ++ List.replicate 13 (pair16 0 0x3F80))).v = 0x00048000 := by decide +kernel

/-- 02, third worked example: -0 and +0 down a column. -/
theorem test_column_zeros :
    let m := List.replicate 16 (pair16 0x8000 0x3F80)
    let p := List.replicate 16 (pair16 0x0000 0x3F80)
    (chainFp [m, p, m, m]).v = 0 ∧ (chainFp [m, m, m, m]).v = 0x80000000 := by decide +kernel

/-- 03 and 12: the words of element e under layer 0, operator 9, DRAW 7, step 412. -/
theorem test_draw_streams :
    (Draw.at { key := 0, lane := false, step := 412, seq := 0, layer := 0, op := 9, draw := 7, l0 := 0, core := 200 } 2)
      = rng 0 (9 * 2 ^ 16) (7 * 2 ^ 64 + 412 * 2 ^ 32 + 2) := by decide +kernel

/-- 07: the table of slot 5. -/
def ergTable : Image := [0x1100, 0x1330, 0x13B0, 0x1438, 0x14B8, 0x1528, 0x15A8, 0x1540, 0x15C0]
/-- 07: the block's bytes without its CHECK, with byte 10 as given. -/
def ergBytes (byte10 : Byte) : List Byte := [0x7A, 0x25, 0, 0, 0x43, 0x0E, 0x0A, 0, 0, 0, byte10] ++ List.replicate 53 0
def ergBlock (byte10 : Byte) : Block := Block.ofBytes (ergBytes byte10)

/-- 07: values 0, 12, 16 and 32 of the Erg-3 block; the other 156 are +0. -/
theorem test_erg_block :
    decodeBlock ergTable 10 { ergBlock 0 with check := (ergBlock 0).crc 10 }
      = .vals 0x7A ((List.range 160).map (fun i =>
          if i = 0 then 0x38 else if i = 12 then 0x30 else if i = 16 then 0x28 else if i = 32 then 0xB0 else 0)) := by decide +kernel

/-- 07: bit 83 set is PADDING of sub-stream 0, whatever the CRC. -/
theorem test_erg_padding : decodeBlock ergTable 10 { ergBlock 8 with check := 0 } = .bad 4 0 := by decide +kernel

/-- 08: the row's state after each of three tiles, and O under RAISED. -/
def rowAfter (r : RowSt) (x : W32) (n : Nat) : RowSt :=
  (smRow 0x3F800000 1 r ((List.range 64).map (fun c => (x, c < n)))).st
theorem test_softmax_rows :
    let a := rowAfter RowSt.init 0x3F800000 64
    let b := rowAfter a 0x3F800000 64
    let d := rowAfter b 0x41000000 1
    (a.m = 0x3F800000 ∧ a.l = 0x42800000 ∧ a.first = true) ∧ (b.l = 0x43000000 ∧ b.first = false ∧ b.raised = false)
      ∧ (d.m = 0x41000000 ∧ d.l = 0x40000000 ∧ d.raised = true ∧ d.alpha = 0x3C000000) := by decide +kernel

/-- 09: sections of BF16 at D 64, E4M3 at D 128 and Erg-K4 at D 128. -/
theorem test_sections : sectionBytes 1 64 = 8192 ∧ sectionBytes 3 128 = 8192 ∧ sectionBytes 12 128 = 4608 := by decide

/-- 11: entry 2 with PPAGE 0x6_8005 takes address 0x45_1240 to 0xD0_00A5_1240, in channel pair 7 of stack 13. -/
theorem test_translation :
    (supS.writePhys supS.supKey 0x400010 (clean (leBytes 8 (0x68005 * 0x200000 + 3)))).xlat 1 0x451240 false
      = .bad .untranslated ∧ stackOf 0xD000A51240 = 13 ∧ channelPair 0xD000A51240 = 7
    ∧ ((supS.setPf (partReg 1 2) 0x30000400000).writePhys supS.supKey 0x400010 (clean (leBytes 8 (0x68005 * 0x200000 + 3)))).xlat
        1 0x451240 false = .stack 0xD000A51240 := by decide +kernel

/-- 13: a wait with sT = 25 that begins at tick 1,000,000 expires at 1,001,000. -/
theorem test_wait_expiry :
    let x := zs [(10, 0x10040), (11, 8), (12, 25)]
    let i : Instr := .syWait 0 { sD := 9, sS := 10, sV := 11, sT := 12, cond := false, ft := true }
    let s : State := { runs i x with time := 1000000, ctxs := [(1, { ctx1 0 with run := some { run1 with deadline := 2000000 } })] }
    nextIs (exec i s) (fun t => (t.x 0).hold = .wait 9 (some (1, 64)) 8 false (some 1001000) true 1000000) = true := by decide +kernel

/-- 16 R396: 2^24 + 1.0 + 1.0 in rank order, and in arrival order with ranks 1 and 2 first. -/
def contrib (m arr : Nat) (v : Nat) : Contrib :=
  { member := m, flits := [{ off := 0, arr := arr, last := true, bytes := leBytes 4 v }], bad := false }
theorem test_reduction_order :
    let got := [contrib 0 2 0x4B800000, contrib 1 0 0x3F800000, contrib 2 1 0x3F800000]
    let sp (ord : Bool) : RedSpec := { n := 1, rop := 0, ifmt := 0, ofmt := 0, ord := ord, sat := false }
    chunkBytes (sp true) 0 1 got = leBytes 4 0x4B800000 ∧ chunkBytes (sp false) 0 1 got = leBytes 4 0x4B800001 := by decide +kernel

/-- 19: core 72, which serves logical core 70, is fenced; physical core 130 then serves it. -/
theorem test_fence_spare :
    nextIs (exec (.coreFence 72 .residue) ready) (fun t =>
      (t.core 72).st = .fenced ∧ (t.core 130).logical = 70 ∧ (t.core 130).st = .active ∧ t.phys 70 = some 130) = true := by
  decide +kernel

/-- 20: the deadlock's report names its members by core and unit, waiting on signal handles. -/
theorem test_hang_report :
    nextIs (exec .hangTest deadlock) (fun t => t.hang.reports = 1
      ∧ (Tab.val [] t.hang.slots 0).take 2 = [BitVec.ofNat 64 (1 + 2 * 2 ^ 16 + 2 * 2 ^ 32), 100000000]) = true := by decide +kernel

/-- 21: the payload of a debug mixing word of two zeros. -/
theorem test_mix : mix 0 0 = 0x713728511F17E174 := by decide +kernel

/-- 23: physical core 137 fails its test: core 196 serves logical 191, and core 197 stays a spare. -/
theorem test_core_map :
    let s := State.mapCores { ready with belv := ready.belv.logBad [137] 0 }
    (s.core 137).st = .failed ∧ (s.core 196).logical = 191 ∧ (s.core 196).st = .active ∧ (s.core 197).st = .spare := by decide +kernel

/-! ### Commands that cannot arrive -/

theorem smoke_access : Instr.wf (.registerWrite 1 0x100000 8 0 false) = false ∧ Instr.wf (.registerWrite 0 0 0 0 false) = false
    ∧ Instr.wf (.registerReadTimeout 1 0x100000 false) = false ∧ Instr.wf (.registerReadTimeout 1 0x100000000 true) = false
    ∧ Instr.wf (.registerWrite 0 0x3FFFFF8 8 0 false) = true := by decide +kernel

theorem smoke_window : Instr.wf (.bar2Read 1 0xFFFFFFFF 2) = false ∧ Instr.wf (.bar2Write 1 0xFFFFFFFF [0, 0] false) = false
    ∧ Instr.wf (.bar2Read 1 0xFFFFFFFF 1) = true := by decide +kernel

def payload (n : Nat) (bad : List Nat) : Flit := { flit1 false true 0 with payload := List.replicate n 0, badG := bad }

theorem smoke_flits : Instr.wf (.put 0 (payload 240 [])) = false ∧ Instr.wf (.put 0 (payload 7 [])) = false
    ∧ Instr.wf (.put 0 (payload 8 [1])) = false ∧ Instr.wf (.red 0 (payload 232 [])) = false
    ∧ Instr.wf (.redResult 0 (payload 232 [])) = false ∧ Instr.wf (.timesyncRequest 0 (payload 240 []) 0 0) = false
    ∧ Instr.wf (.timesyncResponse 0 (payload 240 []) 0) = false ∧ Instr.wf (.put 0 (payload 232 [28])) = true := by decide +kernel

theorem smoke_control : ∀ f ∈ [payload 8 [], payload 0 [0]], Instr.wf (.sig 0 f) = false ∧ Instr.wf (.landed 0 f) = false
    ∧ Instr.wf (.stepRetry 0 f) = false ∧ Instr.wf (.resetNotice 0 f) = false ∧ Instr.wf (.join 0 f) = false
    ∧ Instr.wf (.peerDown 0 f) = false := by decide +kernel

theorem smoke_management : Instr.wf (.regRead .sideband 0x4000000) = false ∧ Instr.wf (.regWrite .sideband 0x4000000 0) = false
    ∧ Instr.wf (.sidebandRegisterTimeout .sideband 0x4000000) = false ∧ Instr.wf (.crashDump [559]) = false
    ∧ Instr.wf (.patrolScrub 1 [{ granule := 0, uncorrectable := true }]) = false
    ∧ Instr.wf (.startStageDone .cores (.done [264])) = false ∧ Instr.wf (.crashDump [558]) = true := by decide +kernel

/-! ### Words (12 R269, R275 to R296; 13 R302 to R325) -/

/-- The spec's two worked words, byte by byte for the first. -/
theorem test_words_of_the_spec :
    decodeWords 7 (BitVec.ofNat 64 (leNat [0x00, 0x20, 0x00, 0x3F, 0x7F, 0x46, 0x47, 0x10])) 0
        = some (.mxWld 7 { aW := 3, wfmt := 0xA, sfmt := 3, kx := 127, nx := 63, sS := 0, fq := 0, da := true })
      ∧ decodeWords 7 0x504952D880000000 0
        = some (.syWait 7 { sD := 9, sS := 10, sV := 11, sT := 12, cond := false, ft := true }) := by decide +kernel

/-- A value placed with its lowest bit at `lo`; a first word of fields so placed. -/
def at_ (v lo : Nat) : Nat := v * 2 ^ lo
def wordOf (cls op : Nat) (fs : List Nat) : W64 := BitVec.ofNat 64 (fs.foldl (· + ·) (at_ cls 60 + at_ op 54))

/-- sq.add s2, s1, 7 in two words; db.event with its code and register. -/
theorem test_words_by_fields :
    decodeWords 0 (wordOf 0 0x02 [at_ 1 53, at_ 2 48, at_ 1 43]) 7 = some (.sqAdd 0 { sD := 2, sA := 1, sB := 0, ext := some 7 })
      ∧ hasExt (wordOf 0 0x02 [at_ 1 53]) = true ∧ hasExt (wordOf 5 1 []) = false
      ∧ decodeWords 0 (wordOf 9 0x01 [at_ 0xBEEF 37, at_ 9 32]) 0 = some (.dbEvent 0 0xBEEF 9) := by decide +kernel

/-- Reserved classes, operations, X, fields and bits spell nothing. -/
theorem test_words_refused :
    decodeWords 0 0xF000000000000000 0 = none ∧ decodeWords 0 (wordOf 1 0x06 []) 0 = none
      ∧ decodeWords 0 0x1067467F3F002000 0 = none ∧ decodeWords 0 0x1047467F3F002001 0 = none
      ∧ decodeWords 0 (wordOf 6 4 [at_ 6 50]) 0 = none ∧ decodeWords 0 (wordOf 4 5 [at_ 15 35]) 0 = none := by decide +kernel

theorem witness_WordsDecodeToTheirInstruction :
    encode wld ≠ [] ∧ decodeWords 0 (wordAt (lineOfCode wld) 0) 0 = some wld
      ∧ 10 ≤ wordField 0xA000000000000000 60 4
      ∧ (∀ k ∈ [6, 7], let w := wordOf 6 4 [at_ k 50]
         wordField w 60 4 = 6 ∧ wordField w 54 6 = 4 ∧ wordField w 50 3 = k)
      ∧ (∀ k ∈ [1, 15], let w := wordOf 4 5 [at_ k 35]
         wordField w 60 4 = 4 ∧ wordField w 54 6 = 5 ∧ wordField w 35 5 = k) := by decide +kernel

/-- The substitution and the mixing of a column in the cipher of 10 R231 (FIPS 197's own values). -/
theorem test_aes_parts :
    aesSub 0x53 = 0xED ∧ aesSub 0 = 0x63 ∧ aesUnsub 0xED = 0x53
      ∧ (aesMix [2, 3, 1, 1] ([0xDB, 0x13, 0x53, 0x45] ++ List.replicate 12 0)).take 4 = [0x8E, 0x4D, 0xA1, 0xBC]
      ∧ (aesMix [14, 11, 13, 9] ([0x8E, 0x4D, 0xA1, 0xBC] ++ List.replicate 12 0)).take 4
        = [0xDB, 0x13, 0x53, 0x45] := by decide +kernel

end Sys2Proof.Tests
end

/-! The rounds of the random-number generator for zero inputs (03 R54, R57). -/

namespace Sys2Proof.Machine

/-- The generator's state after its first `n` rounds, from the state `q` under the key words `k0` and `k1` (03 R54). -/
def rngRounds (k0 k1 : W32) (q : Quad) (n : Nat) : Quad := (List.range n).foldl (rngRound k0 k1) q

/-- A row of a table of rounds follows from the row before it by one round. -/
theorem rngRounds_succ_eq {k0 k1 : W32} {q r r' : Quad} {n : Nat} (hr : rngRounds k0 k1 q n = r)
    (hround : rngRound k0 k1 r n = r') : rngRounds k0 k1 q (n + 1) = r' := by
  rw [rngRounds, List.range_succ, List.foldl_append]
  subst hr
  exact hround

/-- The generator's output is the state after ten rounds, with the counter in words 0 to 2 and the stream in word 3. -/
theorem rng_eq_rngRounds_ten (K S C : Nat) :
    rng K S C = rngRounds (BitVec.ofNat 32 K) (BitVec.ofNat 32 (K / 2 ^ 32))
      ⟨BitVec.ofNat 32 C, BitVec.ofNat 32 (C / 2 ^ 32), BitVec.ofNat 32 (C / 2 ^ 64), BitVec.ofNat 32 S⟩ 10 := rfl

/-- Settles O57: each row of the table of R57 is one round applied to the row before it. -/
theorem generatorRounds : Obligations.GeneratorRounds := by
  have after1 : rngRounds 0 0 ⟨0, 0, 0, 0⟩ 1 = ⟨0x9E3779B9, 0x7F4A7C15, 0x7F4A7C15, 0x9E3779B9⟩ :=
    rngRounds_succ_eq rfl (by decide)
  have after2 : rngRounds 0 0 ⟨0, 0, 0, 0⟩ 2 = ⟨0x59F0E940, 0x878F0E8F, 0x1C16EDF8, 0xFE31BEB4⟩ :=
    rngRounds_succ_eq after1 (by decide)
  have after3 : rngRounds 0 0 ⟨0, 0, 0, 0⟩ 3 = ⟨0xBC2664FA, 0x7367C3F0, 0x982820EB, 0x4CCE9C82⟩ :=
    rngRounds_succ_eq after2 (by decide)
  have after4 : rngRounds 0 0 ⟨0, 0, 0, 0⟩ 4 = ⟨0xA86C0FCE, 0x2A046128, 0xE220ADC1, 0xD45308F8⟩ :=
    rngRounds_succ_eq after3 (by decide)
  have after5 : rngRounds 0 0 ⟨0, 0, 0, 0⟩ 5 = ⟨0xE985D193, 0xBD656612, 0x32E82322, 0xAF975333⟩ :=
    rngRounds_succ_eq after4 (by decide)
  have after6 : rngRounds 0 0 ⟨0, 0, 0, 0⟩ 6 = ⟨0x5C3811FB, 0xED04A7A6, 0xDE3E5ED3, 0x0A593A2D⟩ :=
    rngRounds_succ_eq after5 (by decide)
  have after7 : rngRounds 0 0 ⟨0, 0, 0, 0⟩ 7 = ⟨0x9CC10DB0, 0xC1705800, 0x63A0FD93, 0xD6BB6360⟩ :=
    rngRounds_succ_eq after6 (by decide)
  have after8 : rngRounds 0 0 ⟨0, 0, 0, 0⟩ 8 = ⟨0x4FED3378, 0x02BD2A2D, 0x34B0419B, 0x4A6D3F6F⟩ :=
    rngRounds_succ_eq after7 (by decide)
  have after9 : rngRounds 0 0 ⟨0, 0, 0, 0⟩ 9 = ⟨0xE29DA526, 0x0E4F7B14, 0xF8BBDDC7, 0x303F750D⟩ :=
    rngRounds_succ_eq after8 (by decide)
  have after10 : rngRounds 0 0 ⟨0, 0, 0, 0⟩ 10 = ⟨0x1F17E174, 0x71372851, 0x21E42BA6, 0xE8A6A190⟩ :=
    rngRounds_succ_eq after9 (by decide)
  exact ⟨after1, after2, after3, after4, after5, after6, after7, after8, after9, after10, rng_eq_rngRounds_ten 0 0 0⟩

end Sys2Proof.Machine

/-! Where a taken `sq.br` goes, and what a fetch outside the code extent does (12 R279, 04 R73). -/

namespace Sys2Proof.Machine

/-- When `sq.br` with COND `cond` on the operands `x` and `y`, from the fields `sA` and `sB`, is taken (12 R276, R279). -/
def BranchTaken (cond : BitVec 3) (sA sB : BitVec 5) (x y : W64) : Prop :=
  (cond = 0 ∧ x = y) ∨ (cond = 1 ∧ x ≠ y) ∨ (cond = 2 ∧ x.toInt < y.toInt) ∨ (cond = 3 ∧ y.toInt ≤ x.toInt)
    ∨ (cond = 4 ∧ x.toNat < y.toNat) ∨ (cond = 5 ∧ y.toNat ≤ x.toNat) ∨ (cond = 6 ∧ sA = 0 ∧ sB = 0)

variable {s t : State} {c n : Nat} {i : Instr} {r : Run} {g : Regs} {cond : BitVec 3} {sA sB : BitVec 5} {x y : W64}

theorem BranchTaken.condHolds (h : BranchTaken cond sA sB x y) : condHolds cond.toNat x y = true := by
  rcases h with ⟨rfl, h⟩ | ⟨rfl, h⟩ | ⟨rfl, h⟩ | ⟨rfl, h⟩ | ⟨rfl, h⟩ | ⟨rfl, h⟩ | ⟨rfl, -, -⟩
  · simpa [Machine.condHolds] using h
  · simpa [Machine.condHolds] using h
  · simpa [Machine.condHolds, BitVec.slt_iff_toInt_lt] using h
  · simpa [Machine.condHolds, BitVec.slt_eq_decide] using h
  · simpa [Machine.condHolds, BitVec.ult_iff_lt, BitVec.lt_def] using h
  · simpa [Machine.condHolds, BitVec.ult_eq_decide] using h
  · rfl

/-- A taken branch has a COND and register fields that `sq.br` allows. -/
theorem BranchTaken.legal (h : BranchTaken cond sA sB x y) : ¬(cond = 7 ∨ cond = 6 ∧ (sA ≠ 0 ∨ sB ≠ 0)) := by
  rcases h with ⟨rfl, -⟩ | ⟨rfl, -⟩ | ⟨rfl, -⟩ | ⟨rfl, -⟩ | ⟨rfl, -⟩ | ⟨rfl, -⟩ | ⟨rfl, rfl, rfl⟩
  all_goals simp

/-- A taken branch that is fetched only places the pc, in the state that the fetch leaves. -/
theorem exec_sqBr_taken {c : Fin 264} {ofs : BitVec 32} (hf : Fetches s c (.sqBr c cond sA sB ofs) n r g t)
    (ht : BranchTaken cond sA sB (g.getS sA.toNat) (g.getS sB.toNat)) :
    exec (.sqBr c cond sA sB ofs) s = .next (t.jump c (g.branch ofs)) := by
  change Host.Outcome.next (fetched s c _ _) = _
  rw [hf.run, if_neg (by simpa using ht.legal), if_pos ht.condHolds]
  rfl

/-- The target of a branch is a 64-bit address. -/
theorem branch_pc_lt (g : Regs) (ofs : BitVec 32) : (g.branch ofs).pc < 2 ^ 64 := by
  simp only [Regs.branch, unsgn]
  omega

/-- The target of a branch is the address of its word plus 8 × OFS, modulo 2^64. -/
theorem branch_pc_emod (g : Regs) (ofs : BitVec 32) :
    ((g.branch ofs).pc : Int) % 2 ^ 64 = ((g.pc : Int) + 8 * ofs.toInt) % 2 ^ 64 := by
  simp only [Regs.branch, unsgn]
  omega

/-- A branch by 0 goes to its own word. -/
theorem branch_zero_pc (h : g.pc < 2 ^ 64) : (g.branch 0).pc = g.pc := by
  have hz : (0 : BitVec 32).toInt = 0 := rfl
  simp only [Regs.branch, unsgn, hz]
  omega

/-- A fetch at a word that leaves the code extent fails with ILLEGAL and reads nothing (04 R73). -/
theorem fetch_outside (h : r.codeSize < g.pc + 8) : s.fetch c n r g = (s, .fail 4) := by
  simp [State.fetch, badFetch, h]

/-- Outside the code extent, every instruction's fetch ends the RUN with ILLEGAL, where no stack sleeps. -/
theorem fetched_outside (hi : s.issuing c = some (n, r, g)) (ha : ∀ st : Fin 16, (s.stack st).selfRef = false)
    (h : r.codeSize < g.pc + 8) (k : State → Nat → Run → Regs → Eff) : fetched s c i k = s.abortRun n 4 := by
  simp [fetched, hi, fetch_outside h, State.orWait_awake ha]

/-- An engine instruction whose fetch leaves the code extent ends the RUN with ILLEGAL. -/
theorem exec_formOf_outside {F : Form} (hF : formOf i = some F) (hc : F.core = c) (he : F.eng ≠ .coll)
    (hi : s.issuing c = some (n, r, g)) (ha : ∀ st : Fin 16, (s.stack st).selfRef = false)
    (h : r.codeSize < g.pc + 8) : exec i s = .next (s.abortRun n 4) := by
  subst hc
  rw [exec_formOf hF, issue, fetched_outside hi ha h]
  simp [Form.after, he]

/-- Settles O59: a taken branch sets the pc to `Regs.branch`'s target, and a fetch past the code extent fails before
the words are compared with any instruction, so each instruction ends the RUN alike. -/
theorem branchTargets : Obligations.BranchTargets := by
  constructor
  · intro s t c n r g sA sB ofs cond hf hpc x y ht
    refine ⟨(g.branch ofs).pc, exec_sqBr_taken hf ht, branch_pc_lt g ofs, branch_pc_emod g ofs, ?_⟩
    rintro rfl
    exact branch_zero_pc hpc
  · intro s c n r g hi ha h
    have outside (i : Instr) (k : State → Nat → Run → Regs → Eff) :
        Host.Outcome.next (fetched s c i k) = (.next (s.abortRun n 4) : Host.Outcome State Fault Refusal) :=
      congrArg _ (fetched_outside hi ha h k)
    exact ⟨outside _ _, outside _ _, fun _ _ _ _ => outside _ _, fun _ _ => outside _ _,
      fun _ _ hF hc he => exec_formOf_outside hF hc he hi ha h⟩

end Sys2Proof.Machine

/-! A supervisor's write of CAP_W (18 R444, 17 R414, 23 R531). -/

namespace Sys2Proof.Machine

/-- Bit `i` of a field is bit `lo + i` of the register's value. -/
theorem testBit_fld (v : W64) (lo n i : Nat) : (fld v lo n).testBit i = (decide (i < n) && v.getLsbD (lo + i)) := by
  simp [fld, bits, BitVec.getLsbD]

/-- Where a mask covers a field, storing `v` under the mask gives the field the value that it has in `v`. -/
theorem fld_masked {m : W64} {lo n : Nat} (hm : ∀ i < n, m.getLsbD (lo + i) = true) (old v : W64) :
    fld ((old &&& ~~~m) ||| (v &&& m)) lo n = fld v lo n := by
  refine Nat.eq_of_testBit_eq fun i => ?_
  rw [testBit_fld, testBit_fld]
  by_cases hi : i < n
  · simp [hm i hi]
  · simp [hi]

/-- A store under a mask that covers a field sets the field to its value in the written word. -/
theorem fld_pfReg_store {m : W64} {lo n : Nat} (hm : ∀ i < n, m.getLsbD (lo + i) = true)
    (s : State) (off : Nat) (v : W64) :
    fld ((s.store off m v).pfReg off) lo n = fld v lo n := by
  rw [State.store, State.pfReg_setPf_same, fld_masked hm]

/-- A store to one register keeps the others. -/
@[simp] theorem State.pfReg_store_ne (s : State) (off : Nat) (m v : W64) {o : Nat} (h : o ≠ off) :
    (s.store off m v).pfReg o = s.pfReg o :=
  State.pfReg_setPf_ne _ _ _ _ h

/-- The supervisor's aligned write to DEV, PWR, ERR or MBOX reaches its register in every state of the device
(17 R414, 23 R531). -/
theorem exec_registerWrite_of_earlyBlock {off : Nat} (he : earlyBlock off = true) (ha : off % 8 = 0)
    (s : State) (v : W64) :
    exec (.registerWrite 0 off 8 v false) s = .next (pfWrite s bySupervisor off v) := by
  change execRegisterWrite 0 off 8 v false s = _
  simp [execRegisterWrite, he, ha]

/-- A write of CAP_W stores its 12 bits, whoever writes. -/
theorem pfWrite_capW (s : State) (who : Nat) (v : W64) : pfWrite s who 0x2000 v = s.store 0x2000 0xFFF v := rfl

/-- The cap follows the 12-bit field of CAP_W, held between 800 and 2,600 W (18 R444). -/
theorem State.capW_of_fld {s : State} {x : Nat} (h : fld (s.pfReg 0x2000) 0 12 = x) :
    s.capW = if x < 800 then 800 else if 2600 < x then 2600 else x := by
  subst h
  rfl

/-- Settles O58: the write stores CAP_W's field, the mask of the store covers that field and no other register, and
the cap clamps the field; at reset the field is 2,400. -/
theorem moduleCap : Obligations.ModuleCap := by
  refine ⟨State.capW_of_fld (x := 2400) (by decide), fun s v => ⟨s.store 0x2000 0xFFF v, ?_, ?_, ?_⟩⟩
  · exact (exec_registerWrite_of_earlyBlock (by decide) (by decide) s v).trans (by rw [pfWrite_capW])
  · exact State.capW_of_fld (fld_pfReg_store (by decide) s 0x2000 v)
  · exact fun off hoff => State.pfReg_store_ne s 0x2000 0xFFF v hoff

end Sys2Proof.Machine

/-! Belvedere's boot and the minimum security version (22 R514, R515). -/

namespace Sys2Proof.Machine

variable {s t : State} {i : Instr}

/-- Every command but SECURITY_VERSION_RAISE takes a path of `Keeps`: the split is that of `exec`, and each arm is
the lemma of its meaning. -/
theorem exec_keeps (hi : i ≠ .securityVersionRaise) (e : exec i s = .next t) : Keeps s t := by
  cases i with
  | sqHalt => exact execSqHalt_keeps e
  | sqLi => exact execSqLi_keeps e
  | sqAdd => exact execSqAdd_keeps e
  | sqSub => exact execSqSub_keeps e
  | sqMul => exact execSqMul_keeps e
  | sqAnd => exact execSqAnd_keeps e
  | sqOr => exact execSqOr_keeps e
  | sqXor => exact execSqXor_keeps e
  | sqShl => exact execSqShl_keeps e
  | sqShr => exact execSqShr_keeps e
  | sqSra => exact execSqSra_keeps e
  | sqMin => exact execSqMin_keeps e
  | sqMax => exact execSqMax_keeps e
  | sqCmp => exact execSqCmp_keeps e
  | sqLd => exact execSqLd_keeps e
  | sqSt => exact execSqSt_keeps e
  | sqDesc => exact execSqDesc_keeps e
  | sqRds => exact execSqRds_keeps e
  | sqWrs => exact execSqWrs_keeps e
  | sqBr => exact execSqBr_keeps e
  | sqLoop => exact execSqLoop_keeps e
  | sqMark => exact execSqMark_keeps e
  | sqDeadline => exact execSqDeadline_keeps e
  | sqPhase => exact execSqPhase_keeps e
  | sqYield => exact execSqYield_keeps e
  | sqLive => exact execSqLive_keeps e
  | sqIcinv => exact execSqIcinv_keeps e
  | instructionStart => exact execInstructionStart_keeps e
  | mxForm => exact execMxForm_keeps e
  | mxWld => exact execMxWld_keeps e
  | mxSwap => exact execMxSwap_keeps e
  | mxRun => exact execMxRun_keeps e
  | mxDrain => exact execMxDrain_keeps e
  | mxNmv => exact execMxNmv_keeps e
  | wellSlot => exact execWellSlot_keeps e
  | vxSetvl => exact execVxSetvl_keeps e
  | vxSetm => exact execVxSetm_keeps e
  | vxEp => exact execVxEp_keeps e
  | vxRed => exact execVxRed_keeps e
  | xpDef => exact execXpDef_keeps e
  | atQk => exact execAtQk_keeps e
  | atSmInit => exact execAtSmInit_keeps e
  | atSmUpdate => exact execAtSmUpdate_keeps e
  | atSmFinal => exact execAtSmFinal_keeps e
  | atSmMerge => exact execAtSmMerge_keeps e
  | atPv => exact execAtPv_keeps e
  | atDec => exact execAtDec_keeps e
  | atPageAlloc => exact execAtPageAlloc_keeps e
  | atPageFree => exact execAtPageFree_keeps e
  | atPageFork => exact execAtPageFork_keeps e
  | atPagePrep => exact execAtPagePrep_keeps e
  | atPageLookup => exact execAtPageLookup_keeps e
  | atPageInsert => exact execAtPageInsert_keeps e
  | rnKey => exact execRnKey_keeps e
  | rnStream => exact execRnStream_keeps e
  | rnDraw => exact execRnDraw_keeps e
  | dmCopy => exact execDmCopy_keeps e
  | dmXpose => exact execDmXpose_keeps e
  | dmGather => exact execDmGather_keeps e
  | dmExpand => exact execDmExpand_keeps e
  | dmPack => exact execDmPack_keeps e
  | dmTblCore => exact execDmTblCore_keeps e
  | dmTblStack => exact execDmTblStack_keeps e
  | tableBankSwitch => exact execTableBankSwitch_keeps e
  | tableLoadRelease => exact execTableLoadRelease_keeps e
  | ergBlockDecode => exact execErgBlockDecode_keeps e
  | dmAtom => exact execDmAtom_keeps e
  | sySig => exact execSySig_keeps e
  | sySet => exact execSySet_keeps e
  | signalUpdateApply => exact execSignalUpdateApply_keeps e
  | syWait => exact execSyWait_keeps e
  | syWaitTimeout => exact execSyWaitTimeout_keeps e
  | syQput => exact execSyQput_keeps e
  | syQputResume => exact execSyQputResume_keeps e
  | syQget => exact execSyQget_keeps e
  | syQgetResume => exact execSyQgetResume_keeps e
  | syQcnt => exact execSyQcnt_keeps e
  | clPut => exact execClPut_keeps e
  | clReduce => exact execClReduce_keeps e
  | clStep => exact execClStep_keeps e
  | clTimesync => exact execClTimesync_keeps e
  | dbWatch => exact execDbWatch_keeps e
  | dbEvent => exact execDbEvent_keeps e
  | scoreboardWatchdogExpiry => exact execScoreboardWatchdogExpiry_keeps e
  | doorbellSubmissionTail => exact execDoorbellSubmissionTail_keeps e
  | doorbellCompletionHead => exact execDoorbellCompletionHead_keeps e
  | run => exact execRun_keeps e
  | signal => exact execSignal_keeps e
  | wait => exact execWait_keeps e
  | resetContext => exact execResetContext_keeps e
  | timesync => exact execTimesync_keeps e
  | dispatchSelection => exact execDispatchSelection_keeps e
  | contextStart => exact execContextStart_keeps e
  | contextSaveDone => exact execContextSaveDone_keeps e
  | contextRestoreDone => exact execContextRestoreDone_keeps e
  | deadlineExpiry => exact execDeadlineExpiry_keeps e
  | implicitDeadlineExpiry => exact execImplicitDeadlineExpiry_keeps e
  | partCreate => exact execPartCreate_keeps e
  | partRelease => exact execPartRelease_keeps e
  | partReleaseStepDone => exact execPartReleaseStepDone_keeps e
  | memoryZeroingDone => exact execMemoryZeroingDone_keeps e
  | xlatUpdate => exact execXlatUpdate_keeps e
  | xlatUpdateComplete => exact execXlatUpdateComplete_keeps e
  | cacheClear => exact execCacheClear_keeps e
  | coreSetAssign => exact execCoreSetAssign_keeps e
  | coreSetRemove => exact execCoreSetRemove_keeps e
  | coreScrubDone => exact execCoreScrubDone_keeps e
  | ctxAssign => exact execCtxAssign_keeps e
  | ctxFree => exact execCtxFree_keeps e
  | keyApply => exact execKeyApply_keeps e
  | registerWrite => exact execRegisterWrite_keeps e
  | registerReadTimeout fn _ bar2 => exact execRegisterReadTimeout_keeps (x0 := fn) (x2 := bar2) e
  | bar2Read => exact execBar2Read_keeps e
  | bar2Write => exact execBar2Write_keeps e
  | errTailWrite => exact execErrTailWrite_keeps e
  | queueEnable => exact execQueueEnable_keeps e
  | queueDisable => exact execQueueDisable_keeps e
  | queueFlush => exact execQueueFlush_keeps e
  | queueFlushDone => exact execQueueFlushDone_keeps e
  | sigObjAdd => exact execSigObjAdd_keeps e
  | sigObjSet => exact execSigObjSet_keeps e
  | stkSlotMapWrite => exact execStkSlotMapWrite_keeps e
  | jobApply => exact execJobApply_keeps e
  | jobUnbind => exact execJobUnbind_keeps e
  | lnkModeWrite => exact execLnkModeWrite_keeps e
  | selftest => exact execSelftest_keeps e
  | selftestDone => exact execSelftestDone_keeps e
  | recoveryStartWrite => exact execRecoveryStartWrite_keeps e
  | restart byPerst => exact execRestart_keeps (x0 := byPerst) e
  | traceEnable => exact execTraceEnable_keeps e
  | traceSnap => exact execTraceSnap_keeps e
  | traceBufWrite => exact execTraceBufWrite_keeps e
  | claimSupervisor => exact execClaimSupervisor_keeps e
  | releaseSupervisor => exact execReleaseSupervisor_keeps e
  | mboxGo => exact execMboxGo_keeps e
  | timerFire => exact execTimerFire_keeps e
  | functionLevelReset => exact execFunctionLevelReset_keeps e
  | perstNAssert => exact execPerstNAssert_keeps e
  | perstNDeassert => exact execPerstNDeassert_keeps e
  | put => exact execPut_keeps e
  | finWriteRelease => exact execFinWriteRelease_keeps e
  | sig => exact execSig_keeps e
  | landed => exact execLanded_keeps e
  | red => exact execRed_keeps e
  | redResult => exact execRedResult_keeps e
  | reductionWindowExpiry => exact execReductionWindowExpiry_keeps e
  | stepRetry => exact execStepRetry_keeps e
  | resetNotice => exact execResetNotice_keeps e
  | join => exact execJoin_keeps e
  | peerDown => exact execPeerDown_keeps e
  | timesyncRequest => exact execTimesyncRequest_keeps e
  | timesyncResponse => exact execTimesyncResponse_keeps e
  | timesyncNeighbourTimeout => exact execTimesyncNeighbourTimeout_keeps e
  | nak => exact execNak_keeps e
  | flitCrcFail => exact execFlitCrcFail_keeps e
  | linkRetrainDone => exact execLinkRetrainDone_keeps e
  | laneAlignmentLoss => exact execLaneAlignmentLoss_keeps e
  | memberLost => exact execMemberLost_keeps e
  | pauseFrame => exact execPauseFrame_keeps e
  | pfcFrame => exact execPfcFrame_keeps e
  | capLoopEvaluation => exact execCapLoopEvaluation_keeps e
  | energyReconcile => exact execEnergyReconcile_keeps e
  | regionPointStep => exact execRegionPointStep_keeps e
  | fastLimit => exact execFastLimit_keeps e
  | droopDetect => exact execDroopDetect_keeps e
  | droopEnd => exact execDroopEnd_keeps e
  | droopQuietEnd => exact execDroopQuietEnd_keeps e
  | throttleNAssert => exact execThrottleNAssert_keeps e
  | throttleNRelease => exact execThrottleNRelease_keeps e
  | thermalSample => exact execThermalSample_keeps e
  | stackThermalStep => exact execStackThermalStep_keeps e
  | flowLossAssert => exact execFlowLossAssert_keeps e
  | flowLossRelease => exact execFlowLossRelease_keeps e
  | inputVoltageTrip => exact execInputVoltageTrip_keeps e
  | inputLoss => exact execInputLoss_keeps e
  | inputOvercurrent => exact execInputOvercurrent_keeps e
  | powerGood => exact execPowerGood_keeps e
  | pllIdleStop => exact execPllIdleStop_keeps e
  | wakeDone => exact execWakeDone_keeps e
  | selfRefreshEntry => exact execSelfRefreshEntry_keeps e
  | stackWakeDone => exact execStackWakeDone_keeps e
  | stackPointChange => exact execStackPointChange_keeps e
  | patrolScrub => exact execPatrolScrub_keeps e
  | bankRetireCopyDone => exact execBankRetireCopyDone_keeps e
  | coreFence => exact execCoreFence_keeps e
  | ceLimitFence => exact execCeLimitFence_keeps e
  | hangTest => exact execHangTest_keeps e
  | progressWindowExpiry => exact execProgressWindowExpiry_keeps e
  | contextResetDone => exact execContextResetDone_keeps e
  | moduleRecovery => exact execModuleRecovery_keeps e
  | recoveryStageDone => exact execRecoveryStageDone_keeps e
  | crashDump => exact execCrashDump_keeps e
  | startStageDone => exact execStartStageDone_keeps e
  | lockstepMismatch => exact execLockstepMismatch_keeps e
  | firmwareBoot => exact execFirmwareBoot_keeps e
  | securityVersionRaise => exact absurd rfl hi
  | sensorSample => exact execSensorSample_keeps e
  | setEndpointId => exact execSetEndpointId_keeps e
  | getEndpointId => exact execGetEndpointId_keeps e
  | getMctpVersionSupport => exact execGetMctpVersionSupport_keeps e
  | getMessageTypeSupport => exact execGetMessageTypeSupport_keeps e
  | getVendorDefinedMessageSupport => exact execGetVendorDefinedMessageSupport_keeps e
  | pldmDiscovery => exact execPldmDiscovery_keeps e
  | getSensorReading => exact execGetSensorReading_keeps e
  | getSensorThresholds => exact execGetSensorThresholds_keeps e
  | getPdr => exact execGetPdr_keeps e
  | requestUpdate => exact execRequestUpdate_keeps e
  | getFirmwareParameters => exact execGetFirmwareParameters_keeps e
  | passComponentTable => exact execPassComponentTable_keeps e
  | updateComponent => exact execUpdateComponent_keeps e
  | requestFirmwareData => exact execRequestFirmwareData_keeps e
  | transferComplete => exact execTransferComplete_keeps e
  | verifyComplete => exact execVerifyComplete_keeps e
  | applyComplete => exact execApplyComplete_keeps e
  | activateFirmware => exact execActivateFirmware_keeps e
  | getStatus => exact execGetStatus_keeps e
  | cancelUpdate => exact execCancelUpdate_keeps e
  | getVersion => exact execGetVersion_keeps e
  | getCapabilities => exact execGetCapabilities_keeps e
  | negotiateAlgorithms => exact execNegotiateAlgorithms_keeps e
  | getDigests => exact execGetDigests_keeps e
  | getCertificate _ _ off len => exact execGetCertificate_keeps (x2 := off) (x3 := len) e
  | challenge _ _ nonce => exact execChallenge_keeps (x2 := nonce) e
  | getMeasurements => exact execGetMeasurements_keeps e
  | regRead => exact execRegRead_keeps e
  | regWrite => exact execRegWrite_keeps e
  | alarmRead => exact execAlarmRead_keeps e
  | logRead => exact execLogRead_keeps e
  | dumpRead => exact execDumpRead_keeps e
  | recover => exact execRecover_keeps e
  | claim => exact execClaim_keeps e
  | status => exact execStatus_keeps e
  | mctpMessageTimeout via => exact execMctpMessageTimeout_keeps (x0 := via) e
  | i3cSclLowTimeout => exact execI3cSclLowTimeout_keeps e
  | sidebandRegisterTimeout => exact execSidebandRegisterTimeout_keeps e
  | tagRelease => exact execTagRelease_keeps e
  | instructionComplete => exact execInstructionComplete_keeps e
  | inputRangeReturn => exact execInputRangeReturn_keeps e
  | inputSwitchClose => exact execInputSwitchClose_keeps e
  | tapStateChange => exact execTapStateChange_keeps e
  | setdasa => exact execSetdasa_keeps e
  | entdaa => exact execEntdaa_keeps e
  | unsupportedMctpMessage fromVf => exact execUnsupportedMctpMessage_keeps (x0 := fromVf) e
  | idle => exact execIdle_keeps e
  | reservedTypeFlit => exact execReservedTypeFlit_keeps e
  | foreignEthertypeFrame => exact execForeignEthertypeFrame_keeps e

/-- Once the running image has had its 60 s, the raise takes the higher of the minimum and its version. -/
theorem exec_securityVersionRaise_due (hr : s.belv.running = true) (ht : s.belv.bootTick + 60000000000 ≤ s.time) :
    exec .securityVersionRaise s = .next { s with belv := { s.belv with minVer := max s.belv.minVer s.belv.runVer } } := by
  change execSecurityVersionRaise s = _
  simp [execSecurityVersionRaise, hr, ht]

/-- Before that, or where no image runs, the raise changes nothing. -/
theorem exec_securityVersionRaise_early (h : s.belv.running = false ∨ s.time < s.belv.bootTick + 60000000000) :
    exec .securityVersionRaise s = .next s := by
  have hn : ¬(s.belv.running = true ∧ s.belv.bootTick + 60000000000 ≤ s.time) := by
    rintro ⟨hr, ht⟩
    rcases h with h | h
    · simp [hr] at h
    · omega
  change execSecurityVersionRaise s = _
  simp [execSecurityVersionRaise, hn]

/-- An alarm changes only Belvedere's alarm entries and what waits for its log. -/
theorem State.alarm_belv (s : State) (kind unit : Nat) :
    ∃ l w, (s.alarm kind unit).belv = { s.belv with alarms := l, logWait := w } := by
  unfold State.alarm
  dsimp only
  cases ((alarmAdd s.belv.alarms kind unit s.time).filter (fun a => a.kind = kind && a.unit = unit)).head? with
  | none => exact ⟨_, _, rfl⟩
  | some a => exact ⟨_, _, rfl⟩

/-- Belvedere after the boot of slot `y`: the slot's failures are forgotten, the version and the tick are noted, and an
entry waits for the log, with an alarm entry where the boot is a restart (22 R510, R514). -/
theorem State.bootSlotOf_belv (s : State) (y : Bool) :
    ∃ l w, (s.bootSlotOf y).belv = { s.belv.setSlot y { s.belv.slot y with fails := 0 } with
      activeB := y, running := true, rom := false, bootTick := s.time, runVer := s.belv.version y, newImage := false
      restarted := false, alarms := l, logWait := w } := by
  unfold State.bootSlotOf
  dsimp only
  split
  · obtain ⟨l, w, h⟩ := State.alarm_belv _ alarmRestart 0
    exact ⟨l, w, h⟩
  · exact ⟨_, _, rfl⟩

@[simp] theorem State.bootSlotOf_runVer (s : State) (y : Bool) : (s.bootSlotOf y).belv.runVer = s.belv.version y := by
  obtain ⟨l, w, h⟩ := s.bootSlotOf_belv y
  rw [h]

@[simp] theorem State.bootSlotOf_bootTick (s : State) (y : Bool) : (s.bootSlotOf y).belv.bootTick = s.time := by
  obtain ⟨l, w, h⟩ := s.bootSlotOf_belv y
  rw [h]

theorem Belv.accepts_iff {b : Belv} {y ok : Bool} :
    b.accepts y ok = true ↔ ok = true ∧ (b.slot y).valid = true ∧ b.minVer ≤ b.version y ∧ (b.slot y).fails < 3 := by
  simp [Belv.accepts, and_assoc]

/-- A slot that has failed 3 times in a row is not accepted, whatever its signature (22 R514). -/
theorem Belv.accepts_eq_false_of_failed {b : Belv} {y : Bool} (h : 3 ≤ (b.slot y).fails) (ok : Bool) :
    b.accepts y ok = false := by
  simp [Belv.accepts, h]

/-- Where the active slot has failed 3 times, the boot ROM tries the other slot or none. -/
theorem Belv.trial_of_failed {b : Belv} (h : 3 ≤ (b.slot b.activeB).fails) (sig : Bool → Bool) :
    b.trial (sig false) (sig true) =
      if b.accepts (!b.activeB) (sig (!b.activeB)) then some (!b.activeB) else none := by
  have hs (x : Bool) : (if x = true then sig true else sig false) = sig x := by cases x <;> rfl
  simp only [Belv.trial, hs, Belv.accepts_eq_false_of_failed h, Bool.false_eq_true, if_false]

/-- A boot of a processor that neither runs nor stays in boot ROM, answered as the slots' signatures are. -/
theorem exec_firmwareBoot_signed (ha : s.dev.aon = true) (hr : s.belv.running = false) (hm : s.belv.rom = false) :
    exec (.firmwareBoot (s.belv.signed false) (s.belv.signed true)) s =
      .next ((s.belv.trial (s.belv.signed false) (s.belv.signed true)).elim
        (let t : State := { s with belv := { s.belv with rom := true } }
         if s.dev.st = .starting then t.failStage 0xF1 else t) s.bootSlotOf) := by
  change execFirmwareBoot _ _ s = _
  simp only [execFirmwareBoot, ha, hr, hm, Bool.not_true, Bool.or_self, ne_eq, not_true, decide_false,
    Bool.false_eq_true, if_false]
  cases s.belv.trial (s.belv.signed false) (s.belv.signed true) <;> rfl

/-- Settles O55: the raise has one condition, every other command takes a path of `Keeps`, and a boot whose active
slot has failed 3 times tries the other one alone, against the minimum as it stands. -/
theorem minimumSecurityVersion : Obligations.MinimumSecurityVersion := by
  intro s
  refine ⟨exec_securityVersionRaise_due, exec_securityVersionRaise_early,
    fun y => ⟨s.bootSlotOf_runVer y, s.bootSlotOf_bootTick y⟩, fun _ _ hi e => (exec_keeps hi e).minVer, ?_⟩
  intro ha hr hm hf
  dsimp only
  rw [exec_firmwareBoot_signed ha hr hm, Belv.trial_of_failed hf s.belv.signed]
  simp only [← Belv.accepts_iff]
  split <;> rfl

end Sys2Proof.Machine

/-! One step: the command in front, or a tick (log 1). -/

namespace Sys2Proof.Machine

variable {s t : State} {i : Instr}

/-- On an empty queue a step is a tick. -/
theorem step_of_nil (h : s.pending = []) : step s = .next (tick s) := by
  simp [step, h]

/-- With a command in front, a step runs it on the rest of the queue. -/
theorem step_of_cons {l : List Instr} (h : s.pending = i :: l) : step s = exec i { s with pending := l } := by
  simp [step, h]

/-- While the always-on clock does not run, a tick changes nothing. -/
theorem tick_of_not_aon (h : s.dev.aon = false) : tick s = s := by
  simp [tick, h]

/-- The raise of the minimum security version changes only Belvedere's minimum, or nothing. -/
theorem execSecurityVersionRaise_cases (e : execSecurityVersionRaise s = .next t) :
    t = s ∨ t = { s with belv := { s.belv with minVer := max s.belv.minVer s.belv.runVer } } := by
  by_cases h : s.belv.running = true ∧ s.belv.bootTick + 60000000000 ≤ s.time
  · exact .inr (Host.Outcome.next.inj (e.symm.trans (exec_securityVersionRaise_due h.1 h.2)))
  · refine .inl (Host.Outcome.next.inj (e.symm.trans (exec_securityVersionRaise_early ?_)))
    rw [not_and_or, Bool.not_eq_true, Nat.not_le] at h
    exact h

/-- What every command keeps, the raise included: the queue, the order of draws, and the invariant. -/
theorem exec_leads (e : exec i s = .next t) :
    t.pending = s.pending ∧ s.free ≤ t.free ∧ (s.inv = true → t.inv = true) := by
  by_cases hi : i = .securityVersionRaise
  · subst hi
    rcases execSecurityVersionRaise_cases e with rfl | rfl
    · exact ⟨rfl, Nat.le_refl _, id⟩
    · exact ⟨rfl, Nat.le_refl _, id⟩
  · have k := exec_keeps hi e
    exact ⟨k.pending, k.free, k.inv⟩

/-- What every step keeps, by the two ways that a step goes. -/
theorem step_leads (e : step s = .next t) :
    t.pending = s.pending.tail ∧ s.free ≤ t.free ∧ (s.inv = true → t.inv = true) := by
  match h : s.pending with
  | [] =>
    obtain rfl : tick s = t := Host.Outcome.next.inj ((step_of_nil h).symm.trans e)
    have k := tick_keeps (Keeps.refl s)
    exact ⟨k.pending.trans h, k.free, k.inv⟩
  | i :: l => exact exec_leads ((step_of_cons h).symm.trans e)

/-- Settles O53: each command takes a path of `Keeps` or only raises Belvedere's minimum, and so does the tick. -/
theorem stepKeepsTheInvariant : Obligations.StepKeepsTheInvariant :=
  fun _ _ hi e => (step_leads e).2.2 hi

/-- Settles O54: `Keeps` holds the queue and the counter of draws; a tick without a clock is no change. -/
theorem stepTakesOneCommand : Obligations.StepTakesOneCommand := by
  refine ⟨fun s t e => ?_, fun s h => ⟨step_of_nil h, fun ha => ?_⟩⟩
  · obtain ⟨hp, hf, -⟩ := step_leads e
    exact ⟨hp, hf⟩
  · rw [step_of_nil h, tick_of_not_aon ha]

/-- Settles O1: the front command meets the state whose queue is the rest. -/
theorem stepRunsTheFrontCommand : Obligations.StepRunsTheFrontCommand := by
  unfold Obligations.StepRunsTheFrontCommand
  intros
  rw [step_of_cons rfl]

end Sys2Proof.Machine

/-! Issue to an engine's queue, and the end of a RUN at issue (04 R74, R554, 12 R271). -/

namespace Sys2Proof.Machine

variable {s t : State} {c words n code : Nat} {i : Instr} {r : Run} {g : Regs}

/-- Outside the collective engine nothing follows the issue. -/
theorem Form.after_of_ne_coll {F : Form} (he : F.eng ≠ .coll) (s t : State) : F.after s t = t := by
  simp [Form.after, he]

/-- An engine instruction outside the collective engine answers what its issue leaves. -/
theorem exec_formOf_issue {F : Form} (hF : formOf i = some F) (he : F.eng ≠ .coll) (s : State) :
    exec i s = .next (issue s F.core F.words F.eng i F.ready F.check F.next F.run) := by
  rw [exec_formOf hF, Form.after_of_ne_coll he]

/-- An instruction whose checks fail at issue ends the RUN with their status code. -/
theorem Fetches.issue_fail (hf : Fetches s c i n r g t) {ready : State → Nat → Bool}
    {check : State → Nat → Regs → Check} (hr : ready t c = true) (hc : check t n g = .fail code)
    (e : Engine) (next : Regs → Regs) (run : Effect) :
    issue s c words e i ready check next run = t.abortRun n code := by
  rw [issue, hf.run]
  simp [hr, hc, Eff.settle]

/-- Settles O8: every engine instruction issues by its form, so one held instruction and one failed check stand for
all of them. -/
theorem engineInstructionsIssueOrAbort : Obligations.EngineInstructionsIssueOrAbort := by
  intro i F s t n hF he
  refine ⟨fun k x hi hm => ?_, fun r g code hf hr hc => ?_⟩
  · rw [exec_formOf_issue hF he, hi.waits F.run (.inl hm)]
  · rw [exec_formOf_issue hF he, hf.issue_fail hr hc]

end Sys2Proof.Machine

/-! The encoder and the decoder are each other's inverse (04 R72, R73, 12 R269). -/

namespace Sys2Proof

/-! ### Packing and unpacking the fields of a word -/

/-- Every field's value fits its width. -/
def fits (fs : List (Nat × Nat)) : Prop := ∀ f ∈ fs, f.2 < 2 ^ f.1

@[simp] theorem fits_nil : fits [] := by simp [fits]

@[simp] theorem fits_cons {n v : Nat} {fs : List (Nat × Nat)} : fits ((n, v) :: fs) ↔ v < 2 ^ n ∧ fits fs := by
  simp [fits]

@[simp] theorem fits_fv_cons {n : Nat} {v : BitVec n} {fs : List (Nat × Nat)} : fits (fv v :: fs) ↔ fits fs := by
  simp [fits, fv, v.isLt]

@[simp] theorem fits_fb_cons {b : Bool} {fs : List (Nat × Nat)} : fits (fb b :: fs) ↔ fits fs := by
  cases b <;> simp [fits, fb]

theorem pack_lt {top : Nat} {fs : List (Nat × Nat)} (hf : fits fs) (hw : (fs.map Prod.fst).sum ≤ top) :
    pack top fs < 2 ^ top := by
  induction fs generalizing top with
  | nil => exact Nat.two_pow_pos top
  | cons p fs ih =>
    obtain ⟨n, v⟩ := p
    obtain ⟨hv, hf⟩ := fits_cons.1 hf
    simp only [List.map_cons, List.sum_cons] at hw
    have low := ih (top := top - n) hf (by omega)
    have split : 2 ^ top = 2 ^ n * 2 ^ (top - n) := by rw [← Nat.pow_add]; congr 1; omega
    have high : (v + 1) * 2 ^ (top - n) ≤ 2 ^ n * 2 ^ (top - n) := Nat.mul_le_mul_right _ hv
    rw [pack, split]
    linarith

/-- The bits of a number below `top`, split where its highest field of width `n` begins. -/
theorem mod_two_pow_split {n top : Nat} (h : n ≤ top) (x : Nat) :
    x % 2 ^ top = x / 2 ^ (top - n) % 2 ^ n * 2 ^ (top - n) + x % 2 ^ (top - n) := by
  have split : 2 ^ top = 2 ^ (top - n) * 2 ^ n := by rw [← Nat.pow_add]; congr 1; omega
  rw [split, Nat.mod_mul, Nat.mul_comm, Nat.add_comm]

/-- Two numbers in base `b` agree in both digits. -/
theorem mul_add_inj {a a' x x' b : Nat} (hx : x < b) (hx' : x' < b) (h : a * b + x = a' * b + x') :
    a = a' ∧ x = x' := by
  have hd : ∀ c y, y < b → (c * b + y) / b = c := fun c y hy => by
    rw [Nat.add_comm, Nat.add_mul_div_right _ _ (by omega), Nat.div_eq_of_lt hy, Nat.zero_add]
  have ha : a = a' := by rw [← hd a x hx, h, hd a' x' hx']
  subst ha
  exact ⟨rfl, by omega⟩

/-- A word whose lower bits are packed fields unpacks to them. -/
theorem unpack_of_pack {w : W64} {top : Nat} {fs : List (Nat × Nat)} (hf : fits fs)
    (hw : (fs.map Prod.fst).sum ≤ top) (h : w.toNat % 2 ^ top = pack top fs) :
    unpack w top (fs.map Prod.fst) = some (fs.map Prod.snd) := by
  induction fs generalizing top with
  | nil => simpa [unpack, wordField, pack] using h
  | cons p fs ih =>
    obtain ⟨n, v⟩ := p
    obtain ⟨hv, hf⟩ := fits_cons.1 hf
    simp only [List.map_cons, List.sum_cons] at hw
    rw [mod_two_pow_split (n := n) (by omega), pack] at h
    obtain ⟨hn, hr⟩ := mul_add_inj (Nat.mod_lt _ (Nat.two_pow_pos _)) (pack_lt hf (by omega)) h
    simp [unpack, ih hf (by omega) hr, wordField, hn]

/-- What unpacks has fields that fit, one for each width, and no other bits. -/
theorem pack_of_unpack {w : W64} {top : Nat} {ns l : List Nat} (hw : ns.sum ≤ top) (h : unpack w top ns = some l) :
    l.length = ns.length ∧ fits (ns.zip l) ∧ w.toNat % 2 ^ top = pack top (ns.zip l) := by
  induction ns generalizing top l with
  | nil =>
    simp only [unpack, wordField, Nat.pow_zero, Nat.div_one, Option.ite_none_right_eq_some, Option.some.injEq] at h
    obtain ⟨h, rfl⟩ := h
    simp [pack, h]
  | cons n ns ih =>
    simp only [List.sum_cons] at hw
    simp only [unpack, Option.map_eq_some_iff] at h
    obtain ⟨r, hr, rfl⟩ := h
    obtain ⟨hl, hf, hp⟩ := ih (by omega) hr
    have hv : wordField w (top - n) n < 2 ^ n := Nat.mod_lt _ (Nat.two_pow_pos _)
    refine ⟨by simp [hl], by simp [hv, hf], ?_⟩
    rw [mod_two_pow_split (n := n) (by omega), hp]
    rfl

/-! ### The first word and the extension word -/

/-- The four parts of a first word, as a number. -/
theorem firstWord_toNat {cls op : Nat} {fs : List (Nat × Nat)} (hc : cls < 16) (ho : op < 64) (hf : fits fs)
    (hw : (fs.map Prod.fst).sum ≤ 53) (x : Bool) :
    (firstWord cls op x fs).toNat = cls * 2 ^ 60 + op * 2 ^ 54 + x.toNat * 2 ^ 53 + pack 53 fs := by
  have low := pack_lt hf hw
  have hx := x.toNat_le
  rw [firstWord, BitVec.toNat_ofNat, Nat.mod_eq_of_lt]
  omega

theorem wordField_firstWord {cls op : Nat} {fs : List (Nat × Nat)} (hc : cls < 16) (ho : op < 64) (hf : fits fs)
    (hw : (fs.map Prod.fst).sum ≤ 53) (x : Bool) :
    wordField (firstWord cls op x fs) 60 4 = cls ∧ wordField (firstWord cls op x fs) 54 6 = op
      ∧ wordField (firstWord cls op x fs) 53 1 = x.toNat ∧ (firstWord cls op x fs).toNat % 2 ^ 53 = pack 53 fs := by
  have low := pack_lt hf hw
  have hx := x.toNat_le
  simp only [wordField, firstWord_toNat hc ho hf hw]
  omega

/-- Bit X is the field of one bit at 53. -/
theorem toNat_hasExt (w : W64) : (hasExt w).toNat = wordField w 53 1 := by
  simp only [hasExt, BitVec.getLsbD, Nat.testBit_eq_decide_div_mod_eq, wordField, Nat.pow_one]
  rcases Nat.mod_two_eq_zero_or_one (w.toNat / 2 ^ 53) with h | h <;> rw [h] <;> rfl

theorem hasExt_firstWord {cls op : Nat} {fs : List (Nat × Nat)} (hc : cls < 16) (ho : op < 64) (hf : fits fs)
    (hw : (fs.map Prod.fst).sum ≤ 53) (x : Bool) : hasExt (firstWord cls op x fs) = x := by
  have h := (toNat_hasExt _).trans (wordField_firstWord hc ho hf hw x).2.2.1
  revert h
  cases hasExt (firstWord cls op x fs) <;> cases x <;> simp

/-- A word is the first word of its own parts. -/
theorem eq_firstWord {w : W64} {fs : List (Nat × Nat)} (h : w.toNat % 2 ^ 53 = pack 53 fs) :
    w = firstWord (wordField w 60 4) (wordField w 54 6) (hasExt w) fs := by
  refine BitVec.eq_of_toNat_eq ?_
  rw [firstWord, BitVec.toNat_ofNat, ← h, toNat_hasExt]
  simp only [wordField]
  omega

/-- A word is the extension word of the fields that it unpacks to. -/
theorem eq_extWord {e : W64} {fs : List (Nat × Nat)} (h : e.toNat % 2 ^ 64 = pack 64 fs) : e = extWord fs := by
  refine BitVec.eq_of_toNat_eq ?_
  rw [extWord, BitVec.toNat_ofNat, ← h]
  omega

theorem extWord_toNat_mod {fs : List (Nat × Nat)} (hf : fits fs) (hw : (fs.map Prod.fst).sum ≤ 64) :
    (extWord fs).toNat % 2 ^ 64 = pack 64 fs := by
  rw [extWord, BitVec.toNat_ofNat, Nat.mod_mod, Nat.mod_eq_of_lt (pack_lt hf hw)]

/-! ### The rows of the encoding tables -/

/-- Rows stand in classes 0 to 9 and operations 0 to 0x1A. -/
theorem layout_lt {cls op : Nat} {y : Layout} (h : layout cls op = some y) : cls < 10 ∧ op < 27 := by
  unfold layout layoutSq layoutMx layoutVx layoutDm layoutSy layoutAt layoutCl layoutRn layoutDb at h
  split at h
  case h_4 =>
    split at h
    · next ho => exact ⟨by decide, by omega⟩
    · cases h
  case h_11 => cases h
  all_goals (split at h <;> cases h <;> decide)

/-- The fields of a row fit their words. -/
theorem layout_widths {cls op : Nat} {y : Layout} (h : layout cls op = some y) :
    y.first.sum ≤ 53 ∧ y.ext.sum ≤ 64 := by
  have rows : ∀ a < 10, ∀ b < 27, ∀ z ∈ layout a b, z.first.sum ≤ 53 ∧ z.ext.sum ≤ 64 := by decide
  obtain ⟨hc, ho⟩ := layout_lt h
  exact rows cls hc op ho y h

/-- How words decode whose row and fields are known. -/
theorem decodeWords_eq_build {c : Fin 264} {w e : W64} {cls op : Nat} {x : Bool} {l m : List Nat} {y : Layout}
    (hc : wordField w 60 4 = cls) (ho : wordField w 54 6 = op) (hb : hasExt w = x) (hy : layout cls op = some y)
    (hx : y.x.allows x = true) (hl : unpack w 53 y.first = some l)
    (hm : (if x = true then unpack e 64 y.ext else some []) = some m) :
    decodeWords c w e = build c cls op (if x = true then some e else none) l m := by
  unfold decodeWords
  dsimp only
  rw [hc, ho, hy, hb]
  dsimp only
  rw [hx, hl, hm]
  rfl

/-- A packed first word decodes by its row. -/
theorem decodeWords_firstWord {c : Fin 264} {cls op : Nat} {x : Bool} {fs : List (Nat × Nat)} {y : Layout} {e : W64}
    {m : List Nat} (hy : layout cls op = some y) (hx : y.x.allows x = true) (hn : y.first = fs.map Prod.fst)
    (hf : fits fs) (hm : (if x = true then unpack e 64 y.ext else some []) = some m) :
    hasExt (firstWord cls op x fs) = x
      ∧ decodeWords c (firstWord cls op x fs) e = build c cls op (if x = true then some e else none) (fs.map Prod.snd) m := by
  obtain ⟨hc, ho⟩ := layout_lt hy
  have hw : (fs.map Prod.fst).sum ≤ 53 := by rw [← hn]; exact (layout_widths hy).1
  have hb := hasExt_firstWord (by omega : cls < 16) (by omega : op < 64) hf hw x
  obtain ⟨h1, h2, -, h3⟩ := wordField_firstWord (by omega : cls < 16) (by omega : op < 64) hf hw x
  exact ⟨hb, decodeWords_eq_build h1 h2 hb hy hx (by rw [hn]; exact unpack_of_pack hf hw h3) hm⟩

/-! ### From the instruction to its words and back -/

@[simp] theorem bv_fv {n : Nat} (v : BitVec n) : bv (fv v).2 = v := by simp [bv, fv]

@[simp] theorem flag_fb (b : Bool) : flag (fb b).2 = b := by cases b <;> rfl

/-- The words of `i` decode to it, and bit X says whether there is a second one. -/
def Spelled (i : Instr) : Prop :=
  ∃ c w e, encode i = (if hasExt w then [w, e] else [w]) ∧ decodeWords c w e = some i

theorem spelled_oneWord (c : Fin 264) {cls op : Nat} {fs : List (Nat × Nat)} {i : Instr}
    (he : encode i = [firstWord cls op false fs]) (hy : layout cls op = oneWord (fs.map Prod.fst)) (hf : fits fs)
    (hb : build c cls op none (fs.map Prod.snd) [] = some i) : Spelled i := by
  obtain ⟨hx, hd⟩ := decodeWords_firstWord (c := c) (e := 0) (x := false) hy rfl rfl hf rfl
  exact ⟨c, _, 0, by rw [he, hx]; rfl, hd.trans hb⟩

theorem spelled_twoWords (c : Fin 264) {cls op : Nat} {fs gs : List (Nat × Nat)} {i : Instr}
    (he : encode i = [firstWord cls op true fs, extWord gs])
    (hy : layout cls op = twoWords (fs.map Prod.fst) (gs.map Prod.fst)) (hf : fits fs) (hg : fits gs)
    (hb : build c cls op (some (extWord gs)) (fs.map Prod.snd) (gs.map Prod.snd) = some i) : Spelled i := by
  have hw : (gs.map Prod.fst).sum ≤ 64 := (layout_widths hy).2
  obtain ⟨hx, hd⟩ := decodeWords_firstWord (c := c) (e := extWord gs) (x := true) hy rfl rfl hf
    (unpack_of_pack hg hw (extWord_toNat_mod hg hw))
  exact ⟨c, _, extWord gs, by rw [he, hx]; rfl, hd.trans hb⟩

/-- An extension word of one field of 64 bits is any word. -/
theorem unpack_whole (e : W64) : unpack e 64 [64] = some [e.toNat] := by
  have := e.isLt
  simp only [unpack, wordField, Nat.sub_self, Nat.pow_zero, Nat.div_one, Nat.mod_one, if_true, Option.map_some,
    Nat.mod_eq_of_lt this]

/-- An operation whose extension word, if it has one, is an operand whole. -/
theorem spelled_operand (c : Fin 264) {cls op : Nat} {ext : Option W64} {y : Layout} {fs : List (Nat × Nat)} {i : Instr}
    (he : encode i = firstWord cls op ext.isSome fs :: ext.toList) (hy : layout cls op = some y)
    (hx : y.x.allows ext.isSome = true) (hn : y.first = fs.map Prod.fst) (hm : y.ext = [64]) (hf : fits fs)
    (hb : ∀ m, build c cls op ext (fs.map Prod.snd) m = some i) : Spelled i := by
  cases ext with
  | none =>
    obtain ⟨hx, hd⟩ := decodeWords_firstWord (c := c) (e := 0) (x := false) hy hx hn hf rfl
    exact ⟨c, _, 0, by rw [he]; simp [hx], hd.trans (hb _)⟩
  | some e =>
    obtain ⟨hx, hd⟩ := decodeWords_firstWord (c := c) (e := e) (x := true) hy hx hn hf
      (by rw [hm]; exact unpack_whole e)
    exact ⟨c, _, e, by rw [he]; simp [hx], hd.trans (hb _)⟩

/-- Every instruction's words decode to it. -/
theorem spelled_of_encode {i : Instr} (h : encode i ≠ []) : Spelled i := by
  cases i with
  | sqHalt c => exact spelled_oneWord c rfl rfl (by simp) (by simp [build, buildSq])
  | sqLi c _ imm => exact spelled_operand c (ext := some imm) rfl rfl rfl rfl rfl (by simp) (by simp [build, buildSq])
  | sqAdd c f => exact spelled_operand c (ext := f.ext) rfl rfl rfl rfl rfl (by simp) (by simp [build, buildSq, aluOf])
  | sqSub c f => exact spelled_operand c (ext := f.ext) rfl rfl rfl rfl rfl (by simp) (by simp [build, buildSq, aluOf])
  | sqMul c f => exact spelled_operand c (ext := f.ext) rfl rfl rfl rfl rfl (by simp) (by simp [build, buildSq, aluOf])
  | sqAnd c f => exact spelled_operand c (ext := f.ext) rfl rfl rfl rfl rfl (by simp) (by simp [build, buildSq, aluOf])
  | sqOr c f => exact spelled_operand c (ext := f.ext) rfl rfl rfl rfl rfl (by simp) (by simp [build, buildSq, aluOf])
  | sqXor c f => exact spelled_operand c (ext := f.ext) rfl rfl rfl rfl rfl (by simp) (by simp [build, buildSq, aluOf])
  | sqShl c f => exact spelled_operand c (ext := f.ext) rfl rfl rfl rfl rfl (by simp) (by simp [build, buildSq, aluOf])
  | sqShr c f => exact spelled_operand c (ext := f.ext) rfl rfl rfl rfl rfl (by simp) (by simp [build, buildSq, aluOf])
  | sqSra c f => exact spelled_operand c (ext := f.ext) rfl rfl rfl rfl rfl (by simp) (by simp [build, buildSq, aluOf])
  | sqMin c f => exact spelled_operand c (ext := f.ext) rfl rfl rfl rfl rfl (by simp) (by simp [build, buildSq, aluOf])
  | sqMax c f => exact spelled_operand c (ext := f.ext) rfl rfl rfl rfl rfl (by simp) (by simp [build, buildSq, aluOf])
  | sqCmp c f => exact spelled_operand c (ext := f.ext) rfl rfl rfl rfl rfl (by simp) (by simp [build, buildSq])
  | sqLd c _ _ _ => exact spelled_oneWord c rfl rfl (by simp) (by simp [build, buildSq])
  | sqSt c _ _ _ => exact spelled_oneWord c rfl rfl (by simp) (by simp [build, buildSq])
  | sqDesc c _ _ _ => exact spelled_oneWord c rfl rfl (by simp) (by simp [build, buildSq])
  | sqRds c _ _ => exact spelled_oneWord c rfl rfl (by simp) (by simp [build, buildSq])
  | sqWrs c _ _ => exact spelled_oneWord c rfl rfl (by simp) (by simp [build, buildSq])
  | sqBr c _ _ _ _ => exact spelled_oneWord c rfl rfl (by simp) (by simp [build, buildSq])
  | sqLoop c _ _ _ => exact spelled_oneWord c rfl rfl (by simp) (by simp [build, buildSq])
  | sqMark c _ _ => exact spelled_oneWord c rfl rfl (by simp) (by simp [build, buildSq])
  | sqDeadline c _ => exact spelled_oneWord c rfl rfl (by simp) (by simp [build, buildSq])
  | sqPhase c _ => exact spelled_oneWord c rfl rfl (by simp) (by simp [build, buildSq])
  | sqYield c => exact spelled_oneWord c rfl rfl (by simp) (by simp [build, buildSq])
  | sqLive c _ => exact spelled_oneWord c rfl rfl (by simp) (by simp [build, buildSq])
  | sqIcinv c _ _ _ => exact spelled_oneWord c rfl rfl (by simp) (by simp [build, buildSq])
  | mxForm c _ => exact spelled_oneWord c rfl rfl (by simp) (by simp [build, buildMx])
  | mxWld c _ => exact spelled_oneWord c rfl rfl (by simp) (by simp [build, buildMx])
  | mxSwap c => exact spelled_oneWord c rfl rfl (by simp) (by simp [build, buildMx])
  | mxRun c _ => exact spelled_oneWord c rfl rfl (by simp) (by simp [build, buildMx])
  | mxDrain c _ => exact spelled_oneWord c rfl rfl (by simp) (by simp [build, buildMx])
  | mxNmv c _ => exact spelled_oneWord c rfl rfl (by simp) (by simp [build, buildMx])
  | vxSetvl c _ _ => exact spelled_oneWord c rfl rfl (by simp) (by simp [build, buildVx])
  | vxSetm c _ _ => exact spelled_oneWord c rfl rfl (by simp) (by simp [build, buildVx])
  | vxEp c _ => exact spelled_twoWords c (Eq.refl _) rfl (by simp) (by simp) (by simp [build, buildVx])
  | vxRed c _ => exact spelled_oneWord c rfl rfl (by simp) (by simp [build, buildVx])
  | xpDef c _ _ _ => exact spelled_oneWord c rfl rfl (by simp) (by simp [build])
  | dmCopy c _ => exact spelled_oneWord c rfl rfl (by simp) (by simp [build, buildDm])
  | dmXpose c _ => exact spelled_oneWord c rfl rfl (by simp) (by simp [build, buildDm])
  | dmGather c _ => exact spelled_oneWord c rfl rfl (by simp) (by simp [build, buildDm])
  | dmExpand c _ => exact spelled_oneWord c rfl rfl (by simp) (by simp [build, buildDm])
  | dmPack c _ => exact spelled_oneWord c rfl rfl (by simp) (by simp [build, buildDm])
  | dmTblCore c _ _ _ => exact spelled_oneWord c rfl rfl (by simp) (by simp [build, buildDm, tblOf])
  | dmTblStack c _ _ _ st =>
    have hst : 16 + st.val < 32 := by omega
    exact spelled_oneWord c rfl rfl (by simp [hst]) (by simp [build, buildDm, tblOf, hst])
  | dmAtom c _ => exact spelled_oneWord c rfl rfl (by simp) (by simp [build, buildDm])
  | sySig c _ _ => exact spelled_oneWord c rfl rfl (by simp) (by simp [build, buildSy])
  | syWait c _ => exact spelled_oneWord c rfl rfl (by simp) (by simp [build, buildSy])
  | sySet c _ _ => exact spelled_oneWord c rfl rfl (by simp) (by simp [build, buildSy])
  | syQput c _ _ _ => exact spelled_oneWord c rfl rfl (by simp) (by simp [build, buildSy])
  | syQget c _ _ _ _ => exact spelled_oneWord c rfl rfl (by simp) (by simp [build, buildSy])
  | syQcnt c _ _ => exact spelled_oneWord c rfl rfl (by simp) (by simp [build, buildSy])
  | atQk c _ => exact spelled_twoWords c (Eq.refl _) rfl (by simp) (by simp) (by simp [build, buildAt])
  | atSmInit c _ => exact spelled_twoWords c (Eq.refl _) rfl (by simp) (by simp) (by simp [build, buildAt, smOf])
  | atSmUpdate c _ => exact spelled_twoWords c (Eq.refl _) rfl (by simp) (by simp) (by simp [build, buildAt, smOf])
  | atSmFinal c _ => exact spelled_twoWords c (Eq.refl _) rfl (by simp) (by simp) (by simp [build, buildAt, smOf])
  | atSmMerge c _ => exact spelled_twoWords c (Eq.refl _) rfl (by simp) (by simp) (by simp [build, buildAt, smOf])
  | atPv c _ => exact spelled_twoWords c (Eq.refl _) rfl (by simp) (by simp) (by simp [build, buildAt])
  | atDec c _ => exact spelled_twoWords c (Eq.refl _) rfl (by simp) (by simp) (by simp [build, buildAt])
  | atPageAlloc c _ _ _ => exact spelled_oneWord c rfl rfl (by simp) (by simp [build, buildAt, pageOf])
  | atPageFree c _ _ _ => exact spelled_oneWord c rfl rfl (by simp) (by simp [build, buildAt, pageOf])
  | atPageFork c _ _ _ => exact spelled_oneWord c rfl rfl (by simp) (by simp [build, buildAt, pageOf])
  | atPagePrep c _ _ _ => exact spelled_oneWord c rfl rfl (by simp) (by simp [build, buildAt, pageOf])
  | atPageLookup c _ _ _ => exact spelled_oneWord c rfl rfl (by simp) (by simp [build, buildAt, pageOf])
  | atPageInsert c _ _ _ => exact spelled_oneWord c rfl rfl (by simp) (by simp [build, buildAt, pageOf])
  | clPut c _ => exact spelled_oneWord c rfl rfl (by simp) (by simp [build, buildCl])
  | clReduce c _ => exact spelled_oneWord c rfl rfl (by simp) (by simp [build, buildCl])
  | clStep c _ _ => exact spelled_oneWord c rfl rfl (by simp) (by simp [build, buildCl])
  | clTimesync c _ _ => exact spelled_oneWord c rfl rfl (by simp) (by simp [build, buildCl])
  | rnKey c _ => exact spelled_oneWord c rfl rfl (by simp) (by simp [build, buildRn])
  | rnStream c _ _ => exact spelled_oneWord c rfl rfl (by simp) (by simp [build, buildRn])
  | rnDraw c _ _ _ _ => exact spelled_oneWord c rfl rfl (by simp) (by simp [build, buildRn])
  | dbWatch c _ => exact spelled_oneWord c rfl rfl (by simp) (by simp [build, buildDb])
  | dbEvent c _ _ => exact spelled_oneWord c rfl rfl (by simp) (by simp [build, buildDb])
  | _ => exact absurd rfl h

@[simp] theorem fv_bv {n v : Nat} (h : v < 2 ^ n) : fv (bv v : BitVec n) = (n, v) := by
  simp [fv, bv, Nat.mod_eq_of_lt h]

@[simp] theorem fb_flag {v : Nat} (h : v < 2) : fb (flag v) = (1, v) := by
  rcases (by omega : v = 0 ∨ v = 1) with rfl | rfl <;> rfl

/-- The words of the row `y` of CLASS and OP with the fields `l`; the second one, if there is one, is `ext`, which packs the
fields `m` where the row has fields there. -/
structure RowWords (y : Layout) (ext : Option W64) (l m : List Nat) : Prop where
  allowed : y.x.allows ext.isSome = true
  first   : fits (y.first.zip l)
  second  : fits (y.ext.zip m)
  packed  : ∀ e ∈ ext, e = extWord (y.ext.zip m)

section
variable {c : Fin 264} {op : Nat} {ext : Option W64} {l m : List Nat} {y : Layout} {i : Instr}

/-- A row without a second word has none. -/
theorem RowWords.ext_eq_none (h : RowWords y ext l m) (hx : y.x = .no) : ext = none := by
  have ha := h.allowed
  rw [hx] at ha
  cases ext
  · rfl
  · cases ha

/-- A row with a second word has its packed fields there. -/
theorem RowWords.ext_eq_some (h : RowWords y ext l m) (hx : y.x = .yes) : ext = some (extWord (y.ext.zip m)) := by
  have ha := h.allowed
  rw [hx] at ha
  cases ext with
  | none => cases ha
  | some e => rw [← h.packed e rfl]

theorem encode_of_buildSq (hy : layoutSq op = some y) (hr : RowWords y ext l m) (h : buildSq c op ext l = some i) :
    encode i = firstWord 0 op ext.isSome (y.first.zip l) :: ext.toList := by
  have hf := hr.first
  unfold buildSq at h
  split at h
  case h_2 =>
    cases h; cases hy
    obtain rfl := hr.ext_eq_some rfl
    simp_all [encode]
  case h_3 =>
    cases h; cases hy
    simp_all [encode, Alu.words]
  case h_18 => cases h
  case h_17 =>
    unfold aluOf at h
    split at h <;> cases h <;> cases hy <;> simp_all [encode, Alu.words]
  all_goals
    cases h; cases hy
    obtain rfl := hr.ext_eq_none rfl
    simp_all [encode]

theorem encode_of_buildMx (hy : layoutMx op = some y) (hf : fits (y.first.zip l)) (h : buildMx c op l = some i) :
    encode i = [firstWord 1 op false (y.first.zip l)] := by
  unfold buildMx at h
  split at h <;> cases h <;> cases hy <;> simp_all [encode]

theorem encode_of_buildDm (hy : layoutDm op = some y) (hf : fits (y.first.zip l)) (h : buildDm c op l = some i) :
    encode i = [firstWord 4 op false (y.first.zip l)] := by
  unfold buildDm at h
  split at h
  case h_6 =>
    unfold tblOf at h
    split at h
    · cases h; cases hy; simp_all [encode]
    · split at h <;> cases h; cases hy; simp_all [encode]
  all_goals (cases h <;> cases hy <;> simp_all [encode])

theorem encode_of_buildSy (hy : layoutSy op = some y) (hf : fits (y.first.zip l)) (h : buildSy c op l = some i) :
    encode i = [firstWord 5 op false (y.first.zip l)] := by
  unfold buildSy at h
  split at h <;> cases h <;> cases hy <;> simp_all [encode]

theorem encode_of_buildCl (hy : layoutCl op = some y) (hf : fits (y.first.zip l)) (h : buildCl c op l = some i) :
    encode i = [firstWord 7 op false (y.first.zip l)] := by
  unfold buildCl at h
  split at h <;> cases h <;> cases hy <;> simp_all [encode]

theorem encode_of_buildRn (hy : layoutRn op = some y) (hf : fits (y.first.zip l)) (h : buildRn c op l = some i) :
    encode i = [firstWord 8 op false (y.first.zip l)] := by
  unfold buildRn at h
  split at h <;> cases h <;> cases hy <;> simp_all [encode]

theorem encode_of_buildDb (hy : layoutDb op = some y) (hf : fits (y.first.zip l)) (h : buildDb c op l = some i) :
    encode i = [firstWord 9 op false (y.first.zip l)] := by
  unfold buildDb at h
  split at h <;> cases h <;> cases hy <;> simp_all [encode]

theorem encode_of_buildVx (hy : layoutVx op = some y) (hr : RowWords y ext l m) (h : buildVx c op l m = some i) :
    encode i = firstWord 2 op ext.isSome (y.first.zip l) :: ext.toList := by
  have hf := hr.first
  unfold buildVx at h
  split at h
  case h_3 =>
    cases h; cases hy
    obtain rfl := hr.ext_eq_some rfl
    have hs := hr.second
    simp_all [encode]
  case h_5 => cases h
  all_goals
    cases h; cases hy
    obtain rfl := hr.ext_eq_none rfl
    simp_all [encode]

theorem encode_of_buildAt (hy : layoutAt op = some y) (hr : RowWords y ext l m) (h : buildAt c op l m = some i) :
    encode i = firstWord 6 op ext.isSome (y.first.zip l) :: ext.toList := by
  have hf := hr.first
  have hs := hr.second
  unfold buildAt at h
  split at h
  case h_2 =>
    cases hy
    obtain rfl := hr.ext_eq_some rfl
    unfold smOf at h
    split at h <;> cases h <;> simp_all [encode, AtSm.words]
  case h_5 =>
    cases hy
    obtain rfl := hr.ext_eq_none rfl
    unfold pageOf at h
    split at h <;> cases h <;> simp_all [encode, pageWords]
  case h_6 => cases h
  all_goals
    cases h; cases hy
    obtain rfl := hr.ext_eq_some rfl
    simp_all [encode]

/-- Only the classes sq, vx and at have operations with an extension word. -/
theorem layout_x_eq_no {cls : Nat} (hy : layout cls op = some y) (h0 : cls ≠ 0) (h2 : cls ≠ 2) (h6 : cls ≠ 6) :
    y.x = .no := by
  have rows : ∀ a < 10, ∀ b < 27, ∀ z ∈ layout a b, z.x = .no ∨ a = 0 ∨ a = 2 ∨ a = 6 := by decide
  obtain ⟨hc, ho⟩ := layout_lt hy
  simpa [h0, h2, h6] using rows cls hc op ho y hy

/-- What a row's fields build has the row's words. -/
theorem encode_of_build {cls : Nat} (hy : layout cls op = some y) (hr : RowWords y ext l m)
    (h : build c cls op ext l m = some i) :
    encode i = firstWord cls op ext.isSome (y.first.zip l) :: ext.toList := by
  by_cases h0 : cls = 0
  · subst h0; exact encode_of_buildSq hy hr h
  by_cases h2 : cls = 2
  · subst h2; exact encode_of_buildVx hy hr h
  by_cases h6 : cls = 6
  · subst h6; exact encode_of_buildAt hy hr h
  obtain rfl := hr.ext_eq_none (layout_x_eq_no hy h0 h2 h6)
  have hf := hr.first
  unfold build at h
  split at h
  case h_2 => exact encode_of_buildMx hy hf h
  case h_4 =>
    simp only [layout] at hy
    split at hy <;> cases hy
    split at h <;> cases h
    simp_all [encode]
  case h_5 => exact encode_of_buildDm hy hf h
  case h_6 => exact encode_of_buildSy hy hf h
  case h_8 => exact encode_of_buildCl hy hf h
  case h_9 => exact encode_of_buildRn hy hf h
  case h_10 => exact encode_of_buildDb hy hf h
  case h_11 => cases h
  all_goals contradiction

/-- Words that decode have a row, which they are the words of, and build the instruction from their fields. -/
theorem row_of_decodeWords {w e : W64} (h : decodeWords c w e = some i) :
    ∃ y l m, layout (wordField w 60 4) (wordField w 54 6) = some y ∧ unpack w 53 y.first = some l
      ∧ RowWords y (if hasExt w = true then some e else none) l m
      ∧ w = firstWord (wordField w 60 4) (wordField w 54 6) (hasExt w) (y.first.zip l)
      ∧ build c (wordField w 60 4) (wordField w 54 6) (if hasExt w = true then some e else none) l m = some i := by
  unfold decodeWords at h
  dsimp only at h
  split at h
  · cases h
  next y hy =>
    split at h
    · cases h
    next ha =>
      split at h
      next l m hl hm =>
        obtain ⟨w1, w2⟩ := layout_widths hy
        obtain ⟨-, hf, hp⟩ := pack_of_unpack w1 hl
        refine ⟨y, l, m, hy, hl, ?_, eq_firstWord hp, h⟩
        cases hb : hasExt w with
        | false =>
          rw [hb] at ha hm
          cases hm
          exact ⟨by simpa using ha, hf, by simp, by simp⟩
        | true =>
          rw [hb] at ha hm
          obtain ⟨-, hs, hq⟩ := pack_of_unpack w2 hm
          exact ⟨by simpa using ha, hf, hs, fun _ he => by cases he; exact eq_extWord hq⟩
      · cases h

/-- Words that decode are the words of what they decode to. -/
theorem encode_of_decodeWords {w e : W64} (h : decodeWords c w e = some i) :
    encode i = if hasExt w = true then [w, e] else [w] := by
  obtain ⟨y, l, m, hy, -, hr, hw, hb⟩ := row_of_decodeWords h
  rw [encode_of_build hy hr hb]
  cases hx : hasExt w <;> simp only [hx] at hw ⊢ <;> simp [← hw]

/-- A reserved class has no instruction (04 R73). -/
theorem decodeWords_of_reserved_class {w e : W64} (h : 10 ≤ wordField w 60 4) : decodeWords c w e = none := by
  refine Option.eq_none_iff_forall_ne_some.2 fun i hi => ?_
  obtain ⟨y, l, m, hy, -⟩ := row_of_decodeWords hi
  have := (layout_lt hy).1
  omega

/-- The fields of the widths `ns` from bit `top - 1` of a word downwards. -/
def fieldsOf (w : W64) (top : Nat) : List Nat → List Nat
  | [] => []
  | n :: ns => wordField w (top - n) n :: fieldsOf w (top - n) ns

theorem fieldsOf_of_unpack {w : W64} {top : Nat} {ns : List Nat} (h : unpack w top ns = some l) :
    fieldsOf w top ns = l := by
  induction ns generalizing top l with
  | nil =>
    simp only [unpack, Option.ite_none_right_eq_some, Option.some.injEq] at h
    exact h.2
  | cons n ns ih =>
    simp only [unpack, Option.map_eq_some_iff] at h
    obtain ⟨r, hr, rfl⟩ := h
    rw [fieldsOf, ih hr]

/-- `at.page` has no operation 6 or 7 (12 R294). -/
theorem decodeWords_of_reserved_oper {w e : W64} (hc : wordField w 60 4 = 6) (ho : wordField w 54 6 = 4)
    (h : 6 ≤ wordField w 50 3) : decodeWords c w e = none := by
  refine Option.eq_none_iff_forall_ne_some.2 fun i hi => ?_
  obtain ⟨y, l, m, hy, hl, -, -, hb⟩ := row_of_decodeWords hi
  rw [hc, ho] at hy hb
  cases hy
  obtain rfl := fieldsOf_of_unpack hl
  cases m with
  | cons _ _ => cases hb
  | nil =>
    change pageOf c (wordField w 50 3) _ _ _ = some i at hb
    unfold pageOf at hb
    split at hb
    case h_7 => cases hb
    all_goals omega

/-- `dm.tbl` has no target 1 to 15 (13 R308). -/
theorem decodeWords_of_reserved_target {w e : W64} (hc : wordField w 60 4 = 4) (ho : wordField w 54 6 = 5)
    (h1 : 1 ≤ wordField w 35 5) (h2 : wordField w 35 5 ≤ 15) : decodeWords c w e = none := by
  refine Option.eq_none_iff_forall_ne_some.2 fun i hi => ?_
  obtain ⟨y, l, m, hy, hl, -, -, hb⟩ := row_of_decodeWords hi
  rw [hc, ho] at hy hb
  cases hy
  obtain rfl := fieldsOf_of_unpack hl
  change tblOf c _ _ _ (wordField w 35 5) = some i at hb
  rw [tblOf, if_neg (by omega), dif_neg (by omega)] at hb
  cases hb

end

/-- The words of the worked examples of `sy.wait` and `mx.wld` (chapters 12 and 13). -/
theorem decodeWords_examples (c : Fin 264) (e : W64) :
    decodeWords c 0x504952D880000000 e = some (.syWait c { sD := 9, sS := 10, sV := 11, sT := 12, cond := false, ft := true })
      ∧ decodeWords c 0x1047467F3F002000 e = some (.mxWld c
          { aW := 3, wfmt := 0xA, sfmt := 3, kx := 127, nx := 63, sS := 0, fq := 0, da := true }) := ⟨rfl, rfl⟩

/-- Settles O60: the fields of a row pack into its words and unpack from them, so each instruction decodes from its
words, and words that decode are the row's; a reserved class has no row, and a reserved OPER or TGT builds nothing. -/
theorem wordsDecodeToTheirInstruction : Obligations.WordsDecodeToTheirInstruction :=
  ⟨fun _ h => spelled_of_encode h, fun _ _ _ _ h => encode_of_decodeWords h, decodeWords_examples,
    fun _ _ _ => ⟨decodeWords_of_reserved_class, decodeWords_of_reserved_oper, decodeWords_of_reserved_target⟩⟩

end Sys2Proof

/-! Two writes of one entry: the later one stands. -/

namespace Sys2Proof.Machine

@[simp] theorem Tab.put_put {α : Type} (t : Tab α) (k : Nat) (v w : α) : Tab.put (Tab.put t k v) k w = Tab.put t k w := by
  induction t with
  | nil => simp [Tab.put]
  | cons e r ih =>
    obtain ⟨a, x⟩ := e
    obtain h | h | h := lt_trichotomy k a
    · simp [Tab.put, h]
    · simp [Tab.put, h]
    · simp [Tab.put, Nat.not_lt.2 h.le, Nat.ne_of_lt h, ih]

variable (s : State)

@[simp] theorem State.setCore_setCore (c : Nat) (p q : PCore) : (s.setCore c p).setCore c q = s.setCore c q := by
  simp [State.setCore]

@[simp] theorem State.setCtx_setCtx (n : Nat) (x y : Ctx) : (s.setCtx n x).setCtx n y = s.setCtx n y := by
  simp [State.setCtx]

@[simp] theorem State.setPart_setPart (p : Nat) (x y : Part) : (s.setPart p x).setPart p y = s.setPart p y := by
  simp [State.setPart]

@[simp] theorem State.setRegion_setRegion (r : Nat) (x y : Region) : (s.setRegion r x).setRegion r y = s.setRegion r y := by
  simp [State.setRegion]

@[simp] theorem State.setStack_setStack (k : Nat) (x y : Stk) : (s.setStack k x).setStack k y = s.setStack k y := by
  simp [State.setStack]

@[simp] theorem State.setPort_setPort (p : Nat) (x y : Port) : (s.setPort p x).setPort p y = s.setPort p y := by
  simp [State.setPort]

end Sys2Proof.Machine

/-! What reads, records, events and trace leave of the cores: all but event rings and the bytes of scratchpads. -/

namespace Sys2Proof.Machine

variable {s z : State}

/-! ### Operations that leave every core alone -/

@[simp] theorem State.cores_alarm (s : State) (kind unit : Nat) : (s.alarm kind unit).cores = s.cores := by
  unfold State.alarm
  dsimp only
  cases ((alarmAdd s.belv.alarms kind unit s.time).filter (fun a => a.kind = kind && a.unit = unit)).head? <;> rfl

@[simp] theorem State.cores_pushRec (s : State) (r : ErrRec) : (s.pushRec r).cores = s.cores := by
  unfold State.pushRec
  dsimp only
  split <;> rfl

@[simp] theorem State.cores_pushRecs (s : State) (l : List ErrRec) : (s.pushRecs l).cores = s.cores := by
  induction l generalizing s with
  | nil => rfl
  | cons r l ih =>
    unfold State.pushRecs
    split
    · rfl
    · rw [ih]; rfl

@[simp] theorem State.cores_errRoll (s : State) : s.errRoll.cores = s.cores := by
  unfold State.errRoll
  split <;> simp

@[simp] theorem State.cores_logError (s : State) (e : ErrIn) : (s.logError e).cores = s.cores := by
  have hl : (if e.cls = 2 then s.errRoll.alarm alarmFatal e.unit else s.errRoll).cores = s.cores := by
    split <;> simp
  unfold State.logError
  dsimp only
  generalize (if e.cls = 2 then s.errRoll.alarm alarmFatal e.unit else s.errRoll) = u at hl ⊢
  split <;> split <;> simp [hl]

@[simp] theorem State.cores_damageRec (s : State) (ty unit addr : Nat) (u : Upset) (ok : Bool) :
    (s.damageRec ty unit addr u ok).cores = s.cores := s.cores_logError _

@[simp] theorem State.cores_settleGranule (s : State) (u : Upset) (g : Nat) (w : Codeword) :
    (s.settleGranule u g w).cores = s.cores := by
  cases w <;> simp [State.settleGranule]

@[simp] theorem State.cores_meetGranule (s : State) (u : Upset) (g : Nat) : (s.meetGranule u g).cores = s.cores := by
  unfold State.meetGranule
  dsimp only
  split
  · rfl
  · rw [State.cores_settleGranule]; rfl

@[simp] theorem State.cores_meetAll (s : State) (l : List Upset) : (s.meetAll l).cores = s.cores := by
  induction l generalizing s with
  | nil => rfl
  | cons u l ih =>
    rw [State.meetAll, ih]
    split <;> simp

@[simp] theorem State.cores_meet (s : State) (a n : Nat) : (s.meet a n).cores = s.cores := s.cores_meetAll _

@[simp] theorem State.cores_overwrite (s : State) (a n : Nat) : (s.overwrite a n).cores = s.cores := by
  simp [State.overwrite]

@[simp] theorem State.cores_rekey (s : State) (k : Key) (a n u : Nat) : (s.rekey k a n u).cores = s.cores := by
  unfold State.rekey
  dsimp only
  split
  · rfl
  · split <;> rfl

@[simp] theorem State.cores_rekeys (s : State) (k : Key) (a n : Nat) (l : List Nat) :
    (s.rekeys k a n l).cores = s.cores := by
  induction l generalizing s with
  | nil => rfl
  | cons i l ih => rw [State.rekeys, ih, State.cores_rekey]

@[simp] theorem State.cores_writePhys (s : State) (k : Key) (a : Nat) (bs : List PByte) :
    (s.writePhys k a bs).cores = s.cores := by
  unfold State.writePhys
  split <;> simp

@[simp] theorem State.cores_settleRec (s : State) (a : Nat) (u : Upset) (w : Codeword) :
    (s.settleRec a u w).cores = s.cores := by
  cases w <;> simp [State.settleRec]

@[simp] theorem State.cores_meetFirst (s : State) (a : Nat) (bs : List PByte) (u : Upset) :
    (s.meetFirst a bs u).1.cores = s.cores := by
  unfold State.meetFirst
  dsimp only
  split
  · rfl
  · rw [State.cores_settleRec]; rfl

@[simp] theorem State.cores_meetEach (s : State) (a : Nat) (bs : List PByte) (l : List Upset) :
    (s.meetEach a bs l).1.cores = s.cores := by
  induction l generalizing s bs with
  | nil => rfl
  | cons u l ih => rw [State.meetEach, ih, State.cores_meetFirst]

@[simp] theorem State.cores_carried (s : State) (a : Nat) (ps : List Spot) (bs : List PByte) :
    (s.carried a ps bs).1.cores = s.cores := by
  unfold State.carried
  split <;> simp

@[simp] theorem State.cores_actBy (s : State) (w : Who) (cls k : Nat) : (s.actBy w cls k).cores = s.cores := by
  unfold State.actBy
  split <;> rfl

@[simp] theorem State.cores_touch (s : State) (w : Who) (pa n : Nat) : (s.touch w pa n).cores = s.cores := by
  unfold State.touch
  cases w.ctx <;> rfl

@[simp] theorem State.cores_violate (s : State) (p n unit : Nat) (v : Viol) (addr : Nat) :
    (s.violate p n unit v addr).cores = s.cores := by
  unfold State.violate
  dsimp only
  generalize (if (s.part p).violLog.1 = s.time / 1000000000 then (s.part p).violLog.2 else 0) = m
  split <;> rfl

@[simp] theorem State.cores_missed (s : State) (w : Who) (foreign : Bool) (va : Nat) :
    (s.missed w foreign va).cores = s.cores := by
  unfold State.missed
  cases w.ctx <;> cases foreign <;> simp [State.violateBy, State.count, State.onCtx]

theorem State.cores_tracePut {s t : State} {r : TraceRec} (h : s.tracePut r = some t) : t.cores = s.cores := by
  unfold State.tracePut at h
  dsimp only at h
  split at h
  · cases h
  · cases h
    simp [State.setPf, State.touchSup]

@[simp] theorem State.cores_traceModule (s : State) (r : TraceRec) (force : Bool) :
    (s.traceModule r force).cores = s.cores := by
  have put (u : State) (hu : u.cores = s.cores) : ((u.tracePut r).getD u.traceDrop).cores = s.cores := by
    cases h : u.tracePut r with
    | none => exact hu
    | some t => exact (State.cores_tracePut h).trans hu
  unfold State.traceModule
  dsimp only
  split
  · rfl
  split
  · rfl
  next t h =>
    unfold State.traceCatch at h
    split at h
    · cases h; exact put s rfl
    · obtain ⟨q, hq, rfl⟩ := Option.map_eq_some_iff.1 h
      have hc : q.cores = s.cores := State.cores_tracePut hq
      exact put _ hc

/-! ### The rest of a core: all but its event ring and the bytes of its scratchpad -/

/-- A core without its event ring and the bytes of its scratchpad. -/
def PCore.bare (p : PCore) : PCore := { p with ring := [], x := { p.x with sp := Ram.zero } }

/-- Every core is as in `z`, but for its event ring and the bytes of its scratchpad. -/
def SameWork (z s : State) : Prop := ∀ c, (s.core c).bare = (z.core c).bare

theorem SameWork.refl (s : State) : SameWork s s := fun _ => rfl

theorem SameWork.trans {a b c : State} (h : SameWork a b) (k : SameWork b c) : SameWork a c :=
  fun i => (k i).trans (h i)

theorem SameWork.of_cores {t : State} (h : SameWork z s) (e : t.cores = s.cores) : SameWork z t := by
  intro c
  rw [← h c]
  simp only [State.core, e]

theorem SameWork.onCore {c : Nat} {f : PCore → PCore} (h : SameWork z s) (hf : ∀ p : PCore, (f p).bare = p.bare) :
    SameWork z (s.onCore c f) := by
  intro d
  by_cases e : d = c
  · subst e
    rw [State.core_onCore_same, hf, h d]
  · rw [State.core_onCore_ne _ _ _ _ e, h d]

theorem SameWork.writeSp {c : Nat} {off : Nat} {bs : List PByte} (h : SameWork z s) :
    SameWork z (s.onX c (fun x => { x with sp := x.sp.write off bs })) := by
  intro d
  by_cases e : d = c
  · subst e
    rw [← h d, State.core_onX_same]
    rfl
  · rw [State.core_onX_ne _ _ _ _ e, h d]

/-- What `SameWork` says of the context that runs on a core. -/
theorem SameWork.x {c : Nat} (h : SameWork z s) : { s.x c with sp := Ram.zero } = { z.x c with sp := Ram.zero } :=
  congrArg PCore.x (h c)

/-! ### Trace, events and reads -/

theorem SameWork.writePiece {w : Who} {va : Nat} {bs : List PByte} (h : SameWork z s) :
    SameWork z (s.writePiece w va bs).s := by
  unfold State.writePiece
  split
  · exact h.of_cores (by simp)
  · exact (h.of_cores (by simp)).writeSp
  · exact h.of_cores (by simp)
  · exact h
  · exact h.of_cores (by simp [State.violateBy])

theorem SameWork.writePieces {w : Who} {l : List (Nat × Nat)} {bs : List PByte} (h : SameWork z s) :
    SameWork z (s.writePieces w l bs).s := by
  induction l generalizing s bs with
  | nil => exact h
  | cons p l ih => exact ih h.writePiece

theorem SameWork.writeVirt {w : Who} {va : Nat} {bs : List PByte} (h : SameWork z s) :
    SameWork z (s.writeVirt w va bs).s := h.writePieces

theorem SameWork.setVf {fn off : Nat} {v : W64} (h : SameWork z s) : SameWork z (s.setVf fn off v) := h.of_cores rfl

theorem SameWork.partPut {t : State} {p : Nat} {r : TraceRec} (h : SameWork z s) (e : s.partPut p r = some t) :
    SameWork z t := by
  unfold State.partPut at e
  dsimp only at e
  split at e
  · cases e
  · cases e
    exact h.writeVirt.setVf

theorem SameWork.tracePart {r : TraceRec} (h : SameWork z s) : SameWork z (s.tracePart r) := by
  have put (u : State) (p : Nat) (hu : SameWork z u) : SameWork z ((u.partPut p r).getD (u.partDrop p)) := by
    cases e : u.partPut p r with
    | none => exact hu.of_cores rfl
    | some t => exact hu.partPut e
  unfold State.tracePart
  dsimp only
  split
  · exact h
  split
  · exact h.of_cores rfl
  next t e =>
    unfold State.partCatch at e
    split at e
    · cases e; exact put _ _ h
    · obtain ⟨q, hq, rfl⟩ := Option.map_eq_some_iff.1 e
      exact put _ _ ((h.partPut hq).of_cores rfl)

theorem SameWork.event {u : RingUnit} {kind data : Nat} {w : Work} (h : SameWork z s) :
    SameWork z (s.event u kind data w) := by
  have hp (e : Ev) : SameWork z (s.drawn.ringPut u e) := by
    have hd : SameWork z s.drawn := h.of_cores rfl
    cases u with
    | core c => exact hd.onCore (fun _ => rfl)
    | _ => exact hd.of_cores rfl
  exact ((hp _).of_cores (State.cores_traceModule _ _ _)).tracePart

theorem SameWork.status {n code : Nat} (h : SameWork z s) : SameWork z (s.status n code) := h.of_cores rfl

theorem SameWork.poisonRead {w : Who} {addr : Nat} (h : SameWork z s) : SameWork z (s.poisonRead w addr) := by
  have logged (e : ErrIn) : SameWork z (s.logError e) := h.of_cores (by simp)
  unfold State.poisonRead
  dsimp only
  cases w.core <;> cases w.ctx
  · exact logged _
  · exact (logged _).status
  · exact (logged _).event
  · exact (logged _).event.status

theorem SameWork.readSp {w : Who} {c off n : Nat} (h : SameWork z s) : SameWork z (s.readSp w c off n).1 := by
  have ha : SameWork z (s.actBy w actSp n) := h.of_cores (by simp)
  unfold State.readSp
  dsimp only
  split
  · exact ha.poisonRead
  · exact ha

theorem SameWork.readRows {w : Who} {c off soff : Nat} {o : RowOp} {m : Nat} (h : SameWork z s) :
    SameWork z (readRows s w c off soff o m).1 := by
  induction m generalizing s with
  | zero => exact h
  | succ m ih =>
    unfold Machine.readRows
    dsimp only
    refine ih ?_
    split
    · exact h.readSp.readSp
    · exact h.readSp

theorem SameWork.expands {w : Who} {l : List (List PByte)} (h : SameWork z s) : SameWork z (s.expands w l) := by
  induction l generalizing s with
  | nil => exact h
  | cons b l ih => exact ih (h.of_cores (by simp))

end Sys2Proof.Machine

/-! Where `mx.run` leaves its results (05 R107 to R110). -/

namespace Sys2Proof.Machine

variable {s z : State} {c : Nat}

/-- The matrix engine's own storage: the accumulator, the form and the weight banks. -/
structure MxStore where
  acc    : Tab W32
  form   : Nat
  bankA  : Option Latch
  bankB  : Option Latch
  active : Bool

def Exec.mxStore (x : Exec) : MxStore :=
  { acc := x.acc, form := x.form, bankA := x.bankA, bankB := x.bankB, active := x.active }

/-- What leaves the work of a core alone leaves its matrix storage alone. -/
theorem SameWork.mxStore (h : SameWork z s) (c : Nat) : (s.x c).mxStore = (z.x c).mxStore := by
  have hc := congrArg (fun p : PCore => p.x.mxStore) (h c)
  exact hc

/-! ### Reading the operands -/

theorem Exec.mxStore_enterBlock (x : Exec) (k : Issued) (fmt addr : Nat) (da stream : Bool) (bs : List Byte) :
    (x.enterBlock k fmt addr da stream bs).1.mxStore = x.mxStore := rfl

theorem Exec.mxStore_enterBlocks (x : Exec) (k : Issued) (fmt : Nat) (da stream : Bool) (addr : Nat)
    (l : List (List PByte)) : (x.enterBlocks k fmt da stream addr l).1.mxStore = x.mxStore := by
  induction l generalizing x addr with
  | nil => rfl
  | cons b l ih =>
    unfold Exec.enterBlocks
    split
    · exact ih x _
    · exact (ih _ _).trans (x.mxStore_enterBlock ..)

@[simp] theorem State.x_setX_same (s : State) (c : Nat) (x : Exec) : (s.setX c x).x c = x := by
  simp [State.setX, State.x]

/-- An operand is read without touching the accumulator, the form or a weight bank. -/
theorem mxStore_readOp (s : State) (w : Who) (c : Nat) (k : Issued) (o : RowOp) (da : Bool) :
    ((readOp s w c k o da).1.x c).mxStore = (s.x c).mxStore := by
  unfold readOp
  dsimp only
  split
  · unfold readErg
    dsimp only
    rw [(SameWork.refl _).expands.mxStore c, State.x_setX_same, Exec.mxStore_enterBlocks]
    exact (SameWork.refl s).readSp.mxStore c
  · exact (SameWork.refl s).readRows.mxStore c

/-! ### Writing the results -/

theorem Exec.putAcc_val_lt (x : Exec) (mark i : Nat) (vs : List W32) {e : Nat} (h : e < i) :
    Tab.val 0 (x.putAcc mark i vs).acc e = Tab.val 0 x.acc e := by
  induction vs generalizing x i with
  | nil => rfl
  | cons v vs ih =>
    rw [Exec.putAcc, ih _ _ (by omega)]
    exact Tab.val_put_ne _ _ _ _ _ (by omega)

theorem Exec.putAcc_val_ge (x : Exec) (mark i : Nat) (vs : List W32) {e : Nat} (h : i + vs.length ≤ e) :
    Tab.val 0 (x.putAcc mark i vs).acc e = Tab.val 0 x.acc e := by
  induction vs generalizing x i with
  | nil => rfl
  | cons v vs ih =>
    simp only [List.length_cons] at h
    rw [Exec.putAcc, ih _ _ (by omega)]
    exact Tab.val_put_ne _ _ _ _ _ (by omega)

/-- Entry `i + j` holds the `j`-th of the values. -/
theorem Exec.putAcc_val_add (x : Exec) (mark i : Nat) {vs : List W32} {j : Nat} (h : j < vs.length) :
    Tab.val 0 (x.putAcc mark i vs).acc (i + j) = vs.getD j 0 := by
  induction vs generalizing x i j with
  | nil => cases h
  | cons v vs ih =>
    cases j with
    | zero =>
      rw [Exec.putAcc, Exec.putAcc_val_lt _ _ _ _ (by omega)]
      exact Tab.val_put_same _ _ _ _
    | succ j =>
      rw [Exec.putAcc, show i + (j + 1) = i + 1 + j by omega, ih _ _ (by simpa using h)]
      rfl

theorem Exec.mxStore_putAcc (x : Exec) (mark i : Nat) (vs : List W32) :
    (x.putAcc mark i vs).mxStore = { x.mxStore with acc := (x.putAcc mark i vs).acc } := by
  induction vs generalizing x i with
  | nil => rfl
  | cons v vs ih => rw [Exec.putAcc, ih]; rfl

theorem length_runResults (x : Exec) (f : MxRun) (base : Nat) (a b : List (List El)) :
    (runResults x f base a b).length = f.m * nTile x.form := by
  simp [runResults]

/-- The state after a run's results `rs` have entered the accumulator from `base` on, marked as the run's. -/
def State.putRun (s : State) (c mark base : Nat) (rs : List (Fl W32)) : State :=
  (s.onX c (fun x => x.putAcc mark base (rs.map (fun r => r.v)))).addFlags c (joinAll (rs.map (fun r => r.f)))

theorem State.mxStore_putRun (s : State) (c mark base : Nat) (rs : List (Fl W32)) :
    ((s.putRun c mark base rs).x c).mxStore = ((s.x c).putAcc mark base (rs.map (fun r => r.v))).mxStore := by
  simp only [State.putRun, State.addFlags, State.onRegs, State.x_onX_same]
  rfl

/-- A run that nothing holds back is done: its operands are read, then its results enter the accumulator. -/
theorem runMxRun_done {u : State} {c : Fin 264} {k : Issued} {f : MxRun}
    (he : usesExpanders k.instr = false)
    (hd : (u.x c).undrained k.id (f.base k.regs) (f.m * nTile (u.x c).form) = false) :
    let x := u.x c
    let w := u.who c k.regs
    let tier := x.active?.elim Tier.t32 (fun l => l.tier)
    let a := readOp u w c k (f.opA k.regs (f.k x.form tier)) f.da
    let b := if x.form = 2 then readOp a.1 w c k (f.opB k.regs) f.da else (a.1, [])
    let rs := runResults x f (f.base k.regs) a.2 b.2
    ∃ v mark, runMxRun f u c k = some (.done v) ∧ (b.1.x c).mxStore = x.mxStore
      ∧ v.cores = (b.1.putRun c mark (f.base k.regs) rs).cores := by
  intro x w tier a b rs
  have ha : (a.1.x c).mxStore = x.mxStore := mxStore_readOp ..
  have hb : (b.1.x c).mxStore = x.mxStore := by
    by_cases h : x.form = 2
    · simp only [b, h, if_true]
      exact (mxStore_readOp ..).trans ha
    · simp only [b, h, if_false]
      exact ha
  let int := if x.form = 2 then intPath f.sfmt.toNat f.bfmt.toNat else x.active?.elim false (fun l => l.int)
  let t := b.1.putRun c (2 * k.id + b2n int) (f.base k.regs) rs
  have hr : runMxRun f u c k = some (.done (match (u.who c k.regs).ctx with
      | some n => (t.count n 3 f.m).actBy w (actPass tier.rank) f.m
      | none => t)) := by
    unfold runMxRun
    dsimp only
    rw [he, hd]
    rfl
  refine ⟨_, 2 * k.id + b2n int, hr, hb, ?_⟩
  cases (u.who c k.regs).ctx with
  | none => rfl
  | some n => exact State.cores_actBy _ _ _ _

/-- Settles O13: reading the operands leaves the accumulator alone, and the results take the entries from the run's
base on, one after another. -/
theorem runsWriteTheirAccumulatorEntries : Obligations.RunsWriteTheirAccumulatorEntries := by
  intro s t u c n k f hs hsf hbf x hd w tier a b rs
  have hk : k.instr = .mxRun c f := by
    obtain ⟨F, y, hF, hi, -, -⟩ := hs
    cases hF
    rw [hi.record]
  have he : usesExpanders k.instr = false := by
    rw [hk]
    simp only [usesExpanders, beq_eq_false_iff_ne.2 hsf, beq_eq_false_iff_ne.2 hbf, Bool.or_self]
  obtain ⟨v, mark, hr, hb, hv⟩ := runMxRun_done he hd
  have hx : v.x c = (b.1.putRun c mark (f.base k.regs) rs).x c :=
    congrArg (fun l : Tab PCore => ((Tab.at? l c).getD (PCore.fused c)).x) hv
  have hm := (congrArg Exec.mxStore hx).trans (State.mxStore_putRun ..)
  have hacc : (v.x c).acc = ((b.1.x c).putAcc mark (f.base k.regs) (rs.map (fun r => r.v))).acc :=
    congrArg MxStore.acc hm
  have hold : (b.1.x c).acc = x.acc := congrArg MxStore.acc hb
  have hrest := hm.trans (Exec.mxStore_putAcc ..)
  rw [hb] at hrest
  refine ⟨v, hs.done rfl hr (by simp), length_runResults .., fun i hi => ?_, fun e he => ?_, ?_, ?_, ?_, ?_⟩
  · rw [hacc, Exec.putAcc_val_add _ _ _ (by rwa [List.length_map])]
    simp [List.getD, List.getElem?_map, List.getElem?_eq_getElem hi]
  · rw [hacc, ← hold]
    rcases he with he | he
    · exact Exec.putAcc_val_lt _ _ _ _ he
    · exact Exec.putAcc_val_ge _ _ _ _ (by rwa [List.length_map])
  · exact congrArg MxStore.form hrest
  · exact congrArg MxStore.bankA hrest
  · exact congrArg MxStore.bankB hrest
  · exact congrArg MxStore.active hrest

end Sys2Proof.Machine

/-! Device commands: what drops them, what rejects them, and what they do (17 R417 to R421). -/

namespace Sys2Proof.Machine

variable {s : State} {h : Hcmd} {cs : State → List (Bool × Nat)}

/-- The state that holds a command's words, with the command accepted. -/
def State.accepts (s : State) (h : Hcmd) : State :=
  { s.stage h with dev := { (s.stage h).dev with hcmdRej := false, hcmdWhy := 0 } }

/-- The state that holds a command's words, with the command rejected for `why`. -/
def State.rejects (s : State) (h : Hcmd) (why : Nat) : State :=
  { s.stage h with dev := { (s.stage h).dev with hcmdRej := true, hcmdWhy := why } }

theorem hostCommand_of_not_ready (hr : s.dev.st ≠ .ready) (act : State → State) : hostCommand s h cs act = s := by
  simp [hostCommand, hr]

theorem hostCommand_of_busy (hr : s.dev.st = .ready) (hb : s.dev.hcmdBusy = true) (act : State → State) :
    hostCommand s h cs act = s.writeDropped 0x1000 := by
  simp [hostCommand, hr, hb]

theorem hostCommand_rejects (hr : s.dev.st = .ready) (hb : s.dev.hcmdBusy = false) {why : Nat}
    (hc : firstReason (cs (s.stage h)) = some why) (act : State → State) :
    hostCommand s h cs act = s.rejects h why := by
  simp [hostCommand, hr, hb, hc, State.rejects]

theorem hostCommand_accepts (hr : s.dev.st = .ready) (hb : s.dev.hcmdBusy = false)
    (hc : firstReason (cs (s.stage h)) = none) (act : State → State) :
    hostCommand s h cs act = act (s.accepts h) := by
  simp [hostCommand, hr, hb, hc, State.accepts]

theorem firstReason_eq_none {l : List (Bool × Nat)} : firstReason l = none ↔ ∀ c ∈ l, c.1 = true := by
  induction l with
  | nil => simp [firstReason]
  | cons c l ih =>
    obtain ⟨ok, why⟩ := c
    cases ok <;> simp [firstReason, ih]

theorem hcmdOf_part (opc part ctx : Nat) (arg0 arg1 : W64) : (hcmdOf opc part ctx arg0 arg1).part = part := rfl

theorem State.isActive_iff (s : State) (p : Nat) : s.isActive p = true ↔ (s.part p).st = .active :=
  decide_eq_true_iff

/-- A command's words stand in HCMD and its arguments alone. -/
theorem State.pfReg_rejects_ne (s : State) (h : Hcmd) (why : Nat) {off : Nat} (h0 : off ≠ 0x1000) (h1 : off ≠ 0x1008)
    (h2 : off ≠ 0x1010) : (s.rejects h why).pfReg off = s.pfReg off := by
  change (s.stage h).pfReg off = _
  simp [State.stage, h0, h1, h2]

/-- Settles O33: each of the five is `hostCommand` with its own checks and act, and a rejected one only holds its words. -/
theorem deviceCommandsAreRejectedInOrder : Obligations.DeviceCommandsAreRejectedInOrder := by
  intro s p n a b i h cs hi
  obtain ⟨act, e⟩ : ∃ act, exec i s = .next (hostCommand s h cs act) := by
    rcases hi with ⟨hi, rfl⟩ | ⟨hi, rfl⟩ | ⟨hi, rfl⟩ | ⟨hi, rfl⟩ | ⟨hi, rfl⟩
    all_goals
      cases hi
      exact ⟨_, rfl⟩
  rw [e]
  refine ⟨fun hr => ?_, fun hr hb => ?_, fun hr hb why hc => ?_⟩
  · rw [hostCommand_of_not_ready hr]
  · rw [hostCommand_of_busy hr hb]
  · rw [hostCommand_rejects hr hb hc]
    exact ⟨_, rfl, rfl, rfl, rfl, rfl, rfl, rfl, rfl, rfl, rfl, fun _ h0 h1 h2 => s.pfReg_rejects_ne h why h0 h1 h2⟩

/-- Settles O31: each command is accepted, and its act is the stated update. -/
theorem deviceCommandsForPartitions : Obligations.DeviceCommandsForPartitions := by
  intro s p hr hb
  refine ⟨fun hc => ?_, fun hp ha => ?_, fun ha => ?_, fun ha hi => ?_⟩
  · exact congrArg _ (hostCommand_accepts hr hb hc _)
  · refine congrArg _ (hostCommand_accepts hr hb (firstReason_eq_none.2 ?_) _)
    simpa [hcmdOf, State.isActive_iff, hp] using ha
  · refine congrArg _ (hostCommand_accepts hr hb (firstReason_eq_none.2 ?_) _)
    simpa [hcmdOf, State.isActive_iff] using ha
  · refine congrArg _ (hostCommand_accepts hr hb (firstReason_eq_none.2 ?_) _)
    simpa [hcmdOf, State.isActive_iff] using And.intro ha hi

/-- Settles O32: as O31; an XLAT_UPDATE in progress ends by writing its entries into the table. -/
theorem deviceCommandsForTranslationCoresAndContexts : Obligations.DeviceCommandsForTranslationCoresAndContexts := by
  refine ⟨fun s p n arg0 arg1 hr hb => ⟨fun hc => ?_, fun hs hc => ?_, fun hs hc => ?_, fun hc => ?_, fun hi hz => ?_⟩,
    fun s p first es hx hp => ?_⟩
  · exact congrArg _ (hostCommand_accepts hr hb hc _)
  · refine congrArg _ (hostCommand_accepts hr hb (firstReason_eq_none.2 ?_) _)
    simpa using And.intro hs (by simpa using hc)
  · refine congrArg _ (hostCommand_accepts hr hb (firstReason_eq_none.2 ?_) _)
    simpa using And.intro hs (by simpa [hcmdOf_part] using hc)
  · exact congrArg _ (hostCommand_accepts hr hb hc _)
  · refine congrArg _ (hostCommand_accepts hr hb (firstReason_eq_none.2 ?_) _)
    simpa using ⟨hi, hz⟩
  · change execXlatUpdateComplete s = _
    simp [execXlatUpdateComplete, hx, hp]

end Sys2Proof.Machine

/-! The sequencer's instructions: what one that is fetched does (12 R275 to R281). -/

namespace Sys2Proof.Machine

variable {s t : State} {c n : Nat} {i : Instr} {r : Run} {g : Regs}

/-- A fetched instruction whose work ends well leaves the state that its work leaves. -/
theorem Fetches.done (h : Fetches s c i n r g t) {k : State → Nat → Run → Regs → Eff} {u : State}
    (hk : k t n r g = .done u) : fetched s c i k = u := by
  rw [h.run, hk]
  rfl

/-- A two-operand operation whose sB field is 0 where it has an extension word writes its result. -/
theorem alu_done (h : Fetches s c i n r g t) {f : Alu} (hb : f.ext.isSome = true → f.sB = 0) (op : W64 → W64 → W64) :
    alu s c i f op = t.pass c (if f.ext.isSome then 2 else 1)
      (fun g => g.setS f.sD.toNat (op (g.getS f.sA.toNat) (f.ext.getD (g.getS f.sB.toNat)))) := by
  refine h.done (if_neg ?_)
  simpa using hb

theorem smin_eq (x y : W64) : smin x y = if x.toInt ≤ y.toInt then x else y := by
  simp only [smin, BitVec.slt, decide_eq_true_eq, ← not_lt, ite_not]

theorem smax_eq (x y : W64) : smax x y = if y.toInt ≤ x.toInt then x else y := by
  simp only [smax, BitVec.slt, decide_eq_true_eq, ← not_lt, ite_not]

/-- The conditions of 12 R276, in numbers. -/
theorem condHolds_iff (cond : BitVec 3) (x y : W64) : condHolds cond.toNat x y = true ↔
    (cond = 0 ∧ x = y) ∨ (cond = 1 ∧ x ≠ y) ∨ (cond = 2 ∧ x.toInt < y.toInt) ∨ (cond = 3 ∧ y.toInt ≤ x.toInt)
      ∨ (cond = 4 ∧ x.toNat < y.toNat) ∨ (cond = 5 ∧ y.toNat ≤ x.toNat) ∨ cond = 6 ∨ cond = 7 := by
  obtain rfl | rfl | rfl | rfl | rfl | rfl | rfl | rfl :
      cond = 0 ∨ cond = 1 ∨ cond = 2 ∨ cond = 3 ∨ cond = 4 ∨ cond = 5 ∨ cond = 6 ∨ cond = 7 := by
    revert cond
    decide
  all_goals simp [condHolds, BitVec.slt, BitVec.ult]


/-- The items of the sequencer state by their index (04 R70). -/
theorem State.seqItem_eq (s : State) (c n : Nat) (r : Run) (g : Regs) (i : BitVec 8) : s.seqItem c n r g i.toNat =
    if i = 0 then g.flags.word else if i = 1 then BitVec.ofNat 64 s.time else if i = 2 then BitVec.ofNat 64 s.nowNs
    else if i = 3 then BitVec.ofNat 64 (g.layer.toNat * 65536 + g.op.toNat) else if i = 4 then g.phase.setWidth 64
    else if i = 5 then BitVec.ofNat 64 (r.groupDeadline (s.x c).groupNo) else if i = 6 then BitVec.ofNat 64 (s.x c).groupNo
    else if i = 7 then BitVec.ofNat 64 n else if i = 8 then 16384 else if i = 9 then BitVec.ofNat 64 c else 0 := by
  unfold State.seqItem
  simp only [← BitVec.toNat_inj]
  split <;> simp_all

/-- Settles O2: each operation is `alu` with its function; sq.cmp's conditions are `condHolds_iff`. -/
theorem sequencerArithmetic : Obligations.SequencerArithmetic := by
  intro s c f n r g t hb
  refine ⟨fun h => congrArg _ (alu_done h hb _), fun h => congrArg _ (alu_done h hb _), fun h => congrArg _ (alu_done h hb _),
    fun h => congrArg _ (alu_done h hb _), fun h => congrArg _ (alu_done h hb _), fun h => congrArg _ (alu_done h hb _),
    fun h => congrArg _ (alu_done h hb _), fun h => congrArg _ (alu_done h hb _), fun h => congrArg _ (alu_done h hb _),
    fun h => ?_, fun h => ?_, fun cond hc h => ?_⟩
  · simp only [← smin_eq]
    exact congrArg _ (alu_done h hb smin)
  · simp only [← smax_eq]
    exact congrArg _ (alu_done h hb smax)
  · have h6 : cond ≠ 6 := by
      rintro rfl
      exact absurd hc (by decide)
    have h7 : cond ≠ 7 := by
      rintro rfl
      exact absurd hc (by decide)
    refine congrArg _ ((if_neg (by omega)).trans ?_)
    rw [alu_done h hb]
    simp only [condHolds_iff, h6, h7, or_false]

/-- Settles O3: the moves are `scalar`; sq.rds and sq.wrs at index 0 pass their wait, for nothing earlier is left. -/
theorem sequencerMoves : Obligations.SequencerMoves := by
  intro s c n r g t
  refine ⟨fun sD v h => congrArg _ (h.done rfl), fun aD sB sE h => congrArg _ (h.done rfl), fun layer op h => congrArg _ (h.done rfl),
    fun ph h => congrArg _ (h.done rfl), fun sD i hd h => congrArg _ (h.done ((if_neg ?_).trans ?_)), fun i sS hd h => congrArg _ (h.done (if_neg ?_))⟩
  · simpa [Exec.idle] using hd
  · rw [State.seqItem_eq]
  · simpa [Exec.idle] using hd

/-- A control read that meets neither a poisoned entry nor poisoned bytes goes on with the bytes. -/
theorem withCtl_ok {w : Who} {va m : Nat} (hs : (t.readVirt w va m).stop = false) (hb : anyBad (t.readVirt w va m).bs = false)
    (k : State → List Byte → Eff) : withCtl t w va m k = k (t.readVirt w va m).s (plain (t.readVirt w va m).bs) := by
  simp [withCtl, hs, hb]

theorem withWrite_ok {w : Who} {va : Nat} {bs : List PByte} (hs : (t.writeVirt w va bs).stop = false) (k : State → Eff) :
    withWrite t w va bs k = k (t.writeVirt w va bs).s := by
  simp [withWrite, hs]

theorem ldstOk_iff {aS sO : Nat} : ldstOk g aS sO = true ↔
    (g.getS sO).toNat + 8 ≤ (g.getA aS).2.toNat ∧ ((g.getA aS).1.toNat + (g.getS sO).toNat) % 8 = 0 := by
  rw [ldstOk, Bool.and_eq_true, decide_eq_true_iff, inExtent, decide_eq_true_iff, baseOf]

/-- Settles O4: both keep `ldstOk`, wait for nothing, and make their one access. -/
theorem scalarLoadsAndStores : Obligations.ScalarLoadsAndStores := by
  intro s c n r g t aS sO runs off va w hx ha
  have ok : ldstOk g aS.toNat sO.toNat = true := ldstOk_iff.2 ⟨hx, ha⟩
  refine ⟨fun sD hw hs hb h => congrArg _ (h.done ?_), fun sV hw hs h => congrArg _ (h.done ?_)⟩
  · rw [if_neg (by simp [ok])]
    exact (if_neg (Bool.eq_false_iff.1 hw)).trans (withCtl_ok hs hb _)
  · rw [if_neg (by simp [ok])]
    exact (if_neg (Bool.eq_false_iff.1 hw)).trans (withWrite_ok hs _)

/-- Settles O5: each is its own sequencer rule; the branch's condition is `condHolds`, and halting and the preemption
points are the rule's own steps. -/
theorem sequencerControlFlow : Obligations.SequencerControlFlow := by
  intro s c n r g t
  refine ⟨fun cond sA sB ofs h7 h6 h => congrArg _ (h.done ?_), fun lN sC body hb hv h => congrArg _ (h.done ?_),
    fun sS h => congrArg _ (h.done rfl), fun h => congrArg _ (h.done rfl), fun h => congrArg _ (h.done rfl)⟩
  · rw [if_neg (by simpa using And.intro h7 h6)]
    simp only [condHolds_iff, h7, or_false]
    split
    · rfl
    · rfl
  · rw [if_neg (by simpa using And.intro hb hv)]
    simp only [Regs.loop]

/-- Settles O6: the entry is read through the control cache, and the lines that the range touches are dropped. -/
theorem liveMapsAndCacheInvalidation : Obligations.LiveMapsAndCacheInvalidation := by
  intro s c n r g t
  refine ⟨fun i hi hf hl h => congrArg _ (h.done ?_), fun aS sO sL hx hd h => congrArg _ (h.done ?_)⟩
  · rw [if_neg (by omega)]
    exact (if_neg (Bool.eq_false_iff.1 hf)).trans (if_neg (by simpa using hl))
  · rw [if_neg (by simpa [inExtent] using hx), if_neg (by simpa [Exec.idle] using hd)]
    rfl

/-- Settles O14: each is one update of the core's registers behind the fetch. -/
theorem vectorState : Obligations.VectorState := by
  intro s c n r g t
  refine ⟨fun sD sS h => congrArg _ (h.done rfl), fun mD sS hm h => congrArg _ (h.done (if_neg ?_)),
    fun sS h => congrArg _ (h.done rfl), fun mode sS h => congrArg _ (h.done rfl)⟩
  rw [fld, bits, Nat.shiftRight_eq_div_pow, Nat.div_eq_of_lt hm]
  simp

end Sys2Proof.Machine

/-! Signal objects and queues: updates, waits and packets (13 R312 to R318, 14 R329 to R347). -/

namespace Sys2Proof.Machine

variable {s t : State} {c n : Nat} {i : Instr} {r : Run} {g : Regs}

theorem badSigHandle_eq_false {h : W64} : badSigHandle h = false ↔ h.toNat < 2 ^ 18 := by
  simp [badSigHandle]

theorem badQueueHandle_eq_false {h : W64} : badQueueHandle h = false ↔ h.toNat < 2 ^ 14 := by
  simp [badQueueHandle]

/-! ### Updates -/

/-- The update that `sy.sig` or `sy.set` issues, behind the others of its region. -/
def State.issuesUpd (t : State) (c n : Nat) (g : Regs) (set : Bool) (sV : BitVec 5) (o : Nat × Nat) : State :=
  ((t.sendUpdates o.1).onRegion o.1 (fun q => { q with updates := q.updates ++
    [{ obj := o.2, val := (g.getS sV.toNat).setWidth 32, set := set, core := some c, id := (t.x c).nextId, ctx := n, sent := false }] })).sendUpdates o.1

theorem sigIssue_granted (h : Fetches s c i n r g t) {set : Bool} {sS sV : BitVec 5} {o : Nat × Nat}
    (hh : (g.getS sS.toNat).toNat < 2 ^ 18) (ho : t.handle (t.who c g).part (g.getS sS.toNat).toNat = some o) :
    sigIssue s c i set sS sV = (t.issuesUpd c n g set sV o).pass c 1 id := by
  refine h.done ((if_neg (Bool.eq_false_iff.1 (badSigHandle_eq_false.2 hh))).trans ?_)
  simp only [ho]
  rfl

theorem sigIssue_foreign (h : Fetches s c i n r g t) {set : Bool} {sS sV : BitVec 5}
    (hh : (g.getS sS.toNat).toNat < 2 ^ 18) (ho : t.handle (t.who c g).part (g.getS sS.toNat).toNat = none) :
    sigIssue s c i set sS sV = (t.violateBy (t.who c g) .foreignHandle (g.getS sS.toNat).toNat).pass c 1 id := by
  refine h.done ((if_neg (Bool.eq_false_iff.1 (badSigHandle_eq_false.2 hh))).trans ?_)
  simp only [ho]

/-- An object without damage is read as it is. -/
theorem State.meetSig_clean {q obj : Nat} (h : ∀ d ∈ t.upsets, d.spot ≠ .sig q obj) : t.meetSig q obj = (t, none) := by
  have hf : t.upsets.find? (fun u => u.spot = .sig q obj) = none := by simpa using h
  rw [State.meetSig, hf]

theorem State.region_statuses (s : State) (code : Nat) (l : List Nat) (q : Nat) : (s.statuses code l).region q = s.region q := by
  induction l generalizing s with
  | nil => rfl
  | cons m l ih =>
    rw [State.statuses, ih]
    rfl

/-- An update that has left and that no other of its unit precedes is applied. -/
theorem execSignalUpdateApply_sent {q : Fin 4} {k : StoreUpd} {u : Upd}
    (hk : ((s.sendUpdates q).region q).updates[k.index]? = some u) (hs : u.sent = true)
    (hf : ∀ v ∈ ((s.sendUpdates q).region q).updates.take k.index, v.core ≠ u.core) :
    execSignalUpdateApply q k s = .next (((s.sendUpdates q).onRegion q (fun g =>
      { g with updates := g.updates.eraseIdx k.index })).applyUpd q u k.damaged) := by
  have hb : ¬ (((s.sendUpdates q).region q).updates.take k.index).any (fun v => v.core = u.core) = true := by simpa using hf
  simp [execSignalUpdateApply, hk, hs, hb]

/-- A record that an update answers ends with `code`. -/
def State.endUpd (s : State) (u : Upd) (code : Nat) : State := if u.core = none ∧ u.id ≠ 0 then s.endRec u.ctx code 0 0 else s

/-- The region holds the update among those of its tick. -/
def State.notesUpd (s : State) (q : Nat) (u : Upd) : State := s.onRegion q (Region.noteUpd s.time u)

/-- An update of an object that carries no damage, and on which none was found in this tick. -/
theorem State.applyUpd_clean {q : Nat} {u : Upd} (hm : (s.notesUpd q u).meetSig q u.obj = (s.notesUpd q u, none))
    (hg : u.obj ∉ (((s.notesUpd q u).sigApply (q, u.obj) u.val u.set u.core).region q).sigGone) :
    s.applyUpd q u false = ((s.notesUpd q u).sigApply (q, u.obj) u.val u.set u.core).endUpd u 0 := by
  unfold State.notesUpd at hm hg ⊢
  unfold State.endUpd
  cases hu : u.core with
  | some c =>
    rw [hu] at hg
    simp [State.applyUpd, State.updRead, hm, hu, hg]
  | none =>
    rw [hu] at hg
    by_cases hi : u.id = 0 <;> simp [State.applyUpd, State.updRead, hm, hu, hi, hg]

/-- An update that brings damage to an object that carries none: the object is lost, and the contexts that update it in
this tick see code 5. -/
theorem State.applyUpd_damaged {q : Nat} {u : Upd} (hm : (s.notesUpd q u).meetSig q u.obj = (s.notesUpd q u, none)) :
    s.applyUpd q u true =
      (let y := s.notesUpd q u
       let l := (y.drawn.sigLost (q, u.obj) (someUncorrectable (Config.freeWord y.free).toNat)).onRegion q (fun g =>
         { g with sigGone := u.obj :: g.sigGone })
       (l.statuses 5 (((l.region q).sigUpds.filter (fun e => e.1 = u.obj)).map (fun e => e.2))).endUpd u 5) := by
  unfold State.notesUpd at hm ⊢
  unfold State.endUpd
  cases hu : u.core with
  | some c => simp [State.applyUpd, State.updRead, hm, hu]
  | none => by_cases hi : u.id = 0 <;> simp [State.applyUpd, State.updRead, hm, hu, hi, State.region_statuses]

/-- Settles O24: one case for each branch of issue, application and the window, the damaged object apart. -/
theorem signalUpdates : Obligations.SignalUpdates := by
  refine ⟨fun s c n r g t sS sV hh => ⟨fun o ho => ⟨fun h => ?_, fun h => ?_⟩, fun ho => ⟨fun h => ?_, fun h => ?_⟩⟩,
    fun s r k u hk hs hf hd => ?_, fun s p r i v o hr ho => ⟨?_, ?_⟩⟩
  · exact congrArg _ (sigIssue_granted h hh ho)
  · exact congrArg _ (sigIssue_granted h hh ho)
  · exact congrArg _ (sigIssue_foreign h hh ho)
  · exact congrArg _ (sigIssue_foreign h hh ho)
  · have hm (v : State) (e : v.upsets = (s.sendUpdates r).upsets) : v.meetSig r u.obj = (v, none) :=
      State.meetSig_clean (by rw [e]; exact hd)
    refine ⟨fun hg => ?_, ?_⟩
    · refine (execSignalUpdateApply_sent hk hs hf).trans ?_
      exact congrArg _ (State.applyUpd_clean (hm _ rfl) hg)
    · refine (execSignalUpdateApply_sent hk hs hf).trans ?_
      exact congrArg _ (State.applyUpd_damaged (hm _ rfl))
  · change Host.Outcome.next _ = _
    simp [State.whenReady, hr, sigObjWrite, ho, State.sigApply]
  · change Host.Outcome.next _ = _
    simp [State.whenReady, hr, sigObjWrite, ho, State.sigApply]

/-! ### Waits -/

/-- A wait on an object without damage loses nothing. -/
theorem State.waitLost_clean {sD : BitVec 5} {o : Nat × Nat} (h : ∀ d ∈ t.upsets, d.spot ≠ .sig o.1 o.2) :
    t.waitLost c n sD (some o) = (t, false) := by
  simp [State.waitLost, State.meetSig_clean h]

theorem waitMet_iff {v w : W32} {eq : Bool} : waitMet v w eq = true ↔ (if eq then v = w else (v - w).toNat < 2 ^ 31) := by
  cases eq <;> simp [waitMet]

/-- The expiry tick in numbers: 40 ns times the low 32 bits of the operand (13 R315). -/
theorem State.waitExpiry_eq (s : State) (c : Nat) (d : W64) : s.waitExpiry c (d.setWidth 32) =
    if (s.x c).savedE.isSome then (s.x c).savedE else if d.toNat % 2 ^ 32 = 0 then none else some (s.time + 40 * (d.toNat % 2 ^ 32)) := by
  have hz : d.setWidth 32 = 0 ↔ d.toNat % 2 ^ 32 = 0 := by simp [← BitVec.toNat_inj]
  unfold State.waitExpiry
  cases (s.x c).savedE with
  | some e => simp
  | none => simp only [hz, BitVec.toNat_setWidth, Option.isSome_none, Bool.false_eq_true, if_false]

/-- Settles O25: one case for each outcome of the comparison and of the timeout. -/
theorem signalWaits : Obligations.SignalWaits := by
  refine ⟨fun s c n r g t f o hh ho hd => ⟨fun hm h => congrArg _ (h.done ?_), fun hm h => congrArg _ (h.done ?_)⟩,
    fun s c n sD o v eq e since hc hr he hs => ⟨fun hh => ?_, fun hh => ?_⟩, fun s n o v eq e hw he => ?_⟩
  · refine (if_neg (Bool.eq_false_iff.1 (badSigHandle_eq_false.2 hh))).trans ?_
    simp only [ho, Option.isNone_some, Bool.false_eq_true, if_false, State.waitExpiry_eq]
    rw [State.waitLost_clean (by simpa using hd)]
    exact (if_neg Bool.false_ne_true).trans (if_pos (waitMet_iff.2 hm))
  · refine (if_neg (Bool.eq_false_iff.1 (badSigHandle_eq_false.2 hh))).trans ?_
    simp only [ho, Option.isNone_some, Bool.false_eq_true, if_false, State.waitExpiry_eq]
    rw [State.waitLost_clean (by simpa using hd)]
    exact (if_neg Bool.false_ne_true).trans (if_neg (mt waitMet_iff.1 hm))
  · change Host.Outcome.next _ = _
    simp [hh, hc, hr, he, hs]
  · change Host.Outcome.next _ = _
    simp [hh, hc, hr, he, hs]
  · change Host.Outcome.next _ = _
    simp [hw, he]

/-! ### Queues -/

theorem queueHandle_region {h : Nat} (hh : h < 2 ^ 14) : bits h 12 2 = h / 4096 := by
  rw [bits, Nat.shiftRight_eq_div_pow]
  omega

theorem queueHandle_index (h : Nat) : bits h 0 12 = h % 4096 := by
  simp [bits]

section

variable {sQ sL sD : BitVec 5} {aS : BitVec 4} {off : Nat}

/-- A `sy.qput` whose handle, length and bytes are in range goes on to its queue. -/
theorem execSyQput_eq {c : Fin 264} (h : Fetches s c (.syQput c sQ aS sL) n r g t) (hh : (g.getS sQ.toNat).toNat < 2 ^ 14)
    (h1 : 1 ≤ (g.getS sL.toNat).toNat) (h2 : (g.getS sL.toNat).toNat ≤ 65536)
    (ho : spAt g (t.window c) aS.toNat (g.getS sL.toNat).toNat = some off) {u : State}
    (hk : (let q := t.que ((g.getS sQ.toNat).toNat / 4096) ((g.getS sQ.toNat).toNat % 4096)
      let len := (g.getS sL.toNat).toNat
      if !q.serves (t.who c g).part (t.core c).logical then
        Eff.done ((t.violateBy (t.who c g) .foreignHandle (g.getS sQ.toNat).toNat).endHold c 0 0)
      else if cellsOf len > q.cap then .abort 4 t
      else if (t.x c).portWaits (rd off len) then .done t
      else
        let v := t.holdPort c (rd off len) (.qput ((g.getS sQ.toNat).toNat / 4096) ((g.getS sQ.toNat).toNat % 4096) off len 0)
        .done (if q.full len then v else v.qputCell c)) = .done u) :
    exec (.syQput c sQ aS sL) s = .next u := by
  refine congrArg _ (h.done ((if_neg ?_).trans ?_))
  · simp [badQueueHandle_eq_false.2 hh]
    omega
  · rw [ho]
    simp only [queueHandle_region hh, queueHandle_index]
    exact hk

/-- A `sy.qget` whose handle, room and bytes are in range goes on to its queue. -/
theorem execSyQget_eq {c : Fin 264} (h : Fetches s c (.syQget c sD sQ aS sL) n r g t) (hh : (g.getS sQ.toNat).toNat < 2 ^ 14)
    (h1 : 1 ≤ (g.getS sL.toNat).toNat) (h2 : (g.getS sL.toNat).toNat ≤ 65536)
    (ho : spAt g (t.window c) aS.toNat (g.getS sL.toNat).toNat = some off) {u : State}
    (hk : (let q := t.que ((g.getS sQ.toNat).toNat / 4096) ((g.getS sQ.toNat).toNat % 4096)
      let len := (g.getS sL.toNat).toNat
      if !q.delivers (t.who c g).part (t.core c).logical then
        Eff.done ((t.violateBy (t.who c g) .foreignHandle (g.getS sQ.toNat).toNat).endHold c sD.toNat 0)
      else if (t.x c).portWaits (wr off len) then .done t
      else .done (((t.holdPort c (wr off len)
        (.qget sD ((g.getS sQ.toNat).toNat / 4096) ((g.getS sQ.toNat).toNat % 4096) off len 0)).setQue
          ((g.getS sQ.toNat).toNat / 4096) ((g.getS sQ.toNat).toNat % 4096) q.skipAborted).qgetCell c)) = .done u) :
    exec (.syQget c sD sQ aS sL) s = .next u := by
  refine congrArg _ (h.done ((if_neg ?_).trans ?_))
  · simp [badQueueHandle_eq_false.2 hh]
    omega
  · rw [ho]
    simp only [queueHandle_region hh, queueHandle_index]
    exact hk

theorem execSyQcnt_eq {c : Fin 264} (h : Fetches s c (.syQcnt c sD sQ) n r g t) (hh : (g.getS sQ.toNat).toNat < 2 ^ 14) {u : State}
    (hk : (let q := t.que ((g.getS sQ.toNat).toNat / 4096) ((g.getS sQ.toNat).toNat % 4096)
      if q.delivers (t.who c g).part (t.core c).logical then Eff.done (t.endHold c sD.toNat (BitVec.ofNat 64 q.consOcc))
      else if q.serves (t.who c g).part (t.core c).logical then .done (t.endHold c sD.toNat (BitVec.ofNat 64 q.prodOcc))
      else .done ((t.violateBy (t.who c g) .foreignHandle (g.getS sQ.toNat).toNat).endHold c sD.toNat 0)) = .done u) :
    exec (.syQcnt c sD sQ) s = .next u := by
  refine congrArg _ (h.done ((if_neg ?_).trans ?_))
  · simp [badQueueHandle_eq_false.2 hh]
  · simp only [queueHandle_region hh, queueHandle_index]
    exact hk

end

@[simp] theorem State.que_setQue_same (s : State) (r i : Nat) (q : Que) : (s.setQue r i q).que r i = q := by
  simp [State.que, State.setQue]

theorem State.hold_holdPort (s : State) (c : Nat) (r : SpRange) (h : Hold) : ((s.holdPort c r h).x c).hold = h := by
  simp [State.holdPort]

/-- A `sy.qget` whose queue shows no packet stays held. -/
theorem State.qgetCell_empty {c r i off len k : Nat} {sD : BitVec 5} (hh : (s.x c).hold = .qget sD r i off len k)
    (he : (s.que r i).head = none) : s.qgetCell c = s := by
  simp only [State.qgetCell, hh, he]

/-- A cell without damage is read as it is. -/
theorem State.meetCell_clean {r no : Nat} (bs : List PByte) : ∀ l : List Upset, (∀ d ∈ l, inCell r no d = none) →
    s.meetCell r no bs l = (s, bs)
  | [], _ => rfl
  | d :: l, h => by
    rw [State.meetCell, h d (by simp)]
    exact State.meetCell_clean bs l (fun e he => h e (by simp [he]))

/-- Settles O26: one case for each check of the queue's end and each answer of the queue. -/
theorem queueInstructions : Obligations.QueueInstructions := by
  refine ⟨fun s c n ru g t sQ sL sD aS off hh => ⟨fun h1 h2 ho => ⟨fun hs hc hw => ⟨fun hf h => ?_, fun hf h => ?_⟩, fun hs h => ?_,
      fun hd hw => ⟨fun hp h => ?_, fun hp h => ?_⟩, fun hd h => ?_⟩, fun hd h => ?_, fun hd hs h => ?_, fun hd hs h => ?_⟩,
    fun s c r i off len k hh => ⟨fun hl => ?_, fun hl => ?_⟩,
    fun s c sD r i off len k p b hh hp hb hd ha => ⟨fun hl => ?_, fun hl => ?_⟩⟩
  · exact execSyQput_eq h hh h1 h2 ho (by simp [hs, hc, hw, hf])
  · exact execSyQput_eq h hh h1 h2 ho (by simp [hs, hc, hw, hf])
  · exact execSyQput_eq h hh h1 h2 ho (by simp [hs])
  · exact execSyQget_eq h hh h1 h2 ho (by simp [hd, hw])
  · refine execSyQget_eq h hh h1 h2 ho ?_
    rw [if_neg (by simp [hd]), if_neg (by simp [hw])]
    exact congrArg _ (State.qgetCell_empty (State.hold_holdPort _ _ _ _) (by simpa using hp))
  · exact execSyQget_eq h hh h1 h2 ho (by simp [hd])
  · exact execSyQcnt_eq h hh (by simp [hd])
  · exact execSyQcnt_eq h hh (by simp [hd, hs])
  · exact execSyQcnt_eq h hh (by simp [hd, hs])
  · simp [State.qputCell, hh, hl]
  · simp [State.qputCell, hh, Nat.not_le.2 hl]
  · simp [State.qgetCell, hh, hp, hb, hl, State.meetCell_clean _ _ hd, ha]
  · simp [State.qgetCell, hh, hp, hb, hl, State.meetCell_clean _ _ hd, ha]

end Sys2Proof.Machine

/-! Collective instructions (13 R319 to R324). -/

namespace Sys2Proof.Machine

variable {s t u : State} {c n : Nat} {k : Issued}

theorem runClPut_done {f : ClPut} (hw : (u.who c k.regs).ctx = some n) {s1 : State} {bs : List PByte} {j : Job} {g : JobGroup} {d : Nat}
    (hr : ∀ K, withData (u.usesCl n) (u.who c k.regs) (k.regs.getA f.aS.toNat).1.toNat (f.len k.regs) K = K s1 bs)
    (hg : s1.clGroup n f.jg.toNat = some (j, g)) (hd : f.dst k.regs g = some d) :
    runClPut f u c k = some (.done (if j.isLost d then s1.discardTo j d
      else (s1.putSend (u.who c k.regs).part c k.id f k.regs j d bs).actBy (u.who c k.regs) actFlit (cdiv bs.length 232))) := by
  simp only [runClPut, hw, baseOf]
  rw [hr]
  simp only [hg, hd]
  split
  · rfl
  · rfl

theorem runClReduce_done {f : ClReduce} (hw : (u.who c k.regs).ctx = some n) {s1 : State} {bs : List PByte} {j : Job} {g : JobGroup}
    {st : Nat × Nat}
    (hr : ∀ K, withData (u.usesCl n) (u.who c k.regs) (k.regs.getA f.aS.toNat).1.toNat (f.inBytes k.regs) K = K s1 bs)
    (hg : s1.clGroup n f.jg.toNat = some (j, g)) (hs : k.step = some st) :
    runClReduce f u c k = some (.done ((s1.redStart c n k f st j g bs).actBy (u.who c k.regs) actElem (f.n k.regs))) := by
  simp only [runClReduce, hw, baseOf]
  rw [hr]
  simp only [hg, hs]

/-- Settles O28: the engine forms by their start, the sequencer forms by their fetch. -/
theorem collectiveInstructions : Obligations.CollectiveInstructions := by
  refine ⟨fun s t u s1 c n k bs j g hw => ⟨fun f d h hr hg hd => ?_, fun f st h hr hg hs => ?_⟩,
    fun s c n r g t => ⟨fun sS sW hj hr h => congrArg _ (h.done ?_), fun sD jg v ports hp h => congrArg _ (h.done ?_)⟩⟩
  · exact Starts.doneCl rfl h (runClPut_done hw hr hg hd) rfl
  · exact Starts.doneCl rfl h (runClReduce_done hw hr hg hs) rfl
  · rw [if_neg (by simpa [Option.isNone_iff_eq_none, Option.isSome_iff_ne_none] using hj), if_neg (by simp [hr])]
    rfl
  · simp only [hp]
    by_cases hq : ports = []
    · simp [hq]
    · simp [hq]

end Sys2Proof.Machine

/-! The engines' own events: a queued instruction's start, a tag's release, an instruction's end, a slot of the wells. -/

namespace Sys2Proof.Machine

variable {s t u v : State} {c n : Nat} {k : Issued}

theorem effectOf_formOf {i : Instr} {F : Form} (h : formOf i = some F) : effectOf i = F.run := by
  cases i <;> cases h <;> rfl

/-- With one stack asleep, work that asks it finds it alone. -/
theorem State.slept_one {st : Fin 16} (h : ∀ j : Fin 16, (s.stack j).selfRef = decide (j = st))
    (hb : (v.stack st).ifBursts ≠ (s.stack st).ifBursts) : s.slept v = [st.val] := by
  have he : s.slept v = (List.range 16).filter (fun k => k = st.val) := by
    refine List.filter_congr fun k hk => ?_
    by_cases e : k = st.val
    · subst e
      simp [h st, hb]
    · have := h ⟨k, List.mem_range.1 hk⟩
      simp [this, Fin.ext_iff, e]
  rw [he]
  clear he hb h
  revert st
  decide

theorem State.wakeStacks_one {st : Nat} (h : (s.stack st).selfRef = true) :
    s.wakeStacks [st] = s.onStack st (fun x => { x with waking := true }) := by
  simp [State.wakeStacks, State.onStack, h]

/-- A queued instruction that may start does its work in the state in which it is in its engine. -/
def State.begins (s : State) (c : Nat) (k : Issued) : State :=
  s.setX c ({ s.x c with queue := (s.x c).queue.filter (fun q => q.id ≠ k.id) }.begin k s.time)

theorem startQueued_done {run : Effect} (hm : (s.x c).mayStart k = true) (hc : (s.core c).ctx = some n)
    (hr : run (s.begins c k) c k = some (.done v)) : startQueued s c k run = s.orWait v := by
  unfold State.begins at hr
  simp only [startQueued, hm, if_true]
  rw [hr]
  simp only [hc, Eff.settle]

theorem startQueued_waits {run : Effect} (hm : (s.x c).mayStart k = true) (hr : run (s.begins c k) c k = none) :
    startQueued s c k run = s := by
  unfold State.begins at hr
  simp only [startQueued, hm, if_true]
  rw [hr]

theorem execInstructionStart_eq {c : Fin 264} {e : Engine} {rest : List Issued} (hq : (s.x c).queueOf e = k :: rest) :
    execInstructionStart c e s = .next (((startQueued s c k (effectOf k.instr)).absorb c k).stopHere c) := by
  simp only [execInstructionStart, hq]

/-- Settles O9: the state that `start` works in, and the test for a sleeping stack, by whether the work asks it. -/
theorem queuedInstructionsStart : Obligations.QueuedInstructionsStart := by
  intro s v c e k rest n F hq hm hc hF awake w
  have he := execInstructionStart_eq (s := s) hq
  rw [effectOf_formOf hF] at he
  refine ⟨fun hw ha => ?_, fun st hw ha hb => ?_, fun hw => ?_⟩
  · rw [startQueued_done hm hc hw, State.orWait_awake ha] at he
    exact he
  · rw [startQueued_done hm hc hw, State.orWait, State.slept_one ha hb] at he
    exact he.trans (by rw [← State.wakeStacks_one (by simp [ha st])]; rfl)
  · rw [startQueued_waits hm hw] at he
    exact he

theorem Exec.moves_tags (x : Exec) (e : Engine) (now : Nat) : (x.moves e now).tags = x.tags := by
  unfold Exec.moves
  split <;> rfl

/-- An instruction that leaves its engine, with its tags and its record dropped. -/
theorem Exec.complete_eq (x : Exec) (k : Issued) (now : Nat) : x.complete k now =
    (let y := (x.shadowed k.instr).moves k.eng now
     { y.retag (y.tags.filter (fun q => q.owner ≠ k.id)) now with
       inflight := y.inflight.filter (fun q => q.id ≠ k.id), puts := y.puts.filter (fun q => q.1 ≠ k.id), progress := now }) := by
  have hy : ((x.shadowed k.instr).moves k.eng now).inflight = (x.shadowed k.instr).inflight
      ∧ ((x.shadowed k.instr).moves k.eng now).puts = (x.shadowed k.instr).puts := by
    unfold Exec.moves
    split <;> exact ⟨rfl, rfl⟩
  simp only [Exec.complete, Exec.moves_tags, hy]

/-- Settles O10: each event is unfolded once, under what lets it act. -/
theorem tagsAndInstructionsEnd : Obligations.TagsAndInstructionsEnd := by
  intro s c
  refine ⟨fun no g hg hm => ?_, fun id n k hc hk hw ho => ?_, fun st => ?_⟩
  · change Host.Outcome.next _ = _
    simp only [hg, hm, if_true]
  · change Host.Outcome.next _ = _
    simp only [hc, hk, hw, ho, Bool.not_false, Bool.and_self, if_true, Exec.complete_eq]
  · change Host.Outcome.next _ = _
    split
    · next hr =>
      simp [hr, State.onStack, Stk.nextSlot]
    · next hr =>
      simp [hr, State.onStack, Stk.nextSlot]

end Sys2Proof.Machine

/-! The context that an engine instruction works for (04 R74). -/

namespace Sys2Proof.Machine

variable {s z t u : State} {c n : Nat} {k : Issued}

theorem SameWork.readPiece {w : Who} {va m : Nat} (h : SameWork z s) : SameWork z (s.readPiece w va m).s := by
  unfold State.readPiece
  split
  · exact h.of_cores (by simp)
  · exact h.of_cores (by simp)
  · exact h.of_cores (by simp)
  · exact h
  · exact h.of_cores (by simp [State.violateBy])

theorem SameWork.readPieces {w : Who} {l : List (Nat × Nat)} (h : SameWork z s) : SameWork z (s.readPieces w l).s := by
  induction l generalizing s with
  | nil => exact h
  | cons p l ih => exact ih h.readPiece

theorem SameWork.readVirt {w : Who} {va m : Nat} (h : SameWork z s) : SameWork z (s.readVirt w va m).s := h.readPieces

theorem SameWork.ctx {d : Nat} (h : SameWork z s) : (s.core d).ctx = (z.core d).ctx := (congrArg PCore.ctx (h d) :)

theorem State.ctx_fillLine (s : State) (c n : Nat) (w : Who) (va d : Nat) :
    ((s.fillLine c n w va).s.core d).ctx = (s.core d).ctx := by
  have hv : ((s.readVirt w (va / 256 * 256) 256).s.core d).ctx = (s.core d).ctx := (SameWork.refl s).readVirt.ctx
  unfold State.fillLine
  split
  · rfl
  · dsimp only
    split
    · exact hv
    · by_cases e : d = c
      · subst e
        rw [State.core_onCore_same]
        exact hv
      · rw [State.core_onCore_ne _ _ _ _ e]
        exact hv

theorem State.ctx_poisonLine (s : State) (w : Who) (va : Nat) (bs : List PByte) (d : Nat) :
    ((s.poisonLine w va bs).core d).ctx = (s.core d).ctx := (SameWork.refl s).poisonRead.ctx

theorem State.ctx_fetchExt (s : State) (c n : Nat) (r : Run) (g : Regs) (w : W64) (a d : Nat) :
    ((s.fetchExt c n r g w a).1.core d).ctx = (s.core d).ctx := by
  unfold State.fetchExt
  split
  · split
    · rfl
    · dsimp only
      split
      · rw [State.ctx_poisonLine, State.ctx_fillLine]
      · rw [State.ctx_fillLine]
  · rfl

theorem State.ctx_fetch (s : State) (c n : Nat) (r : Run) (g : Regs) (d : Nat) :
    ((s.fetch c n r g).1.core d).ctx = (s.core d).ctx := by
  unfold State.fetch
  split
  · rfl
  · dsimp only
    split
    · rw [State.ctx_poisonLine, State.ctx_fillLine]
    · rw [State.ctx_fetchExt, State.ctx_fillLine]

theorem Fetches.ctx {i : Instr} {r : Run} {g : Regs} (h : Fetches s c i n r g t) : (t.core c).ctx = some n := by
  have e := s.ctx_fetch c n r g c
  rw [h.word] at e
  exact e.trans (issuing_ctx h.issuing)

theorem Starts.instr {i : Instr} (h : Starts s i n t k u) : k.instr = i := by
  obtain ⟨F, x, -, hi, -⟩ := h
  exact congrArg Issued.instr hi.record

/-- An engine works for the context of its core. -/
theorem Starts.ctx {i : Instr} {F : Form} (hF : formOf i = some F) (h : Starts s i n t k u) : (u.core F.core).ctx = some n := by
  obtain ⟨G, x, hG, hi, -, rfl⟩ := h
  rw [hF] at hG
  cases hG
  obtain ⟨r, hf⟩ := hi.fetch
  simpa [startOf, State.setX] using hf.ctx

theorem Starts.who_ctx {i : Instr} {F : Form} (hF : formOf i = some F) (h : Starts s i n t k u) (g : Regs) :
    (u.who F.core g).ctx = some n := by
  rw [State.who, h.ctx hF]

end Sys2Proof.Machine

/-! The matrix and the vector engine (05 R100 to R118, 06 R124 to R140). -/

namespace Sys2Proof.Machine

variable {s t u : State} {n : Nat} {k : Issued} {c : Fin 264}

/-! ### The matrix engine -/

theorem runMxWld_done {f : MxWld} (h : f.erg = true → (u.x c).expanderOpen k.id = true ∧ (u.x c).decOpen k.id = false) :
    ∃ v, runMxWld f u c k = some (.done v) := by
  unfold runMxWld
  dsimp only
  split
  · next he =>
    obtain ⟨h1, h2⟩ := h he
    rw [if_neg (by simp [h1, h2])]
    exact ⟨_, rfl⟩
  · exact ⟨_, rfl⟩

theorem runMxRun_completes {f : MxRun} (he : usesExpanders k.instr = true → (u.x c).expanderOpen k.id = true)
    (hd : (u.x c).undrained k.id (f.base k.regs) (f.m * nTile (u.x c).form) = false) : ∃ v, runMxRun f u c k = some (.done v) := by
  unfold runMxRun
  dsimp only
  rw [hd, if_neg (by simpa using he)]
  exact ⟨_, rfl⟩

/-- A product none of whose columns stops writes its results and asks its wells. -/
theorem runMxNmv_done {f : MxNmv} (hw : (u.who c k.regs).ctx = some n)
    (hs : let a := f.args k.regs
      let x := readOp u (u.who c k.regs) c k (f.vecs k.regs) f.da
      (nmvColumns (u.who c k.regs) n ((oneStack (u.stackMask (u.who c k.regs).part a.base (a.n * a.pitch * 64)) c).getD 0) a f x.2 a.n x.1).stop
        = false) :
    runMxNmv f u c k = some (.done (
      let a := f.args k.regs
      let w := u.who c k.regs
      let st := (oneStack (u.stackMask w.part a.base (a.n * a.pitch * 64)) c).getD 0
      let x := readOp u w c k (f.vecs k.regs) f.da
      let r := nmvColumns w n st a f x.2 a.n x.1
      let v := (r.s.writeSp c ((spAt k.regs (u.window c) f.aR.toNat (a.n * a.v * 4)).getD 0) (nmvBytes a.v r.cols)).addFlags c
        (joinAll ((r.cols.flatten).map (fun q => q.f)))
      ((v.count n 9 (a.k * a.n)).act n (actWell (tierOf f.wfmt.toNat f.vfmt.toNat).rank) (v.stack st).wpoint (a.k * a.n)).askWells st
        { core := c, id := k.id, part := w.part, wells := r.wells, pins := r.pins })) := by
  simp only [runMxNmv, hw]
  exact if_neg (Bool.eq_false_iff.1 hs)

/-- Settles O11: each form runs behind its start; a drain's tiles enter while the queue has room. -/
theorem matrixFormsSwapsAndDrains : Obligations.MatrixFormsSwapsAndDrains := by
  intro s t u c n k
  refine ⟨fun f h hx => ?_, fun h => ?_, fun f h => ?_⟩
  · refine Starts.done rfl h ?_ (by simp)
    exact if_neg (by simp [hx])
  · exact Starts.done rfl h rfl (by simp)
  · exact Starts.done rfl h rfl (by simp)

/-- Settles O12: each form runs behind its start, and none of a product's columns stops it. -/
theorem matrixLoadsRunsAndProducts : Obligations.MatrixLoadsRunsAndProducts := by
  intro s t u c n k
  refine ⟨fun f h he => ?_, fun f h he hu => ?_, fun f h hs => ?_⟩
  · obtain ⟨v, hv⟩ := runMxWld_done (u := u) he
    exact ⟨v, hv, Starts.done rfl h hv (by simp)⟩
  · obtain ⟨v, hv⟩ := runMxRun_completes (u := u) (c := c) (f := f) (k := k) (by rw [h.instr]; simpa [usesExpanders] using he) hu
    exact ⟨v, hv, Starts.done rfl h hv (by simp)⟩
  · exact Starts.done rfl h (runMxNmv_done (h.who_ctx rfl k.regs) hs) (by simp)

/-! ### The vector engine -/

theorem toNat_vl_eq_zero {v : W32} : v.toNat = 0 ↔ v = 0 := by simp [← BitVec.toNat_inj]

/-- Tiles that have all come are taken from the queue, and a count of 0 elements has none. -/
theorem tiles_pos {v : W32} (hv : v ≠ 0) (hd : 1024 ∣ v.toNat) : 1024 * (v.toNat / 1024) = v.toNat ∧ v.toNat / 1024 ≠ 0 := by
  have h0 : v.toNat ≠ 0 := mt toNat_vl_eq_zero.1 hv
  omega

theorem runXpDef_done {xN aS sO : Nat} (hb : anyBad ((u.x c).sp.read
      ((ownOff (u.window c) ((k.regs.getA aS).1.toNat + (k.regs.getS sO).toNat) 128).getD 0) 128) = false)
    (hp : (Prog.ofBytes (plain ((u.x c).sp.read
      ((ownOff (u.window c) ((k.regs.getA aS).1.toNat + (k.regs.getS sO).toNat) 128).getD 0) 128))).ok = true) :
    runXpDef xN aS sO u c k = some (.done (u.onRegs c (fun g => { g with xs := Tab.put g.xs xN (clean (plain ((u.x c).sp.read
      ((ownOff (u.window c) ((k.regs.getA aS).1.toNat + (k.regs.getS sO).toNat) 128).getD 0) 128))) }))) := by
  simp only [runXpDef, withSpCtl, baseOf, hb, Bool.false_eq_true, if_false, hp, if_true]

section

variable {f : VxEp} {p : Prog} (hp : k.regs.prog f.xs.toNat = some p)

include hp

theorem runVxEp_zero (hv : k.regs.vl = 0) : runVxEp f u c k = some (.done u) := by
  simp [runVxEp, hp, hv]

theorem runVxEp_streams (hv : k.regs.vl ≠ 0) (ht : f.tq = 0) :
    runVxEp f u c k = some (.done (epBody u c k f p k.regs.vl.toNat k.regs.vl.toNat [])) := by
  simp only [runVxEp, hp, if_neg (mt toNat_vl_eq_zero.1 hv), ht, if_true]

theorem runVxEp_tiles (hv : k.regs.vl ≠ 0) (ht : f.tq ≠ 0) (hd : 1024 ∣ k.regs.vl.toNat)
    (hr : (u.x c).tilesReady (k.regs.vl.toNat / 1024) f.ti = some (k.regs.vl.toNat / 1024)) :
    runVxEp f u c k = some (.done (epBody (u.onX c (fun x => x.dropTiles (k.regs.vl.toNat / 1024))) c k f p k.regs.vl.toNat
      k.regs.vl.toNat ((u.x c).tileVals (k.regs.vl.toNat / 1024)))) := by
  obtain ⟨h1, h2⟩ := tiles_pos hv hd
  simp only [runVxEp, hp, if_neg (mt toNat_vl_eq_zero.1 hv), if_neg ht, hr, if_neg h2, h1, if_true]

end

/-- Settles O15: by whether VL is 0 and whether a stream comes from the tile queue. -/
theorem elementPrograms : Obligations.ElementPrograms := by
  intro s t u c n k
  refine ⟨fun xN aS sO h hb hp => ?_, fun f p h hp => ⟨fun hv => ?_, fun hv ht => ?_, fun hv ht hd hr => ?_⟩⟩
  · exact Starts.done rfl h (runXpDef_done hb hp) (by simp)
  · exact Starts.done rfl h (runVxEp_zero hp hv) (by simp)
  · exact Starts.done rfl h (runVxEp_streams hp hv ht) (by simp)
  · exact Starts.done rfl h (runVxEp_tiles hp hv ht hd hr) (by simp)

theorem runVxRed_tiles {f : VxRed} (hv : k.regs.vl ≠ 0) (ht : f.tq = true) (hd : 1024 ∣ k.regs.vl.toNat)
    (hr : (u.x c).tilesReady (k.regs.vl.toNat / 1024) f.ti = some (k.regs.vl.toNat / 1024)) :
    runVxRed f u c k = some (.done (redBody (u.onX c (fun x => x.dropTiles (k.regs.vl.toNat / 1024))) c k f k.regs.vl.toNat
      k.regs.vl.toNat ((u.x c).tileVals (k.regs.vl.toNat / 1024)))) := by
  obtain ⟨h1, -⟩ := tiles_pos hv hd
  simp only [runVxRed, if_neg (mt toNat_vl_eq_zero.1 hv), ht, Bool.not_true, Bool.false_eq_true, if_false, hr, h1, if_true]

theorem runRnDraw_done {aD wq draw sL : Nat} : runRnDraw aD wq draw sL u c k = some (.done (if k.regs.vl.toNat = 0 then u else
    u.writeSp c ((spAt k.regs (u.window c) aD (4 * k.regs.vl.toNat * 2 ^ wq)).getD 0)
      (drawBytes (k.regs.draws c draw (k.regs.getS sL).toNat) k.regs.vl.toNat (2 ^ wq)))) := by
  unfold runRnDraw drawWords
  dsimp only
  split
  · rfl
  · rfl

/-- Settles O16: by whether VL is 0, with the tiles that have come. -/
theorem reductionsDrawsAndRecords : Obligations.ReductionsDrawsAndRecords := by
  intro s t u c n k
  refine ⟨fun f h => ⟨fun hv => ?_, fun hv ht => ?_, fun hv ht hd hr => ?_⟩, fun aD wq draw sL h => ?_, fun f h => ?_,
    fun r g code sS h => congrArg _ (h.done rfl)⟩
  · exact Starts.done rfl h (by simp [runVxRed, hv]) (by simp)
  · exact Starts.done rfl h (by simp [runVxRed, mt toNat_vl_eq_zero.1 hv, ht]) (by simp)
  · exact Starts.done rfl h (runVxRed_tiles hv ht hd hr) (by simp)
  · exact Starts.done rfl h runRnDraw_done (by simp)
  · exact ⟨_, rfl, Starts.done rfl h rfl (by simp)⟩

end Sys2Proof.Machine

/-! Attention (08 R160 to R190). -/

namespace Sys2Proof.Machine

variable {s t u : State} {n : Nat} {k : Issued} {c : Fin 264}

/-- Settles O17: the operands are read in order and none of them stops the run. -/
theorem attentionScoresAndValues : Obligations.AttentionScoresAndValues := by
  intro s t u c n k
  refine ⟨fun f s1 s2 te tf h he hu h1 h2 hq hk hb ht hr => ?_, fun f s1 tf h he hu h1 hv ht hm hr => ?_⟩
  · have hx : usesExpanders k.instr = true → (u.x c).expanderOpen k.id = true := by
      rw [h.instr]
      simpa [usesExpanders] using he
    refine Starts.done rfl h ?_ (by simp)
    change runAtQk f u c k = _
    unfold runAtQk
    dsimp only
    rw [hu, if_neg (by simpa using hx), h1, h2, if_neg]
    simp only [Bool.or_eq_true, decide_eq_true_eq, Nat.not_lt.2 hq, Nat.not_lt.2 hk, hb, ht, Bool.not_true, Bool.false_eq_true, or_false, false_or]
    simpa [Option.isSome_iff_ne_none] using hr
  · have hx : usesExpanders k.instr = true → (u.x c).expanderOpen k.id = true := by
      rw [h.instr]
      simpa [usesExpanders] using he
    refine Starts.done rfl h ?_ (by simp)
    change runAtPv f u c k = _
    unfold runAtPv
    dsimp only
    rw [hu, if_neg (by simpa using hx), h1, if_neg]
    simp only [Bool.or_eq_true, decide_eq_true_eq, Nat.not_lt.2 hv, hm, ht, Bool.not_true, Bool.false_eq_true, or_false, false_or]
    simpa [Option.isSome_iff_ne_none] using hr

theorem runSmUpdate_done {f : AtSm} {s1 s2 s3 s4 : State} {te tf : LenEnt} {qp kp : List Nat}
    (hr : (u.x c).tilesReady (cdiv f.m 16) false = some (cdiv f.m 16))
    (h1 : ∀ K, withEntry u (u.who c k.regs) c k.regs f.aL.toNat (k.regs.getS f.sE.toNat).toNat K = K s1 te)
    (h2 : ∀ K, withEntry s1 (u.who c k.regs) c k.regs f.aL.toNat (k.regs.getS f.sF.toNat).toNat K = K s2 tf)
    (hb : blockIn te (k.regs.getS f.sT.toNat).toNat f.m f.grp = true) (ht : tileIn tf (k.regs.getS f.sJ.toNat).toNat = true)
    (h3 : ∀ K, withPositions s2 (u.who c k.regs) c k.regs f.aT.toNat (k.regs.getS f.sT.toNat).toNat ((f.m - 1) / f.grp + 1) K = K s3 qp)
    (h4 : ∀ K, withPositions s3 (u.who c k.regs) c k.regs f.aT.toNat (tf.start + 64 * (k.regs.getS f.sJ.toNat).toNat)
      (tileRows tf (k.regs.getS f.sJ.toNat).toNat) K = K s4 kp) :
    runSmUpdate f u c k = some (.done (
      let b := s4.readSp (u.who c k.regs) c ((spAt k.regs (s4.window c) f.aS.toNat (16 * f.m)).getD 0) (16 * f.m)
      smWrite (b.1.onX c (fun x => x.dropTiles (cdiv f.m 16))) c f k.regs (smRows f k.regs te tf (tileRows tf (k.regs.getS f.sJ.toNat).toNat)
        qp kp (rowStates b.2) ((b.1.x c).tileVals (cdiv f.m 16)) (min f.m (16 * cdiv f.m 16))))) := by
  simp only [runSmUpdate, hr, withSmBlock]
  rw [h1, h2, if_neg (by simp [hb, ht]), h3, h4, if_pos trivial]

theorem runSmFinal_done {f : AtSm} (hr : (u.x c).tilesReady (cdiv f.m 16 * cdiv f.dim 64) false = some (cdiv f.m 16 * cdiv f.dim 64)) :
    runSmFinal f u c k = some (.done (
      let q := cdiv f.m 16 * cdiv f.dim 64
      let b := u.readSp (u.who c k.regs) c ((spAt k.regs (u.window c) f.aS.toNat (16 * f.m)).getD 0) (16 * f.m)
      let v := b.1.onX c (fun x => x.dropTiles q)
      let os := (List.range f.m).map (oRow ((b.1.x c).tileVals q) f.m f.dim)
      if f.om then v.writeSp c ((spAt k.regs (v.window c) f.aO.toNat (4 * f.m * f.dim)).getD 0) (bytesOf os.flatten)
      else finWrite v c k.regs f.aO.toNat f.aX.toNat f.ofmt.toNat f.rnd.toNat f.sat f.lse f.m f.dim
        (((rowStates b.2).zip os).map (fun p => finRow p.1 p.2)))) := by
  simp only [runSmFinal, hr, lt_irrefl, if_false]
  split
  · rfl
  · rfl

/-- Settles O18: the operands are read in order and none of them stops the run. -/
theorem attentionSoftmax : Obligations.AttentionSoftmax := by
  intro s t u c n k f
  refine ⟨fun h => ?_, fun s1 s2 s3 s4 te tf qp kp h hr h1 h2 hb ht h3 h4 => ?_, fun h hr => ?_, fun h => ?_⟩
  · exact Starts.done rfl h rfl (by simp)
  · exact Starts.done rfl h (runSmUpdate_done hr h1 h2 hb ht h3 h4) (by simp)
  · exact Starts.done rfl h (runSmFinal_done hr) (by simp)
  · exact Starts.done rfl h rfl (by simp)

/-- The decode whose pages end no group writes its rows and asks the wells of its stacks. -/
theorem decBody_done {w : Who} {f : AtDec} {list : List Byte} {pos : List Nat}
    (hd : let es := (List.range (f.np k.regs)).map (fun i => (i, leNat ((list.drop (8 * i)).take 8)))
      let home := s.wellAt w.part (pteAddr ((es.headD (0, 0)).2)) (4 * regionOf c)
      let q := readQuery (if AtDec.ergs f es then s.onX c (fun x => { x with decs := k.id :: x.decs }) else s) w n c k f (home / 16)
      (decPages f w n c k.regs q.els (pos ++ List.replicate f.q 0) es
        { s := q.s, parts := none, flags := Flags.none, wide := 0, work := 0, wells := [], pins := pinsOf (home / 16) q.pins,
          stop := if q.stop then some 6 else none }).stop = none) :
    decBody s w n c k f list pos = .done (
      let es := (List.range (f.np k.regs)).map (fun i => (i, leNat ((list.drop (8 * i)).take 8)))
      let home := s.wellAt w.part (pteAddr ((es.headD (0, 0)).2)) (4 * regionOf c)
      let q := readQuery (if AtDec.ergs f es then s.onX c (fun x => { x with decs := k.id :: x.decs }) else s) w n c k f (home / 16)
      let d := decPages f w n c k.regs q.els (pos ++ List.replicate f.q 0) es
        { s := q.s, parts := none, flags := Flags.none, wide := 0, work := 0, wells := [], pins := pinsOf (home / 16) q.pins,
          stop := if q.stop then some 6 else none }
      let ps := d.parts.getD (List.replicate f.q { st := RowSt.init, o := List.replicate f.dim 0 })
      let wells := joinSet d.wells [home]
      (((decWrite d.s c k.regs f (fillFresh list pos f.dim ps)).addFlags c d.flags).countWork w 14 d.wide).countWork
        w 9 d.work |>.askAll c k.id w.part wells d.pins (joinSet [] (wells.map (fun x => x / 16)))) := by
  simp only at hd
  simp only [decBody, hd]

/-- Settles O19: the page list is read and no page ends the group; what remains is OUT_MODE's case. -/
theorem decodeAttention : Obligations.DecodeAttention := by
  intro s t u s1 s2 c n k f list pos h
  refine fun h1 h2 hw hd => Starts.done rfl h (v := _) ?_ (by simp)
  change runAtDec f u c k = _
  simp only [runAtDec, hw, baseOf]
  rw [h1, h2]
  exact congrArg some (decBody_done hd)

end Sys2Proof.Machine

/-! The page unit and its directory (09 R192 to R210, 12 R294). -/

namespace Sys2Proof.Machine

variable {s t u : State} {n : Nat} {k : Issued} {c : Fin 264} {aA aR aO : BitVec 4} {o : PageOps} {h b : List Byte}

/-- The work of an engine instruction that starts, done or aborted, is what its command answers. -/
theorem Starts.settles {i : Instr} {F : Form} (hF : formOf i = some F) (h : Starts s i n t k u) {w : Eff}
    (hr : F.run u F.core k = some w) (hc : F.eng ≠ .coll) : exec i s = .next (w.settle n) := by
  obtain ⟨G, x, hG, hi, hm, rfl⟩ := h
  rw [hF] at hG
  cases hG
  rw [exec_formOf hF, hi.starts F.run hm hr]
  simp [Form.after, hc]

theorem pageRun_eq {out : Bool} (ho : pageOps k.regs (u.window c) aA aR aO out = some o) (run : State → Nat → Who → PageOps → Eff) :
    pageRun aA aR aO out run u c k = some (run u c (u.who c k.regs) o) := by
  simp only [pageRun, ho]

/-- An argument block that reads whole and whose head is well formed is handed on. -/
theorem withBlock_read {m : Nat} (hb : BlockRead u c o m h b) {size : List Byte → Option Nat} (hm : size h = some m)
    {w : Who} (run : List Byte → List Byte → Eff) : withBlock u w c o size run = run h b := by
  obtain ⟨rfl, rfl, hi, h1, h2⟩ := hb
  simp only [withBlock, withSpCtl, h1, h2, hm, Bool.false_eq_true, if_false, Nat.not_lt.2 hi]

theorem State.pageDone_eq (s : State) (c : Nat) (o : PageOps) (status count hash : Nat) (out : List Nat) :
    s.pageDone c o status count hash out = .done (s.pageEnd c o status count hash out) := rfl

/-- An ALLOC whose block is well formed and that no poisoned control read stopped. -/
theorem pageAlloc_done {w : Who} (hb : BlockRead u c o 0 h b) (h1 : 1 ≤ leNat (h.take 2)) (h2 : leNat (h.take 2) ≤ 64)
    (h3 : 1 ≤ (h.getD 2 0).toNat) (h4 : (h.getD 2 0).toNat ≤ 32) (h5 : kvFormat (h.getD 3 0).toNat = true)
    (h6 : kvFormat (h.getD 4 0).toNat = true) (h7 : (h.getD 5 0).toNat < 16 ∨ (h.getD 5 0).toNat = 0xFF)
    (hz : (h.drop 6).all (fun x => x = 0) = true) (hl : 8 * leNat (h.take 2) ≤ o.outLen)
    {r : Found (List Nat × Nat)}
    (hq : u.withReclaim w (fun q => (q.allocMany w.part (h.getD 2 0).toNat (h.getD 5 0).toNat (u.part w.part).lastAlloc (countOf h)).map
      (fun x => (x.1, x.2))) (u.dirEntries w.part).length = r) (hr : r.stop = false) :
    pageAlloc u c w o = .done (match r.val with
      | none => r.s.pageEnd c o 2 0 0 []
      | some (vas, j) => (r.s.onPart w.part (fun q => { q with lastAlloc := j })).pageEnd c o 0 (leNat (h.take 2)) 0
          (vas.map (mkPte (h.getD 3 0).toNat (h.getD 4 0).toNat (h.getD 2 0).toNat))) := by
  refine (withBlock_read hb (if_pos ?_) _).trans ?_
  · simp only [countOf, zeroBytes, h1, h2, h3, h4, h5, h6, hz, hl, decide_true, Bool.and_true, Bool.true_and]
    simpa using h7
  · obtain ⟨v, val, stop⟩ := r
    simp only [hq]
    subst hr
    cases val <;> rfl

/-- A share count that FREE or FORK changes: of every listed page, or of none. -/
theorem pageCount_settle (hb : BlockRead u c o (8 * leNat (h.take 2)) h b) (h1 : 1 ≤ leNat (h.take 2)) (h2 : leNat (h.take 2) ≤ 64)
    (hz : (h.drop 2).all (fun x => x = 0) = true) (fork : Bool) (w : Who) (n : Nat) :
    (pageCount fork u c w o).settle n =
      (match (if fork then u.forkList w.part (words8 b) else u.freeList w.part (words8 b)) with
        | .ok v => v.pageEnd c o 0 (leNat (h.take 2)) 0 []
        | .error (.status e) => u.pageEnd c o e 0 0 []
        | .error (.stop a) => (u.poisonRead w a).abortRun n 5) := by
  have hm : (if 1 ≤ countOf h && countOf h ≤ 64 && zeroBytes (h.drop 2) then some (8 * countOf h) else none) = some (8 * leNat (h.take 2)) :=
    if_pos (by simp only [countOf, zeroBytes, h1, h2, hz, decide_true, Bool.and_self])
  rw [pageCount, withBlock_read hb hm]
  cases (if fork then u.forkList w.part (words8 b) else u.freeList w.part (words8 b)) with
  | ok v => rfl
  | error e => cases e <;> rfl

/-- Settles O20: the argument block is read by `withBlock_read`, and each operation settles what its outcome says. -/
theorem pageAllocationAndCounts : Obligations.PageAllocationAndCounts := by
  intro s t u c n k aA aR aO o h b
  refine ⟨fun hs ho hb h1 h2 h3 h4 h5 h6 h7 hz hl hr => ?_, fun ho hb h1 h2 hz => ⟨fun hs hd => ?_, fun hs => ?_⟩,
    fun hs ho hb hz hl hv hw hi => ⟨fun fr q hp hq hc => ?_, fun fr hp hf => ?_⟩⟩
  · exact Starts.done rfl hs ((pageRun_eq ho _).trans (congrArg some (pageAlloc_done hb h1 h2 h3 h4 h5 h6 h7 hz hl rfl hr))) (by simp)
  · refine (Starts.settles rfl hs ((if_pos hd).trans (pageRun_eq ho _)) (by simp)).trans ?_
    rw [pageCount_settle hb h1 h2 hz]
    rfl
  · refine (Starts.settles rfl hs (pageRun_eq ho _) (by simp)).trans ?_
    rw [pageCount_settle hb h1 h2 hz]
    rfl
  · refine Starts.done rfl hs ((pageRun_eq ho _).trans (congrArg some ?_)) (by simp)
    refine (withBlock_read hb (if_pos (by simpa [zeroBytes, hl] using hz)) _).trans ?_
    refine (if_neg (by simp [hw])).trans ((if_neg (by simp [hi])).trans ?_)
    simp only [hp]
    exact if_pos (by simpa [hq] using hc)
  · refine Starts.done rfl hs ((pageRun_eq ho _).trans (congrArg some ?_)) (by simp)
    refine (withBlock_read hb (if_pos (by simpa [zeroBytes, hl] using hz)) _).trans ?_
    refine (if_neg (by simp [hw])).trans ((if_neg (by simp [hi])).trans ?_)
    simp only [hp]
    rw [if_neg (by simp [hf])]
    rfl

/-- A LOOKUP whose block is well formed and whose walk no poison stopped. -/
theorem pageLookup_done {w : Who} {x : Walk} (hb : BlockRead u c o (256 * leNat (h.take 2)) h b) (h1 : 1 ≤ leNat (h.take 2))
    (h2 : leNat (h.take 2) ≤ 256) (h3 : 1 ≤ leNat ((h.drop 2).take 2)) (h4 : leNat ((h.drop 2).take 2) ≤ 512)
    (hz : (h.drop 16).all (fun x => x = 0) = true) (hl : 8 * leNat ((h.drop 2).take 2) * leNat (h.take 2) ≤ o.outLen)
    (hx : u.lookupAll w (leNat ((h.drop 4).take 4)) (leNat ((h.drop 2).take 2)) (leNat ((h.drop 8).take 8))
      ((chunks 256 (countOf h) b).map words4) = x) (hs : x.stop = false) :
    pageLookup u c w o = .done (((x.s.countPart w.part 3 (leNat (h.take 2))).countPart w.part 4 x.hits).pageEnd c o x.status x.hits x.hash
      x.pages) := by
  refine (withBlock_read hb (if_pos ?_) _).trans ?_
  · simp only [countOf, zeroBytes, h1, h2, h3, h4, hz, hl, decide_true, Bool.and_true]
  · simp only [hx]
    exact if_neg (by simp [hs])

/-- The chunk that an argument block of INSERT names. -/
def insertedChunk (h b : List Byte) : Chunk :=
  { parent := leNat ((h.drop 8).take 8), model := leNat ((h.drop 0x10).take 4), nl := leNat ((h.drop 0x14).take 2)
    tokens := words4 (b.take 256) }

/-- An INSERT whose block is well formed and that no poisoned control read stopped. -/
theorem pageInsert_settle {w : Who} {x : Inserted × Bool} (hb : BlockRead u c o (256 + 8 * leNat ((h.drop 0x14).take 2)) h b)
    (h1 : 1 ≤ leNat ((h.drop 0x14).take 2)) (h2 : leNat ((h.drop 0x14).take 2) ≤ 512) (hz : (h.drop 0x16).all (fun x => x = 0) = true)
    (hx : u.insertChunk w (insertedChunk h b) (words8 (b.drop 256)) = x) (hs : x.2 = false) (n : Nat) :
    (pageInsert u c w o).settle n = (match x.1.2 with
      | .ok hash => x.1.1.pageEnd c o 0 (leNat ((h.drop 0x14).take 2)) hash []
      | .error (.status e) => x.1.1.pageEnd c o e 0 0 []
      | .error (.stop a) => (x.1.1.poisonRead w a).abortRun n 5) := by
  refine (congrArg (Eff.settle n) (withBlock_read hb (if_pos ?_) _)).trans ?_
  · simp only [zeroBytes, h1, h2, hz, decide_true, Bool.and_true]
  · obtain ⟨⟨v, r⟩, stop⟩ := x
    unfold insertedChunk at hx
    simp only [hx]
    cases hs
    cases r with
    | ok hash => rfl
    | error e => cases e <;> rfl

/-- Settles O21: the argument block is read by `withBlock_read`, and each operation settles what its outcome says. -/
theorem prefixDirectoryOperations : Obligations.PrefixDirectoryOperations := by
  intro s t u c n k aA aR aO o h b
  refine ⟨fun hs ho hb h1 h2 h3 h4 hz hl hx => ?_, fun hs hd ho hb h1 h2 hz hx => ?_⟩
  · exact Starts.done rfl hs ((pageRun_eq ho _).trans (congrArg some (pageLookup_done hb h1 h2 h3 h4 hz hl rfl hx))) (by simp)
  · refine (Starts.settles rfl hs ((if_pos hd).trans (pageRun_eq ho _)) (by simp)).trans ?_
    rw [pageInsert_settle hb h1 h2 hz rfl hx]
    rfl

end Sys2Proof.Machine

/-! The DMA engine: movements, expansion, packing, atomics and decoding tables (13 R299 to R310, 07 R160 to R166). -/

namespace Sys2Proof.Machine

variable {s t u : State} {n : Nat} {k : Issued} {c : Fin 264}

/-- Settles O22: the rows are moved when neither reads nor writes meet a poisoned entry. -/
theorem movements : Obligations.Movements := by
  intro s t u s1 s2 c n k rows
  refine ⟨fun f h hr hw => ?_, fun f h hr hw => ?_, fun f h hg => ?_⟩
  · exact Starts.done rfl h (congrArg some ((hr _).trans (hw _))) (by simp)
  · exact Starts.done rfl h (congrArg some ((hr _).trans (hw _))) (by simp)
  · exact Starts.done rfl h (congrArg some hg) (by simp)

theorem runDmExpand_completes {f : DmExpand} (hx : (u.x c).expanderOpen k.id = true) : ∃ v, runDmExpand f u c k = some (.done v) :=
  ⟨_, if_neg (by simp [hx])⟩

theorem runDmPack_completes {f : DmPack} (hx : (u.x c).expanderOpen k.id = true)
    (hp : packable (((u.x c).expander 0).slot f.slot.toNat).image = true) : ∃ v, runDmPack f u c k = some (.done v) :=
  ⟨_, (if_neg (by simp [hx])).trans (if_neg (by simp [hp]))⟩

/-- Every expander whose state is read off decides what the change makes of it. -/
theorem onExpander_congr {x : Exec} {i : Nat} {f g : Expander → Expander} (h : f (x.expander i) = g (x.expander i)) :
    x.onExpander i f = x.onExpander i g := by
  rw [Exec.onExpander, Exec.onExpander, h]

theorem onX_congr {c : Nat} {f g : Exec → Exec} (h : f (s.x c) = g (s.x c)) : s.onX c f = s.onX c g := by
  rw [State.onX, State.onX, h]

theorem bankSwitch_of_load {e : Expander} {l : TblLoad} (hl : e.load = some l) (hh : l.held = false) :
    e.bankSwitch = { e.onSlot l.slot (fun p => { p with cur := !p.cur, gen := (p.gen + 1) % 65536 }) with load := none } := by
  simp only [Expander.bankSwitch, hl, hh]
  rfl

theorem loadRelease_of_held {e : Expander} {l : TblLoad} (hl : e.load = some l) (hh : l.held = true) (hp : e.otherPinned l.slot = false) :
    e.loadRelease = { e.onSlot l.slot (fun p => p.writeOther l.image) with load := some { l with held := false } } := by
  simp only [Expander.loadRelease, hl, hh, hp]
  rfl

/-- Settles O23: one case for each instruction and event, under what lets it act. -/
theorem expansionPackingAtomicsAndTables : Obligations.ExpansionPackingAtomicsAndTables := by
  refine ⟨fun s t u c n k => ⟨fun f h hx => ?_, fun f h hx hp => ?_, fun f h hs => ?_⟩,
    fun s t u s1 c n k bs => ⟨fun aS sO hv hc => ⟨fun slot h hx => ?_, fun slot st h hp => ?_⟩,
      fun x l hl => ⟨fun hh => ?_, fun hh hp => ?_⟩, fun x b e hn hc => ?_⟩⟩
  · obtain ⟨v, hv⟩ := runDmExpand_completes (f := f) hx
    exact ⟨v, hv, Starts.done rfl h hv (by simp)⟩
  · obtain ⟨v, hv⟩ := runDmPack_completes (f := f) hx hp
    exact ⟨v, hv, Starts.done rfl h hv (by simp)⟩
  · exact Starts.done rfl h (if_neg (Bool.eq_false_iff.1 hs)) (by simp)
  · refine Starts.done rfl h ((if_neg (by simp [hx])).trans (congrArg some ((hc _).trans (if_neg (by simp [hv]))))) (by simp)
  · refine Starts.done rfl h ((if_neg (Bool.eq_false_iff.1 hp)).trans (congrArg some ((hc _).trans (if_neg (by simp [hv]))))) (by simp)
  · exact congrArg _ (onX_congr (onExpander_congr (bankSwitch_of_load hl hh)))
  · exact congrArg _ (onX_congr (onExpander_congr (loadRelease_of_held hl hh hp)))
  · change Host.Outcome.next _ = _
    simp only [hn, hc, blockLeaves]
    cases b.out with
    | vals _ _ => rfl
    | bad cause sub =>
      dsimp only
      split
      · rfl
      · rfl

end Sys2Proof.Machine

/-! The dispatcher: doorbells, records, selection, start, save, restore and deadlines (15 R354 to R370, 17 R423 to R426). -/

namespace Sys2Proof.Machine

variable {s t u : State} {n : Nat}

/-! ### Doorbells and records -/

theorem doorbell_owned {fn i : Nat} (hr : s.rings fn n = true) (hi : i < 2 ^ (s.ctx n).sqLog2) (k : Ctx → Ctx) :
    s.doorbell fn n i k = s.onCtx n k := by
  simp [State.doorbell, hr, Nat.not_le.2 hi]

theorem doorbell_foreign {fn i : Nat} (hr : s.rings fn n = false) (k : Ctx → Ctx) :
    s.doorbell fn n i k = s.violate fn n fn .droppedDoorbell (doorbellOff fn) := by
  simp [State.doorbell, hr]

theorem doorbell_beyond {fn i : Nat} (hr : s.rings fn n = true) (hi : 2 ^ (s.ctx n).sqLog2 ≤ i) (k : Ctx → Ctx) :
    s.doorbell fn n i k = s.writeDropped (doorbellOff fn) := by
  simp [State.doorbell, hr, hi]

/-- The dispatcher has taken the next record of the ring. -/
def State.takesRec (s : State) (n : Nat) : State := (s.turnOver n).onCtx n Ctx.fetchRec

theorem acceptRec_accepts {op : Nat} {r : SubRec} (hm : s.mayAccept n = true) (hu : r.unread = false) (hf : recFail op n r = none)
    (k : State → State) : acceptRec s n op r k = k (s.takesRec n) := by
  simp [acceptRec, hm, hu, hf, State.takesRec]

theorem acceptRec_range {op off : Nat} {r : SubRec} (hm : s.mayAccept n = true) (hu : r.unread = false)
    (hf : recFail op n r = some off) (k : State → State) : acceptRec s n op r k = (s.takesRec n).post n r 3 off 0 := by
  simp [acceptRec, hm, hu, hf, State.takesRec]

theorem acceptRec_unread {op : Nat} {r : SubRec} (hm : s.mayAccept n = true) (hu : r.unread = true) (k : State → State) :
    acceptRec s n op r k = (s.takesRec n).post n r 3 0xFFFFFFFF 0 := by
  simp [acceptRec, hm, hu, State.takesRec]

theorem whenReady_of_ready (hr : s.dev.st = .ready) (k : State → State) : s.whenReady k = k s := by
  simp [State.whenReady, hr]

theorem doorbellOff_fin (fn : Fin 256) : doorbellOff fn = if fn = 0 then 0x1040 else 0x1000 := by
  simp only [doorbellOff, Fin.ext_iff]
  rfl

/-- Settles O29: doorbells by owner and index; a record by what `accept` makes of its fields. -/
theorem doorbellsAndSubmissionRecords : Obligations.DoorbellsAndSubmissionRecords := by
  refine ⟨fun s fn n i hr => ⟨fun ho hi => ⟨?_, ?_⟩, fun ho => ⟨?_, ?_⟩, fun ho hi => ?_⟩,
    fun s n r hm => ⟨fun hu => ⟨fun hf => ?_, fun hf => ?_, fun hf => ?_, fun hf => ?_, fun hf => ?_, fun off hf => ?_⟩, fun hu => ⟨?_, ?_⟩⟩⟩
  · exact congrArg _ ((whenReady_of_ready hr _).trans (doorbell_owned ho hi _))
  · exact congrArg _ ((whenReady_of_ready hr _).trans (doorbell_owned ho hi _))
  · rw [← doorbellOff_fin]
    exact congrArg _ ((whenReady_of_ready hr _).trans (doorbell_foreign ho _))
  · rw [← doorbellOff_fin]
    exact congrArg _ ((whenReady_of_ready hr _).trans (doorbell_foreign ho _))
  · rw [← doorbellOff_fin]
    exact congrArg _ ((whenReady_of_ready hr _).trans (doorbell_beyond ho hi _))
  · exact congrArg _ (acceptRec_accepts hm hu hf _)
  · exact congrArg _ (acceptRec_accepts hm hu hf _)
  · exact congrArg _ (acceptRec_accepts hm hu hf _)
  · exact congrArg _ (acceptRec_accepts hm hu hf _)
  · exact congrArg _ (acceptRec_accepts hm hu hf _)
  · exact congrArg _ (acceptRec_range hm hu hf _)
  · exact congrArg _ (acceptRec_unread hm hu _)
  · exact congrArg _ (acceptRec_unread hm hu _)

/-! ### Selection, start, save, restore and deadlines -/

theorem missAll_eq (s : State) (n : Nat) (gs : List Nat) :
    s.missAll n gs = gs.foldl (fun t g => ((t.onRun n (fun r => r.miss g)).count n 10 1).ctxEvents n 0x07 g (t.ctxCores n)) s := by
  induction gs generalizing s with
  | nil => rfl
  | cons g gs ih =>
    rw [State.missAll, ih]
    rfl

theorem lateAll_eq (s : State) (n : Nat) (gs : List Nat) :
    s.lateAll n gs = gs.foldl (fun t g => (t.onRun n (fun r => r.miss g)).count n 11 1) s := by
  induction gs generalizing s with
  | nil => rfl
  | cons g gs ih =>
    rw [State.lateAll, ih]
    rfl

/-- The state with the expired explicit deadlines of the RUNs that wait behind other records noted. -/
def State.notesWaiting (s : State) (n : Nat) : State := s.missAccs n 10 (s.dueAccs n false)

theorem deadlineExpiry_none (hd : (s.notesWaiting n).dueAll true n false = []) : s.deadlineExpiry n = s.notesWaiting n := by
  unfold State.notesWaiting at hd ⊢
  simp [State.deadlineExpiry, hd]

theorem deadlineExpiry_due (hd : (s.notesWaiting n).dueAll true n false ≠ []) : s.deadlineExpiry n =
    (let m := s.notesWaiting n
     if (m.ctx n).policy = 1 then (m.waitsDue n).abortRun n 2
     else (((m.dueAll true n false).foldl (fun t g => ((t.onRun n (fun r => r.miss g)).count n 10 1).ctxEvents n 0x07 g (t.ctxCores n)) m).status
       n 1).restartGroup n) := by
  unfold State.notesWaiting at hd ⊢
  simp only [State.deadlineExpiry, List.isEmpty_iff, hd, if_false, ← missAll_eq]
  split
  · rfl
  · next hp => simp only [State.noteDue, List.isEmpty_iff, hd, if_false, hp]

/-- Nothing keeps the RUN `r` of context `n` from starting, and its header can be read. -/
structure CanStart (s : State) (n : Nat) (r : Run) : Prop where
  run      : (s.ctx n).run = some r
  ready    : (s.ctx n).st = .ready
  selected : (s.ctx n).selected = true
  cores    : s.startable n = true
  free     : (s.ctxCores n).all (fun c => (s.core c).ctx.isNone) = true
  due      : s.overdue n = false
  unbarred : s.barred n = false
  read     : (s.readHeaders n r.sub.op0.toNat (s.ctxCores n)).stop = false

/-- The header bytes at `base`, in the line that holds them. -/
def headerBytes (h : Got) (base : Nat) : List Byte := plain ((h.bs.drop (base % 256)).take 64)

theorem startRun_fails {r : Run} (h : CanStart s n r) {code : Nat} (h5 : code ≠ 5)
    (hf : (s.readHeaders n r.sub.op0.toNat (s.ctxCores n)).s.headerFails (s.ctx n).part r.sub.op0.toNat
      (headerBytes (s.readHeaders n r.sub.op0.toNat (s.ctxCores n)) r.sub.op0.toNat) = some code) :
    s.startRun n = (s.readHeaders n r.sub.op0.toNat (s.ctxCores n)).s.failRun n code := by
  have hn : (s.ctxCores n).any (fun c => (s.core c).ctx.isSome) = false := by simpa using h.free
  unfold headerBytes at hf
  simp only [State.startRun, h.run]
  rw [if_neg (by simp [h.ready, h.selected, h.cores, hn, h.due, h.unbarred]), if_neg (Bool.eq_false_iff.1 h.read), hf]
  split
  · next e => exact absurd (Option.some.inj e) h5
  · next e => rw [Option.some.inj e]
  · next e => cases e

theorem startRun_starts {r : Run} (h : CanStart s n r)
    (hf : (s.readHeaders n r.sub.op0.toNat (s.ctxCores n)).s.headerFails (s.ctx n).part r.sub.op0.toNat
      (headerBytes (s.readHeaders n r.sub.op0.toNat (s.ctxCores n)) r.sub.op0.toNat) = none) :
    s.startRun n = (
      let cs := s.ctxCores n
      let q := s.readHeaders n r.sub.op0.toNat cs
      let u := Nuo.of (headerBytes q r.sub.op0.toNat)
      let v := q.s.onCtx n (fun x => { x with
        st := .running, run := some (r.begin r.sub.op0.toNat u cs.length q.s.time), progTick := q.s.time })
      (v.startCores n r.sub u.entry cs.length cs).wakeStacks (v.mappedStacks (s.ctx n).part)) := by
  have hn : (s.ctxCores n).any (fun c => (s.core c).ctx.isSome) = false := by simpa using h.free
  unfold headerBytes at hf
  simp only [State.startRun, h.run]
  rw [if_neg (by simp [h.ready, h.selected, h.cores, hn, h.due, h.unbarred]), if_neg (Bool.eq_false_iff.1 h.read), hf]
  rfl

/-- Code 5 comes of a poisoned translation entry alone. -/
theorem headerFails_ne_poison {p base : Nat} {bs : List Byte} (h : s.imageStop p base (Nuo.of bs) = none) :
    s.headerFails p base bs ≠ some 5 := by
  unfold State.headerFails
  split_ifs <;> simp_all

/-- Settles O30: each command under the conditions that make its checks hold, in the order in which it takes them. -/
theorem dispatchingAndDeadlines : Obligations.DispatchingAndDeadlines := by
  refine ⟨⟨fun s p => rfl, fun s n r hr hs hl hb hc ho hb' hh hi => ?_, fun s n hs he => ?_, fun s n hs ht => ?_⟩,
    fun s n => ⟨fun hd => ?_, fun hd => ?_, ?_⟩⟩
  · have h : CanStart s n r := ⟨hr, hs, hl, hb, hc, ho, hb', hh⟩
    split
    · next code hf =>
      refine congrArg _ (startRun_fails h ?_ hf)
      rintro rfl
      exact headerFails_ne_poison hi hf
    · next hf => exact congrArg _ (startRun_starts h hf)
  · change Host.Outcome.next (s.endSave n) = _
    rw [State.endSave, if_neg (by simp [hs, he])]
  · change Host.Outcome.next (s.endRestore n) = _
    rw [State.endRestore, if_neg (by simp [hs, ht])]
  · exact congrArg _ (deadlineExpiry_due hd)
  · exact congrArg _ (deadlineExpiry_none hd)
  · change Host.Outcome.next (State.lateAll _ _ _) = _
    rw [lateAll_eq]
    rfl

end Sys2Proof.Machine

/-! The end of a partition, zeroing, scrubs and job records (15 R351 to R353, 10 R243, 16 R379). -/

namespace Sys2Proof.Machine

variable {s t u : State} {n : Nat}

theorem State.ctx_scrubbed (s : State) (c : Nat) : ((s.onCore c PCore.scrubbed).core c).ctx = (s.core c).ctx := by
  rw [State.core_onCore_same]
  rfl

/-- Settles O34: each event is unfolded once, under what lets it act. -/
theorem releaseZeroingScrubAndJobs : Obligations.ReleaseZeroingScrubAndJobs := by
  intro s p st c
  refine ⟨fun hr ho => ?_, fun hz => ?_, fun hc => ?_, fun hr => ⟨fun j hj => ?_, fun hj => ?_, ?_⟩⟩
  · exact congrArg _ (if_pos (by simp [hr, ho]))
  · exact congrArg _ (if_pos hz)
  · refine congrArg _ ((if_neg (by simp [hc])).trans ?_)
    simp only [State.ctx_scrubbed]
    cases (s.core c).ctx with
    | none => rfl
    | some n => rfl
  · refine congrArg _ ((whenReady_of_ready hr _).trans ?_)
    rw [jobApply, hj]
    rfl
  · refine congrArg _ ((whenReady_of_ready hr _).trans ?_)
    rw [jobApply, hj]
    rfl
  · exact congrArg _ (whenReady_of_ready hr _)

/-! ### Accesses of the host (17 R401 to R416) -/

theorem execRegisterWrite_answered {fn : Fin 256} {off : Nat} (hr : s.dev.st = .ready ∨ (fn = 0 ∧ earlyBlock off = true)) (size : Nat)
    (v : W64) (b : Bool) : execRegisterWrite fn off size v b s = .next (
      if b then s.poisonedTlp.writeDropped off
      else if size ≠ 8 || off % 8 ≠ 0 then s.badAccess fn off
      else if fn.val = 0 then pfWrite s bySupervisor off v
      else vfWrite s fn off v) := by
  refine congrArg _ (if_neg ?_)
  rcases hr with hr | ⟨rfl, he⟩
  · simp [hr]
  · simp [he]

theorem execRegisterWrite_unanswered {fn : Fin 256} {off : Nat} (hr : s.dev.st ≠ .ready) (he : fn ≠ 0 ∨ earlyBlock off = false) (size : Nat)
    (v : W64) (b : Bool) : execRegisterWrite fn off size v b s = .next s := by
  refine congrArg _ (if_pos ?_)
  rcases he with he | he
  · simp [hr, Fin.val_ne_zero_iff.2 he]
  · simp [hr, he]

theorem execBar2Write_clean {fn : Fin 256} {off : Nat} {data : List Byte} (hr : s.dev.st = .ready) (hd : inBar2 off data.length = true) :
    execBar2Write fn off data false s = .next (
      let w := s.writeVirt (hostWho fn) (s.winBase fn + off) (clean data)
      if w.stop then w.s.poisonedEntry (hostWho fn) (s.winBase fn + off) data.length else w.s) := by
  have hl : (clean data).length = data.length := by simp [clean]
  rw [execBar2Write, if_neg (by simp [hr, hd])]
  simp only [Bool.false_and, Bool.false_eq_true, if_false, hl]

theorem lnkModeWrite_eq (s : State) (port : Nat) (v : W64) : lnkModeWrite s port v = (
    let m := s.setPf (lnkCtrl port) (v &&& BitVec.ofNat 64 lnkMask)
    let keeps := m.obeysPfc port && fld (m.pfReg (lnkCtrl port)) 33 3 = fld (s.pfReg (lnkCtrl port)) 33 3
    ((m.onPort port (fun q => { q.remode (m.linkMode port ≠ 0) with paused := q.paused && keeps })).portEvent port 0 0x0D 0).cutAll) := rfl

/-- Settles O35: a write by its size, its block and the state of the device; a window access by its translation. -/
theorem hostAccesses : Obligations.HostAccesses := by
  intro s fn off v
  refine ⟨fun hr => ⟨fun ho hf => ?_, fun ho hf => ?_, fun size hs => ?_, fun size => ?_⟩, fun hr he size b => execRegisterWrite_unanswered hr he size v b,
    fun b => rfl, rfl, fun hr st k port => ⟨?_, ?_⟩, fun hr len data hl hd => ⟨?_, ?_⟩, fun hr len data b => ⟨?_, ?_⟩⟩
  · refine (execRegisterWrite_answered hr 8 v false).trans (congrArg _ ?_)
    simp [ho, hf]
  · refine (execRegisterWrite_answered hr 8 v false).trans (congrArg _ ?_)
    simp [ho, Fin.val_ne_zero_iff.2 hf]
  · refine (execRegisterWrite_answered hr size v false).trans (congrArg _ ((if_neg Bool.false_ne_true).trans (if_pos ?_)))
    simpa using hs
  · exact (execRegisterWrite_answered hr size v true).trans (congrArg _ (if_pos rfl))
  · exact congrArg _ (whenReady_of_ready hr _)
  · exact congrArg _ ((whenReady_of_ready hr _).trans (lnkModeWrite_eq s port v))
  · exact congrArg _ ((if_neg (by simp [hr])).trans (if_neg (by simp [hl])))
  · exact execBar2Write_clean hr hd
  · exact congrArg _ (if_pos hr)
  · exact congrArg _ (if_pos (by simp [hr]))

end Sys2Proof.Machine

/-! Resets of functions, timers, the mailbox, claims and the trace block (17 R405 to R430, 21 R497 to R500, 22 R512). -/

namespace Sys2Proof.Machine

variable {s t u : State} {n : Nat}

theorem funcResets_eq (s : State) (l : List Nat) : s.funcResets l = l.foldl funcReset s := by
  induction l generalizing s with
  | nil => rfl
  | cons p l ih =>
    rw [State.funcResets, ih]
    rfl

/-- PERST_N deasserted: the endpoint trains while PWR_GOOD is high. -/
def State.perstOut (s : State) : State :=
  { s with dev := { s.dev with perstN := true, linkTrain := s.dev.pwrGood, linkUp := s.dev.pwrGood } }

theorem execPerstNAssert_ready (hr : s.dev.st = .ready) :
    execPerstNAssert s = .next ((List.range 256).foldl funcReset s).endpointReset := by
  simp only [execPerstNAssert, hr, if_true, funcResets_eq]

theorem execPerstNAssert_of_not_ready (hr : s.dev.st ≠ .ready) : execPerstNAssert s = .next s.endpointReset := by
  simp only [execPerstNAssert, hr, if_false]

theorem restartCommand_outside (hp : s.dev.st ≠ .powerStop) : restartCommand s = s := if_pos hp

theorem restartCommand_begins (hp : s.dev.st = .powerStop) (hm : s.mayRestart = true) : restartCommand s = s.beginRecovery .restart := by
  simp only [restartCommand, hp, hm, ne_eq, not_true_eq_false, if_false, if_true]

theorem restartCommand_discarded (hp : s.dev.st = .powerStop) (hm : s.mayRestart = false) :
    restartCommand s = s.logIn .restartDiscarded := by
  simp only [restartCommand, hp, hm, ne_eq, not_true_eq_false, if_false, Bool.false_eq_true]

theorem execTimerFire_due {k : Fin 8} (ha : (s.pfReg (tmrOff k)).getLsbD 59 = true) (ht : 40 * fld (s.pfReg (tmrOff k)) 0 59 ≤ s.time) :
    execTimerFire k s = .next (
      let v := s.pfReg (tmrOff k)
      let a := s.setPf (tmrOff k) (setFld v 59 1 0)
      let b := if v.getLsbD 62 then a.pulse (k % 4) else a
      let c := if v.getLsbD 61 then b.ibi else b
      if v.getLsbD 60 then c.interrupt 6 else c) := by
  rw [execTimerFire, if_neg (by simp [ha, Nat.not_lt.2 ht])]

theorem mboxGo_accepts (hv : (s.pfReg 0x300000).getLsbD 0 = false) (h1 : 1 ≤ fld (s.pfReg 0x300000) 8 13)
    (h2 : fld (s.pfReg 0x300000) 8 13 ≤ 4096) :
    mboxGo s = ({ s with belv := { s.belv with badLen := false } } : State).setPf 0x300000 (setFld (s.pfReg 0x300000) 0 1 1) := by
  rw [mboxGo, if_neg (Bool.eq_false_iff.1 hv), if_neg (by simp; omega)]

theorem mboxGo_rejects (hv : (s.pfReg 0x300000).getLsbD 0 = false)
    (h : fld (s.pfReg 0x300000) 8 13 = 0 ∨ 4096 < fld (s.pfReg 0x300000) 8 13) :
    mboxGo s = { s with belv := { s.belv with badLen := true } } := by
  rw [mboxGo, if_neg (Bool.eq_false_iff.1 hv), if_pos (by simpa using h)]

/-- Settles O36: each command by the state of the device that lets it act. -/
theorem functionResetsTimersAndMailbox : Obligations.FunctionResetsTimersAndMailbox := by
  intro s fn k b
  refine ⟨rfl, execPerstNAssert_ready, execPerstNAssert_of_not_ready, ⟨fun hp => ⟨?_, ?_⟩, fun hp hm => ⟨?_, ?_⟩⟩, fun hp hm => ?_,
    execTimerFire_due, fun hv => ⟨fun h1 h2 => ?_, fun h => ?_⟩⟩
  · exact congrArg Host.Outcome.next (restartCommand_outside (s := s.perstOut) hp)
  · exact congrArg Host.Outcome.next (restartCommand_outside hp)
  · exact congrArg Host.Outcome.next (restartCommand_begins (s := s.perstOut) hp hm)
  · exact congrArg Host.Outcome.next (restartCommand_begins hp hm)
  · exact congrArg Host.Outcome.next (restartCommand_discarded hp hm)
  · exact congrArg Host.Outcome.next (mboxGo_accepts hv h1 h2)
  · exact congrArg Host.Outcome.next (mboxGo_rejects hv h)

/-! ### Claims and the trace block -/

/-- The registers that name the last claim and its result. -/
def State.claimLeaves (s : State) (res r : Nat) : State := { s with belv := { s.belv with claimId := res, claimRes := r } }

theorem claimCmd_beyond {res : Nat} (h : 12 < res) (claim : Bool) : claimCmd s res claim = s.claimLeaves res 2 := by
  cases claim <;> simp [claimCmd, State.claimFor, State.releaseFor, h, State.claimLeaves]

theorem claimCmd_free {res : Nat} (h : res ≤ 12) (hh : s.holder res = 0) :
    claimCmd s res true = (s.setHolder res bySupervisor).claimLeaves res 0 := by
  simp [claimCmd, State.claimFor, Nat.not_lt.2 h, hh, State.claimLeaves]

theorem claimCmd_held {res : Nat} (h : res ≤ 12) (hh : s.holder res ≠ 0) : claimCmd s res true = s.claimLeaves res 1 := by
  simp [claimCmd, State.claimFor, Nat.not_lt.2 h, hh, State.claimLeaves]

theorem claimCmd_release {res : Nat} (h : res ≤ 12) (hh : s.holder res = bySupervisor) :
    claimCmd s res false = (s.setHolder res 0).claimLeaves res 0 := by
  simp [claimCmd, State.releaseFor, Nat.not_lt.2 h, hh, State.claimLeaves]

theorem State.ringOf_setPf (s : State) (off : Nat) (v : W64) (ty unit : Nat) : (s.setPf off v).ringOf ty unit = s.ringOf ty unit := by
  unfold State.ringOf
  split <;> rfl

/-- Settles O37: a claim by its holder; the trace block's bits by the holder of the buffer. -/
theorem claimsAndTheTraceBlock : Obligations.ClaimsAndTheTraceBlock := by
  intro s res
  refine ⟨fun h => ⟨?_, ?_⟩, fun h hh => ?_, fun h hh => ?_, fun h hh => ?_, fun hr ty unit v => ⟨fun hh => ?_, fun hh => ?_, ?_, ?_⟩⟩
  · exact congrArg Host.Outcome.next (claimCmd_beyond h true)
  · exact congrArg Host.Outcome.next (claimCmd_beyond h false)
  · exact congrArg Host.Outcome.next (claimCmd_free h hh)
  · exact congrArg Host.Outcome.next (claimCmd_held h hh)
  · exact congrArg Host.Outcome.next (claimCmd_release h hh)
  · exact congrArg Host.Outcome.next ((whenReady_of_ready hr _).trans (if_pos (by simp [State.traceOn, hh])))
  · exact congrArg Host.Outcome.next ((whenReady_of_ready hr _).trans (if_neg (by simp [State.traceOn, hh])))
  · refine congrArg Host.Outcome.next ((whenReady_of_ready hr _).trans ?_)
    simp only [traceSnap, State.ringOf_setPf]
  · exact congrArg Host.Outcome.next (whenReady_of_ready hr _)

end Sys2Proof.Machine

/-! Core faults, fences, moves and self-tests (19 R465 to R470). -/

namespace Sys2Proof.Machine

variable {s t u : State} {c n : Nat}

/-- A fault of a core in service fences it and passes its logical core on. -/
theorem coreFault_active (ha : (s.core c).st = .active) (hf : s.faultTurn c = true) (cause : FaultCause) :
    s.coreFault c cause = (
      let done := s.doneOn c
      let t := ((((s.noteFault c).faultRecord c cause).countFence (s.core c).logical).onCore c (fun p => { p with ue := min (p.ue + 1) 65535 })).dropOutside c
      let u := (t.passOn c done !done).fenceEvents c (s.spareFor c) (s.core c).ctx
      (s.core c).ctx.elim u (fun n => u.fencedCtx n !done)) := by
  simp only [State.coreFault, hf, Bool.not_true, Bool.false_eq_true, if_false, ha]
  cases (s.core c).ctx with
  | none => simp only [Option.elim]
  | some n => simp only [Option.elim]

theorem coreFault_spare (ha : (s.core c).st = .spare) (hf : s.faultTurn c = true) (cause : FaultCause) :
    s.coreFault c cause = (((s.noteFault c).faultRecord c cause).onCore c (fun p => { p.out .fenced with ue := min (p.ue + 1) 65535 })).fenceEvents
      c none none := by
  simp only [State.coreFault, hf, Bool.not_true, Bool.false_eq_true, if_false, ha]

theorem execScoreboardWatchdogExpiry_due {c : Fin 264} {tag : Tag} {rest : List Tag} (ht : (s.x c).tags = tag :: rest)
    (ha : s.awaitsNothing c tag.owner = true) (hw : (s.x c).watch + 524288 ≤ s.time) :
    execScoreboardWatchdogExpiry c s = .next (s.coreFault c .watchdog) := by
  simp only [execScoreboardWatchdogExpiry, ht]
  rw [if_pos (by simp [ha, hw])]

/-- A core whose wait of R465 or R470 has not ended stays. -/
theorem moveIfReady_stays (hi : (t.core c).inPlace = false) {b : Bool} (hm : (t.core c).moveOut = some b) (hv : t.movable c = false) :
    t.moveIfReady c = t := by
  simp [State.moveIfReady, hi, hm, hv]

theorem moveIfReady_fences (hi : (t.core c).inPlace = false) (hm : (t.core c).moveOut = some true) (hv : t.movable c = true) :
    t.moveIfReady c = t.moveFenced c := by
  simp [State.moveIfReady, hi, hm, hv]

theorem moveIfReady_tests (hi : (t.core c).inPlace = false) (hm : (t.core c).moveOut = some false) (hv : t.movable c = true) :
    t.moveIfReady c = t.moveTested c := by
  simp [State.moveIfReady, hi, hm, hv]

theorem execCeLimitFence_reached {c : Fin 264} (h0 : fld (s.pfReg (0x40000 + c * 0x200)) 8 8 ≠ 0)
    (hl : fld (s.pfReg (0x40000 + c * 0x200)) 8 8 ≤ (s.core c).ceSum (s.time / 1000000)) (ha : (s.core c).st = .active)
    (hm : (s.core c).moveOut ≠ some true) :
    execCeLimitFence c s = .next (((s.onCore c PCore.toFence).stopHere c).moveIfReady c) :=
  congrArg _ (if_pos (by simp [State.ceReached, h0, hl, ha, hm]))

theorem selfTest_idle (h : (s.core c).st = .fenced ∨ (s.core c).st = .spare) :
    selfTest s c = s.onCore c (fun p => { p with st := .testing }) := by
  rcases h with h | h <;> simp only [selfTest, h]

theorem execSelftestDone_testing {c : Fin 264} (ht : (s.core c).st = .testing) (pass : Bool) :
    execSelftestDone c pass s = .next (if pass then (s.logError (.plain 1 0 0x0B c 0)).testPassed c
      else (s.logError (.plain 1 0 0x0C c 0)).testFailed c) := by
  cases pass <;> simp only [execSelftestDone, ht, ne_eq, not_true_eq_false, Bool.false_eq_true, if_false, if_true]

/-- Settles O38: a core fault by the state of its core; a self-test by where its core stands. -/
theorem coreFencesAndSelfTests : Obligations.CoreFencesAndSelfTests := by
  intro s c cause pass
  refine ⟨fun ha hf => ⟨?_, fun tag rest hc ht hn hw => ?_⟩, fun ha hf => ?_, fun h0 hl ha hm hi ho => ⟨fun hv => ?_, fun hv => ?_⟩,
    fun hr => ⟨fun h => ?_, fun ha hm hi => ⟨fun hq hv => ?_, fun hq => ?_⟩, fun ha hm => ?_⟩, fun ht => ?_⟩
  · exact congrArg Host.Outcome.next (coreFault_active ha hf cause)
  · subst hc
    exact (execScoreboardWatchdogExpiry_due ht hn hw).trans (congrArg _ (coreFault_active ha hf _))
  · exact congrArg Host.Outcome.next (coreFault_spare ha hf cause)
  · exact (execCeLimitFence_reached h0 hl ha hm).trans (congrArg _ (moveIfReady_fences hi ho hv))
  · exact (execCeLimitFence_reached h0 hl ha hm).trans (congrArg _ (moveIfReady_stays hi ho hv))
  · exact congrArg Host.Outcome.next ((whenReady_of_ready hr _).trans (selfTest_idle h))
  · refine congrArg Host.Outcome.next ((whenReady_of_ready hr _).trans ?_)
    simp only [selfTest, ha, hm, hi, hq]
    exact moveIfReady_tests (by simp [hi]) (by simp) hv
  · refine congrArg Host.Outcome.next ((whenReady_of_ready hr _).trans ?_)
    simp [selfTest, ha, hm, hi, hq]
  · refine congrArg Host.Outcome.next ((whenReady_of_ready hr _).trans ?_)
    simp [selfTest, ha, hm]
  · exact execSelftestDone_testing ht pass

end Sys2Proof.Machine

/-! Hangs, progress windows and the end of a context reset (20 R475 to R482). -/

namespace Sys2Proof.Machine

variable {s t u : State} {n : Nat}

theorem hangTest_of_no_tick (h : s.time % 1000000 ≠ 0 ∨ s.hangWindow = 0) : s.hangTest = s.watchWaits := by
  have ht : ¬ s.watchWaits.hangTick = true := by
    change ¬ s.hangTick = true
    simpa [State.hangTick, imp_iff_not_or] using h
  exact if_neg ht

theorem hangTest_of_tick (h1 : s.time % 1000000 = 0) (h2 : s.hangWindow ≠ 0) :
    s.hangTest = s.watchWaits.hangs s.watchWaits.hang.edges.length := by
  have ht : s.watchWaits.hangTick = true := by
    change s.hangTick = true
    simp [State.hangTick, h1, h2]
  exact if_pos ht

/-- A graph that stands and has no cycle due is left alone. -/
theorem hangs_of_none (hw : t.watchWaits = t) (hd : t.dueCycle = none) (k : Nat) : t.hangs k = t := by
  cases k with
  | zero => rfl
  | succ k => simp only [State.hangs, hw, hd]

theorem hangs_of_cycle (hw : t.watchWaits = t) {ms : List Node} (hd : t.dueCycle = some ms) (k : Nat) :
    t.hangs (k + 1) = (t.reportHang ms).hangs k := by
  simp only [State.hangs, hw, hd]

theorem progressDue_iff : s.progressDue n = true ↔ (s.ctx n).progEn = true ∧ (s.ctx n).st = .running
    ∧ s.lastProgress n + max 1 (s.ctx n).progWin * 1000000 ≤ s.time := by
  simp [State.progressDue, and_assoc]

/-- Settles O39: with or without a whole millisecond, a hang by the cycle whose window is over, progress by the context. -/
theorem hangsProgressAndContextResets : Obligations.HangsProgressAndContextResets := by
  intro s n
  refine ⟨⟨fun h => ?_, fun hw hd => ?_, fun ms k h1 h2 hw hl hd => ?_⟩, ⟨fun hs hh => ?_, fun hs hh => ?_⟩, fun hr => ?_⟩
  · exact congrArg Host.Outcome.next (hangTest_of_no_tick h)
  · by_cases h : s.time % 1000000 ≠ 0 ∨ s.hangWindow = 0
    · exact congrArg Host.Outcome.next (hangTest_of_no_tick h)
    · obtain ⟨h1, h2⟩ := not_or.1 h
      exact congrArg Host.Outcome.next ((hangTest_of_tick (not_not.1 h1) h2).trans (hangs_of_none hw hd _))
  · refine congrArg Host.Outcome.next ((hangTest_of_tick h1 h2).trans ?_)
    rw [hl, hangs_of_cycle hw hd]
    rfl
  · have h1 : s.progressDue n = true := progressDue_iff.2 hs
    have h2 : ¬ s.hangTest.progressDue n = true := mt progressDue_iff.1 hh
    change execProgressWindowExpiry n s = _
    simp only [execProgressWindowExpiry, h1, if_true, if_neg h2]
  · have h1 : s.progressDue n = true := progressDue_iff.2 hs
    have h2 : s.hangTest.progressDue n = true := progressDue_iff.2 hh
    change execProgressWindowExpiry n s = _
    simp only [execProgressWindowExpiry, h1, if_true, h2]
    rfl
  · exact congrArg Host.Outcome.next (if_neg (by simp [hr]))

end Sys2Proof.Machine

/-! Module recovery and crash dumps (20 R483 to R489). -/

namespace Sys2Proof.Machine

variable {s t u : State}

@[simp] theorem State.dev_alarm (s : State) (kind unit : Nat) : (s.alarm kind unit).dev = s.dev := by
  unfold State.alarm
  dsimp only
  cases ((alarmAdd s.belv.alarms kind unit s.time).filter (fun a => a.kind = kind && a.unit = unit)).head? <;> rfl

/-- A recovery that the host began is in progress. -/
theorem recovering_beginRecovery {cause : RecoveryCause} (hc : cause ≠ .restart) : (s.beginRecovery cause).dev.st = .recovering := by
  simp [State.beginRecovery, State.brakeAgain, hc]

theorem startRecovery_ready (hr : s.dev.st = .ready) {cause : RecoveryCause} (hc : cause ≠ .fatal ∨ s.recentStarts.length < 3) :
    startRecovery s cause = s.beginRecovery cause := by
  simp only [startRecovery, hr]
  exact if_neg (by simpa [imp_iff_not_or] using hc)

theorem startRecovery_again (hr : s.dev.st = .recovering) (hl : s.recentStarts.length < 3) :
    startRecovery s .fatal = s.beginRecovery .fatal := by
  simp [startRecovery, hr, hl]

theorem startRecovery_ignored (hr : s.dev.st = .recovering) {cause : RecoveryCause} (hc : cause ≠ .fatal) : startRecovery s cause = s := by
  simp [startRecovery, hr, hc]

theorem startRecovery_stops (hr : s.dev.st = .ready ∨ s.dev.st = .recovering) (hl : 3 ≤ s.recentStarts.length) :
    startRecovery s .fatal = s.powerStop := by
  rcases hr with hr | hr <;> simp [startRecovery, hr, hl]

theorem recoveryStart_ready (hr : s.dev.st = .ready) : recoveryStart s =
    { s.beginRecovery .host with dev := { (s.beginRecovery .host).dev with recStart := true } } := by
  rw [recoveryStart, startRecovery_ready hr (.inl (by decide))]
  exact if_pos (recovering_beginRecovery (by decide))

/-- Settles O40: a start by the state and the starts before it, a stage's end by the stage. -/
theorem recoveryAndCrashDumps : Obligations.RecoveryAndCrashDumps := by
  intro s cause silent
  refine ⟨⟨fun hr hc => ⟨?_, fun hh => ?_⟩, fun hr hc hl => ?_⟩, fun hr hc => ?_, fun hr hc hl => ?_,
    fun hr => ⟨fun h => ?_, fun h => ?_, fun h hb ht => ?_, fun h => ?_, fun h => ?_, fun h hd => ?_⟩⟩
  · exact congrArg Host.Outcome.next (startRecovery_ready hr hc)
  · subst hh
    exact congrArg Host.Outcome.next (recoveryStart_ready hr)
  · subst hc
    exact congrArg Host.Outcome.next (startRecovery_again hr hl)
  · exact congrArg Host.Outcome.next (startRecovery_ignored hr hc)
  · subst hc
    exact congrArg Host.Outcome.next (startRecovery_stops hr hl)
  · change execRecoveryStageDone s = _
    simp [execRecoveryStageDone, hr, h]
  · change execRecoveryStageDone s = _
    simp [execRecoveryStageDone, hr, h]
  · change execRecoveryStageDone s = _
    simp [execRecoveryStageDone, hr, h, hb, ht]
  · change execRecoveryStageDone s = _
    simp [execRecoveryStageDone, hr, h]
  · change execRecoveryStageDone s = _
    simp [execRecoveryStageDone, hr, h]
  · exact congrArg Host.Outcome.next (if_neg (by simp [hr, h, hd]))

end Sys2Proof.Machine

/-! Flits that arrive for a job: remote writes, reductions and membership (16 R380 to R400). -/

namespace Sys2Proof.Machine

variable {s t u : State} {port : Fin 18} {f : Flit} {p : Nat} {j : Job}

/-- Settles O41: each flit is received (`Arrives.received`); a FIN write by what has landed before it. -/
theorem remoteWritesLand : Obligations.RemoteWritesLand := by
  intro s t port f p j
  refine ⟨fun h => ⟨fun hf hw => ?_, fun hf hw => ?_, fun hf hw => ?_, fun w hf hw hn hr => ?_⟩, fun h => ⟨fun hs => ?_, fun hs => ?_⟩,
    fun h => ?_, fun a r c q hr => ?_⟩
  · refine congrArg Host.Outcome.next ((h.received _).trans ?_)
    simp only [hf, hw, Bool.not_false, if_true, Bool.false_eq_true, if_false]
  · refine congrArg Host.Outcome.next ((h.received _).trans ?_)
    simp only [hf, hw, Bool.not_false, if_true, Bool.not_true, Bool.false_eq_true, if_false]
  · refine congrArg Host.Outcome.next ((h.received _).trans ?_)
    rcases hw with hw | hw <;> simp [hf, hw]
  · refine congrArg Host.Outcome.next ((h.received _).trans ?_)
    simp [hf, hw, hn, State.releaseFin, hr]
  · exact congrArg Host.Outcome.next ((h.received _).trans (if_pos hs))
  · exact congrArg Host.Outcome.next ((h.received _).trans (if_neg (Bool.eq_false_iff.1 hs)))
  · exact congrArg Host.Outcome.next (h.received _)
  · change Host.Outcome.next (s.releaseFin a r c) = _
    simp only [State.releaseFin, hr]

/-- Settles O42: each flit is received (`Arrives.received`); the reduction, result and step that it names decide. -/
theorem remoteReductionsAndRetries : Obligations.RemoteReductionsAndRetries := by
  intro s t port f p j
  refine ⟨fun h g hg => ⟨fun hm => ?_, fun hm => ?_⟩, fun h g hg => ⟨fun u hu => ?_, fun hu => ?_⟩,
    fun i r hi => ⟨fun h1 h2 h3 => ?_, fun h1 => ?_⟩, fun h => ⟨fun w hw => ?_, fun hw => ?_⟩⟩
  · refine congrArg Host.Outcome.next ((h.received _).trans ?_)
    simp only [hg, List.contains_iff_mem, hm, if_true]
  · refine congrArg Host.Outcome.next ((h.received _).trans ?_)
    simp only [hg, List.contains_iff_mem, hm, if_false]
  · refine congrArg Host.Outcome.next ((h.received _).trans ?_)
    simp only [hg, hu]
  · refine congrArg Host.Outcome.next ((h.received _).trans ?_)
    simp only [hg, hu]
  · change execReductionWindowExpiry port i s = _
    simp [execReductionWindowExpiry, hi, Reduction.expired, h1, h2, h3]
  · change execReductionWindowExpiry port i s = _
    simp [execReductionWindowExpiry, hi, Reduction.expired, Nat.not_lt.2 h1]
  · refine congrArg Host.Outcome.next ((h.received _).trans ?_)
    simp only [hw]
  · refine congrArg Host.Outcome.next ((h.received _).trans ?_)
    simp only [hw]

/-- Settles O43: each flit is received (`Arrives.received`); what the module holds of the member decides. -/
theorem membersComeAndGo : Obligations.MembersComeAndGo := by
  refine ⟨fun s t port f p j => ⟨fun h => ?_, fun h => ⟨fun hl => ?_, fun hl hd => ?_, fun hl hd he => ?_, fun hl hd he => ?_⟩,
      fun h => ⟨fun hr he => ?_, fun hr he => ?_, fun hr he => ?_, fun hr he => ?_⟩⟩,
    fun s p rank j since hj hd => ⟨fun hl ht => ?_, fun ht => ?_⟩, fun s port hu => ?_⟩
  · exact congrArg Host.Outcome.next (h.received _)
  · exact congrArg Host.Outcome.next ((h.received _).trans (if_pos hl))
  · refine congrArg Host.Outcome.next ((h.received _).trans ?_)
    simp [hl, hd]
  · refine congrArg Host.Outcome.next ((h.received _).trans ?_)
    simp [hl, hd, he]
  · refine congrArg Host.Outcome.next ((h.received _).trans ?_)
    simp [hl, hd, he]
  · refine congrArg Host.Outcome.next ((h.received _).trans ?_)
    simp [hr, he]
  · refine congrArg Host.Outcome.next ((h.received _).trans ?_)
    simp [hr, he]
  · refine congrArg Host.Outcome.next ((h.received _).trans ?_)
    simp [hr, he]
  · refine congrArg Host.Outcome.next ((h.received _).trans ?_)
    simp [hr, he]
  · change execMemberLost p rank s = _
    simp [execMemberLost, hj, hd, hl, Nat.not_le.2 ht]
  · change execMemberLost p rank s = _
    simp [execMemberLost, hj, hd, ht]
  · exact congrArg Host.Outcome.next (if_neg (by simp [hu]))

end Sys2Proof.Machine

/-! Power, temperatures and sleep: the cap loop, points, droops, limits and the brake (18 R430 to R456). -/

namespace Sys2Proof.Machine

variable {s : State} {r : Fin 4}

/-- The state of an evaluation before the cap loop steps: the input power is taken, persisting conditions set their bits
again, fast limits end. -/
def State.evaluated (s : State) (pIn : Nat) : State :=
  ({ s with pwr := { s.pwr with pInput := pIn, evalTick := s.time, unreach := s.pwr.unreach && pIn > s.capW } } : State).persist.fastEnd

/-- The step of the cap loop behind what every evaluation does. -/
def State.capStep (b : State) (pIn pUp : Nat) : State :=
  if b.pwr.brake && b.time < b.pwr.brakeTick + 200000 then b
  else if pIn > b.effectiveCap then b.capDown
  else if 100 * pUp ≤ 98 * b.effectiveCap then b.capUp
  else b

theorem execCapLoopEvaluation_eq (pIn pUp : Nat) : execCapLoopEvaluation pIn pUp s =
    .next (if s.time % 1000000 ≠ 0 || s.time = s.pwr.evalTick || !s.belv.running then s else (s.evaluated pIn).capStep pIn pUp) := by
  unfold execCapLoopEvaluation State.evaluated State.capStep
  dsimp only

/-- An evaluation that is due steps from the state evaluated so far. -/
theorem capLoop_due {pIn pUp : Nat} (h1 : s.time % 1000000 = 0) (h2 : s.time ≠ s.pwr.evalTick) (h3 : s.belv.running = true) :
    execCapLoopEvaluation pIn pUp s = .next ((s.evaluated pIn).capStep pIn pUp) := by
  rw [execCapLoopEvaluation_eq, if_neg (by simp [h1, h2, h3])]

theorem State.capStep_held {b : State} {pIn pUp : Nat} (h1 : b.pwr.brake = true) (h2 : b.time < b.pwr.brakeTick + 200000) :
    b.capStep pIn pUp = b := by
  simp [State.capStep, h1, h2]

/-- The three bands of the cap loop, where the brake does not hold it. -/
theorem State.capStep_bands {b : State} {pIn pUp : Nat} (h : b.pwr.brake = false ∨ b.pwr.brakeTick + 200000 ≤ b.time) :
    b.capStep pIn pUp =
      if pIn > b.effectiveCap then b.capDown else if 100 * pUp ≤ 98 * b.effectiveCap then b.capUp else b := by
  refine if_neg ?_
  rcases h with h | h
  · simp [h]
  · simp [Nat.not_lt.2 h]

/-- The held clock change of an upward step takes place. -/
theorem changeClock_held {n : Nat} (h : (s.region r).held = some n) :
    s.changeClock r = (s.onRegion r (fun g => { g with point := n, held := none, settled := false })).powerEvent r := by
  simp only [State.changeClock, h]

theorem stretch_free_iff : (s.cores.any (fun c => regionOf c.1 = r && c.2.stretch)) = false
    ↔ ∀ q ∈ s.cores, regionOf q.1 = r.val → q.2.stretch = false := by
  simp

/-- The quiet period of a droop has passed. -/
theorem droopQuietEnd_quiet {t : Nat} (ht : (s.region r).droopTick = some t)
    (hq : ∀ q ∈ s.cores, regionOf q.1 = r.val → q.2.stretch = false) (hn : t + 10000 ≤ s.time) :
    execDroopQuietEnd r s = .next (
      let u := s.onRegion r (fun g => { g with droopTick := none })
      if (s.region r).settled then u.changeClock r else u) := by
  have hs := stretch_free_iff.2 hq
  simp only [execDroopQuietEnd, ht, hs, Bool.false_or, decide_eq_true_eq, Nat.not_lt.2 hn, if_false]

/-- Settles O44: the cap loop steps from the state evaluated (`capLoop_due`), by its three bands; the rest by each rule's
guard. -/
theorem capLoopPointsAndDroops : Obligations.CapLoopPointsAndDroops := by
  intro s pIn pUp r c k
  refine ⟨fun h1 h2 h3 => ?_, rfl,
    fun hp ha hh ht => ⟨fun hw => ?_, fun hw hd => ?_, fun hw hd => ?_⟩,
    fun n hh hs => ⟨fun hd => ?_, fun hd => ?_⟩, rfl, fun hs => ?_, fun t ht hq hn => ⟨fun hs => ?_, fun n hh hs => ?_⟩,
    rfl, rfl, ⟨fun ht hst => ?_, fun h => ?_⟩, rfl⟩
  · intro a b
    have due : exec (.capLoopEvaluation pIn pUp) s = .next (b.capStep pIn pUp) := capLoop_due h1 h2 h3
    clear_value b
    refine ⟨fun hb ht => ?_, fun hb => ⟨fun hi => ?_, fun hi hu => ?_, fun hi hu => ?_⟩⟩
    · rw [due, State.capStep_held hb ht]
    · rw [due, State.capStep_bands hb, if_pos hi]
    · rw [due, State.capStep_bands hb, if_neg (Nat.not_lt.2 hi), if_pos hu]
    · rw [due, State.capStep_bands hb, if_neg (Nat.not_lt.2 hi), if_neg (Nat.not_le.2 hu)]
  · refine congrArg Host.Outcome.next ?_
    simp [hh, hp, ha, Nat.not_lt.2 ht, hw, hw.ne]
  · refine congrArg Host.Outcome.next ?_
    simp [hh, hp, ha, Nat.not_lt.2 ht, hw.ne', hw.le, hd]
  · refine congrArg Host.Outcome.next ?_
    simp [hh, hp, ha, Nat.not_lt.2 ht, hw.ne', hw.le, hd]
  · refine congrArg Host.Outcome.next ?_
    simp [hh, hs, State.railSettles, hd]
  · refine congrArg Host.Outcome.next ?_
    simp [hh, hs, State.railSettles, hd, changeClock_held hh]
  · exact congrArg Host.Outcome.next (if_pos hs)
  · exact (droopQuietEnd_quiet ht hq hn).trans (congrArg Host.Outcome.next (if_neg (by simp [hs])))
  · exact (droopQuietEnd_quiet ht hq hn).trans
      (congrArg Host.Outcome.next ((if_pos hs).trans (changeClock_held (by simp [hh]))))
  · exact congrArg Host.Outcome.next (if_pos (by simp [ht, hst]))
  · refine congrArg Host.Outcome.next (if_neg ?_)
    rcases h with h | h
    · simp [h]
    · simp [h.1, h.2]

end Sys2Proof.Machine

/-! Temperatures, coolant and the input (18 R450 to R452, 24), sleep, wake and scrub (18 R433 to R436, 10 R234). -/

namespace Sys2Proof.Machine

/-- Settles O46: each sample falls in one band; a loss acts by the state of the rails. -/
theorem temperaturesCoolantAndInput : Obligations.TemperaturesCoolantAndInput := by
  intro s r st temp m
  refine ⟨⟨fun h => ?_, fun h1 h2 => ?_, fun h1 h2 => ?_, fun h => ?_⟩, ⟨fun h => ?_, fun h1 h2 => ?_, fun h1 h2 => ?_, fun h => ?_⟩,
    ⟨fun h => ?_, fun h1 h2 => ?_⟩, rfl, fun ha => ⟨⟨fun h => ?_, fun h => ?_⟩, fun h => ?_⟩, rfl, rfl, rfl, fun h1 h2 => ?_⟩
  · exact congrArg Host.Outcome.next (if_pos h)
  · exact congrArg Host.Outcome.next ((if_neg (Nat.not_le.2 h2)).trans (if_pos h1))
  · exact congrArg Host.Outcome.next
      ((if_neg (by omega)).trans ((if_neg (Nat.not_le.2 h2)).trans (if_neg (Nat.not_lt.2 h1))))
  · exact congrArg Host.Outcome.next ((if_neg (by omega)).trans ((if_neg (by omega)).trans (if_pos h)))
  · exact congrArg Host.Outcome.next (if_pos h)
  · exact congrArg Host.Outcome.next ((if_neg (Nat.not_le.2 h2)).trans (if_pos h1))
  · exact congrArg Host.Outcome.next
      ((if_neg (by omega)).trans ((if_neg (Nat.not_le.2 h2)).trans (if_neg (Nat.not_lt.2 h1))))
  · exact congrArg Host.Outcome.next ((if_neg (by omega)).trans ((if_neg (by omega)).trans (if_pos h)))
  · exact congrArg Host.Outcome.next (if_pos (by simpa using h))
  · exact congrArg Host.Outcome.next (if_neg (by simp [h1, h2]))
  · exact congrArg Host.Outcome.next ((if_neg (by simp [ha])).trans (if_pos h))
  · exact congrArg Host.Outcome.next ((if_neg (by simp [ha])).trans (if_neg h))
  · exact congrArg Host.Outcome.next (if_neg (by simp [ha, h]))
  · exact congrArg Host.Outcome.next (if_neg (by simp [h1, h2]))

/-- Settles O47: each rule acts exactly under its guard. -/
theorem sleepWakeAndScrub : Obligations.SleepWakeAndScrub := by
  intro s r st found
  refine ⟨⟨fun h1 h2 h3 => ?_, fun h => ?_, fun h => ?_⟩, fun h1 h2 h3 => ?_, fun h => ?_,
    fun h1 h2 h3 h4 => ?_, fun h => ?_, fun h => ?_, fun h1 h2 => ?_, fun h => ?_, fun h => ?_,
    fun h1 h2 => ⟨?_, fun hf => ?_⟩, fun b l h => ?_⟩
  · exact congrArg Host.Outcome.next (if_pos (by simp [h1, h2, h3]))
  · exact congrArg Host.Outcome.next (if_pos h)
  · exact congrArg Host.Outcome.next (if_neg (by simp [h]))
  · exact congrArg Host.Outcome.next (if_pos (by simp [h1, h2, h3]))
  · exact congrArg Host.Outcome.next (if_pos h)
  · exact congrArg Host.Outcome.next (if_pos (by simp [h1, h2, h3, h4]))
  · exact congrArg Host.Outcome.next (if_neg (by simp [h]))
  · exact congrArg Host.Outcome.next (if_pos h)
  · exact congrArg Host.Outcome.next (if_pos (by simp [h1, h2]))
  · exact congrArg Host.Outcome.next (if_neg (by simp [h]))
  · exact congrArg Host.Outcome.next (if_pos (by simpa using h))
  · exact congrArg Host.Outcome.next (if_neg (by simp [h1, h2]))
  · refine congrArg Host.Outcome.next ((if_neg (by simp [h1, h2])).trans ?_)
    simp [hf]
  · change execBankRetireCopyDone st s = _
    simp only [execBankRetireCopyDone, h]

end Sys2Proof.Machine

/-! Start-up, the boot of Belvedere and its messages (22 R510 to R522, 23 R526 to R537). -/

namespace Sys2Proof.Machine

variable {s : State} {via : Path} {inRom : Bool} {k : State → State}

/-- A stage that is in progress and has what it needs ends with its work. -/
theorem startStage_done {g : StartStage} (bad : List Nat) (h1 : s.inStage g = true) (h2 : s.stageReady g = true) :
    execStartStageDone g (.done bad) s = .next (s.endStage g bad) := by
  simp [execStartStageDone, h1, h2]

theorem signed_pick (b : Belv) (y : Bool) : (if y then b.signed true else b.signed false) = b.signed y := by
  cases y <;> rfl

/-- With the crypto engine's own answers, the boot ROM takes the active slot if it accepts that, else the other, else
none. -/
theorem Belv.trial_signed (b : Belv) : b.trial (b.signed false) (b.signed true) =
    if b.accepts b.activeB (b.signed b.activeB) then some b.activeB
    else if b.accepts (!b.activeB) (b.signed (!b.activeB)) then some (!b.activeB) else none := by
  simp only [Belv.trial, signed_pick]

theorem firmwareBoot_takes {x : Bool} (h1 : s.dev.aon = true) (h2 : s.belv.running = false) (h3 : s.belv.rom = false)
    (hx : s.belv.trial (s.belv.signed false) (s.belv.signed true) = some x) :
    execFirmwareBoot (s.belv.signed false) (s.belv.signed true) s = .next (s.bootSlotOf x) := by
  simp [execFirmwareBoot, h1, h2, h3, hx]

theorem firmwareBoot_stays (h1 : s.dev.aon = true) (h2 : s.belv.running = false) (h3 : s.belv.rom = false)
    (hx : s.belv.trial (s.belv.signed false) (s.belv.signed true) = none) :
    execFirmwareBoot (s.belv.signed false) (s.belv.signed true) s = .next (
      let t : State := { s with belv := { s.belv with rom := true } }
      if s.dev.st = .starting then t.failStage 0xF1 else t) := by
  simp [execFirmwareBoot, h1, h2, h3, hx]

/-- Settles O48: a stage by its end; the boot by the slots that the boot ROM accepts (`Belv.trial_signed`). -/
theorem startUpAndBoot : Obligations.StartUpAndBoot := by
  intro s bad a b id v
  refine ⟨fun g h1 h2 => ?_, fun h => ?_, fun h1 h2 => ?_, fun h => ?_, fun h => ?_, fun ha => ⟨fun h => ?_, fun h1 h2 => ?_⟩,
    fun h1 h2 h3 ha hb => ?_, fun h1 h2 => ?_, ?_, fun t ht => ⟨fun h => ?_, fun h => ?_⟩⟩
  · refine (startStage_done bad h1 h2).trans (congrArg Host.Outcome.next ?_)
    cases g <;> rfl
  · exact congrArg Host.Outcome.next (if_neg (by simp [h]))
  · exact congrArg Host.Outcome.next ((if_neg (by simp [h1])).trans (if_pos h2))
  · exact congrArg Host.Outcome.next (if_neg (by simp [h]))
  · exact congrArg Host.Outcome.next (if_neg (by simp [h]))
  · refine congrArg Host.Outcome.next ((if_neg (by simp [ha])).trans ?_)
    rcases h with h | h <;> simp [h]
  · refine congrArg Host.Outcome.next ((if_neg (by simp [ha])).trans ?_)
    simp [h1, h2]
  · subst ha hb
    by_cases hx : s.belv.accepts s.belv.activeB (s.belv.signed s.belv.activeB)
    · exact (firmwareBoot_takes h1 h2 h3 (s.belv.trial_signed.trans (if_pos hx))).trans
        (congrArg Host.Outcome.next (if_pos hx).symm)
    by_cases hy : s.belv.accepts (!s.belv.activeB) (s.belv.signed (!s.belv.activeB))
    · exact (firmwareBoot_takes h1 h2 h3 (s.belv.trial_signed.trans ((if_neg hx).trans (if_pos hy)))).trans
        (congrArg Host.Outcome.next ((if_neg hx).trans (if_pos hy)).symm)
    · exact (firmwareBoot_stays h1 h2 h3 (s.belv.trial_signed.trans ((if_neg hx).trans (if_neg hy)))).trans
        (congrArg Host.Outcome.next ((if_neg hx).trans (if_neg hy)).symm)
  · exact congrArg Host.Outcome.next (if_pos (by simp [h1, h2]))
  · rfl
  · change execTapStateChange t s = _
    cases t <;> simp_all [execTapStateChange, drivesPins]
  · change execTapStateChange t s = _
    cases t <;> simp_all [execTapStateChange, drivesPins]

/-- A message that arrives whole at a Belvedere that serves it is served. -/
theorem serveMsg_arrived (hs : s.serves inRom = true) (ha : s.arrived via = true) : serveMsg s via inRom k = k s := by
  simp [serveMsg, hs, ha]

/-- A VDM that is not accepted is discarded and counted. -/
theorem serveMsg_vdm (hs : s.serves inRom = true) (ha : s.arrived .vdm = false) : serveMsg s .vdm inRom k = s.discardMsg := by
  simp [serveMsg, hs, ha]

/-- Settles O49: each message is served (`serveMsg_arrived`) or discarded. -/
theorem mctpAndSidebandPort : Obligations.MctpAndSidebandPort := by
  intro s via eid addr vf
  refine ⟨fun hs ha => ⟨?_, ?_, ?_, ?_, ?_⟩, fun hs ha => ⟨?_, ?_⟩, fun h => ⟨?_, ?_, ?_⟩, rfl, rfl⟩
  · exact congrArg Host.Outcome.next (serveMsg_arrived hs ha)
  · exact congrArg Host.Outcome.next (serveMsg_arrived hs ha)
  · exact congrArg Host.Outcome.next (serveMsg_arrived hs ha)
  · exact congrArg Host.Outcome.next (serveMsg_arrived hs ha)
  · exact congrArg Host.Outcome.next (serveMsg_arrived hs ha)
  · exact congrArg Host.Outcome.next (serveMsg_vdm hs ha)
  · exact congrArg Host.Outcome.next (serveMsg_vdm hs ha)
  · exact congrArg Host.Outcome.next (if_pos h)
  · exact congrArg Host.Outcome.next (if_pos h)
  · exact congrArg Host.Outcome.next (if_pos h)

/-- A command of the update in its own state acts and is answered with code 0. -/
theorem inUpdate_own {cmd : Nat} {want : UpdSt} (hs : s.serves true = true) (ha : s.arrived via = true) (h : s.belv.upd = want) :
    inUpdate s via cmd want k = (k s).answer via 0x01 cmd 0 [] :=
  (serveMsg_arrived hs ha).trans (if_pos h)

/-- In another state than its own it only answers. -/
theorem inUpdate_other {cmd : Nat} {want : UpdSt} (hs : s.serves true = true) (ha : s.arrived via = true) (h : s.belv.upd ≠ want) :
    inUpdate s via cmd want k = s.answer via 0x01 cmd (if s.belv.upd = .idle then 0x80 else 0x84) [] :=
  (serveMsg_arrived hs ha).trans (if_neg h)

/-- A message about a sensor that exists is answered with code 0. -/
theorem sensorAnswer_exists {cmd id : Nat} {body : State → List Byte} (hs : s.serves false = true) (ha : s.arrived via = true)
    (h : sensorId id = true) : sensorAnswer s via cmd id body = s.drawn.answer via 0x01 cmd 0 (body s) :=
  (serveMsg_arrived hs ha).trans (if_pos h)

/-- Settles O50: each command is served in its own state (`inUpdate_own`), or only answered (`inUpdate_other`). -/
theorem sensorsAndFirmwareUpdate : Obligations.SensorsAndFirmwareUpdate := by
  intro s via ha
  refine ⟨fun hs id cmd => ⟨?_, fun h => ⟨?_, ?_, ?_⟩, fun h => ?_⟩,
    fun hs => ⟨?_, ?_, fun h => ⟨?_, ?_⟩, fun h => ⟨?_, ?_⟩, fun h => ⟨?_, ?_⟩, fun h => ⟨fun off data hl => ?_, ?_⟩, fun h => ?_,
      fun h => ?_, fun h => ?_, fun h => ?_⟩⟩
  · exact congrArg Host.Outcome.next (serveMsg_arrived hs ha)
  · exact congrArg Host.Outcome.next (sensorAnswer_exists hs ha h)
  · exact congrArg Host.Outcome.next (sensorAnswer_exists hs ha h)
  · exact congrArg Host.Outcome.next (sensorAnswer_exists hs ha h)
  · exact congrArg Host.Outcome.next ((serveMsg_arrived hs ha).trans (if_neg (Bool.eq_false_iff.1 h)))
  · exact congrArg Host.Outcome.next (serveMsg_arrived hs ha)
  · exact congrArg Host.Outcome.next (serveMsg_arrived hs ha)
  · exact congrArg Host.Outcome.next ((serveMsg_arrived hs ha).trans (if_pos h))
  · refine congrArg Host.Outcome.next ((inUpdate_other hs ha (by simp [h])).trans ?_)
    simp only [h, if_true]
  · exact congrArg Host.Outcome.next (inUpdate_own hs ha h)
  · exact congrArg Host.Outcome.next ((serveMsg_arrived hs ha).trans (if_neg (by simp [h])))
  · exact congrArg Host.Outcome.next (inUpdate_own hs ha h)
  · refine congrArg Host.Outcome.next ((inUpdate_other hs ha (by simp [h])).trans ?_)
    simp [h]
  · exact congrArg Host.Outcome.next ((serveMsg_arrived hs ha).trans (if_pos (by simp [h, hl])))
  · exact congrArg Host.Outcome.next (inUpdate_own hs ha h)
  · refine congrArg Host.Outcome.next ((inUpdate_own hs ha h).trans ?_)
    simp
  · exact congrArg Host.Outcome.next (inUpdate_own hs ha h)
  · exact congrArg Host.Outcome.next (inUpdate_own hs ha h)
  · exact congrArg Host.Outcome.next ((serveMsg_arrived hs ha).trans (if_neg h))

/-- A register command about a register that Belvedere may access and that is powered. -/
theorem regCommand_ok {cmd off : Nat} (hs : s.serves false = true) (ha : s.arrived via = true) (ho : regOk off = true)
    (hd : s.regDark off = false) : regCommand s via cmd off k = k s := by
  simp [regCommand, vendor, serveMsg_arrived hs ha, ho, hd]

/-- One about an offset that is no such register answers INVALID. -/
theorem regCommand_invalid {cmd off : Nat} (hs : s.serves false = true) (ha : s.arrived via = true) (ho : regOk off = false) :
    regCommand s via cmd off k = s.reply via cmd invalid [] := by
  simp [regCommand, vendor, serveMsg_arrived hs ha, ho]

/-- An SPDM request that the negotiation has come to, with a parameter that the responder has. -/
theorem spdm_ok {cmd need got : Nat} {body : List Byte} (hs : s.serves false = true) (ha : s.arrived via = true)
    (hn : need ≤ s.belv.spdm) : spdm s via cmd need got true body =
      ({ s with belv := { s.belv with spdm := if got = 0 then s.belv.spdm else got } } : State).drawn.answer via 0x05 cmd 0
        (body ++ s.freeBody) :=
  (serveMsg_arrived hs ha).trans ((if_neg (Nat.not_lt.2 hn)).trans (if_neg (by simp)))

/-- The measurements asked for, once the negotiation is complete. -/
theorem getMeasurements_ok {i : BitVec 8} (hs : s.serves false = true) (ha : s.arrived via = true) (hn : 3 ≤ s.belv.spdm)
    (hi : i.toNat ≤ 6 ∨ i = 0xFF) : execGetMeasurements via i s =
      .next (({ s with belv := { s.belv with spdm := s.belv.spdm } } : State).drawn.answer via 0x05 0xE0 0
        (s.measurements i.toNat ++ s.freeBody)) := by
  have h : (decide (i.toNat ≤ 6) || decide (i = 0xFF)) = true := by simpa using hi
  rw [execGetMeasurements, h, spdm_ok hs ha hn, if_pos rfl]

/-- Settles O51: each request is served (`serveMsg_arrived`), and its own check decides the code. -/
theorem spdmAndManagementCommands : Obligations.SpdmAndManagementCommands := by
  intro s via ha hs
  refine ⟨?_, fun h => ?_, fun h => ?_, fun h off len nonce i => ⟨?_, ?_, ?_, fun hi => ?_⟩,
    fun off v => ⟨fun ho hd => ⟨?_, ?_, ?_⟩, fun ho => ⟨?_, ?_⟩⟩, ?_, fun off len h1 h2 => ?_, fun i n d h1 h2 => ?_, fun h => ?_,
    fun h => ?_, fun res hr => ⟨fun h => ?_, fun h => ?_, fun h => ?_⟩, ?_⟩
  · exact congrArg Host.Outcome.next (spdm_ok hs ha (Nat.zero_le _))
  · exact congrArg Host.Outcome.next (spdm_ok hs ha h)
  · exact congrArg Host.Outcome.next (spdm_ok hs ha h)
  · exact congrArg Host.Outcome.next (spdm_ok hs ha h)
  · exact congrArg Host.Outcome.next (spdm_ok hs ha h)
  · exact congrArg Host.Outcome.next (spdm_ok hs ha h)
  · exact getMeasurements_ok hs ha h hi
  · exact congrArg Host.Outcome.next (regCommand_ok hs ha ho hd)
  · exact congrArg Host.Outcome.next (regCommand_ok hs ha ho hd)
  · exact congrArg Host.Outcome.next (regCommand_ok hs ha ho hd)
  · exact congrArg Host.Outcome.next (regCommand_invalid hs ha ho)
  · exact congrArg Host.Outcome.next (regCommand_invalid hs ha ho)
  · exact congrArg Host.Outcome.next (serveMsg_arrived hs ha)
  · exact congrArg Host.Outcome.next ((serveMsg_arrived hs ha).trans (if_neg (by simp [h1, h2])))
  · change execDumpRead via i n s = _
    by_cases hn : 1024 * n < d.size
    · rw [if_pos hn]
      refine congrArg Host.Outcome.next ((serveMsg_arrived hs ha).trans ?_)
      simp only [h2]
      exact if_neg (by simp [h1, hn])
    · rw [if_neg hn]
      refine congrArg Host.Outcome.next ((serveMsg_arrived hs ha).trans ?_)
      simp only [h2]
      exact if_pos (by simp [Nat.not_lt.1 hn])
  · refine congrArg Host.Outcome.next ((serveMsg_arrived hs ha).trans ((if_neg (by simp [h])).trans ?_))
    simp [startRecovery, h, State.reply, success]
  · exact congrArg Host.Outcome.next ((serveMsg_arrived hs ha).trans (if_pos (by simp [h])))
  · refine congrArg Host.Outcome.next ((serveMsg_arrived hs ha).trans ((if_neg (Nat.not_lt.2 hr)).trans ?_))
    simp [State.claimFor, Nat.not_lt.2 hr, h, State.reply, claimCode, success]
  · refine congrArg Host.Outcome.next ((serveMsg_arrived hs ha).trans ((if_neg (Nat.not_lt.2 hr)).trans ?_))
    simp [State.claimFor, Nat.not_lt.2 hr, h, State.reply, claimCode, claimBusy]
  · refine congrArg Host.Outcome.next ((serveMsg_arrived hs ha).trans ((if_neg (Nat.not_lt.2 hr)).trans ?_))
    simp [State.releaseFor, Nat.not_lt.2 hr, h, State.reply, claimCode, success]
  · exact congrArg Host.Outcome.next (serveMsg_arrived hs ha)

end Sys2Proof.Machine

/-! Link ports: retry, credits, training, frames and time alignment (16 R379 to R387, R401). -/

namespace Sys2Proof.Machine

variable {s : State} {port : Fin 18}

/-- A flit that takes no credit owes none back. -/
theorem Link.took_uncredited (l : Link) (tr : Trailer) : l.took 3 tr =
    (let m := ({ l with expect := (l.expect + 1) % 4096, nak := false } : Link).acked tr.ack.toNat
     if tr.chan.toNat < 3 then
       { m with credits := Tab.put m.credits tr.chan.toNat (Tab.val 0 m.credits tr.chan.toNat + tr.credits.toNat) }
     else m) := by
  by_cases h : tr.chan.toNat < 3 <;> simp [Link.took, h]

/-- A flit in sequence on an up port acts. -/
theorem inOrder_next {q ch iface : Nat} {peer : BitVec 48} {tr : Trailer} {k : State → State} (hu : (s.port q).up = true)
    (hp : (s.port q).hasPath (s.pathKey q iface peer.toNat) = true)
    (he : ((s.port q).link (s.pathKey q iface peer.toNat)).expect = tr.lseq.toNat) :
    s.inOrder q ch iface peer tr k = k (s.flitIn q ch iface peer tr) := by
  simp [State.inOrder, hu, hp, he]

/-- One out of sequence is only answered with NAK. -/
theorem inOrder_gap {q ch iface : Nat} {peer : BitVec 48} {tr : Trailer} {k : State → State} (hu : (s.port q).up = true)
    (hp : (s.port q).hasPath (s.pathKey q iface peer.toNat) = true)
    (he : ((s.port q).link (s.pathKey q iface peer.toNat)).expect ≠ tr.lseq.toNat) :
    s.inOrder q ch iface peer tr k =
      s.onPort q (fun x => x.onLink (s.pathKey q iface peer.toNat) (fun l => { l with nak := true })) := by
  simp [State.inOrder, hu, hp, he]

/-- One of an interface beyond those that the port keeps is discarded. -/
theorem inOrder_full {q ch iface : Nat} {peer : BitVec 48} {tr : Trailer} {k : State → State} (hu : (s.port q).up = true)
    (hp : (s.port q).hasPath (s.pathKey q iface peer.toNat) = false) :
    s.inOrder q ch iface peer tr k = s.onPort q (fun x => { x with discarded := x.discarded + 1 }) := by
  simp [State.inOrder, hu, hp]

/-- What an IDLE flit in sequence leaves, when it is no NAK. -/
theorem flitIn_uncredited {q iface : Nat} {peer : BitVec 48} {tr : Trailer} (h : tr.nak = false) :
    s.flitIn q 3 iface peer tr = (s.onPort q (fun x =>
      { x.setLink (s.pathKey q iface peer.toNat) (((s.port q).link (s.pathKey q iface peer.toNat)).took 3 tr) with
        rxFlits := x.rxFlits + 1 })).drain q := by
  simp only [State.flitIn, h, Bool.false_eq_true, if_false, State.onPort, Port.onLink]

/-- Training that ends with working lanes. -/
theorem Port.trained_lanes {q : Port} {lanes : Nat} (h : lanes ≠ 0) : q.trained lanes =
    ({ q.noRuns with up := true, training := false, lanes := lanes } : Port).replayAll (q.links.map (fun l => l.1)) :=
  if_neg h

theorem pfc_on_eq (prio : BitVec 3) : (s.obeysPfc port && fld (s.pfReg (lnkCtrl port)) 33 3 = prio.toNat) =
    ((s.pfReg (lnkCtrl port)).getLsbD 32 && fld (s.pfReg (lnkCtrl port)) 33 3 = prio.toNat && 2 ≤ s.linkMode port) :=
  Bool.and_right_comm _ _ _

/-- Settles O45: a flit by its place in the sequence (`inOrder_next`, `inOrder_gap`, `inOrder_full`), training and frames
by the port's mode. -/
theorem linkRetryFramesAndTime : Obligations.LinkRetryFramesAndTime := by
  refine ⟨fun s e port ack a ch cr lanes prio pause => ⟨fun hu => ⟨⟨fun h => ?_, fun h => ?_⟩, fun hp he hn => ⟨?_, ?_⟩,
      fun hp he => ⟨?_, ?_⟩, fun hp => ⟨?_, ?_⟩⟩, ?_, fun h1 h2 h3 => ?_, fun h1 h2 h3 h4 h5 => ?_,
      fun h => ⟨?_, ?_, ?_, ?_⟩, fun h => ?_, fun h => ?_⟩,
    fun s t port f p j t2 t3 t4 => ⟨fun h => ⟨⟨fun hm => ?_, fun hm => ?_⟩, fun t1 ht => ⟨fun h1 h2 => ?_, fun hx => ?_⟩, fun ht => ?_⟩,
      fun hs => ⟨fun h => ?_, fun h => ?_⟩⟩⟩
  · exact congrArg Host.Outcome.next ((if_pos hu).trans (if_neg (Nat.not_le.2 h)))
  · exact congrArg Host.Outcome.next ((if_pos hu).trans (if_pos h))
  · refine congrArg Host.Outcome.next ((inOrder_next hu hp he).trans ((flitIn_uncredited hn).trans ?_))
    rw [Link.took_uncredited]
  · refine congrArg Host.Outcome.next ((inOrder_next hu hp he).trans (congrArg (fun x => State.discardAt x e.port) ((flitIn_uncredited hn).trans ?_)))
    rw [Link.took_uncredited]
  · exact congrArg Host.Outcome.next (inOrder_gap hu hp he)
  · exact congrArg Host.Outcome.next (inOrder_gap hu hp he)
  · exact congrArg Host.Outcome.next (inOrder_full hu hp)
  · exact congrArg Host.Outcome.next (inOrder_full hu hp)
  · rfl
  · refine congrArg Host.Outcome.next ((if_pos (by simp [h1, h2])).trans ?_)
    simp only [State.onPort, Port.trained_lanes h3, Port.noRuns]
  · exact congrArg Host.Outcome.next ((if_neg (by simp [h1])).trans (if_pos (by simp [h2, h3, h4, h5])))
  · exact congrArg Host.Outcome.next (if_pos (by simpa [State.ethernet] using h))
  · exact congrArg Host.Outcome.next (if_pos (by simpa [State.ethernet] using h))
  · exact congrArg Host.Outcome.next (if_pos (by simpa [State.ethernet] using h))
  · exact congrArg Host.Outcome.next (if_pos (by simpa [State.ethernet] using h))
  · exact congrArg Host.Outcome.next (if_pos ((pfc_on_eq prio).trans h))
  · exact congrArg Host.Outcome.next (if_neg (by rw [pfc_on_eq, h]; simp))
  · exact congrArg Host.Outcome.next ((h.received _).trans (if_pos hm))
  · exact congrArg Host.Outcome.next ((h.received _).trans (if_neg (Bool.eq_false_iff.1 hm)))
  · refine congrArg Host.Outcome.next ((h.received _).trans ?_)
    simp [ht, h1, Nat.not_lt.2 h2, Port.synced, syncDelay, syncOffset]
  · refine congrArg Host.Outcome.next ((h.received _).trans ?_)
    rcases hx with hx | hx <;> simp [ht, hx]
  · refine congrArg Host.Outcome.next ((h.received _).trans ?_)
    simp only [ht]
  · obtain ⟨t1, ht⟩ := Option.isSome_iff_exists.1 hs
    refine congrArg Host.Outcome.next ?_
    simp [ht, Nat.not_le.2 h]
  · obtain ⟨t1, ht⟩ := Option.isSome_iff_exists.1 hs
    refine congrArg Host.Outcome.next ?_
    simp [ht, h]

end Sys2Proof.Machine

/-! The state after reset (17 R411 to R423, 23 R526). -/

namespace Sys2Proof.Machine

variable {s : State}

/-- Registers of the partitions' block. -/
theorem pfRead_part {off : Nat} (h1 : 0x4000 ≤ off) (h2 : off < 0x8000) : s.pfRead off = s.readPart off := by
  have h3 : ¬ off < 0x1000 ∧ ¬ off < 0x2000 ∧ ¬ off < 0x3000 ∧ ¬ off < 0x4000 := by omega
  obtain ⟨a, b, c, d⟩ := h3
  simp only [State.pfRead, a, b, c, d, h2, if_true, if_false]

/-- Registers of the stacks' block. -/
theorem pfRead_stack {off : Nat} (h1 : 0x20000 ≤ off) (h2 : off < 0x30000) : s.pfRead off = s.readStack off := by
  have h3 : ¬ off < 0x1000 ∧ ¬ off < 0x2000 ∧ ¬ off < 0x3000 ∧ ¬ off < 0x4000 ∧ ¬ off < 0x8000 ∧ ¬ off < 0x10000
    ∧ ¬ off < 0x19000 ∧ ¬ off < 0x20000 := by omega
  obtain ⟨a, b, c, d, e, f, g, h⟩ := h3
  simp only [State.pfRead, a, b, c, d, e, f, g, h, h2, if_true, if_false]

/-- Registers of the cores' block. -/
theorem pfRead_core {off : Nat} (h1 : 0x40000 ≤ off) (h2 : off < 0x61000) : s.pfRead off = s.readCore off := by
  have h3 : ¬ off < 0x1000 ∧ ¬ off < 0x2000 ∧ ¬ off < 0x3000 ∧ ¬ off < 0x4000 ∧ ¬ off < 0x8000 ∧ ¬ off < 0x10000
    ∧ ¬ off < 0x19000 ∧ ¬ off < 0x20000 ∧ ¬ off < 0x30000 ∧ ¬ off < 0x40000 := by omega
  obtain ⟨a, b, c, d, e, f, g, h, i, j⟩ := h3
  simp only [State.pfRead, a, b, c, d, e, f, g, h, i, j, h2, if_true, if_false]

theorem reset_pfReg (off : Nat) : State.reset.pfReg off = pfReset off := rfl

/-- A partition's record at reset: its control word and its formats. -/
theorem reset_partCtrl (p : Fin 256) : State.reset.pfRead (partReg p 0) = 0x320040 := by
  have hp := p.isLt
  rw [pfRead_part (by simp only [partReg]; omega) (by simp only [partReg]; omega)]
  have h1 : (partReg p 0 - 0x4000) % 0x40 ≠ 8 := by simp only [partReg]; omega
  have h2 : 0x4000 ≤ partReg p 0 ∧ partReg p 0 < 0x8000 := by simp only [partReg]; omega
  have h3 : partReg p 0 % 0x40 = 0 := by simp only [partReg]; omega
  simp [State.readPart, h1, reset_pfReg, pfReset, h2, h3]

theorem reset_partFormats (p : Fin 256) : State.reset.pfRead (partReg p 7) = 0x3FFF := by
  have hp := p.isLt
  rw [pfRead_part (by simp only [partReg]; omega) (by simp only [partReg]; omega)]
  have h1 : (partReg p 7 - 0x4000) % 0x40 ≠ 8 := by simp only [partReg]; omega
  have h2 : 0x4000 ≤ partReg p 7 ∧ partReg p 7 < 0x8000 := by simp only [partReg]; omega
  have h3 : partReg p 7 % 0x40 = 0x38 := by simp only [partReg]; omega
  simp [State.readPart, h1, reset_pfReg, pfReset, h2, h3]

/-- Every port's mode at reset is 1. -/
theorem reset_linkMode (q : Fin 18) : State.reset.linkMode q = 1 := by
  have hq := q.isLt
  have h1 : ¬ (0x4000 ≤ lnkCtrl q ∧ lnkCtrl q < 0x8000) := by simp only [lnkCtrl]; omega
  have h2 : 0x10000 ≤ lnkCtrl q ∧ lnkCtrl q < 0x19000 ∧ lnkCtrl q % 0x800 = 0 := by simp only [lnkCtrl]; omega
  have h3 : pfReset (lnkCtrl q) = 0x81 := by simp [pfReset, h1, h2]
  rw [State.linkMode, reset_pfReg, h3]
  rfl

/-- Every stack's settings at reset. -/
theorem reset_stackCtrl {k : Nat} (hk : k < 16) : State.reset.pfRead (0x20000 + k * 0x1000) = 0xA0108 := by
  rw [pfRead_stack (by omega) (by omega)]
  have h0 : (0x20000 + k * 0x1000) % 0x1000 = 0 := by omega
  have h1 : ¬ 0x20000 + k * 0x1000 < 0x8000 ∧ ¬ 0x20000 + k * 0x1000 < 0x19000 ∧ 0x20000 + k * 0x1000 < 0x30000 := by omega
  have h2 : pfReset (0x20000 + k * 0x1000) = 0xA0108 := by simp [pfReset, h0, h1]
  simp [State.readStack, h0, reset_pfReg, h2]

theorem reset_underTest (c : Nat) : (State.reset.core c).underTest = false := by
  change (PCore.fused c).underTest = false
  simp only [PCore.underTest, PCore.fused]
  split <;> rfl

/-- The control word of a core. -/
theorem readCore_ctrl {off : Nat} (h : (off - 0x40000) % 0x200 = 0) :
    s.readCore off = packed [(0, 1, b2n (s.core ((off - 0x40000) / 0x200)).underTest), (8, 8, fld (s.pfReg off) 8 8)] := by
  unfold State.readCore
  rw [h]
  rfl

/-- The status word of a core, while the device starts. -/
theorem readCore_starting {off c : Nat} (h0 : (off - 0x40000) % 0x200 = 8) (h1 : (off - 0x40000) / 0x200 = c)
    (hs : s.dev.st = .starting) : s.readCore off = ({ s.core c with logical := 0 } : PCore).status := by
  subst h1
  unfold State.readCore
  rw [h0]
  exact if_pos hs

theorem pfReset_core {off : Nat} (h1 : 0x40000 ≤ off) (h2 : off < 0x61000) (h3 : off % 0x200 = 0) : pfReset off = 0x4000 := by
  have h : ¬ off < 0x8000 ∧ ¬ off < 0x19000 ∧ ¬ off < 0x30000 := by omega
  unfold pfReset
  rw [if_neg (by simp [h]), if_neg (by simp [h]), if_neg (by simp [h]), if_pos (by simp [h1, h2, h3])]

/-- CE_LIMIT of every core at reset is 64, and no test runs. -/
theorem reset_coreCtrl {c off : Nat} (hc : c < 264) (ho : off = 0x40000 + c * 0x200) : State.reset.pfRead off = 0x4000 := by
  rw [pfRead_core (by omega) (by omega), readCore_ctrl (by omega), reset_underTest, reset_pfReg,
    pfReset_core (by omega) (by omega) (by omega)]
  rfl

/-- A core's status word at reset: ACTIVE or SPARE, without a logical number. -/
theorem reset_coreStatus {c off : Nat} (hc : c < 264) (ho : off = 0x40008 + c * 0x200) :
    State.reset.pfRead off = (if c % 66 < 64 then 0 else 1) := by
  rw [pfRead_core (by omega) (by omega), readCore_starting (c := c) (by omega) (by omega) rfl]
  change packed [(0, 3, coreCode (if c % 66 < 64 then .active else .spare)), (16, 8, 0), (24, 2, 0), (32, 16, 0), (48, 16, 0)] = _
  split <;> rfl

/-- The state of every partition at reset. -/
theorem reset_partSt (p : Fin 256) : (State.reset.part p).st = if p = 0 then PartSt.active else PartSt.unused := by
  change (if p.val = 0 then PartSt.active else PartSt.unused) = _
  simp only [Fin.ext_iff, Fin.val_zero]

/-- Stack memory reads as zero at reset, under any keys. -/
theorem reset_readByte (k : Key) (a : Nat) : State.reset.readByte k a = (0, false) := by
  have hb : State.reset.mem.bad a = false := rfl
  have hk : Tab.at? State.reset.unitKey (a / 64) = none := rfl
  simp [State.readByte, hk, hb]

/-- Settles O52: closed registers by evaluation, the registers of blocks by their addresses. -/
theorem resetState : Obligations.ResetState := by
  refine ⟨by decide, rfl, rfl, by decide, by decide, by decide, by decide, by decide, by decide, by decide,
    fun p => ⟨reset_partCtrl p, reset_partFormats p, reset_partSt p⟩, fun q => ⟨reset_linkMode q, rfl⟩,
    fun k => reset_stackCtrl k.isLt,
    fun c => ⟨reset_coreCtrl c.isLt rfl, reset_coreStatus c.isLt rfl, rfl, rfl, fun h => if_pos h⟩, fun _ => rfl, reset_readByte,
    fun _ _ => rfl⟩

end Sys2Proof.Machine

/-! A write of stack memory: what it leaves of the bytes, the poison marks, the keys of the units and the damage (10 R231
to R236). -/

namespace Sys2Proof.Machine

variable {s : State} {m : Ram}

/-! ### Records leave the stacks alone -/

/-- Bytes, keys of the units, and damage in flight. -/
def State.stacks (s : State) : Ram × Tab Key × List Upset := (s.mem, s.unitKey, s.upsets)

@[simp] theorem State.stacks_alarm (s : State) (kind unit : Nat) : (s.alarm kind unit).stacks = s.stacks := by
  unfold State.alarm
  dsimp only
  cases ((alarmAdd s.belv.alarms kind unit s.time).filter (fun a => a.kind = kind && a.unit = unit)).head? <;> rfl

@[simp] theorem State.stacks_pushRec (s : State) (r : ErrRec) : (s.pushRec r).stacks = s.stacks := by
  unfold State.pushRec
  dsimp only
  split <;> rfl

@[simp] theorem State.stacks_pushRecs (s : State) (l : List ErrRec) : (s.pushRecs l).stacks = s.stacks := by
  induction l generalizing s with
  | nil => rfl
  | cons r l ih =>
    unfold State.pushRecs
    split
    · rfl
    · rw [ih]; rfl

@[simp] theorem State.stacks_setErr (s : State) (e : ErrRing) : ({ s with err := e } : State).stacks = s.stacks := rfl

@[simp] theorem State.stacks_errRoll (s : State) : s.errRoll.stacks = s.stacks := by
  unfold State.errRoll
  split <;> simp

@[simp] theorem State.stacks_logError (s : State) (e : ErrIn) : (s.logError e).stacks = s.stacks := by
  have hl : (if e.cls = 2 then s.errRoll.alarm alarmFatal e.unit else s.errRoll).stacks = s.stacks := by
    split <;> simp
  unfold State.logError
  dsimp only
  generalize (if e.cls = 2 then s.errRoll.alarm alarmFatal e.unit else s.errRoll) = u at hl ⊢
  split <;> split <;> simp [hl]

@[simp] theorem State.stacks_damageRec (s : State) (ty unit addr : Nat) (u : Upset) (ok : Bool) :
    (s.damageRec ty unit addr u ok).stacks = s.stacks := s.stacks_logError _

/-! ### A byte memory after a write -/

/-- A byte written is poisoned afterwards when its granule was, or when the source was poisoned. -/
theorem Ram.bad_poke (m : Ram) (a n x y : Nat) (b : PByte) :
    (m.poke a n x b).bad y = (m.bad y || (decide (x / 8 = y / 8) && b.2)) := by
  unfold Ram.poke
  split
  · next h =>
    have hx : m.bad x = true := by simp_all
    by_cases e : x / 8 = y / 8
    · have : m.bad y = true := by simpa [Ram.bad, e] using hx
      simp [this]
    · simp [e]
  · by_cases e : x / 8 = y / 8
    · cases b.2 <;> simp [Ram.bad, e]
    · cases b.2 <;> simp [Ram.bad, e, Ne.symm e]

theorem Ram.bad_pokes (m : Ram) (a n x y : Nat) (bs : List PByte) : (m.pokes a n x bs).bad y = true ↔
    m.bad y = true ∨ ∃ i b, bs[i]? = some b ∧ b.2 = true ∧ (x + i) / 8 = y / 8 := by
  induction bs generalizing m x with
  | nil => simp [Ram.pokes]
  | cons c r ih =>
    rw [Ram.pokes, ih, Ram.bad_poke]
    constructor
    · rintro (h | ⟨i, b, hi, hb, he⟩)
      · rcases Bool.or_eq_true_iff.1 h with h | h
        · exact .inl h
        · exact .inr ⟨0, c, rfl, by simp_all⟩
      · exact .inr ⟨i + 1, b, hi, hb, by rw [← he]; congr 1; omega⟩
    · rintro (h | ⟨i, b, hi, hb, he⟩)
      · simp [h]
      · cases i with
        | zero =>
          cases hi
          exact .inl (by simp_all)
        | succ i => exact .inr ⟨i, b, hi, hb, by rw [← he]; congr 1; omega⟩

theorem Tab.at?_filter_off {α : Type} (t : Tab α) (f : Nat → Bool) (k : Nat) (h : f k = false) :
    Tab.at? (t.filter (fun p => f p.1)) k = none := by
  induction t with
  | nil => rfl
  | cons q r ih =>
    obtain ⟨g, u⟩ := q
    by_cases w : f g = true
    · have e : g ≠ k := by rintro rfl; simp [h] at w
      rw [List.filter_cons_of_pos (by simpa using w)]
      simpa [Tab.at?, e] using ih
    · rw [List.filter_cons_of_neg (by simpa using w)]
      exact ih

theorem Ram.bad_heal (m : Ram) (a n y : Nat) : (m.heal a n).bad y = (m.bad y && !wholeGranule a n y) := by
  unfold Ram.bad Ram.heal
  cases h : wholeGranule a n y with
  | false =>
    rw [Tab.at?_filter m.poison (fun g => !wholeGranule a n (8 * g)) (y / 8) (by simp [wholeGranule_mul, h])]
    simp
  | true =>
    rw [Tab.at?_filter_off m.poison (fun g => !wholeGranule a n (8 * g)) (y / 8) (by simp [wholeGranule_mul, h])]
    simp

/-- The poison marks after a write: those that it does not replace whole, and those of its poisoned bytes. -/
theorem Ram.bad_write (m : Ram) (a y : Nat) (bs : List PByte) : (m.write a bs).bad y = true ↔
    (m.bad y = true ∧ wholeGranule a bs.length y = false) ∨ ∃ i b, bs[i]? = some b ∧ b.2 = true ∧ (a + i) / 8 = y / 8 := by
  rw [Ram.write, Ram.bad_pokes, Ram.bad_heal]
  simp

theorem Ram.peek_snd (m : Ram) (y : Nat) : (m.peek y).2 = m.bad y := by
  unfold Ram.peek
  split <;> simp_all

theorem Ram.get_poke_ne (m : Ram) (a n x y : Nat) (b : PByte) (h : y ≠ x) : (m.poke a n x b).get y = m.get y := by
  unfold Ram.poke
  split
  · rfl
  · exact setByte_val_ne _ _ _ _ h

theorem Ram.get_pokes_out (m : Ram) (a n x y : Nat) (bs : List PByte) (h : y < x ∨ x + bs.length ≤ y) :
    (m.pokes a n x bs).get y = m.get y := by
  induction bs generalizing m x with
  | nil => rfl
  | cons b r ih =>
    simp only [List.length_cons] at h
    rw [Ram.pokes, ih _ _ (by omega), Ram.get_poke_ne _ _ _ _ _ _ (by omega)]

/-- A write leaves the bits of every byte outside its range. -/
theorem Ram.get_write_out (m : Ram) (a y : Nat) (bs : List PByte) (h : y < a ∨ a + bs.length ≤ y) :
    (m.write a bs).get y = m.get y :=
  Ram.get_pokes_out (m.heal a bs.length) a bs.length a y bs h

/-- A byte that is written where no poison stands holds what was written. -/
theorem Ram.get_pokes_in (m : Ram) (a n x i : Nat) (bs : List Byte) {b : Byte} (hb : bs[i]? = some b)
    (hm : m.bad (x + i) = false ∨ wholeGranule a n (x + i) = true) : (m.pokes a n x (clean bs)).get (x + i) = b := by
  induction bs generalizing m x i with
  | nil => simp at hb
  | cons c r ih =>
    change (Ram.pokes (m.poke a n x (c, false)) a n (x + 1) (clean r)).get (x + i) = b
    cases i with
    | zero =>
      cases hb
      rw [Ram.get_pokes_out _ _ _ _ _ _ (by omega)]
      have h : (m.bad x && !wholeGranule a n x) = false := by rcases hm with h | h <;> simp_all
      simp only [Ram.poke, h, Bool.false_eq_true, if_false]
      exact setByte_val_same _ _ _
    | succ i =>
      have e : x + (i + 1) = x + 1 + i := by omega
      rw [e] at hm ⊢
      exact ih _ _ _ hb (by simpa [Ram.bad_poke] using hm)

/-- Bytes without poison, written where no poison stands, read back. -/
theorem Ram.get_write_clean (m : Ram) (a i : Nat) (bs : List Byte) {b : Byte} (hb : bs[i]? = some b)
    (hm : m.bad (a + i) = false) : (m.write a (clean bs)).get (a + i) = b :=
  Ram.get_pokes_in _ _ _ _ _ _ hb (.inl (by simp [Ram.bad_heal, hm]))

/-- They add no poison. -/
theorem Ram.bad_write_clean (m : Ram) (a y : Nat) (bs : List Byte) :
    (m.write a (clean bs)).bad y = (m.bad y && !wholeGranule a bs.length y) := by
  rw [Bool.eq_iff_iff, Ram.bad_write]
  simp [clean]

/-- A write leaves the poison marks of the granules that it does not touch. -/
theorem Ram.bad_write_out (m : Ram) (a y : Nat) (bs : List PByte)
    (h : y / 8 < a / 8 ∨ (a + bs.length - 1) / 8 < y / 8) : (m.write a bs).bad y = m.bad y := by
  rw [← Ram.peek_snd, Ram.peek_write_out _ _ _ _ h, Ram.peek_snd]

/-! ### Damage that a write meets -/

theorem State.stacks_setMem (s : State) (m : Ram) : ({ s with mem := m } : State).stacks = (m, s.unitKey, s.upsets) := rfl

/-- What is made of a damaged granule is written whole. -/
theorem State.settleGranule_writes (s : State) (u : Upset) (g : Nat) (w : Codeword) : ∃ bs : List PByte, bs.length = 8
    ∧ (s.settleGranule u g w).stacks = (s.mem.write (8 * g) bs, s.unitKey, s.upsets) := by
  cases w with
  | clean v => exact ⟨clean (leBytes 8 v.toNat), by simp [clean, leBytes], by simp only [State.settleGranule, State.stacks_setMem]⟩
  | corrected v =>
    refine ⟨clean (leBytes 8 v.toNat), by simp [clean, leBytes], ?_⟩
    simp only [State.settleGranule, State.stacks_damageRec, State.stacks_setMem]
  | poison => exact ⟨List.replicate 8 (0xFF, true), List.length_replicate, by simp only [State.settleGranule, State.stacks_setMem]⟩
  | uncorrectable =>
    refine ⟨List.replicate 8 (0xFF, true), List.length_replicate, ?_⟩
    simp only [State.settleGranule, State.stacks_damageRec, State.stacks_setMem]

/-- `t` differs from `s` in granules that `P` names alone, and in damage that is no longer there; no poison mark is gone. -/
structure MetIn (P : Nat → Prop) (s t : State) : Prop where
  keys : t.unitKey = s.unitKey
  upsets : t.upsets ⊆ s.upsets
  bad : ∀ y, s.mem.bad y = true → t.mem.bad y = true
  out : ∀ y, ¬ P (y / 8) → t.mem.bad y = s.mem.bad y ∧ t.mem.get y = s.mem.get y

theorem MetIn.refl (P : Nat → Prop) (s : State) : MetIn P s s := ⟨rfl, fun _ h => h, fun _ h => h, fun _ _ => ⟨rfl, rfl⟩⟩

theorem MetIn.trans {P : Nat → Prop} {s t u : State} (h : MetIn P s t) (k : MetIn P t u) : MetIn P s u :=
  ⟨k.keys.trans h.keys, fun _ i => h.upsets (k.upsets i), fun y i => k.bad y (h.bad y i),
    fun y i => ⟨(k.out y i).1.trans (h.out y i).1, (k.out y i).2.trans (h.out y i).2⟩⟩

/-- A damaged granule that is read changes, where it is not poisoned. -/
theorem State.meetGranule_met {P : Nat → Prop} (s : State) (u : Upset) (g : Nat) (hg : P g) : MetIn P s (s.meetGranule u g) := by
  have hd : ∀ x ∈ (s.dropUpset u).upsets, x ∈ s.upsets := fun x hx => List.mem_of_mem_erase hx
  unfold State.meetGranule
  dsimp only
  split
  · exact ⟨rfl, hd, fun _ h => h, fun _ _ => ⟨rfl, rfl⟩⟩
  · next hb =>
    obtain ⟨bs, hl, hs⟩ := State.settleGranule_writes (s.dropUpset u) u g (struck (BitVec.ofNat 64 (leNat ((List.range 8).map
      (fun i => (s.dropUpset u).mem.get (8 * g + i))))) u.flips)
    obtain ⟨hm, hk, hu⟩ : _ ∧ _ ∧ _ := by simpa only [State.stacks, Prod.mk.injEq] using hs
    have hbad : s.mem.bad (8 * g) = false := Bool.eq_false_iff.2 hb
    have ne : ∀ y, s.mem.bad y = true → y / 8 ≠ g := by
      rintro y hy rfl
      simp [Ram.bad] at hbad hy
      simp [hbad] at hy
    refine ⟨hk, fun x hx => hd x (hu ▸ hx), fun y hy => ?_, fun y hy => ?_⟩
    · rw [hm, Ram.bad_write]
      refine .inl ⟨hy, ?_⟩
      have := ne y hy
      simp [wholeGranule, hl]
      omega
    · have : y / 8 ≠ g := fun e => hy (e ▸ hg)
      rw [hm]
      exact ⟨Ram.bad_write_out _ _ _ _ (by omega), Ram.get_write_out _ _ _ _ (by omega)⟩

theorem State.meetAll_met {P : Nat → Prop} (l : List Upset) (s : State) (hl : ∀ u ∈ l, ∀ g, u.granule = some g → P g) :
    MetIn P s (s.meetAll l) := by
  induction l generalizing s with
  | nil => exact MetIn.refl P s
  | cons u r ih =>
    rw [State.meetAll]
    refine MetIn.trans ?_ (ih _ (fun v hv => hl v (List.mem_cons_of_mem _ hv)))
    split
    · next g hg => exact s.meetGranule_met u g (hl u List.mem_cons_self g hg)
    · exact MetIn.refl P s

/-- A write of `[a, a + n)` meets damage in granule `g`, which it writes in part. -/
def State.meets (s : State) (a n g : Nat) : Prop :=
  ∃ u ∈ s.upsets, u.within a n = true ∧ u.granule = some g ∧ wholeGranule a n (8 * g) = false

/-- Damage that is left when the write has replaced what it writes whole. -/
def State.unreplaced (s : State) (a n : Nat) : State :=
  { s with upsets := s.upsets.filter (fun u => !u.granule.any (fun g => wholeGranule a n (8 * g))) }

theorem State.mem_unreplaced {a n : Nat} {u : Upset} (h : u ∈ (s.unreplaced a n).upsets) : u ∈ s.upsets
    ∧ ∀ g, u.granule = some g → wholeGranule a n (8 * g) = false := by
  obtain ⟨hu, hw⟩ := List.mem_filter.1 h
  exact ⟨hu, fun g hg => by simpa [hg] using hw⟩

theorem State.overwrite_unreplaced (s : State) (a n : Nat) : MetIn (s.meets a n) (s.unreplaced a n) (s.overwrite a n) := by
  refine State.meetAll_met _ _ (fun u hu g hg => ?_)
  obtain ⟨hm, hw⟩ := List.mem_filter.1 hu
  obtain ⟨hs, hn⟩ := State.mem_unreplaced hm
  exact ⟨u, hs, hw, hg, hn g hg⟩

theorem State.overwrite_met (s : State) (a n : Nat) : MetIn (s.meets a n) s (s.overwrite a n) :=
  have h : MetIn (s.meets a n) s (s.unreplaced a n) :=
    ⟨rfl, fun _ h => (State.mem_unreplaced h).1, fun _ h => h, fun _ _ => ⟨rfl, rfl⟩⟩
  h.trans (s.overwrite_unreplaced a n)

/-- Damage in a granule that is written whole is gone. -/
theorem State.overwrite_whole {a n : Nat} {u : Upset} (h : u ∈ (s.overwrite a n).upsets) {g : Nat} (hg : u.granule = some g) :
    wholeGranule a n (8 * g) = false :=
  (State.mem_unreplaced ((s.overwrite_unreplaced a n).upsets h)).2 g hg

/-! ### Units that a write takes over -/

theorem Ram.bad_congr (m : Ram) {x y : Nat} (h : x / 8 = y / 8) : m.bad x = m.bad y := by
  simp only [Ram.bad, h]

/-- A byte of a unit in other keys: poisoned exactly when its granule is. -/
theorem crossUnit_poison {w k : Key} {u i : Nat} {b : PByte} (h : (crossUnit w k m u)[i]? = some b) :
    i < 64 ∧ b.2 = m.bad (64 * u + i) := by
  obtain ⟨hi, rfl⟩ := List.getElem?_eq_some_iff.1 h
  have hi : i < 64 := by simpa [crossUnit] using hi
  refine ⟨hi, ?_⟩
  simp only [crossUnit, List.getElem_map, List.getElem_range]
  split <;> simp_all

/-- A unit that is decrypted with new keys keeps its poison marks (10 R233). -/
theorem bad_write_crossUnit (w k : Key) (m : Ram) (u y : Nat) : (m.write (64 * u) (crossUnit w k m u)).bad y = m.bad y := by
  have hl : (crossUnit w k m u).length = 64 := by simp [crossUnit]
  rw [Bool.eq_iff_iff, Ram.bad_write, hl]
  constructor
  · rintro (⟨h, -⟩ | ⟨i, b, hi, hb, he⟩)
    · exact h
    · rw [(crossUnit_poison hi).2] at hb
      exact (m.bad_congr he).symm.trans hb
  · intro h
    by_cases hu : y / 64 = u
    · have hi : y - 64 * u < (crossUnit w k m u).length := by omega
      have e := List.getElem?_eq_getElem hi
      have ey : 64 * u + (y - 64 * u) = y := by omega
      exact .inr ⟨y - 64 * u, _, e, by rw [(crossUnit_poison e).2, ey]; exact h, by rw [ey]⟩
    · refine .inl ⟨h, ?_⟩
      simp [wholeGranule]
      omega

/-- `t` is `s` with the units `us` taken over to the keys `k`. -/
structure TakenOver (k : Key) (us : List Nat) (s t : State) : Prop where
  keys : ∀ v, Tab.at? t.unitKey v = if v ∈ us then some k else Tab.at? s.unitKey v
  upsets : t.upsets = s.upsets
  bad : ∀ y, t.mem.bad y = s.mem.bad y
  get : ∀ y, y / 64 ∉ us ∨ Tab.at? s.unitKey (y / 64) = some k → t.mem.get y = s.mem.get y

/-- A unit changes only in its keys, or is decrypted with the new ones when other keys hold it. -/
theorem State.rekey_cases (s : State) (k : Key) (a n u : Nat) :
    s.rekey k a n u = { s with unitKey := Tab.put s.unitKey u k } ∨ ∃ w, Tab.at? s.unitKey u = some w ∧ w ≠ k
      ∧ s.rekey k a n u = { s with unitKey := Tab.put s.unitKey u k, mem := s.mem.write (64 * u) (crossUnit w k s.mem u) } := by
  unfold State.rekey
  dsimp only
  split
  · exact .inl rfl
  · next w hw =>
    split
    · exact .inl rfl
    · next hc => exact .inr ⟨w, hw, fun e => hc (by simp [e]), rfl⟩

theorem State.rekey_takenOver (s : State) (k : Key) (a n u : Nat) : TakenOver k [u] s (s.rekey k a n u) := by
  have hk : ∀ v, Tab.at? (Tab.put s.unitKey u k) v = if v ∈ [u] then some k else Tab.at? s.unitKey v := by
    intro v
    simp [Tab.at?_put]
  rcases s.rekey_cases k a n u with e | ⟨w, hw, hne, e⟩
  · rw [e]
    exact ⟨hk, rfl, fun _ => rfl, fun _ _ => rfl⟩
  · have hb := bad_write_crossUnit w k s.mem u
    have hg : ∀ y, y / 64 ≠ u → (s.mem.write (64 * u) (crossUnit w k s.mem u)).get y = s.mem.get y := by
      intro y hy
      have hl : (crossUnit w k s.mem u).length = 64 := by simp [crossUnit]
      exact Ram.get_write_out _ _ _ _ (by omega)
    generalize s.mem.write (64 * u) (crossUnit w k s.mem u) = m at e hb hg
    rw [e]
    refine ⟨hk, rfl, hb, fun y hy => hg y ?_⟩
    rintro rfl
    rcases hy with hy | hy
    · simp at hy
    · exact hne (Option.some.inj (hw.symm.trans hy))

theorem State.rekeys_takenOver (s : State) (k : Key) (a n : Nat) (l : List Nat) :
    TakenOver k (l.map (fun i => a / 64 + i)) s (s.rekeys k a n l) := by
  induction l generalizing s with
  | nil => exact ⟨fun _ => by simp [State.rekeys], rfl, fun _ => rfl, fun _ _ => rfl⟩
  | cons i r ih =>
    have h1 := s.rekey_takenOver k a n (a / 64 + i)
    have h2 := ih (s.rekey k a n (a / 64 + i))
    rw [State.rekeys]
    refine ⟨fun v => ?_, h2.upsets.trans h1.upsets, fun y => (h2.bad y).trans (h1.bad y), fun y hy => ?_⟩
    · rw [h2.keys, h1.keys]
      simp only [List.map_cons, List.mem_cons, List.not_mem_nil, or_false]
      by_cases e : v = a / 64 + i <;> simp [e]
    · refine (h2.get y ?_).trans (h1.get y ?_)
      · rw [h1.keys]
        rcases hy with hy | hy
        · exact .inl (fun h => hy (List.mem_cons_of_mem _ h))
        · right
          split
          · rfl
          · exact hy
      · exact hy.imp_left (fun hy h => hy (by simp_all))

/-- The units that a write of `[a, a + n)` touches. -/
theorem mem_touched {a n v : Nat} (hn : 0 < n) :
    v ∈ (List.range ((a + n - 1) / 64 - a / 64 + 1)).map (fun i => a / 64 + i) ↔ a / 64 ≤ v ∧ v ≤ (a + n - 1) / 64 := by
  simp only [List.mem_map, List.mem_range]
  constructor
  · rintro ⟨i, hi, rfl⟩
    omega
  · rintro ⟨h1, h2⟩
    exact ⟨v - a / 64, by omega, by omega⟩

/-! ### A write as the keys read it -/

theorem State.readByte_bad {k : Key} {y : Nat} (h : s.mem.bad y = true) : s.readByte k y = (0xFF, true) := by
  unfold State.readByte
  split <;> simp [h]

theorem State.readByte_own {k : Key} {y : Nat} (h : Tab.at? s.unitKey (y / 64) = some k) : s.readByte k y = s.mem.peek y := by
  simp only [State.readByte, h, if_true, Ram.peek]

/-- A unit in the same keys with the same bits and marks reads the same under any keys. -/
theorem State.readByte_congr {t : State} {y : Nat} (k : Key) (hk : Tab.at? t.unitKey (y / 64) = Tab.at? s.unitKey (y / 64))
    (hm : ∀ z, z / 64 = y / 64 → t.mem.bad z = s.mem.bad z ∧ t.mem.get z = s.mem.get z) : t.readByte k y = s.readByte k y := by
  have hu : unitBytes t.mem (y / 64) = unitBytes s.mem (y / 64) := by
    refine List.map_congr_left (fun i hi => (hm _ ?_).2)
    have := List.mem_range.1 hi
    omega
  simp only [State.readByte, hk, (hm y rfl).1, (hm y rfl).2, hu]

/-- The state in which a write of `[a, a + n)` stores its bytes: damage is met, and its units are in its keys. -/
def State.prepared (s : State) (k : Key) (a n : Nat) : State :=
  (s.overwrite a n).rekeys k a n (List.range ((a + n - 1) / 64 - a / 64 + 1))

/-- The state with its stack memory replaced. -/
def State.withMem (s : State) (m : Ram) : State := { s with mem := m }

@[simp] theorem State.withMem_mem (s : State) (m : Ram) : (s.withMem m).mem = m := rfl
@[simp] theorem State.withMem_unitKey (s : State) (m : Ram) : (s.withMem m).unitKey = s.unitKey := rfl
@[simp] theorem State.withMem_upsets (s : State) (m : Ram) : (s.withMem m).upsets = s.upsets := rfl

theorem State.writePhys_clean {k : Key} {a : Nat} {bs : List Byte} (h : 0 < bs.length) : s.writePhys k a (clean bs) =
    (s.prepared k a bs.length).withMem ((s.prepared k a bs.length).mem.write a (clean bs)) := by
  have hl : (clean bs).length = bs.length := by simp [clean]
  have he : (clean bs).isEmpty = false := by
    cases bs with
    | nil => simp at h
    | cons b r => rfl
  simp only [State.writePhys, he, hl, Bool.false_eq_true, if_false, State.prepared, State.withMem]

section
variable {k : Key} {a n : Nat}

theorem State.prepared_takenOver (s : State) (k : Key) (a n : Nat) :
    TakenOver k ((List.range ((a + n - 1) / 64 - a / 64 + 1)).map (fun i => a / 64 + i)) (s.overwrite a n) (s.prepared k a n) :=
  State.rekeys_takenOver _ _ _ _ _

theorem State.prepared_upsets : (s.prepared k a n).upsets = (s.overwrite a n).upsets := (s.prepared_takenOver k a n).upsets

/-- The units that the write touches are in its keys, and every other one in those that it was in. -/
theorem State.prepared_key (hn : 0 < n) (v : Nat) : Tab.at? (s.prepared k a n).unitKey v =
    if a / 64 ≤ v ∧ v ≤ (a + n - 1) / 64 then some k else Tab.at? s.unitKey v := by
  rw [(s.prepared_takenOver k a n).keys, (s.overwrite_met a n).keys]
  simp only [mem_touched hn]

theorem State.prepared_bad_of_bad {y : Nat} (h : s.mem.bad y = true) : (s.prepared k a n).mem.bad y = true := by
  rw [(s.prepared_takenOver k a n).bad]
  exact (s.overwrite_met a n).bad y h

theorem State.prepared_bad {y : Nat} (h : ¬ s.meets a n (y / 8)) : (s.prepared k a n).mem.bad y = s.mem.bad y := by
  rw [(s.prepared_takenOver k a n).bad]
  exact ((s.overwrite_met a n).out y h).1

theorem State.prepared_get {y : Nat} (hn : 0 < n) (h : ¬ s.meets a n (y / 8))
    (hy : ¬ (a / 64 ≤ y / 64 ∧ y / 64 ≤ (a + n - 1) / 64) ∨ Tab.at? s.unitKey (y / 64) = some k) :
    (s.prepared k a n).mem.get y = s.mem.get y := by
  rw [(s.prepared_takenOver k a n).get y ?_]
  · exact ((s.overwrite_met a n).out y h).2
  · rw [(s.overwrite_met a n).keys, mem_touched hn]
    exact hy

/-- Damage that the write meets lies in the units that it touches. -/
theorem State.meets_touched {g : Nat} (hn : 0 < n) (h : s.meets a n g) :
    a / 64 ≤ 8 * g / 64 ∧ 8 * g / 64 ≤ (a + n - 1) / 64 := by
  obtain ⟨u, -, hw, hg, -⟩ := h
  have : 8 * g < a + n ∧ a < 8 * g + 8 := by simpa [Upset.within, hg] using hw
  omega

end

/-- Settles O56: meeting damage changes no other granule (`MetIn`), taking units over changes no mark (`TakenOver`), and
clean bytes read
back. -/
theorem physicalWritesReadBack : Obligations.PhysicalWritesReadBack := by
  intro s k a bs
  rcases Nat.eq_zero_or_pos bs.length with h0 | hn
  · obtain rfl := List.length_eq_zero_iff.1 h0
    refine ⟨fun i b hb => by simp at hb, fun y _ _ _ => rfl, fun u _ g _ => ?_, fun y k' _ => rfl,
      fun y k' hy _ => State.readByte_bad hy⟩
    simp [wholeGranule]
    omega
  rw [State.writePhys_clean hn]
  have key := fun v => s.prepared_key (k := k) (a := a) hn v
  have notMet {y : Nat} (hs : ∀ u ∈ s.upsets, u.within a bs.length = true → u.granule = some (y / 8) →
      wholeGranule a bs.length y = true) : ¬ s.meets a bs.length (y / 8) := by
    rintro ⟨u, hu, hw, hg, hf⟩
    rw [wholeGranule_mul, hs u hu hw hg] at hf
    cases hf
  refine ⟨fun i b hb hm hs => ?_, fun y hy hs hk => ?_, fun u hu g hg => ?_, fun y k' hy => ?_, fun y k' hy hw => ?_⟩
  · have hi : i < bs.length := (List.getElem?_eq_some_iff.1 hb).1
    have hbad : (s.prepared k a bs.length).mem.bad (a + i) = false := (State.prepared_bad (notMet hs)).trans hm
    have hkey : Tab.at? (s.prepared k a bs.length).unitKey ((a + i) / 64) = some k := (key _).trans (if_pos (by omega))
    rw [State.readByte_own (by exact hkey), State.withMem_mem]
    simp only [Ram.peek, Ram.bad_write_clean, hbad, Bool.false_and, Bool.false_eq_true, if_false, Ram.get_write_clean _ _ _ _ hb hbad]
  · have hkey : Tab.at? (s.prepared k a bs.length).unitKey (y / 64) = some k := by
      rw [key, hk, ite_self]
    rw [State.readByte_own (by exact hkey), State.readByte_own hk, State.withMem_mem, Ram.peek_write_clean _ _ _ _ hy]
    simp only [Ram.peek, State.prepared_bad (notMet hs), State.prepared_get hn (notMet hs) (.inr hk)]
  · refine State.overwrite_whole (s := s) (u := u) ?_ hg
    rw [← State.prepared_upsets (k := k)]
    exact hu
  · refine State.readByte_congr k' ((key _).trans (if_neg (by omega))) (fun z hz => ?_)
    have hz8 : ¬ s.meets a bs.length (z / 8) := fun h => by
      have := State.meets_touched hn h
      omega
    have hlen : (clean bs).length = bs.length := by simp [clean]
    exact ⟨(Ram.bad_write_out _ _ _ _ (by omega)).trans (State.prepared_bad hz8),
      (Ram.get_write_out _ _ _ _ (by omega)).trans (State.prepared_get hn hz8 (.inl (by omega)))⟩
  · refine State.readByte_bad ?_
    rw [State.withMem_mem, Ram.bad_write_clean, State.prepared_bad_of_bad hy, hw]
    rfl

end Sys2Proof.Machine
